-- ==== Sys2Proof/Word.lean ====
section
/-! DEFINITION. The word types and their plainest arithmetic (R5, R41). -/
namespace Sys2Proof

/-- An instruction word (R39). -/
abbrev Word := BitVec 32
/-- A 64-bit value of a g register or a memory word (R5, R30). -/
abbrev D := BitVec 64
/-- A 128-bit name or pair of registers (R30). -/
abbrev Q := BitVec 128
/-- The 1,024 bits of a vector register (R112). -/
abbrev V := BitVec 1024
/-- A byte of memory. -/
abbrev Byte := BitVec 8

end Sys2Proof
end

