-- ==== Sys2Proof/Config.lean ====
section
/-! DEFINITION. What one part fixes and this spec leaves open. Every constant here is opaque: it has no value that Lean
can compute or prove, so what is proved holds whatever the part does. The argument is the draw's number (`Dev.free`). -/
namespace Sys2Proof.Config

/-- A free number: extra latency inside a stated range, a choice the spec leaves to the part (log 4). -/
opaque freeNat : Nat → Nat
/-- Free bits of any width: a value the spec does not state (log 5). -/
opaque freeBits : (w : Nat) → Nat → BitVec w
/-- R186: the chip tag fused into the part, 26 bits. -/
opaque chipTag : BitVec 26
/-- R310: entries of a core's thread-context cache beyond the first; the spec gives no number (log 6). -/
opaque tccEntries : Nat
/-- R341: where a stack's bytes lie among the die-physical addresses of its die; the spec does not say (log 16). -/
opaque stackBase : Nat → BitVec 56

end Sys2Proof.Config
end

