-- ==== Sys2Proof/Syntax.lean ====
section
/-! DEFINITION. The instructions: one constructor per row of the opcode table. A row with an encoding carries the
fields of its word under their names in the table (R40, R41). A row without fields of its own (a step of the machine that
no word encodes, or a row of SYS that shares the word of TCCF_IN or RESM) finds its operands in `Dev.args`. The rows with fields
come first: compiled code cannot number more than 244 of them. -/
namespace Sys2Proof

/-- R39 to R47: the decoded instruction, and every other step of the machine (the last block). -/
inductive Instr where
  | setf (d : BitVec 5) (f : BitVec 2)
  | sete (d : BitVec 5) (f : BitVec 2)
  | tfe (d : BitVec 5) (f : BitVec 2)
  | rdc (d : BitVec 5) (c : BitVec 7)
  | wrc (a : BitVec 5) (c : BitVec 7)
  | sysc (c : BitVec 10)
  | tend (a : BitVec 5) (m : Bool)
  | add (d a b : BitVec 5) (m n : Bool)
  | sub (d a b : BitVec 5) (m n : Bool)
  | mul (d a b : BitVec 5) (m n : Bool)
  | mulh (d a b : BitVec 5) (m n : Bool)
  | mulhn (d a b : BitVec 5) (m n : Bool)
  | div (d a b : BitVec 5) (m n : Bool)
  | divn (d a b : BitVec 5) (m n : Bool)
  | rem (d a b : BitVec 5) (m n : Bool)
  | remn (d a b : BitVec 5) (m n : Bool)
  | and (d a b : BitVec 5) (m n : Bool)
  | or (d a b : BitVec 5) (m n : Bool)
  | xor (d a b : BitVec 5) (m n : Bool)
  | andn (d a b : BitVec 5) (m n : Bool)
  | orn (d a b : BitVec 5) (m n : Bool)
  | shl (d a b : BitVec 5) (m n : Bool)
  | shrl (d a b : BitVec 5) (m n : Bool)
  | shra (d a b : BitVec 5) (m n : Bool)
  | rotl (d a b : BitVec 5) (m n : Bool)
  | rotr (d a b : BitVec 5) (m n : Bool)
  | min (d a b : BitVec 5) (m n : Bool)
  | max (d a b : BitVec 5) (m n : Bool)
  | minn (d a b : BitVec 5) (m n : Bool)
  | maxn (d a b : BitVec 5) (m n : Bool)
  | slt (d a b : BitVec 5) (m n : Bool)
  | sltn (d a b : BitVec 5) (m n : Bool)
  | seq (d a b : BitVec 5) (m n : Bool)
  | sne (d a b : BitVec 5) (m n : Bool)
  | sel (d a b : BitVec 5) (m n : Bool)
  | clz (d a : BitVec 5) (m : Bool)
  | ctz (d a : BitVec 5) (m : Bool)
  | popc (d a : BitVec 5) (m : Bool)
  | brev (d a : BitVec 5) (m : Bool)
  | bswp (d a : BitVec 5) (m : Bool)
  | shadd (d a b : BitVec 5) (m n : Bool) (k : BitVec 2)
  | addi (d a : BitVec 5) (m : Bool) (i : BitVec 15)
  | andi (d a : BitVec 5) (m : Bool) (i : BitVec 15)
  | ori (d a : BitVec 5) (m : Bool) (i : BitVec 15)
  | xori (d a : BitVec 5) (m : Bool) (i : BitVec 15)
  | slti (d a : BitVec 5) (m : Bool) (i : BitVec 15)
  | seqi (d a : BitVec 5) (m : Bool) (i : BitVec 15)
  | shli (d a : BitVec 5) (m : Bool) (s : BitVec 6)
  | shrli (d a : BitVec 5) (m : Bool) (s : BitVec 6)
  | shrai (d a : BitVec 5) (m : Bool) (s : BitVec 6)
  | rotli (d a : BitVec 5) (m : Bool) (s : BitVec 6)
  | li (d : BitVec 5) (i : BitVec 21)
  | lih (d : BitVec 5) (h : BitVec 2) (v : BitVec 16)
  | exts (d a : BitVec 5) (m : Bool) (p w : BitVec 6)
  | extz (d a : BitVec 5) (m : Bool) (p w : BitVec 6)
  | ins (d a : BitVec 5) (m : Bool) (p w : BitVec 6)
  | beq (a b : BitVec 5) (m : Bool) (o : BitVec 15)
  | bne (a b : BitVec 5) (m : Bool) (o : BitVec 15)
  | blt (a b : BitVec 5) (m : Bool) (o : BitVec 15)
  | bge (a b : BitVec 5) (m : Bool) (o : BitVec 15)
  | bltn (a b : BitVec 5) (m : Bool) (o : BitVec 15)
  | bgen (a b : BitVec 5) (m : Bool) (o : BitVec 15)
  | jal (o : BitVec 26)
  | jalr (d a : BitVec 5) (m : Bool) (i : BitVec 15)
  | bemp (a : BitVec 5) (f : BitVec 2) (s : Bool) (o : BitVec 15)
  | fadd (d a b : BitVec 5) (m n : Bool) (r : BitVec 3) (f : Bool)
  | fsub (d a b : BitVec 5) (m n : Bool) (r : BitVec 3) (f : Bool)
  | fmul (d a b : BitVec 5) (m n : Bool) (r : BitVec 3) (f : Bool)
  | fdiv (d a b : BitVec 5) (m n : Bool) (r : BitVec 3) (f : Bool)
  | fsqrt (d a : BitVec 5) (m : Bool) (r : BitVec 3) (f : Bool)
  | fmin (d a b : BitVec 5) (m n f : Bool)
  | fmax (d a b : BitVec 5) (m n f : Bool)
  | feq (d a b : BitVec 5) (m n f : Bool)
  | flt (d a b : BitVec 5) (m n f : Bool)
  | fle (d a b : BitVec 5) (m n f : Bool)
  | fcls (d a : BitVec 5) (m f : Bool)
  | fsgnCp (d a b : BitVec 5) (m n f : Bool)
  | fsgnNeg (d a b : BitVec 5) (m n f : Bool)
  | fsgnXor (d a b : BitVec 5) (m n f : Bool)
  | fcvt (d a c : BitVec 5) (m : Bool) (r : BitVec 3) (f : Bool)
  | fma (d a b : BitVec 5) (m n : Bool) (r : BitVec 3) (f : Bool)
  | fms (d a b : BitVec 5) (m n : Bool) (r : BitVec 3) (f : Bool)
  | fnma (d a b : BitVec 5) (m n : Bool) (r : BitVec 3) (f : Bool)
  | fnms (d a b : BitVec 5) (m n : Bool) (r : BitVec 3) (f : Bool)
  | ld (t b : BitVec 5) (m : Bool) (z : BitVec 2) (c : BitVec 3) (o : BitVec 10)
  | ldz (t b : BitVec 5) (m : Bool) (z : BitVec 2) (c : BitVec 3) (o : BitVec 10)
  | st (t b : BitVec 5) (m : Bool) (z : BitVec 2) (c : BitVec 3) (o : BitVec 10)
  | ldt (t b : BitVec 5) (m : Bool) (c : BitVec 3) (o : BitVec 10)
  | ldw (t b : BitVec 5) (m : Bool) (c : BitVec 3) (o : BitVec 10)
  | ste (t b : BitVec 5) (m : Bool) (c : BitVec 3) (o : BitVec 10)
  | stf (t b : BitVec 5) (m : Bool) (c : BitVec 3) (o : BitVec 10)
  | gtoa (d a w : BitVec 5) (m : Bool)
  | atog (d a w : BitVec 5) (m : Bool)
  | apq (d a : BitVec 5) (m : Bool)
  | plq (d a : BitVec 5) (m : Bool)
  | plqCur (d a : BitVec 5) (m : Bool)
  | psjInsp (d a s : BitVec 5) (m : Bool)
  | psjRepost (d a : BitVec 5) (m : Bool)
  | psjDiscard (d a : BitVec 5) (m : Bool)
  | vld (v b : BitVec 5) (m : Bool) (c : BitVec 3) (o : BitVec 10)
  | vst (v b : BitVec 5) (m : Bool) (c : BitVec 3) (o : BitVec 10)
  | vgx (v a x : BitVec 5) (p t : BitVec 3) (s : BitVec 2)
  | vsx (v a x : BitVec 5) (p t : BitVec 3) (s : BitVec 2)
  | vadd (d a b : BitVec 5) (p t : BitVec 3)
  | vsub (d a b : BitVec 5) (p t : BitVec 3)
  | vmul (d a b : BitVec 5) (p t : BitVec 3)
  | vdiv (d a b : BitVec 5) (p t : BitVec 3)
  | vsqrt (d a : BitVec 5) (p t : BitVec 3)
  | vmin (d a b : BitVec 5) (p t : BitVec 3)
  | vmax (d a b : BitVec 5) (p t : BitVec 3)
  | vabs (d a : BitVec 5) (p t : BitVec 3)
  | vneg (d a : BitVec 5) (p t : BitVec 3)
  | vand (d a b : BitVec 5) (p t : BitVec 3)
  | vor (d a b : BitVec 5) (p t : BitVec 3)
  | vxor (d a b : BitVec 5) (p t : BitVec 3)
  | vshl (d a b : BitVec 5) (p t : BitVec 3)
  | vshr (d a b : BitVec 5) (p t : BitVec 3)
  | vcmp (c : BitVec 2) (q : BitVec 3) (a b : BitVec 5) (p t : BitVec 3)
  | vsel (d a b : BitVec 5) (p t : BitVec 3)
  | vmov (d a : BitVec 5) (p t : BitVec 3)
  | vbc (d a : BitVec 5) (p t : BitVec 3)
  | vex (d a b : BitVec 5) (t : BitVec 3)
  | vins (d a b : BitVec 5) (t : BitVec 3)
  | viota (d : BitVec 5) (p t : BitVec 3)
  | vperm (d a b : BitVec 5) (p t : BitVec 3)
  | vred (d a o : BitVec 5) (p t : BitVec 3)
  | vscn (d a o : BitVec 5) (p t : BitVec 3)
  | vcvt (d a c : BitVec 5) (r t : BitVec 3)
  | vminN (d a b : BitVec 5) (p t : BitVec 3)
  | vmaxN (d a b : BitVec 5) (p t : BitVec 3)
  | vcmpN (c : BitVec 2) (q : BitVec 3) (a b : BitVec 5) (p t : BitVec 3)
  | vshrN (d a b : BitVec 5) (p t : BitVec 3)
  | vfma (d a b : BitVec 5) (p t r : BitVec 3)
  | vfms (d a b : BitVec 5) (p t r : BitVec 3)
  | vfnma (d a b : BitVec 5) (p t r : BitVec 3)
  | vfnms (d a b : BitVec 5) (p t r : BitVec 3)
  | xmac2 (a b : BitVec 5) (p t : BitVec 3)
  | xmac3 (c a b : BitVec 5) (p t : BitVec 3)
  | xadd (a : BitVec 5) (p t : BitVec 3)
  | xsgn (d : BitVec 5)
  | xrnd (d : BitVec 5) (r : BitVec 3)
  | xspl (a : BitVec 5)
  | xfil (a : BitVec 5)
  | amoAdd (d a b : BitVec 5) (m n f : Bool) (c : BitVec 3) (z : Bool)
  | amoAnd (d a b : BitVec 5) (m n f : Bool) (c : BitVec 3) (z : Bool)
  | amoOr (d a b : BitVec 5) (m n f : Bool) (c : BitVec 3) (z : Bool)
  | amoXor (d a b : BitVec 5) (m n f : Bool) (c : BitVec 3) (z : Bool)
  | amoMin (d a b : BitVec 5) (m n f : Bool) (c : BitVec 3) (z : Bool)
  | amoMax (d a b : BitVec 5) (m n f : Bool) (c : BitVec 3) (z : Bool)
  | amoMinn (d a b : BitVec 5) (m n f : Bool) (c : BitVec 3) (z : Bool)
  | amoMaxn (d a b : BitVec 5) (m n f : Bool) (c : BitVec 3) (z : Bool)
  | amoSwp (d a b : BitVec 5) (m n f : Bool) (c : BitVec 3) (z : Bool)
  | amoFadds (d a b : BitVec 5) (m n f : Bool) (c : BitVec 3)
  | amoFaddd (d a b : BitVec 5) (m n f : Bool) (c : BitVec 3)
  | cas (d a b : BitVec 5) (m n f : Bool) (c : BitVec 3) (z : BitVec 2)
  | rsv (d a : BitVec 5) (m : Bool) (c : BitVec 3) (z : Bool)
  | scn (d a b : BitVec 5) (m n : Bool) (c : BitVec 3) (z : Bool)
  | wrs (d a : BitVec 5) (m : Bool) (i : BitVec 15)
  | redAdd (a b : BitVec 5) (m n : Bool) (c : BitVec 3) (z : Bool)
  | redAnd (a b : BitVec 5) (m n : Bool) (c : BitVec 3) (z : Bool)
  | redOr (a b : BitVec 5) (m n : Bool) (c : BitVec 3) (z : Bool)
  | redXor (a b : BitVec 5) (m n : Bool) (c : BitVec 3) (z : Bool)
  | redMin (a b : BitVec 5) (m n : Bool) (c : BitVec 3) (z : Bool)
  | redMax (a b : BitVec 5) (m n : Bool) (c : BitVec 3) (z : Bool)
  | redMinn (a b : BitVec 5) (m n : Bool) (c : BitVec 3) (z : Bool)
  | redMaxn (a b : BitVec 5) (m n : Bool) (c : BitVec 3) (z : Bool)
  | redFadds (a b : BitVec 5) (m n : Bool) (c : BitVec 3)
  | redFaddd (a b : BitVec 5) (m n : Bool) (c : BitVec 3)
  | fncAcq (x : Bool) (c : BitVec 3)
  | fncRel (x : Bool) (c : BitVec 3)
  | fncFull (x : Bool) (c : BitVec 3)
  | migr (a : BitVec 5) (m : Bool)
  | breg (d a : BitVec 5) (m : Bool)
  | bdrg (d a : BitVec 5) (m : Bool)
  | barv (d a : BitVec 5) (m : Bool)
  | barw (d a b : BitVec 5) (m n : Bool)
  | semp (d a b : BitVec 5) (m n : Bool)
  | semw (d a b : BitVec 5) (m n : Bool)
  | send (d a b : BitVec 5) (m n : Bool)
  | recv (d a b : BitVec 5) (m n : Bool)
  | qwt (a b : BitVec 5) (m n : Bool)
  | qcfg (d a : BitVec 5) (m : Bool)
  | nnew (d a b : BitVec 5) (m n f : Bool)
  | nres (d a s : BitVec 5) (m : Bool)
  | nrst (d a s : BitVec 5) (m : Bool)
  | ncas (d a b : BitVec 5) (m n : Bool)
  | nkil (d a : BitVec 5) (m : Bool)
  | nqry (d a s : BitVec 5) (m : Bool)
  | nshd (d a : BitVec 5) (m : Bool)
  | nslf (d : BitVec 5)
  | gnew (d a b : BitVec 5) (m n : Bool)
  | glen (d a : BitVec 5) (m : Bool)
  | gev (d a b : BitVec 5) (m n : Bool) (l : BitVec 5)
  | gcmb (d a b l : BitVec 5)
  | gofs (d a b : BitVec 5) (m n : Bool) (l : BitVec 5)
  | gidx (d a b : BitVec 5) (m n : Bool)
  | gpfx (d a b : BitVec 5) (m n : Bool)
  | gscn (d a b : BitVec 5) (m n : Bool)
  | gmv (d a b : BitVec 5) (m n : Bool)
  | grtiAll (d : BitVec 5)
  | grtiRule (d a : BitVec 5) (m : Bool)
  | grtiObj (d a : BitVec 5) (m : Bool)
  | grtq (d : BitVec 5) (s : BitVec 3)
  | grtqClear (d : BitVec 5) (s : Bool)
  | spwn (d a b : BitVec 5) (m n : Bool)
  | reap (d a : BitVec 5) (m : Bool)
  | slst (d a : BitVec 5) (m : Bool)
  | lnch (d a : BitVec 5) (m : Bool)
  | lwt (d a b : BitVec 5) (m n : Bool)
  | wdq (a : BitVec 5) (m : Bool)
  | amsg (d a b : BitVec 5) (m n : Bool)
  | tbnd (d : BitVec 5)
  | encl (d a : BitVec 5) (m : Bool)
  | mxl (a : BitVec 5) (m : Bool) (t : BitVec 8)
  | mxu (t : BitVec 8)
  | mxw (t : BitVec 8)
  | mxs (a : BitVec 5) (m : Bool) (t : BitVec 8)
  | mxb (t : BitVec 8)
  | mxp (a b : BitVec 5) (m n : Bool) (t : BitVec 8)
  | mxc (a b : BitVec 5) (m n : Bool) (t : BitVec 8)
  | mxwb (a : BitVec 5) (m : Bool) (t : BitVec 8)
  | mxrd (a : BitVec 5) (m : Bool) (t : BitVec 8)
  | mxz (a : BitVec 5) (m : Bool) (t : BitVec 8)
  | cpy (a b : BitVec 5) (m n : Bool) (t : BitVec 8)
  | cpr (a b : BitVec 5) (m n : Bool) (t : BitVec 8)
  | cpz (a b : BitVec 5) (m n : Bool) (t : BitVec 8)
  | cps (a b : BitVec 5) (m n : Bool) (t : BitVec 8)
  | cpcCompress (a b : BitVec 5) (m n : Bool) (t : BitVec 8)
  | cpcExpand (a b : BitVec 5) (m n : Bool) (t : BitVec 8)
  | gexp (a b : BitVec 5) (m n : Bool) (t : BitVec 8)
  | cvt (a b : BitVec 5) (m n : Bool) (t : BitVec 8)
  | cvpAct (a b : BitVec 5) (m n : Bool) (t : BitVec 8)
  | cvpWcol (a b : BitVec 5) (m n : Bool) (t : BitVec 8)
  | cvq (a b : BitVec 5) (m n : Bool) (t : BitVec 8)
  | engw (a : BitVec 5) (m : Bool) (e : BitVec 2) (r : BitVec 6)
  | engr (d : BitVec 5) (e : BitVec 2) (r : BitVec 6)
  | engrBdat (d a : BitVec 5) (m : Bool)
  | prmt (d a b : BitVec 5) (m n : Bool)
  | prmtRow (d a b : BitVec 5) (m n : Bool)
  | hgrp (d a b : BitVec 5) (m n : Bool)
  | halt (d a : BitVec 5) (m : Bool)
  | resm (d a b : BitVec 5) (m n : Bool)
  | tccfIn (d a b : BitVec 5) (m n : Bool)
  | lrtb (d a b : BitVec 5) (m n : Bool)
  -- rows without operand fields in a word of their own
  | nop
  | uni
  | brk
  | ckpt
  | eret
  | uiret
  | psd
  | xclr
  | mhom
  | regionTableWrite
  | mflgWrite
  | merrWrite
  | resmStep
  | tccfLazy
  | tccfLend
  | tccfOut
  | producerValueArrival
  | uniPostArrival
  | loadFaultArrival
  | journalAck
  | journalRefusal
  | memoryRequestAtTarget
  | nonresidentRequestPerformed
  | atomicAtHome
  | remoteUpdate
  | heldStorePerform
  | compChunkAccess
  | placementTlbShootdown
  | reservationHoldExpiry
  | hostCompletionTimeout
  | contextMigrationArrival
  | contextReturn
  | messagePlacement
  | overflowReturn
  | postedMessagePlacement
  | inboxFull
  | queueAppend
  | queueDequeue
  | userInterrupt
  | barrierUnitArrival
  | barrierRelease
  | waitExpired
  | queueExpired
  | mintIssue
  | mintBlockRecord
  | nameTableOperation
  | shootdownArrival
  | shootdownAcknowledge
  | shootdownAckAtEntry
  | grammarWalk
  | arrayWeightLoad
  | arrayStream
  | arrayBatchedStream
  | arrayBankPrepare
  | arrayBankReadout
  | batchCompletion
  | leaseRunEnd
  | copyRun
  | fillRun
  | scrubRun
  | restripeRun
  | compressRun
  | expandRun
  | grammarExpandRun
  | convertRun
  | quantiseRun
  | planeLayoutRun
  | engineCompletion
  | launchAccept
  | launchSelection
  | taskAging
  | rowLoadDone
  | rowFree
  | costartStart
  | costartDeadline
  | launchComplete
  | distributorQuery
  | preemptDeadline
  | checkpointStreamWrite
  | wakeMessage
  | haltTriggerArrival
  | hwBreakpointMatch
  | jtagHalt
  | stepEnd
  | stewardStartPort
  | threadEndPort
  | unfreezePort
  | violationRecordFree
  | wakePort
  | faultQueuePop
  | pageRequestPop
  | queueOvfClear
  | ctrlWrite
  | controlRegisterWrite
  | hostActiveMessagePort
  | hostLaunchPort
  | hostAcknowledgePort
  | hostWindowAccess
  | hostAtomicop
  | peerRequest
  | cxlLinkDown
  | retrainRequest
  | retrainEnd
  | powerWindow
  | powerGood
  | reset
  | badPageAppend
  | spdmRequest
  | illegalOpcode
  | instructionStoreRefill
  | placementTlbWalk
  | cxlLinkUp
  | softError
deriving DecidableEq, Repr

end Sys2Proof
end

