-- ==== Sys2Proof/WellFormed.lean ====
section
/-! DEFINITION. Which instructions are well formed: the modifier fields of R44 to R47 that decoding refuses, each with the
mask it puts into TAUX (R43 step 5): the whole of the refused field, as the examples of R54, R91, R96 and R123 show. -/
namespace Sys2Proof

/-- R32: the control register numbers of RDC and WRC. -/
def ctlListed (c : BitVec 7) : Bool :=
  c.toNat < 0x0C || (0x10 ≤ c.toNat && c.toNat < 0x15) || (0x20 ≤ c.toNat && c.toNat < 0x30)

/-- R247, R263 to R265: the allocated engine registers (RGA and RGB, 0x20 up, only on the conversion steward). -/
def engAllocated (e : BitVec 2) (r : BitVec 6) : Bool :=
  if e = 3 then r.toNat < 8 || (0x10 ≤ r.toNat && r.toNat < 0x14)
  else if e = 2 then r.toNat < 9 || r.toNat = 0x10 || 0x20 ≤ r.toNat
  else r.toNat < 10 || r.toNat = 0x10

/-- R123: the refused fields of a VCVT with conversion code `c` and source type `t`. -/
def vcvtRefused (c t : Nat) : Nat :=
  if c = 22 ∨ c = 23 ∨ 27 ≤ c then 0xF800
  else if (12 ≤ c ∧ c < 18 ∨ 24 ≤ c) ∧ 4 ≤ t ∨ (18 ≤ c ∧ c < 22) ∧ t < 4 then 0xF8E0
  else 0

/-- R44 to R47: the mask of the refused modifier fields of an instruction, 0 when it has none. RECV of the own inbox (a = g0) reads no
name; whether ma is then the mode bit of an unused field the spec does not say, and the model does not refuse it (log 120). -/
def refusedFields : Instr → Nat
  | .setf d f => (if f = 3 then 0x3000 else 0) + (if f = 2 ∧ 8 ≤ d.toNat then 0x03E00000 else 0)
  | .sete d f => (if f = 3 then 0x3000 else 0) + (if f = 2 ∧ 8 ≤ d.toNat then 0x03E00000 else 0)
  | .tfe _ f => (if f = 3 then 0x3000 else 0)
  | .rdc _ c => (if ctlListed c = false then 0xFE00 else 0)
  | .wrc _ c => (if ctlListed c = false then 0xFE00 else 0)
  | .exts _ _ _ p w => (if 64 < p.toNat + w.toNat + 1 then 0x1FFE else 0)
  | .extz _ _ _ p w => (if 64 < p.toNat + w.toNat + 1 then 0x1FFE else 0)
  | .ins _ _ _ p w => (if 64 < p.toNat + w.toNat + 1 then 0x1FFE else 0)
  | .bemp a f _ _ => (if f = 3 then 0x60000 else 0) + (if f = 2 ∧ 8 ≤ a.toNat then 0x03E00000 else 0)
  | .fadd _ _ _ _ _ r _ => (if r = 7 then 0xE0 else 0)
  | .fsub _ _ _ _ _ r _ => (if r = 7 then 0xE0 else 0)
  | .fmul _ _ _ _ _ r _ => (if r = 7 then 0xE0 else 0)
  | .fdiv _ _ _ _ _ r _ => (if r = 7 then 0xE0 else 0)
  | .fsqrt _ _ _ r _ => (if r = 7 then 0xE0 else 0)
  | .fcvt _ _ c _ r _ => (if 8 < c.toNat then 0xF800 else 0) + (if r = 7 then 0xE0 else 0)
  | .fma _ _ _ _ _ r _ => (if r = 7 then 0xE0 else 0)
  | .fms _ _ _ _ _ r _ => (if r = 7 then 0xE0 else 0)
  | .fnma _ _ _ _ _ r _ => (if r = 7 then 0xE0 else 0)
  | .fnms _ _ _ _ _ r _ => (if r = 7 then 0xE0 else 0)
  | .ld _ _ _ _ c _ => (if 6 ≤ c.toNat then 0x1C00 else 0)
  | .ldz _ _ _ _ c _ => (if 6 ≤ c.toNat then 0x1C00 else 0)
  | .st _ _ _ _ c _ => (if 6 ≤ c.toNat then 0x1C00 else 0)
  | .ldt _ _ _ c _ => (if 6 ≤ c.toNat then 0x1C00 else 0)
  | .ldw _ _ _ c _ => (if 6 ≤ c.toNat then 0x1C00 else 0)
  | .ste _ _ _ c _ => (if 6 ≤ c.toNat then 0x1C00 else 0)
  | .stf _ _ _ c _ => (if 6 ≤ c.toNat then 0x1C00 else 0)
  | .gtoa _ _ w _ => (if w = 0 ∨ 4 ≤ w.toNat then 0xF800 else 0)
  | .atog _ _ w _ => (if w = 0 ∨ 4 ≤ w.toNat then 0xF800 else 0)
  | .psjInsp _ _ s _ => (if 4 < s.toNat then 0xF800 else 0)
  | .vld _ _ _ c _ => (if 6 ≤ c.toNat then 0x1C00 else 0)
  | .vst _ _ _ c _ => (if 6 ≤ c.toNat then 0x1C00 else 0)
  | .vsqrt _ _ _ t => (if 4 ≤ t.toNat then 0xE0 else 0)
  | .vshl _ _ _ _ t => (if t.toNat < 4 then 0xE0 else 0)
  | .vshr _ _ _ _ t => (if t.toNat < 4 then 0xE0 else 0)
  | .vred _ _ o _ t => (if 7 < o.toNat then 0xF800 else 0) + (if (o = 6 ∨ o = 7) ∧ t.toNat < 4 then 0xE0 else 0)
  | .vscn _ _ o _ t => (if 7 < o.toNat then 0xF800 else 0) + (if (o = 6 ∨ o = 7) ∧ t.toNat < 4 then 0xE0 else 0)
  | .vcvt _ _ c r t => (if r = 7 then 0x700 else 0) + vcvtRefused c.toNat t.toNat
  | .vminN _ _ _ _ t => (if t.toNat < 4 then 0xE0 else 0)
  | .vmaxN _ _ _ _ t => (if t.toNat < 4 then 0xE0 else 0)
  | .vcmpN _ _ _ _ _ t => (if t.toNat < 4 then 0xE0 else 0)
  | .vshrN _ _ _ _ t => (if t.toNat < 4 then 0xE0 else 0)
  | .vfma _ _ _ _ t r => (if 4 ≤ t.toNat then 0xE0 else 0) + (if r = 7 then 0x1C else 0)
  | .vfms _ _ _ _ t r => (if 4 ≤ t.toNat then 0xE0 else 0) + (if r = 7 then 0x1C else 0)
  | .vfnma _ _ _ _ t r => (if 4 ≤ t.toNat then 0xE0 else 0) + (if r = 7 then 0x1C else 0)
  | .vfnms _ _ _ _ t r => (if 4 ≤ t.toNat then 0xE0 else 0) + (if r = 7 then 0x1C else 0)
  | .xmac2 _ _ _ t => (if 2 ≤ t.toNat then 0xE0 else 0)
  | .xmac3 _ _ _ _ t => (if 2 ≤ t.toNat then 0xE0 else 0)
  | .xadd _ _ t => (if t ≠ 0 ∧ t ≠ 1 ∧ t ≠ 4 then 0xE0 else 0)
  | .xrnd _ r => (if r = 7 then 0x3800 else 0)
  | .amoAdd d _ _ _ _ f c _ => (if 6 ≤ c.toNat then 0xE0 else 0) + (if f = true ∧ d.toNat % 2 = 1 then 0x03E00000 else 0)
  | .amoAnd d _ _ _ _ f c _ => (if 6 ≤ c.toNat then 0xE0 else 0) + (if f = true ∧ d.toNat % 2 = 1 then 0x03E00000 else 0)
  | .amoOr d _ _ _ _ f c _ => (if 6 ≤ c.toNat then 0xE0 else 0) + (if f = true ∧ d.toNat % 2 = 1 then 0x03E00000 else 0)
  | .amoXor d _ _ _ _ f c _ => (if 6 ≤ c.toNat then 0xE0 else 0) + (if f = true ∧ d.toNat % 2 = 1 then 0x03E00000 else 0)
  | .amoMin d _ _ _ _ f c _ => (if 6 ≤ c.toNat then 0xE0 else 0) + (if f = true ∧ d.toNat % 2 = 1 then 0x03E00000 else 0)
  | .amoMax d _ _ _ _ f c _ => (if 6 ≤ c.toNat then 0xE0 else 0) + (if f = true ∧ d.toNat % 2 = 1 then 0x03E00000 else 0)
  | .amoMinn d _ _ _ _ f c _ => (if 6 ≤ c.toNat then 0xE0 else 0) + (if f = true ∧ d.toNat % 2 = 1 then 0x03E00000 else 0)
  | .amoMaxn d _ _ _ _ f c _ => (if 6 ≤ c.toNat then 0xE0 else 0) + (if f = true ∧ d.toNat % 2 = 1 then 0x03E00000 else 0)
  | .amoSwp d _ _ _ _ f c _ => (if 6 ≤ c.toNat then 0xE0 else 0) + (if f = true ∧ d.toNat % 2 = 1 then 0x03E00000 else 0)
  | .amoFadds d _ _ _ _ f c => (if 6 ≤ c.toNat then 0xE0 else 0) + (if f = true ∧ d.toNat % 2 = 1 then 0x03E00000 else 0)
  | .amoFaddd d _ _ _ _ f c => (if 6 ≤ c.toNat then 0xE0 else 0) + (if f = true ∧ d.toNat % 2 = 1 then 0x03E00000 else 0)
  | .cas d _ b _ _ f c z => (if z = 3 then 3 else 0) + (if 6 ≤ c.toNat then 0x1C else 0) + (if z = 2 ∧ f = true then 0x20 else 0) +
    (if d.toNat % 2 = 1 ∧ (z = 2 ∨ f = true) then 0x03E00000 else 0) + (if b.toNat % 2 = 1 ∧ z = 2 then 0xF800 else 0)
  | .rsv _ _ _ c _ => (if 6 ≤ c.toNat then 0xE else 0)
  | .scn _ _ _ _ _ c _ => (if 6 ≤ c.toNat then 0xE else 0)
  | .redAdd _ _ _ _ c _ => (if 6 ≤ c.toNat then 0xE0 else 0)
  | .redAnd _ _ _ _ c _ => (if 6 ≤ c.toNat then 0xE0 else 0)
  | .redOr _ _ _ _ c _ => (if 6 ≤ c.toNat then 0xE0 else 0)
  | .redXor _ _ _ _ c _ => (if 6 ≤ c.toNat then 0xE0 else 0)
  | .redMin _ _ _ _ c _ => (if 6 ≤ c.toNat then 0xE0 else 0)
  | .redMax _ _ _ _ c _ => (if 6 ≤ c.toNat then 0xE0 else 0)
  | .redMinn _ _ _ _ c _ => (if 6 ≤ c.toNat then 0xE0 else 0)
  | .redMaxn _ _ _ _ c _ => (if 6 ≤ c.toNat then 0xE0 else 0)
  | .redFadds _ _ _ _ c => (if 6 ≤ c.toNat then 0xE0 else 0)
  | .redFaddd _ _ _ _ c => (if 6 ≤ c.toNat then 0xE0 else 0)
  | .fncAcq _ c => (if c = 0 ∨ 6 ≤ c.toNat then 0x1C else 0)
  | .fncRel _ c => (if c = 0 ∨ 6 ≤ c.toNat then 0x1C else 0)
  | .fncFull _ c => (if c = 0 ∨ 6 ≤ c.toNat then 0x1C else 0)
  | .send _ a b _ _ => (if a.toNat % 2 = 1 then 0x001F0000 else 0) + (if b.toNat % 4 ≠ 0 then 0xF800 else 0)
  | .recv d a _ _ _ => (if d = 0 ∨ d.toNat % 4 ≠ 0 then 0x03E00000 else 0) + (if a.toNat % 2 = 1 then 0x001F0000 else 0)
  | .nnew d _ b _ _ _ => (if d.toNat % 2 = 1 then 0x03E00000 else 0) + (if b.toNat % 2 = 1 then 0xF800 else 0)
  | .nres _ a s _ => (if a.toNat % 2 = 1 then 0x001F0000 else 0) + (if 3 < s.toNat then 0xF800 else 0)
  | .nrst d a s _ => (if d.toNat % 2 = 1 then 0x03E00000 else 0) + (if a.toNat % 2 = 1 then 0x001F0000 else 0) + (if 3 < s.toNat then 0xF800 else 0)
  | .ncas _ a _ _ _ => (if a.toNat % 2 = 1 then 0x001F0000 else 0)
  | .nkil _ a _ => (if a.toNat % 2 = 1 then 0x001F0000 else 0)
  | .nqry _ a s _ => (if a.toNat % 2 = 1 then 0x001F0000 else 0) + (if 4 < s.toNat then 0xF800 else 0)
  | .nshd _ a _ => (if a.toNat % 2 = 1 then 0x001F0000 else 0)
  | .nslf d => (if d.toNat % 2 = 1 then 0x03E00000 else 0)
  | .gnew d a _ _ _ => (if d.toNat % 2 = 1 then 0x03E00000 else 0) + (if a.toNat % 2 = 1 then 0x001F0000 else 0)
  | .glen _ a _ => (if a.toNat % 2 = 1 then 0x001F0000 else 0)
  | .gev _ a b _ n l => (if a.toNat % 2 = 1 then 0x001F0000 else 0) + (if l = 10 ∧ (b.toNat % 2 = 1 ∨ 28 < b.toNat) then 0xF800 else 0) +
    (if l ≠ 7 ∧ l ≠ 9 ∧ l ≠ 10 then b.toNat * 2048 + n.toNat * 512 else 0)
  | .gofs _ _ b _ n l => (if l ≠ 9 then b.toNat * 2048 + n.toNat * 512 else 0)
  | .gidx _ a _ _ _ => (if a.toNat % 2 = 1 then 0x001F0000 else 0)
  | .gpfx _ a _ _ _ => (if a.toNat % 2 = 1 then 0x001F0000 else 0)
  | .gscn d a _ _ _ => (if d.toNat % 2 = 1 then 0x03E00000 else 0) + (if a.toNat % 2 = 1 then 0x001F0000 else 0)
  | .gmv _ a _ _ _ => (if a.toNat % 2 = 1 then 0x001F0000 else 0)
  | .grtiRule _ a _ => (if a.toNat % 2 = 1 then 0x001F0000 else 0)
  | .grtiObj _ a _ => (if a.toNat % 2 = 1 then 0x001F0000 else 0)
  | .spwn d _ b _ _ => (if d.toNat % 2 = 1 then 0x03E00000 else 0) + (if b.toNat % 2 = 1 then 0xF800 else 0)
  | .reap d _ _ => (if d.toNat % 2 = 1 then 0x03E00000 else 0)
  | .lnch d _ _ => (if d.toNat % 2 = 1 then 0x03E00000 else 0)
  | .lwt _ a _ _ _ => (if a.toNat % 2 = 1 then 0x001F0000 else 0)
  | .amsg _ _ b _ _ => (if b.toNat % 4 ≠ 0 then 0xF800 else 0)
  | .gexp a _ _ _ _ => (if a.toNat % 2 = 1 then 0x03E00000 else 0)
  | .engw _ _ e r => (if engAllocated e r = false then 0x3F else 0)
  | .engr _ e r => (if engAllocated e r = false then 0x3F else 0)
  | .tccfIn _ a _ _ _ => (if a.toNat % 2 = 1 then 0x001F0000 else 0)
  | .nop | .uni | .brk | .ckpt | .sysc .. | .eret | .uiret | .tend .. | .add .. | .sub .. | .mul .. | .mulh ..
  | .mulhn .. | .div .. | .divn .. | .rem .. | .remn .. | .and .. | .or .. | .xor .. | .andn .. | .orn .. | .shl ..
  | .shrl .. | .shra .. | .rotl .. | .rotr .. | .min .. | .max .. | .minn .. | .maxn .. | .slt .. | .sltn .. | .seq ..
  | .sne .. | .sel .. | .clz .. | .ctz .. | .popc .. | .brev .. | .bswp .. | .shadd .. | .addi .. | .andi .. | .ori ..
  | .xori .. | .slti .. | .seqi .. | .shli .. | .shrli .. | .shrai .. | .rotli .. | .li .. | .lih .. | .beq ..
  | .bne .. | .blt .. | .bge .. | .bltn .. | .bgen .. | .jal .. | .jalr .. | .fmin .. | .fmax .. | .feq .. | .flt ..
  | .fle .. | .fcls .. | .fsgnCp .. | .fsgnNeg .. | .fsgnXor .. | .apq .. | .plq .. | .plqCur .. | .psjRepost ..
  | .psjDiscard .. | .psd | .vgx .. | .vsx .. | .vadd .. | .vsub .. | .vmul .. | .vdiv .. | .vmin .. | .vmax ..
  | .vabs .. | .vneg .. | .vand .. | .vor .. | .vxor .. | .vcmp .. | .vsel .. | .vmov .. | .vbc .. | .vex .. | .vins ..
  | .viota .. | .vperm .. | .xclr | .xsgn .. | .xspl .. | .xfil .. | .wrs .. | .migr .. | .mhom | .breg .. | .bdrg ..
  | .barv .. | .barw .. | .semp .. | .semw .. | .qwt .. | .qcfg .. | .gcmb .. | .grtiAll .. | .grtq .. | .grtqClear ..
  | .slst .. | .wdq .. | .tbnd .. | .encl .. | .mxl .. | .mxu .. | .mxw .. | .mxs .. | .mxb .. | .mxp .. | .mxc ..
  | .mxwb .. | .mxrd .. | .mxz .. | .cpy .. | .cpr .. | .cpz .. | .cps .. | .cpcCompress .. | .cpcExpand .. | .cvt ..
  | .cvpAct .. | .cvpWcol .. | .cvq .. | .engrBdat .. | .regionTableWrite | .mflgWrite | .merrWrite | .prmt ..
  | .prmtRow .. | .hgrp .. | .halt .. | .resm .. | .resmStep | .tccfLazy | .tccfLend | .tccfOut | .lrtb ..
  | .producerValueArrival | .uniPostArrival | .loadFaultArrival | .journalAck | .journalRefusal
  | .memoryRequestAtTarget | .nonresidentRequestPerformed | .atomicAtHome | .remoteUpdate | .heldStorePerform
  | .compChunkAccess | .placementTlbShootdown | .reservationHoldExpiry | .hostCompletionTimeout
  | .contextMigrationArrival | .contextReturn | .messagePlacement | .overflowReturn | .postedMessagePlacement
  | .inboxFull | .queueAppend | .queueDequeue | .userInterrupt | .barrierUnitArrival | .barrierRelease | .waitExpired
  | .queueExpired | .mintIssue | .mintBlockRecord | .nameTableOperation | .shootdownArrival | .shootdownAcknowledge
  | .shootdownAckAtEntry | .grammarWalk | .arrayWeightLoad | .arrayStream | .arrayBatchedStream | .arrayBankPrepare
  | .arrayBankReadout | .batchCompletion | .leaseRunEnd | .copyRun | .fillRun | .scrubRun | .restripeRun | .compressRun
  | .expandRun | .grammarExpandRun | .convertRun | .quantiseRun | .planeLayoutRun | .engineCompletion | .launchAccept
  | .launchSelection | .taskAging | .rowLoadDone | .rowFree | .costartStart | .costartDeadline | .launchComplete
  | .distributorQuery | .preemptDeadline | .checkpointStreamWrite | .wakeMessage | .haltTriggerArrival
  | .hwBreakpointMatch | .jtagHalt | .stepEnd | .stewardStartPort | .threadEndPort | .unfreezePort
  | .violationRecordFree | .wakePort | .faultQueuePop | .pageRequestPop | .queueOvfClear | .ctrlWrite
  | .controlRegisterWrite | .hostActiveMessagePort | .hostLaunchPort | .hostAcknowledgePort | .hostWindowAccess
  | .hostAtomicop | .peerRequest | .cxlLinkDown | .retrainRequest | .retrainEnd | .powerWindow | .powerGood | .reset
  | .badPageAppend | .spdmRequest | .illegalOpcode | .instructionStoreRefill | .placementTlbWalk | .cxlLinkUp
  | .softError => 0

/-- The instruction is what its own word decodes to: a row that shares its word with another row of the table, and a
step that no word encodes, is not. -/
def hasOwnWord : Instr → Bool
  | .engr _ e r => !(e == 3 && r == 0x18)
  | .nop | .uni | .brk | .ckpt | .setf .. | .sete .. | .tfe .. | .rdc .. | .wrc .. | .sysc .. | .eret | .uiret
  | .tend .. | .add .. | .sub .. | .mul .. | .mulh .. | .mulhn .. | .div .. | .divn .. | .rem .. | .remn .. | .and ..
  | .or .. | .xor .. | .andn .. | .orn .. | .shl .. | .shrl .. | .shra .. | .rotl .. | .rotr .. | .min .. | .max ..
  | .minn .. | .maxn .. | .slt .. | .sltn .. | .seq .. | .sne .. | .sel .. | .clz .. | .ctz .. | .popc .. | .brev ..
  | .bswp .. | .shadd .. | .addi .. | .andi .. | .ori .. | .xori .. | .slti .. | .seqi .. | .shli .. | .shrli ..
  | .shrai .. | .rotli .. | .li .. | .lih .. | .exts .. | .extz .. | .ins .. | .beq .. | .bne .. | .blt .. | .bge ..
  | .bltn .. | .bgen .. | .jal .. | .jalr .. | .bemp .. | .fadd .. | .fsub .. | .fmul .. | .fdiv .. | .fsqrt ..
  | .fmin .. | .fmax .. | .feq .. | .flt .. | .fle .. | .fcls .. | .fsgnCp .. | .fsgnNeg .. | .fsgnXor .. | .fcvt ..
  | .fma .. | .fms .. | .fnma .. | .fnms .. | .ld .. | .ldz .. | .st .. | .ldt .. | .ldw .. | .ste .. | .stf ..
  | .gtoa .. | .atog .. | .apq .. | .plq .. | .plqCur .. | .psjInsp .. | .psjRepost .. | .psjDiscard .. | .psd
  | .vld .. | .vst .. | .vgx .. | .vsx .. | .vadd .. | .vsub .. | .vmul .. | .vdiv .. | .vsqrt .. | .vmin .. | .vmax ..
  | .vabs .. | .vneg .. | .vand .. | .vor .. | .vxor .. | .vshl .. | .vshr .. | .vcmp .. | .vsel .. | .vmov ..
  | .vbc .. | .vex .. | .vins .. | .viota .. | .vperm .. | .vred .. | .vscn .. | .vcvt .. | .vminN .. | .vmaxN ..
  | .vcmpN .. | .vshrN .. | .vfma .. | .vfms .. | .vfnma .. | .vfnms .. | .xclr | .xmac2 .. | .xmac3 .. | .xadd ..
  | .xsgn .. | .xrnd .. | .xspl .. | .xfil .. | .amoAdd .. | .amoAnd .. | .amoOr .. | .amoXor .. | .amoMin ..
  | .amoMax .. | .amoMinn .. | .amoMaxn .. | .amoSwp .. | .amoFadds .. | .amoFaddd .. | .cas .. | .rsv .. | .scn ..
  | .wrs .. | .redAdd .. | .redAnd .. | .redOr .. | .redXor .. | .redMin .. | .redMax .. | .redMinn .. | .redMaxn ..
  | .redFadds .. | .redFaddd .. | .fncAcq .. | .fncRel .. | .fncFull .. | .migr .. | .mhom | .breg .. | .bdrg ..
  | .barv .. | .barw .. | .semp .. | .semw .. | .send .. | .recv .. | .qwt .. | .qcfg .. | .nnew .. | .nres ..
  | .nrst .. | .ncas .. | .nkil .. | .nqry .. | .nshd .. | .nslf .. | .gnew .. | .glen .. | .gev .. | .gcmb ..
  | .gofs .. | .gidx .. | .gpfx .. | .gscn .. | .gmv .. | .grtiAll .. | .grtiRule .. | .grtiObj .. | .grtq ..
  | .grtqClear .. | .spwn .. | .reap .. | .slst .. | .lnch .. | .lwt .. | .wdq .. | .amsg .. | .tbnd .. | .encl ..
  | .mxl .. | .mxu .. | .mxw .. | .mxs .. | .mxb .. | .mxp .. | .mxc .. | .mxwb .. | .mxrd .. | .mxz .. | .cpy ..
  | .cpr .. | .cpz .. | .cps .. | .cpcCompress .. | .gexp .. | .cvt .. | .cvpAct .. | .cvq .. | .engw .. | .engrBdat ..
  | .prmt .. | .hgrp .. | .halt .. | .resm .. | .tccfIn .. | .lrtb .. => true
  | .cpcExpand .. | .cvpWcol .. | .regionTableWrite | .mflgWrite | .merrWrite | .prmtRow .. | .resmStep | .tccfLazy
  | .tccfLend | .tccfOut | .producerValueArrival | .uniPostArrival | .loadFaultArrival | .journalAck | .journalRefusal
  | .memoryRequestAtTarget | .nonresidentRequestPerformed | .atomicAtHome | .remoteUpdate | .heldStorePerform
  | .compChunkAccess | .placementTlbShootdown | .reservationHoldExpiry | .hostCompletionTimeout
  | .contextMigrationArrival | .contextReturn | .messagePlacement | .overflowReturn | .postedMessagePlacement
  | .inboxFull | .queueAppend | .queueDequeue | .userInterrupt | .barrierUnitArrival | .barrierRelease | .waitExpired
  | .queueExpired | .mintIssue | .mintBlockRecord | .nameTableOperation | .shootdownArrival | .shootdownAcknowledge
  | .shootdownAckAtEntry | .grammarWalk | .arrayWeightLoad | .arrayStream | .arrayBatchedStream | .arrayBankPrepare
  | .arrayBankReadout | .batchCompletion | .leaseRunEnd | .copyRun | .fillRun | .scrubRun | .restripeRun | .compressRun
  | .expandRun | .grammarExpandRun | .convertRun | .quantiseRun | .planeLayoutRun | .engineCompletion | .launchAccept
  | .launchSelection | .taskAging | .rowLoadDone | .rowFree | .costartStart | .costartDeadline | .launchComplete
  | .distributorQuery | .preemptDeadline | .checkpointStreamWrite | .wakeMessage | .haltTriggerArrival
  | .hwBreakpointMatch | .jtagHalt | .stepEnd | .stewardStartPort | .threadEndPort | .unfreezePort
  | .violationRecordFree | .wakePort | .faultQueuePop | .pageRequestPop | .queueOvfClear | .ctrlWrite
  | .controlRegisterWrite | .hostActiveMessagePort | .hostLaunchPort | .hostAcknowledgePort | .hostWindowAccess
  | .hostAtomicop | .peerRequest | .cxlLinkDown | .retrainRequest | .retrainEnd | .powerWindow | .powerGood | .reset
  | .badPageAppend | .spdmRequest | .illegalOpcode | .instructionStoreRefill | .placementTlbWalk | .cxlLinkUp
  | .softError => false

/-- R43 step 5, R44 to R48: every field holds an allocated value. -/
def WellFormed (i : Instr) : Bool := hasOwnWord i && refusedFields i == 0

end Sys2Proof
end

