-- ==== Sys2Proof/Decode.lean ====
section
/-! DEFINITION. The decoder (R40 to R48), total on every word, and the encoder written from the same tables.
`decodeRaw` makes checks 1 and 2 of R43 and gives the instruction with the mask of its must-be-zero bits that are set;
`decode` adds the refused modifier fields (check 5). The checks that depend on the core or the privilege are the machine's. -/
namespace Sys2Proof

/-- The field of `len` bits at bit `lo` of a word held as a number. -/
def bf (n lo len : Nat) : BitVec len := BitVec.ofNat len (n / 2 ^ lo)
/-- Bit `lo` of a word. -/
def bt (n lo : Nat) : Bool := n / 2 ^ lo % 2 == 1
/-- The set bits of a field that must be zero, in place (R43 step 5, R44). -/
def zf (n lo len : Nat) : Nat := n / 2 ^ lo % 2 ^ len * 2 ^ lo

/-- R45, R47: major opcode 0x00, selector [8:0]. -/
def decMisc (n : Nat) : Option (Instr × Nat) :=
  match n % 512 with
  | 1 => some (Instr.nop, zf n 9 17)
  | 2 => some (Instr.uni, zf n 9 17)
  | 3 => some (Instr.brk, zf n 9 17)
  | 4 => some (Instr.ckpt, zf n 9 17)
  | 5 => some (Instr.setf (bf n 21 5) (bf n 12 2), zf n 9 3 + zf n 14 7)
  | 6 => some (Instr.sete (bf n 21 5) (bf n 12 2), zf n 9 3 + zf n 14 7)
  | 7 => some (Instr.tfe (bf n 21 5) (bf n 12 2), zf n 9 3 + zf n 14 7)
  | 8 => some (Instr.rdc (bf n 21 5) (bf n 9 7), zf n 16 5)
  | 9 => some (Instr.wrc (bf n 16 5) (bf n 9 7), zf n 21 5)
  | 10 => some (Instr.sysc (bf n 11 10), zf n 9 2 + zf n 21 5)
  | 11 => some (Instr.eret, zf n 9 17)
  | 12 => some (Instr.uiret, zf n 9 17)
  | 13 => some (Instr.tend (bf n 16 5) (bt n 10), zf n 9 1 + zf n 11 5 + zf n 21 5)
  | _ => none

/-- R45, R47: major opcode 0x01, selector [8:0]. -/
def decAlu (n : Nat) : Option (Instr × Nat) :=
  match n % 512 with
  | 0 => some (Instr.add (bf n 21 5) (bf n 16 5) (bf n 11 5) (bt n 10) (bt n 9), 0)
  | 1 => some (Instr.sub (bf n 21 5) (bf n 16 5) (bf n 11 5) (bt n 10) (bt n 9), 0)
  | 2 => some (Instr.mul (bf n 21 5) (bf n 16 5) (bf n 11 5) (bt n 10) (bt n 9), 0)
  | 3 => some (Instr.mulh (bf n 21 5) (bf n 16 5) (bf n 11 5) (bt n 10) (bt n 9), 0)
  | 4 => some (Instr.mulhn (bf n 21 5) (bf n 16 5) (bf n 11 5) (bt n 10) (bt n 9), 0)
  | 5 => some (Instr.div (bf n 21 5) (bf n 16 5) (bf n 11 5) (bt n 10) (bt n 9), 0)
  | 6 => some (Instr.divn (bf n 21 5) (bf n 16 5) (bf n 11 5) (bt n 10) (bt n 9), 0)
  | 7 => some (Instr.rem (bf n 21 5) (bf n 16 5) (bf n 11 5) (bt n 10) (bt n 9), 0)
  | 8 => some (Instr.remn (bf n 21 5) (bf n 16 5) (bf n 11 5) (bt n 10) (bt n 9), 0)
  | 16 => some (Instr.and (bf n 21 5) (bf n 16 5) (bf n 11 5) (bt n 10) (bt n 9), 0)
  | 17 => some (Instr.or (bf n 21 5) (bf n 16 5) (bf n 11 5) (bt n 10) (bt n 9), 0)
  | 18 => some (Instr.xor (bf n 21 5) (bf n 16 5) (bf n 11 5) (bt n 10) (bt n 9), 0)
  | 19 => some (Instr.andn (bf n 21 5) (bf n 16 5) (bf n 11 5) (bt n 10) (bt n 9), 0)
  | 20 => some (Instr.orn (bf n 21 5) (bf n 16 5) (bf n 11 5) (bt n 10) (bt n 9), 0)
  | 24 => some (Instr.shl (bf n 21 5) (bf n 16 5) (bf n 11 5) (bt n 10) (bt n 9), 0)
  | 25 => some (Instr.shrl (bf n 21 5) (bf n 16 5) (bf n 11 5) (bt n 10) (bt n 9), 0)
  | 26 => some (Instr.shra (bf n 21 5) (bf n 16 5) (bf n 11 5) (bt n 10) (bt n 9), 0)
  | 27 => some (Instr.rotl (bf n 21 5) (bf n 16 5) (bf n 11 5) (bt n 10) (bt n 9), 0)
  | 28 => some (Instr.rotr (bf n 21 5) (bf n 16 5) (bf n 11 5) (bt n 10) (bt n 9), 0)
  | 32 => some (Instr.min (bf n 21 5) (bf n 16 5) (bf n 11 5) (bt n 10) (bt n 9), 0)
  | 33 => some (Instr.max (bf n 21 5) (bf n 16 5) (bf n 11 5) (bt n 10) (bt n 9), 0)
  | 34 => some (Instr.minn (bf n 21 5) (bf n 16 5) (bf n 11 5) (bt n 10) (bt n 9), 0)
  | 35 => some (Instr.maxn (bf n 21 5) (bf n 16 5) (bf n 11 5) (bt n 10) (bt n 9), 0)
  | 36 => some (Instr.slt (bf n 21 5) (bf n 16 5) (bf n 11 5) (bt n 10) (bt n 9), 0)
  | 37 => some (Instr.sltn (bf n 21 5) (bf n 16 5) (bf n 11 5) (bt n 10) (bt n 9), 0)
  | 38 => some (Instr.seq (bf n 21 5) (bf n 16 5) (bf n 11 5) (bt n 10) (bt n 9), 0)
  | 39 => some (Instr.sne (bf n 21 5) (bf n 16 5) (bf n 11 5) (bt n 10) (bt n 9), 0)
  | 40 => some (Instr.sel (bf n 21 5) (bf n 16 5) (bf n 11 5) (bt n 10) (bt n 9), 0)
  | 48 => some (Instr.clz (bf n 21 5) (bf n 16 5) (bt n 10), zf n 9 1 + zf n 11 5)
  | 49 => some (Instr.ctz (bf n 21 5) (bf n 16 5) (bt n 10), zf n 9 1 + zf n 11 5)
  | 50 => some (Instr.popc (bf n 21 5) (bf n 16 5) (bt n 10), zf n 9 1 + zf n 11 5)
  | 51 => some (Instr.brev (bf n 21 5) (bf n 16 5) (bt n 10), zf n 9 1 + zf n 11 5)
  | 52 => some (Instr.bswp (bf n 21 5) (bf n 16 5) (bt n 10), zf n 9 1 + zf n 11 5)
  | 56 => some (Instr.shadd (bf n 21 5) (bf n 16 5) (bf n 11 5) (bt n 10) (bt n 9) (bf n 0 2), 0)
  | 57 => some (Instr.shadd (bf n 21 5) (bf n 16 5) (bf n 11 5) (bt n 10) (bt n 9) (bf n 0 2), 0)
  | 58 => some (Instr.shadd (bf n 21 5) (bf n 16 5) (bf n 11 5) (bt n 10) (bt n 9) (bf n 0 2), 0)
  | 59 => some (Instr.shadd (bf n 21 5) (bf n 16 5) (bf n 11 5) (bt n 10) (bt n 9) (bf n 0 2), 0)
  | _ => none

/-- R45, R47: major opcode 0x08, selector [14:13]. -/
def decShi (n : Nat) : Option (Instr × Nat) :=
  match n / 8192 % 4 with
  | 0 => some (Instr.shli (bf n 21 5) (bf n 16 5) (bt n 15) (bf n 0 6), zf n 6 7)
  | 1 => some (Instr.shrli (bf n 21 5) (bf n 16 5) (bt n 15) (bf n 0 6), zf n 6 7)
  | 2 => some (Instr.shrai (bf n 21 5) (bf n 16 5) (bt n 15) (bf n 0 6), zf n 6 7)
  | 3 => some (Instr.rotli (bf n 21 5) (bf n 16 5) (bt n 15) (bf n 0 6), zf n 6 7)
  | _ => none

/-- R45, R47: major opcode 0x0b, selector [14:13]. -/
def decBf (n : Nat) : Option (Instr × Nat) :=
  match n / 8192 % 4 with
  | 0 => some (Instr.exts (bf n 21 5) (bf n 16 5) (bt n 15) (bf n 7 6) (bf n 1 6), zf n 0 1)
  | 1 => some (Instr.extz (bf n 21 5) (bf n 16 5) (bt n 15) (bf n 7 6) (bf n 1 6), zf n 0 1)
  | 2 => some (Instr.ins (bf n 21 5) (bf n 16 5) (bt n 15) (bf n 7 6) (bf n 1 6), zf n 0 1)
  | _ => none

/-- R45, R47: major opcode 0x15, selector [3:0]. -/
def decFps (n : Nat) : Option (Instr × Nat) :=
  match n % 16 with
  | 0 => some (Instr.fadd (bf n 21 5) (bf n 16 5) (bf n 11 5) (bt n 10) (bt n 9) (bf n 5 3) (bt n 4), zf n 8 1)
  | 1 => some (Instr.fsub (bf n 21 5) (bf n 16 5) (bf n 11 5) (bt n 10) (bt n 9) (bf n 5 3) (bt n 4), zf n 8 1)
  | 2 => some (Instr.fmul (bf n 21 5) (bf n 16 5) (bf n 11 5) (bt n 10) (bt n 9) (bf n 5 3) (bt n 4), zf n 8 1)
  | 3 => some (Instr.fdiv (bf n 21 5) (bf n 16 5) (bf n 11 5) (bt n 10) (bt n 9) (bf n 5 3) (bt n 4), zf n 8 1)
  | 4 => some (Instr.fsqrt (bf n 21 5) (bf n 16 5) (bt n 10) (bf n 5 3) (bt n 4), zf n 8 2 + zf n 11 5)
  | 5 => some (Instr.fmin (bf n 21 5) (bf n 16 5) (bf n 11 5) (bt n 10) (bt n 9) (bt n 4), zf n 5 4)
  | 6 => some (Instr.fmax (bf n 21 5) (bf n 16 5) (bf n 11 5) (bt n 10) (bt n 9) (bt n 4), zf n 5 4)
  | 7 => some (Instr.feq (bf n 21 5) (bf n 16 5) (bf n 11 5) (bt n 10) (bt n 9) (bt n 4), zf n 5 4)
  | 8 => some (Instr.flt (bf n 21 5) (bf n 16 5) (bf n 11 5) (bt n 10) (bt n 9) (bt n 4), zf n 5 4)
  | 9 => some (Instr.fle (bf n 21 5) (bf n 16 5) (bf n 11 5) (bt n 10) (bt n 9) (bt n 4), zf n 5 4)
  | 10 => some (Instr.fcls (bf n 21 5) (bf n 16 5) (bt n 10) (bt n 4), zf n 5 5 + zf n 11 5)
  | 11 => match n / 32 % 8 with
    | 0 => some (Instr.fsgnCp (bf n 21 5) (bf n 16 5) (bf n 11 5) (bt n 10) (bt n 9) (bt n 4), zf n 8 1)
    | 1 => some (Instr.fsgnNeg (bf n 21 5) (bf n 16 5) (bf n 11 5) (bt n 10) (bt n 9) (bt n 4), zf n 8 1)
    | 2 => some (Instr.fsgnXor (bf n 21 5) (bf n 16 5) (bf n 11 5) (bt n 10) (bt n 9) (bt n 4), zf n 8 1)
    | _ => some (Instr.fsgnCp (bf n 21 5) (bf n 16 5) (bf n 11 5) (bt n 10) (bt n 9) (bt n 4), zf n 8 1 + 224)
  | 12 => some (Instr.fcvt (bf n 21 5) (bf n 16 5) (bf n 11 5) (bt n 10) (bf n 5 3) (bt n 4), zf n 8 2)
  | _ => none

/-- R45, R47: major opcode 0x16, selector [1:0]. -/
def decFmas (n : Nat) : Option (Instr × Nat) :=
  match n % 4 with
  | 0 => some (Instr.fma (bf n 21 5) (bf n 16 5) (bf n 11 5) (bt n 10) (bt n 9) (bf n 5 3) (bt n 4), zf n 2 2 + zf n 8 1)
  | 1 => some (Instr.fms (bf n 21 5) (bf n 16 5) (bf n 11 5) (bt n 10) (bt n 9) (bf n 5 3) (bt n 4), zf n 2 2 + zf n 8 1)
  | 2 => some (Instr.fnma (bf n 21 5) (bf n 16 5) (bf n 11 5) (bt n 10) (bt n 9) (bf n 5 3) (bt n 4), zf n 2 2 + zf n 8 1)
  | 3 => some (Instr.fnms (bf n 21 5) (bf n 16 5) (bf n 11 5) (bt n 10) (bt n 9) (bf n 5 3) (bt n 4), zf n 2 2 + zf n 8 1)
  | _ => none

/-- R45, R47: major opcode 0x1f, selector [8:0]. -/
def decMemx (n : Nat) : Option (Instr × Nat) :=
  match n % 512 with
  | 0 => some (Instr.gtoa (bf n 21 5) (bf n 16 5) (bf n 11 5) (bt n 10), zf n 9 1)
  | 1 => some (Instr.atog (bf n 21 5) (bf n 16 5) (bf n 11 5) (bt n 10), zf n 9 1)
  | 2 => some (Instr.apq (bf n 21 5) (bf n 16 5) (bt n 10), zf n 9 1 + zf n 11 5)
  | 3 => match n / 2048 % 32 with
    | 0 => some (Instr.plq (bf n 21 5) (bf n 16 5) (bt n 10), zf n 9 1)
    | 1 => some (Instr.plqCur (bf n 21 5) (bf n 16 5) (bt n 10), zf n 9 1)
    | _ => some (Instr.plq (bf n 21 5) (bf n 16 5) (bt n 10), zf n 9 1 + 63488)
  | 4 => some (Instr.psjInsp (bf n 21 5) (bf n 16 5) (bf n 11 5) (bt n 10), zf n 9 1)
  | 5 => some (Instr.psjRepost (bf n 21 5) (bf n 16 5) (bt n 10), zf n 9 1 + zf n 11 5)
  | 6 => some (Instr.psjDiscard (bf n 21 5) (bf n 16 5) (bt n 10), zf n 9 1 + zf n 11 5)
  | 7 => some (Instr.psd, zf n 9 17)
  | _ => none

/-- R45, R47: major opcode 0x24, selector [4:0]. -/
def decVa (n : Nat) : Option (Instr × Nat) :=
  match n % 32 with
  | 0 => some (Instr.vadd (bf n 21 5) (bf n 16 5) (bf n 11 5) (bf n 8 3) (bf n 5 3), 0)
  | 1 => some (Instr.vsub (bf n 21 5) (bf n 16 5) (bf n 11 5) (bf n 8 3) (bf n 5 3), 0)
  | 2 => some (Instr.vmul (bf n 21 5) (bf n 16 5) (bf n 11 5) (bf n 8 3) (bf n 5 3), 0)
  | 3 => some (Instr.vdiv (bf n 21 5) (bf n 16 5) (bf n 11 5) (bf n 8 3) (bf n 5 3), 0)
  | 4 => some (Instr.vsqrt (bf n 21 5) (bf n 16 5) (bf n 8 3) (bf n 5 3), zf n 11 5)
  | 5 => some (Instr.vmin (bf n 21 5) (bf n 16 5) (bf n 11 5) (bf n 8 3) (bf n 5 3), 0)
  | 6 => some (Instr.vmax (bf n 21 5) (bf n 16 5) (bf n 11 5) (bf n 8 3) (bf n 5 3), 0)
  | 7 => some (Instr.vabs (bf n 21 5) (bf n 16 5) (bf n 8 3) (bf n 5 3), zf n 11 5)
  | 8 => some (Instr.vneg (bf n 21 5) (bf n 16 5) (bf n 8 3) (bf n 5 3), zf n 11 5)
  | 9 => some (Instr.vand (bf n 21 5) (bf n 16 5) (bf n 11 5) (bf n 8 3) (bf n 5 3), 0)
  | 10 => some (Instr.vor (bf n 21 5) (bf n 16 5) (bf n 11 5) (bf n 8 3) (bf n 5 3), 0)
  | 11 => some (Instr.vxor (bf n 21 5) (bf n 16 5) (bf n 11 5) (bf n 8 3) (bf n 5 3), 0)
  | 12 => some (Instr.vshl (bf n 21 5) (bf n 16 5) (bf n 11 5) (bf n 8 3) (bf n 5 3), 0)
  | 13 => some (Instr.vshr (bf n 21 5) (bf n 16 5) (bf n 11 5) (bf n 8 3) (bf n 5 3), 0)
  | 14 => some (Instr.vcmp (bf n 24 2) (bf n 21 3) (bf n 16 5) (bf n 11 5) (bf n 8 3) (bf n 5 3), 0)
  | 15 => some (Instr.vsel (bf n 21 5) (bf n 16 5) (bf n 11 5) (bf n 8 3) (bf n 5 3), 0)
  | 16 => some (Instr.vmov (bf n 21 5) (bf n 16 5) (bf n 8 3) (bf n 5 3), zf n 11 5)
  | 17 => some (Instr.vbc (bf n 21 5) (bf n 16 5) (bf n 8 3) (bf n 5 3), zf n 11 5)
  | 18 => some (Instr.vex (bf n 21 5) (bf n 16 5) (bf n 11 5) (bf n 5 3), zf n 8 3)
  | 19 => some (Instr.vins (bf n 21 5) (bf n 16 5) (bf n 11 5) (bf n 5 3), zf n 8 3)
  | 20 => some (Instr.viota (bf n 21 5) (bf n 8 3) (bf n 5 3), zf n 11 10)
  | 21 => some (Instr.vperm (bf n 21 5) (bf n 16 5) (bf n 11 5) (bf n 8 3) (bf n 5 3), 0)
  | 22 => some (Instr.vred (bf n 21 5) (bf n 16 5) (bf n 11 5) (bf n 8 3) (bf n 5 3), 0)
  | 23 => some (Instr.vscn (bf n 21 5) (bf n 16 5) (bf n 11 5) (bf n 8 3) (bf n 5 3), 0)
  | 24 => some (Instr.vcvt (bf n 21 5) (bf n 16 5) (bf n 11 5) (bf n 8 3) (bf n 5 3), 0)
  | 25 => some (Instr.vminN (bf n 21 5) (bf n 16 5) (bf n 11 5) (bf n 8 3) (bf n 5 3), 0)
  | 26 => some (Instr.vmaxN (bf n 21 5) (bf n 16 5) (bf n 11 5) (bf n 8 3) (bf n 5 3), 0)
  | 27 => some (Instr.vcmpN (bf n 24 2) (bf n 21 3) (bf n 16 5) (bf n 11 5) (bf n 8 3) (bf n 5 3), 0)
  | 28 => some (Instr.vshrN (bf n 21 5) (bf n 16 5) (bf n 11 5) (bf n 8 3) (bf n 5 3), 0)
  | _ => none

/-- R45, R47: major opcode 0x25, selector [1:0]. -/
def decVfma (n : Nat) : Option (Instr × Nat) :=
  match n % 4 with
  | 0 => some (Instr.vfma (bf n 21 5) (bf n 16 5) (bf n 11 5) (bf n 8 3) (bf n 5 3) (bf n 2 3), 0)
  | 1 => some (Instr.vfms (bf n 21 5) (bf n 16 5) (bf n 11 5) (bf n 8 3) (bf n 5 3) (bf n 2 3), 0)
  | 2 => some (Instr.vfnma (bf n 21 5) (bf n 16 5) (bf n 11 5) (bf n 8 3) (bf n 5 3) (bf n 2 3), 0)
  | 3 => some (Instr.vfnms (bf n 21 5) (bf n 16 5) (bf n 11 5) (bf n 8 3) (bf n 5 3) (bf n 2 3), 0)
  | _ => none

/-- R45, R47: major opcode 0x26, selector [4:0]. -/
def decXacc (n : Nat) : Option (Instr × Nat) :=
  match n % 32 with
  | 0 => some (Instr.xclr, zf n 5 21)
  | 1 => some (Instr.xmac2 (bf n 16 5) (bf n 11 5) (bf n 8 3) (bf n 5 3), zf n 21 5)
  | 2 => some (Instr.xmac3 (bf n 21 5) (bf n 16 5) (bf n 11 5) (bf n 8 3) (bf n 5 3), 0)
  | 3 => some (Instr.xadd (bf n 16 5) (bf n 8 3) (bf n 5 3), zf n 11 5 + zf n 21 5)
  | 4 => some (Instr.xsgn (bf n 21 5), zf n 5 16)
  | 5 => some (Instr.xrnd (bf n 21 5) (bf n 11 3), zf n 5 6 + zf n 14 7)
  | 6 => some (Instr.xspl (bf n 16 5), zf n 5 11 + zf n 21 5)
  | 7 => some (Instr.xfil (bf n 16 5), zf n 5 11 + zf n 21 5)
  | _ => none

/-- R45, R47: major opcode 0x28, selector [3:0]. -/
def decAmo (n : Nat) : Option (Instr × Nat) :=
  match n % 16 with
  | 0 => some (Instr.amoAdd (bf n 21 5) (bf n 16 5) (bf n 11 5) (bt n 10) (bt n 9) (bt n 8) (bf n 5 3) (bt n 4), 0)
  | 1 => some (Instr.amoAnd (bf n 21 5) (bf n 16 5) (bf n 11 5) (bt n 10) (bt n 9) (bt n 8) (bf n 5 3) (bt n 4), 0)
  | 2 => some (Instr.amoOr (bf n 21 5) (bf n 16 5) (bf n 11 5) (bt n 10) (bt n 9) (bt n 8) (bf n 5 3) (bt n 4), 0)
  | 3 => some (Instr.amoXor (bf n 21 5) (bf n 16 5) (bf n 11 5) (bt n 10) (bt n 9) (bt n 8) (bf n 5 3) (bt n 4), 0)
  | 4 => some (Instr.amoMin (bf n 21 5) (bf n 16 5) (bf n 11 5) (bt n 10) (bt n 9) (bt n 8) (bf n 5 3) (bt n 4), 0)
  | 5 => some (Instr.amoMax (bf n 21 5) (bf n 16 5) (bf n 11 5) (bt n 10) (bt n 9) (bt n 8) (bf n 5 3) (bt n 4), 0)
  | 6 => some (Instr.amoMinn (bf n 21 5) (bf n 16 5) (bf n 11 5) (bt n 10) (bt n 9) (bt n 8) (bf n 5 3) (bt n 4), 0)
  | 7 => some (Instr.amoMaxn (bf n 21 5) (bf n 16 5) (bf n 11 5) (bt n 10) (bt n 9) (bt n 8) (bf n 5 3) (bt n 4), 0)
  | 8 => some (Instr.amoSwp (bf n 21 5) (bf n 16 5) (bf n 11 5) (bt n 10) (bt n 9) (bt n 8) (bf n 5 3) (bt n 4), 0)
  | 9 => some (Instr.amoFadds (bf n 21 5) (bf n 16 5) (bf n 11 5) (bt n 10) (bt n 9) (bt n 8) (bf n 5 3), zf n 4 1)
  | 10 => some (Instr.amoFaddd (bf n 21 5) (bf n 16 5) (bf n 11 5) (bt n 10) (bt n 9) (bt n 8) (bf n 5 3), (if bt n 4 then 0 else 16))
  | _ => none

/-- R45, R47: major opcode 0x2d, selector [3:0]. -/
def decRed (n : Nat) : Option (Instr × Nat) :=
  match n % 16 with
  | 0 => some (Instr.redAdd (bf n 16 5) (bf n 11 5) (bt n 10) (bt n 9) (bf n 5 3) (bt n 4), zf n 8 1 + zf n 21 5)
  | 1 => some (Instr.redAnd (bf n 16 5) (bf n 11 5) (bt n 10) (bt n 9) (bf n 5 3) (bt n 4), zf n 8 1 + zf n 21 5)
  | 2 => some (Instr.redOr (bf n 16 5) (bf n 11 5) (bt n 10) (bt n 9) (bf n 5 3) (bt n 4), zf n 8 1 + zf n 21 5)
  | 3 => some (Instr.redXor (bf n 16 5) (bf n 11 5) (bt n 10) (bt n 9) (bf n 5 3) (bt n 4), zf n 8 1 + zf n 21 5)
  | 4 => some (Instr.redMin (bf n 16 5) (bf n 11 5) (bt n 10) (bt n 9) (bf n 5 3) (bt n 4), zf n 8 1 + zf n 21 5)
  | 5 => some (Instr.redMax (bf n 16 5) (bf n 11 5) (bt n 10) (bt n 9) (bf n 5 3) (bt n 4), zf n 8 1 + zf n 21 5)
  | 6 => some (Instr.redMinn (bf n 16 5) (bf n 11 5) (bt n 10) (bt n 9) (bf n 5 3) (bt n 4), zf n 8 1 + zf n 21 5)
  | 7 => some (Instr.redMaxn (bf n 16 5) (bf n 11 5) (bt n 10) (bt n 9) (bf n 5 3) (bt n 4), zf n 8 1 + zf n 21 5)
  | 9 => some (Instr.redFadds (bf n 16 5) (bf n 11 5) (bt n 10) (bt n 9) (bf n 5 3), zf n 4 1 + zf n 8 1 + zf n 21 5)
  | 10 => some (Instr.redFaddd (bf n 16 5) (bf n 11 5) (bt n 10) (bt n 9) (bf n 5 3), zf n 8 1 + zf n 21 5 + (if bt n 4 then 0 else 16))
  | _ => none

/-- R45, R47: major opcode 0x2e, selector [1:0]. -/
def decFnc (n : Nat) : Option (Instr × Nat) :=
  match n % 4 with
  | 0 => some (Instr.fncAcq (bt n 5) (bf n 2 3), zf n 6 20)
  | 1 => some (Instr.fncRel (bt n 5) (bf n 2 3), zf n 6 20)
  | 2 => some (Instr.fncFull (bt n 5) (bf n 2 3), zf n 6 20)
  | _ => none

/-- R45, R47: major opcode 0x2f, selector [8:0]. -/
def decSynx (n : Nat) : Option (Instr × Nat) :=
  match n % 512 with
  | 0 => some (Instr.migr (bf n 16 5) (bt n 10), zf n 9 1 + zf n 11 5 + zf n 21 5)
  | 1 => some (Instr.mhom, zf n 9 17)
  | 2 => some (Instr.breg (bf n 21 5) (bf n 16 5) (bt n 10), zf n 9 1 + zf n 11 5)
  | 3 => some (Instr.bdrg (bf n 21 5) (bf n 16 5) (bt n 10), zf n 9 1 + zf n 11 5)
  | 4 => some (Instr.barv (bf n 21 5) (bf n 16 5) (bt n 10), zf n 9 1 + zf n 11 5)
  | 5 => some (Instr.barw (bf n 21 5) (bf n 16 5) (bf n 11 5) (bt n 10) (bt n 9), 0)
  | 6 => some (Instr.semp (bf n 21 5) (bf n 16 5) (bf n 11 5) (bt n 10) (bt n 9), 0)
  | 7 => some (Instr.semw (bf n 21 5) (bf n 16 5) (bf n 11 5) (bt n 10) (bt n 9), 0)
  | 8 => some (Instr.send (bf n 21 5) (bf n 16 5) (bf n 11 5) (bt n 10) (bt n 9), 0)
  | 9 => some (Instr.recv (bf n 21 5) (bf n 16 5) (bf n 11 5) (bt n 10) (bt n 9), 0)
  | 10 => some (Instr.qwt (bf n 16 5) (bf n 11 5) (bt n 10) (bt n 9), zf n 21 5)
  | 11 => some (Instr.qcfg (bf n 21 5) (bf n 16 5) (bt n 10), zf n 9 1 + zf n 11 5)
  | _ => none

/-- R45, R47: major opcode 0x30, selector [7:0]. -/
def decName (n : Nat) : Option (Instr × Nat) :=
  match n % 256 with
  | 0 => some (Instr.nnew (bf n 21 5) (bf n 16 5) (bf n 11 5) (bt n 10) (bt n 9) (bt n 8), 0)
  | 1 => some (Instr.nres (bf n 21 5) (bf n 16 5) (bf n 11 5) (bt n 10), zf n 8 2)
  | 2 => some (Instr.nrst (bf n 21 5) (bf n 16 5) (bf n 11 5) (bt n 10), zf n 8 2)
  | 3 => some (Instr.ncas (bf n 21 5) (bf n 16 5) (bf n 11 5) (bt n 10) (bt n 9), zf n 8 1)
  | 4 => some (Instr.nkil (bf n 21 5) (bf n 16 5) (bt n 10), zf n 8 2 + zf n 11 5)
  | 5 => some (Instr.nqry (bf n 21 5) (bf n 16 5) (bf n 11 5) (bt n 10), zf n 8 2)
  | 6 => some (Instr.nshd (bf n 21 5) (bf n 16 5) (bt n 10), zf n 8 2 + zf n 11 5)
  | 7 => some (Instr.nslf (bf n 21 5), zf n 8 13)
  | _ => none

/-- R45, R47: major opcode 0x31, selector [3:0]. -/
def decGrm (n : Nat) : Option (Instr × Nat) :=
  match n % 16 with
  | 0 => some (Instr.gnew (bf n 21 5) (bf n 16 5) (bf n 11 5) (bt n 10) (bt n 9), zf n 4 5)
  | 1 => some (Instr.glen (bf n 21 5) (bf n 16 5) (bt n 10), zf n 4 6 + zf n 11 5)
  | 2 => some (Instr.gev (bf n 21 5) (bf n 16 5) (bf n 11 5) (bt n 10) (bt n 9) (bf n 4 5), 0)
  | 3 => some (Instr.gcmb (bf n 21 5) (bf n 16 5) (bf n 11 5) (bf n 4 5), zf n 9 2)
  | 4 => some (Instr.gofs (bf n 21 5) (bf n 16 5) (bf n 11 5) (bt n 10) (bt n 9) (bf n 4 5), 0)
  | 5 => some (Instr.gidx (bf n 21 5) (bf n 16 5) (bf n 11 5) (bt n 10) (bt n 9), zf n 4 5)
  | 6 => some (Instr.gpfx (bf n 21 5) (bf n 16 5) (bf n 11 5) (bt n 10) (bt n 9), zf n 4 5)
  | 7 => some (Instr.gscn (bf n 21 5) (bf n 16 5) (bf n 11 5) (bt n 10) (bt n 9), zf n 4 5)
  | 8 => some (Instr.gmv (bf n 21 5) (bf n 16 5) (bf n 11 5) (bt n 10) (bt n 9), zf n 4 5)
  | 9 => match n / 2048 % 32 with
    | 0 => some (Instr.grtiAll (bf n 21 5), zf n 4 7 + zf n 16 5)
    | 1 => some (Instr.grtiRule (bf n 21 5) (bf n 16 5) (bt n 10), zf n 4 6)
    | 2 => some (Instr.grtiObj (bf n 21 5) (bf n 16 5) (bt n 10), zf n 4 6)
    | _ => some (Instr.grtiRule (bf n 21 5) (bf n 16 5) (bt n 10), zf n 4 6 + 63488)
  | 10 => if n / 2048 % 32 < 8 then some (Instr.grtq (bf n 21 5) (bf n 11 3), zf n 4 7 + zf n 16 5)
    else if n / 2048 % 32 < 10 then some (Instr.grtqClear (bf n 21 5) (bt n 11), zf n 4 7 + zf n 16 5)
    else some (Instr.grtq (bf n 21 5) (bf n 11 3), zf n 4 7 + zf n 16 5 + 63488)
  | _ => none

/-- R45, R47: major opcode 0x32, selector [8:0]. -/
def decTask (n : Nat) : Option (Instr × Nat) :=
  match n % 512 with
  | 0 => some (Instr.spwn (bf n 21 5) (bf n 16 5) (bf n 11 5) (bt n 10) (bt n 9), 0)
  | 1 => some (Instr.reap (bf n 21 5) (bf n 16 5) (bt n 10), zf n 9 1 + zf n 11 5)
  | 2 => some (Instr.slst (bf n 21 5) (bf n 16 5) (bt n 10), zf n 9 1 + zf n 11 5)
  | 3 => some (Instr.lnch (bf n 21 5) (bf n 16 5) (bt n 10), zf n 9 1 + zf n 11 5)
  | 4 => some (Instr.lwt (bf n 21 5) (bf n 16 5) (bf n 11 5) (bt n 10) (bt n 9), 0)
  | 5 => some (Instr.wdq (bf n 16 5) (bt n 10), zf n 9 1 + zf n 11 5 + zf n 21 5)
  | 6 => some (Instr.amsg (bf n 21 5) (bf n 16 5) (bf n 11 5) (bt n 10) (bt n 9), 0)
  | 7 => some (Instr.tbnd (bf n 21 5), zf n 9 12)
  | 8 => some (Instr.encl (bf n 21 5) (bf n 16 5) (bt n 10), zf n 9 1 + zf n 11 5)
  | _ => none

/-- R45, R47: major opcode 0x34, selector [13:8]. -/
def decMx (n : Nat) : Option (Instr × Nat) :=
  match n / 256 % 64 with
  | 0 => some (Instr.mxl (bf n 21 5) (bt n 15) (bf n 0 8), zf n 14 1 + zf n 16 5)
  | 1 => some (Instr.mxu (bf n 0 8), zf n 14 12)
  | 2 => some (Instr.mxw (bf n 0 8), zf n 14 12)
  | 3 => some (Instr.mxs (bf n 21 5) (bt n 15) (bf n 0 8), zf n 14 1 + zf n 16 5)
  | 4 => some (Instr.mxb (bf n 0 8), zf n 14 12)
  | 5 => some (Instr.mxp (bf n 21 5) (bf n 16 5) (bt n 15) (bt n 14) (bf n 0 8), 0)
  | 6 => some (Instr.mxc (bf n 21 5) (bf n 16 5) (bt n 15) (bt n 14) (bf n 0 8), 0)
  | 7 => some (Instr.mxwb (bf n 21 5) (bt n 15) (bf n 0 8), zf n 14 1 + zf n 16 5)
  | 8 => some (Instr.mxrd (bf n 21 5) (bt n 15) (bf n 0 8), zf n 14 1 + zf n 16 5)
  | 9 => some (Instr.mxz (bf n 21 5) (bt n 15) (bf n 0 8), zf n 14 1 + zf n 16 5)
  | _ => none

/-- R45, R47: major opcode 0x35, selector [13:8]. -/
def decCp (n : Nat) : Option (Instr × Nat) :=
  match n / 256 % 64 with
  | 0 => some (Instr.cpy (bf n 21 5) (bf n 16 5) (bt n 15) (bt n 14) (bf n 0 8), 0)
  | 1 => some (Instr.cpr (bf n 21 5) (bf n 16 5) (bt n 15) (bt n 14) (bf n 0 8), 0)
  | 2 => some (Instr.cpz (bf n 21 5) (bf n 16 5) (bt n 15) (bt n 14) (bf n 0 8), 0)
  | 3 => some (Instr.cps (bf n 21 5) (bf n 16 5) (bt n 15) (bt n 14) (bf n 0 8), 0)
  | 4 => some (Instr.cpcCompress (bf n 21 5) (bf n 16 5) (bt n 15) (bt n 14) (bf n 0 8), 0)
  | 5 => some (Instr.gexp (bf n 21 5) (bf n 16 5) (bt n 15) (bt n 14) (bf n 0 8), 0)
  | _ => none

/-- R45, R47: major opcode 0x36, selector [13:8]. -/
def decCv (n : Nat) : Option (Instr × Nat) :=
  match n / 256 % 64 with
  | 0 => some (Instr.cvt (bf n 21 5) (bf n 16 5) (bt n 15) (bt n 14) (bf n 0 8), 0)
  | 1 => some (Instr.cvpAct (bf n 21 5) (bf n 16 5) (bt n 15) (bt n 14) (bf n 0 8), 0)
  | 2 => some (Instr.cvq (bf n 21 5) (bf n 16 5) (bt n 15) (bt n 14) (bf n 0 8), 0)
  | _ => none

/-- R45, R47: major opcode 0x37, selector [8:8]. -/
def decEng (n : Nat) : Option (Instr × Nat) :=
  match n / 256 % 2 with
  | 0 => some (Instr.engw (bf n 16 5) (bt n 10) (bf n 6 2) (bf n 0 6), zf n 9 1 + zf n 11 5 + zf n 21 5)
  | 1 => if n % 256 = 216 then some (Instr.engrBdat (bf n 21 5) (bf n 16 5) (bt n 10), zf n 9 1 + zf n 11 5) else some (Instr.engr (bf n 21 5) (bf n 6 2) (bf n 0 6), zf n 9 12)
  | _ => none

/-- R45, R47: major opcode 0x38, selector [8:0]. -/
def decSys (n : Nat) : Option (Instr × Nat) :=
  match n % 512 with
  | 0 => some (Instr.prmt (bf n 21 5) (bf n 16 5) (bf n 11 5) (bt n 10) (bt n 9), 0)
  | 1 => some (Instr.hgrp (bf n 21 5) (bf n 16 5) (bf n 11 5) (bt n 10) (bt n 9), 0)
  | 2 => some (Instr.halt (bf n 21 5) (bf n 16 5) (bt n 10), zf n 9 1 + zf n 11 5)
  | 3 => some (Instr.resm (bf n 21 5) (bf n 16 5) (bf n 11 5) (bt n 10) (bt n 9), 0)
  | 4 => some (Instr.tccfIn (bf n 21 5) (bf n 16 5) (bf n 11 5) (bt n 10) (bt n 9), 0)
  | 5 => some (Instr.lrtb (bf n 21 5) (bf n 16 5) (bf n 11 5) (bt n 10) (bt n 9), 0)
  | _ => none

/-- R42, R43 steps 1 and 2: the instruction of an allocated word, and the must-be-zero bits it sets. -/
def decodeRaw (w : Word) : Option (Instr × Nat) :=
  let n := w.toNat
  match n / 67108864 with
  | 0 => decMisc n
  | 1 => decAlu n
  | 2 => some (Instr.addi (bf n 21 5) (bf n 16 5) (bt n 15) (bf n 0 15), 0)
  | 3 => some (Instr.andi (bf n 21 5) (bf n 16 5) (bt n 15) (bf n 0 15), 0)
  | 4 => some (Instr.ori (bf n 21 5) (bf n 16 5) (bt n 15) (bf n 0 15), 0)
  | 5 => some (Instr.xori (bf n 21 5) (bf n 16 5) (bt n 15) (bf n 0 15), 0)
  | 6 => some (Instr.slti (bf n 21 5) (bf n 16 5) (bt n 15) (bf n 0 15), 0)
  | 7 => some (Instr.seqi (bf n 21 5) (bf n 16 5) (bt n 15) (bf n 0 15), 0)
  | 8 => decShi n
  | 9 => some (Instr.li (bf n 21 5) (bf n 0 21), 0)
  | 10 => some (Instr.lih (bf n 21 5) (bf n 16 2) (bf n 0 16), zf n 18 3)
  | 11 => decBf n
  | 12 => some (Instr.beq (bf n 21 5) (bf n 16 5) (bt n 15) (bf n 0 15), 0)
  | 13 => some (Instr.bne (bf n 21 5) (bf n 16 5) (bt n 15) (bf n 0 15), 0)
  | 14 => some (Instr.blt (bf n 21 5) (bf n 16 5) (bt n 15) (bf n 0 15), 0)
  | 15 => some (Instr.bge (bf n 21 5) (bf n 16 5) (bt n 15) (bf n 0 15), 0)
  | 16 => some (Instr.bltn (bf n 21 5) (bf n 16 5) (bt n 15) (bf n 0 15), 0)
  | 17 => some (Instr.bgen (bf n 21 5) (bf n 16 5) (bt n 15) (bf n 0 15), 0)
  | 18 => some (Instr.jal (bf n 0 26), 0)
  | 19 => some (Instr.jalr (bf n 21 5) (bf n 16 5) (bt n 15) (bf n 0 15), 0)
  | 20 => some (Instr.bemp (bf n 21 5) (bf n 17 2) (bt n 16) (bf n 0 15), zf n 15 1 + zf n 19 2)
  | 21 => decFps n
  | 22 => decFmas n
  | 24 => some (Instr.ld (bf n 21 5) (bf n 16 5) (bt n 15) (bf n 13 2) (bf n 10 3) (bf n 0 10), 0)
  | 25 => some (Instr.ldz (bf n 21 5) (bf n 16 5) (bt n 15) (bf n 13 2) (bf n 10 3) (bf n 0 10), 0)
  | 26 => some (Instr.st (bf n 21 5) (bf n 16 5) (bt n 15) (bf n 13 2) (bf n 10 3) (bf n 0 10), 0)
  | 27 => some (Instr.ldt (bf n 21 5) (bf n 16 5) (bt n 15) (bf n 10 3) (bf n 0 10), (if n / 8192 % 4 = 3 then 0 else 24576))
  | 28 => some (Instr.ldw (bf n 21 5) (bf n 16 5) (bt n 15) (bf n 10 3) (bf n 0 10), (if n / 8192 % 4 = 3 then 0 else 24576))
  | 29 => some (Instr.ste (bf n 21 5) (bf n 16 5) (bt n 15) (bf n 10 3) (bf n 0 10), (if n / 8192 % 4 = 3 then 0 else 24576))
  | 30 => some (Instr.stf (bf n 21 5) (bf n 16 5) (bt n 15) (bf n 10 3) (bf n 0 10), (if n / 8192 % 4 = 3 then 0 else 24576))
  | 31 => decMemx n
  | 32 => some (Instr.vld (bf n 21 5) (bf n 16 5) (bt n 15) (bf n 10 3) (bf n 0 10), (if n / 8192 % 4 = 3 then 0 else 24576))
  | 33 => some (Instr.vst (bf n 21 5) (bf n 16 5) (bt n 15) (bf n 10 3) (bf n 0 10), (if n / 8192 % 4 = 3 then 0 else 24576))
  | 34 => some (Instr.vgx (bf n 21 5) (bf n 16 5) (bf n 11 5) (bf n 8 3) (bf n 5 3) (bf n 0 2), zf n 2 3)
  | 35 => some (Instr.vsx (bf n 21 5) (bf n 16 5) (bf n 11 5) (bf n 8 3) (bf n 5 3) (bf n 0 2), zf n 2 3)
  | 36 => decVa n
  | 37 => decVfma n
  | 38 => decXacc n
  | 40 => decAmo n
  | 41 => some (Instr.cas (bf n 21 5) (bf n 16 5) (bf n 11 5) (bt n 10) (bt n 9) (bt n 5) (bf n 2 3) (bf n 0 2), zf n 6 3)
  | 42 => some (Instr.rsv (bf n 21 5) (bf n 16 5) (bt n 10) (bf n 1 3) (bt n 0), zf n 4 6 + zf n 11 5)
  | 43 => some (Instr.scn (bf n 21 5) (bf n 16 5) (bf n 11 5) (bt n 10) (bt n 9) (bf n 1 3) (bt n 0), zf n 4 5)
  | 44 => some (Instr.wrs (bf n 21 5) (bf n 16 5) (bt n 15) (bf n 0 15), 0)
  | 45 => decRed n
  | 46 => decFnc n
  | 47 => decSynx n
  | 48 => decName n
  | 49 => decGrm n
  | 50 => decTask n
  | 52 => decMx n
  | 53 => decCp n
  | 54 => decCv n
  | 55 => decEng n
  | 56 => decSys n
  | _ => none

/-- Why a word is not an instruction (R43). -/
inductive DecodeError where
  /-- Check 1 or 2: the opcode or the selector is not allocated. -/
  | unallocated
  /-- Check 5: the mask of the refused bits. -/
  | reservedField (mask : Nat)
deriving DecidableEq, Repr

/-- R43 steps 1, 2 and 5: the instruction of a word, or why there is none. -/
def decode (w : Word) : Except DecodeError Instr :=
  match decodeRaw w with
  | none => .error .unallocated
  | some (i, z) => if z + refusedFields i = 0 then .ok i else .error (.reservedField (z + refusedFields i))

/-- The word at the lowest address: bits 31..0 of the table's numbering, low byte first (R39). -/
def wordOfBytes (b0 b1 b2 b3 : Byte) : Word := b3 ++ b2 ++ b1 ++ b0

/-- What the decoder reads from the instruction with bits `w`, laid out as four bytes in memory order (R39). -/
def decodeTableWord (_nbits w : Nat) : Option Instr :=
  (decode (wordOfBytes (BitVec.ofNat 8 w) (BitVec.ofNat 8 (w / 256)) (BitVec.ofNat 8 (w / 65536))
    (BitVec.ofNat 8 (w / 16777216)))).toOption

/-- R40 to R47: the number of an instruction's word, each field at its place; 0 for a step that no word encodes. -/
def encodeNat : Instr → Nat
  | .nop => 0x1
  | .uni => 0x2
  | .brk => 0x3
  | .ckpt => 0x4
  | .setf d f => 0x5 + d.toNat * 2097152 + f.toNat * 4096
  | .sete d f => 0x6 + d.toNat * 2097152 + f.toNat * 4096
  | .tfe d f => 0x7 + d.toNat * 2097152 + f.toNat * 4096
  | .rdc d c => 0x8 + d.toNat * 2097152 + c.toNat * 512
  | .wrc a c => 0x9 + a.toNat * 65536 + c.toNat * 512
  | .sysc c => 0xa + c.toNat * 2048
  | .eret => 0xb
  | .uiret => 0xc
  | .tend a m => 0xd + a.toNat * 65536 + m.toNat * 1024
  | .add d a b m n => 0x4000000 + d.toNat * 2097152 + a.toNat * 65536 + b.toNat * 2048 + m.toNat * 1024 + n.toNat * 512
  | .sub d a b m n => 0x4000001 + d.toNat * 2097152 + a.toNat * 65536 + b.toNat * 2048 + m.toNat * 1024 + n.toNat * 512
  | .mul d a b m n => 0x4000002 + d.toNat * 2097152 + a.toNat * 65536 + b.toNat * 2048 + m.toNat * 1024 + n.toNat * 512
  | .mulh d a b m n => 0x4000003 + d.toNat * 2097152 + a.toNat * 65536 + b.toNat * 2048 + m.toNat * 1024 + n.toNat * 512
  | .mulhn d a b m n => 0x4000004 + d.toNat * 2097152 + a.toNat * 65536 + b.toNat * 2048 + m.toNat * 1024 + n.toNat * 512
  | .div d a b m n => 0x4000005 + d.toNat * 2097152 + a.toNat * 65536 + b.toNat * 2048 + m.toNat * 1024 + n.toNat * 512
  | .divn d a b m n => 0x4000006 + d.toNat * 2097152 + a.toNat * 65536 + b.toNat * 2048 + m.toNat * 1024 + n.toNat * 512
  | .rem d a b m n => 0x4000007 + d.toNat * 2097152 + a.toNat * 65536 + b.toNat * 2048 + m.toNat * 1024 + n.toNat * 512
  | .remn d a b m n => 0x4000008 + d.toNat * 2097152 + a.toNat * 65536 + b.toNat * 2048 + m.toNat * 1024 + n.toNat * 512
  | .and d a b m n => 0x4000010 + d.toNat * 2097152 + a.toNat * 65536 + b.toNat * 2048 + m.toNat * 1024 + n.toNat * 512
  | .or d a b m n => 0x4000011 + d.toNat * 2097152 + a.toNat * 65536 + b.toNat * 2048 + m.toNat * 1024 + n.toNat * 512
  | .xor d a b m n => 0x4000012 + d.toNat * 2097152 + a.toNat * 65536 + b.toNat * 2048 + m.toNat * 1024 + n.toNat * 512
  | .andn d a b m n => 0x4000013 + d.toNat * 2097152 + a.toNat * 65536 + b.toNat * 2048 + m.toNat * 1024 + n.toNat * 512
  | .orn d a b m n => 0x4000014 + d.toNat * 2097152 + a.toNat * 65536 + b.toNat * 2048 + m.toNat * 1024 + n.toNat * 512
  | .shl d a b m n => 0x4000018 + d.toNat * 2097152 + a.toNat * 65536 + b.toNat * 2048 + m.toNat * 1024 + n.toNat * 512
  | .shrl d a b m n => 0x4000019 + d.toNat * 2097152 + a.toNat * 65536 + b.toNat * 2048 + m.toNat * 1024 + n.toNat * 512
  | .shra d a b m n => 0x400001a + d.toNat * 2097152 + a.toNat * 65536 + b.toNat * 2048 + m.toNat * 1024 + n.toNat * 512
  | .rotl d a b m n => 0x400001b + d.toNat * 2097152 + a.toNat * 65536 + b.toNat * 2048 + m.toNat * 1024 + n.toNat * 512
  | .rotr d a b m n => 0x400001c + d.toNat * 2097152 + a.toNat * 65536 + b.toNat * 2048 + m.toNat * 1024 + n.toNat * 512
  | .min d a b m n => 0x4000020 + d.toNat * 2097152 + a.toNat * 65536 + b.toNat * 2048 + m.toNat * 1024 + n.toNat * 512
  | .max d a b m n => 0x4000021 + d.toNat * 2097152 + a.toNat * 65536 + b.toNat * 2048 + m.toNat * 1024 + n.toNat * 512
  | .minn d a b m n => 0x4000022 + d.toNat * 2097152 + a.toNat * 65536 + b.toNat * 2048 + m.toNat * 1024 + n.toNat * 512
  | .maxn d a b m n => 0x4000023 + d.toNat * 2097152 + a.toNat * 65536 + b.toNat * 2048 + m.toNat * 1024 + n.toNat * 512
  | .slt d a b m n => 0x4000024 + d.toNat * 2097152 + a.toNat * 65536 + b.toNat * 2048 + m.toNat * 1024 + n.toNat * 512
  | .sltn d a b m n => 0x4000025 + d.toNat * 2097152 + a.toNat * 65536 + b.toNat * 2048 + m.toNat * 1024 + n.toNat * 512
  | .seq d a b m n => 0x4000026 + d.toNat * 2097152 + a.toNat * 65536 + b.toNat * 2048 + m.toNat * 1024 + n.toNat * 512
  | .sne d a b m n => 0x4000027 + d.toNat * 2097152 + a.toNat * 65536 + b.toNat * 2048 + m.toNat * 1024 + n.toNat * 512
  | .sel d a b m n => 0x4000028 + d.toNat * 2097152 + a.toNat * 65536 + b.toNat * 2048 + m.toNat * 1024 + n.toNat * 512
  | .clz d a m => 0x4000030 + d.toNat * 2097152 + a.toNat * 65536 + m.toNat * 1024
  | .ctz d a m => 0x4000031 + d.toNat * 2097152 + a.toNat * 65536 + m.toNat * 1024
  | .popc d a m => 0x4000032 + d.toNat * 2097152 + a.toNat * 65536 + m.toNat * 1024
  | .brev d a m => 0x4000033 + d.toNat * 2097152 + a.toNat * 65536 + m.toNat * 1024
  | .bswp d a m => 0x4000034 + d.toNat * 2097152 + a.toNat * 65536 + m.toNat * 1024
  | .shadd d a b m n k => 0x4000038 + d.toNat * 2097152 + a.toNat * 65536 + b.toNat * 2048 + m.toNat * 1024 + n.toNat * 512 + k.toNat
  | .addi d a m i => 0x8000000 + d.toNat * 2097152 + a.toNat * 65536 + m.toNat * 32768 + i.toNat
  | .andi d a m i => 0xc000000 + d.toNat * 2097152 + a.toNat * 65536 + m.toNat * 32768 + i.toNat
  | .ori d a m i => 0x10000000 + d.toNat * 2097152 + a.toNat * 65536 + m.toNat * 32768 + i.toNat
  | .xori d a m i => 0x14000000 + d.toNat * 2097152 + a.toNat * 65536 + m.toNat * 32768 + i.toNat
  | .slti d a m i => 0x18000000 + d.toNat * 2097152 + a.toNat * 65536 + m.toNat * 32768 + i.toNat
  | .seqi d a m i => 0x1c000000 + d.toNat * 2097152 + a.toNat * 65536 + m.toNat * 32768 + i.toNat
  | .shli d a m s => 0x20000000 + d.toNat * 2097152 + a.toNat * 65536 + m.toNat * 32768 + s.toNat
  | .shrli d a m s => 0x20002000 + d.toNat * 2097152 + a.toNat * 65536 + m.toNat * 32768 + s.toNat
  | .shrai d a m s => 0x20004000 + d.toNat * 2097152 + a.toNat * 65536 + m.toNat * 32768 + s.toNat
  | .rotli d a m s => 0x20006000 + d.toNat * 2097152 + a.toNat * 65536 + m.toNat * 32768 + s.toNat
  | .li d i => 0x24000000 + d.toNat * 2097152 + i.toNat
  | .lih d h v => 0x28000000 + d.toNat * 2097152 + h.toNat * 65536 + v.toNat
  | .exts d a m p w => 0x2c000000 + d.toNat * 2097152 + a.toNat * 65536 + m.toNat * 32768 + p.toNat * 128 + w.toNat * 2
  | .extz d a m p w => 0x2c002000 + d.toNat * 2097152 + a.toNat * 65536 + m.toNat * 32768 + p.toNat * 128 + w.toNat * 2
  | .ins d a m p w => 0x2c004000 + d.toNat * 2097152 + a.toNat * 65536 + m.toNat * 32768 + p.toNat * 128 + w.toNat * 2
  | .beq a b m o => 0x30000000 + a.toNat * 2097152 + b.toNat * 65536 + m.toNat * 32768 + o.toNat
  | .bne a b m o => 0x34000000 + a.toNat * 2097152 + b.toNat * 65536 + m.toNat * 32768 + o.toNat
  | .blt a b m o => 0x38000000 + a.toNat * 2097152 + b.toNat * 65536 + m.toNat * 32768 + o.toNat
  | .bge a b m o => 0x3c000000 + a.toNat * 2097152 + b.toNat * 65536 + m.toNat * 32768 + o.toNat
  | .bltn a b m o => 0x40000000 + a.toNat * 2097152 + b.toNat * 65536 + m.toNat * 32768 + o.toNat
  | .bgen a b m o => 0x44000000 + a.toNat * 2097152 + b.toNat * 65536 + m.toNat * 32768 + o.toNat
  | .jal o => 0x48000000 + o.toNat
  | .jalr d a m i => 0x4c000000 + d.toNat * 2097152 + a.toNat * 65536 + m.toNat * 32768 + i.toNat
  | .bemp a f s o => 0x50000000 + a.toNat * 2097152 + f.toNat * 131072 + s.toNat * 65536 + o.toNat
  | .fadd d a b m n r f => 0x54000000 + d.toNat * 2097152 + a.toNat * 65536 + b.toNat * 2048 + m.toNat * 1024 + n.toNat * 512 + r.toNat * 32 + f.toNat * 16
  | .fsub d a b m n r f => 0x54000001 + d.toNat * 2097152 + a.toNat * 65536 + b.toNat * 2048 + m.toNat * 1024 + n.toNat * 512 + r.toNat * 32 + f.toNat * 16
  | .fmul d a b m n r f => 0x54000002 + d.toNat * 2097152 + a.toNat * 65536 + b.toNat * 2048 + m.toNat * 1024 + n.toNat * 512 + r.toNat * 32 + f.toNat * 16
  | .fdiv d a b m n r f => 0x54000003 + d.toNat * 2097152 + a.toNat * 65536 + b.toNat * 2048 + m.toNat * 1024 + n.toNat * 512 + r.toNat * 32 + f.toNat * 16
  | .fsqrt d a m r f => 0x54000004 + d.toNat * 2097152 + a.toNat * 65536 + m.toNat * 1024 + r.toNat * 32 + f.toNat * 16
  | .fmin d a b m n f => 0x54000005 + d.toNat * 2097152 + a.toNat * 65536 + b.toNat * 2048 + m.toNat * 1024 + n.toNat * 512 + f.toNat * 16
  | .fmax d a b m n f => 0x54000006 + d.toNat * 2097152 + a.toNat * 65536 + b.toNat * 2048 + m.toNat * 1024 + n.toNat * 512 + f.toNat * 16
  | .feq d a b m n f => 0x54000007 + d.toNat * 2097152 + a.toNat * 65536 + b.toNat * 2048 + m.toNat * 1024 + n.toNat * 512 + f.toNat * 16
  | .flt d a b m n f => 0x54000008 + d.toNat * 2097152 + a.toNat * 65536 + b.toNat * 2048 + m.toNat * 1024 + n.toNat * 512 + f.toNat * 16
  | .fle d a b m n f => 0x54000009 + d.toNat * 2097152 + a.toNat * 65536 + b.toNat * 2048 + m.toNat * 1024 + n.toNat * 512 + f.toNat * 16
  | .fcls d a m f => 0x5400000a + d.toNat * 2097152 + a.toNat * 65536 + m.toNat * 1024 + f.toNat * 16
  | .fsgnCp d a b m n f => 0x5400000b + d.toNat * 2097152 + a.toNat * 65536 + b.toNat * 2048 + m.toNat * 1024 + n.toNat * 512 + f.toNat * 16
  | .fsgnNeg d a b m n f => 0x5400002b + d.toNat * 2097152 + a.toNat * 65536 + b.toNat * 2048 + m.toNat * 1024 + n.toNat * 512 + f.toNat * 16
  | .fsgnXor d a b m n f => 0x5400004b + d.toNat * 2097152 + a.toNat * 65536 + b.toNat * 2048 + m.toNat * 1024 + n.toNat * 512 + f.toNat * 16
  | .fcvt d a c m r f => 0x5400000c + d.toNat * 2097152 + a.toNat * 65536 + c.toNat * 2048 + m.toNat * 1024 + r.toNat * 32 + f.toNat * 16
  | .fma d a b m n r f => 0x58000000 + d.toNat * 2097152 + a.toNat * 65536 + b.toNat * 2048 + m.toNat * 1024 + n.toNat * 512 + r.toNat * 32 + f.toNat * 16
  | .fms d a b m n r f => 0x58000001 + d.toNat * 2097152 + a.toNat * 65536 + b.toNat * 2048 + m.toNat * 1024 + n.toNat * 512 + r.toNat * 32 + f.toNat * 16
  | .fnma d a b m n r f => 0x58000002 + d.toNat * 2097152 + a.toNat * 65536 + b.toNat * 2048 + m.toNat * 1024 + n.toNat * 512 + r.toNat * 32 + f.toNat * 16
  | .fnms d a b m n r f => 0x58000003 + d.toNat * 2097152 + a.toNat * 65536 + b.toNat * 2048 + m.toNat * 1024 + n.toNat * 512 + r.toNat * 32 + f.toNat * 16
  | .ld t b m z c o => 0x60000000 + t.toNat * 2097152 + b.toNat * 65536 + m.toNat * 32768 + z.toNat * 8192 + c.toNat * 1024 + o.toNat
  | .ldz t b m z c o => 0x64000000 + t.toNat * 2097152 + b.toNat * 65536 + m.toNat * 32768 + z.toNat * 8192 + c.toNat * 1024 + o.toNat
  | .st t b m z c o => 0x68000000 + t.toNat * 2097152 + b.toNat * 65536 + m.toNat * 32768 + z.toNat * 8192 + c.toNat * 1024 + o.toNat
  | .ldt t b m c o => 0x6c006000 + t.toNat * 2097152 + b.toNat * 65536 + m.toNat * 32768 + c.toNat * 1024 + o.toNat
  | .ldw t b m c o => 0x70006000 + t.toNat * 2097152 + b.toNat * 65536 + m.toNat * 32768 + c.toNat * 1024 + o.toNat
  | .ste t b m c o => 0x74006000 + t.toNat * 2097152 + b.toNat * 65536 + m.toNat * 32768 + c.toNat * 1024 + o.toNat
  | .stf t b m c o => 0x78006000 + t.toNat * 2097152 + b.toNat * 65536 + m.toNat * 32768 + c.toNat * 1024 + o.toNat
  | .gtoa d a w m => 0x7c000000 + d.toNat * 2097152 + a.toNat * 65536 + w.toNat * 2048 + m.toNat * 1024
  | .atog d a w m => 0x7c000001 + d.toNat * 2097152 + a.toNat * 65536 + w.toNat * 2048 + m.toNat * 1024
  | .apq d a m => 0x7c000002 + d.toNat * 2097152 + a.toNat * 65536 + m.toNat * 1024
  | .plq d a m => 0x7c000003 + d.toNat * 2097152 + a.toNat * 65536 + m.toNat * 1024
  | .plqCur d a m => 0x7c000803 + d.toNat * 2097152 + a.toNat * 65536 + m.toNat * 1024
  | .psjInsp d a s m => 0x7c000004 + d.toNat * 2097152 + a.toNat * 65536 + s.toNat * 2048 + m.toNat * 1024
  | .psjRepost d a m => 0x7c000005 + d.toNat * 2097152 + a.toNat * 65536 + m.toNat * 1024
  | .psjDiscard d a m => 0x7c000006 + d.toNat * 2097152 + a.toNat * 65536 + m.toNat * 1024
  | .psd => 0x7c000007
  | .vld v b m c o => 0x80006000 + v.toNat * 2097152 + b.toNat * 65536 + m.toNat * 32768 + c.toNat * 1024 + o.toNat
  | .vst v b m c o => 0x84006000 + v.toNat * 2097152 + b.toNat * 65536 + m.toNat * 32768 + c.toNat * 1024 + o.toNat
  | .vgx v a x p t s => 0x88000000 + v.toNat * 2097152 + a.toNat * 65536 + x.toNat * 2048 + p.toNat * 256 + t.toNat * 32 + s.toNat
  | .vsx v a x p t s => 0x8c000000 + v.toNat * 2097152 + a.toNat * 65536 + x.toNat * 2048 + p.toNat * 256 + t.toNat * 32 + s.toNat
  | .vadd d a b p t => 0x90000000 + d.toNat * 2097152 + a.toNat * 65536 + b.toNat * 2048 + p.toNat * 256 + t.toNat * 32
  | .vsub d a b p t => 0x90000001 + d.toNat * 2097152 + a.toNat * 65536 + b.toNat * 2048 + p.toNat * 256 + t.toNat * 32
  | .vmul d a b p t => 0x90000002 + d.toNat * 2097152 + a.toNat * 65536 + b.toNat * 2048 + p.toNat * 256 + t.toNat * 32
  | .vdiv d a b p t => 0x90000003 + d.toNat * 2097152 + a.toNat * 65536 + b.toNat * 2048 + p.toNat * 256 + t.toNat * 32
  | .vsqrt d a p t => 0x90000004 + d.toNat * 2097152 + a.toNat * 65536 + p.toNat * 256 + t.toNat * 32
  | .vmin d a b p t => 0x90000005 + d.toNat * 2097152 + a.toNat * 65536 + b.toNat * 2048 + p.toNat * 256 + t.toNat * 32
  | .vmax d a b p t => 0x90000006 + d.toNat * 2097152 + a.toNat * 65536 + b.toNat * 2048 + p.toNat * 256 + t.toNat * 32
  | .vabs d a p t => 0x90000007 + d.toNat * 2097152 + a.toNat * 65536 + p.toNat * 256 + t.toNat * 32
  | .vneg d a p t => 0x90000008 + d.toNat * 2097152 + a.toNat * 65536 + p.toNat * 256 + t.toNat * 32
  | .vand d a b p t => 0x90000009 + d.toNat * 2097152 + a.toNat * 65536 + b.toNat * 2048 + p.toNat * 256 + t.toNat * 32
  | .vor d a b p t => 0x9000000a + d.toNat * 2097152 + a.toNat * 65536 + b.toNat * 2048 + p.toNat * 256 + t.toNat * 32
  | .vxor d a b p t => 0x9000000b + d.toNat * 2097152 + a.toNat * 65536 + b.toNat * 2048 + p.toNat * 256 + t.toNat * 32
  | .vshl d a b p t => 0x9000000c + d.toNat * 2097152 + a.toNat * 65536 + b.toNat * 2048 + p.toNat * 256 + t.toNat * 32
  | .vshr d a b p t => 0x9000000d + d.toNat * 2097152 + a.toNat * 65536 + b.toNat * 2048 + p.toNat * 256 + t.toNat * 32
  | .vcmp c q a b p t => 0x9000000e + c.toNat * 16777216 + q.toNat * 2097152 + a.toNat * 65536 + b.toNat * 2048 + p.toNat * 256 + t.toNat * 32
  | .vsel d a b p t => 0x9000000f + d.toNat * 2097152 + a.toNat * 65536 + b.toNat * 2048 + p.toNat * 256 + t.toNat * 32
  | .vmov d a p t => 0x90000010 + d.toNat * 2097152 + a.toNat * 65536 + p.toNat * 256 + t.toNat * 32
  | .vbc d a p t => 0x90000011 + d.toNat * 2097152 + a.toNat * 65536 + p.toNat * 256 + t.toNat * 32
  | .vex d a b t => 0x90000012 + d.toNat * 2097152 + a.toNat * 65536 + b.toNat * 2048 + t.toNat * 32
  | .vins d a b t => 0x90000013 + d.toNat * 2097152 + a.toNat * 65536 + b.toNat * 2048 + t.toNat * 32
  | .viota d p t => 0x90000014 + d.toNat * 2097152 + p.toNat * 256 + t.toNat * 32
  | .vperm d a b p t => 0x90000015 + d.toNat * 2097152 + a.toNat * 65536 + b.toNat * 2048 + p.toNat * 256 + t.toNat * 32
  | .vred d a o p t => 0x90000016 + d.toNat * 2097152 + a.toNat * 65536 + o.toNat * 2048 + p.toNat * 256 + t.toNat * 32
  | .vscn d a o p t => 0x90000017 + d.toNat * 2097152 + a.toNat * 65536 + o.toNat * 2048 + p.toNat * 256 + t.toNat * 32
  | .vcvt d a c r t => 0x90000018 + d.toNat * 2097152 + a.toNat * 65536 + c.toNat * 2048 + r.toNat * 256 + t.toNat * 32
  | .vminN d a b p t => 0x90000019 + d.toNat * 2097152 + a.toNat * 65536 + b.toNat * 2048 + p.toNat * 256 + t.toNat * 32
  | .vmaxN d a b p t => 0x9000001a + d.toNat * 2097152 + a.toNat * 65536 + b.toNat * 2048 + p.toNat * 256 + t.toNat * 32
  | .vcmpN c q a b p t => 0x9000001b + c.toNat * 16777216 + q.toNat * 2097152 + a.toNat * 65536 + b.toNat * 2048 + p.toNat * 256 + t.toNat * 32
  | .vshrN d a b p t => 0x9000001c + d.toNat * 2097152 + a.toNat * 65536 + b.toNat * 2048 + p.toNat * 256 + t.toNat * 32
  | .vfma d a b p t r => 0x94000000 + d.toNat * 2097152 + a.toNat * 65536 + b.toNat * 2048 + p.toNat * 256 + t.toNat * 32 + r.toNat * 4
  | .vfms d a b p t r => 0x94000001 + d.toNat * 2097152 + a.toNat * 65536 + b.toNat * 2048 + p.toNat * 256 + t.toNat * 32 + r.toNat * 4
  | .vfnma d a b p t r => 0x94000002 + d.toNat * 2097152 + a.toNat * 65536 + b.toNat * 2048 + p.toNat * 256 + t.toNat * 32 + r.toNat * 4
  | .vfnms d a b p t r => 0x94000003 + d.toNat * 2097152 + a.toNat * 65536 + b.toNat * 2048 + p.toNat * 256 + t.toNat * 32 + r.toNat * 4
  | .xclr => 0x98000000
  | .xmac2 a b p t => 0x98000001 + a.toNat * 65536 + b.toNat * 2048 + p.toNat * 256 + t.toNat * 32
  | .xmac3 c a b p t => 0x98000002 + c.toNat * 2097152 + a.toNat * 65536 + b.toNat * 2048 + p.toNat * 256 + t.toNat * 32
  | .xadd a p t => 0x98000003 + a.toNat * 65536 + p.toNat * 256 + t.toNat * 32
  | .xsgn d => 0x98000004 + d.toNat * 2097152
  | .xrnd d r => 0x98000005 + d.toNat * 2097152 + r.toNat * 2048
  | .xspl a => 0x98000006 + a.toNat * 65536
  | .xfil a => 0x98000007 + a.toNat * 65536
  | .amoAdd d a b m n f c z => 0xa0000000 + d.toNat * 2097152 + a.toNat * 65536 + b.toNat * 2048 + m.toNat * 1024 + n.toNat * 512 + f.toNat * 256 + c.toNat * 32 + z.toNat * 16
  | .amoAnd d a b m n f c z => 0xa0000001 + d.toNat * 2097152 + a.toNat * 65536 + b.toNat * 2048 + m.toNat * 1024 + n.toNat * 512 + f.toNat * 256 + c.toNat * 32 + z.toNat * 16
  | .amoOr d a b m n f c z => 0xa0000002 + d.toNat * 2097152 + a.toNat * 65536 + b.toNat * 2048 + m.toNat * 1024 + n.toNat * 512 + f.toNat * 256 + c.toNat * 32 + z.toNat * 16
  | .amoXor d a b m n f c z => 0xa0000003 + d.toNat * 2097152 + a.toNat * 65536 + b.toNat * 2048 + m.toNat * 1024 + n.toNat * 512 + f.toNat * 256 + c.toNat * 32 + z.toNat * 16
  | .amoMin d a b m n f c z => 0xa0000004 + d.toNat * 2097152 + a.toNat * 65536 + b.toNat * 2048 + m.toNat * 1024 + n.toNat * 512 + f.toNat * 256 + c.toNat * 32 + z.toNat * 16
  | .amoMax d a b m n f c z => 0xa0000005 + d.toNat * 2097152 + a.toNat * 65536 + b.toNat * 2048 + m.toNat * 1024 + n.toNat * 512 + f.toNat * 256 + c.toNat * 32 + z.toNat * 16
  | .amoMinn d a b m n f c z => 0xa0000006 + d.toNat * 2097152 + a.toNat * 65536 + b.toNat * 2048 + m.toNat * 1024 + n.toNat * 512 + f.toNat * 256 + c.toNat * 32 + z.toNat * 16
  | .amoMaxn d a b m n f c z => 0xa0000007 + d.toNat * 2097152 + a.toNat * 65536 + b.toNat * 2048 + m.toNat * 1024 + n.toNat * 512 + f.toNat * 256 + c.toNat * 32 + z.toNat * 16
  | .amoSwp d a b m n f c z => 0xa0000008 + d.toNat * 2097152 + a.toNat * 65536 + b.toNat * 2048 + m.toNat * 1024 + n.toNat * 512 + f.toNat * 256 + c.toNat * 32 + z.toNat * 16
  | .amoFadds d a b m n f c => 0xa0000009 + d.toNat * 2097152 + a.toNat * 65536 + b.toNat * 2048 + m.toNat * 1024 + n.toNat * 512 + f.toNat * 256 + c.toNat * 32
  | .amoFaddd d a b m n f c => 0xa000001a + d.toNat * 2097152 + a.toNat * 65536 + b.toNat * 2048 + m.toNat * 1024 + n.toNat * 512 + f.toNat * 256 + c.toNat * 32
  | .cas d a b m n f c z => 0xa4000000 + d.toNat * 2097152 + a.toNat * 65536 + b.toNat * 2048 + m.toNat * 1024 + n.toNat * 512 + f.toNat * 32 + c.toNat * 4 + z.toNat
  | .rsv d a m c z => 0xa8000000 + d.toNat * 2097152 + a.toNat * 65536 + m.toNat * 1024 + c.toNat * 2 + z.toNat
  | .scn d a b m n c z => 0xac000000 + d.toNat * 2097152 + a.toNat * 65536 + b.toNat * 2048 + m.toNat * 1024 + n.toNat * 512 + c.toNat * 2 + z.toNat
  | .wrs d a m i => 0xb0000000 + d.toNat * 2097152 + a.toNat * 65536 + m.toNat * 32768 + i.toNat
  | .redAdd a b m n c z => 0xb4000000 + a.toNat * 65536 + b.toNat * 2048 + m.toNat * 1024 + n.toNat * 512 + c.toNat * 32 + z.toNat * 16
  | .redAnd a b m n c z => 0xb4000001 + a.toNat * 65536 + b.toNat * 2048 + m.toNat * 1024 + n.toNat * 512 + c.toNat * 32 + z.toNat * 16
  | .redOr a b m n c z => 0xb4000002 + a.toNat * 65536 + b.toNat * 2048 + m.toNat * 1024 + n.toNat * 512 + c.toNat * 32 + z.toNat * 16
  | .redXor a b m n c z => 0xb4000003 + a.toNat * 65536 + b.toNat * 2048 + m.toNat * 1024 + n.toNat * 512 + c.toNat * 32 + z.toNat * 16
  | .redMin a b m n c z => 0xb4000004 + a.toNat * 65536 + b.toNat * 2048 + m.toNat * 1024 + n.toNat * 512 + c.toNat * 32 + z.toNat * 16
  | .redMax a b m n c z => 0xb4000005 + a.toNat * 65536 + b.toNat * 2048 + m.toNat * 1024 + n.toNat * 512 + c.toNat * 32 + z.toNat * 16
  | .redMinn a b m n c z => 0xb4000006 + a.toNat * 65536 + b.toNat * 2048 + m.toNat * 1024 + n.toNat * 512 + c.toNat * 32 + z.toNat * 16
  | .redMaxn a b m n c z => 0xb4000007 + a.toNat * 65536 + b.toNat * 2048 + m.toNat * 1024 + n.toNat * 512 + c.toNat * 32 + z.toNat * 16
  | .redFadds a b m n c => 0xb4000009 + a.toNat * 65536 + b.toNat * 2048 + m.toNat * 1024 + n.toNat * 512 + c.toNat * 32
  | .redFaddd a b m n c => 0xb400001a + a.toNat * 65536 + b.toNat * 2048 + m.toNat * 1024 + n.toNat * 512 + c.toNat * 32
  | .fncAcq x c => 0xb8000000 + x.toNat * 32 + c.toNat * 4
  | .fncRel x c => 0xb8000001 + x.toNat * 32 + c.toNat * 4
  | .fncFull x c => 0xb8000002 + x.toNat * 32 + c.toNat * 4
  | .migr a m => 0xbc000000 + a.toNat * 65536 + m.toNat * 1024
  | .mhom => 0xbc000001
  | .breg d a m => 0xbc000002 + d.toNat * 2097152 + a.toNat * 65536 + m.toNat * 1024
  | .bdrg d a m => 0xbc000003 + d.toNat * 2097152 + a.toNat * 65536 + m.toNat * 1024
  | .barv d a m => 0xbc000004 + d.toNat * 2097152 + a.toNat * 65536 + m.toNat * 1024
  | .barw d a b m n => 0xbc000005 + d.toNat * 2097152 + a.toNat * 65536 + b.toNat * 2048 + m.toNat * 1024 + n.toNat * 512
  | .semp d a b m n => 0xbc000006 + d.toNat * 2097152 + a.toNat * 65536 + b.toNat * 2048 + m.toNat * 1024 + n.toNat * 512
  | .semw d a b m n => 0xbc000007 + d.toNat * 2097152 + a.toNat * 65536 + b.toNat * 2048 + m.toNat * 1024 + n.toNat * 512
  | .send d a b m n => 0xbc000008 + d.toNat * 2097152 + a.toNat * 65536 + b.toNat * 2048 + m.toNat * 1024 + n.toNat * 512
  | .recv d a b m n => 0xbc000009 + d.toNat * 2097152 + a.toNat * 65536 + b.toNat * 2048 + m.toNat * 1024 + n.toNat * 512
  | .qwt a b m n => 0xbc00000a + a.toNat * 65536 + b.toNat * 2048 + m.toNat * 1024 + n.toNat * 512
  | .qcfg d a m => 0xbc00000b + d.toNat * 2097152 + a.toNat * 65536 + m.toNat * 1024
  | .nnew d a b m n f => 0xc0000000 + d.toNat * 2097152 + a.toNat * 65536 + b.toNat * 2048 + m.toNat * 1024 + n.toNat * 512 + f.toNat * 256
  | .nres d a s m => 0xc0000001 + d.toNat * 2097152 + a.toNat * 65536 + s.toNat * 2048 + m.toNat * 1024
  | .nrst d a s m => 0xc0000002 + d.toNat * 2097152 + a.toNat * 65536 + s.toNat * 2048 + m.toNat * 1024
  | .ncas d a b m n => 0xc0000003 + d.toNat * 2097152 + a.toNat * 65536 + b.toNat * 2048 + m.toNat * 1024 + n.toNat * 512
  | .nkil d a m => 0xc0000004 + d.toNat * 2097152 + a.toNat * 65536 + m.toNat * 1024
  | .nqry d a s m => 0xc0000005 + d.toNat * 2097152 + a.toNat * 65536 + s.toNat * 2048 + m.toNat * 1024
  | .nshd d a m => 0xc0000006 + d.toNat * 2097152 + a.toNat * 65536 + m.toNat * 1024
  | .nslf d => 0xc0000007 + d.toNat * 2097152
  | .gnew d a b m n => 0xc4000000 + d.toNat * 2097152 + a.toNat * 65536 + b.toNat * 2048 + m.toNat * 1024 + n.toNat * 512
  | .glen d a m => 0xc4000001 + d.toNat * 2097152 + a.toNat * 65536 + m.toNat * 1024
  | .gev d a b m n l => 0xc4000002 + d.toNat * 2097152 + a.toNat * 65536 + b.toNat * 2048 + m.toNat * 1024 + n.toNat * 512 + l.toNat * 16
  | .gcmb d a b l => 0xc4000003 + d.toNat * 2097152 + a.toNat * 65536 + b.toNat * 2048 + l.toNat * 16
  | .gofs d a b m n l => 0xc4000004 + d.toNat * 2097152 + a.toNat * 65536 + b.toNat * 2048 + m.toNat * 1024 + n.toNat * 512 + l.toNat * 16
  | .gidx d a b m n => 0xc4000005 + d.toNat * 2097152 + a.toNat * 65536 + b.toNat * 2048 + m.toNat * 1024 + n.toNat * 512
  | .gpfx d a b m n => 0xc4000006 + d.toNat * 2097152 + a.toNat * 65536 + b.toNat * 2048 + m.toNat * 1024 + n.toNat * 512
  | .gscn d a b m n => 0xc4000007 + d.toNat * 2097152 + a.toNat * 65536 + b.toNat * 2048 + m.toNat * 1024 + n.toNat * 512
  | .gmv d a b m n => 0xc4000008 + d.toNat * 2097152 + a.toNat * 65536 + b.toNat * 2048 + m.toNat * 1024 + n.toNat * 512
  | .grtiAll d => 0xc4000009 + d.toNat * 2097152
  | .grtiRule d a m => 0xc4000809 + d.toNat * 2097152 + a.toNat * 65536 + m.toNat * 1024
  | .grtiObj d a m => 0xc4001009 + d.toNat * 2097152 + a.toNat * 65536 + m.toNat * 1024
  | .grtq d s => 0xc400000a + d.toNat * 2097152 + s.toNat * 2048
  | .grtqClear d s => 0xc400400a + d.toNat * 2097152 + s.toNat * 2048
  | .spwn d a b m n => 0xc8000000 + d.toNat * 2097152 + a.toNat * 65536 + b.toNat * 2048 + m.toNat * 1024 + n.toNat * 512
  | .reap d a m => 0xc8000001 + d.toNat * 2097152 + a.toNat * 65536 + m.toNat * 1024
  | .slst d a m => 0xc8000002 + d.toNat * 2097152 + a.toNat * 65536 + m.toNat * 1024
  | .lnch d a m => 0xc8000003 + d.toNat * 2097152 + a.toNat * 65536 + m.toNat * 1024
  | .lwt d a b m n => 0xc8000004 + d.toNat * 2097152 + a.toNat * 65536 + b.toNat * 2048 + m.toNat * 1024 + n.toNat * 512
  | .wdq a m => 0xc8000005 + a.toNat * 65536 + m.toNat * 1024
  | .amsg d a b m n => 0xc8000006 + d.toNat * 2097152 + a.toNat * 65536 + b.toNat * 2048 + m.toNat * 1024 + n.toNat * 512
  | .tbnd d => 0xc8000007 + d.toNat * 2097152
  | .encl d a m => 0xc8000008 + d.toNat * 2097152 + a.toNat * 65536 + m.toNat * 1024
  | .mxl a m t => 0xd0000000 + a.toNat * 2097152 + m.toNat * 32768 + t.toNat
  | .mxu t => 0xd0000100 + t.toNat
  | .mxw t => 0xd0000200 + t.toNat
  | .mxs a m t => 0xd0000300 + a.toNat * 2097152 + m.toNat * 32768 + t.toNat
  | .mxb t => 0xd0000400 + t.toNat
  | .mxp a b m n t => 0xd0000500 + a.toNat * 2097152 + b.toNat * 65536 + m.toNat * 32768 + n.toNat * 16384 + t.toNat
  | .mxc a b m n t => 0xd0000600 + a.toNat * 2097152 + b.toNat * 65536 + m.toNat * 32768 + n.toNat * 16384 + t.toNat
  | .mxwb a m t => 0xd0000700 + a.toNat * 2097152 + m.toNat * 32768 + t.toNat
  | .mxrd a m t => 0xd0000800 + a.toNat * 2097152 + m.toNat * 32768 + t.toNat
  | .mxz a m t => 0xd0000900 + a.toNat * 2097152 + m.toNat * 32768 + t.toNat
  | .cpy a b m n t => 0xd4000000 + a.toNat * 2097152 + b.toNat * 65536 + m.toNat * 32768 + n.toNat * 16384 + t.toNat
  | .cpr a b m n t => 0xd4000100 + a.toNat * 2097152 + b.toNat * 65536 + m.toNat * 32768 + n.toNat * 16384 + t.toNat
  | .cpz a b m n t => 0xd4000200 + a.toNat * 2097152 + b.toNat * 65536 + m.toNat * 32768 + n.toNat * 16384 + t.toNat
  | .cps a b m n t => 0xd4000300 + a.toNat * 2097152 + b.toNat * 65536 + m.toNat * 32768 + n.toNat * 16384 + t.toNat
  | .cpcCompress a b m n t => 0xd4000400 + a.toNat * 2097152 + b.toNat * 65536 + m.toNat * 32768 + n.toNat * 16384 + t.toNat
  | .cpcExpand a b m n t => 0xd4000400 + a.toNat * 2097152 + b.toNat * 65536 + m.toNat * 32768 + n.toNat * 16384 + t.toNat
  | .gexp a b m n t => 0xd4000500 + a.toNat * 2097152 + b.toNat * 65536 + m.toNat * 32768 + n.toNat * 16384 + t.toNat
  | .cvt a b m n t => 0xd8000000 + a.toNat * 2097152 + b.toNat * 65536 + m.toNat * 32768 + n.toNat * 16384 + t.toNat
  | .cvpAct a b m n t => 0xd8000100 + a.toNat * 2097152 + b.toNat * 65536 + m.toNat * 32768 + n.toNat * 16384 + t.toNat
  | .cvpWcol a b m n t => 0xd8000100 + a.toNat * 2097152 + b.toNat * 65536 + m.toNat * 32768 + n.toNat * 16384 + t.toNat
  | .cvq a b m n t => 0xd8000200 + a.toNat * 2097152 + b.toNat * 65536 + m.toNat * 32768 + n.toNat * 16384 + t.toNat
  | .engw a m e r => 0xdc000000 + a.toNat * 65536 + m.toNat * 1024 + e.toNat * 64 + r.toNat
  | .engr d e r => 0xdc000100 + d.toNat * 2097152 + e.toNat * 64 + r.toNat
  | .engrBdat d a m => 0xdc0001d8 + d.toNat * 2097152 + a.toNat * 65536 + m.toNat * 1024
  | .prmt d a b m n => 0xe0000000 + d.toNat * 2097152 + a.toNat * 65536 + b.toNat * 2048 + m.toNat * 1024 + n.toNat * 512
  | .prmtRow d a b m n => 0xe0000000 + d.toNat * 2097152 + a.toNat * 65536 + b.toNat * 2048 + m.toNat * 1024 + n.toNat * 512
  | .hgrp d a b m n => 0xe0000001 + d.toNat * 2097152 + a.toNat * 65536 + b.toNat * 2048 + m.toNat * 1024 + n.toNat * 512
  | .halt d a m => 0xe0000002 + d.toNat * 2097152 + a.toNat * 65536 + m.toNat * 1024
  | .resm d a b m n => 0xe0000003 + d.toNat * 2097152 + a.toNat * 65536 + b.toNat * 2048 + m.toNat * 1024 + n.toNat * 512
  | .tccfIn d a b m n => 0xe0000004 + d.toNat * 2097152 + a.toNat * 65536 + b.toNat * 2048 + m.toNat * 1024 + n.toNat * 512
  | .lrtb d a b m n => 0xe0000005 + d.toNat * 2097152 + a.toNat * 65536 + b.toNat * 2048 + m.toNat * 1024 + n.toNat * 512
  | .regionTableWrite | .mflgWrite | .merrWrite | .resmStep | .tccfLazy | .tccfLend | .tccfOut | .producerValueArrival
  | .uniPostArrival | .loadFaultArrival | .journalAck | .journalRefusal | .memoryRequestAtTarget
  | .nonresidentRequestPerformed | .atomicAtHome | .remoteUpdate | .heldStorePerform | .compChunkAccess
  | .placementTlbShootdown | .reservationHoldExpiry | .hostCompletionTimeout | .contextMigrationArrival
  | .contextReturn | .messagePlacement | .overflowReturn | .postedMessagePlacement | .inboxFull | .queueAppend
  | .queueDequeue | .userInterrupt | .barrierUnitArrival | .barrierRelease | .waitExpired | .queueExpired | .mintIssue
  | .mintBlockRecord | .nameTableOperation | .shootdownArrival | .shootdownAcknowledge | .shootdownAckAtEntry
  | .grammarWalk | .arrayWeightLoad | .arrayStream | .arrayBatchedStream | .arrayBankPrepare | .arrayBankReadout
  | .batchCompletion | .leaseRunEnd | .copyRun | .fillRun | .scrubRun | .restripeRun | .compressRun | .expandRun
  | .grammarExpandRun | .convertRun | .quantiseRun | .planeLayoutRun | .engineCompletion | .launchAccept
  | .launchSelection | .taskAging | .rowLoadDone | .rowFree | .costartStart | .costartDeadline | .launchComplete
  | .distributorQuery | .preemptDeadline | .checkpointStreamWrite | .wakeMessage | .haltTriggerArrival
  | .hwBreakpointMatch | .jtagHalt | .stepEnd | .stewardStartPort | .threadEndPort | .unfreezePort
  | .violationRecordFree | .wakePort | .faultQueuePop | .pageRequestPop | .queueOvfClear | .ctrlWrite
  | .controlRegisterWrite | .hostActiveMessagePort | .hostLaunchPort | .hostAcknowledgePort | .hostWindowAccess
  | .hostAtomicop | .peerRequest | .cxlLinkDown | .retrainRequest | .retrainEnd | .powerWindow | .powerGood | .reset
  | .badPageAppend | .spdmRequest | .illegalOpcode | .instructionStoreRefill | .placementTlbWalk | .cxlLinkUp
  | .softError => 0

/-- R40 to R47: the word of an instruction. -/
def encode (i : Instr) : Word := BitVec.ofNat 32 (encodeNat i)

end Sys2Proof
end

