-- ==== Sys2Proof/Machine/Flags.lean ====
section
/-! DEFINITION. Number formats, exact arithmetic and the exception flags (chapter 03, R57 to R73). A finite value is
(-1)^s * m * 2^e; every operation forms its exact result and rounds it once. -/
namespace Sys2Proof.Fp

/-- R58: a format: exponent bits, fraction bits, bias, and how its top codes are used. -/
inductive Kind where | ieee | e4m3 | e2m1
deriving DecidableEq, Repr
structure Fmt where
  ew : Nat
  mw : Nat
  bias : Nat
  kind : Kind
deriving DecidableEq, Repr

def f64 : Fmt := ⟨11, 52, 1023, .ieee⟩
def f32 : Fmt := ⟨8, 23, 127, .ieee⟩
def f16 : Fmt := ⟨5, 10, 15, .ieee⟩
def bf16 : Fmt := ⟨8, 7, 127, .ieee⟩
def e4m3 : Fmt := ⟨4, 3, 7, .e4m3⟩
def e5m2 : Fmt := ⟨5, 2, 15, .ieee⟩
def e2m1 : Fmt := ⟨2, 1, 1, .e2m1⟩

/-- Bits of a code. -/
def Fmt.width (f : Fmt) : Nat := 1 + f.ew + f.mw
/-- The smallest normal exponent. -/
def Fmt.emin (f : Fmt) : Int := 1 - (f.bias : Int)
/-- R58: the largest finite value as integer significand and its exponent. -/
def Fmt.maxSig (f : Fmt) : Nat := match f.kind with | .e4m3 => 14 | _ => 2 ^ (f.mw + 1) - 1
def Fmt.maxExp (f : Fmt) : Int := match f.kind with
  | .ieee => (f.bias : Int) - f.mw
  | .e4m3 => 8 - 3
  | .e2m1 => 2 - 1
/-- R59: the canonical NaN (E2M1 has none; +0 stands there). -/
def Fmt.nan (f : Fmt) : Nat := match f.kind with
  | .ieee => (2 ^ f.ew - 1) * 2 ^ f.mw + 2 ^ (f.mw - 1)
  | .e4m3 => 0x7F
  | .e2m1 => 0

/-- The value a code stands for. -/
inductive Val where
  | nan (signalling : Bool)
  | inf (neg : Bool)
  | fin (neg : Bool) (m : Nat) (e : Int)
deriving DecidableEq, Repr

/-- R57 to R60: the value of a code. -/
def Fmt.decode (f : Fmt) (c : Nat) : Val :=
  let s := c / 2 ^ (f.ew + f.mw) % 2 == 1
  let e := c / 2 ^ f.mw % 2 ^ f.ew
  let m := c % 2 ^ f.mw
  let sub := Val.fin s m (f.emin - f.mw)
  let nor := Val.fin s (2 ^ f.mw + m) ((e : Int) - f.bias - f.mw)
  match f.kind with
  | .ieee => if e = 2 ^ f.ew - 1 then (if m = 0 then .inf s else .nan (m / 2 ^ (f.mw - 1) = 0)) else if e = 0 then sub else nor
  | .e4m3 => if e = 15 ∧ m = 7 then .nan false else if e = 0 then sub else nor
  | .e2m1 => if e = 0 then sub else nor

/-- R46: the rounding modes. -/
inductive Mode where | rne | rtz | rdn | rup | rna | sr
deriving DecidableEq, Repr

/-- The flags of FPM, bits 12..8 there, 4..0 here: NX UF OF DZ NV (R68). -/
abbrev Flags := BitVec 5
def NV : Flags := 1
def DZ : Flags := 2
def OF : Flags := 4
def UF : Flags := 8
def NX : Flags := 16

/-- The sign bit of a code. -/
def Fmt.sgn (f : Fmt) (s : Bool) : Nat := if s then 2 ^ (f.ew + f.mw) else 0
/-- The code of the largest finite value and of an infinity. -/
def Fmt.maxCode (f : Fmt) (s : Bool) : Nat := f.sgn s + match f.kind with
  | .ieee => (2 ^ f.ew - 1) * 2 ^ f.mw - 1
  | .e4m3 => 0x7E
  | .e2m1 => 7
def Fmt.infCode (f : Fmt) (s : Bool) : Nat := f.sgn s + (2 ^ f.ew - 1) * 2 ^ f.mw

/-- R63: an infinite result delivered in a format: E4M3 gives its NaN and E2M1 its largest value, both with NV. -/
def Fmt.inf (f : Fmt) (s : Bool) : Nat × Flags := match f.kind with
  | .ieee => (f.infCode s, 0)
  | .e4m3 => (0x7F, NV)
  | .e2m1 => (f.maxCode s, NV)

/-- n * 2^k for a possibly negative k, dropping bits below. -/
def shl (n : Nat) (k : Int) : Nat := if k < 0 then n / 2 ^ k.natAbs else n * 2 ^ k.natAbs

/-- R62, R65: whether the candidate away from zero is taken. The fraction is rem / 2^sh, plus something small if `st`. -/
def roundUp (mode : Mode) (s : Bool) (u : Nat) (lo rem sh : Nat) (st : Bool) : Bool :=
  let half := 2 ^ sh
  if rem = 0 ∧ st = false then false else
  match mode with
  | .rtz => false
  | .rdn => s
  | .rup => !s
  | .rne => 2 * rem > half || (2 * rem = half && (st || lo % 2 = 1))
  | .rna => 2 * rem ≥ half
  | .sr => u < rem * 2 ^ 32 / half

/-- The integer significand of n * 2^e (plus something small if `st`) on the grid of spacing 2^q, and inexactness. -/
def toGrid (mode : Mode) (s : Bool) (u n : Nat) (e q : Int) (st : Bool) : Nat × Bool :=
  if q ≤ e then (shl n (e - q), st)
  else
    let sh := (q - e).natAbs
    let lo := n / 2 ^ sh
    let rem := n % 2 ^ sh
    (if roundUp mode s u lo rem sh st then lo + 1 else lo, rem ≠ 0 || st)

/-- R62 to R65: round (-1)^s * (n * 2^e + small) once. `u` is the lane's random word under SR. The candidates of a result
below the normal range are those of the subnormal grid (log 21). -/
def Fmt.round (f : Fmt) (mode : Mode) (u : Nat) (s : Bool) (n : Nat) (e : Int) (st : Bool) : Nat × Flags :=
  if n = 0 ∧ st = false then (f.sgn s, 0) else
  let top : Int := e + (Nat.log2 n : Int)
  let q0 := top - f.mw
  let qmin := f.emin - f.mw
  let q := if q0 < qmin then qmin else q0
  let (m, ix) := toGrid mode s u n e q st
  -- tininess: the rounding with unbounded exponent lies below the smallest normal value
  let (m0, _) := toGrid mode s u n e q0 st
  let tiny := q0 < qmin && decide (shl m0 (q0 - qmin) < 2 ^ f.mw)
  -- a carry out of the significand moves to the next exponent
  let (m, q) := if m = 2 ^ (f.mw + 1) then (2 ^ f.mw, q + 1) else (m, q)
  let beyond := q > f.maxExp || (q = f.maxExp && decide (m > f.maxSig))
  if beyond then
    let away : Bool := match mode with
      | .rne | .rna => true
      | .rtz => false
      | .rdn => s
      | .rup => !s
      | .sr => !ix || decide (m > shl n (e - q))
    let r := if f.kind = .ieee ∧ away then f.infCode s else f.maxCode s
    (r, OF ||| NX)
  else
    let code := if m < 2 ^ f.mw then m else (q - qmin + 1).natAbs * 2 ^ f.mw + (m - 2 ^ f.mw)
    (f.sgn s + code, (if ix then NX else 0) ||| (if ix && tiny then UF else 0))

/-- A signed integer multiple of 2^e, rounded; an exact zero takes the sign `z` (R71). -/
def Fmt.roundInt (f : Fmt) (mode : Mode) (u : Nat) (z : Bool) (n : Int) (e : Int) : Nat × Flags :=
  if n = 0 then (f.sgn z, 0) else f.round mode u (n < 0) n.natAbs e false

/-- The canonical NaN of a format, with NV for E2M1 (R70). -/
def Fmt.nanR (f : Fmt) : Nat × Flags := (f.nan, if f.kind = .e2m1 then NV else 0)

def Val.isSNaN : Val → Bool
  | .nan s => s
  | _ => false
def Val.isNaN : Val → Bool
  | .nan _ => true
  | _ => false
def Val.neg : Val → Val
  | .nan s => .nan s
  | .inf s => .inf (!s)
  | .fin s m e => .fin (!s) m e
def Val.sign : Val → Bool
  | .nan _ => false
  | .inf s => s
  | .fin s _ _ => s
def Val.isZero : Val → Bool
  | .fin _ m _ => m = 0
  | _ => false
/-- The signed significand. -/
def sig (s : Bool) (m : Nat) : Int := if s then -(m : Int) else m

/-- The flags an operand's signalling NaN raises (R70). -/
def snv (l : List Val) : Flags := if l.any Val.isSNaN then NV else 0

/-- Scale a signed significand to a lower exponent. -/
def lift (n : Int) (e e' : Int) : Int := n * 2 ^ (e - e').natAbs

/-- R62, R71: a finite sum, exact, rounded once. -/
def addFin (f : Fmt) (mode : Mode) (u : Nat) (s1 : Bool) (m1 : Nat) (e1 : Int) (s2 : Bool) (m2 : Nat) (e2 : Int) : Nat × Flags :=
  let e := min e1 e2
  let n := lift (sig s1 m1) e1 e + lift (sig s2 m2) e2 e
  let z := if m1 = 0 ∧ m2 = 0 ∧ s1 = s2 then s1 else decide (mode = .rdn)
  f.roundInt mode u z n e

/-- a + b (R106). -/
def add (f : Fmt) (mode : Mode) (u : Nat) (x y : Val) : Nat × Flags :=
  match x, y with
  | .nan _, _ | _, .nan _ => (f.nan, snv [x, y])
  | .inf s, .inf t => if s = t then (f.infCode s, 0) else (f.nan, NV)
  | .inf s, .fin .. => (f.infCode s, 0)
  | .fin .., .inf t => (f.infCode t, 0)
  | .fin s1 m1 e1, .fin s2 m2 e2 => addFin f mode u s1 m1 e1 s2 m2 e2

/-- a * b + c with one rounding; with `c = none`, a * b (R106, R110). -/
def fma (f : Fmt) (mode : Mode) (u : Nat) (x y : Val) (c : Option Val) : Nat × Flags :=
  let ps := x.sign != y.sign
  let c' := c.getD (.fin ps 0 0)
  let nv := snv [x, y, c']
  match x, y with
  | .inf _, .fin _ 0 _ | .fin _ 0 _, .inf _ => (f.nan, NV)
  | .nan _, _ | _, .nan _ => (f.nan, nv)
  | .inf _, _ | _, .inf _ =>
    match c' with
    | .nan _ => (f.nan, nv)
    | .inf t => if t = ps then (f.infCode ps, 0) else (f.nan, NV)
    | .fin .. => (f.infCode ps, 0)
  | .fin _ m1 e1, .fin _ m2 e2 =>
    match c' with
    | .nan _ => (f.nan, nv)
    | .inf t => (f.infCode t, 0)
    | .fin s3 m3 e3 => if c.isNone then f.round mode u ps (m1 * m2) (e1 + e2) false
        else addFin f mode u ps (m1 * m2) (e1 + e2) s3 m3 e3

/-- a / b (R106). -/
def div (f : Fmt) (mode : Mode) (u : Nat) (x y : Val) : Nat × Flags :=
  let s := x.sign != y.sign
  match x, y with
  | .nan _, _ | _, .nan _ => (f.nan, snv [x, y])
  | .inf _, .inf _ => (f.nan, NV)
  | .inf _, .fin .. => (f.infCode s, 0)
  | .fin .., .inf _ => (f.sgn s, 0)
  | .fin _ m1 e1, .fin _ m2 e2 =>
    if m2 = 0 then (if m1 = 0 then (f.nan, NV) else (f.infCode s, DZ))
    else
      -- at least 36 bits more than the significand, so that F of R65 is exact
      let k := Nat.log2 m2 + f.mw + 40
      f.round mode u s (m1 * 2 ^ k / m2) (e1 - e2 - k) (m1 * 2 ^ k % m2 ≠ 0)

/-- The square root of a number, rounded down, by bits from 2^k. -/
def isqrtGo (n : Nat) : Nat → Nat → Nat
  | 0, r => r
  | k + 1, r => isqrtGo n k (if (r + 2 ^ k) * (r + 2 ^ k) ≤ n then r + 2 ^ k else r)
def isqrt (n : Nat) : Nat := isqrtGo n (Nat.log2 n / 2 + 1) 0

/-- The square root (R106, R70). -/
def sqrt (f : Fmt) (mode : Mode) (u : Nat) (x : Val) : Nat × Flags :=
  match x with
  | .nan s => (f.nan, if s then NV else 0)
  | .inf s => if s then (f.nan, NV) else (f.infCode false, 0)
  | .fin s m e =>
    if m = 0 then (f.sgn s, 0) else if s then (f.nan, NV)
    else
      let k := 2 * (f.mw + 40) + (e % 2).natAbs
      let n := m * 2 ^ k
      let r := isqrt n
      f.round mode u false r ((e - k) / 2) (r * r ≠ n)

/-- R71: compare two values that are not NaN: below, equal. -/
def ltFin (x y : Val) : Bool :=
  match x, y with
  | .inf s, .inf t => s && !t
  | .inf s, _ => s
  | _, .inf t => !t
  | .fin s1 m1 e1, .fin s2 m2 e2 => let e := min e1 e2; lift (sig s1 m1) e1 e < lift (sig s2 m2) e2 e
  | _, _ => false
def eqFin (x y : Val) : Bool := !x.isNaN && !y.isNaN && !ltFin x y && !ltFin y x

def feq (x y : Val) : Bool × Flags := (eqFin x y, snv [x, y])
def flt (x y : Val) : Bool × Flags := if x.isNaN || y.isNaN then (false, NV) else (ltFin x y, 0)
def fle (x y : Val) : Bool × Flags := if x.isNaN || y.isNaN then (false, NV) else (!ltFin y x, 0)

/-- R71: the smaller (`mx` false) or larger of two codes; -0 lies below +0. -/
def minmax (f : Fmt) (mx : Bool) (a b : Nat) : Nat × Flags :=
  let x := f.decode a
  let y := f.decode b
  let nv := snv [x, y]
  match x.isNaN, y.isNaN with
  | true, true => (f.nan, nv)
  | true, false => (b, nv)
  | false, true => (a, nv)
  | false, false =>
    let less := ltFin x y || (eqFin x y && x.sign && !y.sign)
    (if less != mx then a else b, nv)

/-- R107: the class bit of a code. -/
def fclass (f : Fmt) (c : Nat) : Nat :=
  match f.decode c with
  | .nan s => if s then 8 else 9
  | .inf s => if s then 0 else 7
  | .fin s m _ => if m = 0 then (if s then 3 else 4) else if m < 2 ^ f.mw then (if s then 2 else 5) else (if s then 1 else 6)

/-- R109, R123: a value delivered in a format: one rounding, NaN to the canonical NaN. -/
def convert (f : Fmt) (mode : Mode) (u : Nat) (x : Val) : Nat × Flags :=
  match x with
  | .nan s => (f.nan, (if s then NV else 0) ||| f.nanR.2)
  | .inf s => f.inf s
  | .fin s m e => f.round mode u s m e false

/-- R72: a value to an integer of `w` bits, signed or not. -/
def toIntR (w : Nat) (sgned : Bool) (mode : Mode) (u : Nat) (x : Val) : Int × Flags :=
  let lo : Int := if sgned then -(2 ^ (w - 1) : Int) else 0
  let hi : Int := if sgned then 2 ^ (w - 1) - 1 else 2 ^ w - 1
  match x with
  | .nan _ => (0, NV)
  | .inf s => (if s then lo else hi, NV)
  | .fin s m e =>
    let (n, ix) := toGrid mode s u m e 0 false
    let i := sig s n
    if i < lo then (lo, NV) else if hi < i then (hi, NV) else (i, if ix then NX else 0)

/-- R72: an integer to a format. -/
def ofInt (f : Fmt) (mode : Mode) (u : Nat) (i : Int) : Nat × Flags := f.roundInt mode u false i 0

/-- R73: x times an FP32 inverse scale, exact, rounded once. -/
def scaled (f : Fmt) (mode : Mode) (u : Nat) (x s : Val) : Nat × Flags :=
  let sg := x.sign != s.sign
  match x, s with
  | _, .nan t => (f.nan, (if t || x.isSNaN then NV else 0) ||| f.nanR.2)
  | .nan t, _ => (f.nan, (if t then NV else 0) ||| f.nanR.2)
  | .fin _ 0 _, .inf _ | .inf _, .fin _ 0 _ => (f.nan, NV)
  | .inf _, _ | _, .inf _ => f.inf sg
  | .fin _ m1 e1, .fin _ m2 e2 => f.round mode u sg (m1 * m2) (e1 + e2) false

/-- R66: the random word of a lane, from the thread name's halves and the counter. -/
def srWord (rnc tnl tnh : D) (lane : Nat) : Nat :=
  let z := (rnc ^^^ tnl) + BitVec.ofNat 64 (lane + 1) * 0xA24BAED4963EE407
  let z := (z ^^^ (z >>> 31)) * 0x9FB21C651E98DF25
  let z := z ^^^ tnh
  let z := (z ^^^ (z >>> 29)) * 0xC2B2AE3D27D4EB4F
  let z := z ^^^ (z >>> 32)
  z.toNat / 2 ^ 32

/-- R46, R68: the mode of a rounding field, DYN taking FPM.RM. -/
def modeOf (r : Nat) (fpm : D) : Mode :=
  match (if r = 0 then fpm.toNat % 8 else r) with
  | 2 => .rtz
  | 3 => .rdn
  | 4 => .rup
  | 5 => .rna
  | 6 => .sr
  | _ => .rne

end Sys2Proof.Fp
end

