-- ==== Sys2Proof/Machine/Table.lean ====
section
/-! DEFINITION. Tables keyed by a number, in one canonical form: keys strictly rising. Memory, and every table of records of
the machine, is one. -/
namespace Sys2Proof

/-- A list of keys and values, kept with its keys strictly rising. -/
abbrev Tbl (α : Type) := List (Nat × α)

/-- The value stored under `k`. -/
def Tbl.get? {α} : Tbl α → Nat → Option α
  | [], _ => none
  | (j, a) :: t, k => if k = j then some a else if k < j then none else Tbl.get? t k

/-- The value under `k`, or `d`. -/
def Tbl.getD {α} (t : Tbl α) (k : Nat) (d : α) : α := (t.get? k).getD d

/-- Store `v` under `k`. -/
def Tbl.set {α} : Tbl α → Nat → α → Tbl α
  | [], k, v => [(k, v)]
  | (j, a) :: t, k, v => if k < j then (k, v) :: (j, a) :: t else if k = j then (k, v) :: t else (j, a) :: Tbl.set t k v

/-- Remove the entry under `k`. -/
def Tbl.erase {α} : Tbl α → Nat → Tbl α
  | [], _ => []
  | (j, a) :: t, k => if k < j then (j, a) :: t else if k = j then t else (j, a) :: Tbl.erase t k

/-- Change the entry under `k`, an unlisted one counting as `d`. -/
def Tbl.upd {α} (t : Tbl α) (k : Nat) (d : α) (f : α → α) : Tbl α := t.set k (f (t.getD k d))

/-- The keys rise strictly from above `lo`. -/
def Tbl.above {α} (lo : Nat) : Tbl α → Bool
  | [] => true
  | (j, _) :: t => decide (lo < j) && Tbl.above j t

/-- The canonical form: keys strictly rising. -/
def Tbl.sorted {α} : Tbl α → Bool
  | [] => true
  | (j, _) :: t => Tbl.above j t

/-- The keys. -/
def Tbl.keys {α} (t : Tbl α) : List Nat := t.map Prod.fst

/-- The values. -/
def Tbl.vals {α} (t : Tbl α) : List α := t.map Prod.snd

end Sys2Proof
end

