-- ==== Sys2Proof/Machine/State.lean ====
section
/-! DEFINITION. The state of the package as plain data. A location is a core address in the layout of TST[46:32] (R33):
`unit * 256 + core * 4 + kind`, and a thread's location is 16 times that plus its slot, the layout of TST[46:28]. -/
namespace Sys2Proof.Machine

/-- R34: the full/empty state of a register. -/
inductive RSt where | full | empty | absent
deriving DecidableEq, Repr

/-- R36, R150: what stands behind an EMPTY register: nothing, a producer in flight, or a faulted load not yet taken. -/
inductive Prod where
  | none
  | pend (id : Nat)
  | fault (id : Nat)
deriving DecidableEq, Repr

/-- R30, R34: a register with its state and its producer. -/
structure Reg (w : Nat) where
  val : BitVec w
  st : RSt
  prod : Prod
deriving DecidableEq, Repr

/-- R14: the states of a thread slot. -/
inductive SlotState where | vacant | run | parked | faulted | lent | halted
deriving DecidableEq, Repr

/-- R14: the event a PARKED slot awaits. -/
inductive Wait where
  /-- WRS: the write that loses the reservation (R165). -/
  | reservation
  /-- QWT: an entry in register queue `q` (R181). -/
  | queue (q : Nat)
  /-- BARW: the phase of the barrier word (R173). -/
  | barrier (w : Nat)
  /-- SEMW: units of a semaphore (R174). -/
  | semaphore (i : Nat)
  /-- RECV from the own inbox (R178). -/
  | inbox
  /-- RECV from a named queue, served by request `id` (R179). -/
  | namedQueue (id : Nat) (name : Q)
  /-- LWT: the end of a launch (R292). -/
  | launch (name : Q)
  /-- MXWB: a tag and the latest batch closed with it (R258). -/
  | batch (tag id : Nat)
  /-- MIGR: the return of the context (R167). -/
  | context
deriving DecidableEq, Repr

/-- R31, R284: how a thread came to its slot. -/
inductive Start where | spwn | loader | message | steward
deriving DecidableEq, Repr

/-- R150: a far-end fault not yet taken: the record's fields, and the load's place in program order. -/
structure DFault where
  pc : D
  cause : Nat
  tval : D
  reason : Nat
  /-- XFIL has no register: its fault is taken at the next XACC instruction (R129). -/
  xacc : Bool
deriving DecidableEq, Repr

/-- A saved outstanding record (R308), bound to its register after a lazy restore (R313). -/
structure ORec where
  addr : D
  pc : D
  w2 : D
  w3 : D
deriving DecidableEq, Repr

/-- R30 to R33: one thread and its slot. -/
structure Thread where
  st : SlotState
  name : Q
  pc : D
  g : Vector (Reg 64) 32
  v : Vector (Reg 1024) 32
  p : Vector (Reg 64) 8
  /-- shadow g26 to g31 (R182) -/
  sh : Vector (Reg 64) 6
  /-- a trap was taken inside a user interrupt handler: the trap's handler runs on the thread's own g26 and g27 (R301) -/
  own : Bool
  /-- R182: the kind of the entry that set UIS.PEND -/
  pendKind : Nat
  /-- R182: the kind of the entry that has raised a user interrupt, until the thread's next boundary -/
  uint : Option Nat
  xa : BitVec 6400
  fpm : D
  rnc : D
  uiv : D
  uis : D
  lrp : D
  ckq : D
  tcause : D
  tpc : D
  tval : D
  taux : D
  tvec : D
  lpb : Vector D 8
  lpl : Vector D 8
  /-- TST.PRIV: false U, true S -/
  priv : Bool
  qm : Bool
  divg : Bool
  lent : Bool
  /-- TST.MIG: the channel core the scalar context runs at, and its slot there, none while it waits for one (R167) -/
  mig : Option (Nat × Option Nat)
  /-- what a PARKED slot awaits, and the cycle its limit passes at -/
  wait : Wait
  limit : Option Nat
  /-- the producer number the destinations of the parking instruction pend on, and those registers as they stood before it (log 49) -/
  waitId : Nat
  held : List (BitVec 5 × Reg 64)
  /-- state before a halt (R321), the cycle of the halt, and a wake kept for resume -/
  preHalt : SlotState
  haltAt : Nat
  wakeKept : Bool
  stepping : Bool
  faults : Tbl DFault
  records : List ORec
  /-- R164: instructions since the RSV of a constrained sequence and its address, and SCNs failed in a row in such sequences
  on one address -/
  cons : Option (Nat × D)
  scnFails : Nat
  scnAt : D
  hgrp : Option Nat
  /-- R305: pool index, and the die-physical address of its save area with the die in [57:56] -/
  pool : Option Nat
  area : Nat
  sfltGen : Nat
  cps : Vector D 16
  cvs : Vector D 16
  launch : Option Q
  start : Start
  /-- R178: sender and kind of the last entry dequeued -/
  lsnd : Nat
  lkind : Nat
  hits : Nat
  misses : Nat
  /-- R309: dirty bits, one per item of the save area -/
  dirty : BitVec 160
  /-- R141: a walk's refusal, taken when the instruction retries: address, kind, cause, TAUX -/
  refusal : Option (D × Nat × Nat × D)
  /-- R310, R315: stopped for a pre-emption or its end: at the checkpoint whose address is given, or elsewhere -/
  stopped : Option (Option D)
  /-- R285: the cycle from which a new thread issues; the number and the keeper's location of the SPWN it waits for -/
  startAt : Nat
  after : Option (Nat × Nat)
  /-- R38: the save area that holds its ABSENT registers -/
  src : Nat
  /-- a saved context: the place its barrier registrations are kept under -/
  ghost : Nat
  /-- a saved member of a quad: the word and address of the instruction its quad was in, and whether that has trapped it -/
  quadIn : Option (Word × D × Bool)
deriving DecidableEq, Repr

/-- A register holding `x`, FULL. -/
def Reg.ofVal {w} (x : BitVec w) : Reg w := ⟨x, .full, .none⟩

/-- R31, R347: a slot that holds no thread; every register of a started thread is this with the start values. -/
def Thread.vacant : Thread :=
  { st := .vacant, name := 0, pc := 0, g := Vector.replicate 32 (.ofVal 0), v := Vector.replicate 32 (.ofVal 0),
    p := (Vector.replicate 8 (Reg.ofVal (0 : D))).set 0 (.ofVal (BitVec.allOnes 64)), sh := Vector.replicate 6 (.ofVal 0), own := false, pendKind := 0, uint := none, xa := 0,
    fpm := 1, rnc := 0, uiv := 0, uis := 0, lrp := 0, ckq := 0, tcause := 0, tpc := 0, tval := 0, taux := 0, tvec := 0,
    lpb := Vector.replicate 8 0, lpl := Vector.replicate 8 0, priv := false, qm := false, divg := false, lent := false,
    mig := none, wait := .context, limit := none, waitId := 0, held := [], preHalt := .vacant, haltAt := 0, wakeKept := false, stepping := false,
    faults := [], records := [], cons := none, scnFails := 0, scnAt := 0, hgrp := none, pool := none, area := 0, sfltGen := 0,
    cps := Vector.replicate 16 0, cvs := Vector.replicate 16 0, launch := none, start := .message, lsnd := 0, lkind := 0,
    hits := 0, misses := 0, dirty := 0, refusal := none, stopped := none,
    startAt := 0, after := none, src := 0, ghost := 0, quadIn := none }

/-- R175: a message as an inbox holds it. -/
structure Msg where
  data : List D
  kind : Nat
  slot : Nat
  sender : Nat
  /-- the thread a unit's message is for (R176): discarded when it has ended -/
  dest : Option Q
deriving DecidableEq, Repr

/-- R152: the kinds of journal entries. -/
inductive JKind where | st | ste | stf | vst | red | send | amsg | wdq
deriving DecidableEq, Repr

/-- R22, R335: a row of a tile: its lease entry, translation context (words 0 to 3), instruction store and launch. -/
structure Row where
  /-- 0 FREE, 1 LOAD, 2 RUN, 3 DRAIN -/
  state : Nat
  gang : Bool
  det : Bool
  ecls : Nat
  prio : Nat
  live : Nat
  engc : Nat
  ltag : Nat
  ctx : Vector D 4
  istore : Tbl (BitVec 2048)
  lrp : D
  launch : Option Q
  /-- the task's index in its launch, and the group's in the task -/
  task : Nat
  group : Nat
  /-- R315: a pre-emption of the row: the thread and register its status goes to (arrival id), the deadline, still waiting
  for checkpoints -/
  preempt : Option (Nat × Nat × Bool)
deriving DecidableEq, Repr

def Row.reset : Row :=
  { state := 0, gang := false, det := false, ecls := 0, prio := 0, live := 0, engc := 0, ltag := 0, ctx := Vector.replicate 4 0,
    istore := [], lrp := 0, launch := none, task := 0, group := 0, preempt := none }

/-- R141: an entry of a placement TLB: the context it was walked under, the page, its placement word and rights. -/
structure TlbEntry where
  ctx : D
  base : Nat
  size : Nat
  place : D
  rights : D
deriving DecidableEq, Repr

/-- R156, R335: a violation record: master, address, kind. -/
structure Viol where
  valid : Bool
  more : Bool
  master : Nat
  addr : D
  kind : Nat
deriving DecidableEq, Repr

/-- What a memory request does at its target. -/
inductive ROp where
  | ld (signed : Bool)
  | st
  | ldt
  | ldw
  | ste
  | stf
  | amo (op : Nat)
  | red (op : Nat)
  | cas
  | rsv
  | scn
deriving DecidableEq, Repr

/-- One element of a request: its generic address, size in bytes, lane, data to store, and the placement word of its page
(none in a vault window), the page's size and the rights of its leaf. -/
structure Part where
  va : D
  size : Nat
  lane : Nat
  data : D
  place : Option D
  page : Nat
  rights : D
deriving DecidableEq, Repr

/-- The destination of a producer: a g register, a v register, or xa. -/
inductive Dst where
  | none
  | g (r : BitVec 5)
  | v (r : BitVec 5)
  | xa
  /-- a g register with its saved state in bits [65:64], by ERET (R304) -/
  | gs (r : BitVec 5)
  /-- XO and XV of FPM, by XFIL (R129) -/
  | xflags
deriving DecidableEq, Repr

/-- Where a request stands. -/
inductive Phase where
  /-- on its way, or held back by older accesses of its thread -/
  | sent
  /-- at its controller for the full/empty state of its word (R147), for a page (R142) or a locked granule (R154) -/
  | waiting
  /-- waiting at the die interface for a page that is not resident (R142) -/
  | nonresident
  /-- performed; the answer is on its way -/
  | performed
deriving DecidableEq, Repr

/-- A memory request in flight. Ids rise in issue order, so that a thread's requests stand in program order. -/
structure Req where
  loc : Nat
  /-- the core the request issues from: a migrated thread's channel core -/
  core : Nat
  pc : D
  op : ROp
  sc : Nat
  acq : Bool
  rel : Bool
  parts : List Part
  dst : Dst
  /-- AMO and CAS status form; CAS: expected and new value, 128 bits each -/
  sf : Bool
  opnds : List D
  ent : Option Nat
  user : Bool
  phase : Phase
  /-- cycles from the moment it is performed to the arrival of its answer -/
  back : Nat
  /-- R21: followers' registers the answer is posted to: location and producer id -/
  posts : List (Nat × Nat)
  /-- R152: sent again by PSJ.REPOST -/
  again : Bool
  /-- R240: the query or NCAS whose store this is; the store has that query's place in program order -/
  query : Option Nat
  /-- R265: the region tables as they stood when the request was accepted, of tiles whose table has been written since -/
  regions : List (Nat × Vector D 16 × Vector D 16)
  /-- the cycle it was sent -/
  sentAt : Nat
deriving DecidableEq, Repr

/-- R148, R152: an entry of the posted-store journal. -/
structure JEntry where
  loc : Nat
  /-- the core whose journal holds it: a migrated thread's stores are the channel core's (R167) -/
  core : Nat
  kind : JKind
  size : Nat
  sc : Nat
  addr : D
  addrHi : D
  data : D
  pc : D
  req : Nat
  /-- reason of a refusal, and whether its trap has been taken -/
  refused : Option Nat
  taken : Bool
  /-- a message that has been placed: only the acknowledgement is awaited (R176) -/
  placed : Bool
  /-- what PSJ.REPOST sends again (R152): the request, or a message's four words -/
  orig : Option Req
  msg : List D
  /-- sent again by PSJ.REPOST: after every older access of its thread (R152) -/
  again : Bool
deriving DecidableEq, Repr

/-- R284: an exit record. -/
structure ExitRec where
  value : D
  name : Q
  cause : Nat
deriving DecidableEq, Repr

/-- A compute, steward or channel core (R10). -/
structure Core where
  inbox : List Msg
  overflow : List Msg
  /-- messages on their way to the overflow area, in arrival order: the journal's core, the entry and its number (R359) -/
  spill : List (Nat × Nat × Nat)
  /-- messages of units held for a full ring, in posting order (R176) -/
  held : List Msg
  journal : Tbl JEntry
  queues : Vector (List D) 4
  qhead : Vector Nat 4
  qtail : Vector Nat 4
  tcc : Tbl Thread
  exits : Tbl ExitRec
  sab : D
  dtv : D
  frozen : Bool
  /-- last start of the divide unit and of the vector divide unit, and the cycle the accumulator unit is free at -/
  divLast : Option Nat
  vdivLast : Option Nat
  xaccFree : Nat
  /-- halt groups whose trigger has arrived at the core (R321) -/
  haltArr : BitVec 16
  /-- a steward core's instruction store, 256-byte lines (R24) -/
  istore : Tbl (BitVec 2048)
deriving DecidableEq, Repr

def Core.reset : Core :=
  { inbox := [], overflow := [], spill := [], held := [], journal := [], queues := Vector.replicate 4 [], qhead := Vector.replicate 4 0,
    qtail := Vector.replicate 4 0, tcc := [], exits := [], sab := 0, dtv := 0, frozen := false, divLast := none,
    vdivLast := none, xaccFree := 0, haltArr := 0, istore := [] }

/-- A value on its way to a thread's registers, with the flags it sets; or a fault of the load (R150). -/
structure Arr where
  loc : Nat
  /-- destinations with their values; a v register's value uses all bits -/
  vals : List (Dst × BitVec 6400)
  flags : BitVec 5
  /-- the producer sets FPM flags when it delivers: FDIV, FSQRT, VDIV, VSQRT (R69) -/
  fp : Bool
  fault : Option DFault
  /-- R21: followers' registers the value is posted to -/
  posts : List (Nat × Nat)
  /-- the answer of a grammar query (R239) -/
  gram : Bool
deriving DecidableEq, Repr

/-- R163: a reservation: the thread, the word's key, size, address, and its home (R157). -/
structure Resv where
  loc : Nat
  key : Nat
  size : Nat
  va : D
  home : Nat
deriving DecidableEq, Repr

/-- R172: a barrier: the launch that holds it, registered and arrived threads with the phase of their latest arrival, cores
that have sent their arrival, and the open phase. -/
structure Bar where
  launch : Option Q
  regs : List Nat
  arrived : List Nat
  latest : Tbl Nat
  /-- threads whose arrival, a release, has been counted at their core -/
  ready : List Nat
  sent : List Nat
  /-- arrivals not yet counted of threads that have left the barrier: the number of the BARV and the thread -/
  owing : List (Nat × Nat)
  phase : Nat
  /-- per core, the phases whose release has reached it -/
  released : Tbl Nat
deriving DecidableEq, Repr

def Bar.empty : Bar := { launch := none, regs := [], arrived := [], latest := [], ready := [], sent := [], owing := [], phase := 0, released := [] }

/-- Outcome of the turn just offered: what quads and single steps ask about. A turn is `starved` when it is lost to a block-mode
source that is EMPTY with its producer in flight, and `deferred` when a deferred-exact fault is taken (R18, R151). -/
inductive Turn where | issued | lost | starved | trapped | deferred
deriving DecidableEq, Repr

/-- R17 to R21: an instruction that a quad's leader has issued and some member has still to execute: its word and address, the
followers whose turn for it is still to come, the members that lost their turn for it or are PARKED in it, those it trapped,
the slot a SPWN's leader chose, and, of a branch, whether each member's own evaluation takes it (R19). -/
structure QuadRun where
  word : Word
  pc : D
  todo : List Nat
  again : List Nat
  trapped : List Nat
  slot : Option Nat
  ways : List (Nat × Bool) := []
deriving DecidableEq, Repr

/-- A step in flight or an input from outside: the cycle it is due, the step, its operands. -/
structure Event where
  due : Nat
  step : Instr
  args : List Nat
deriving DecidableEq, Repr

/-- R141: a first-stage walk in flight: the thread that missed, its context, the address, the access's kind (R358). -/
structure Walk where
  loc : Nat
  ctx : D
  va : D
  kind : Nat
  user : Bool
deriving DecidableEq, Repr

/-- R142: what the second stage of a die says of a page of a context: its frame; not resident; or refused. -/
structure Stage2 where
  die : Nat
  ctx : D
  base : Nat
  size : Nat
  resident : Bool
  /-- the rights the second stage grants -/
  rd : Bool
  wr : Bool
  /-- the frame of the whole page, or, for a page that NNEW or CPR laid out, of one 64 KiB block of what one unit of the
  placement holds: unit and block (log 13) -/
  part : Option (Nat × Nat)
  frame : Nat
  /-- R274: laid out by a re-stripe that has not ended -/
  fresh : Bool
  /-- R341: the page lies in the peer window of this Amigaes link -/
  peer : Option Nat
deriving DecidableEq, Repr

/-- R336: a slot of the die's cursor table (R154, R274). -/
structure Cursor where
  lock : Bool
  granule : Nat
  newPlace : D
  va : D
  oldPlace : D
  ctx : D
  size : Nat
deriving DecidableEq, Repr

/-- R174: a SEMW waiting for units: the arrival its count goes to. -/
structure SemWait where
  sem : Nat
  loc : Nat
deriving DecidableEq, Repr

/-! ## Names (chapter 08) -/

/-- R194: words 2 to 5 of a LIVE entry, under its name. -/
structure NcEntry where
  name : Q
  w2 : D
  w3 : D
  w4 : D
  w5 : D
deriving DecidableEq, Repr

/-- What a query of the name unit asks (R196). -/
inductive NKind where
  | res
  | rst
  | qry
  | new (sf : Bool)
  | cas
  | kil
  | shd
deriving DecidableEq, Repr

/-- A query of the name unit in flight; its answer goes to the arrival of the same number. -/
structure NQuery where
  loc : Nat
  kind : NKind
  name : Q
  sel : Nat
  /-- NNEW: request word, template, base or length -/
  req : D
  tmpl : D
  arg : D
  /-- NCAS: the block's words -/
  parts : List Part
  pc : D
  user : Bool
  launch : Option Q
  /-- NCAS waits for a page of its block that is not resident (R142) -/
  away : Bool
  /-- R265: the region tables as they stood when it was accepted, of tiles whose table has been written since -/
  regions : List (Nat × Vector D 16 × Vector D 16)
deriving DecidableEq, Repr

/-- R202: a shoot-down in flight: the name, its entry, the thread its message goes to, the NAME code, the acknowledgements
so far, placement TLBs still to acknowledge (R205), and the launch whose completion asked for the kill (R193). -/
structure Shoot where
  name : Q
  key : Nat
  loc : Nat
  thread : Q
  code : Nat
  kill : Bool
  count : Nat
  /-- tiles that have not acknowledged -/
  left : List Nat
  tlb : Nat
  launch : Option Q
  /-- tiles that have resolved the name again since they acknowledged: their TMASK bit stays (log 52) -/
  kept : List Nat
deriving DecidableEq, Repr

/-- R154: a placement TLB shoot-down in flight: the pages, the tiles still to acknowledge, and the step posted at the end. -/
structure Tsd where
  ctx : D
  base : Nat
  size : Nat
  left : List Nat
  step : Instr
  args : List Nat
deriving DecidableEq, Repr

/-- R199: an allocated block: its name, context, range, page size and placement, and its frames: pool die, pool, number. -/
structure Block where
  name : Q
  ctx : D
  va : Nat
  len : Nat
  psz : Nat
  place : D
  frames : List (Nat × Nat × Nat)
deriving DecidableEq, Repr

/-! ## Launches and thread starts (chapter 12) -/

/-- A thread about to start (R31): its slot, start values, and what is told of it. -/
structure StartReq where
  loc : Nat
  how : Start
  pc : D
  a1 : D
  a2 : D
  priv : Bool
  /-- SPWN: the arrival of its name -/
  arr : Option Nat
  lpb : Vector D 8
  lpl : Vector D 8
  rnc : D
  launch : Option Q
  hgrp : Option Nat
  /-- a message's sender and word 3 -/
  sender : Nat
  w3 : D
  /-- the cycle of the request, and the earliest cycle the thread may issue at -/
  asked : Nat
  earliest : Nat
  after : Option (Nat × Nat)
deriving DecidableEq, Repr

/-- R187: what a request at the mint goes on with: an NNEW, a thread start, a launch being entered. -/
inductive MintReq where
  | nnew (q : Nat)
  | start (r : StartReq)
  | launch (k : Nat)
deriving DecidableEq, Repr

/-- R187 to R189: the high-water mark, the last recorded block, whether the mint has stopped or is writing its record, the
requests of the dies, the die served last, and the cycle it is free at. -/
structure Mint where
  next : Nat
  recorded : Nat
  stopped : Bool
  writing : Bool
  queue : List (Nat × MintReq)
  last : Nat
  freeAt : Nat
deriving DecidableEq, Repr

/-- R289 to R299: a launch from acceptance until its name is FREE. -/
structure Launch where
  name : Q
  /-- the die that accepted it -/
  die : Nat
  addr : D
  /-- words 0 to 6, and the auxiliary block's 24 words (none with AUXA = 0) -/
  words : List D
  aux : List D
  deps : List Q
  lanes : List Nat
  ctx : Vector D 4
  parent : Option Q
  /-- the thread that issued the LNCH, or all ones (R175) -/
  issuer : Nat
  depth : Nat
  prio : Nat
  /-- entered by the host: KEEP = 1, no pool entry -/
  host : Bool
  done : Bool
  status : D
  acked : Bool
  late : Nat
  xcnt : Nat
  cause : Nat
  /-- shoot-downs of its owned names still to finish at completion, none before -/
  kills : Option Nat
  /-- distributor: queries answered, and those of each lane (R297, R299) -/
  asked : Nat
  askedBy : Tbl Nat
  /-- lanes started on each core of a DET launch (R299) -/
  laneNext : Tbl Nat
deriving DecidableEq, Repr

/-- R293: a queued task: die of its queue, launch, index, level, entry time, and the groups placed so far. -/
structure Task where
  die : Nat
  launch : Q
  index : Nat
  level : Nat
  entry : Nat
  placed : Nat
deriving DecidableEq, Repr

/-- R291, R339: a descriptor on its way into a launch unit: the issuer's arrival, or the host port. -/
structure Entry where
  die : Nat
  loc : Nat
  arr : Option Nat
  addr : D
  pc : D
  ctx : Vector D 4
  parent : Option Q
  user : Bool
  /-- the words read, once it is accepted for minting -/
  words : List D
  aux : List D
  deps : List Q
  lanes : List Nat
deriving DecidableEq, Repr

/-- R298: a co-start in progress: each group (task and index) with its reserved rows, the deadline's cycle, and, once the rows
are in LOAD, those that have been filled, and the keepers that have their names: they start together when all have. -/
structure Costart where
  launch : Q
  groups : List (Nat × Nat × List Nat)
  due : Nat
  started : Bool
  loaded : List Nat
  keepers : List Nat
  /-- the tasks it took out of their levels -/
  tasks : List Task
deriving DecidableEq, Repr

/-! ## Contexts (chapter 13) -/

/-- R310, R315: a pre-emption in progress, under the number of the arrival its status goes to: the locations, for a row its key,
whether it writes to memory, its deadline, how far it is, and the cores whose whole slices were saved. -/
structure Preempt where
  locs : List Nat
  row : Option Nat
  mem : Bool
  /-- begun by a WAKE for the thread behind a LENT slot (R314) -/
  wake : Bool
  due : Nat
  /-- 0 waiting for checkpoints, 1 collecting, 2 writing, 3 waiting for engines -/
  phase : Nat
  /-- R315: where each thread of the row stopped -/
  stops : List (Nat × Option D)
  failed : Bool
deriving DecidableEq, Repr

/-- R338: the completion of a request of the host. -/
inductive HostReply where
  | none
  | value (x : Nat)
  | unsupportedRequest
  | completerAbort
deriving DecidableEq, Repr

/-- R310, R313: a context saved to memory: what its area does not hold. -/
structure Away where
  name : Q
  launch : Option Q
  start : Start
  /-- the place it was saved from, and the one its barrier registrations are kept under -/
  ghost : Nat
  /-- the core whose pool area it owns, and the index; none once it was moved out -/
  pool : Option (Nat × Nat)
  area : Nat
  own : Bool
  pendKind : Nat
  uint : Option Nat
  quadIn : Option (Word × D × Bool)
deriving DecidableEq, Repr

/-! ## Grammars (chapter 09) -/

/-- R213: lanes 0 to 3 of a summary. -/
structure GSum where
  len : Nat
  s1 : Nat
  s2 : Nat
  s3 : Nat
deriving DecidableEq, Repr

/-- R218: a valid entry of the rule-result table: its way in the set, key and summary. -/
structure GEntry where
  way : Nat
  rule : Nat
  op : Nat
  bind : Nat
  par : Nat
  et : Nat
  comp : Bool
  sum : GSum
deriving DecidableEq, Repr

/-- The grammar queries (R226). -/
inductive GKind where
  | new
  | len
  | ev (op : Nat)
  | idx
  | pfx
  | scn
  | mv
  | rti (mode : Nat)
deriving DecidableEq, Repr

/-- R228: how a query fails; `mem` for a memory cause, whose `tval` is an address. -/
structure GFault where
  cause : Nat
  tval : D
  reason : Nat
  mem : Bool
deriving DecidableEq, Repr

/-- What a walk has found: a value, a summary, a record to store, GMV's rows, or a failure. -/
inductive GOut where
  | g (x : D)
  | v (x : GSum)
  /-- words of a record still to be stored: the last ones of its area -/
  | record (ws : List D)
  /-- values of y still to be stored, the rows sent so far, and how the walk ended -/
  | rows (out : D) (ys : List D) (n : Nat) (err : Option GFault)
  /-- y is stored: the rows that PROGRESS has still to say, and how the walk ended -/
  | tally (n : Nat) (err : Option GFault)
  /-- PROGRESS has been sent: the rows stored, and how the query ends -/
  | progress (n : Nat) (err : Option GFault)
  | bad (f : GFault)
deriving DecidableEq, Repr

/-- R225: a grammar query; its answer goes to the arrival of the same number. -/
structure GQuery where
  loc : Nat
  core : Nat
  kind : GKind
  name : Q
  bind : Q
  par : D
  off : Nat
  area : D
  /-- the record area or block, as reached at issue -/
  parts : List Part
  dst : Dst
  pc : D
  user : Bool
  launch : Option Q
  walking : Bool
  /-- a read of it waits for a page that is not resident (R142) -/
  away : Bool
  /-- R265: the region tables as they stood when it was accepted, of tiles whose table has been written since -/
  regions : List (Nat × Vector D 16 × Vector D 16)
  out : Option GOut
deriving DecidableEq, Repr

/-! ## The matrix array (chapter 10) -/

/-- R254: the latched weight block: format, signedness, K and N, its columns of cells, and eight scales. -/
structure WBlock where
  fmt : Nat
  uns : Bool
  k : Nat
  n : Nat
  cols : List (BitVec 4096)
  scales : List Nat
deriving DecidableEq, Repr

/-- R252: an accepted command with the registers it copied. -/
structure MCmd where
  id : Nat
  loc : Nat
  cmd : Nat
  tag : Nat
  bank : Nat
  fmt : Nat
  regs : Vector D 8
  /-- the issuer's protection pairs (R253) and the region table (R265) at acceptance -/
  lpb : Vector D 8
  lpl : Vector D 8
  rga : Vector D 16
  rgb : Vector D 16
  /-- its batch, and its index there -/
  batch : Nat
  idx : Nat
  /-- the cycle of its acceptance (R260) -/
  acc : Nat
deriving DecidableEq, Repr

/-- R258: a batch from its first command until it completes. -/
structure MBatch where
  loc : Nat
  thread : Q
  closed : Bool
  /-- a number that rises in the order the batches were closed -/
  order : Nat
  /-- none when closed anonymously -/
  tag : Option Nat
  cmds : Nat
  left : Nat
  refused : Nat
  first : Option (Nat × Nat)
  /-- banks named, which are busy, and banks written -/
  busy : Nat
  wrote : Nat
  post : Bool
  cookie : D
deriving DecidableEq, Repr

/-- The matrix array of a tile (R247 to R260). -/
structure MArray where
  regs : Vector D 8
  mflg : Nat
  merr : D
  bfmt : Vector Nat 16
  /-- bank elements that are not 0: bank * 8192 + row * 256 + column -/
  banks : Tbl D
  block : Option WBlock
  /-- the lessee: its slot, marked where the slot is LENT to it (R250) -/
  holder : Option Nat
  /-- threads waiting in MXL, with the cycle their limits pass at -/
  waiters : List (Nat × Nat)
  /-- commands left in the run, and the number of the run -/
  remc : Nat
  run : Nat
  queue : List MCmd
  busy : Bool
  batches : Tbl MBatch
  /-- each lessee's open batch -/
  opened : Tbl Nat
  /-- the batch whose command was the latest to name each bank (R259) -/
  namer : Tbl Nat
  /-- tags that are PENDING, with their latest batch -/
  pending : Tbl Nat
deriving DecidableEq, Repr

def MArray.reset : MArray :=
  { regs := Vector.replicate 8 0, mflg := 0, merr := 0, bfmt := Vector.replicate 16 0, banks := [], block := none, holder := none,
    waiters := [], remc := 0, run := 0, queue := [], busy := false, batches := [], opened := [], namer := [], pending := [] }

/-! ## The copy and conversion engines (chapter 11) -/

/-- R268: an accepted command with its staging set, and how it ended. -/
structure ECmd where
  id : Nat
  loc : Nat
  core : Nat
  thread : Q
  conv : Bool
  cmd : Nat
  tag : Nat
  a : D
  b : D
  name : Q
  stage : Vector D 16
  ctx : D
  user : Bool
  /-- the issuer's protection pairs at acceptance (R267) -/
  lpb : Vector D 8
  lpl : Vector D 8
  /-- what acceptance found against it (R269, R271) -/
  refuse : Option Nat
  /-- units done so far, and the bad chunks found -/
  prog : Nat
  bads : List Nat
  /-- the source lies in a COMP region, as far as its windows tell (R271) -/
  comp : Bool
  /-- CPR: its cursor slot, page, page size, old word; CPC: the bytes of the image written so far; CPS: the words corrected in the
  latest chunk -/
  slot : Nat
  base : D
  size : Nat
  old : D
  status : Nat
  reason : Nat
  w1 : D
  w2 : D
  w3 : D
  /-- R265: the region tables at acceptance, of tiles whose table has been written since -/
  regions : List (Nat × Vector D 16 × Vector D 16)
deriving DecidableEq, Repr

/-- An engine: commands completed, the one it runs, and the completion a frozen engine keeps (R267). -/
structure Engine where
  done : Nat
  cur : Option ECmd
  kept : Option ECmd
deriving DecidableEq, Repr

def Viol.free : Viol := ⟨false, false, 0, 0, 0⟩

/-- A tile's shared units and its block of the control span (R8, R335). -/
structure Tile where
  budget : Nat
  used : Nat
  sctx : Vector D 4
  sengc : Nat
  endStatus : Nat
  sems : Vector Nat 32
  semWait : List SemWait
  tlb : List TlbEntry
  /-- walks in flight, at most 4 (R141) -/
  walks : List Walk
  viols : Vector Viol 8
  access : Tbl D
  /-- R265: the conversion engine's region table -/
  rga : Vector D 16
  rgb : Vector D 16
  /-- R194: sets of at most 4, the most recently used first; shoot-downs that have arrived and are not yet acknowledged -/
  ncache : Tbl (List NcEntry)
  shooting : List Nat
  /-- R260: TILE offsets held by queued matrix commands: first byte, length, the command and its issuer -/
  holds : List (Nat × Nat × Nat × Nat)
  /-- R218, R219: sets of valid entries, the most recently used first; hits, misses, insertions, evictions, removals (R224) -/
  rrt : Tbl (List GEntry)
  gcount : Vector Nat 5
  /-- R278: the store's top of each COMP entry -/
  ctop : Vector Nat 16
  array : MArray
  /-- copy engines 0 and 1, conversion engine; the copy and the conversion queue -/
  engines : Vector Engine 3
  copyQ : List ECmd
  convQ : List ECmd
deriving DecidableEq, Repr

def Tile.reset : Tile :=
  { budget := 40, used := 0, sctx := Vector.replicate 4 0, sengc := 0, endStatus := 0, sems := Vector.replicate 32 0, semWait := [],
    tlb := [], walks := [], viols := Vector.replicate 8 .free, access := [],
    rga := Vector.replicate 16 0, rgb := Vector.replicate 16 0, ncache := [], shooting := [], holds := [],
    rrt := [], gcount := Vector.replicate 5 0, ctop := Vector.replicate 16 0, array := .reset,
    engines := Vector.replicate 3 ⟨0, none, none⟩, copyQ := [], convQ := []
  }

/-- A die's block of the control span and its interface (R336, R342, R343). -/
structure Die where
  ntcfg : D
  age : D
  alloc : D
  clk : D
  ctrl : D
  hostCtx : Vector D 4
  winCtx : Vector D 4
  viols : Vector Viol 8
  baseViols : Vector Viol 24
  access : Tbl D
  /-- access tables of the die's HBM base dies, keyed by 8192 * stack + master -/
  baseAccess : Tbl D
  faultQ : List (D × D)
  faultOvf : Bool
  pageQ : List (D × D × D)
  pageOvf : Bool
  cursors : Tbl Cursor
  badPages : List Nat
  errcnt : D
  /-- R346: power, temperature, clock and corrected errors of each tile, module power -/
  telemetry : Tbl D
deriving DecidableEq, Repr

def Die.reset : Die :=
  { ntcfg := 24, age := 1048576, alloc := 0, clk := 0, ctrl := 0, hostCtx := Vector.replicate 4 0, winCtx := Vector.replicate 4 0,
    viols := Vector.replicate 8 .free, baseViols := Vector.replicate 24 .free, access := [], baseAccess := [], faultQ := [],
    faultOvf := false, pageQ := [], pageOvf := false, cursors := [], badPages := [], errcnt := 0, telemetry := []
  }

/-- Everything but memory. -/
structure Dev where
  /-- instruction-store refills in flight: location and line address (R24) -/
  refills : List (Nat × Nat)
  /-- cycles since reset; slots still to be offered this cycle; the steps in flight -/
  cycle : Nat
  todo : List Nat
  events : List Event
  /-- the number of the next free value (`Config.freeNat`), and of the next request or record -/
  free : Nat
  nextId : Nat
  /-- the thread whose turn it is, the operands of the step being taken, a UNI pair's second word being executed -/
  cur : Nat
  args : List Nat
  inUni : Bool
  last : Turn
  /-- bytes this step has written, latest first; empty between steps -/
  wbuf : List (Nat × Byte)
  threads : Tbl Thread
  /-- quads in the middle of an instruction, by their leaders' slots -/
  quads : Tbl QuadRun
  cores : Tbl Core
  rows : Tbl Row
  bars : Tbl Bar
  reqs : Tbl Req
  arrs : Tbl Arr
  tiles : Tbl Tile
  dies : Tbl Die
  /-- R320: HGC and HBP0 to HBP3 of the 16 halt groups -/
  hgc : Vector D 16
  hbp : Vector D 64
  /-- R142: the second stages of the dies; a page listed nowhere is refused (log 8) -/
  stage2 : List Stage2
  /-- R147: requests waiting at controllers, in arrival order -/
  feWait : List Nat
  /-- R154: requests held by the copy of a granule, or by a stack that retrains, in the order they came -/
  lockWait : List Nat
  /-- reservations, oldest first (R163), and words held for a thread's next RSV (R164) -/
  resvs : List Resv
  resvHold : Tbl Resv
  /-- what the completer of each 64 KiB of host memory does with AtomicOps: 0 performs, 1 Unsupported Request, 2 Completer Abort,
  3 no answer (R161) -/
  hostAtomics : Tbl Nat
  /-- CXL ports whose link is down, HBM5 stacks that are retraining (R340, R344) -/
  cxlDown : List Nat
  retraining : List Nat
  /-- R185: sibling stores a thread's loads took values from: the thread, the store's number -/
  fwd : List (Nat × Nat)
  /-- R166, R167: contexts and remote updates waiting at a channel core, in arrival order: core, item, whether a context -/
  chanQ : List (Nat × Nat × Bool)
  /-- R166: remote updates that occupy a slot of a channel core: core, slot, request -/
  chanRun : List (Nat × Nat × Nat)
  /-- R179: named queues' waiters at their homes, in order: the name and the RECV's thread; the name and a SEND's core and entry -/
  recvQ : List (Nat × Nat)
  sendQ : List (Nat × Nat × Nat)
  mint : Mint
  nameQ : Tbl NQuery
  shoots : Tbl Shoot
  tsds : Tbl Tsd
  blocks : List Block
  launches : List Launch
  tasks : List Task
  entries : Tbl Entry
  costarts : List Costart
  /-- R339: the result of each die's latest launch write; all ones while it is not known -/
  launchResult : Vector Q 4
  /-- the number of each port's latest write -/
  launchPort : Vector Nat 4
  /-- R342: bytes this step fills with zeros, before its other writes; empty between steps -/
  wclear : List (Nat × Nat)
  gramQ : Tbl GQuery
  /-- R156: frozen masters other than cores -/
  frozenMs : List Nat
  /-- R269: messages of engines for threads that are saved, oldest first -/
  mail : List (Q × Msg)
  /-- R314: the faulted thread behind a LENT slot, with the number from which the slot's requests are the lent thread's -/
  lentOut : Tbl (Nat × Thread)
  preempts : Tbl Preempt
  away : List Away
  /-- R347: the root of trust has refused the firmware: the part answers on JTAG and I3C only -/
  stuck : Bool
  /-- R348: the root of trust has unlocked JTAG's access to the halt groups -/
  jtagOpen : Bool
  /-- R338: how the host's latest read or AtomicOp was completed -/
  hostReply : HostReply
deriving DecidableEq, Repr

def Dev.reset : Dev :=
  { refills := [], cycle := 0, todo := [], events := [], free := 0, nextId := 1, cur := 0, args := [], inUni := false, last := .lost, wbuf := [],
    threads := [], quads := [], cores := [], rows := [], bars := [], reqs := [], arrs := [],
    tiles := [], dies := [], hgc := Vector.replicate 16 0, hbp := Vector.replicate 64 0,
    stage2 := [], feWait := [], lockWait := [], resvs := [], resvHold := [], hostAtomics := [], cxlDown := [], retraining := [], fwd := [], chanQ := [], chanRun := [], recvQ := [], sendQ := [],
    mint := { next := 2 ^ 32, recorded := 0, stopped := false, writing := false, queue := [], last := 3, freeAt := 0 },
    nameQ := [], shoots := [], tsds := [], blocks := [], launches := [], tasks := [], entries := [], costarts := [],
    launchResult := Vector.replicate 4 (BitVec.allOnes 128), launchPort := Vector.replicate 4 0, wclear := [], gramQ := [], frozenMs := [], mail := [], lentOut := [], preempts := [], away := [], stuck := false, jtagOpen := false, hostReply := .none
  }

/-- The whole machine: all state but memory, and memory as the list of its bytes that are not 0. -/
structure State where
  dev : Dev
  mem : List Host.Cell
deriving DecidableEq, Repr

/-- R347: the part after reset: every slot VACANT, every row FREE, nothing in flight, memory listing nothing. -/
def State.reset : State := { dev := Dev.reset, mem := [] }

/-- Why the machine stops. -/
inductive Fault where
  /-- Raised by `Sys2Proof.Machine.State.run` when an instruction is executed for a slot that holds no thread: no step of the
  machine does so. Safe: the part has no behaviour to lose. -/
  | noThread
deriving DecidableEq, Repr

/-- Why a step has no meaning. -/
inductive Refusal where
  /-- An arm of `exec` without a meaning. Safe: it claims nothing. -/
  | notModelled (mnemonic : String)
deriving DecidableEq, Repr

end Sys2Proof.Machine
end

