-- ==== Sys2Proof/Machine/Ops.lean ====
section
/-! DEFINITION. The named operations over memory, registers and threads, and taking an exception and returning from one. -/
namespace Sys2Proof.Machine

/-! ## Memory: one flat key per byte. `unit * 2^56 + offset`: units 0 to 3 the dies' physical spaces, 4 + T the vault of tile
T, 68 + p the expander of CXL port p, 76 host memory. An unlisted byte reads 0 (log 7). -/

abbrev Mem := List Host.Cell

def Mem.read (m : Mem) (k : Nat) : Byte := Tbl.getD m k 0
/-- Writing 0 removes the entry, so that equal memories are equal lists. -/
def Mem.write (m : Mem) (k : Nat) (b : Byte) : Mem := if b = 0 then Tbl.erase m k else Tbl.set m k b
/-- Apply writes, the oldest last in the list. -/
def Mem.flush (m : Mem) (w : List (Nat × Byte)) : Mem := w.foldr (fun x m => m.write x.1 x.2) m
/-- The canonical form: addresses strictly rising, no entry equal to what an unlisted address reads as. -/
def Memory.wf (m : Mem) : Bool := Tbl.sorted m && m.all (fun x => x.2 != 0)

def vaultKey (tile off : Nat) : Nat := (4 + tile) * 2 ^ 56 + off
def cxlKey (port off : Nat) : Nat := (68 + port) * 2 ^ 56 + off
def hostKey (off : Nat) : Nat := 76 * 2 ^ 56 + off
/-- R131, R342: where a word's full/empty bit (1 EMPTY) and a code word's error mark (1 correctable, 2 not) stand. -/
def feKey (k : Nat) : Nat := 2 ^ 72 + k / 8
def errKey (k : Nat) : Nat := 2 ^ 73 + k / 32

/-- The bytes outside the ranges zeroed by a step. -/
def Mem.zero (m : Mem) (l : List (Nat × Nat)) : Mem := if l.isEmpty then m else m.filter fun x => !(l.any fun r => r.1 ≤ x.1 && x.1 < r.1 + r.2)
/-- A byte as this step sees it: its own writes first, then what it has zeroed. -/
def rdB (m : Mem) (d : Dev) (k : Nat) : Byte := match d.wbuf.find? (fun x => x.1 = k) with
  | some x => x.2
  | none => if d.wclear.any (fun r => r.1 ≤ k && k < r.1 + r.2) then 0 else m.read k
/-- R5: `n` bytes, little-endian, as a number. -/
def rdN (m : Mem) (d : Dev) (k : Nat) : Nat → Nat
  | 0 => 0
  | n + 1 => (rdB m d k).toNat + 256 * rdN m d (k + 1) n
def rd64 (m : Mem) (d : Dev) (k : Nat) : D := BitVec.ofNat 64 (rdN m d k 8)
/-- Write one byte. -/
def wrB (d : Dev) (k : Nat) (b : Byte) : Dev := { d with wbuf := (k, b) :: d.wbuf }
/-- Zero `n` bytes. -/
def Dev.clear (d : Dev) (k n : Nat) : Dev :=
  { d with wbuf := d.wbuf.filter (fun x => !(k ≤ x.1 && x.1 < k + n)), wclear := (k, n) :: d.wclear }
/-- R5: write `n` bytes of a number, little-endian. -/
def wrN (d : Dev) (k x : Nat) : Nat → Dev
  | 0 => d
  | n + 1 => wrN (wrB d k (BitVec.ofNat 8 x)) (k + 1) (x / 256) n
def wr64 (d : Dev) (k : Nat) (x : D) : Dev := wrN d k x.toNat 8
def feEmpty (m : Mem) (d : Dev) (k : Nat) : Bool := rdB m d (feKey k) != 0
def setFe (d : Dev) (k : Nat) (empty : Bool) : Dev := wrB d (feKey k) (if empty then 1 else 0)
def uncorrectable (m : Mem) (d : Dev) (k : Nat) : Bool := rdB m d (errKey k) == 2

/-! ## Bits -/

/-- Field [hi:lo] of a 64-bit register, as a number. -/
def fieldN (x : D) (hi lo : Nat) : Nat := x.toNat / 2 ^ lo % 2 ^ (hi + 1 - lo)
def bitN (x : D) (i : Nat) : Bool := x.toNat / 2 ^ i % 2 == 1
/-- `x` with field [hi:lo] replaced. -/
def setField (x : D) (hi lo v : Nat) : D :=
  BitVec.ofNat 64 (x.toNat - fieldN x hi lo * 2 ^ lo + v % 2 ^ (hi + 1 - lo) * 2 ^ lo)
def ofN (n : Nat) : D := BitVec.ofNat 64 n
def b2n (b : Bool) : Nat := if b then 1 else 0

/-! ## Locations (R7, R9, R33) -/

def coreOf (loc : Nat) : Nat := loc / 16
def slotOf (loc : Nat) : Nat := loc % 16
def unitOf (ca : Nat) : Nat := ca / 256
def idxOf (ca : Nat) : Nat := ca / 4 % 64
def kindOf (ca : Nat) : Nat := ca % 4
def mkCore (unit idx kind : Nat) : Nat := unit * 256 + idx * 4 + kind
def rowKeyOf (ca : Nat) : Nat := unitOf ca * 12 + idxOf ca / 4
def isCompute (ca : Nat) : Bool := kindOf ca == 0
def tileDie (tile : Nat) : Nat := tile / 16
/-- R9: the die a channel core's stack or CXL port belongs to. -/
def chanDie (i : Nat) : Nat := if i < 96 then i / 8 / 3 else (i - 96) / 2
def dieOf (ca : Nat) : Nat := if kindOf ca = 2 then chanDie (unitOf ca) else tileDie (unitOf ca)
/-- R337: the master number of a core. -/
def masterOf (ca : Nat) : Nat := if kindOf ca = 2 then 4096 + unitOf ca else 64 * unitOf ca + idxOf ca

/-! ## Records of the machine -/

def Dev.thread (d : Dev) (loc : Nat) : Thread := d.threads.getD loc .vacant
def Dev.setThread (d : Dev) (loc : Nat) (t : Thread) : Dev := { d with threads := d.threads.set loc t }
def Dev.updThread (d : Dev) (loc : Nat) (f : Thread → Thread) : Dev := d.setThread loc (f (d.thread loc))
def Dev.core (d : Dev) (ca : Nat) : Core := d.cores.getD ca .reset
def Dev.updCore (d : Dev) (ca : Nat) (f : Core → Core) : Dev := { d with cores := d.cores.set ca (f (d.core ca)) }
def Dev.row (d : Dev) (k : Nat) : Row := d.rows.getD k .reset
def Dev.updRow (d : Dev) (k : Nat) (f : Row → Row) : Dev := { d with rows := d.rows.set k (f (d.row k)) }
def Dev.tile (d : Dev) (t : Nat) : Tile := d.tiles.getD t .reset
def Dev.updTile (d : Dev) (t : Nat) (f : Tile → Tile) : Dev := { d with tiles := d.tiles.set t (f (d.tile t)) }
def Dev.die (d : Dev) (k : Nat) : Die := d.dies.getD k .reset
def Dev.updDie (d : Dev) (k : Nat) (f : Die → Die) : Dev := { d with dies := d.dies.set k (f (d.die k)) }

/-- The core a thread runs at: its own, or the channel core it has migrated to (R167). -/
def Thread.at (t : Thread) (loc : Nat) : Nat := match t.mig with
  | some (ch, _) => ch
  | none => coreOf loc
def isGang (d : Dev) (loc : Nat) : Bool := isCompute (coreOf loc) && (d.row (rowKeyOf (coreOf loc))).gang
/-- A slot of a follower in a gang row (R17). -/
def isFollower (d : Dev) (loc : Nat) : Bool := isGang d loc && idxOf (coreOf loc) % 4 != 0
/-- R12, R17: the cycle modulo 16 a thread is offered: its slot's, at the channel core for a migrated thread, and `k` cycles later at
follower `k` of a gang row; none while a migrated thread has no slot there. -/
def turnSlot (d : Dev) (loc : Nat) (t : Thread) : Option Nat := match t.mig with
  | some (_, k) => k
  | none => some ((slotOf loc + (if isFollower d loc then idxOf (coreOf loc) % 4 else 0)) % 16)
/-- The slot holds a thread that takes turns or will again. -/
def Thread.live (t : Thread) : Bool := t.st != .vacant

/-- Put a step in flight, `dt` cycles from now. -/
def Dev.post (d : Dev) (dt : Nat) (i : Instr) (args : List Nat) : Dev := { d with events := d.events ++ [Event.mk (d.cycle + dt) i args] }
/-- Draw a free number below `n` (log 4). -/
def Dev.draw (d : Dev) (n : Nat) : Nat × Dev := (Config.freeNat d.free % n, { d with free := d.free + 1 })
/-- R299: a time below `n`, of a core's message or query. In a deterministic launch it depends on no other traffic (log 116). -/
def drawDet (d : Dev) (ca n : Nat) : Nat × Dev :=
  if (d.row (rowKeyOf ca)).det then (Config.freeNat (2 ^ 101 + ca * 256 + d.cycle % 256) % n, d) else d.draw n
/-- Post a step at a latency stated as a range: its lower end and a free extra of at most `extra` cycles (log 4). -/
def Dev.postRange (d : Dev) (lo extra : Nat) (i : Instr) (args : List Nat) : Dev :=
  let (x, d) := d.draw (extra + 1)
  d.post (lo + x) i args
/-- A new record number. -/
def Dev.newId (d : Dev) : Nat × Dev := (d.nextId, { d with nextId := d.nextId + 1 })

/-! ## Registers (R30, R34 to R38) -/

/-- R182: in a user interrupt handler g26 to g31 are the shadow registers; a trap's handler entered from it runs on the thread's
own (R301, log 33). -/
def Thread.shadowed (t : Thread) (r : BitVec 5) : Bool := bitN t.uis 1 && !t.own && 26 ≤ r.toNat
/-- A g register; g0 reads 0 and is FULL. -/
def Thread.gr (t : Thread) (r : BitVec 5) : Reg 64 :=
  if r = 0 then .ofVal 0 else if t.shadowed r then t.sh[(r.toNat - 26) % 6]'(Nat.mod_lt _ (by decide)) else t.g[r.toNat]'r.isLt
/-- Replace a g register; g0 never changes (R35). -/
def Thread.setGr (t : Thread) (r : BitVec 5) (x : Reg 64) : Thread :=
  if r = 0 then t
  else if t.shadowed r then
    { t with sh := t.sh.set ((r.toNat - 26) % 6) x (Nat.mod_lt _ (by decide)), dirty := t.dirty ||| (1 <<< (72 + (r.toNat - 26))) }
  else { t with g := t.g.set r.toNat x r.isLt, dirty := t.dirty ||| (1 <<< r.toNat) }
def Thread.vr (t : Thread) (r : BitVec 5) : Reg 1024 := t.v[r.toNat]'r.isLt
def Thread.setVr (t : Thread) (r : BitVec 5) (x : Reg 1024) : Thread :=
  { t with v := t.v.set r.toNat x r.isLt, dirty := t.dirty ||| (1 <<< (32 + r.toNat)) }
/-- A p register; p0 reads all ones and is FULL. -/
def Thread.pr (t : Thread) (r : BitVec 3) : Reg 64 := if r = 0 then .ofVal (BitVec.allOnes 64) else t.p[r.toNat]'r.isLt
def Thread.setPr (t : Thread) (r : BitVec 3) (x : Reg 64) : Thread :=
  if r = 0 then t else { t with p := t.p.set r.toNat x r.isLt, dirty := t.dirty ||| (1 <<< (64 + r.toNat)) }
/-- R35: a write sets FULL and leaves no producer. -/
def Thread.writeG (t : Thread) (r : BitVec 5) (x : D) : Thread := t.setGr r (.ofVal x)
/-- R182: apply `f` to what answers to the number of a g register: the thread's own register, its shadow, and the copy kept of a
parking instruction's destination. -/
def Thread.mapG (t : Thread) (r : BitVec 5) (f : Reg 64 → Reg 64) : Thread :=
  if r = 0 then t
  else
    let t := { t with held := t.held.map fun x => if x.1 = r then (x.1, f x.2) else x }
    let x := t.g[r.toNat]'r.isLt
    let t := if f x = x then t else { t with g := t.g.set r.toNat (f x) r.isLt, dirty := t.dirty ||| (1 <<< r.toNat) }
    if r.toNat < 26 then t
    else
      let k := (r.toNat - 26) % 6
      let y := t.sh[k]'(Nat.mod_lt _ (by decide))
      if f y = y then t else { t with sh := t.sh.set k (f y) (Nat.mod_lt _ (by decide)), dirty := t.dirty ||| (1 <<< (72 + k)) }
/-- R35: a producer in flight: EMPTY, the old value kept. -/
def Thread.pendG (t : Thread) (r : BitVec 5) (id : Nat) : Thread := t.setGr r ⟨(t.gr r).val, .empty, .pend id⟩
def Thread.pendV (t : Thread) (r : BitVec 5) (id : Nat) : Thread := t.setVr r ⟨(t.vr r).val, .empty, .pend id⟩
/-- The control registers share dirty bit 80 and up by item (R309). -/
def Thread.touch (t : Thread) (k : Nat) : Thread := { t with dirty := t.dirty ||| (1 <<< (80 + k)) }

/-- R33: TST as RDC reads it. -/
def tstOf (d : Dev) (loc : Nat) : D :=
  let t := d.thread loc
  let ca := t.at loc
  let r := d.row (rowKeyOf (coreOf loc))
  let inRow := isCompute (coreOf loc)
  let slot := match t.mig with
    | some (_, s) => s.getD 0
    | none => slotOf loc
  ofN (ca * 2 ^ 32 + slot * 2 ^ 28 + b2n (inRow && r.gang) * 2 ^ 27 + b2n t.priv * 2 ^ 26 + b2n t.mig.isSome * 2 ^ 25 + b2n t.qm * 2 ^ 24
    + b2n (inRow && r.det) * 2 ^ 23 + b2n t.divg * 2 ^ 22 + (if inRow then r.ecls % 4 else 0) * 2 ^ 20 + b2n t.lent * 2 ^ 19)

/-! ## The faulted thread behind a LENT slot (R168, R314): what was numbered before the slot was lent is its own -/

/-- Number `id` belongs to the thread in the slot. -/
def mine (d : Dev) (loc id : Nat) : Bool := match d.lentOut.get? loc with
  | some (k, _) => k ≤ id
  | none => true
/-- The thread that number `id` of a slot belongs to. -/
def Dev.owner (d : Dev) (loc id : Nat) : Thread := match d.lentOut.get? loc with
  | some (k, u) => if id < k then u else d.thread loc
  | none => d.thread loc
def Dev.updOwner (d : Dev) (loc id : Nat) (f : Thread → Thread) : Dev := match d.lentOut.get? loc with
  | some (k, u) => if id < k then { d with lentOut := d.lentOut.set loc (k, f u) } else d.updThread loc f
  | none => d.updThread loc f

/-- R150, R240: the thread's loads that are not answered, grammar queries and NCAS among them, and faults on their way: for each,
whether it waits for a page that is not resident (R142). -/
def openLoads (d : Dev) (loc : Nat) : List Bool :=
  let own {α} (l : Tbl α) (at_ : α → Nat) : Tbl α := l.filter fun x => at_ x.2 = loc && mine d loc x.1
  ((own d.reqs (·.loc)).filter fun r => r.2.ent.isNone).map (fun r => decide (r.2.phase = .nonresident)) ++
  ((own d.nameQ (·.loc)).filter fun q => q.2.kind = .cas).map (fun q => q.2.away) ++
  (own d.gramQ (·.loc)).map (fun q => q.2.away) ++
  ((own d.arrs (·.loc)).filter fun a => a.2.fault.isSome).map (fun _ => false)

/-! ## Halting (R319 to R324) -/

def hgcBkh (x : D) : Bool := bitN x 3
def hgcHalted (x : D) : Bool := bitN x 0
/-- The groups halted and resumed together with `g`: itself and its XMASK. -/
def groupSet (d : Dev) (g : Nat) : List Nat :=
  (List.range 16).filter fun k => k = g || bitN (d.hgc.toArray.getD g 0) (32 + k)
/-- A slot moves to HALTED, keeping the state it held. -/
def Thread.halt (cycle : Nat) (t : Thread) : Thread := if t.st = .halted then t else { t with preHalt := t.st, haltAt := cycle, st := .halted }
/-- The cores that hold threads, each once. -/
def coresInUse (d : Dev) : List Nat := ((d.threads.filter (fun x => x.2.live)).map (fun x => coreOf x.1)).eraseDups
/-- R321: the trigger of group `g` sets out from `src` to every core; a core of the die is reached within 24 cycles, any core
within 96. At `src` itself it arrives before the next turn of the thread that sent it, which halts at its next boundary (R323). -/
def sendTrigger (d : Dev) (g src : Nat) : Dev :=
  (coresInUse d).foldl (fun d ca => d.postRange 0 (if ca = src then 15 else if dieOf ca = dieOf src then 24 else 96) .haltTriggerArrival [g, ca]) d
/-- R320, R321: a group and those in its XMASK halt; HCAUSE, HSRC and HSLOT keep the first trigger. -/
def haltGroup (d : Dev) (g cause loc : Nat) : Dev :=
  (groupSet d g).foldl (fun d k =>
    let x := d.hgc.toArray.getD k 0
    if hgcHalted x then d
    else
      let y := setField (setField (setField (setField x 31 24 cause) 23 9 (coreOf loc)) 8 5 (slotOf loc)) 0 0 1
      sendTrigger { d with hgc := d.hgc.setIfInBounds k y } k (coreOf loc)) d
/-- R342: an entry of a die's fault-address queue; a full queue drops it and sets OVF. -/
def pushFault (d : Dev) (die : Nat) (addr : D) (src master : Nat) : Dev :=
  d.updDie die fun x => if x.faultQ.length < 256 then { x with faultQ := x.faultQ ++ [(addr, ofN (src % 16 + master % 8192 * 65536))] }
    else { x with faultOvf := true }
/-- R322, R324: a thread that must not go on halts at once, with its group, or alone. -/
def haltThread (d : Dev) (loc cause : Nat) : Dev :=
  let t := d.thread loc
  let d := d.updThread loc (Thread.halt d.cycle)
  match t.hgrp with
  | some g => haltGroup d g cause loc
  | none => pushFault d (dieOf (coreOf loc)) (ofN loc) 0 (masterOf (coreOf loc))

/-- R14: the state of a slot whose thread runs: LENT where the slot is lent. -/
def Thread.running (t : Thread) : SlotState := if t.lent then .lent else .run
/-- What a slot that leaves its wait becomes: a slot of a frozen core stays PARKED until the core is unfrozen (R156). -/
def wakesTo (d : Dev) (loc : Nat) : SlotState := if (d.core (coreOf loc)).frozen then .parked else (d.thread loc).running
/-- A PARKED thread's event has come, or something wakes it: back to RUN, or to what the slot becomes; a migrated thread goes on
at its channel core; a halted one goes on at resume (R321). -/
def Thread.wake (now : SlotState) (t : Thread) : Thread :=
  if t.st = .parked then { t with st := if t.mig.isSome then t.st else now, wait := .context, limit := none }
  else if t.st = .halted ∧ t.preHalt = .parked then { t with preHalt := if t.mig.isSome then t.preHalt else now, wait := .context, limit := none } else t
/-- The awaited event has come: the parking instruction has completed. -/
def Thread.finishWait (now : SlotState) (t : Thread) : Thread := { t.wake now with pc := t.pc + 4, held := [] }
/-- The event the thread at `loc` awaits has come. -/
def endWait (d : Dev) (loc : Nat) : Dev := d.updThread loc (Thread.finishWait (wakesTo d loc))
/-- The wait ends without its event: the destinations of the parking instruction are as they stood before it (log 49). -/
def Thread.unhold (t : Thread) : Thread := t.held.foldl (fun t x => t.setGr x.1 x.2) { t with held := [] }
/-- The slot is PARKED, also under a halt. -/
def Thread.parks (t : Thread) : Bool := t.st = .parked || (t.st = .halted && t.preHalt = .parked)
/-- The thread waits for `w`. -/
def Thread.awaits (t : Thread) (w : Wait) : Bool := t.parks && t.wait = w
/-- R179: the next RECV that waits on a named queue is served. -/
def nextRecv (d : Dev) (q : Nat) : Dev := match d.recvQ.find? fun x => x.1 = q with
  | some x => d.post 0 .queueDequeue [x.2]
  | none => d
/-- The thread leaves the waiting RECVs of the named queue it is in. -/
def leaveRecv (d : Dev) (loc : Nat) : Dev := match d.recvQ.find? fun x => x.2 = loc with
  | some x => nextRecv { d with recvQ := d.recvQ.filter fun y => y.2 != loc } x.1
  | none => d
/-- What a PARKED thread has registered at units is withdrawn. -/
def withdraw (d : Dev) (loc : Nat) : Dev :=
  let tile := unitOf (coreOf loc)
  let d := if (d.tile tile).semWait.any (fun w => w.loc = loc) then d.updTile tile fun t => { t with semWait := t.semWait.filter fun w => w.loc != loc } else d
  let d := if (d.tile tile).array.waiters.any (fun w => w.1 = loc) then
      d.updTile tile fun t => { t with array := { t.array with waiters := t.array.waiters.filter fun w => w.1 != loc } }
    else d
  let t := d.thread loc
  let d := if t.held.isEmpty then d else { d.setThread loc t.unhold with arrs := d.arrs.erase t.waitId }
  leaveRecv d loc
/-- A PARKED thread leaves its wait without its event: the instruction issues again. -/
def unpark (d : Dev) (loc : Nat) : Dev := if (d.thread loc).parks then (withdraw d loc).updThread loc (Thread.wake (wakesTo d loc)) else d
/-- R164: the thread's reservation is lost, and one that an RSV in flight would place. -/
def dropResv (d : Dev) (loc : Nat) : Dev :=
  { d with resvs := d.resvs.filter (fun r => r.loc != loc),
           reqs := d.reqs.map fun r => if r.2.loc = loc ∧ r.2.op = .rsv then (r.1, { r.2 with op := .ld false }) else r }

/-! ## Taking an exception and returning from one (R301 to R304) -/

def Thread.lvl (t : Thread) : Bool := bitN t.tcause 9
/-- R302. -/
def mkTcause (code cls : Nat) (pprv lvl : Bool) : D := ofN (cls * 1024 + b2n lvl * 512 + b2n pprv * 256 + code)
/-- The thread owns a save area (R305). -/
def Thread.hasArea (t : Thread) : Bool := t.pool.isSome || t.area != 0
def RSt.code : RSt → Nat
  | .full => 0
  | .empty => 1
  | .absent => 2
def RSt.ofCode : Nat → RSt
  | 1 => .empty
  | 2 => .absent
  | _ => .full
/-- R301: g28 to g31 and their states go to the trap block of the save area. -/
def saveBlock (d : Dev) (t : Thread) : Dev :=
  if t.hasArea then
    let k := t.area + 0xA0
    let d := (List.range 4).foldl (fun d i => wr64 d (k + 8 * i) (t.g.toArray.getD (28 + i) (.ofVal 0)).val) d
    wr64 d (k + 32) (ofN ((List.range 4).foldl (fun n i => n + (t.g.toArray.getD (28 + i) (.ofVal 0)).st.code * 4 ^ i) 0))
  else d
/-- R301: the registers of a thread that has taken a trap. -/
def Thread.enter (t : Thread) (code cls : Nat) (val aux tpc : D) : Thread :=
  { t with
    tcause := mkTcause code cls t.priv true, tpc := tpc, tval := val, taux := aux,
    g := (((t.g.set 28 (.ofVal (ofN t.area))).set 29 (.ofVal 0)).set 30 (.ofVal 0)).set 31 (.ofVal 0),
    own := t.own || bitN t.uis 1, priv := true, pc := t.tvec, cons := none, limit := none, refusal := none, st := t.running,
    dirty := t.dirty ||| 0xF0000000 ||| (0x1F <<< 90) ||| (1 <<< 80) }
/-- R168: a migrated context is sent home before it traps. -/
def Thread.goHome (t : Thread) : Thread := if t.mig.isSome then { t with mig := none, st := t.running } else t
/-- R301, R324: take a trap at a thread. With LVL = 1 it is a double trap; BREAKPOINT of a member of a group with BKH halts
the group instead; a misaligned TVEC records the trap and halts. -/
def takeTrap (d : Dev) (loc code cls : Nat) (val aux tpc : D) : Dev :=
  let d := { dropResv (withdraw (d.updThread loc Thread.goHome) loc) loc with last := .trapped }
  let t := d.thread loc
  if code = 0x1E ∧ (t.hgrp.map fun g => hgcBkh (d.hgc.toArray.getD g 0)) = some true then haltThread d loc 0x1E
  else if t.lvl then haltThread d loc code
  else
    let d := (saveBlock d t).setThread loc (t.enter code cls val aux tpc)
    if fieldN t.tvec 1 0 = 0 then d else haltThread d loc 0x05

/-! ## Executing one instruction -/

/-- How an instruction ends other than by completing. -/
inductive Stop where
  /-- The turn is lost: nothing changes, and the instruction is tried again at the next turn. -/
  | lose
  /-- The turn is lost to a block-mode source that is EMPTY with its producer in flight (R37). -/
  | starve
  /-- A trap: nothing of the instruction's own effect stands. TPC is the instruction's address unless given. -/
  | trap (code cls : Nat) (val aux : D) (tpc : Option D)
  /-- A deferred-exact fault is taken at this instruction (R150). -/
  | fault (id : Nat)
  /-- The register-miss micro-trap fetches an ABSENT register (R38). -/
  | miss (file n : Nat)
  /-- A placement TLB miss: the walk is started and the turn is lost (R141). -/
  | walk (va : D) (kind : Nat)
  /-- The thread waits for a page that is not resident (R142): its slot becomes FAULTED. -/
  | pageFault
  /-- The scalar context leaves for a channel core, where the instruction issues again (R146). -/
  | migrate (ch : Nat)
deriving DecidableEq, Repr

/-- An instruction's effect: it reads memory, changes the rest, and may stop. -/
abbrev M := ReaderT Mem (StateT Dev (Except Stop))

def stop {α} (x : Stop) : M α := fun _ _ => .error x
def lose {α} : M α := stop .lose
/-- An exact trap (R303). -/
def trap {α} (code : Nat) (val aux : D) : M α := stop (.trap code 0 val aux none)
def getD : M Dev := fun _ d => .ok (d, d)
def modD (f : Dev → Dev) : M Unit := fun _ d => .ok ((), f d)
def getMem : M Mem := fun m d => .ok (m, d)
/-- The thread whose turn it is. -/
def me : M Thread := fun _ d => .ok (d.thread d.cur, d)
def modMe (f : Thread → Thread) : M Unit := fun _ d => .ok ((), d.updThread d.cur f)
/-- Run a function of the machine that yields a value. -/
def withD {α} (f : Dev → α × Dev) : M α := fun _ d => .ok (f d)
/-- The core the thread runs at. -/
def myCore : M Nat := fun _ d => .ok ((d.thread d.cur).at d.cur, d)
/-- The row of the thread's own core. -/
def myRow : M Row := fun _ d => .ok (d.row (rowKeyOf (coreOf d.cur)), d)
def myTile : M Nat := fun _ d => .ok (unitOf (coreOf d.cur), d)

/-- The program counter moves past the instruction, or past both words of a UNI pair (R49). -/
def adv : M Unit := fun _ d => .ok ((), d.updThread d.cur fun t => { t with pc := t.pc + (if d.inUni then 8 else 4) })

/-- R180: a register field that names a queue. -/
def Thread.isQueue (t : Thread) (r : BitVec 5) : Bool := t.qm && 20 ≤ r.toNat && r.toNat < 24

/-- Take the entry at the head of register queue `q` of a core. -/
def popQueue (d : Dev) (ca q : Nat) : D × Dev :=
  let c := d.core ca
  match c.queues.toArray.getD q [] with
  | [] => (0, d)
  | x :: rest => (x, d.updCore ca fun c => { c with queues := c.queues.setIfInBounds q rest, qhead := c.qhead.setIfInBounds q (((c.qhead.toArray.getD q 0) + 1) % 16) })
/-- An entry is appended; threads parked in QWT on the queue go on (R181). -/
def pushQueue (d : Dev) (ca q : Nat) (x : D) : Dev :=
  let d := d.updCore ca fun c => { c with queues := c.queues.setIfInBounds q (c.queues.toArray.getD q [] ++ [x]), qtail := c.qtail.setIfInBounds q (((c.qtail.toArray.getD q 0) + 1) % 16) }
  (List.range 16).foldl (fun d s => if (d.thread (ca * 16 + s)).awaits (.queue q) then endWait d (ca * 16 + s) else d) d

/-- The value of a g source; a queue register dequeues an entry. -/
def gv (r : BitVec 5) : M D := fun _ d =>
  let t := d.thread d.cur
  if t.isQueue r then .ok (popQueue d (coreOf d.cur) (r.toNat - 20)) else .ok ((t.gr r).val, d)
def vv (r : BitVec 5) : M V := fun _ d => .ok (((d.thread d.cur).vr r).val, d)
def pv (r : BitVec 3) : M D := fun _ d => .ok (((d.thread d.cur).pr r).val, d)
/-- A name pair or 128-bit operand: low half in the even register (R30). -/
def pairOf (r : BitVec 5) : BitVec 5 := r + 1
def gpair (r : BitVec 5) : M Q := do
  let lo ← gv r
  let hi ← gv (pairOf r)
  pure (hi ++ lo)
/-- Write a g destination; a queue register enqueues. -/
def wg (r : BitVec 5) (x : D) : M Unit := fun _ d =>
  let t := d.thread d.cur
  if t.isQueue r then .ok ((), pushQueue d (coreOf d.cur) (r.toNat - 20) x) else .ok ((), d.updThread d.cur fun t => t.writeG r x)
/-- R180: the second register of a pair, when it is a queue, needs space too. -/
def needSpace (r : BitVec 5) : M Unit := fun _ d =>
  if (d.thread d.cur).isQueue r ∧ 16 ≤ ((d.core (coreOf d.cur)).queues.toArray.getD (r.toNat - 20) []).length then .error .lose else .ok ((), d)
def wgpair (r : BitVec 5) (x : Q) : M Unit := do
  wg r (x.setWidth 64)
  wg (pairOf r) ((x >>> 64).setWidth 64)
def wv (r : BitVec 5) (x : V) : M Unit := modMe fun t => t.setVr r (.ofVal x)
def wp (r : BitVec 3) (x : D) : M Unit := modMe fun t => t.setPr r (.ofVal x)

/-! ## Long-latency producers (R13, R35, R36) -/

/-- A g, v or xa destination becomes EMPTY behind producer `id`. -/
def Thread.pend (t : Thread) (x : Dst) (id : Nat) : Thread := match x with
  | .g r => t.pendG r id
  | .v r => t.pendV r id
  | .gs r => t.pendG r id
  | _ => t
/-- The value of producer `id` reaches a destination, unless a later instruction has claimed it (R36). -/
def Thread.deliver (t : Thread) (id : Nat) (x : Dst) (val : BitVec 6400) : Thread := match x with
  | .g r => t.mapG r fun x => if x.prod = .pend id then .ofVal (val.setWidth 64) else x
  | .gs r => t.mapG r fun x => if x.prod = .pend id then ⟨val.setWidth 64, RSt.ofCode (val.toNat / 2 ^ 64 % 4), .none⟩ else x
  | .v r => if (t.vr r).prod = .pend id then t.setVr r (.ofVal (val.setWidth 1024)) else t
  | .xa => { t with xa := val }.touch 20
  | .xflags => { t with fpm := setField t.fpm 14 13 (val.toNat % 4) }.touch 2
  | .none => t
/-- A destination that waits for producer `id` stays EMPTY behind `p`. -/
def Thread.leave (t : Thread) (id : Nat) (p : Prod) (x : Dst) : Thread := match x with
  | .g r => t.mapG r fun x => if x.prod = .pend id then ⟨x.val, .empty, p⟩ else x
  | .v r => if (t.vr r).prod = .pend id then t.setVr r ⟨(t.vr r).val, .empty, p⟩ else t
  | _ => t
/-- R150: a faulted load leaves its destination EMPTY with no producer but the fault. -/
def Thread.deliverFault (t : Thread) (id : Nat) (x : Dst) : Thread := t.leave id (.fault id) x
/-- No value will come: the destination is EMPTY with no producer. -/
def Thread.unpend (t : Thread) (id : Nat) (x : Dst) : Thread := t.leave id .none x
/-- R69: OR flags into FPM [12:8]. -/
def Thread.raise (t : Thread) (f : Fp.Flags) : Thread := { t with fpm := t.fpm ||| ((f.setWidth 64) <<< 8) }
/-- An arrival is put on its way: its destinations pend on it, and the value comes `dt` cycles from now. -/
def sendArr (d : Dev) (loc dt : Nat) (vals : List (Dst × BitVec 6400)) (flags : Fp.Flags) (fp : Bool := false) : Dev :=
  let (id, d) := d.newId
  let d := d.updThread loc fun t => vals.foldl (fun t x => t.pend x.1 id) t
  { d with arrs := d.arrs.set id ⟨loc, vals, flags, fp, none, [], false⟩ }.post dt .producerValueArrival [id]
/-- A producer whose answer a unit will give: its destinations pend on the number returned (R36). -/
def pendArr (d : Dev) (loc : Nat) (dsts : List Dst) : Nat × Dev :=
  let (id, d) := d.newId
  let d := d.updThread loc fun t => dsts.foldl (fun t x => t.pend x id) t
  (id, { d with arrs := d.arrs.set id ⟨loc, dsts.map fun x => (x, 0), 0, false, none, [], false⟩ })
/-- The unit answers: the values are on their way for `dt` cycles. -/
def fillArr (d : Dev) (id dt : Nat) (vals : List (Dst × BitVec 6400)) : Dev :=
  match d.arrs.get? id with
  | some a => ({ d with arrs := d.arrs.set id { a with vals := vals } }).post dt .producerValueArrival [id]
  | none => d
/-- Park the slot until `w`, for at most `turns` turns; a limit of 0 passes at the next turn (R171). The destinations are EMPTY
from now until the event brings their values (R13, R35). -/
def parkFor (d : Dev) (loc : Nat) (w : Wait) (turns : Nat) (dsts : List (BitVec 5)) (step : Instr) : Dev :=
  let due := d.cycle + 16 * max turns 1
  let t := d.thread loc
  let d := { d with events := d.events ++ [Event.mk due step [loc, due]] }
  let (id, d) := if dsts.isEmpty then d.newId else pendArr d loc (dsts.map .g)
  d.updThread loc fun u => { u with st := .parked, wait := w, limit := some due, waitId := id, held := dsts.map fun r => (r, t.gr r) }
def park (w : Wait) (turns : Nat) (dsts : List (BitVec 5)) (step : Instr := .waitExpired) : M Unit := modD fun d => parkFor d d.cur w turns dsts step
/-- The event a PARKED thread awaits has come: its instruction completes, and the values reach its destinations `dt` cycles from
now. -/
def complete (d : Dev) (loc dt : Nat) (xs : List D) : Dev :=
  let t := d.thread loc
  let vals := (t.held.zip xs).map fun p => (Dst.g p.1.1, p.2.setWidth 6400)
  let d := endWait d loc
  if dt = 0 then { d.updThread loc (fun t => vals.foldl (fun t v => t.deliver t.waitId v.1 v.2) t) with arrs := d.arrs.erase t.waitId }
  else fillArr d t.waitId dt vals
/-- The unit faults the query: the fault is on its way (R150). -/
def failArr (d : Dev) (id dt : Nat) (f : DFault) : Dev :=
  match d.arrs.get? id with
  | some a => ({ d with arrs := d.arrs.set id { a with fault := some f } }).post dt .loadFaultArrival [id]
  | none => d
def gval (r : BitVec 5) (x : D) : Dst × BitVec 6400 := (.g r, x.setWidth 6400)
def qvals (r : BitVec 5) (x : Q) : List (Dst × BitVec 6400) := [(.g r, (x.setWidth 64).setWidth 6400), (.g (pairOf r), ((x >>> 64).setWidth 64).setWidth 6400)]
/-- A g destination whose value is known and arrives exactly `dt` cycles after issue. -/
def longG (dt : Nat) (r : BitVec 5) (x : D) (flags : Fp.Flags := 0) (fp : Bool := false) : M Unit :=
  modD fun d => sendArr d d.cur dt [(.g r, x.setWidth 6400)] flags fp

/-! ## The checks before an instruction's own effect -/

/-- A source register of an instruction: a g register with its mode bit, a v or a p register (R37). -/
inductive Src where
  | g (r : BitVec 5) (trap : Bool)
  | v (r : BitVec 5)
  | p (r : BitVec 3)
deriving DecidableEq, Repr

/-- R43 step 3: which cores have the class. -/
inductive Gate where
  | any
  /-- the vector and exact-accumulator classes -/
  | vector
  /-- MX, CP, CV, ENG, SYS, GRM and TASK but for SPWN, REAP and SLST: not on channel cores -/
  | unit
  /-- GEV, GCMB and GOFS: neither on steward nor on channel cores (R225) -/
  | grmVec
  /-- SPWN, REAP and SLST: slot 0 of a compute core (R16, step 6) -/
  | keeper
  /-- barrier, semaphore and queue instructions: not in a migrated thread (R168) -/
  | sync
deriving DecidableEq, Repr

/-- What the checks need to know of an instruction: its class, whether it is privileged, its sources in field order, its short
destination, the destinations of a long-latency producer, which, like that of a UNI pair, may not be queues (R180), and its other
destinations: v and p registers, the second of a pair. -/
structure Shape where
  gate : Gate := .any
  priv : Bool := false
  xacc : Bool := false
  srcs : List Src := []
  dst : Option (BitVec 5) := none
  long : List (BitVec 5) := []
  also : List Src := []
deriving DecidableEq, Repr

/-- The state of a source register and what stands behind it. -/
def Thread.srcState (t : Thread) : Src → RSt × Prod
  | .g r _ => ((t.gr r).st, (t.gr r).prod)
  | .v r => ((t.vr r).st, (t.vr r).prod)
  | .p r => ((t.pr r).st, (t.pr r).prod)
def Src.num : Src → Nat
  | .g r _ => r.toNat
  | .v r => r.toNat
  | .p r => r.toNat
def Src.file : Src → Nat
  | .g .. => 0
  | .v _ => 1
  | .p _ => 2
def Src.trapMode : Src → Bool
  | .g _ m => m
  | _ => false
/-- The queue a source dequeues. -/
def Thread.srcQueue (t : Thread) : Src → Option Nat
  | .g r _ => if t.isQueue r then some (r.toNat - 20) else none
  | _ => none

/-- A register whose faulted load has been taken: EMPTY with nothing behind it. -/
def Reg.taken {w} (id : Nat) (r : Reg w) : Reg w := if r.prod = .fault id then { r with prod := .none } else r
/-- R150: the deferred-exact fault `id` is taken: it is gone, TAUX holds the reason and the resume PC. -/
def takeDeferred (d : Dev) (loc id : Nat) : Dev :=
  let t := d.thread loc
  match t.faults.get? id with
  | none => d
  | some f =>
    let t' := { t with faults := t.faults.erase id, g := t.g.map (Reg.taken id), v := t.v.map (Reg.taken id), sh := t.sh.map (Reg.taken id) }
    takeTrap (d.setThread loc t') loc f.cause 1 f.tval (setField t.pc 63 56 f.reason) f.pc
/-- R151 step 2: the earliest faulted load among the instruction's sources. -/
def dueFault (t : Thread) (srcs : List Src) (xacc : Bool) : Option Nat :=
  ((srcs.filterMap fun s => match t.srcQueue s, (t.srcState s).2 with
    | none, .fault id => some id
    | _, _ => none) ++ (if xacc then (t.faults.filter (fun x => x.2.xacc)).map Prod.fst else [])).min?

/-- R142: the register's load waits at a die interface for a page that is not resident; the reads of a grammar query and of NCAS
are loads (R240). -/
def awaitsPage (d : Dev) (t : Thread) (s : Src) : Bool := match t.srcQueue s, (t.srcState s).2 with
  | none, .pend id => (d.reqs.get? id).any (fun r => r.phase = .nonresident) || (d.gramQ.get? id).any (·.away) || (d.nameQ.get? id).any (·.away)
  | _, _ => false

/-- R43 step 3: the outcome of a class the core does not have: cause and TAUX. -/
def gateStop (g : Gate) (kind : Nat) (mig : Bool) : Option (Nat × Nat) := match g with
  | .any | .keeper => none
  | .vector => if kind = 2 then some (0x1D, 0) else if kind = 1 then some (0x01, 0) else none
  | .unit => if kind = 2 then some (0x01, 2) else none
  | .grmVec => if kind = 2 then some (0x01, 2) else if kind = 1 then some (0x01, 0) else none
  | .sync => if mig then some (0x01, 2) else none

/-- R37: a source that is not FULL. -/
def sourceStop (t : Thread) (s : Src) : Option Stop :=
  if (t.srcQueue s).isSome then none else
  match t.srcState s with
  | (.full, _) => none
  | (.absent, _) => some (.miss s.file s.num)
  | (.empty, pr) =>
    if s.trapMode then some (.trap 0x04 0 (ofN s.num) 0 none)
    else match pr with
      | .pend _ => some .starve
      | _ => some (.trap 0x04 0 (ofN s.num) 1 none)
/-- The first source that stops the instruction; one that loses the turn comes before one that traps, as R18 has it in a quad
(log 126). -/
def sourcesStop (t : Thread) (srcs : List Src) : Option Stop :=
  let xs := srcs.filterMap (sourceStop t)
  (xs.find? fun x => x = .starve).or xs.head?
/-- R38: a destination that is ABSENT is fetched before it is written. -/
def Shape.dests (sh : Shape) : List Src := sh.dst.toList.map (.g · false) ++ sh.long.map (.g · false) ++ sh.also
def destStop (t : Thread) (s : Src) : Option Stop :=
  if (t.srcQueue s).isNone ∧ (t.srcState s).1 = .absent then some (.miss s.file s.num) else none
/-- R180: enough entries for every queue source, and space for a queue destination. -/
def queuesReady (t : Thread) (c : Core) (sh : Shape) : Bool :=
  let qs := sh.srcs.filterMap t.srcQueue
  (List.range 4).all (fun q => qs.count q ≤ (c.queues.toArray.getD q []).length) &&
  match sh.dst with
  | some r => !t.isQueue r || (c.queues.toArray.getD (r.toNat - 20) []).length < 16
  | none => true

/-- Everything that can stop an instruction before its own effect, in the order of R151, R43 and R37. -/
def checkStop (d : Dev) (i : Instr) (sh : Shape) : Option Stop :=
  let t := d.thread d.cur
  let ca := t.at d.cur
  let word := (encode i).setWidth 64
  match dueFault t sh.srcs sh.xacc with
  | some id => some (.fault id)
  | none =>
    if sh.srcs.any (awaitsPage d t) then some .pageFault else
    match gateStop sh.gate (kindOf ca) t.mig.isSome with
    | some (c, aux) => some (.trap c 0 word (ofN aux) none)
    | none =>
      if sh.priv && !t.priv then some (.trap 0x03 0 word 0 none)
      else if (sh.long ++ (if d.inUni then sh.dst.toList else [])).any t.isQueue then some (.trap 0x02 0 word 0x03E00000 none)
      else if sh.gate = .keeper ∧ ¬(kindOf ca = 0 ∧ slotOf d.cur = 0) then some (.trap 0x1F 0 word 0 none)
      else
        match (sourcesStop t sh.srcs).or (sh.dests.findSome? (destStop t)) with
        | some x => some x
        | none => if queuesReady t (d.core (coreOf d.cur)) sh then none else some .lose

def check (i : Instr) (sh : Shape) : M Unit := fun _ d => match checkStop d i sh with
  | some x => .error x
  | none => .ok ((), d)

/-- R38: the micro-trap brings one ABSENT register back from the save area: value, state and, when its request was recorded,
its producer. The record is reissued by `reissue` (chapter 06). -/
def areaState (m : Mem) (d : Dev) (t : Thread) (file n : Nat) : RSt :=
  let k := t.src + 0x60 + 8 * file
  match rdN m d k 8 / 4 ^ n % 4 with
  | 1 => .empty
  | _ => .full
def fetchAbsent (reissue : Mem → Dev → Nat → Dev) (m : Mem) (d : Dev) (file n : Nat) : Dev :=
  let loc := d.cur
  let t := d.thread loc
  let st := areaState m d t file n
  let t' := match file with
    | 0 => t.setGr (BitVec.ofNat 5 n) ⟨rd64 m d (t.src + 0x200 + 8 * n), st, .none⟩
    | 1 => t.setVr (BitVec.ofNat 5 n) ⟨BitVec.ofNat 1024 (rdN m d (t.src + 0x1000 + 128 * n) 128), st, .none⟩
    | _ => t.setPr (BitVec.ofNat 3 n) ⟨rd64 m d (t.src + 0x300 + 8 * n), st, .none⟩
  let d := d.setThread loc { t' with dirty := t.dirty }
  if st = .empty then reissue m d loc else d

/-! ## Steps -/

/-- The step ends: what it zeroed and its writes reach memory. -/
def commit (m : Mem) (d : Dev) : State := { dev := { d with wbuf := [], wclear := [] }, mem := Mem.flush (Mem.zero m d.wclear) d.wbuf }

abbrev Out := Host.Outcome State Fault Refusal

end Sys2Proof.Machine
end

