-- ==== Sys2Proof/Machine/Operands.lean ====
section
/-! DEFINITION. Addresses: windows (R132), local protection (R134), the placement word (R136 to R138), first-stage translation
(R140, R141), access kinds (R358), and the second stage (R142). -/
namespace Sys2Proof.Machine

/-! ## Windows -/

def sliceBase : Nat := 0x7F00000000000000
def tileBase : Nat := 0x7F01000000000000
def dieBase : Nat := 0x7F02000000000000
/-- R132, R133: the window code of an address, 7 in none. -/
def winCode (va : D) : Nat :=
  let n := va.toNat
  if n < 2 ^ 56 then 0
  else if sliceBase ≤ n ∧ n < sliceBase + 0x80000 then 1
  else if tileBase ≤ n ∧ n < tileBase + 0x2000000 then 2
  else if dieBase ≤ n ∧ n < dieBase + 0x20000000 then 3
  else 7
/-- R132: the vault location an address names from a core: tile and TILE offset. -/
def vaultLoc (ca : Nat) (va : D) : Option (Nat × Nat) :=
  let n := va.toNat
  if kindOf ca = 2 then none
  else match winCode va with
    | 1 => if isCompute ca then some (unitOf ca, idxOf ca * 0x80000 + (n - sliceBase)) else none
    | 2 => some (unitOf ca, n - tileBase)
    | 3 => some (tileDie (unitOf ca) * 16 + (n - dieBase) / 0x2000000, (n - dieBase) % 0x2000000)
    | _ => none
/-- The DIE-window offset of a vault location. -/
def dieOff (l : Nat × Nat) : Nat := l.1 % 16 * 0x2000000 + l.2
/-- R133: GTOA. -/
def gtoa (ca : Nat) (w : Nat) (va : D) : D :=
  match vaultLoc ca va with
  | none => BitVec.allOnes 64
  | some l =>
    if w = 1 then (if l.1 = unitOf ca ∧ isCompute ca ∧ l.2 / 0x80000 = idxOf ca then ofN (l.2 % 0x80000) else BitVec.allOnes 64)
    else if w = 2 then (if l.1 = unitOf ca then ofN l.2 else BitVec.allOnes 64)
    else ofN (dieOff l)
/-- R133: ATOG. -/
def atog (w : Nat) (x : D) : D :=
  let (b, n) := if w = 1 then (sliceBase, 0x80000) else if w = 2 then (tileBase, 0x2000000) else (dieBase, 0x20000000)
  if x.toNat < n then ofN (b + x.toNat) else BitVec.allOnes 64

/-! ## Local protection (R130, R134, R358) -/

/-- R358: kinds: 0 load, 1 store, 2 fetch, 3 atomic or synchronising. -/
def needsRd (kind : Nat) : Bool := kind = 0 || kind = 3
def needsWr (kind : Nat) : Bool := kind = 1 || kind = 3
def pairPasses (b l : D) (off size kind : Nat) : Bool :=
  bitN b 2 && decide (fieldN b 31 3 * 8 ≤ off) && decide (off + size ≤ fieldN l 31 3 * 8) && (!needsRd kind || bitN b 0) && (!needsWr kind || bitN b 1)
def protOk (t : Thread) (l : Nat × Nat) (size kind : Nat) : Bool :=
  l.2 < 0x1E00000 && (List.range 8).any fun k => pairPasses (t.lpb.toArray.getD k 0) (t.lpl.toArray.getD k 0) (dieOff l) size kind
/-- R265: the attribute of a TILE offset: 0 PLAIN, 1 PLANE, 2 COMP; a refused COMP entry acts as PLAIN. -/
def regionEntry (tl : Tile) (off : Nat) : Option Nat := (List.range 16).find? fun e =>
  let a := tl.rga.toArray.getD e 0
  fieldN a 12 0 ≤ off / 4096 && off / 4096 < fieldN a 45 32
def regionAttr (tl : Tile) (off : Nat) : Nat := match regionEntry tl off with
  | some e => let b := tl.rgb.toArray.getD e 0; if bitN b 61 then 0 else fieldN b 63 62
  | none => 0

/-! ## The placement word (R136 to R138) -/

def plTier (p : D) : Nat := fieldN p 63 62
def plDies (p : D) : Nat := fieldN p 61 58
def plStacks (p : D) : Nat := fieldN p 57 46
def plChspr (p : D) : Nat := fieldN p 45 42
def plBgspr (p : D) : Nat := fieldN p 41 39
def plGran (p : D) : Nat := fieldN p 38 35
def plRot (p : D) : Nat := fieldN p 34 30
def plMig (p : D) : Bool := bitN p 29
def plGo (p : D) : Bool := bitN p 28
def plAth (p : D) : Bool := bitN p 27
def plHome (p : D) : Nat := fieldN p 26 20
def plPkey (p : D) : Nat := fieldN p 19 16
def plCur (p : D) : Nat := fieldN p 15 0
/-- The set bits of a mask below `n`, ascending. -/
def setBits (x n : Nat) : List Nat := (List.range n).filter fun i => x / 2 ^ i % 2 = 1
/-- A placement word without MIG and CUR. -/
def plBare (w : D) : D := setField (setField w 29 29 0) 15 0 0
/-- R138: the rules a placement word must keep, but for MIG (`staleMig`). -/
def plMalformed (p : D) (page : Nat) : Bool :=
  let t := plTier p
  let one := (setBits (plDies p) 4).length = 1
  (t = 0 && (plStacks p = 0 || setBits (plDies p) 4 != ((setBits (plStacks p) 12).map (· / 3)).eraseDups)) ||
  5 < plChspr p || 8 < plGran p || page < 2 ^ (plGran p + 8) ||
  (t = 2 && (!one || plChspr p != 0 || plBgspr p != 0)) || (t = 3 && plDies p != 1) || (plAth p && 104 ≤ plHome p) ||
  (t = 1 && plDies p = 0) || (plGo p && 2 ≤ t)
/-- R137: the granule of an offset in its page, and the unit of the tier's list it goes to: stack, port or die. -/
def granuleOf (p : D) (off : Nat) : Nat := off / 2 ^ (plGran p + 8)
def plUnits (p : D) : List Nat := match plTier p with
  | 0 => setBits (plStacks p) 12
  | 1 => (setBits (plDies p) 4).flatMap fun d => [2 * d, 2 * d + 1]
  | _ => setBits (plDies p) 4
def plUnit (p : D) (off : Nat) : Nat :=
  let l := plUnits p
  l.getD ((granuleOf p off + plRot p) % l.length) 0
/-- The byte of an offset within what its unit holds of the page: the unit's granules in order (log 13). -/
def plLocal (p : D) (off : Nat) : Nat :=
  let g := 2 ^ (plGran p + 8)
  off / g / max (plUnits p).length 1 * g + off % g
/-- R137: the HBM channel of an offset in its page. -/
def plChannel (p : D) (off : Nat) : Nat :=
  let n := (plUnits p).length
  let q := (granuleOf p off + plRot p) / n % 2 ^ plChspr p
  (q * 2 ^ (5 - plChspr p) + plRot p) % 32
/-- R137: the bank group of an offset in its page, in the channel. -/
def plBankGroup (p : D) (off : Nat) : Nat := (granuleOf p off + plRot p) / ((plUnits p).length * 2 ^ plChspr p) % 2 ^ plBgspr p
/-- The die whose interface receives a request for an offset of the page. -/
def plDie (p : D) (off : Nat) : Nat := match plTier p with
  | 0 => plUnit p off / 3
  | 1 => plUnit p off / 2
  | 2 => plUnit p off
  | _ => 0
/-- R157: the channel core that is the atomic home of an offset, if one is. -/
def homeChannel (p : D) (off : Nat) : Option Nat := match plTier p with
  | 0 => some (if plAth p then plHome p else 8 * plUnit p off + plChannel p off / 4)
  | 1 => some (96 + plUnit p off)
  | _ => none

/-! ## First stage (R140, R141) -/

/-- The translation context of a thread: its row's, or its tile's steward context (R140). -/
def ctxOf (d : Dev) (loc : Nat) : Vector D 4 :=
  let ca := coreOf loc
  if isCompute ca then (d.row (rowKeyOf ca)).ctx else (d.tile (unitOf ca)).sctx
/-- The root of a context: word 0. -/
def rootOf (c : Vector D 4) : D := c.get 0
/-- The tile whose placement TLB and walkers serve a thread: its own core's, also while it is migrated (log 9). -/
def tlbTile (loc : Nat) : Nat := unitOf (coreOf loc)

/-- The die and the die-physical address of a byte's key. -/
def keyDie (k : Nat) : Nat := let u := k / 2 ^ 56
  if u < 4 then u else if u < 68 then (u - 4) / 16 else if u < 76 then (u - 68) / 2 else 0
def keyPhys (k : Nat) : Nat := let u := k / 2 ^ 56
  if 4 ≤ u ∧ u < 68 then dieOff (u - 4, k % 2 ^ 56) else k % 2 ^ 56
/-- R342: a corrected soft error is rewritten on access and counted: a vault's at its tile, another's at the tile of the thread. -/
def correctErr (m : Mem) (d : Dev) (loc key : Nat) : Dev :=
  if rdB m d (errKey key) = 1 then
    let u := key / 2 ^ 56
    let t := if 4 ≤ u ∧ u < 68 then u - 4 else if loc < 2 ^ 20 then unitOf (coreOf loc) % 64 else 16 * keyDie key
    let k := 16 * (t % 16) + 8
    (wrB d (errKey key) 0).updDie (tileDie t) fun x => { x with telemetry := x.telemetry.set k (x.telemetry.getD k 0 + 1) }
  else d
/-- How a walk ends: a leaf with its level, or a refusal with cause and TAUX, and the number of nodes fetched. -/
inductive WalkEnd where
  | leaf (place rights : D) (lvl : Nat)
  | refused (cause : Nat) (aux : D)
deriving DecidableEq, Repr

/-- R140: the index of a level, and the page size a leaf there maps. -/
def walkIdx (va : Nat) (lvl : Nat) : Nat := match lvl with
  | 4 => va / 2 ^ 48 % 256
  | 3 => va / 2 ^ 39 % 512
  | 2 => va / 2 ^ 30 % 512
  | 1 => va / 2 ^ 21 % 512
  | _ => va / 2 ^ 16 % 32
def leafSize (lvl : Nat) : Nat := match lvl with
  | 2 => 2 ^ 30
  | 1 => 2 ^ 21
  | _ => 2 ^ 16
def refuseAux (mal : Bool) (lvl kind : Nat) : D := ofN (b2n mal * 128 + lvl * 16 + kind * 4)
/-- R2: the bytes of a die's three HBM stacks of 64 GiB, of an expander, and of a die's vault. HBM fills the die-physical addresses
from 0 (log 105). -/
def stackBytes : Nat := 2 ^ 36
def hbmBytes : Nat := 3 * stackBytes
def cxlBytes : Nat := 2 ^ 41
def vaultBytes : Nat := 2 ^ 29
/-- R141, R343: the frame of a die-physical address is on the die's bad-page list, or is no memory. -/
def retired (d : Dev) (k : Nat) : Bool := (d.die (k / 2 ^ 56 % 4)).badPages.contains (k % 2 ^ 56 / 65536) || hbmBytes ≤ k % 2 ^ 56
/-- R138: MIG in an entry that no copy engine wrote: the slot it names holds no cursor of the page with this placement (log 106). -/
def staleMig (d : Dev) (ctx w : D) (va page : Nat) : Bool :=
  plMig w && !((setBits (plDies w) 4).any fun k => match (d.die k).cursors.get? (plCur w) with
    | some c => c.ctx = ctx && c.va.toNat = va / page * page && c.size = page && plBare w = plBare c.oldPlace
    | none => false)
/-- R141: the walk from a node at level `lvl`; node addresses carry their die in [57:56], the flat key of memory. A node word that is
uncorrectable ends it as a node whose frame is retired does (log 127). -/
def walkFrom (m : Mem) (d : Dev) (ctx : D) (va kind : Nat) (user : Bool) : Nat → Nat → Nat × WalkEnd
  | lvl, node =>
    let k := node + 16 * walkIdx va lvl
    if retired d node || uncorrectable m d k then (1, .refused 0x0A (ofN (node % 2 ^ 58)))
    else
      let w0 := rd64 m d k
      let w1 := rd64 m d (k + 8)
      let np (mal : Bool) := (1, WalkEnd.refused 0x08 (refuseAux mal lvl kind))
      if !bitN w1 0 then np false
      else if w1.toNat / 64 ≠ 0 then np true
      else if bitN w1 1 then
        if 3 ≤ lvl then np true
        else if plMalformed w0 (leafSize lvl) || staleMig d ctx w0 va (leafSize lvl) then np true
        else (1, .leaf w0 w1 lvl)
      else match lvl with
        | 0 => np true
        | n + 1 => if w0.toNat / 2 ^ 58 ≠ 0 then np true else
            let (c, r) := walkFrom m d ctx va kind user n w0.toNat
            (c + 1, r)
/-- The node words a walk fetches. -/
def walkKeys (m : Mem) (d : Dev) (va : Nat) : Nat → Nat → List Nat
  | lvl, node =>
    let k := node + 16 * walkIdx va lvl
    k :: match lvl with
      | 0 => []
      | n + 1 => if !uncorrectable m d k && bitN (rd64 m d (k + 8)) 0 && !bitN (rd64 m d (k + 8)) 1 && (rd64 m d k).toNat / 2 ^ 58 = 0 then walkKeys m d va n (rd64 m d k).toNat else []
/-- R342: the uncorrectable node word that ends a walk. -/
def badNode (m : Mem) (d : Dev) (root : D) (va : Nat) : Option Nat := (walkKeys m d va 4 (root.toNat % 2 ^ 58)).find? (uncorrectable m d)
/-- R342: a walk corrects the code words it reads and counts them; an uncorrectable one enters the fault-address queue. -/
def walkFix (m : Mem) (d : Dev) (loc master : Nat) (root : D) (va : Nat) : Dev :=
  let d := (walkKeys m d va 4 (root.toNat % 2 ^ 58)).foldl (fun d k => correctErr m d loc k) d
  match badNode m d root va with
  | some k => pushFault d (keyDie k) (ofN (keyPhys k)) 1 master
  | none => d
/-- R358: the rights a leaf must grant. -/
def rightsOk (w1 : D) (kind : Nat) (user : Bool) : Bool :=
  (!user || bitN w1 5) && (match kind with
    | 0 => bitN w1 2
    | 1 => bitN w1 3
    | 2 => bitN w1 4
    | _ => bitN w1 2 && bitN w1 3)
def walk (m : Mem) (d : Dev) (root : D) (va kind : Nat) (user : Bool) : Nat × WalkEnd := walkFrom m d root va kind user 4 (root.toNat % 2 ^ 58)
/-- The first stage without a TLB: placement word, level, or the refusal. -/
def firstStage (m : Mem) (d : Dev) (root : D) (va kind : Nat) (user : Bool) : WalkEnd :=
  match (walk m d root va kind user).2 with
  | .leaf p w l => if rightsOk w kind user then .leaf p w l else .refused 0x09 (refuseAux false l kind)
  | r => r

/-- A TLB entry that holds an address for a context. -/
def tlbFind (tl : Tile) (ctx : D) (va : Nat) : Option TlbEntry :=
  tl.tlb.find? fun e => e.ctx = ctx && e.base ≤ va && va < e.base + e.size
/-- The level whose leaf maps pages of a size. -/
def sizeLvl (size : Nat) : Nat := if size = 2 ^ 30 then 2 else if size = 2 ^ 21 then 1 else 0
/-- Install an entry; at 512 a free choice is replaced (log 10). -/
def tlbInstall (d : Dev) (tile : Nat) (e : TlbEntry) : Dev :=
  let tl := d.tile tile
  if tl.tlb.length < 512 then d.updTile tile fun tl => { tl with tlb := tl.tlb ++ [e] }
  else
    let (x, d) := d.draw 512
    d.updTile tile fun tl => { tl with tlb := tl.tlb.set x e }
/-- R141: a miss starts a walk when one of the four walkers is free; 40 to 80 cycles for each level fetched. -/
def startWalk (m : Mem) (d : Dev) (loc : Nat) (va : D) (kind : Nat) : Dev :=
  let tile := tlbTile loc
  let ctx := rootOf (ctxOf d loc)
  let w : Walk := ⟨loc, ctx, va, kind, !(d.thread loc).priv⟩
  if (d.tile tile).walks.contains w || 4 ≤ (d.tile tile).walks.length then d
  else
    let n := (walk m d ctx va.toNat kind w.user).1
    let d := d.updTile tile fun tl => { tl with walks := tl.walks ++ [w] }
    d.postRange (40 * n) (40 * n) .placementTlbWalk [loc, va.toNat, kind]
/-- R141: a walk ends: the entry is installed, or the refusal waits for the instruction's retry. -/
def endWalk (m : Mem) (d : Dev) (loc : Nat) (va : D) (kind : Nat) : Dev :=
  let tile := tlbTile loc
  match (d.tile tile).walks.find? (fun w => w.loc = loc && w.va = va && w.kind = kind) with
  | none => d
  | some w =>
    let d := walkFix m (d.updTile tile fun tl => { tl with walks := tl.walks.erase w }) loc (masterOf (coreOf loc)) w.ctx va.toNat
    match (walk m d w.ctx va.toNat kind w.user).2 with
    | .leaf p r l => tlbInstall d tile ⟨w.ctx, va.toNat / leafSize l * leafSize l, leafSize l, p, r⟩
    | .refused c aux => d.updThread loc fun t => { t with refusal := some (va, kind, c, aux) }

/-- The page of a GLOBAL address for a thread: a TLB hit with the rights, or the refusal's cause and TAUX, or a miss. -/
inductive Xlate where
  | hit (e : TlbEntry)
  | refused (cause : Nat) (aux : D)
  | miss
deriving DecidableEq, Repr
def xlate (d : Dev) (loc : Nat) (va : D) (kind : Nat) : Xlate :=
  match tlbFind (d.tile (tlbTile loc)) (rootOf (ctxOf d loc)) va.toNat with
  | some e => if rightsOk e.rights kind (!(d.thread loc).priv) then .hit e
      else .refused 0x09 (refuseAux false (sizeLvl e.size) kind)
  | none => match (d.thread loc).refusal with
    | some (a, k, c, aux) => if a = va ∧ k = kind then .refused c aux else .miss
    | none => .miss

/-! ## Second stage (R142) -/

/-- The answer of a die's second stage. -/
inductive Second where
  | mapped (frame : Nat)
  /-- the peer window of an Amigaes link (R341) -/
  | peer (link : Nat)
  | nonresident
  | refused
deriving DecidableEq, Repr
/-- R334: a page with U in the control span is refused, but for one that maps the telemetry block alone, with RD and no W. -/
def spanRefused (e : Stage2) (rights : D) (f : Nat) : Bool :=
  bitN rights 5 && 0xFF00000000 ≤ f && f < 0xFF10000000 &&
    !(e.frame = 0xFF02000000 && e.size ≤ 2 ^ 21 && f < 0xFF02001000 && bitN rights 2 && !bitN rights 3)
/-- A page is known by its die, the context it belongs to and its virtual address; `unit` and `lo` are the unit of its placement
and the byte within what that unit holds. A retired frame and a missing right are refused. -/
def secondStage (d : Dev) (die unit lo : Nat) (ctx : D) (va : Nat) (rights : D) (rd wr fresh : Bool) : Second :=
  match d.stage2.find? (fun e => e.die = die && e.ctx = ctx && e.fresh = fresh && e.base ≤ va && va < e.base + e.size &&
      (e.part = none || e.part = some (unit, lo / 65536))) with
  | none => .refused
  | some e =>
    if !e.resident then .nonresident
    else if (rd && !e.rd) || (wr && !e.wr) then .refused
    else match e.peer with
      | some k => .peer k
      | none =>
        let f := e.frame + (if e.part.isSome then lo % 65536 else va - e.base)
        if (d.die die).badPages.contains (f / 65536) || spanRefused e rights f then .refused else .mapped f

/-! ## An access of an instruction: window, alignment, protection or translation, in that order (R132) -/

/-- What the access reaches: a vault location through a window, or a page. -/
inductive Reach where
  | vault (tile off : Nat)
  | page (e : TlbEntry)
deriving DecidableEq, Repr

/-- R130: the frame of a page lies in a vault's rule-result table, which no core may access (log 128). -/
def ruleFrame (f : Nat) : Bool := f < vaultBytes && 0x1E00000 ≤ f % 0x2000000
def ruleTable (d : Dev) (va : D) (e : TlbEntry) : Bool :=
  let off := va.toNat % e.size
  plTier e.place = 2 && (match secondStage d (plDie e.place off) (plUnit e.place off) (plLocal e.place off) e.ctx va.toNat e.rights false false false with
    | .mapped f => ruleFrame f
    | _ => false)
/-- The stop of an access that cannot be made, or what it reaches. TVAL is the address. -/
def reach (d : Dev) (loc : Nat) (va : D) (size align kind : Nat) : Except Stop Reach :=
  let t := d.thread loc
  let ca := t.at loc
  let exact (c : Nat) (aux : D) : Except Stop Reach := .error (.trap c 0 va aux none)
  if winCode va = 0 then
    if va.toNat % align ≠ 0 then exact 0x05 0
    else match xlate d loc va kind with
      | .hit e => if ruleTable d va e then exact 0x07 (ofN kind) else .ok (.page e)
      | .refused c aux => exact c aux
      | .miss => .error (.walk va kind)
  else match vaultLoc ca va with
    | none => exact 0x06 0
    | some l =>
      if va.toNat % align ≠ 0 then exact 0x05 0
      else if protOk t l size kind then .ok (.vault l.1 l.2)
      else exact 0x07 (ofN kind)
def reachM (va : D) (size align kind : Nat) : M Reach := fun _ d => match reach d d.cur va size align kind with
  | .ok r => .ok (r, d)
  | .error x => .error x
/-- The placement word a part carries. -/
def Reach.place : Reach → Option D
  | .vault .. => none
  | .page e => some e.place
def Reach.pageSize : Reach → Nat
  | .vault .. => 0
  | .page e => e.size
/-- R147, R158: the tier of a page, or 2 for a vault window. -/
def Reach.tier : Reach → Nat
  | .vault .. => 2
  | .page e => plTier e.place
def Reach.rights : Reach → D
  | .vault .. => 0
  | .page e => e.rights

end Sys2Proof.Machine
end

