-- ==== Sys2Proof/Machine/Span.lean ====
section
/-! DEFINITION. Reading a control span: the tile blocks, the die block with its queues and tables, telemetry, and the rule-result tables
(R22, R218, R334 to R336, R346). -/
namespace Sys2Proof.Machine

/-- A deterministic launch is resident. -/
def detResident (d : Dev) : Bool := d.rows.any fun r => r.2.state != 0 && r.2.det
def clkOf (d : Dev) (die : Nat) : D :=
  let x := (d.die die).clk
  ofN (fieldN x 3 0 + b2n (detResident d && (List.range 4).all fun k => fieldN (d.die k).clk 31 16 = 0) * 16 + fieldN x 31 16 * 65536)
def leaseWord (r : Row) : D :=
  ofN (r.state * 2 ^ 62 + b2n r.gang * 2 ^ 61 + b2n r.det * 2 ^ 60 + r.ecls % 4 * 2 ^ 58 + r.prio % 8 * 2 ^ 55 + r.live % 128 * 2 ^ 48 + r.engc % 4096 * 2 ^ 36 + r.ltag % 2 ^ 32)
def violWord (v : Viol) (w : Nat) : D := match w with
  | 0 => ofN (b2n v.valid * 2 ^ 63 + b2n v.more * 2 ^ 62 + v.master % 8192)
  | 1 => v.addr
  | 2 => ofN (v.kind % 4)
  | _ => 0
def headWord (ovf : Bool) (n : Nat) : D := ofN (b2n ovf * 2 ^ 63 + n)
/-- The core of an index of a tile: 0 to 47 compute, 48 to 50 steward. -/
def tileCore (tile c : Nat) : Nat := mkCore tile c (if c < 48 then 0 else 1)
/-- R218: word `w` of entry `e` of a tile's rule-result table. -/
def rrtWord (t : Tile) (e w : Nat) : D := match (t.rrt.getD (e / 4) []).find? (fun x => x.way = e % 4) with
  | none => 0
  | some x => match w with
    | 0 => ofN (x.rule % 2 ^ 64)
    | 1 => ofN (x.rule / 2 ^ 64 * 2 ^ 32 + x.bind / 2 ^ 64)
    | 2 => ofN (x.bind % 2 ^ 64)
    | 3 => ofN x.par
    | 4 => ofN (2 ^ 63 + x.op * 2 ^ 58 + x.et * 2 ^ 54 + b2n x.comp * 2 ^ 53 + x.sum.len)
    | 5 => ofN x.sum.s1
    | 6 => ofN x.sum.s2
    | _ => ofN x.sum.s3
/-- R335. None where the spec names no readable register. -/
def tileRead (d : Dev) (tile o : Nat) : Option D :=
  let t := d.tile tile
  if o < 0x60 then some (leaseWord (d.row (tile * 12 + o / 8)))
  else if o = 0x100 then some (ofN (t.budget * 2 ^ 32 + t.used * 65536))
  else if 0x200 ≤ o ∧ o < 0x380 then some ((d.row (tile * 12 + (o - 0x200) / 32)).ctx.toArray.getD ((o - 0x200) / 8 % 4) 0)
  else if 0x380 ≤ o ∧ o < 0x3A0 then some (t.sctx.toArray.getD ((o - 0x380) / 8) 0)
  else if o = 0x3A0 then some (ofN (t.sengc % 65536))
  else if 0x1000 ≤ o ∧ o < 0x1198 then some (d.core (tileCore tile ((o - 0x1000) / 8))).sab
  else if 0x1800 ≤ o ∧ o < 0x1998 then some (d.core (tileCore tile ((o - 0x1800) / 8))).dtv
  else if o = 0x3008 then some (ofN t.endStatus)
  else if 0x3200 ≤ o ∧ o < 0x3300 then some (violWord (t.viols.toArray.getD ((o - 0x3200) / 32) .free) ((o - 0x3200) / 8 % 4))
  else if 0x10000 ≤ o ∧ o < 0x20000 then some (t.access.getD ((o - 0x10000) / 8) 0)
  else none
/-- R336. A read of a queue's pop port that is not of 16 bytes removes nothing, and its value is open. -/
def dieRead (d : Dev) (die o : Nat) : Option D :=
  let x := d.die die
  if o = 0 then some x.ntcfg
  else if o = 8 then some x.age
  else if o = 0x10 then some x.alloc
  else if o = 0x18 then some (clkOf d die)
  else if 0x40 ≤ o ∧ o < 0x60 then some (x.hostCtx.toArray.getD ((o - 0x40) / 8) 0)
  else if 0x60 ≤ o ∧ o < 0x80 then some (x.winCtx.toArray.getD ((o - 0x60) / 8) 0)
  else if o = 0x108 then some x.ctrl
  else if 0x800 ≤ o ∧ o < 0x900 then some (violWord (x.viols.toArray.getD ((o - 0x800) / 32) .free) ((o - 0x800) / 8 % 4))
  else if 0xA00 ≤ o ∧ o < 0xD00 then some (violWord (x.baseViols.toArray.getD ((o - 0xA00) / 32) .free) ((o - 0xA00) / 8 % 4))
  else if o = 0x1000 then some (headWord x.faultOvf x.faultQ.length)
  else if o = 0x2000 then some (headWord x.pageOvf x.pageQ.length)
  else if 0x3000 ≤ o ∧ o < 0x3800 then
    (let c := x.cursors.get? ((o - 0x3000) / 32)
     some (match c with
       | none => 0
       | some c => match (o - 0x3000) / 8 % 4 with
         | 0 => ofN (2 ^ 63 + b2n c.lock * 2 ^ 62 + c.granule % 2 ^ 48)
         | 1 => c.newPlace
         | 2 => c.va
         | _ => c.oldPlace))
  else if 0x4000 ≤ o ∧ o < 0x4400 then
    (let g := (o - 0x4000) / 64
     match (o - 0x4000) / 8 % 8 with
     | 0 => some (d.hgc.toArray.getD g 0)
     | 5 | 6 | 7 => none
     | k => some (d.hbp.toArray.getD (4 * g + (k - 1)) 0))
  else if 0x8000 ≤ o ∧ o < 0x18000 then some (x.access.getD ((o - 0x8000) / 8) 0)
  else none
/-- R346. -/
def telemetryRead (d : Dev) (die o : Nat) : Option D :=
  let x := d.die die
  if o < 0x108 then some (x.telemetry.getD o 0)
  else if o = 0x108 then some (ofN (b2n d.mint.stopped + b2n (bitN x.ctrl 1) * 2))
  else if o = 0x110 then some x.errcnt
  else none
/-- R334: a word of a die's span; where it names none, the value is open. -/
def spanRead (d : Dev) (die off : Nat) : D :=
  let o := off / 8 * 8
  let x := if o < 0x1000000 then tileRead d (die * 16 + o / 0x100000) (o % 0x100000)
    else if o < 0x1020000 then dieRead d die (o - 0x1000000)
    else if 0x2000000 ≤ o ∧ o < 0x2001000 then telemetryRead d die (o - 0x2000000)
    else if 0x4000000 ≤ o ∧ o < 0x6000000 then
      (let p := o - 0x4000000
       some (rrtWord (d.tile (die * 16 + p / 0x200000)) (p % 0x200000 / 64) (p / 8 % 8)))
    else none
  x.getD (Config.freeBits 64 d.free)
/-- Bytes of a span, little-endian. -/
def spanBytes (d : Dev) (die off size : Nat) : Nat :=
  (List.range ((off % 8 + size + 7) / 8)).foldl (fun n i => n + (spanRead d die (off / 8 * 8 + 8 * i)).toNat * 2 ^ (64 * i)) 0 / 2 ^ (8 * (off % 8)) % 2 ^ (8 * size)

end Sys2Proof.Machine
end

