-- ==== Sys2Proof/Machine/Access.lean ====
section
/-! DEFINITION. Memory requests from issue to answer: ordering (R145), the journal (R148 to R153), targets and access tables
(R142, R156), synchronising accesses (R147), atomics (R157 to R166) and reservations (R163, R164). -/
namespace Sys2Proof.Machine

/-! ## Atomic operations (R158) -/

def sgn (size x : Nat) : Int := if size = 4 then (BitVec.ofNat 32 x).toInt else (BitVec.ofNat 64 x).toInt
def amoOp (op size old x : Nat) : Nat :=
  let w := 2 ^ (8 * size)
  match op with
  | 0 => (old + x) % w
  | 1 => old &&& x
  | 2 => old ||| x
  | 3 => old ^^^ x
  | 4 => if sgn size x < sgn size old then x else old
  | 5 => if sgn size old < sgn size x then x else old
  | 6 => min old x
  | 7 => max old x
  | 8 => x
  | 9 => (Fp.add Fp.f32 .rne 0 (Fp.f32.decode old) (Fp.f32.decode x)).1
  | _ => (Fp.add Fp.f64 .rne 0 (Fp.f64.decode old) (Fp.f64.decode x)).1

/-! ## Latencies (R11, R143, R359): lower end and the width of the range -/

/-- A second-stage miss may add 120 to 400 cycles (R143): one free draw says whether, another how many. -/
def drawMiss (d : Dev) : Nat × Dev :=
  let (b, d) := d.draw 2
  if b = 0 then (0, d) else
    let (x, d) := d.draw 281
    (120 + x, d)
/-- R11, R143: the cycles from issue to answer of one part, from the issuing core. -/
def partLatency (d : Dev) (ca : Nat) (p : Part) : Nat × Dev :=
  match p.place with
  | none => match vaultLoc ca p.va with
    | some (tile, off) =>
      if tile = unitOf ca then (if isCompute ca && off / 0x80000 = idxOf ca then 6 else 14, d)
      else let (x, d) := d.draw 81
        (40 + x, d)
    | none => (6, d)
  | some w =>
    let off := p.va.toNat % p.page
    let die := plDie w off
    let (lo, ex) := match plTier w with
      | 0 => if die = dieOf ca then (180, 81) else (260, 121)
      | 1 => (600, 351)
      | 2 => (220, 101)
      | _ => (1400, 1601)
    let (x, d) := d.draw ex
    let (y, d) := drawMiss d
    (lo + x + y, d)
/-- The latest of the parts; a VLD or VGX from the own slice takes 8 cycles (R114). -/
def reqLatency (d : Dev) (ca : Nat) (vec : Bool) (parts : List Part) : Nat × Dev :=
  parts.foldl (fun (n, d) p => let (x, d) := partLatency d ca p; (max n x, d)) (if vec then 8 else 0, d)

/-! ## The posted-store journal -/

/-- R150: TVAL of a far-end fault. An XFIL, whose destination is neither a g nor a v register, shows register 0 of file 0 (log 142). -/
def faultTval (r : Req) (va : D) : D :=
  let w := winCode va
  let a := match w with
    | 1 => va.toNat - sliceBase
    | 2 => va.toNat - tileBase
    | 3 => va.toNat - dieBase
    | _ => va.toNat
  let (reg, file) := match r.dst with
    | .g x => (x.toNat, 0)
    | .v x => (x.toNat, 1)
    | _ => (0, 0)
  ofN (a % 2 ^ 56 + reg * 2 ^ 56 + file * 2 ^ 61 + w % 4 * 2 ^ 62)
/-- R240: the place of a request in its thread's order: a query's store stands where the query does. -/
def Req.ord (id : Nat) (r : Req) : Nat := r.query.getD id
def JEntry.ord (e : JEntry) : Nat := (e.orig.bind Req.query).getD e.req
/-- R145, R152: the scope at which a message waits for older accesses; one sent again waits for all of them. -/
def JEntry.order (e : JEntry) : Nat := if e.again then 5 else e.sc
def freeEntry (c : Core) : Option Nat := (List.range 32).find? fun i => (c.journal.get? i).isNone
/-- R148, R167: the journal entries of a slot: those of its core, and those its thread left at channel cores. -/
def slotEntries (d : Dev) (loc : Nat) : List (Nat × JEntry) :=
  ((d.core (coreOf loc)).journal ++ (d.cores.filter fun c => kindOf c.1 = 2 && c.1 != coreOf loc).flatMap fun c => c.2.journal).filter fun e => e.2.loc = loc
def ownEntries (d : Dev) (loc : Nat) : List (Nat × JEntry) := (slotEntries d loc).filter fun e => mine d loc e.2.ord
/-- A journal holds the store of this number. -/
def journaled (d : Dev) (req : Nat) : Bool := d.cores.any fun c => c.2.journal.any fun e => e.2.req = req
def refusedEntries (d : Dev) (loc : Nat) : List (Nat × JEntry) := (ownEntries d loc).filter fun e => e.2.refused.isSome
/-- R152: the status word of an entry. -/
def entryStatus (e : JEntry) : D :=
  let (k, x) := match e.kind with
    | .st => (0, 0)
    | .stf => (1, 0)
    | .ste => (2, 0)
    | .vst => (3, 0)
    | .red => (0, 1)
    | .send => (0, 2)
    | .amsg => (0, 3)
    | .wdq => (0, 4)
  ofN (2 ^ 63 + b2n e.refused.isSome * 2 ^ 62 + slotOf e.loc * 2 ^ 58 + Nat.log2 e.size * 2 ^ 56 + e.sc * 2 ^ 53 + k * 2 ^ 51 + x * 2 ^ 48
    + (e.refused.getD 0) * 256)
/-- R240: a store of a query is refused: the query keeps the first such fault. -/
def queryFault (d : Dev) (qid : Nat) (r : Req) (reason : Nat) : Dev := match d.arrs.get? qid with
  | none => d
  | some a =>
    let f : DFault := ⟨r.pc, if reason = 0x0D then 0x0D else 0x0C, faultTval { r with dst := (a.vals.head?.map Prod.fst).getD .none } ((r.parts.head?.map fun p => p.va).getD 0), reason, false⟩
    { d with arrs := d.arrs.set qid { a with fault := some (a.fault.getD f) } }
/-- R149: an entry is refused: it stays, marked, and a PARKED thread is woken to take the trap. The entry of a query's store is freed
(R240). -/
def refuseEntry (d : Dev) (ca ent reason : Nat) : Dev :=
  match (d.core ca).journal.get? ent with
  | none => d
  | some e =>
    let d := { d with reqs := d.reqs.erase e.req }
    match e.orig.bind fun r => r.query.map fun q => (q, r) with
    | some (q, r) => queryFault (d.updCore ca fun c => { c with journal := c.journal.erase ent }) q r reason
    | none => unpark (d.updCore ca fun c => { c with journal := c.journal.set ent { e with refused := some reason, taken := false } }) e.loc
/-- The store is acknowledged: its entry clears. -/
def ackEntry (d : Dev) (ca ent : Nat) : Dev :=
  match (d.core ca).journal.get? ent with
  | none => d
  | some e => { (d.updCore ca fun c => { c with journal := c.journal.erase ent }) with reqs := d.reqs.erase e.req }

/-! ## Targets -/

/-- R156: the targets that check a request against an access table: a die interface, the base die of a stack, a vault controller. -/
inductive Checker where
  | die (k : Nat)
  | base (stack : Nat)
  | vault (tile : Nat)
deriving DecidableEq, Repr
/-- Where a part is performed: a byte key with its home, a register of a die's control span, the peer window of an Amigaes link, or
why it is not: `denied` names the checker and the address it records. -/
inductive Target where
  | byte (key home : Nat)
  | span (die off : Nat)
  | peer (link : Nat)
  | wait
  | nonresident (die : Nat)
  | refused (reason : Nat)
  | linkDown
  | denied (at_ : Checker) (addr : D)
deriving DecidableEq, Repr

/-- R156: what an access-table entry grants a key. -/
def grants (e : D) (key : Nat) (wr : Bool) : Bool :=
  bitN e 32 && (match fieldN e (2 * key + 1) (2 * key) with
    | 1 => !wr
    | 3 => true
    | _ => false)
/-- The cursor of a page under re-stripe, at a die of its old or new geometry (R154, R274). -/
def cursorFor (d : Dev) (die : Nat) (ctx : D) (va page : Nat) : Option Cursor :=
  ((d.die die).cursors.find? fun c => c.2.ctx = ctx && c.2.va.toNat = va / page * page && c.2.size = page).map Prod.snd
/-- R154: the geometry that serves an offset of a page, and whether it is one a re-stripe lays out; none at the locked granule. -/
def geometry (d : Dev) (ctx : D) (va page : Nat) (w : D) : Option (D × Bool) :=
  let off := va % page
  match cursorFor d (plDie w off) ctx va page with
  | none => some (w, false)
  | some c =>
    if plBare w = plBare c.oldPlace then
      let g := granuleOf w off
      if g < c.granule then some (c.newPlace, true) else if g = c.granule ∧ c.lock then none else some (w, false)
    else some (w, w = c.newPlace)
/-- R337 gives the launch unit and the loader no master number: no access table names them (log 14). -/
def noMaster : Nat := 8191
def granted (tb : Tbl D) (at_ master key : Nat) (wr : Bool) : Bool := master = noMaster || grants (tb.getD (at_ + master) 0) key wr
/-- R341, R336: the stack-physical address of a die-physical address. -/
def stackAddr (s f : Nat) : D := (BitVec.ofNat 56 f - Config.stackBase s).setWidth 64
/-- The target of an address of a page laid out by a placement word, by the leaf's rights and the rights the access needs (R137,
R142, R156). A frame beyond the tier's memory is no mapping (log 105). -/
def placeTarget (d : Dev) (master : Nat) (ctx rights : D) (rd wr : Bool) (va : Nat) (w : D) (page : Nat) (fresh : Bool) : Target :=
  let off := va % page
  let die := plDie w off
  if !granted (d.die die).access 0 master (plPkey w) wr then .denied (.die die) (ofN va)
  else match secondStage d die (plUnit w off) (plLocal w off) ctx va rights rd wr fresh with
    | .nonresident => .nonresident die
    | .refused => .refused 0x08
    | .peer k => .peer k
    | .mapped f => match plTier w with
      | 0 =>
        let s := plUnit w off
        if hbmBytes ≤ f then .refused 0x08
        else if d.retraining.contains s then .wait
        else if !granted (d.die die).baseAccess (8192 * s) master (plPkey w) wr then .denied (.base s) (stackAddr s f)
        else .byte (die * 2 ^ 56 + f) (1000 + (homeChannel w off).getD 0)
      | 1 => let p := plUnit w off
        if cxlBytes ≤ f then .refused 0x08 else if d.cxlDown.contains p then .linkDown else .byte (cxlKey p f) (1096 + p)
      | 2 => if 0xFF00000000 ≤ f ∧ f < 0xFF10000000 then .span die (f - 0xFF00000000)
        else if vaultBytes ≤ f then .refused 0x08
        else
          let tile := die * 16 + f / 0x2000000
          if !granted (d.tile tile).access 0 master (plPkey w) wr then .denied (.vault tile) (ofN f)
          else .byte (vaultKey tile (f % 0x2000000)) tile
      | _ => .byte (hostKey f) 2000
/-- R155: the byte of a memory lies in a granule whose copy has locked it. -/
def inLocked (d : Dev) (k : Nat) : Bool :=
  (List.range 4).any fun x => (d.die x).cursors.any fun c =>
    let n := 2 ^ (plGran c.2.oldPlace + 8)
    c.2.lock && (List.range ((n + 65535) / 65536)).any fun i =>
      match placeTarget d noMaster c.2.ctx 0 false false (c.2.va.toNat + c.2.granule * n + 65536 * i) c.2.oldPlace c.2.size false with
      | .byte k0 _ => k0 ≤ k && k < k0 + min n 65536
      | _ => false
/-- R155, R344: a unit's access to the memory of a die waits: for the copy of a granule, or for a stack that retrains. -/
def physHeld (d : Dev) (k : Nat) : Bool := inLocked d k || (k / 2 ^ 56 < 4 && d.retraining.any fun s => s / 3 = k / 2 ^ 56 && (stackAddr s (k % 2 ^ 56)).toNat % 2 ^ 56 < stackBytes)
/-- R155: some node that a walk from `node` fetches has to wait. -/
def heldFrom (m : Mem) (d : Dev) (va : Nat) : Nat → Nat → Bool
  | lvl, node =>
    let k := node + 16 * walkIdx va lvl
    physHeld d k || match lvl with
      | 0 => false
      | n + 1 => bitN (rd64 m d (k + 8)) 0 && !bitN (rd64 m d (k + 8)) 1 && (rd64 m d k).toNat / 2 ^ 58 = 0 && heldFrom m d va n (rd64 m d k).toNat
/-- R155, R344: a walk waits. -/
def walkHeld (m : Mem) (d : Dev) (root : D) (va : Nat) : Bool := heldFrom m d va 4 (root.toNat % 2 ^ 58)
/-- The target of an access to a page (R137, R142, R154, R156). -/
def pageTarget (d : Dev) (master : Nat) (ctx rights : D) (rd wr : Bool) (va : Nat) (w : D) (page : Nat) : Target :=
  match geometry d ctx va page w with
  | none => .wait
  | some (w, fresh) => placeTarget d master ctx rights rd wr va w page fresh
/-- R154: the hop from the old target to the new one, of a request that is forwarded. -/
def hopDelay (d : Dev) (ctx : D) (p : Part) : Nat × Dev := match p.place with
  | none => (0, d)
  | some w => match geometry d ctx p.va.toNat p.page w with
    | some (w', true) =>
      if w' = w then (0, d)
      else
        let off := p.va.toNat % p.page
        let (x, d) := d.draw 81
        ((if plDie w off = plDie w' off then 40 else 110) + x, d)
    | _ => (0, d)
/-- R358: the rights an operation needs. -/
def needsWrite : ROp → Bool
  | .ld _ => false
  | _ => true
def needsRead (o : ROp) : Bool := o != .st
/-- The operations that write the word's value (R164, R260). -/
def writesWord : ROp → Bool
  | .ld _ | .ldt | .ldw | .rsv => false
  | _ => true
/-- R130: a core's access to a rule-result table is refused (log 128). -/
def coreTarget : Target → Target
  | .byte k h => if 4 ≤ k / 2 ^ 56 && k / 2 ^ 56 < 68 && 0x1E00000 ≤ k % 2 ^ 56 then .refused 0x07 else .byte k h
  | t => t
/-- The target of a part of a request. Untranslated vault requests carry key 0 (R156). A part whose page has been unmapped since it
was translated has page size 0 (R205). -/
def target (d : Dev) (r : Req) (p : Part) : Target :=
  match p.place with
  | some w => coreTarget <| if p.page = 0 then .refused 0x08 else pageTarget d (masterOf r.core) (rootOf (ctxOf d r.loc)) p.rights (needsRead r.op) (needsWrite r.op) p.va.toNat w p.page
  | none => match vaultLoc r.core p.va with
    | some (tile, off) =>
      if !grants ((d.tile tile).access.getD (masterOf r.core) 0) 0 (needsWrite r.op) then .denied (.vault tile) (ofN (dieOff (tile, off)))
      else .byte (vaultKey tile off) tile
    | none => .refused 0x06
/-- R265: a tile with its region table as it stood when a request or command was accepted. -/
def tileAt (l : List (Nat × Vector D 16 × Vector D 16)) (d : Dev) (t : Nat) : Tile := match l.find? fun x => x.1 = t with
  | some (_, a, b) => { d.tile t with rga := a, rgb := b }
  | none => d.tile t
/-- A byte of a vault lies in a COMP region (R135, R278). -/
def compKey (at_ : Nat → Tile) (k : Nat) : Bool := let u := k / 2 ^ 56
  4 ≤ u && u < 68 && regionAttr (at_ (u - 4)) (k % 2 ^ 56) = 2
/-- A plain access that reaches a COMP region, through a window or a page. -/
def comp (d : Dev) (r : Req) : Bool := r.parts.any fun p => match target d r p with
  | .byte k _ => compKey (tileAt r.regions d) k
  | _ => false
/-- R135: an access of the thread to what it has reached lies in a COMP region. -/
def Reach.comp (d : Dev) (loc : Nat) (va : D) : Reach → Bool
  | .vault t o => regionAttr (d.tile t) o = 2
  | .page e => plTier e.place = 2 && match pageTarget d noMaster (rootOf (ctxOf d loc)) e.rights false false va.toNat e.place e.size with
    | .byte k _ => compKey d.tile k
    | _ => false

/-! ## Writes, and what they wake -/

def overlaps (a n b k : Nat) : Bool := a < b + k && b < a + n
/-- R164, R165: a reservation is lost; a WRS parked on it ends with the word's value. -/
def loseOne (m : Mem) (d : Dev) (r : Resv) : Dev :=
  let d := { d with resvs := d.resvs.filter fun x => x != r }
  if (d.thread r.loc).awaits .reservation then complete d r.loc 0 [ofN (rdN m d r.key r.size)] else d
/-- R164: a write by `loc` loses every other thread's reservation on the word. -/
def loseResvs (m : Mem) (d : Dev) (loc key size : Nat) : Dev :=
  (d.resvs.filter fun r => r.loc != loc && overlaps r.key r.size key size).foldl (loseOne m) d
/-- A word held for another thread's next RSV (R164). -/
def heldForOther (d : Dev) (loc key size : Nat) : Bool :=
  d.resvHold.any fun x => x.2.loc != loc && overlaps x.2.key x.2.size key size
def writeBytes (m : Mem) (d : Dev) (loc key size x : Nat) : Dev := loseResvs m (wrN (correctErr m d loc key) key x size) loc key size
/-- R260: a write to a TILE offset held by a queued matrix command, from the cycle after its acceptance. A store the command's issuer sent before it is what the
command waits for (R252), so it is not held. -/
def matrixHeld (d : Dev) (tile off size : Nat) (own : Option (Nat × Nat) := none) : Bool := (d.tile tile).holds.any fun h =>
  overlaps h.1 h.2.1 off size && !((d.tile tile).array.queue.any fun c => c.id = h.2.2.1 && c.acc = d.cycle) && !(match own with
    | some (loc, id) => loc = h.2.2.2 && id < h.2.2.1
    | none => false)
def keyHeld (d : Dev) (key size : Nat) (own : Option (Nat × Nat) := none) : Bool :=
  let u := key / 2 ^ 56
  4 ≤ u && u < 68 && matrixHeld d (u - 4) (key % 2 ^ 56) size own

/-! ## Performing a request -/

/-- R170: at package scope accesses to the host and to Amigaes peers are not waited for. -/
def exempt (d : Dev) (sc : Nat) (r : Req) : Bool := sc = 4 && !r.parts.isEmpty && r.parts.all fun p => match p.place with
  | some w => plTier w = 3 || (match target d r p with
    | .peer _ => true
    | _ => false)
  | none => false
/-- R145, R170, R185: what a release numbered `id` waits for: every older access of its thread, every older journal entry, and
the sibling stores its thread's loads took values from. `hard` when older refused entries count too. -/
def unreleased (d : Dev) (id loc sc : Nat) (hard : Bool) : Bool :=
  (d.reqs.any fun x => x.2.ord x.1 < id && x.2.loc = loc && mine d loc (x.2.ord x.1) && !exempt d sc x.2) ||
  ((ownEntries d loc).any fun e => e.2.ord < id && (hard || e.2.refused.isNone) && !(e.2.orig.any (exempt d sc))) ||
  (d.fwd.any fun f => f.1 = loc && journaled d f.2) ||
  -- the reads of a grammar query and of NCAS are loads of the thread (R240)
  (d.gramQ.any fun q => q.1 < id && q.2.loc = loc && mine d loc q.1) || (d.nameQ.any fun q => q.1 < id && q.2.loc = loc && mine d loc q.1 && q.2.kind = .cas)
def ROp.reserves (o : ROp) : Bool := o = .rsv || o = .scn
/-- R145: what holds a request back: an older access of its thread that is an acquire, or touches the same bytes through the
same window; what a release waits for; and an RSV or SCN, as a thread holds one reservation, an older one. A repost (R152) is ordered after every older access, but waits for
no refused entry. -/
def partsOverlap (a b : Part) : Bool := winCode a.va = winCode b.va && overlaps a.va.toNat a.size b.va.toNat b.size
/-- A journaled store that its target has not performed yet. -/
def JEntry.open_ (d : Dev) (e : JEntry) : Bool := e.refused.isNone && (d.reqs.get? e.req).any fun r => r.phase != .performed
/-- R183: a plain scalar load of the bytes a journaled store of a sibling slot writes, from the core whose journal holds it. -/
def JEntry.readBy (e : JEntry) (r : Req) : Bool := (match r.op, r.dst with
    | .ld _, .v _ | .ld _, .xa => false
    | .ld _, _ => true
    | _, _ => false) && e.loc != r.loc && e.kind = .st && e.core = r.core &&
  r.parts.any fun p => p.va = e.addr && p.size = e.size
/-- R183, R185: the sibling stores a thread has read that are not yet performed, in the order it last read them. -/
def readStores (d : Dev) (loc : Nat) : List JEntry :=
  (d.fwd.filter fun f => f.1 = loc).filterMap fun f => d.cores.findSome? fun c => (c.2.journal.find? fun e => e.2.req = f.2 && e.2.open_ d).map Prod.snd
/-- An older acquire of the thread has not been performed: no access of number `ord` is before it (R145). -/
def acquiring (d : Dev) (loc ord : Nat) : Bool := d.reqs.any fun x =>
  x.2.ord x.1 < ord && x.2.loc = loc && mine d loc (x.2.ord x.1) = mine d loc ord && x.2.phase != .performed && x.2.acq
/-- R240: bytes that a grammar query has still to store: the rest of a record; for GMV the rest of y, and PROGRESS. Until GMV has
read its block, its stores may go anywhere. -/
def GQuery.stores (q : GQuery) (p : Part) : Bool :=
  let at_ (a : D) (n : Nat) : Bool := winCode a = winCode p.va && overlaps a.toNat n p.va.toNat p.size
  match q.kind, q.out with
  | .new, _ | .scn, _ => at_ q.area 64
  | .mv, none => true
  | .mv, some (.rows out ys n _) => at_ (out + ofN (8 * n)) (8 * ys.length) || at_ (q.area + 32) 8
  | .mv, some (.tally ..) => at_ (q.area + 32) 8
  | _, _ => false
/-- A query that still reads may read any byte but a slice's, so a younger access to such bytes follows it. -/
def blocked (d : Dev) (id : Nat) (r : Req) : Bool :=
  let ord := r.ord id
  (d.reqs.any fun x => x.2.ord x.1 < ord && x.2.loc = r.loc && mine d r.loc (x.2.ord x.1) = mine d r.loc ord && x.2.phase != .performed &&
    (x.2.acq || (r.op.reserves && x.2.op.reserves) || r.parts.any fun p => x.2.parts.any (partsOverlap p))) ||
  (d.gramQ.any fun q => q.1 < ord && q.2.loc = r.loc && mine d r.loc q.1 = mine d r.loc ord && ((q.2.out.isNone && (needsWrite r.op || r.parts.any fun p => winCode p.va != 1)) || r.parts.any q.2.stores)) ||
  (d.nameQ.any fun q => q.1 < ord && q.2.loc = r.loc && mine d r.loc q.1 = mine d r.loc ord && q.2.kind = .cas && r.parts.any fun p => q.2.parts.any (partsOverlap p)) ||
  -- R183: no other access to the bytes of a sibling store that the thread has read, until that store is performed
  ((readStores d r.loc).any fun e => !e.readBy r && r.parts.any fun p => e.orig.any fun o => o.parts.any (partsOverlap p)) ||
  (r.rel && unreleased d ord r.loc r.sc true) || (r.again && unreleased d ord r.loc 5 false)
/-- R183, R185: what a plain load may take from its core's journal, and whether it may take memory's value instead. A store that
is still held back, a release among them (R145), is not there to be read. Reads never go backwards: after a sibling store has been
read, the load takes that one or a later one of the same slot to the same bytes. -/
def siblingStores (d : Dev) (r : Req) : List JEntry × Bool :=
  let all := ((d.core r.core).journal.filter fun e => e.2.readBy r && e.2.open_ d && !((d.reqs.get? e.2.req).any (blocked d e.2.req))).map Prod.snd
  match ((readStores d r.loc).filter (·.readBy r)).getLast? with
  | some f => (all.filter fun e => e.loc = f.loc && f.req ≤ e.req, false)
  | none => (all, true)
/-- R183: the thread has read a sibling's store, its latest. -/
def Dev.readStore (d : Dev) (loc req : Nat) : Dev := { d with fwd := (d.fwd.filter fun f => f != (loc, req) && journaled d f.2) ++ [(loc, req)] }
/-- The value a scalar load delivers (R144). -/
def loadValue (signed : Bool) (size x : Nat) : D :=
  if signed then match size with
    | 1 => (BitVec.ofNat 8 x).signExtend 64
    | 2 => (BitVec.ofNat 16 x).signExtend 64
    | 4 => (BitVec.ofNat 32 x).signExtend 64
    | _ => ofN x
  else ofN x
/-- The values of a load of many parts: VLD and XFIL by words in order, VGX by lanes over the old value. -/
def gather (m : Mem) (d : Dev) (old : Nat) (ps : List (Part × Nat)) : Nat :=
  ps.foldl (fun acc (p, k) =>
    let w := 8 * p.size
    acc - acc / 2 ^ (w * p.lane) % 2 ^ w * 2 ^ (w * p.lane) + rdN m d k p.size * 2 ^ (w * p.lane)) old
/-- A load or atomic is answered after `back` cycles. -/
def answer (d : Dev) (id : Nat) (r : Req) (vals : List (Dst × BitVec 6400)) : Dev :=
  ({ d with arrs := d.arrs.set id ⟨r.loc, vals, 0, false, none, r.posts, false⟩, reqs := d.reqs.set id { r with phase := .performed } }).post r.back
    .producerValueArrival [id]
/-- The registers a request's answer goes to: two for a status form and a 128-bit CAS (R160, R161). -/
def Req.dsts (r : Req) : List Dst := match r.dst with
  | .g x => if r.sf || (r.op = .cas && r.parts.any fun p => p.size = 16) then [.g x, .g (pairOf x)] else [.g x]
  | x => [x]
/-- The far end refuses: a store's entry is refused (R149), a load or atomic faults (R150). -/
def farRefuse (d : Dev) (id : Nat) (r : Req) (cause reason : Nat) (va : D) : Dev :=
  let d := { d with reqs := d.reqs.set id { r with phase := .performed } }
  match r.ent with
  | some e => d.post r.back .journalRefusal [r.core, e, reason]
  | none => ({ d with arrs := d.arrs.set id ⟨r.loc, r.dsts.map fun x => (x, 0), 0, false, some ⟨r.pc, cause, faultTval r va, reason, decide (r.dst = Dst.xa)⟩, r.posts, false⟩ }).post
      r.back .loadFaultArrival [id]
/-- R156: an access that its table does not allow is not performed: the master freezes and a violation record is kept. -/
def addViol (l : Vector Viol n) (v : Viol) : Vector Viol n :=
  match (List.range n).find? (fun i => !(l.toArray.getD i v).valid) with
  | some i => l.setIfInBounds i v
  | none => l.setIfInBounds (n - 1) { l.toArray.getD (n - 1) v with more := true }
def recordViol (d : Dev) (master : Nat) (at_ : Checker) (addr : D) (kind : Nat) : Dev :=
  let v : Viol := ⟨true, false, master, addr, kind⟩
  match at_ with
  | .vault t => d.updTile t fun x => { x with viols := addViol x.viols v }
  | .die k => d.updDie k fun x => { x with viols := addViol x.viols v }
  | .base s => d.updDie (s / 3) fun x =>
      let j := s % 3 * 8
      match (List.range 8).find? (fun i => !(x.baseViols.toArray.getD (j + i) v).valid) with
      | some i => { x with baseViols := x.baseViols.setIfInBounds (j + i) v }
      | none => { x with baseViols := x.baseViols.setIfInBounds (j + 7) { x.baseViols.toArray.getD (j + 7) v with more := true } }
def freeze (d : Dev) (ca : Nat) (at_ : Checker) (addr : D) (kind : Nat) : Dev :=
  recordViol (d.updCore ca fun c => { c with frozen := true }) (masterOf ca) at_ addr kind
/-- A master that is no core. -/
def freezeUnit (d : Dev) (master : Nat) (at_ : Checker) (addr : D) (kind : Nat) : Dev :=
  recordViol { d with frozenMs := if d.frozenMs.contains master then d.frozenMs else d.frozenMs ++ [master] } master at_ addr kind
def kindOfOp : ROp → Nat
  | .ld _ => 0
  | .st => 1
  | _ => 2
def denyReq (d : Dev) (id : Nat) (r : Req) (at_ : Checker) (addr : D) : Dev :=
  let d := freeze d r.core at_ addr (kindOfOp r.op)
  match r.ent with
  | some e => refuseEntry d r.core e 0x09
  | none =>
    { d with reqs := d.reqs.erase id }.updOwner r.loc id fun t => r.dsts.foldl (fun t x => t.unpend id x) t
/-- R142, R336: a page of a context that is not resident enters the die's page-request queue once, with the master that waits. -/
def pageRequest (d : Dev) (die master loc : Nat) (ctx va : D) (page : Nat) : Dev :=
  let w0 := ofN (va.toNat / page * page + sizeLvl page)
  let ca := coreOf loc
  let w1 := ofN (master + unitOf ca % 64 * 65536 + (if isCompute ca then idxOf ca / 4 * 2 ^ 24 else 2 ^ 28))
  d.updDie die fun x =>
    if x.pageQ.any (fun e => e.1 = w0 && e.2.2 = ctx) then x
    else if x.pageQ.length < 256 then { x with pageQ := x.pageQ ++ [(w0, w1, ctx)] } else { x with pageOvf := true }

/-- The full/empty condition a synchronising request waits for (R147). -/
def feReady (m : Mem) (d : Dev) (op : ROp) (key : Nat) : Bool := match op with
  | .ldt | .ldw => !feEmpty m d key
  | .ste => feEmpty m d key
  | _ => true
def g1 (r : Req) (x : Nat) : List (Dst × BitVec 6400) := [(r.dst, BitVec.ofNat 6400 x)]
/-- Status forms write the old value and a status to the next register (R161). -/
def withStatus (r : Req) (x st : Nat) : List (Dst × BitVec 6400) := match r.sf, r.dst with
  | true, .g n => [(.g n, BitVec.ofNat 6400 x), (.g (pairOf n), BitVec.ofNat 6400 st)]
  | _, _ => g1 r x
/-- R163: the thread's reservation moves to a word; a home with 64 drops its oldest. -/
def reserve (m : Mem) (d : Dev) (r : Resv) : Dev :=
  let d := { d with resvs := d.resvs.filter fun x => x.loc != r.loc }
  let atHome : List Resv := d.resvs.filter fun x => x.home = r.home
  let d := if 64 ≤ atHome.length then match atHome.head? with
      | some o => loseOne m d o
      | none => d
    else d
  { d with resvs := d.resvs ++ [r] }
/-- Perform a request whose parts stand at known keys. -/
def performAt (m : Mem) (d : Dev) (id : Nat) (r : Req) (ps : List (Part × Nat × Nat)) : Dev :=
  match ps with
  | [] => answer d id r (g1 r 0)
  | (p, key, home) :: _ =>
    let x := (r.opnds.headD 0).toNat % 2 ^ (8 * p.size)
    let old := rdN m d key p.size
    let acked (d : Dev) : Dev := match r.ent with
      | some e => ({ d with reqs := d.reqs.set id { r with phase := .performed } }).post r.back .journalAck [r.core, e]
      | none => { d with reqs := d.reqs.erase id }
    match r.op with
    | .ld signed => match r.dst with
      | .v n => answer d id r (g1 r (gather m d (((d.owner r.loc id).vr n).val.toNat % (if p.size = 1 then 2 ^ 512 else 2 ^ 1024)) (ps.map fun q => (q.1, q.2.1))))
      | .xa =>
        let n := gather m d 0 (ps.map fun q => (q.1, q.2.1))
        answer d id r [(.xa, BitVec.ofNat 6400 n), (.xflags, BitVec.ofNat 6400 (n / 2 ^ 6400 % 4))]
      | _ =>
        let (es, memory) := siblingStores d r
        if es.isEmpty then answer d id r (g1 r (loadValue signed p.size old).toNat)
        else
          let (b, d) := d.draw (es.length + b2n memory)
          match es[b]? with
          | some e => answer (d.readStore r.loc e.req) id r (g1 r (loadValue signed p.size (e.data.toNat % 2 ^ (8 * p.size))).toNat)
          | none => answer d id r (g1 r (loadValue signed p.size old).toNat)
    | .st => acked (ps.foldl (fun d q => writeBytes m d r.loc q.2.1 q.1.size q.1.data.toNat) d)
    | .ldt => answer (setFe d key true) id r (g1 r old)
    | .ldw => answer d id r (g1 r old)
    | .ste | .stf => acked (setFe (writeBytes m d r.loc key 8 p.data.toNat) key false)
    | .amo op => answer (writeBytes m d r.loc key p.size (amoOp op p.size old x)) id r (withStatus r old 0)
    | .red op => acked (writeBytes m d r.loc key p.size (amoOp op p.size old x))
    | .cas =>
      -- R160: the expected value is the whole register, also for size W
      let ex := (r.opnds.getD 0 0).toNat + (if p.size = 16 then (r.opnds.getD 1 0).toNat * 2 ^ 64 else 0)
      let nw := ((r.opnds.getD 2 0).toNat + (r.opnds.getD 3 0).toNat * 2 ^ 64) % 2 ^ (8 * p.size)
      let d := if old = ex then writeBytes m d r.loc key p.size nw else d
      match p.size, r.dst with
      | 16, .g n => answer d id r [(.g n, BitVec.ofNat 6400 (old % 2 ^ 64)), (.g (pairOf n), BitVec.ofNat 6400 (old / 2 ^ 64))]
      | _, _ => answer d id r (withStatus r old 0)
    | .rsv =>
      let v : Resv := ⟨r.loc, key, p.size, p.va, home⟩
      let d := reserve m d v
      -- R164: after two failures in a row at the address the home holds the word for this RSV
      let d := if (d.owner r.loc id).scnFails < 2 ∨ (d.owner r.loc id).scnAt ≠ p.va then d else ({ d with resvHold := d.resvHold.set id v }).post 256 .reservationHoldExpiry [id]
      answer d id r (g1 r old)
    | .scn =>
      let held := d.resvs.any fun v => v.loc = r.loc && v.key = key && v.size = p.size
      -- R164: the hold of the word ends with the thread's SCN
      let d := { d with resvs := d.resvs.filter (fun v => v.loc != r.loc), resvHold := d.resvHold.filter fun v => v.2.loc != r.loc }
      if held then
        answer ((writeBytes m d r.loc key p.size x).updOwner r.loc id fun t => { t with scnFails := 0 }) id r (g1 r 0)
      else
        answer (d.updOwner r.loc id fun t =>
          { t with scnFails := if r.opnds.getD 1 0 = 0 then 0 else if t.scnAt = p.va then t.scnFails + 1 else 1, scnAt := p.va }) id r (g1 r 1)

/-- The first part whose target satisfies a test. -/
def findT (l : List (Part × Target)) (f : Target → Option α) : Option (Part × α) := l.findSome? fun x => (f x.2).map fun a => (x.1, a)
/-- R340: the parts cover the whole 64-byte line of an expander that holds a key; such a store reads nothing of it (log 107). -/
def wholeLine (ks : List (Part × Nat × Nat)) (k : Nat) : Bool :=
  68 ≤ k / 2 ^ 56 && k / 2 ^ 56 < 76 && (List.range 8).all fun i => let a := k / 64 * 64 + 8 * i
    ks.any fun q => q.2.1 ≤ a && a + 8 ≤ q.2.1 + q.1.size
/-- R142, R149, R150, R340 to R342: the fault a target finds: its cause, its reason, and the uncorrectable word. -/
def farFault (m : Mem) (d : Dev) (r : Req) (ks : List (Part × Nat × Nat)) : Target → Option (Nat × Nat × Option Nat)
  | .refused c => some (0x0C, c, none)
  | .linkDown => some (0x0C, 0x0B, none)
  | .peer _ => (match r.op with
    | .ld _ | .st => none
    | _ => some (0x0C, 0x0B, none))
  | .byte k _ => if compKey (tileAt r.regions d) k then (match r.op with
      -- R135: no full/empty access, and no atomic, in a COMP region that the issue did not see (log 74)
      | .ld _ | .st => none
      | _ => some (0x0C, 0x1C, none))
    else if uncorrectable m d k && !(r.op = .st && wholeLine ks k) then some (0x0D, 0x0D, some k) else none
  | _ => none
/-- R154: an earlier request waits for the copy of a granule that this one reaches too. -/
def overtakes (d : Dev) (id : Nat) (r : Req) : Bool :=
  (d.lockWait.takeWhile (· != id)).any fun i => (d.reqs.get? i).any fun x => x.phase != .performed && rootOf (ctxOf d x.loc) = rootOf (ctxOf d r.loc) &&
    x.parts.any fun p => r.parts.any fun q => match p.place, q.place with
      | some w, some _ => p.page = q.page && p.page != 0 && p.va.toNat / p.page = q.va.toNat / q.page && granuleOf w (p.va.toNat % p.page) = granuleOf w (q.va.toNat % q.page)
      | _, _ => false
/-- A request is tried at its target (R142, R147, R149, R150, R154, R156): performed, refused, queued, or tried again. -/
def attempt (m : Mem) (d : Dev) (id : Nat) : Dev :=
  match d.reqs.get? id with
  | none => d
  | some r =>
    if r.phase = .performed then d else
    let again (d : Dev) : Dev := ({ d with reqs := d.reqs.set id { r with phase := .sent } }).post 1 .memoryRequestAtTarget [id]
    if blocked d id r then again d else
    let ts := r.parts.map fun p => (p, target d r p)
    match findT ts (fun t => match t with | .denied a x => some (a, x) | _ => none) with
    | some (_, a, x) => denyReq d id r a x
    | none =>
    match findT ts (fun t => match t with | .nonresident die => some die | _ => none) with
    | some (p, die) =>
      (pageRequest { d with reqs := d.reqs.set id { r with phase := .nonresident } } die (masterOf r.core) r.loc (rootOf (ctxOf d r.loc)) p.va p.page).post 16 .nonresidentRequestPerformed [id]
    | none =>
    -- R154: requests that wait at a locked granule, or at a stack that retrains, go on in the order they came
    if ts.any (fun x => x.2 = .wait) || overtakes d id r then again { d with lockWait := if d.lockWait.contains id then d.lockWait else d.lockWait ++ [id] } else
    let d := { d with lockWait := d.lockWait.erase id }
    let ks := ts.filterMap fun x => match x.2 with | .byte k h => some (x.1, k, h) | _ => none
    match findT ts (farFault m d r ks) with
    | some (p, cause, reason, k) =>
      let d := match k with
        | some k => if r.ent.isSome then d else pushFault d (keyDie k) (ofN (keyPhys k)) (if 68 ≤ k / 2 ^ 56 then 5 else 1) (masterOf r.core)
        | none => d
      farRefuse d id r cause reason p.va
    | none =>
    -- R135, R278: the conversion engine serves an access to a COMP region
    if comp d r then ({ d with reqs := d.reqs.set id { r with phase := .waiting } }).post 0 .compChunkAccess [id] else
    let d := ks.foldl (fun d q => if uncorrectable m d q.2.1 then wrB d (errKey q.2.1) 0 else d) d
    let d := ks.foldl (fun d q => correctErr m d r.loc q.2.1) d
    -- host atomics the completer does not perform (R161, R162)
    let completer := match ks, r.op with
      | (_, k, _) :: _, .amo _ | (_, k, _) :: _, .cas | (_, k, _) :: _, .red _ => if k / 2 ^ 56 = 76 then d.hostAtomics.getD (k % 2 ^ 56 / 65536) 0 else 0
      | _, _ => 0
    if completer != 0 then
      let p := r.parts.headD ⟨0, 0, 0, 0, none, 0, 0⟩
      if completer = 3 then
        let (x, d) := d.draw 1000000
        d.post x .hostCompletionTimeout [id]
      else if r.sf then answer d id r (withStatus r 0 completer)
      else match r.ent with
        | some _ => farRefuse d id r 0x0B 0x0B p.va
        | none => farRefuse d id r 0x19 completer p.va
    else if ks.any (fun q => writesWord r.op && (heldForOther d r.loc q.2.1 q.1.size || keyHeld d q.2.1 q.1.size (some (r.loc, r.ord id)))) then
      -- the word is held for another thread's RSV, or by a matrix command
      if ks.any (fun q => keyHeld d q.2.1 q.1.size (some (r.loc, r.ord id))) then { d with reqs := d.reqs.set id { r with phase := .waiting } } else again d
    else if ks.any (fun q => !feReady m d r.op q.2.1) then
      { d with reqs := d.reqs.set id { r with phase := .waiting }, feWait := if d.feWait.contains id then d.feWait else d.feWait ++ [id] }
    else
      match findT ts (fun t => match t with | .span .. | .peer _ => some () | _ => none) with
      | some _ =>
        -- a register of the control span, or a peer's memory, is read or written by a step of its own (chapter 19)
        let d := { d with reqs := d.reqs.set id { r with phase := .performed } }
        d.post 0 .controlRegisterWrite [id]
      | none =>
        let (h, d) := r.parts.foldl (fun (h, d) p => let (x, d) := hopDelay d (rootOf (ctxOf d r.loc)) p; (max h x, d)) (0, d)
        performAt m { d with feWait := d.feWait.filter fun x => x != id } id { r with back := r.back + h } ks
/-- R147: requests waiting for a word's state are served in the order they arrived, until none can proceed. -/
def serveWaiters (m : Mem) : Nat → Dev → Dev
  | 0, d => d
  | n + 1, d =>
    match d.feWait.find? (fun id => match d.reqs.get? id with
      | some r => (match r.parts.map (target d r) with
        | .byte k _ :: _ => feReady m d r.op k
        | _ => false)
      | none => false) with
    | some id => serveWaiters m n (attempt m { d with feWait := d.feWait.filter fun x => x != id } id)
    | none => d
def tryReq (m : Mem) (d : Dev) (id : Nat) : Dev :=
  let d := attempt m d id
  serveWaiters m d.feWait.length d

/-! ## Issuing -/

/-- Create a request; it reaches its target half-way through its latency. A load's destination pends on it. -/
def sendReq (d : Dev) (r : Req) (lat : Option Nat := none) : Nat × Dev :=
  let (id, d) := d.newId
  let (n, d) := match lat with
    | some n => (n, d)
    | none => reqLatency d r.core (match r.dst with | .v _ | .xa => true | _ => r.parts.length > 1) r.parts
  let r := { r with back := n - n / 2, phase := .sent, sentAt := d.cycle }
  let d := d.updThread r.loc fun t => r.dsts.foldl (fun t x => t.pend x id) t
  (id, ({ d with reqs := d.reqs.set id r }).post (n / 2) .memoryRequestAtTarget [id])
/-- The request of the thread whose turn it is. -/
def newReq (d : Dev) (op : ROp) (sc : Nat) (parts : List Part) (dst : Dst) : Req :=
  let t := d.thread d.cur
  let acq := sc != 0 && (match op with | .ld _ | .ldt | .ldw | .amo _ | .cas | .rsv => true | _ => false)
  let rel := sc != 0 && (match op with | .st | .ste | .stf | .amo _ | .red _ | .cas | .scn => true | _ => false)
  { loc := d.cur, core := t.at d.cur, pc := t.pc, op := op, sc := sc, acq := acq, rel := rel, parts := parts, dst := dst, sf := false,
    opnds := [], ent := none, user := !t.priv, phase := .sent, back := 0, posts := [], again := false, query := none, regions := [], sentAt := d.cycle }
/-- A store takes a journal entry of the core it issues from, a migrated thread's of the channel core (R167); with none free the
turn is lost. -/
def journal (d : Dev) (r : Req) (kind : JKind) (addr addrHi data : D) (size : Nat) : Option Dev :=
  match freeEntry (d.core r.core) with
  | none => none
  | some e =>
    let (id, d) := sendReq d { r with ent := some e }
    let j : JEntry :=
        { loc := r.loc, core := r.core, kind := kind, size := size, sc := r.sc, addr := addr, addrHi := addrHi, data := data, pc := r.pc,
          req := id, refused := none, taken := false, placed := false, orig := some r, msg := [], again := false }
    some (d.updCore r.core fun c => { c with journal := c.journal.set e j })
def journalM (r : Req) (kind : JKind) (addr data : D) (size : Nat) : M Unit := fun _ d =>
  match journal d r kind addr 0 data size with
  | some d => .ok ((), d)
  | none => .error .lose
/-- R148: whether a plain store to the own tile's vault is performed at issue: no entry is refused it, it is no release with
older accesses, no granule is held, and no older access of the thread stands in its way (R145). -/
def storeNow (m : Mem) (d : Dev) (r : Req) (tile off size : Nat) : Bool :=
  tile = unitOf r.core && kindOf r.core != 2 && regionAttr (tileAt r.regions d tile) off != 2 && !blocked d d.nextId r && !matrixHeld d tile off size &&
  !heldForOther d r.loc (vaultKey tile off) size && !uncorrectable m d (vaultKey tile off) && grants ((d.tile tile).access.getD (masterOf r.core) 0) 0 true
/-- R240: a store of a query is sent: into the own vault at once (R148), else through a journal entry, which it waits for. -/
def queryStore (m : Mem) (d : Dev) (qid loc core : Nat) (pc : D) (user : Bool) (regions : List (Nat × Vector D 16 × Vector D 16)) (p : Part) : Option Dev :=
  let r := { newReq { d with cur := loc } .st 0 [p] .none with core := core, pc := pc, user := user, query := some qid, regions := regions }
  match (if p.place.isNone then vaultLoc core p.va else none) with
  | some (t, o) => if storeNow m d r t o p.size then some (writeBytes m d loc (vaultKey t o) p.size p.data.toNat) else journal d r .st p.va 0 p.data p.size
  | none => journal d r .st p.va 0 p.data p.size
/-- A store of the query is in flight. -/
def queryStoring (d : Dev) (qid loc : Nat) : Bool := (slotEntries d loc).any fun e => e.2.orig.any fun r => r.query = some qid
/-- A store of the query has been refused. -/
def queryFailed (d : Dev) (qid : Nat) : Bool := (d.arrs.get? qid).any fun a => a.fault.isSome
/-- The parts of a list of addresses, each with its own reach. -/
def mkPart (va : D) (size lane : Nat) (data : D) (x : Reach) : Part := ⟨va, size, lane, data, x.place, x.pageSize, x.rights⟩

/-- R167, R146: the scalar context leaves for the channel core of a home, if the thread has no pending g register. -/
def gPending (t : Thread) : Bool := (t.g.toList ++ t.sh.toList).any fun r => match r.prod with | .pend _ => true | _ => false
/-- R167: a migration costs a load to the home and 8 cycles. -/
def migrateCost (d : Dev) (src ch : Nat) : Nat × Dev :=
  let (lo, ex) := if 96 ≤ ch then (600, 351) else if chanDie ch = dieOf src then (180, 81) else (260, 121)
  let (n, d) := d.draw ex
  (lo + n + 8, d)
def migrateTo (d : Dev) (loc ch : Nat) : Dev :=
  let (n, d) := migrateCost d ((d.thread loc).at loc) ch
  let d := dropResv d loc
  let d := d.updThread loc fun t => { t with mig := some (mkCore ch 0 2, none), st := .parked, wait := .context, limit := none }
  d.post n .contextMigrationArrival [loc]

/-- R308, R310: the kinds of records; an outstanding record is issued again as its load was. -/
def recordReg (o : ORec) : Dst := if fieldN o.w2 59 58 = 1 then .v (BitVec.ofNat 5 (fieldN o.w2 57 53)) else .g (BitVec.ofNat 5 (fieldN o.w2 57 53))
def recordOp (o : ORec) : ROp := match fieldN o.w2 63 60 with
  | 1 => .ld false
  | 2 => .ldt
  | 3 => .ldw
  | _ => .ld true
/-- R150, R308: a record of a load's fault holds the load's address, from which TVAL is made again; of another fault, TVAL. -/
def recordTval (o : ORec) : D :=
  let c := fieldN o.w2 47 40
  if c = 0x0C ∨ c = 0x0D then
    let w := winCode o.addr
    let base := match w with
      | 1 => sliceBase
      | 2 => tileBase
      | 3 => dieBase
      | _ => 0
    ofN ((o.addr.toNat - base) % 2 ^ 56 + fieldN o.w2 57 53 * 2 ^ 56 + fieldN o.w2 59 58 % 2 * 2 ^ 61 + w % 4 * 2 ^ 62)
  else o.addr
/-- The address that the TVAL of a load's fault names. -/
def tvalAddr (x : D) : D :=
  let base := match fieldN x 63 62 with
    | 0 => 0
    | 1 => sliceBase
    | 2 => tileBase
    | _ => dieBase
  ofN (base + fieldN x 55 0)
/-- A register that waits for a record: EMPTY with nothing behind it. -/
def Reg.bare {w} (x : Reg w) : Bool := x.st = .empty && x.prod = .none
/-- A record does not say which of two registers of one number it is for: the thread's own where that one is saved EMPTY, else the
shadow, where that one is (log 33). The thread with the bank of the record's register in view. -/
def Thread.banked (t : Thread) (r : BitVec 5) : Thread :=
  if r.toNat < 26 then t
  else if (t.g.toArray.getD r.toNat (.ofVal 0)).bare then { t with own := true }
  else if (t.sh.toArray.getD (r.toNat - 26) (.ofVal 0)).bare then { t with own := false, uis := setField t.uis 1 1 1 }
  else t
/-- The bank in view is the thread's again. -/
def Thread.unbanked (t u : Thread) : Thread := { t with own := u.own, uis := u.uis }
def reissueOne (m : Mem) (d : Dev) (loc : Nat) (o : ORec) : Dev :=
  if fieldN o.w2 63 60 = 8 then
    -- a pending fault is re-armed (R313)
    let (id, d) := d.newId
    d.updThread loc fun t =>
      let t := { t with faults := t.faults.set id ⟨o.pc, fieldN o.w2 47 40, recordTval o, fieldN o.w3 63 56, decide (fieldN o.w2 59 58 = 3)⟩ }
      if fieldN o.w2 59 58 = 3 then t else
      match recordReg o with
      | .g r => let b := t.banked r
        (b.setGr r ⟨(b.gr r).val, .empty, .fault id⟩).unbanked t
      | .v r => t.setVr r ⟨(t.vr r).val, .empty, .fault id⟩
      | _ => t
  else
    let size := 2 ^ fieldN o.w2 52 51
    let vec := fieldN o.w2 63 60 = 4
    let n := if vec then 16 else 1
    let size := if vec then 8 else size
    let xs := (List.range n).map fun i => (i, o.addr + ofN (size * i))
    let parts := xs.map fun (i, a) => match (if winCode a = 0 then some (firstStage m d (rootOf (ctxOf d loc)) a.toNat 0 (!(d.thread loc).priv)) else none) with
      | some (.leaf p w l) => (⟨a, size, i, 0, some p, leafSize l, w⟩ : Part)
      | _ => ⟨a, size, i, 0, none, 0, 0⟩
    let r := { newReq { d with cur := loc } (recordOp o) (fieldN o.w2 50 48) parts (recordReg o) with pc := o.pc }
    let t := d.thread loc
    let view := match recordReg o with
      | .g r => t.banked r
      | _ => t
    let d' := (sendReq ({ d with cur := loc }.setThread loc view) r).2
    { d'.updThread loc (fun u => u.unbanked t) with cur := d.cur }
/-- R38: the record of an ABSENT register that comes back EMPTY is issued again. -/
def reissue (m : Mem) (d : Dev) (loc file n : Nat) : Dev :=
  let dst : Dst := if file = 1 then .v (BitVec.ofNat 5 n) else .g (BitVec.ofNat 5 n)
  match (d.thread loc).records.find? (fun o => recordReg o = dst) with
  | some o => reissueOne m (d.updThread loc fun t => { t with records := t.records.erase o }) loc o
  | none => d

/-! ## Running one instruction -/

/-- Interpret how an instruction ended. -/
def finish (m : Mem) (d0 : Dev) : Except Stop (Unit × Dev) → State
  | .ok ((), d) => commit m d
  | .error .lose => commit m { d0 with last := .lost }
  | .error .starve => commit m { d0 with last := .starved }
  | .error (.trap code cls val aux tpc) => commit m (takeTrap d0 d0.cur code cls val aux (tpc.getD (d0.thread d0.cur).pc))
  | .error (.fault id) => commit m { takeDeferred d0 d0.cur id with last := .deferred }
  | .error (.miss file n) => commit m { fetchAbsent (fun m d loc => reissue m d loc file n) m d0 file n with last := .lost }
  | .error (.walk va kind) => commit m { startWalk m d0 d0.cur va kind with last := .lost }
  | .error (.migrate ch) => commit m { migrateTo d0 d0.cur ch with last := .lost }
  | .error .pageFault =>
    -- R142, R168: the slot enters FAULTED at this instruction; a migrated context comes home first
    let d1 := if (d0.thread d0.cur).mig.isSome then dropResv d0 d0.cur else d0
    commit m { d1.updThread d0.cur (fun t => { t.goHome with st := .faulted }) with last := .lost }

/-- The machine as an instruction of the thread at `cur` finds it. -/
def State.start (s : State) : Dev := { s.dev with wbuf := [], wclear := [], last := .issued }
/-- Execute an instruction for the thread whose turn it is: the checks, then its effect. -/
def State.run (i : Instr) (sh : Shape) (body : M Unit) (s : State) : Out :=
  if (s.dev.thread s.dev.cur).st = .vacant then .fault .noThread
  else .next (finish s.mem s.start ((check i sh >>= fun _ => body) s.mem s.start))
/-- A step that is not an instruction: it always completes. -/
def State.event (f : Mem → Dev → Dev) (s : State) : Out := .next (commit s.mem (f s.mem { s.dev with wbuf := [], wclear := [] }))
/-- Operand `k` of the step being taken. -/
def Dev.arg (d : Dev) (k : Nat) : Nat := d.args.getD k 0

end Sys2Proof.Machine
end

