-- ==== Sys2Proof/Machine/Alu.lean ====
section
/-! DEFINITION. Integer instructions: the ALU class (R83 to R86), the immediates (R87 to R91), branches and jumps (R92 to
R95). -/
namespace Sys2Proof.Machine

/-- Two sources and a short destination. -/
def shRR (d a b : BitVec 5) (m n : Bool) : Shape := { srcs := [.g a m, .g b n], dst := some d }
def shR (d a : BitVec 5) (m : Bool) : Shape := { srcs := [.g a m], dst := some d }
/-- Sources a and b, and d as a source that always blocks. -/
def shRRD (d a b : BitVec 5) (m n : Bool) : Shape := { srcs := [.g a m, .g b n, .g d false], dst := some d }
def shRD (d a : BitVec 5) (m : Bool) : Shape := { srcs := [.g a m, .g d false], dst := some d }

/-- d := f a b; all sources are read before d is written (R83). -/
def aluRR (f : D → D → D) (d a b : BitVec 5) : M Unit := do
  let x ← gv a
  let y ← gv b
  wg d (f x y)
  adv
def aluR (f : D → D) (d a : BitVec 5) : M Unit := do
  let x ← gv a
  wg d (f x)
  adv
/-- d := f a b d. -/
def aluRRD (f : D → D → D → D) (d a b : BitVec 5) : M Unit := do
  let x ← gv a
  let y ← gv b
  let z ← gv d
  wg d (f x y z)
  adv
def aluRD (f : D → D → D) (d a : BitVec 5) : M Unit := do
  let x ← gv a
  let z ← gv d
  wg d (f x z)
  adv

/-! ## R84: the results -/

def mulhS (x y : D) : D := ((x.signExtend 128 * y.signExtend 128) >>> 64).setWidth 64
def mulhU (x y : D) : D := ((x.setWidth 128 * y.setWidth 128) >>> 64).setWidth 64
/-- R85: division truncates toward zero; by zero it gives all ones and the dividend. -/
def divS (x y : D) : D := if y = 0 then BitVec.allOnes 64 else x.sdiv y
def divU (x y : D) : D := if y = 0 then BitVec.allOnes 64 else x / y
def remS (x y : D) : D := if y = 0 then x else x.srem y
def remU (x y : D) : D := if y = 0 then x else x % y
/-- A shift amount is b[5:0]. -/
def amt (y : D) : Nat := y.toNat % 64
def shlD (x y : D) : D := x <<< amt y
def shrD (x y : D) : D := x >>> amt y
def sarD (x y : D) : D := x.sshiftRight (amt y)
def rolD (x y : D) : D := x.rotateLeft (amt y)
def rorD (x y : D) : D := x.rotateRight (amt y)
def minS (x y : D) : D := if x.slt y then x else y
def maxS (x y : D) : D := if x.slt y then y else x
def minU (x y : D) : D := if x.ult y then x else y
def maxU (x y : D) : D := if x.ult y then y else x
def flag (b : Bool) : D := if b then 1 else 0
def selD (x y z : D) : D := if z ≠ 0 then x else y
def shaddD (k : Nat) (x y : D) : D := (x <<< k) + y
/-- Bit i of a 64-bit value. -/
def bitsOf (x : D) : List Bool := (List.range 64).map fun i => x.getLsbD i
def ctzD (x : D) : D := ofN (((bitsOf x).findIdx? id).getD 64)
def clzD (x : D) : D := ofN (((bitsOf x).reverse.findIdx? id).getD 64)
def popcD (x : D) : D := ofN ((bitsOf x).count true)
def ofBits (l : List Bool) : D := l.foldr (fun b n => (n <<< 1) ||| flag b) 0
def brevD (x : D) : D := ofBits (bitsOf x).reverse
def bswpD (x : D) : D := (List.range 8).foldl (fun acc i => acc ||| (((x >>> (8 * i)) &&& 0xFF) <<< (56 - 8 * i))) 0

/-- R84. -/
def execAdd (d a b : BitVec 5) (m n : Bool) (s : State) : Out := s.run (.add d a b m n) (shRR d a b m n) (aluRR (· + ·) d a b)
/-- R84. -/
def execSub (d a b : BitVec 5) (m n : Bool) (s : State) : Out := s.run (.sub d a b m n) (shRR d a b m n) (aluRR (· - ·) d a b)
/-- R84. -/
def execMul (d a b : BitVec 5) (m n : Bool) (s : State) : Out := s.run (.mul d a b m n) (shRR d a b m n) (aluRR (· * ·) d a b)
/-- R84. -/
def execMulh (d a b : BitVec 5) (m n : Bool) (s : State) : Out := s.run (.mulh d a b m n) (shRR d a b m n) (aluRR mulhS d a b)
/-- R84. -/
def execMulhn (d a b : BitVec 5) (m n : Bool) (s : State) : Out := s.run (.mulhn d a b m n) (shRR d a b m n) (aluRR mulhU d a b)
/-- R84. -/
def execAnd (d a b : BitVec 5) (m n : Bool) (s : State) : Out := s.run (.and d a b m n) (shRR d a b m n) (aluRR (· &&& ·) d a b)
/-- R84. -/
def execOr (d a b : BitVec 5) (m n : Bool) (s : State) : Out := s.run (.or d a b m n) (shRR d a b m n) (aluRR (· ||| ·) d a b)
/-- R84. -/
def execXor (d a b : BitVec 5) (m n : Bool) (s : State) : Out := s.run (.xor d a b m n) (shRR d a b m n) (aluRR (· ^^^ ·) d a b)
/-- R84. -/
def execAndn (d a b : BitVec 5) (m n : Bool) (s : State) : Out := s.run (.andn d a b m n) (shRR d a b m n) (aluRR (fun x y => x &&& ~~~y) d a b)
/-- R84. -/
def execOrn (d a b : BitVec 5) (m n : Bool) (s : State) : Out := s.run (.orn d a b m n) (shRR d a b m n) (aluRR (fun x y => x ||| ~~~y) d a b)
/-- R84. -/
def execShl (d a b : BitVec 5) (m n : Bool) (s : State) : Out := s.run (.shl d a b m n) (shRR d a b m n) (aluRR shlD d a b)
/-- R84. -/
def execShrl (d a b : BitVec 5) (m n : Bool) (s : State) : Out := s.run (.shrl d a b m n) (shRR d a b m n) (aluRR shrD d a b)
/-- R84. -/
def execShra (d a b : BitVec 5) (m n : Bool) (s : State) : Out := s.run (.shra d a b m n) (shRR d a b m n) (aluRR sarD d a b)
/-- R84. -/
def execRotl (d a b : BitVec 5) (m n : Bool) (s : State) : Out := s.run (.rotl d a b m n) (shRR d a b m n) (aluRR rolD d a b)
/-- R84. -/
def execRotr (d a b : BitVec 5) (m n : Bool) (s : State) : Out := s.run (.rotr d a b m n) (shRR d a b m n) (aluRR rorD d a b)
/-- R84. -/
def execMin (d a b : BitVec 5) (m n : Bool) (s : State) : Out := s.run (.min d a b m n) (shRR d a b m n) (aluRR minS d a b)
/-- R84. -/
def execMax (d a b : BitVec 5) (m n : Bool) (s : State) : Out := s.run (.max d a b m n) (shRR d a b m n) (aluRR maxS d a b)
/-- R84. -/
def execMinn (d a b : BitVec 5) (m n : Bool) (s : State) : Out := s.run (.minn d a b m n) (shRR d a b m n) (aluRR minU d a b)
/-- R84. -/
def execMaxn (d a b : BitVec 5) (m n : Bool) (s : State) : Out := s.run (.maxn d a b m n) (shRR d a b m n) (aluRR maxU d a b)
/-- R84. -/
def execSlt (d a b : BitVec 5) (m n : Bool) (s : State) : Out := s.run (.slt d a b m n) (shRR d a b m n) (aluRR (fun x y => flag (x.slt y)) d a b)
/-- R84. -/
def execSltn (d a b : BitVec 5) (m n : Bool) (s : State) : Out := s.run (.sltn d a b m n) (shRR d a b m n) (aluRR (fun x y => flag (x.ult y)) d a b)
/-- R84. -/
def execSeq (d a b : BitVec 5) (m n : Bool) (s : State) : Out := s.run (.seq d a b m n) (shRR d a b m n) (aluRR (fun x y => flag (x == y)) d a b)
/-- R84. -/
def execSne (d a b : BitVec 5) (m n : Bool) (s : State) : Out := s.run (.sne d a b m n) (shRR d a b m n) (aluRR (fun x y => flag (x != y)) d a b)
/-- R84, R86. -/
def execSel (d a b : BitVec 5) (m n : Bool) (s : State) : Out := s.run (.sel d a b m n) (shRRD d a b m n) (aluRRD selD d a b)
/-- R84. -/
def execShadd (d a b : BitVec 5) (m n : Bool) (k : BitVec 2) (s : State) : Out :=
  s.run (.shadd d a b m n k) (shRR d a b m n) (aluRR (shaddD k.toNat) d a b)
/-- R84. -/
def execClz (d a : BitVec 5) (m : Bool) (s : State) : Out := s.run (.clz d a m) (shR d a m) (aluR clzD d a)
/-- R84. -/
def execCtz (d a : BitVec 5) (m : Bool) (s : State) : Out := s.run (.ctz d a m) (shR d a m) (aluR ctzD d a)
/-- R84. -/
def execPopc (d a : BitVec 5) (m : Bool) (s : State) : Out := s.run (.popc d a m) (shR d a m) (aluR popcD d a)
/-- R84. -/
def execBrev (d a : BitVec 5) (m : Bool) (s : State) : Out := s.run (.brev d a m) (shR d a m) (aluR brevD d a)
/-- R84. -/
def execBswp (d a : BitVec 5) (m : Bool) (s : State) : Out := s.run (.bswp d a m) (shR d a m) (aluR bswpD d a)

/-! ## The divide unit (R81, R82, R85) -/

/-- The unit starts at most one operation every 8 cycles; otherwise the turn is lost. -/
def startDivide : M Unit := fun _ d =>
  let ca := (d.thread d.cur).at d.cur
  match (d.core ca).divLast with
  | some c => if d.cycle < c + 8 then .error .lose else .ok ((), d.updCore ca fun x => { x with divLast := some d.cycle })
  | none => .ok ((), d.updCore ca fun x => { x with divLast := some d.cycle })
def shDiv (d a b : BitVec 5) (m n : Bool) : Shape := { srcs := [.g a m, .g b n], long := [d] }
/-- d is EMPTY until the result arrives 32 cycles after issue. -/
def divRR (f : D → D → D) (d a b : BitVec 5) : M Unit := do
  startDivide
  let x ← gv a
  let y ← gv b
  longG 32 d (f x y)
  adv

/-- R85. -/
def execDiv (d a b : BitVec 5) (m n : Bool) (s : State) : Out := s.run (.div d a b m n) (shDiv d a b m n) (divRR divS d a b)
/-- R85. -/
def execDivn (d a b : BitVec 5) (m n : Bool) (s : State) : Out := s.run (.divn d a b m n) (shDiv d a b m n) (divRR divU d a b)
/-- R85. -/
def execRem (d a b : BitVec 5) (m n : Bool) (s : State) : Out := s.run (.rem d a b m n) (shDiv d a b m n) (divRR remS d a b)
/-- R85. -/
def execRemn (d a b : BitVec 5) (m n : Bool) (s : State) : Out := s.run (.remn d a b m n) (shDiv d a b m n) (divRR remU d a b)

/-! ## Immediates (R87 to R91) -/

/-- R87. -/
def execAddi (d a : BitVec 5) (m : Bool) (i : BitVec 15) (s : State) : Out :=
  s.run (.addi d a m i) (shR d a m) (aluR (fun x => x + i.signExtend 64) d a)
/-- R87. -/
def execAndi (d a : BitVec 5) (m : Bool) (i : BitVec 15) (s : State) : Out :=
  s.run (.andi d a m i) (shR d a m) (aluR (fun x => x &&& i.signExtend 64) d a)
/-- R87. -/
def execOri (d a : BitVec 5) (m : Bool) (i : BitVec 15) (s : State) : Out :=
  s.run (.ori d a m i) (shR d a m) (aluR (fun x => x ||| i.signExtend 64) d a)
/-- R87. -/
def execXori (d a : BitVec 5) (m : Bool) (i : BitVec 15) (s : State) : Out :=
  s.run (.xori d a m i) (shR d a m) (aluR (fun x => x ^^^ i.signExtend 64) d a)
/-- R87. -/
def execSlti (d a : BitVec 5) (m : Bool) (i : BitVec 15) (s : State) : Out :=
  s.run (.slti d a m i) (shR d a m) (aluR (fun x => flag (x.slt (i.signExtend 64))) d a)
/-- R87. -/
def execSeqi (d a : BitVec 5) (m : Bool) (i : BitVec 15) (s : State) : Out :=
  s.run (.seqi d a m i) (shR d a m) (aluR (fun x => flag (x == i.signExtend 64)) d a)
/-- R88. -/
def execShli (d a : BitVec 5) (m : Bool) (k : BitVec 6) (s : State) : Out :=
  s.run (.shli d a m k) (shR d a m) (aluR (fun x => shlD x (k.setWidth 64)) d a)
/-- R88. -/
def execShrli (d a : BitVec 5) (m : Bool) (k : BitVec 6) (s : State) : Out :=
  s.run (.shrli d a m k) (shR d a m) (aluR (fun x => shrD x (k.setWidth 64)) d a)
/-- R88. -/
def execShrai (d a : BitVec 5) (m : Bool) (k : BitVec 6) (s : State) : Out :=
  s.run (.shrai d a m k) (shR d a m) (aluR (fun x => sarD x (k.setWidth 64)) d a)
/-- R88. -/
def execRotli (d a : BitVec 5) (m : Bool) (k : BitVec 6) (s : State) : Out :=
  s.run (.rotli d a m k) (shR d a m) (aluR (fun x => rolD x (k.setWidth 64)) d a)
/-- R89. -/
def execLi (d : BitVec 5) (i : BitVec 21) (s : State) : Out := s.run (.li d i) { dst := some d } (do wg d (i.signExtend 64); adv)
/-- R90: replace halfword `h` of d. -/
def setHalf (x : D) (h : BitVec 2) (v : BitVec 16) : D := setField x (16 * h.toNat + 15) (16 * h.toNat) v.toNat
def execLih (d : BitVec 5) (h : BitVec 2) (v : BitVec 16) (s : State) : Out :=
  s.run (.lih d h v) { srcs := [.g d false], dst := some d } (do let x ← gv d; wg d (setHalf x h v); adv)
/-- R91: the field of `w + 1` bits at position `p`. -/
def bfZ (p : BitVec 6) (w : BitVec 6) (x : D) : D := ofN (fieldN x (p.toNat + w.toNat) p.toNat)
def bfS (p : BitVec 6) (w : BitVec 6) (x : D) : D := ((BitVec.ofNat (w.toNat + 1) (bfZ p w x).toNat).signExtend 64)
def bfIns (p : BitVec 6) (w : BitVec 6) (x z : D) : D := setField z (p.toNat + w.toNat) p.toNat x.toNat
def execExts (d a : BitVec 5) (m : Bool) (p w : BitVec 6) (s : State) : Out := s.run (.exts d a m p w) (shR d a m) (aluR (bfS p w) d a)
/-- R91. -/
def execExtz (d a : BitVec 5) (m : Bool) (p w : BitVec 6) (s : State) : Out := s.run (.extz d a m p w) (shR d a m) (aluR (bfZ p w) d a)
/-- R91: INS reads d, which blocks. -/
def execIns (d a : BitVec 5) (m : Bool) (p w : BitVec 6) (s : State) : Out := s.run (.ins d a m p w) (shRD d a m) (aluRD (bfIns p w) d a)

/-! ## Branches and jumps (R92 to R95) -/

/-- PC := the instruction's address + `off`, or the next instruction. -/
def branchTo (taken : Bool) (off : D) : M Unit := modMe fun t => { t with pc := t.pc + (if taken then off else 4) }
/-- A signed word offset in bytes. -/
def wordOff (o : BitVec n) : D := (o.signExtend 64) <<< 2
def shB (a b : BitVec 5) (m : Bool) : Shape := { srcs := [.g a m, .g b m] }
def branch (f : D → D → Bool) (a b : BitVec 5) (o : BitVec 15) : M Unit := do
  let x ← gv a
  let y ← gv b
  branchTo (f x y) (wordOff o)

/-- R92. -/
def execBeq (a b : BitVec 5) (m : Bool) (o : BitVec 15) (s : State) : Out := s.run (.beq a b m o) (shB a b m) (branch (· == ·) a b o)
/-- R92. -/
def execBne (a b : BitVec 5) (m : Bool) (o : BitVec 15) (s : State) : Out := s.run (.bne a b m o) (shB a b m) (branch (· != ·) a b o)
/-- R92. -/
def execBlt (a b : BitVec 5) (m : Bool) (o : BitVec 15) (s : State) : Out := s.run (.blt a b m o) (shB a b m) (branch BitVec.slt a b o)
/-- R92. -/
def execBge (a b : BitVec 5) (m : Bool) (o : BitVec 15) (s : State) : Out := s.run (.bge a b m o) (shB a b m) (branch (fun x y => !x.slt y) a b o)
/-- R92. -/
def execBltn (a b : BitVec 5) (m : Bool) (o : BitVec 15) (s : State) : Out := s.run (.bltn a b m o) (shB a b m) (branch BitVec.ult a b o)
/-- R92. -/
def execBgen (a b : BitVec 5) (m : Bool) (o : BitVec 15) (s : State) : Out := s.run (.bgen a b m o) (shB a b m) (branch (fun x y => !x.ult y) a b o)
/-- R93: g31 := the next address; PC := the target. -/
def execJal (o : BitVec 26) (s : State) : Out := s.run (.jal o) { dst := some 31 } (do
  let t ← me
  wg 31 (t.pc + 4)
  branchTo true (wordOff o))
/-- R94, R39: the target is read before d is written; a target that is no multiple of 4 traps with d unchanged. -/
def jumpReg (d a : BitVec 5) (i : BitVec 15) : M Unit := do
  let x ← gv a
  let target := x + i.signExtend 64
  if target.toNat % 4 ≠ 0 then trap 0x05 target 0
  else do
    let t ← me
    wg d (t.pc + 4)
    modMe fun t => { t with pc := target }
def execJalr (d a : BitVec 5) (m : Bool) (i : BitVec 15) (s : State) : Out := s.run (.jalr d a m i) (shR d a m) (jumpReg d a i)
/-- The state of the register a BEMP or SETF names: files 0 g, 1 v, 2 p; a queue register counts as FULL when its queue holds
an entry (R95). A steward and a channel core hold the states of a v file as a compute core does (log 141). -/
def regState (d : Dev) (f : BitVec 2) (r : BitVec 5) : RSt :=
  let t := d.thread d.cur
  if f = 0 then
    if t.isQueue r then (if ((d.core (coreOf d.cur)).queues.toArray.getD (r.toNat - 20) []).isEmpty then .empty else .full) else (t.gr r).st
  else if f = 1 then (t.vr r).st else (t.pr (r.setWidth 3)).st
/-- R38: an instruction that names an ABSENT register first has it fetched. -/
def present (f : BitVec 2) (r : BitVec 5) : M Unit := fun _ d =>
  if regState d f r = .absent then .error (.miss f.toNat r.toNat) else .ok ((), d)
/-- R95: BEMP branches on a register's state and never blocks. -/
def execBemp (a : BitVec 5) (f : BitVec 2) (full : Bool) (o : BitVec 15) (s : State) : Out := s.run (.bemp a f full o) {} (do
  present f a
  let d ← getD
  branchTo (if full then regState d f a = .full else regState d f a = .empty) (wordOff o))

end Sys2Proof.Machine
end

