-- ==== Sys2Proof/Machine/Inbox.lean ====
section
/-! DEFINITION. Inboxes, their overflow areas, and messages that units post (R175 to R178). -/
namespace Sys2Proof.Machine

/-- R175: a thread's location as a sender, and the host's. -/
def hostSender : Nat := 2 ^ 19 - 1
/-- Take the oldest inbox entry of a slot; a place frees for the overflow area, at a load's latency from HBM. -/
def takeMsg (d : Dev) (loc : Nat) : Option (Msg × Dev) :=
  let ca := coreOf loc
  let c := d.core ca
  match c.inbox.find? fun x => x.slot = slotOf loc with
  | none => none
  | some x =>
    let d := d.updCore ca fun c => { c with inbox := c.inbox.erase x }
    some (x, if c.overflow.isEmpty then d else d.postRange 180 80 .overflowReturn [ca])
/-- R178: the sender and kind of the last entry dequeued, as INS shows them. -/
def Thread.dequeued (t : Thread) (x : Msg) : Thread := { t with lsnd := x.sender, lkind := x.kind }
/-- R178: the cycles in which an entry just dequeued is delivered: before the thread's next turn, which may be the present cycle's. -/
def beforeTurn (d : Dev) (loc : Nat) : Nat := match turnSlot d loc (d.thread loc) with
  | some k => if d.todo.contains loc then 0 else (k + 15 - d.cycle % 16) % 16 + 1
  | none => 16
/-- An entry addressed to a slot stands in the inbox: it ends a RECV wait, which takes it and delivers it before its next turn, or
raises a user interrupt (R178, R182). A halted thread's RECV takes it after resume. -/
def notify (d : Dev) (loc kind : Nat) : Dev :=
  let t := d.thread loc
  if t.awaits .inbox then
    if t.st = .parked && t.stopped.isNone then match takeMsg d loc with
      | some (x, d) =>
        let n := beforeTurn d loc
        let (y, d) := (d.updThread loc fun t => t.dequeued x).draw n
        complete d loc (min n (1 + y)) x.data
      | none => d
    else unpark d loc
  else if t.live && (bitN t.uis 0 || bitN t.uis 1) then d.post 0 .userInterrupt [loc, kind] else d
/-- A core has halted threads and no others: its inbox spills without a limit (R176, R321). -/
def coreHalted (d : Dev) (ca : Nat) : Bool :=
  let ts := (List.range 16).map fun k => (d.thread (ca * 16 + k)).st
  ts.any (· = .halted) && ts.all fun s => s = .halted || s = .vacant
/-- R176: a message enters the inbox, where there is room and none is in the overflow area or on its way there. -/
def inboxOpen (c : Core) : Bool := c.overflow.isEmpty && c.spill.isEmpty && c.inbox.length < 32
/-- R176: the overflow area takes a message: its ring has room. A halted core's takes them without a limit (log 133). An inbox that has
room again is told of it, at a load's latency from HBM. -/
def intoRing (d : Dev) (ca : Nat) (x : Msg) : Option Dev :=
  let c := d.core ca
  if c.overflow.length < 1024 || coreHalted d ca then
    let d := d.updCore ca fun c => { c with overflow := c.overflow ++ [x] }
    some (if c.inbox.length < 32 then d.postRange 180 80 .overflowReturn [ca] else d)
  else none
/-- R176: a message is placed in the inbox, or in the overflow area (log 133). -/
def placeMsg (d : Dev) (ca : Nat) (x : Msg) : Option Dev :=
  if inboxOpen (d.core ca) then some (notify (d.updCore ca fun c => { c with inbox := c.inbox ++ [x] }) (ca * 16 + x.slot) x.kind)
  else intoRing d ca x
/-- The thread a unit's message is for is still the one in the slot. -/
def msgLive (d : Dev) (ca : Nat) (x : Msg) : Bool := match x.dest with
  | none => true
  | some n => let t := d.thread (ca * 16 + x.slot)
    t.live && t.name = n
/-- R176: the unit that posted a message without a journal entry: its kind, and the engine of the tile, or the die (log 47). -/
def Msg.unit (x : Msg) : Nat × Nat :=
  (x.kind, if x.kind = 2 then unitOf (coreOf x.sender) * 4 + fieldN (x.data.getD 0 0) 15 8 % 4 else dieOf (coreOf x.sender))
/-- R176: the posting unit's output queue holds 64 messages: the unit waits before it posts this one. -/
def outFull (d : Dev) (x : Msg) : Bool := 64 ≤ (d.cores.map fun c => (c.2.held.filter fun y => y.unit = x.unit).length).sum
/-- A unit posts a message: placed, held for a full ring in posting order, or discarded with its thread. -/
def postMsg (d : Dev) (ca : Nat) (x : Msg) : Dev :=
  if !msgLive d ca x then d
  else if !(d.core ca).held.isEmpty then d.updCore ca fun c => { c with held := c.held ++ [x] }
  else (placeMsg d ca x).getD (d.updCore ca fun c => { c with held := c.held ++ [x] })
/-- R176: held messages are placed while there is space. -/
def placeHeld : Nat → Dev → Nat → Dev
  | 0, d, _ => d
  | n + 1, d, ca => match (d.core ca).held with
    | [] => d
    | x :: rest =>
      let d' := d.updCore ca fun c => { c with held := rest }
      if !msgLive d ca x then placeHeld n d' ca
      else match placeMsg d' ca x with
        | some d'' => placeHeld n d'' ca
        | none => d
def execPostedMessagePlacement (s : State) : Out := s.event fun _ d => placeHeld (d.core (d.arg 0)).held.length d (d.arg 0)
/-- An entry of the overflow ring returns, and frees a place in the ring. -/
def execOverflowReturn (s : State) : Out := s.event fun _ d =>
  let ca := d.arg 0
  let c := d.core ca
  match c.overflow with
  | x :: rest =>
    if c.inbox.length < 32 then
      let d := notify (d.updCore ca fun c => { c with inbox := c.inbox ++ [x], overflow := rest }) (ca * 16 + x.slot) x.kind
      if (d.core ca).held.isEmpty then d else d.post 0 .postedMessagePlacement [ca]
    else d
  | [] => d
/-- R177: a message that could not be delivered comes back as a GONE notice: the target name, why, the first data word. -/
def goneMsg (d : Dev) (loc : Nat) (name : Q) (why : Nat) (w0 : D) : Msg :=
  ⟨[name.setWidth 64, (name >>> 64).setWidth 64, ofN why, w0], 1, slotOf loc, loc, some (d.thread loc).name⟩
def goneNotice (d : Dev) (loc : Nat) (name : Q) (why : Nat) (w0 : D) : Dev := postMsg d (coreOf loc) (goneMsg d loc name why w0)
/-- A message sets out for its target, and its limit runs (R176). -/
def sendEntry (d : Dev) (ca ent id lo ex limit : Nat) : Dev :=
  let (x, d) := d.draw (ex + 1)
  (d.post (lo + x) .messagePlacement [ca, ent, id, lo + x]).post (16 * max limit 1) .inboxFull [ca, ent, id]
/-- A message takes a journal entry (R175, R288); with none free the turn is lost. -/
def journalMsg (kind : JKind) (target : Q) (ws : List D) (sc lo ex limit : Nat) : M Unit := fun _ d =>
  let t := d.thread d.cur
  let ca := t.at d.cur
  match freeEntry (d.core ca) with
  | none => .error .lose
  | some e =>
    let (id, d) := d.newId
    let j : JEntry :=
        { loc := d.cur, core := ca, kind := kind, size := 8, sc := sc, addr := target.setWidth 64, addrHi := (target >>> 64).setWidth 64,
          data := ws.getD 0 0, pc := t.pc, req := id, refused := none, taken := false, placed := false, orig := none, msg := ws.take 4 ++ [ofN limit] ++ ws.drop 4, again := false }
    .ok ((), sendEntry (d.updCore ca fun c => { c with journal := c.journal.set e j }) ca e id lo ex limit)
/-- R359: the store latency of HBM of the target's die, for a message that goes to the overflow area (log 47). -/
def overflowTime (d : Dev) (ca dst : Nat) : Nat × Dev :=
  let (x, d) := d.draw (if dieOf ca = dieOf dst then 81 else 121)
  ((if dieOf ca = dieOf dst then 180 else 260) + x, d)
/-- A message has been placed: the acknowledgement returns after the same time again (R359). -/
def placedEntry (d : Dev) (ca ent back : Nat) : Dev :=
  (d.updCore ca fun c => { c with journal := match c.journal.get? ent with
    | some e => c.journal.set ent { e with placed := true }
    | none => c.journal }).post back .journalAck [ca, ent]
/-- R359: a message stands at its target core, `back` cycles after it set out. It is placed at once where the inbox takes it; else it is
on its way to the overflow area, from which it may not be overtaken, and is placed there at the store latency of HBM, counted from
its issue or, of a thread name, from when that was resolved. `put` places a message that need not go there, where `direct` holds;
`stage` is 0 at the first arrival. -/
def arriveMsg (d : Dev) (ca ent dst back stage : Nat) (e : JEntry) (x : Msg) (direct : Bool) (put : Dev → Option Dev) : Dev :=
  let key := (ca, ent, e.req)
  if stage = 0 || !(d.core dst).spill.contains key then
    if direct then match put d with
      | some d => placedEntry d ca ent back
      | none => d.post 16 .messagePlacement [ca, ent, e.req, back]
    else
      let (l, d) := overflowTime d ca dst
      let n := l + (e.msg.getD 6 0).toNat
      (d.updCore dst fun c => { c with spill := c.spill ++ [key] }).post (n - back) .messagePlacement [ca, ent, e.req, max back n, 1 + dst]
  else if (d.core dst).spill.head? ≠ some key then d.post 1 .messagePlacement [ca, ent, e.req, back, stage]
  else match intoRing d dst x with
    | some d => placedEntry (d.updCore dst fun c => { c with spill := c.spill.erase key }) ca ent back
    | none => d.post 16 .messagePlacement [ca, ent, e.req, back, stage]
/-- A message that was on its way to an overflow area is not any more. -/
def unspill (d : Dev) (stage ca ent id : Nat) : Dev :=
  if stage = 0 then d else d.updCore (stage - 1) fun c => { c with spill := c.spill.erase (ca, ent, id) }

end Sys2Proof.Machine
end

