-- ==== Sys2Proof/Machine/Fps.lean ====
section
/-! DEFINITION. Scalar floating point: FPS and FMAS (R105 to R110). -/
namespace Sys2Proof.Machine

/-- R105: format 0 is F64, 1 is F32; an F32 operand is bits [31:0], an F32 result has zeros above. -/
def fmtOf (f : Bool) : Fp.Fmt := if f then Fp.f32 else Fp.f64
def codeIn (f : Bool) (x : D) : Nat := if f then x.toNat % 2 ^ 32 else x.toNat
def valIn (f : Bool) (x : D) : Fp.Val := (fmtOf f).decode (codeIn f x)
/-- R67: the mode an instruction rounds by, and the thread after its draw: RNC advances by 1 when the mode is SR. -/
def Thread.draw (t : Thread) (mode : Fp.Mode) : Thread := if mode = .sr then { t with rnc := t.rnc + 1 }.touch 3 else t
def Thread.srLane (t : Thread) (lane : Nat) : Nat := Fp.srWord t.rnc (t.name.setWidth 64) ((t.name >>> 64).setWidth 64) lane
/-- Write a result with its flags (R69). -/
def wgf (d : BitVec 5) (r : Nat × Fp.Flags) : M Unit := do
  wg d (ofN r.1)
  modMe fun t => (t.raise r.2).touch 2
/-- A rounding operation of two sources. -/
def fpRR (f : Fp.Fmt → Fp.Mode → Nat → Fp.Val → Fp.Val → Nat × Fp.Flags) (d a b : BitVec 5) (r : BitVec 3) (w : Bool) : M Unit := do
  let t ← me
  let x ← gv a
  let y ← gv b
  let mode := Fp.modeOf r.toNat t.fpm
  modMe fun t => t.draw mode
  wgf d (f (fmtOf w) mode (t.srLane 0) (valIn w x) (valIn w y))
  adv
/-- An operation of two sources that does not round. -/
def fpNR (f : Fp.Fmt → Nat → Nat → Nat × Fp.Flags) (d a b : BitVec 5) (w : Bool) : M Unit := do
  let x ← gv a
  let y ← gv b
  wgf d (f (fmtOf w) (codeIn w x) (codeIn w y))
  adv
def fmulOp (f : Fp.Fmt) (m : Fp.Mode) (u : Nat) (x y : Fp.Val) : Nat × Fp.Flags := Fp.fma f m u x y none
def fsubOp (f : Fp.Fmt) (m : Fp.Mode) (u : Nat) (x y : Fp.Val) : Nat × Fp.Flags := Fp.add f m u x y.neg

/-- R106. -/
def execFadd (d a b : BitVec 5) (m n : Bool) (r : BitVec 3) (f : Bool) (s : State) : Out := s.run (.fadd d a b m n r f) (shRR d a b m n) (fpRR Fp.add d a b r f)
/-- R106. -/
def execFsub (d a b : BitVec 5) (m n : Bool) (r : BitVec 3) (f : Bool) (s : State) : Out := s.run (.fsub d a b m n r f) (shRR d a b m n) (fpRR fsubOp d a b r f)
/-- R106. -/
def execFmul (d a b : BitVec 5) (m n : Bool) (r : BitVec 3) (f : Bool) (s : State) : Out := s.run (.fmul d a b m n r f) (shRR d a b m n) (fpRR fmulOp d a b r f)
/-- R81, R106: a divide or square root of the shared unit: 32 cycles for F32, 48 for F64; the draw is at issue (R67). -/
def fpLong (d : BitVec 5) (r : BitVec 3) (w : Bool) (f : Fp.Mode → Nat → Nat × Fp.Flags) : M Unit := do
  startDivide
  let t ← me
  let mode := Fp.modeOf r.toNat t.fpm
  modMe fun t => t.draw mode
  let x := f mode (t.srLane 0)
  longG (if w then 32 else 48) d (ofN x.1) x.2 true
  adv
/-- R106. -/
def execFdiv (d a b : BitVec 5) (m n : Bool) (r : BitVec 3) (f : Bool) (s : State) : Out :=
  s.run (.fdiv d a b m n r f) (shDiv d a b m n) (do
    let x ← gv a
    let y ← gv b
    fpLong d r f fun mode u => Fp.div (fmtOf f) mode u (valIn f x) (valIn f y))
/-- R106. -/
def execFsqrt (d a : BitVec 5) (m : Bool) (r : BitVec 3) (f : Bool) (s : State) : Out :=
  s.run (.fsqrt d a m r f) { srcs := [.g a m], long := [d] } (do
    let x ← gv a
    fpLong d r f fun mode u => Fp.sqrt (fmtOf f) mode u (valIn f x))
/-- A comparison's result as 1 or 0. -/
def cmpOp (g : Fp.Val → Fp.Val → Bool × Fp.Flags) (f : Fp.Fmt) (x y : Nat) : Nat × Fp.Flags :=
  let r := g (f.decode x) (f.decode y)
  (b2n r.1, r.2)
/-- R108: the sign of `a` by the operation, its other bits kept. -/
def sgnOp (g : Bool → Bool → Bool) (f : Fp.Fmt) (x y : Nat) : Nat × Fp.Flags :=
  let k := 2 ^ (f.ew + f.mw)
  (x % k + f.sgn (g (x / k % 2 == 1) (y / k % 2 == 1)), 0)
/-- R106, R71. -/
def execFmin (d a b : BitVec 5) (m n : Bool) (f : Bool) (s : State) : Out := s.run (.fmin d a b m n f) (shRR d a b m n) (fpNR (fun f x y => Fp.minmax f false x y) d a b f)
/-- R106, R71. -/
def execFmax (d a b : BitVec 5) (m n : Bool) (f : Bool) (s : State) : Out := s.run (.fmax d a b m n f) (shRR d a b m n) (fpNR (fun f x y => Fp.minmax f true x y) d a b f)
/-- R106, R71. -/
def execFeq (d a b : BitVec 5) (m n : Bool) (f : Bool) (s : State) : Out := s.run (.feq d a b m n f) (shRR d a b m n) (fpNR (cmpOp Fp.feq) d a b f)
/-- R106, R71. -/
def execFlt (d a b : BitVec 5) (m n : Bool) (f : Bool) (s : State) : Out := s.run (.flt d a b m n f) (shRR d a b m n) (fpNR (cmpOp Fp.flt) d a b f)
/-- R106, R71. -/
def execFle (d a b : BitVec 5) (m n : Bool) (f : Bool) (s : State) : Out := s.run (.fle d a b m n f) (shRR d a b m n) (fpNR (cmpOp Fp.fle) d a b f)
/-- R108. -/
def execFsgnCp (d a b : BitVec 5) (m n : Bool) (f : Bool) (s : State) : Out := s.run (.fsgnCp d a b m n f) (shRR d a b m n) (fpNR (sgnOp fun _ y => y) d a b f)
/-- R108. -/
def execFsgnNeg (d a b : BitVec 5) (m n : Bool) (f : Bool) (s : State) : Out := s.run (.fsgnNeg d a b m n f) (shRR d a b m n) (fpNR (sgnOp fun _ y => !y) d a b f)
/-- R108. -/
def execFsgnXor (d a b : BitVec 5) (m n : Bool) (f : Bool) (s : State) : Out := s.run (.fsgnXor d a b m n f) (shRR d a b m n) (fpNR (sgnOp fun x y => x != y) d a b f)
/-- R107: one bit of [9:0]; R70: NV for a signalling NaN. -/
def clsOp (f : Bool) (x : D) : Nat × Fp.Flags := (2 ^ Fp.fclass (fmtOf f) (codeIn f x), Fp.snv [valIn f x])
def execFcls (d a : BitVec 5) (m f : Bool) (s : State) : Out :=
  s.run (.fcls d a m f) (shR d a m) (do
    let x ← gv a
    wgf d (clsOp f x)
    adv)
/-- R109: the conversion of code `c` from or to the format of `f`. -/
def fcvtOp (c : Nat) (f : Bool) (mode : Fp.Mode) (u : Nat) (x : D) : D × Fp.Flags :=
  let v := valIn f x
  let toI (w : Nat) (s : Bool) : D × Fp.Flags := let r := Fp.toIntR w s mode u v
    (BitVec.ofInt 64 r.1, r.2)
  let ofI (i : Int) : D × Fp.Flags := let r := Fp.ofInt (fmtOf f) mode u i
    (ofN r.1, r.2)
  match c with
  | 0 => let r := Fp.convert (fmtOf (!f)) mode u v
    (ofN r.1, r.2)
  | 1 => toI 64 true
  | 2 => toI 64 false
  | 3 => toI 32 true
  | 4 => toI 32 false
  | 5 => ofI x.toInt
  | 6 => ofI x.toNat
  | 7 => ofI (x.setWidth 32).toInt
  | _ => ofI (x.setWidth 32).toNat
/-- R109, R72. -/
def execFcvt (d a c : BitVec 5) (m : Bool) (r : BitVec 3) (f : Bool) (s : State) : Out := s.run (.fcvt d a c m r f) (shR d a m) (do
  let t ← me
  let x ← gv a
  let mode := Fp.modeOf r.toNat t.fpm
  modMe fun t => t.draw mode
  let y := fcvtOp c.toNat f mode (t.srLane 0) x
  wg d y.1
  modMe fun t => (t.raise y.2).touch 2
  adv)
/-- R110: ±(a * b) ± c, rounded once; c is the old d, which blocks. -/
def fmaOp (np nc : Bool) (f : Fp.Fmt) (mode : Fp.Mode) (u : Nat) (x y z : Fp.Val) : Nat × Fp.Flags :=
  Fp.fma f mode u (if np then x.neg else x) y (some (if nc then z.neg else z))
def fmas (np nc : Bool) (d a b : BitVec 5) (r : BitVec 3) (w : Bool) : M Unit := do
  let t ← me
  let x ← gv a
  let y ← gv b
  let z ← gv d
  let mode := Fp.modeOf r.toNat t.fpm
  modMe fun t => t.draw mode
  wgf d (fmaOp np nc (fmtOf w) mode (t.srLane 0) (valIn w x) (valIn w y) (valIn w z))
  adv
/-- R110. -/
def execFma (d a b : BitVec 5) (m n : Bool) (r : BitVec 3) (f : Bool) (s : State) : Out := s.run (.fma d a b m n r f) (shRRD d a b m n) (fmas false false d a b r f)
/-- R110. -/
def execFms (d a b : BitVec 5) (m n : Bool) (r : BitVec 3) (f : Bool) (s : State) : Out := s.run (.fms d a b m n r f) (shRRD d a b m n) (fmas false true d a b r f)
/-- R110. -/
def execFnma (d a b : BitVec 5) (m n : Bool) (r : BitVec 3) (f : Bool) (s : State) : Out := s.run (.fnma d a b m n r f) (shRRD d a b m n) (fmas true false d a b r f)
/-- R110. -/
def execFnms (d a b : BitVec 5) (m n : Bool) (r : BitVec 3) (f : Bool) (s : State) : Out := s.run (.fnms d a b m n r f) (shRRD d a b m n) (fmas true true d a b r f)

end Sys2Proof.Machine
end

