-- ==== Sys2Proof/Machine/Vector.lean ====
section
/-! DEFINITION. The vector unit (R112 to R123): element-wise operations, comparisons, moves, reductions, conversions, fused
multiply-add. -/
namespace Sys2Proof.Machine

/-! ## Lanes (R112) -/

/-- Lanes of a type, and the bits of one. -/
def laneW (t : BitVec 3) : Nat := match t.toNat with
  | 0 | 4 => 64
  | 1 | 5 => 32
  | 7 => 8
  | _ => 16
def laneN (t : BitVec 3) : Nat := match t.toNat with
  | 0 | 4 => 16
  | 1 | 5 => 32
  | _ => 64
def isFloat (t : BitVec 3) : Bool := t.toNat < 4
def tyFmt (t : BitVec 3) : Fp.Fmt := match t.toNat with
  | 0 => Fp.f64
  | 1 => Fp.f32
  | 2 => Fp.f16
  | _ => Fp.bf16
/-- Field `i` of width `w`. -/
def laneOf (w : Nat) (x : V) (i : Nat) : Nat := x.toNat / 2 ^ (w * i) % 2 ^ w
/-- Lanes from lane 0 up; every bit above them is 0. -/
def packLanes (w : Nat) (l : List Nat) : Nat := l.foldr (fun x acc => acc * 2 ^ w + x % 2 ^ w) 0
def ofLanes (w : Nat) (l : List Nat) : V := BitVec.ofNat 1024 (packLanes w l)
/-- A lane read as signed. -/
def sLane (w x : Nat) : Int := if 2 ^ (w - 1) ≤ x then (x : Int) - 2 ^ w else x
/-- An integer as a lane, wrapping. -/
def wrapLane (w : Nat) (i : Int) : Nat := (i % 2 ^ w).toNat
/-- The mask's bit of a lane. -/
def act (p : D) (i : Nat) : Bool := p.getLsbD i
/-- R113: element-wise: active lanes get `f`, the others keep the old value; flags are those of the active lanes. -/
def mapLanes (w n : Nat) (p : D) (old : V) (f : Nat → Nat × Fp.Flags) : V × Fp.Flags :=
  let rs := (List.range n).map fun i => if act p i then f i else (laneOf w old i, 0)
  (ofLanes w (rs.map Prod.fst), rs.foldl (fun acc x => acc ||| x.2) 0)
/-- Sources of a masked vector instruction: with a mask other than p0 the old destination is one (R113). -/
def shV (srcs : List Src) (d : BitVec 5) (p : BitVec 3) : Shape :=
  { gate := .vector, srcs := srcs ++ [.p p] ++ (if p = 0 then [] else [.v d]), also := [.v d] }
def setFlags (f : Fp.Flags) : M Unit := modMe fun t => if f = 0 then t else (t.raise f).touch 2
def drawM (mode : Fp.Mode) : M Unit := modMe fun t => t.draw mode
/-- An element-wise instruction: `f mode word a b`, `rounds` when it draws under SR (R67). -/
def vecEl (t : BitVec 3) (rounds : Bool) (f : Fp.Mode → Nat → Nat → Nat → Nat × Fp.Flags) (d a b : BitVec 5) (p : BitVec 3) : M Unit := do
  let th ← me
  let x ← vv a
  let y ← vv b
  let pm ← pv p
  let old ← vv d
  let mode := Fp.modeOf 0 th.fpm
  if rounds then drawM mode else pure ()
  let w := laneW t
  let r := mapLanes w (laneN t) pm old fun i => f mode (th.srLane i) (laneOf w x i) (laneOf w y i)
  wv d r.1
  setFlags r.2
  adv
/-- An integer function of a lane's bits, without flags: so the bitwise operations on floating-point types raise none (log 140). -/
def pureEl (f : Nat → Nat → Nat) (_ : Fp.Mode) (_ x y : Nat) : Nat × Fp.Flags := (f x y, 0)
/-- Float lanes by `g`, integer lanes by `h`. -/
def byType (t : BitVec 3) (g : Fp.Fmt → Fp.Mode → Nat → Fp.Val → Fp.Val → Nat × Fp.Flags) (h : Nat → Nat → Nat → Nat)
    (mode : Fp.Mode) (u x y : Nat) : Nat × Fp.Flags :=
  if isFloat t then let f := tyFmt t
    g f mode u (f.decode x) (f.decode y)
  else (h (laneW t) x y, 0)
/-- Integer division of lanes, signed, with R85 per lane. -/
def divLane (w x y : Nat) : Nat := if y = 0 then 2 ^ w - 1 else wrapLane w ((sLane w x).tdiv (sLane w y))
def minmaxEl (t : BitVec 3) (mx : Bool) (_ : Fp.Mode) (_ x y : Nat) : Nat × Fp.Flags :=
  if isFloat t then Fp.minmax (tyFmt t) mx x y
  else (if decide (sLane (laneW t) x < sLane (laneW t) y) != mx then x else y, 0)
def absEl (t : BitVec 3) (x _ : Nat) : Nat :=
  let w := laneW t
  if isFloat t then x % 2 ^ (w - 1) else wrapLane w (sLane w x).natAbs
def negEl (t : BitVec 3) (x _ : Nat) : Nat :=
  let w := laneW t
  if isFloat t then x ^^^ 2 ^ (w - 1) else wrapLane w (-(sLane w x))
def sarLane (w x k : Nat) : Nat := wrapLane w (sLane w x / 2 ^ k)

/-- R118. -/
def execVadd (d a b : BitVec 5) (p t : BitVec 3) (s : State) : Out :=
  s.run (.vadd d a b p t) (shV [.v a, .v b] d p) (vecEl t (isFloat t) (byType t Fp.add fun w x y => wrapLane w (x + y)) d a b p)
/-- R118. -/
def execVsub (d a b : BitVec 5) (p t : BitVec 3) (s : State) : Out :=
  s.run (.vsub d a b p t) (shV [.v a, .v b] d p) (vecEl t (isFloat t) (byType t fsubOp fun w x y => wrapLane w ((x : Int) - y)) d a b p)
/-- R118. -/
def execVmul (d a b : BitVec 5) (p t : BitVec 3) (s : State) : Out :=
  s.run (.vmul d a b p t) (shV [.v a, .v b] d p) (vecEl t (isFloat t) (byType t fmulOp fun _ x y => x * y) d a b p)
/-- R118. -/
def execVmin (d a b : BitVec 5) (p t : BitVec 3) (s : State) : Out :=
  s.run (.vmin d a b p t) (shV [.v a, .v b] d p) (vecEl t (false) (minmaxEl t false) d a b p)
/-- R118. -/
def execVmax (d a b : BitVec 5) (p t : BitVec 3) (s : State) : Out :=
  s.run (.vmax d a b p t) (shV [.v a, .v b] d p) (vecEl t (false) (minmaxEl t true) d a b p)
/-- R118. -/
def execVminN (d a b : BitVec 5) (p t : BitVec 3) (s : State) : Out :=
  s.run (.vminN d a b p t) (shV [.v a, .v b] d p) (vecEl t (false) (pureEl min) d a b p)
/-- R118. -/
def execVmaxN (d a b : BitVec 5) (p t : BitVec 3) (s : State) : Out :=
  s.run (.vmaxN d a b p t) (shV [.v a, .v b] d p) (vecEl t (false) (pureEl max) d a b p)
/-- R118. -/
def execVand (d a b : BitVec 5) (p t : BitVec 3) (s : State) : Out :=
  s.run (.vand d a b p t) (shV [.v a, .v b] d p) (vecEl t (false) (pureEl (· &&& ·)) d a b p)
/-- R118. -/
def execVor (d a b : BitVec 5) (p t : BitVec 3) (s : State) : Out :=
  s.run (.vor d a b p t) (shV [.v a, .v b] d p) (vecEl t (false) (pureEl (· ||| ·)) d a b p)
/-- R118. -/
def execVxor (d a b : BitVec 5) (p t : BitVec 3) (s : State) : Out :=
  s.run (.vxor d a b p t) (shV [.v a, .v b] d p) (vecEl t (false) (pureEl (· ^^^ ·)) d a b p)
/-- R118. -/
def execVshl (d a b : BitVec 5) (p t : BitVec 3) (s : State) : Out :=
  s.run (.vshl d a b p t) (shV [.v a, .v b] d p) (vecEl t (false) (pureEl fun x y => x * 2 ^ (y % laneW t)) d a b p)
/-- R118. -/
def execVshr (d a b : BitVec 5) (p t : BitVec 3) (s : State) : Out :=
  s.run (.vshr d a b p t) (shV [.v a, .v b] d p) (vecEl t (false) (pureEl fun x y => sarLane (laneW t) x (y % laneW t)) d a b p)
/-- R118. -/
def execVshrN (d a b : BitVec 5) (p t : BitVec 3) (s : State) : Out :=
  s.run (.vshrN d a b p t) (shV [.v a, .v b] d p) (vecEl t (false) (pureEl fun x y => x / 2 ^ (y % laneW t)) d a b p)
/-- R118. -/
def execVabs (d a : BitVec 5) (p t : BitVec 3) (s : State) : Out :=
  s.run (.vabs d a p t) (shV [.v a] d p) (vecEl t false (pureEl (absEl t)) d a a p)
/-- R118. -/
def execVneg (d a : BitVec 5) (p t : BitVec 3) (s : State) : Out :=
  s.run (.vneg d a p t) (shV [.v a] d p) (vecEl t false (pureEl (negEl t)) d a a p)
/-- R118. -/
def execVmov (d a : BitVec 5) (p t : BitVec 3) (s : State) : Out :=
  s.run (.vmov d a p t) (shV [.v a] d p) (vecEl t false (pureEl fun x _ => x) d a a p)

/-! ## The vector divide unit (R114, R115) -/

def startVdiv : M Unit := fun _ d =>
  let ca := coreOf d.cur
  match (d.core ca).vdivLast with
  | some c => if d.cycle < c + 16 then .error .lose else .ok ((), d.updCore ca fun x => { x with vdivLast := some d.cycle })
  | none => .ok ((), d.updCore ca fun x => { x with vdivLast := some d.cycle })
def vdivCycles (t : BitVec 3) : Nat := if laneW t = 64 then 64 else if laneW t = 32 then 48 else 32
/-- The destination is EMPTY until every active lane is written; flags are set then (R69). -/
def vecLong (t : BitVec 3) (f : Fp.Mode → Nat → Nat → Nat → Nat × Fp.Flags) (d a b : BitVec 5) (p : BitVec 3) : M Unit := do
  startVdiv
  let th ← me
  let x ← vv a
  let y ← vv b
  let pm ← pv p
  let old ← vv d
  let mode := Fp.modeOf 0 th.fpm
  if isFloat t then drawM mode else pure ()
  let w := laneW t
  let r := mapLanes w (laneN t) pm old fun i => f mode (th.srLane i) (laneOf w x i) (laneOf w y i)
  modD fun dv => sendArr dv dv.cur (vdivCycles t) [(.v d, r.1.setWidth 6400)] r.2 true
  adv
/-- R118, R85. -/
def execVdiv (d a b : BitVec 5) (p t : BitVec 3) (s : State) : Out :=
  s.run (.vdiv d a b p t) (shV [.v a, .v b] d p) (vecLong t (byType t Fp.div divLane) d a b p)
/-- R118. -/
def execVsqrt (d a : BitVec 5) (p t : BitVec 3) (s : State) : Out :=
  s.run (.vsqrt d a p t) (shV [.v a] d p) (vecLong t (byType t (fun f m u x _ => Fp.sqrt f m u x) fun _ x _ => x) d a a p)

/-! ## Comparisons (R119) -/

/-- The condition 00 EQ, 01 LT, 10 LE, 11 NE on two lanes. -/
def cmpLane (t : BitVec 3) (c : BitVec 2) (uns : Bool) (x y : Nat) : Bool × Fp.Flags :=
  if isFloat t then
    let f := tyFmt t
    let a := f.decode x
    let b := f.decode y
    match c.toNat with
    | 0 => Fp.feq a b
    | 1 => Fp.flt a b
    | 2 => Fp.fle a b
    | _ => let r := Fp.feq a b
      (!r.1, r.2)
  else
    let v : Nat → Int := fun z => if uns then (z : Int) else sLane (laneW t) z
    (match c.toNat with
      | 0 => v x = v y
      | 1 => v x < v y
      | 2 => v x ≤ v y
      | _ => v x ≠ v y, 0)
def vecCmp (uns : Bool) (c : BitVec 2) (q : BitVec 3) (a b : BitVec 5) (p t : BitVec 3) : M Unit := do
  let x ← vv a
  let y ← vv b
  let pm ← pv p
  let w := laneW t
  let rs := (List.range (laneN t)).map fun i => if act pm i then cmpLane t c uns (laneOf w x i) (laneOf w y i) else (false, 0)
  wp q (ofN (rs.foldr (fun r acc => acc * 2 + b2n r.1) 0))
  setFlags (rs.foldl (fun acc r => acc ||| r.2) 0)
  adv
/-- R119. -/
def execVcmp (c : BitVec 2) (q : BitVec 3) (a b : BitVec 5) (p t : BitVec 3) (s : State) : Out :=
  s.run (.vcmp c q a b p t) { gate := .vector, srcs := [.v a, .v b, .p p], also := [.p q] } (vecCmp false c q a b p t)
/-- R119. -/
def execVcmpN (c : BitVec 2) (q : BitVec 3) (a b : BitVec 5) (p t : BitVec 3) (s : State) : Out :=
  s.run (.vcmpN c q a b p t) { gate := .vector, srcs := [.v a, .v b, .p p], also := [.p q] } (vecCmp true c q a b p t)

/-! ## Moves (R120) -/

/-- Every lane from a where the selector's bit is 1, else from b. -/
def execVsel (d a b : BitVec 5) (p t : BitVec 3) (s : State) : Out :=
  s.run (.vsel d a b p t) { gate := .vector, srcs := [.v a, .v b, .p p], also := [.v d] } (do
    let x ← vv a
    let y ← vv b
    let pm ← pv p
    let w := laneW t
    wv d (ofLanes w ((List.range (laneN t)).map fun i => if act pm i then laneOf w x i else laneOf w y i))
    adv)
/-- A masked write of a lane function without flags. -/
def vecFill (t : BitVec 3) (d : BitVec 5) (p : BitVec 3) (f : Nat → Nat) : M Unit := do
  let pm ← pv p
  let old ← vv d
  wv d (mapLanes (laneW t) (laneN t) pm old fun i => (f i, 0)).1
  adv
def execVbc (d a : BitVec 5) (p t : BitVec 3) (s : State) : Out :=
  s.run (.vbc d a p t) (shV [.g a false] d p) (do
    let x ← gv a
    vecFill t d p fun _ => x.toNat)
/-- R120, R105: an integer lane sign-extended, a float lane zero-extended. -/
def laneToG (t : BitVec 3) (x : Nat) : D := if isFloat t then ofN x else BitVec.ofInt 64 (sLane (laneW t) x)
def execVex (d a b : BitVec 5) (t : BitVec 3) (s : State) : Out :=
  s.run (.vex d a b t) { gate := .vector, srcs := [.v a, .g b false], dst := some d } (do
    let x ← vv a
    let i ← gv b
    wg d (laneToG t (laneOf (laneW t) x (i.toNat % laneN t)))
    adv)
def execVins (d a b : BitVec 5) (t : BitVec 3) (s : State) : Out :=
  s.run (.vins d a b t) { gate := .vector, srcs := [.g a false, .g b false, .v d] } (do
    let x ← gv a
    let k ← gv b
    let old ← vv d
    let w := laneW t
    wv d (ofLanes w ((List.range (laneN t)).map fun i => if i = k.toNat % laneN t then x.toNat else laneOf w old i))
    adv)
/-- R120: the lane number, exact in every type. -/
def iotaLane (t : BitVec 3) (i : Nat) : Nat := if isFloat t then (Fp.ofInt (tyFmt t) .rne 0 i).1 else i
def execViota (d : BitVec 5) (p t : BitVec 3) (s : State) : Out :=
  s.run (.viota d p t) (shV [] d p) (vecFill t d p (iotaLane t))
def execVperm (d a b : BitVec 5) (p t : BitVec 3) (s : State) : Out :=
  s.run (.vperm d a b p t) (shV [.v a, .v b] d p) (do
    let x ← vv a
    let y ← vv b
    let w := laneW t
    vecFill t d p fun i => laneOf w x (laneOf w y i % laneN t))

/-! ## Reductions and scans (R121) -/

/-- Combine two lanes by the operator; ADD on floats rounds by FPM.RM and draws the lane of its result. AND, OR and XOR act on the bits of
floating-point lanes too and raise no flag (log 140). -/
def combLane (t : BitVec 3) (o : Nat) (mode : Fp.Mode) (u x y : Nat) : Nat × Fp.Flags :=
  match o with
  | 0 => byType t Fp.add (fun w x y => (x + y) % 2 ^ w) mode u x y
  | 1 => minmaxEl t false mode u x y
  | 2 => minmaxEl t true mode u x y
  | 3 => (x &&& y, 0)
  | 4 => (x ||| y, 0)
  | 5 => (x ^^^ y, 0)
  | 6 => (min x y, 0)
  | _ => (max x y, 0)
def identLane (t : BitVec 3) (o : Nat) : Nat :=
  let w := laneW t
  match o with
  | 1 => if isFloat t then (tyFmt t).infCode false else 2 ^ (w - 1) - 1
  | 2 => if isFloat t then (tyFmt t).infCode true else 2 ^ (w - 1)
  | 3 | 6 => 2 ^ w - 1
  | _ => 0
/-- "none" passes the other side through. -/
def combOpt (f : Nat → Nat → Nat → Nat × Fp.Flags) (j : Nat) : Option Nat → Option Nat → Option Nat × Fp.Flags
  | none, y => (y, 0)
  | x, none => (x, 0)
  | some x, some y => let r := f j x y
    (some r.1, r.2)
/-- The pairwise tree, lower lane on the left: step `s` combines lanes i and i + s for i a multiple of 2 s. -/
def redSteps (f : Nat → Nat → Nat → Nat × Fp.Flags) (n : Nat) : Nat → Nat → List (Option Nat) × Fp.Flags → List (Option Nat) × Fp.Flags
  | 0, _, t => t
  | k + 1, s, t =>
    if n ≤ s then t
    else
      let rs := (List.range n).map fun i => if i % (2 * s) = 0 then combOpt f i (t.1.getD i none) (t.1.getD (i + s) none) else (t.1.getD i none, 0)
      redSteps f n k (2 * s) (rs.map Prod.fst, rs.foldl (fun acc r => acc ||| r.2) t.2)
/-- The inclusive scan, each step reading the values the previous one left. -/
def scanSteps (f : Nat → Nat → Nat → Nat × Fp.Flags) (n : Nat) : Nat → Nat → List (Option Nat) × Fp.Flags → List (Option Nat) × Fp.Flags
  | 0, _, t => t
  | k + 1, s, t =>
    if n ≤ s then t
    else
      let rs := (List.range n).map fun i => if s ≤ i then combOpt f i (t.1.getD (i - s) none) (t.1.getD i none) else (t.1.getD i none, 0)
      scanSteps f n k (2 * s) (rs.map Prod.fst, rs.foldl (fun acc r => acc ||| r.2) t.2)
def vecFold (scan : Bool) (t : BitVec 3) (d a o : BitVec 5) (p : BitVec 3) : M Unit := do
  let th ← me
  let x ← vv a
  let pm ← pv p
  let mode := Fp.modeOf 0 th.fpm
  if isFloat t && o = 0 then drawM mode else pure ()
  let w := laneW t
  let n := laneN t
  let f := fun j x y => combLane t o.toNat mode (th.srLane j) x y
  let l := (List.range n).map fun i => if act pm i then some (laneOf w x i) else none
  let r := if scan then scanSteps f n 6 1 (l, 0) else redSteps f n 6 1 (l, 0)
  let e := identLane t o.toNat
  wv d (ofLanes w (if scan then r.1.map (·.getD e) else [(r.1.getD 0 none).getD e]))
  setFlags r.2
  adv
def execVred (d a o : BitVec 5) (p t : BitVec 3) (s : State) : Out :=
  s.run (.vred d a o p t) { gate := .vector, srcs := [.v a, .p p], also := [.v d] } (vecFold false t d a o p)
/-- R121. -/
def execVscn (d a o : BitVec 5) (p t : BitVec 3) (s : State) : Out :=
  s.run (.vscn d a o p t) { gate := .vector, srcs := [.v a, .p p], also := [.v d] } (vecFold true t d a o p)

/-! ## Conversions (R123) -/

/-- The packed formats of codes 12 to 17 and 24 to 26: E4M3, E5M2, E2M1. -/
def narrowFmt (c : Nat) : Fp.Fmt := match c % 3 with
  | 0 => Fp.e4m3
  | 1 => Fp.e5m2
  | _ => Fp.e2m1
/-- Bits and lane count of a target (R112). -/
def cvtTarget (c : Nat) (t : BitVec 3) : Nat × Nat :=
  if c < 12 then (laneW (BitVec.ofNat 3 (if c < 8 then c else c - 4)), laneN (BitVec.ofNat 3 (if c < 8 then c else c - 4)))
  else if c < 18 then ((narrowFmt c).width, 64)
  else if c < 22 then (laneW (BitVec.ofNat 3 (c - 18)), laneN (BitVec.ofNat 3 (c - 18)))
  else (laneW t, laneN t)
/-- One lane of a conversion: source bits, the scale of codes 15 to 17. -/
def cvtLane (c : Nat) (t : BitVec 3) (sc : Fp.Val) (mode : Fp.Mode) (u x : Nat) : Nat × Fp.Flags :=
  let v := (tyFmt t).decode x
  let w := laneW t
  if c < 4 then (if isFloat t then Fp.convert (tyFmt (BitVec.ofNat 3 c)) mode u v else Fp.ofInt (tyFmt (BitVec.ofNat 3 c)) mode u (sLane w x))
  else if c < 12 then
    let tw := laneW (BitVec.ofNat 3 (if c < 8 then c else c - 4))
    if isFloat t then let r := Fp.toIntR tw (c < 8) mode u v
      (wrapLane tw r.1, r.2)
    else (wrapLane tw (if c < 8 then sLane w x else (x : Int)), 0)
  else if c < 15 then Fp.convert (narrowFmt c) mode u v
  else if c < 18 then Fp.scaled (narrowFmt c) mode u v sc
  else if c < 22 then Fp.ofInt (tyFmt (BitVec.ofNat 3 (c - 18))) mode u x
  else Fp.convert (tyFmt t) mode u ((narrowFmt c).decode x)
def scaledCvt (c : BitVec 5) : Bool := 15 ≤ c.toNat && c.toNat < 18
def execVcvt (d a c : BitVec 5) (r t : BitVec 3) (s : State) : Out :=
  s.run (.vcvt d a c r t) { gate := .vector, srcs := [.v a] ++ (if scaledCvt c then [.v d] else []), also := [.v d] } (do
    let th ← me
    let x ← vv a
    let old ← vv d
    let mode := Fp.modeOf r.toNat th.fpm
    drawM mode
    let (tw, tn) := cvtTarget c.toNat t
    let n := min tn (laneN t)
    let sw := if 24 ≤ c.toNat then (narrowFmt c.toNat).width else laneW t
    let sc := Fp.f32.decode (old.toNat % 2 ^ 32)
    let rs := (List.range n).map fun i => cvtLane c.toNat t sc mode (th.srLane i) (laneOf sw x i)
    wv d (ofLanes tw (rs.map Prod.fst))
    setFlags (rs.foldl (fun acc r => acc ||| r.2) 0)
    adv)

/-! ## Fused multiply-add (R122) -/

def vecFma (np nc : Bool) (d a b : BitVec 5) (p t r : BitVec 3) : M Unit := do
  let th ← me
  let x ← vv a
  let y ← vv b
  let pm ← pv p
  let z ← vv d
  let mode := Fp.modeOf r.toNat th.fpm
  drawM mode
  let w := laneW t
  let f := tyFmt t
  let q := mapLanes w (laneN t) pm z fun i =>
    fmaOp np nc f mode (th.srLane i) (f.decode (laneOf w x i)) (f.decode (laneOf w y i)) (f.decode (laneOf w z i))
  wv d q.1
  setFlags q.2
  adv
def shVfma (d a b : BitVec 5) (p : BitVec 3) : Shape := { gate := .vector, srcs := [.v a, .v b, .p p, .v d] }
/-- R122. -/
def execVfma (d a b : BitVec 5) (p t r : BitVec 3) (s : State) : Out :=
  s.run (.vfma d a b p t r) (shVfma d a b p) (vecFma false false d a b p t r)
/-- R122. -/
def execVfms (d a b : BitVec 5) (p t r : BitVec 3) (s : State) : Out :=
  s.run (.vfms d a b p t r) (shVfma d a b p) (vecFma false true d a b p t r)
/-- R122. -/
def execVfnma (d a b : BitVec 5) (p t r : BitVec 3) (s : State) : Out :=
  s.run (.vfnma d a b p t r) (shVfma d a b p) (vecFma true false d a b p t r)
/-- R122. -/
def execVfnms (d a b : BitVec 5) (p t r : BitVec 3) (s : State) : Out :=
  s.run (.vfnms d a b p t r) (shVfma d a b p) (vecFma true true d a b p t r)

/-! ## The exact accumulator (R79, R80, R126 to R128) -/

/-- R116: the unit is busy for `busy` cycles; R129: an XFIL in flight is waited for,
one that waits for a page that is not resident as R142 says. -/
def startXacc (busy : Nat) : M Unit := fun _ d =>
  let ca := coreOf d.cur
  let fills := d.reqs.filter fun r => r.2.loc = d.cur && mine d d.cur r.1 && r.2.dst = .xa
  if fills.any (fun r => r.2.phase = .nonresident) then .error .pageFault
  else if d.cycle < (d.core ca).xaccFree ∨ !fills.isEmpty ∨ (d.arrs.any fun a => a.2.loc = d.cur && mine d d.cur a.1 && a.2.vals.any (fun v => v.1 = .xa))
  then .error .lose
  else .ok ((), d.updCore ca fun x => { x with xaccFree := d.cycle + busy })
/-- xa with its XO and XV marks. -/
structure Acc where
  xa : BitVec 6400
  xo : Bool
  xv : Bool
  nv : Bool
deriving DecidableEq, Repr
/-- R127: add an exact value m * 2^e; outside the range it wraps and sets XO. -/
def Acc.add (a : Acc) (s : Bool) (m : Nat) (e : Int) : Acc :=
  let r := a.xa.toInt + Fp.sig s (Fp.shl m (e + 3264))
  { a with xa := BitVec.ofInt 6400 r, xo := a.xo || decide (r < -(2 ^ 6399 : Int)) || decide ((2 ^ 6399 : Int) ≤ r) }
/-- The product of the factors of a lane, added or refused. -/
def Acc.mac (a : Acc) (l : List Fp.Val) : Acc :=
  if l.any (fun v => match v with | .fin .. => false | _ => true) then { a with xv := true, nv := a.nv || l.any Fp.Val.isSNaN }
  else
    let p := l.foldl (fun (s, m, e) v => match v with
      | .fin s' m' e' => (s != s', m * m', e + e')
      | _ => (s, m, e)) (false, 1, (0 : Int))
    a.add p.1 p.2.1 p.2.2
def Thread.acc (t : Thread) : Acc := ⟨t.xa, bitN t.fpm 13, bitN t.fpm 14, false⟩
def Thread.setAcc (t : Thread) (a : Acc) : Thread :=
  ({ t with xa := a.xa, fpm := setField (setField t.fpm 13 13 (b2n a.xo)) 14 14 (b2n a.xv) }.raise (if a.nv then Fp.NV else 0)).touch 20 |>.touch 2
def shX (srcs : List Src) : Shape := { gate := .vector, xacc := true, srcs := srcs }
/-- R127: the lanes in ascending order. -/
def accumulate (t : BitVec 3) (p : BitVec 3) (f : Nat → List Fp.Val) : M Unit := do
  startXacc 4
  let pm ← pv p
  modMe fun th => th.setAcc ((List.range (laneN t)).foldl (fun a i => if act pm i then a.mac (f i) else a) th.acc)
  adv
def execXclr (s : State) : Out := s.run .xclr (shX []) (do
  startXacc 1
  modMe fun t => t.setAcc ⟨0, false, false, false⟩
  adv)
/-- A float lane's value, or a signed integer's (XADD of I64). -/
def laneVal (t : BitVec 3) (x : V) (i : Nat) : Fp.Val :=
  let c := laneOf (laneW t) x i
  if isFloat t then (tyFmt t).decode c else let v := sLane 64 c
    .fin (v < 0) v.natAbs 0
def execXmac2 (a b : BitVec 5) (p t : BitVec 3) (s : State) : Out := s.run (.xmac2 a b p t) (shX [.v a, .v b, .p p]) (do
  let x ← vv a
  let y ← vv b
  accumulate t p fun i => [laneVal t x i, laneVal t y i])
def execXmac3 (c a b : BitVec 5) (p t : BitVec 3) (s : State) : Out := s.run (.xmac3 c a b p t) (shX [.v a, .v b, .v c, .p p]) (do
  let x ← vv a
  let y ← vv b
  let z ← vv c
  accumulate t p fun i => [laneVal t x i, laneVal t y i, laneVal t z i])
def execXadd (a : BitVec 5) (p t : BitVec 3) (s : State) : Out := s.run (.xadd a p t) (shX [.v a, .p p]) (do
  let x ← vv a
  accumulate t p fun i => [laneVal t x i])
/-- R128: the sign of xa, or 2 with XV set. -/
def xsgnOf (t : Thread) : D := if bitN t.fpm 14 then 2 else if t.xa = 0 then 0 else if t.xa.msb then BitVec.allOnes 64 else 1
def execXsgn (d : BitVec 5) (s : State) : Out := s.run (.xsgn d) { shX [] with dst := some d } (do
  startXacc 4
  let t ← me
  wg d (xsgnOf t)
  adv)
/-- R128, R80: xa rounded once to F64; with XV set the canonical NaN and NV. xa = 0 gives +0 in every mode (log 104). -/
def xrndOf (t : Thread) (mode : Fp.Mode) : Nat × Fp.Flags :=
  if bitN t.fpm 14 then (Fp.f64.nan, Fp.NV) else Fp.f64.roundInt mode (t.srLane 0) false t.xa.toInt (-3264)
def execXrnd (d : BitVec 5) (r : BitVec 3) (s : State) : Out := s.run (.xrnd d r) { shX [] with dst := some d } (do
  startXacc 4
  let t ← me
  let mode := Fp.modeOf r.toNat t.fpm
  drawM mode
  wgf d (xrndOf t mode)
  adv)

end Sys2Proof.Machine
end

