-- ==== Sys2Proof/Machine/Mem.lean ====
section
/-! DEFINITION. Loads and stores, scalar and vector, and the address, placement and journal instructions (R124, R125, R129,
R133, R139, R144 to R153), with the steps by which requests, walks, refills and answers arrive. -/
namespace Sys2Proof.Machine

/-! ## Addresses (R132, R133) -/

/-- R144: base plus the sign-extended offset times the access size. The base is read before a stored register. -/
def memAddr (b : BitVec 5) (o : BitVec 10) (scale : Nat) : M D := do
  let x ← gv b
  pure (x + BitVec.ofInt 64 (o.toInt * scale))
/-- The accesses of a vector instruction, each with its own checks. -/
def reachAll (size kind : Nat) : List D → M (List Reach)
  | [] => pure []
  | a :: as => do
    let x ← reachM a size size kind
    let xs ← reachAll size kind as
    pure (x :: xs)
/-- R132: the window decode and the alignment of an address, before protection. -/
def windowAlign (va : D) (align : Nat) (aux : D) : M Unit := fun _ d =>
  if winCode va ≠ 0 ∧ (vaultLoc ((d.thread d.cur).at d.cur) va).isNone then .error (.trap 0x06 0 va 0 none)
  else if va.toNat % align ≠ 0 then .error (.trap 0x05 0 va aux none)
  else .ok ((), d)
def execGtoa (d a w : BitVec 5) (m : Bool) (s : State) : Out := s.run (.gtoa d a w m) (shR d a m) (do
  let ca ← myCore
  aluR (gtoa ca w.toNat) d a)
def execAtog (d a w : BitVec 5) (m : Bool) (s : State) : Out := s.run (.atog d a w m) (shR d a m) (aluR (atog w.toNat) d a)
def execApq (d a : BitVec 5) (m : Bool) (s : State) : Out := s.run (.apq d a m) (shR d a m) (aluR (fun x => ofN (winCode x)) d a)

/-! ## Scalar loads and stores (R144 to R147) -/

def szBytes (z : BitVec 2) : Nat := 2 ^ z.toNat
/-- R157, R154: the atomic home of a word of a page, by the geometry that serves it: none while its granule is locked. -/
def homeOf (d : Dev) (loc : Nat) (va : D) (e : TlbEntry) : Option (Option Nat) :=
  (geometry d (rootOf (ctxOf d loc)) va.toNat e.size e.place).map fun g => homeChannel g.1 (va.toNat % e.size)
/-- R146: a plain scalar access to a GO page first moves the thread to the word's atomic home: a MIGR, which a thread in queue
mode traps on (R168) and which waits for pending g registers, and for the copy of a locked granule. The access then issues there. -/
def goPage (i : Instr) (va : D) (x : Reach) : M Unit := fun _ d =>
  let t := d.thread d.cur
  match x with
  | .vault .. => .ok ((), d)
  | .page e =>
    if plGo e.place && t.mig.isNone then
      if t.qm then .error (.trap 0x01 0 ((encode i).setWidth 64) 2 none)
      else if gPending t then .error .lose
      else match homeOf d d.cur va e with
        | none => .error .lose
        | some (some ch) => .error (.migrate ch)
        | some none => .ok ((), d)
    else .ok ((), d)
/-- R135, R147: a synchronising access traps on the second tier, on host memory, and in a COMP region. -/
def syncTier (va : D) (x : Reach) : M Unit := fun _ d =>
  if x.comp d d.cur va then .error (.trap 0x1C 0 va 1 none)
  else if x.tier = 1 ∨ x.tier = 3 then .error (.trap 0x1C 0 va 0 none)
  else .ok ((), d)
def shLd (t b : BitVec 5) (m : Bool) : Shape := { srcs := [.g b m], long := [t] }
def shSt (t b : BitVec 5) (m : Bool) : Shape := { srcs := [.g b m, .g t m] }
/-- A load: its destination is EMPTY until the value arrives. -/
def loadOp (i : Instr) (op : ROp) (sync : Bool) (t b : BitVec 5) (c : BitVec 3) (o : BitVec 10) (size : Nat) : M Unit := do
  let va ← memAddr b o size
  let x ← reachM va size size (if sync then 3 else 0)
  if sync then syncTier va x else goPage i va x
  modD fun d => (sendReq d (newReq d op c.toNat [mkPart va size 0 0 x] (.g t))).2
  adv
/-- A plain store: at issue into the own vault, else through the journal (R148). -/
def plainStore (r : Req) (x : Reach) (va data : D) (size : Nat) : M Unit := fun m d =>
  match x with
  | .vault tile off => if storeNow m d r tile off size then .ok ((), writeBytes m d d.cur (vaultKey tile off) size data.toNat)
      else journalM r .st va data size m d
  | .page _ => journalM r .st va data size m d
def storeOp (i : Instr) (t b : BitVec 5) (c : BitVec 3) (o : BitVec 10) (size : Nat) : M Unit := do
  let va ← memAddr b o size
  let y ← gv t
  let data := ofN (y.toNat % 2 ^ (8 * size))
  let x ← reachM va size size 1
  goPage i va x
  let d ← getD
  plainStore (newReq d .st c.toNat [mkPart va size 0 data x] .none) x va data size
  adv
/-- R147: STE and STF always take a journal entry. -/
def syncStore (op : ROp) (k : JKind) (t b : BitVec 5) (c : BitVec 3) (o : BitVec 10) : M Unit := do
  let va ← memAddr b o 8
  let y ← gv t
  let x ← reachM va 8 8 3
  syncTier va x
  let d ← getD
  journalM (newReq d op c.toNat [mkPart va 8 0 y x] .none) k va y 8
  adv
def execLd (t b : BitVec 5) (m : Bool) (z : BitVec 2) (c : BitVec 3) (o : BitVec 10) (s : State) : Out :=
  s.run (.ld t b m z c o) (shLd t b m) (loadOp (.ld t b m z c o) (.ld true) false t b c o (szBytes z))
def execLdz (t b : BitVec 5) (m : Bool) (z : BitVec 2) (c : BitVec 3) (o : BitVec 10) (s : State) : Out :=
  s.run (.ldz t b m z c o) (shLd t b m) (loadOp (.ldz t b m z c o) (.ld false) false t b c o (szBytes z))
def execSt (t b : BitVec 5) (m : Bool) (z : BitVec 2) (c : BitVec 3) (o : BitVec 10) (s : State) : Out :=
  s.run (.st t b m z c o) (shSt t b m) (storeOp (.st t b m z c o) t b c o (szBytes z))
def execLdt (t b : BitVec 5) (m : Bool) (c : BitVec 3) (o : BitVec 10) (s : State) : Out :=
  s.run (.ldt t b m c o) (shLd t b m) (loadOp (.ldt t b m c o) .ldt true t b c o 8)
def execLdw (t b : BitVec 5) (m : Bool) (c : BitVec 3) (o : BitVec 10) (s : State) : Out :=
  s.run (.ldw t b m c o) (shLd t b m) (loadOp (.ldw t b m c o) .ldw true t b c o 8)
def execSte (t b : BitVec 5) (m : Bool) (c : BitVec 3) (o : BitVec 10) (s : State) : Out :=
  s.run (.ste t b m c o) (shSt t b m) (syncStore .ste .ste t b c o)
def execStf (t b : BitVec 5) (m : Bool) (c : BitVec 3) (o : BitVec 10) (s : State) : Out :=
  s.run (.stf t b m c o) (shSt t b m) (syncStore .stf .stf t b c o)

/-! ## Vector loads and stores (R124, R125) -/

def partsOf (size : Nat) (as : List (Nat × D × Nat)) (xs : List Reach) : List Part :=
  (as.zip xs).map fun ((lane, va, data), x) => mkPart va size lane (ofN data) x
/-- R148: a store of many parts is performed at issue when every part may be; else it takes one entry for each group. -/
def storeParts (sc : Nat) (groups : List (List Part)) : M Unit := fun m d =>
  let ps := groups.flatten
  let r := newReq d .st sc ps .none
  let here := ps.map fun p => (p, if p.place.isNone then vaultLoc r.core p.va else none)
  let now := here.all fun (p, l) => match l with
    | some (t, o) => storeNow m d r t o p.size
    | none => false
  if now then
    .ok ((), here.foldl (fun d (p, l) => match l with
      | some (t, o) => writeBytes m d d.cur (vaultKey t o) p.size p.data.toNat
      | none => d) d)
  else if 32 < (d.core ((d.thread d.cur).at d.cur)).journal.length + groups.length then .error .lose
  else
    (groups.foldlM (fun d g =>
      let p := g.headD ⟨0, 8, 0, 0, none, 0, 0⟩
      journal d (newReq d .st sc g .none) .vst p.va 0 p.data p.size) d).elim (.error .lose) fun d => .ok ((), d)
/-- The 16 words of a VLD or VST. -/
def vecWords (va : D) : List (Nat × D) := (List.range 16).map fun k => (k, va + ofN (8 * k))
def execVld (v b : BitVec 5) (m : Bool) (c : BitVec 3) (o : BitVec 10) (s : State) : Out :=
  s.run (.vld v b m c o) { gate := .vector, srcs := [.g b m], also := [.v v] } (do
    let va ← memAddr b o 128
    windowAlign va 128 0
    let ws := vecWords va
    let xs ← reachAll 8 0 (ws.map Prod.snd)
    modD fun d => (sendReq d (newReq d (.ld false) c.toNat (partsOf 8 (ws.map fun w => (w.1, w.2, 0)) xs) (.v v))).2
    adv)
def execVst (v b : BitVec 5) (m : Bool) (c : BitVec 3) (o : BitVec 10) (s : State) : Out :=
  s.run (.vst v b m c o) { gate := .vector, srcs := [.g b m, .v v] } (do
    let va ← memAddr b o 128
    let y ← vv v
    windowAlign va 128 0
    let ws := vecWords va
    let xs ← reachAll 8 1 (ws.map Prod.snd)
    storeParts c.toNat [partsOf 8 (ws.map fun w => (w.1, w.2, laneOf 64 y w.1)) xs]
    adv)
/-- R125: the active lanes with their addresses. -/
def laneAddrs (t : BitVec 3) (base : D) (x : V) (p : D) (scale : Nat) : List (Nat × D) :=
  ((List.range (laneN t)).filter (act p)).map fun i => (i, base + BitVec.ofInt 64 (sLane (laneW t) (laneOf (laneW t) x i) * scale))
/-- Windows and alignment, lane by lane. -/
def lanesAligned (size : Nat) : List (Nat × D) → M Unit
  | [] => pure ()
  | (i, va) :: l => do
    windowAlign va size (ofN i)
    lanesAligned size l
def execVgx (v a x : BitVec 5) (p t : BitVec 3) (k1 : BitVec 2) (s : State) : Out :=
  s.run (.vgx v a x p t k1) (shV [.g a false, .v x] v p) (do
    let base ← gv a
    let idx ← vv x
    let pm ← pv p
    let old ← vv v
    let w := laneW t
    let ls := laneAddrs t base idx pm (szBytes k1)
    lanesAligned (w / 8) ls
    let xs ← reachAll (w / 8) 0 (ls.map Prod.snd)
    if ls.isEmpty then wv v (ofLanes w ((List.range (laneN t)).map (laneOf w old)))
    else modD fun d => (sendReq d (newReq d (.ld false) 0 (partsOf (w / 8) (ls.map fun l => (l.1, l.2, 0)) xs) (.v v))).2
    adv)
def execVsx (v a x : BitVec 5) (p t : BitVec 3) (k1 : BitVec 2) (s : State) : Out :=
  s.run (.vsx v a x p t k1) { gate := .vector, srcs := [.g a false, .v x, .p p, .v v] } (do
    let base ← gv a
    let idx ← vv x
    let pm ← pv p
    let y ← vv v
    let w := laneW t
    let ls := laneAddrs t base idx pm (szBytes k1)
    lanesAligned (w / 8) ls
    let xs ← reachAll (w / 8) 1 (ls.map Prod.snd)
    if ls.isEmpty then pure () else storeParts 0 [partsOf (w / 8) (ls.map fun l => (l.1, l.2, laneOf w y l.1)) xs]
    adv)

/-! ## XSPL and XFIL (R129) -/

def xaWords (va : D) : List (Nat × D) := (List.range 101).map fun k => (k, va + ofN (8 * k))
/-- Word `k` of the image of xa. -/
def xaWord (t : Thread) (k : Nat) : Nat :=
  if k < 100 then t.xa.toNat / 2 ^ (64 * k) % 2 ^ 64 else b2n (bitN t.fpm 13) + 2 * b2n (bitN t.fpm 14)
/-- A list in pieces of `n`, `k` of them. -/
def pieces {α} (n : Nat) : Nat → List α → List (List α)
  | 0, _ => []
  | k + 1, l => l.take n :: pieces n k (l.drop n)
def execXspl (a : BitVec 5) (s : State) : Out := s.run (.xspl a) (shX [.g a false]) (do
  let va ← gv a
  windowAlign va 8 0
  let t ← me
  let ws := xaWords va
  let xs ← reachAll 8 1 (ws.map Prod.snd)
  startXacc 26
  storeParts 0 (pieces 16 7 (partsOf 8 (ws.map fun w => (w.1, w.2, xaWord t w.1)) xs))
  adv)
def execXfil (a : BitVec 5) (s : State) : Out := s.run (.xfil a) (shX [.g a false]) (do
  let va ← gv a
  windowAlign va 8 0
  let ws := xaWords va
  let xs ← reachAll 8 0 (ws.map Prod.snd)
  startXacc 26
  modD fun d => (sendReq d (newReq d (.ld false) 0 (partsOf 8 (ws.map fun w => (w.1, w.2, 0)) xs) .xa)).2
  adv)

/-! ## PLQ (R139) -/

/-- What PLQ says of a page's placement word. -/
def plqOf (d : Dev) (cur : Bool) (p : Option D) : D :=
  if cur then match p with
    | some w => if plMig w then
        (match ((setBits (plDies w) 4).findSome? fun k => (d.die k).cursors.get? (plCur w)) with
          | some c => ofN c.granule
          | none => BitVec.allOnes 64)
      else BitVec.allOnes 64
    | none => BitVec.allOnes 64
  else p.getD 0
/-- One turn on a TLB hit, the walk's time on a miss; no address and no walk traps. The mark 4 stands for PLQ in a walk. -/
def placeQuery (cur : Bool) (d a : BitVec 5) : M Unit := do
  let va ← gv a
  let dv ← getD
  let ca ← myCore
  let loc := dv.cur
  let ctx := rootOf (ctxOf dv loc)
  match winCode va with
  | 0 => match tlbFind (dv.tile (tlbTile loc)) ctx va.toNat with
    | some e => longG 16 d (plqOf dv cur (some e.place))
    | none =>
      if 4 ≤ (dv.tile (tlbTile loc)).walks.length then lose
      else fun m d1 =>
        let (id, d2) := pendArr d1 loc [.g d]
        let n := (walk m d2 ctx va.toNat 0 false).1
        let d3 := d2.updTile (tlbTile loc) fun tl => { tl with walks := tl.walks ++ [⟨loc, ctx, va, 4, false⟩] }
        .ok ((), d3.postRange (40 * n) (40 * n) .placementTlbWalk [loc, va.toNat, 4, id, b2n cur])
  | 7 => longG 16 d (plqOf dv cur none)
  | _ => longG 16 d (plqOf dv cur (some (ofN (2 ^ 63 + 2 ^ (58 + dieOf ca)))))
  adv
def execPlq (d a : BitVec 5) (m : Bool) (s : State) : Out := s.run (.plq d a m) { srcs := [.g a m], long := [d] } (placeQuery false d a)
def execPlqCur (d a : BitVec 5) (m : Bool) (s : State) : Out := s.run (.plqCur d a m) { srcs := [.g a m], long := [d] } (placeQuery true d a)
/-- R141: a walk ends, after the copy of a granule that holds one of its nodes (R155). For PLQ a refused walk answers like an unmapped address. -/
def execPlacementTlbWalk (s : State) : Out := s.event fun m d =>
  let loc := d.arg 0
  let va := ofN (d.arg 1)
  let held := (d.tile (tlbTile loc)).walks.any fun w => w.loc = loc && w.va = va && w.kind = d.arg 2 && walkHeld m d w.ctx va.toNat
  if held then d.post 16 .placementTlbWalk d.args
  else if d.arg 2 = 4 then
    let tile := tlbTile loc
    match (d.tile tile).walks.find? (fun w => w.loc = loc && w.va = va && w.kind = 4) with
    | none => d
    | some w =>
      let d := walkFix m (d.updTile tile fun tl => { tl with walks := tl.walks.erase w }) loc (masterOf (coreOf loc)) w.ctx va.toNat
      match (walk m d w.ctx va.toNat 0 false).2 with
      | .leaf p r l => fillArr (tlbInstall d tile ⟨w.ctx, va.toNat / leafSize l * leafSize l, leafSize l, p, r⟩) (d.arg 3) 0
          (((d.arrs.get? (d.arg 3)).map fun a => a.vals.map fun v => (v.1, (plqOf d (d.arg 4 = 1) (some p)).setWidth 6400)).getD [])
      | .refused .. => fillArr d (d.arg 3) 0
          (((d.arrs.get? (d.arg 3)).map fun a => a.vals.map fun v => (v.1, (plqOf d (d.arg 4 = 1) none).setWidth 6400)).getD [])
  else endWalk m d loc va (d.arg 2)

/-! ## The journal's instructions (R152, R153) -/

/-- The entry an index names to a thread: its own refused one, which a channel core may hold (log 109), else the one of the core it
runs on. -/
def journalEntry (d : Dev) (loc idx : Nat) : Option JEntry :=
  (((slotEntries d loc).find? fun e => e.1 = idx && e.2.refused.isSome).map Prod.snd).or ((d.core ((d.thread loc).at loc)).journal.get? idx)
/-- PSJ.INSP: of a free entry only the status is known. -/
def journalWord (d : Dev) (loc idx : Nat) (sel : Nat) : M D := fun _ s =>
  if 32 ≤ idx then .ok (0, s)
  else match journalEntry d loc idx with
    | none => if sel = 0 then .ok (0, s) else .ok (Config.freeBits 64 s.free, { s with free := s.free + 1 })
    | some e =>
      if e.loc ≠ loc ∧ !(d.thread loc).priv then .ok (0, s)
      else .ok (match sel with
        | 0 => entryStatus e
        | 1 => e.addr
        | 2 => e.data
        | 3 => e.pc
        | _ => e.addrHi, s)
def execPsjInsp (d a k1 : BitVec 5) (m : Bool) (s : State) : Out := s.run (.psjInsp d a k1 m) (shR d a m) (do
  let x ← gv a
  let dv ← getD
  let y ← journalWord dv dv.cur x.toNat k1.toNat
  wg d y
  adv)
/-- The status of PSJ.REPOST and PSJ.DISCARD, and the entry when it is 0. -/
def journalPick (d : Dev) (loc idx : Nat) : Nat × Option JEntry :=
  if 32 ≤ idx then (3, none)
  else match journalEntry d loc idx with
    | none => (1, none)
    | some e => if e.loc ≠ loc ∧ !(d.thread loc).priv then (2, none) else if e.refused.isNone then (1, none) else (0, some e)
/-- R152: send what the entry recorded again, with its placement word (log 108), after every access the thread issued earlier. A
message goes out again whole. -/
def repost (d : Dev) (ca ent : Nat) (e : JEntry) : Dev :=
  match e.orig with
  | some r =>
    let (id, d) := sendReq d { r with ent := some ent, again := true, regions := [] }
    let d := { d with fwd := d.fwd.map fun (f : Nat × Nat) => if f.2 = e.req then (f.1, id) else f }
    d.updCore ca fun c => { c with journal := c.journal.set ent { e with refused := none, taken := false, req := id } }
  | none =>
    let (id, d) := d.newId
    let d := d.updCore ca fun c => { c with journal := c.journal.set ent { e with refused := none, taken := false, req := id, again := true } }
    sendEntry d ca ent id 8 376 (e.msg.getD 4 0).toNat
def execPsjRepost (d a : BitVec 5) (m : Bool) (s : State) : Out := s.run (.psjRepost d a m) (shR d a m) (do
  let x ← gv a
  let dv ← getD
  let (st, e) := journalPick dv dv.cur x.toNat
  wg d (ofN st)
  match e with
  | some e => modD fun d => repost d e.core x.toNat e
  | none => pure ()
  adv)
def execPsjDiscard (d a : BitVec 5) (m : Bool) (s : State) : Out := s.run (.psjDiscard d a m) (shR d a m) (do
  let x ← gv a
  let dv ← getD
  let (st, e) := journalPick dv dv.cur x.toNat
  wg d (ofN st)
  match e with
  | some e => modD fun d => d.updCore e.core fun c => { c with journal := c.journal.erase x.toNat }
  | none => pure ()
  adv)
/-- R150: every earlier load is answered, then the earliest faulted one in program order traps. The reads of a grammar query and
of NCAS are loads of the thread (R240). -/
def settleLoads : M Unit := fun _ d =>
  let loads := openLoads d d.cur
  if !loads.isEmpty then .error (if loads.all id then .pageFault else .lose)
  else match ((d.thread d.cur).faults.map Prod.fst).min? with
    | some id => .error (.fault id)
    | none => .ok ((), d)
/-- R153: the slot's journal must be clear; a refusal is taken at the boundary (R151), and an entry whose trap was taken keeps the
thread waiting until it is reposted or discarded. -/
def settleStores : M Unit := fun _ d => if (ownEntries d d.cur).isEmpty then .ok ((), d) else .error .lose
def execPsd (s : State) : Out := s.run .psd {} (do
  settleLoads
  settleStores
  adv)

/-! ## Arrivals -/

/-- The values of a producer reach its thread's registers, and a UNI pair's followers within 4 cycles (R21). -/
def deliverArr (d : Dev) (id : Nat) (a : Arr) : Dev :=
  let d := d.updOwner a.loc id fun t =>
    let t := a.vals.foldl (fun t v => t.deliver id v.1 v.2) t
    if a.fp then (t.raise a.flags).touch 2 else t
  let d := { d with arrs := d.arrs.erase id, reqs := d.reqs.erase id }
  a.posts.foldl (fun d p => match d.arrs.get? p.2 with
    | some f => ({ d with arrs := d.arrs.set p.2 { f with vals := a.vals } }).postRange 0 4 .uniPostArrival [p.2]
    | none => d) d
def execProducerValueArrival (s : State) : Out := s.event fun _ d =>
  match d.arrs.get? (d.arg 0) with
  | some a => deliverArr d (d.arg 0) a
  | none => d
def execUniPostArrival (s : State) : Out := s.event fun _ d =>
  match d.arrs.get? (d.arg 0) with
  | some a => deliverArr d (d.arg 0) a
  | none => d
/-- R150, R129, R111: the destination stays EMPTY behind the fault, xa is cleared, followers' registers wait for nothing. -/
def execLoadFaultArrival (s : State) : Out := s.event fun _ d =>
  match d.arrs.get? (d.arg 0) with
  | none => d
  | some a =>
    let id := d.arg 0
    let d := d.updOwner a.loc id fun t =>
      let t := match a.fault with
        | some f => if f.xacc then { t with faults := t.faults.set id f, xa := 0 }.touch 20 else { t with faults := t.faults.set id f }
        | none => t
      a.vals.foldl (fun t v => t.deliverFault id v.1) t
    let d := { d with arrs := d.arrs.erase id, reqs := d.reqs.erase id }
    a.posts.foldl (fun d p => match d.arrs.get? p.2 with
      | some f => { d.updThread p.1 (fun t => f.vals.foldl (fun t v => t.unpend p.2 v.1) t) with arrs := d.arrs.erase p.2 }
      | none => d) d
def execJournalAck (s : State) : Out := s.event fun _ d => ackEntry d (d.arg 0) (d.arg 1)
def execJournalRefusal (s : State) : Out := s.event fun _ d => refuseEntry d (d.arg 0) (d.arg 1) (d.arg 2)
/-- R142, R157, R166: a plain access is performed at its target; an atomic or synchronising one at its home; a RED as a
remote-update thread. -/
def atTarget (m : Mem) (d : Dev) (id : Nat) (r : Req) : Dev := match r.op with
  | .ld _ | .st => tryReq m d id
  | .red _ => d.post 0 .remoteUpdate [id]
  | _ => d.post 0 .atomicAtHome [id]
def execMemoryRequestAtTarget (s : State) : Out := s.event fun m d =>
  match d.reqs.get? (d.arg 0) with
  | none => d
  | some r => atTarget m d (d.arg 0) r
/-- R142: a request waiting for its page is performed once the page is resident; the model looks every 16 cycles. -/
def execNonresidentRequestPerformed (s : State) : Out := s.event fun m d =>
  let id := d.arg 0
  match d.reqs.get? id with
  | none => d
  | some r =>
    if r.parts.any (fun p => match target d r p with
      | .nonresident _ => true
      | _ => false) then d.post 16 .nonresidentRequestPerformed [id]
    else atTarget m { d with reqs := d.reqs.set id { r with phase := .sent } } id r
/-- R260: the hold on its granule has ended. -/
def execHeldStorePerform (s : State) : Out := s.event fun m d =>
  let id := d.arg 0
  match d.reqs.get? id with
  | none => d
  | some r => tryReq m { d with reqs := d.reqs.set id { r with phase := .sent } } id

/-! ## Instruction-store refills (R24, R81) -/

/-- A line enters a store of 64 KiB; a full one drops a line of free choice. -/
def putLine (d : Dev) (t : Tbl (BitVec 2048)) (ln : Nat) (x : BitVec 2048) : Tbl (BitVec 2048) :=
  if (t.get? ln).isSome || t.length < 256 then t.set ln x
  else Tbl.set (List.eraseIdx t (Config.freeNat d.free % t.length)) ln x
def installLine (d : Dev) (loc ln : Nat) (x : BitVec 2048) : Dev :=
  let ca := coreOf loc
  let d' := if isCompute ca then d.updRow (rowKeyOf ca) fun r => { r with istore := putLine d r.istore ln x }
    else d.updCore ca fun c => { c with istore := putLine d c.istore ln x }
  { d' with free := d.free + 1 }
/-- A line arrives, or its translation fault, which the thread takes at the word; a page that is not resident or a stack that
retrains is waited for. -/
def refillLine (m : Mem) (d : Dev) (loc ln : Nat) : Dev :=
  let key := if isCompute (coreOf loc) then rowKeyOf (coreOf loc) else 2 ^ 20 + coreOf loc
  let d := { d with refills := d.refills.erase (key, ln) }
  let va := 256 * ln
  let ctx := rootOf (ctxOf d loc)
  let user := !(d.thread loc).priv
  let refuse (d : Dev) (c : Nat) (aux : D) : Dev := d.updThread loc fun t => { t with refusal := some (ofN va, 2, c, aux) }
  if walkHeld m d ctx va then { d with refills := d.refills ++ [(key, ln)] }.postRange 16 0 .instructionStoreRefill [loc, ln]
  else
  let d := walkFix m d loc (masterOf (coreOf loc)) ctx va
  match firstStage m d ctx va 2 user with
  | .refused c aux => refuse d c aux
  | .leaf p w l =>
    let part : Part := ⟨ofN va, 8, 0, 0, some p, leafSize l, w⟩
    let r : Req := { newReq { d with cur := loc } (.ld false) 0 [part] .none with user := user }
    match target d r part with
    | .byte k _ => match (List.range 8).find? fun i => uncorrectable m d (k + 32 * i) with
      | some i =>
        let d := pushFault d (keyDie k) (ofN (keyPhys (k + 32 * i))) (if 68 ≤ k / 2 ^ 56 then 5 else 1) (masterOf r.core)
        refuse d 0x0D 0
      | none => (List.range 8).foldl (fun d i => correctErr m d loc (k + 32 * i)) (installLine d loc ln (BitVec.ofNat 2048 (rdN m d k 256)))
    | .peer _ => { installLine d loc ln (Config.freeBits 2048 d.free) with free := d.free + 1 }
    | .nonresident die => { pageRequest d die (masterOf r.core) loc (rootOf (ctxOf d loc)) part.va part.page with refills := d.refills ++ [(key, ln)] }.postRange 180 480 .instructionStoreRefill [loc, ln]
    | .wait => { d with refills := d.refills ++ [(key, ln)] }.postRange 16 0 .instructionStoreRefill [loc, ln]
    | .denied a x => freeze d (coreOf loc) a x 0
    | .span die off => { installLine d loc ln (BitVec.ofNat 2048 (spanBytes d die off 256)) with free := d.free + 1 }
    | .refused 0x07 => refuse d 0x07 (ofN 2)
    | _ => refuse d 0x08 (refuseAux false l 2)
def execInstructionStoreRefill (s : State) : Out := s.event fun m d => refillLine m d (d.arg 0) (d.arg 1)

end Sys2Proof.Machine
end

