-- ==== Sys2Proof/Machine/Atomic.lean ====
section
/-! DEFINITION. Atomics, reservations, reductions, migration and fences (R157 to R170), with the steps at their homes. -/
namespace Sys2Proof.Machine

/-! ## AMO and CAS (R158 to R162) -/

/-- R159: an atomic on a COMP region traps; RSV, SCN, WRS and RED as AMO and CAS do (log 143). -/
def atomicTier (va : D) (x : Reach) : M Unit := fun _ d => if x.comp d d.cur va then .error (.trap 0x1C 0 va 2 none) else .ok ((), d)
/-- R162: what PCIe has no AtomicOp for traps on a host page. -/
def hostOp (ok : Bool) (va : D) (x : Reach) : M Unit := fun _ d =>
  if x.tier = 3 ∧ !ok then .error (.trap 0x1A 0 va 0 none) else .ok ((), d)
def wd (z : Bool) : Nat := if z then 8 else 4
def shAmo (d a b : BitVec 5) (m n f : Bool) : Shape := { srcs := [.g a m, .g b n], long := if f then [d, pairOf d] else [d] }
/-- R158: the request of an AMO; with d = g0 the update is still performed. -/
def amo (op : Nat) (d a b : BitVec 5) (f : Bool) (c : BitVec 3) (size : Nat) : M Unit := do
  let va ← gv a
  let y ← gv b
  let x ← reachM va size size 3
  atomicTier va x
  hostOp (op = 0 || op = 8) va x
  modD fun dv => (sendReq dv { newReq dv (.amo op) c.toNat [mkPart va size 0 0 x] (.g d) with opnds := [y], sf := f }).2
  adv
def execAmoAdd (d a b : BitVec 5) (m n f : Bool) (c : BitVec 3) (z : Bool) (s : State) : Out :=
  s.run (.amoAdd d a b m n f c z) (shAmo d a b m n f) (amo 0 d a b f c (wd z))
def execAmoAnd (d a b : BitVec 5) (m n f : Bool) (c : BitVec 3) (z : Bool) (s : State) : Out :=
  s.run (.amoAnd d a b m n f c z) (shAmo d a b m n f) (amo 1 d a b f c (wd z))
def execAmoOr (d a b : BitVec 5) (m n f : Bool) (c : BitVec 3) (z : Bool) (s : State) : Out :=
  s.run (.amoOr d a b m n f c z) (shAmo d a b m n f) (amo 2 d a b f c (wd z))
def execAmoXor (d a b : BitVec 5) (m n f : Bool) (c : BitVec 3) (z : Bool) (s : State) : Out :=
  s.run (.amoXor d a b m n f c z) (shAmo d a b m n f) (amo 3 d a b f c (wd z))
def execAmoMin (d a b : BitVec 5) (m n f : Bool) (c : BitVec 3) (z : Bool) (s : State) : Out :=
  s.run (.amoMin d a b m n f c z) (shAmo d a b m n f) (amo 4 d a b f c (wd z))
def execAmoMax (d a b : BitVec 5) (m n f : Bool) (c : BitVec 3) (z : Bool) (s : State) : Out :=
  s.run (.amoMax d a b m n f c z) (shAmo d a b m n f) (amo 5 d a b f c (wd z))
def execAmoMinn (d a b : BitVec 5) (m n f : Bool) (c : BitVec 3) (z : Bool) (s : State) : Out :=
  s.run (.amoMinn d a b m n f c z) (shAmo d a b m n f) (amo 6 d a b f c (wd z))
def execAmoMaxn (d a b : BitVec 5) (m n f : Bool) (c : BitVec 3) (z : Bool) (s : State) : Out :=
  s.run (.amoMaxn d a b m n f c z) (shAmo d a b m n f) (amo 7 d a b f c (wd z))
def execAmoSwp (d a b : BitVec 5) (m n f : Bool) (c : BitVec 3) (z : Bool) (s : State) : Out :=
  s.run (.amoSwp d a b m n f c z) (shAmo d a b m n f) (amo 8 d a b f c (wd z))
def execAmoFadds (d a b : BitVec 5) (m n f : Bool) (c : BitVec 3) (s : State) : Out :=
  s.run (.amoFadds d a b m n f c) (shAmo d a b m n f) (amo 9 d a b f c 4)
def execAmoFaddd (d a b : BitVec 5) (m n f : Bool) (c : BitVec 3) (s : State) : Out :=
  s.run (.amoFaddd d a b m n f c) (shAmo d a b m n f) (amo 10 d a b f c 8)
/-- R160: d is read in block mode; Q takes pairs. -/
def shCas (d a b : BitVec 5) (m n f : Bool) (z : BitVec 2) : Shape :=
  if z = 2 then { srcs := [.g a m, .g b n, .g (pairOf b) n, .g d false, .g (pairOf d) false], long := [d, pairOf d] }
  else { srcs := [.g a m, .g b n, .g d false], long := if f then [d, pairOf d] else [d] }
def cas (d a b : BitVec 5) (f : Bool) (c : BitVec 3) (z : BitVec 2) : M Unit := do
  let size := 4 * 2 ^ z.toNat
  let va ← gv a
  let n0 ← gv b
  let n1 ← if z = 2 then gv (pairOf b) else pure 0
  let e0 ← gv d
  let e1 ← if z = 2 then gv (pairOf d) else pure 0
  let x ← reachM va size size 3
  atomicTier va x
  modD fun dv => (sendReq dv { newReq dv .cas c.toNat [mkPart va size 0 0 x] (.g d) with opnds := [e0, e1, n0, n1], sf := f }).2
  adv
def execCas (d a b : BitVec 5) (m n f : Bool) (c : BitVec 3) (z : BitVec 2) (s : State) : Out :=
  s.run (.cas d a b m n f c z) (shCas d a b m n f z) (cas d a b f c z)

/-! ## Reservations (R163 to R165) -/

def execRsv (d a : BitVec 5) (m : Bool) (c : BitVec 3) (z : Bool) (s : State) : Out :=
  s.run (.rsv d a m c z) { srcs := [.g a m], long := [d] } (do
    let va ← gv a
    let x ← reachM va (wd z) (wd z) 3
    atomicTier va x
    hostOp false va x
    modD fun dv =>
      -- R164: another RSV loses the reservation, but takes nothing from a SCN on its way; a constrained sequence may begin
      let scn := dv.reqs.any fun r => r.2.loc = dv.cur && r.2.op = .scn && r.2.phase != .performed
      let dv := (if scn then dv else dropResv dv dv.cur).updThread dv.cur fun t => { t with cons := some (0, va) }
      (sendReq dv (newReq dv .rsv c.toNat [mkPart va (wd z) 0 0 x] (.g d))).2
    adv)
def execScn (d a b : BitVec 5) (m n : Bool) (c : BitVec 3) (z : Bool) (s : State) : Out :=
  s.run (.scn d a b m n c z) { srcs := [.g a m, .g b n], long := [d] } (do
    let va ← gv a
    let y ← gv b
    let x ← reachM va (wd z) (wd z) 3
    atomicTier va x
    hostOp false va x
    modD fun dv =>
      let seq := match (dv.thread dv.cur).cons with
        | some (n, a) => a = va && n ≤ 8
        | none => false
      (sendReq dv { newReq dv .scn c.toNat [mkPart va (wd z) 0 0 x] (.g d) with opnds := [y, ofN (b2n seq)] }).2
    adv)
/-- R165: with a reservation for the address the thread parks until it is lost; without one WRS is a load of 64 bits. An RSV not
yet answered is waited for. -/
def wrs (d a : BitVec 5) (turns : Nat) : M Unit := do
  let va ← gv a
  let dv ← getD
  if dv.reqs.any fun r => r.2.loc = dv.cur && r.2.op = .rsv && r.2.phase != .performed then lose else
  let held := dv.resvs.find? fun r => r.loc = dv.cur && r.va = va
  let size := (held.map fun r => r.size).getD 8
  let x ← reachM va size size 3
  atomicTier va x
  hostOp false va x
  match held with
  | some _ => park .reservation turns [d]
  | none => do
    modD fun dv => (sendReq dv (newReq dv (.ld false) 0 [mkPart va 8 0 0 x] (.g d))).2
    adv
def execWrs (d a : BitVec 5) (m : Bool) (i : BitVec 15) (s : State) : Out :=
  s.run (.wrs d a m i) { srcs := [.g a m], long := [d] } (wrs d a i.toNat)
/-- R164: the home's hold of a word ends. -/
def execReservationHoldExpiry (s : State) : Out := s.event fun _ d => { d with resvHold := d.resvHold.erase (d.arg 0) }

/-! ## Reductions (R166) -/

def shRed (a b : BitVec 5) (m n : Bool) : Shape := { srcs := [.g a m, .g b n] }
def red (op : Nat) (a b : BitVec 5) (c : BitVec 3) (size : Nat) : M Unit := do
  let va ← gv a
  let y ← gv b
  let x ← reachM va size size 3
  atomicTier va x
  hostOp (op = 0) va x
  let dv ← getD
  let y := ofN (y.toNat % 2 ^ (8 * size))
  journalM { newReq dv (.red op) c.toNat [mkPart va size 0 0 x] .none with opnds := [y] } .red va y size
  adv
def execRedAdd (a b : BitVec 5) (m n : Bool) (c : BitVec 3) (z : Bool) (s : State) : Out := s.run (.redAdd a b m n c z) (shRed a b m n) (red 0 a b c (wd z))
def execRedAnd (a b : BitVec 5) (m n : Bool) (c : BitVec 3) (z : Bool) (s : State) : Out := s.run (.redAnd a b m n c z) (shRed a b m n) (red 1 a b c (wd z))
def execRedOr (a b : BitVec 5) (m n : Bool) (c : BitVec 3) (z : Bool) (s : State) : Out := s.run (.redOr a b m n c z) (shRed a b m n) (red 2 a b c (wd z))
def execRedXor (a b : BitVec 5) (m n : Bool) (c : BitVec 3) (z : Bool) (s : State) : Out := s.run (.redXor a b m n c z) (shRed a b m n) (red 3 a b c (wd z))
def execRedMin (a b : BitVec 5) (m n : Bool) (c : BitVec 3) (z : Bool) (s : State) : Out := s.run (.redMin a b m n c z) (shRed a b m n) (red 4 a b c (wd z))
def execRedMax (a b : BitVec 5) (m n : Bool) (c : BitVec 3) (z : Bool) (s : State) : Out := s.run (.redMax a b m n c z) (shRed a b m n) (red 5 a b c (wd z))
def execRedMinn (a b : BitVec 5) (m n : Bool) (c : BitVec 3) (z : Bool) (s : State) : Out := s.run (.redMinn a b m n c z) (shRed a b m n) (red 6 a b c (wd z))
def execRedMaxn (a b : BitVec 5) (m n : Bool) (c : BitVec 3) (z : Bool) (s : State) : Out := s.run (.redMaxn a b m n c z) (shRed a b m n) (red 7 a b c (wd z))
def execRedFadds (a b : BitVec 5) (m n : Bool) (c : BitVec 3) (s : State) : Out := s.run (.redFadds a b m n c) (shRed a b m n) (red 9 a b c 4)
def execRedFaddd (a b : BitVec 5) (m n : Bool) (c : BitVec 3) (s : State) : Out := s.run (.redFaddd a b m n c) (shRed a b m n) (red 10 a b c 8)

/-! ## Channel cores (R157, R166, R167) -/

/-- The slots of a channel core that hold a context or run a remote update. -/
def chanBusy (d : Dev) (ch : Nat) : List Nat := (d.threads.filterMap fun x => match x.2.mig with
  | some (c, some s) => if c = ch then some s else none
  | _ => none) ++ (d.chanRun.filter fun x => x.1 = ch).map fun x => x.2.1
def chanFree (d : Dev) (ch : Nat) : Option Nat := (List.range 16).find? fun s => !(chanBusy d ch).contains s
/-- An item's turn at a channel core: the first in its arrival queue finds a free slot. -/
def chanTurn (d : Dev) (ch item : Nat) (ctx : Bool) : Option Nat :=
  match d.chanQ.find? fun x => x.1 = ch with
  | some x => if x.2 = (item, ctx) then chanFree d ch else none
  | none => none
/-- R166: the arrival queue holds 64; what finds it full stays where it is. -/
def chanJoin (d : Dev) (ch item : Nat) (ctx : Bool) : Dev :=
  if d.chanQ.contains (ch, item, ctx) || 64 ≤ (d.chanQ.filter fun x => x.1 = ch).length then d else { d with chanQ := d.chanQ ++ [(ch, item, ctx)] }
def chanLeave (d : Dev) (ch item : Nat) (ctx : Bool) : Dev := { d with chanQ := d.chanQ.filter fun x => x != (ch, item, ctx) }
/-- The channel core of a request's home, if it has one. -/
def reqChannel (d : Dev) (r : Req) : Option Nat := match r.parts with
  | p :: _ => match target d r p with
    | .byte _ h => if 1000 ≤ h ∧ h < 1104 then some (mkCore (h - 1000) 0 2) else none
    | _ => none
  | [] => none
/-- R157: performed indivisibly at the word's home, in arrival order. -/
def execAtomicAtHome (s : State) : Out := s.event fun m d => tryReq m d (d.arg 0)
/-- R166: a remote update waits for a free slot of the channel core, where the model looks again each turn; it occupies the slot until
the slot's turn, when it is performed. -/
def execRemoteUpdate (s : State) : Out := s.event fun m d =>
  let id := d.arg 0
  match d.reqs.get? id with
  | none => { d with chanRun := d.chanRun.filter fun x => x.2.2 != id }
  | some r => match reqChannel d r with
    | none => tryReq m { d with chanRun := d.chanRun.filter fun x => x.2.2 != id } id
    | some ch =>
      if d.chanRun.any (fun x => x.2.2 = id) then tryReq m { d with chanRun := d.chanRun.filter fun x => x.2.2 != id } id
      else
        let d := chanJoin d ch id false
        match chanTurn d ch id false with
        | some k => ({ chanLeave d ch id false with chanRun := d.chanRun ++ [(ch, k, id)] }).post ((k + 15 - d.cycle % 16) % 16 + 1) .remoteUpdate [id]
        | none => d.post 16 .remoteUpdate [id]
/-- R167: a context arrives and runs in a free slot, or waits. -/
def execContextMigrationArrival (s : State) : Out := s.event fun _ d =>
  let loc := d.arg 0
  match (d.thread loc).mig with
  | some (ch, none) =>
    let d := chanJoin d ch loc true
    match chanTurn d ch loc true with
    | some k => (chanLeave d ch loc true).updThread loc fun t => { t with mig := some (ch, some k) }
    | none => d.post 16 .contextMigrationArrival [loc]
  | _ => { d with chanQ := d.chanQ.filter fun x => !(x.2 = (loc, true)) }
/-- R167: the context is back at its origin slot. -/
def execContextReturn (s : State) : Out := s.event fun _ d =>
  let loc := d.arg 0
  match (d.thread loc).mig with
  | some (_, none) => d.updThread loc fun t => Thread.wake (wakesTo d loc) { t with mig := none }
  | _ => d
/-- R167: the thread goes on after the MIGR at the channel core of the address's home. The address is translated as a load's. -/
def migr (i : Instr) (a : BitVec 5) : M Unit := do
  let va ← gv a
  let t ← me
  if t.qm then trap 0x01 ((encode i).setWidth 64) 2 else
  let dv ← getD
  match winCode va with
  | 0 => match xlate dv dv.cur va 0 with
    | .refused c aux => trap c va aux
    | .miss => stop (.walk va 0)
    | .hit e => match homeOf dv dv.cur va e with
      | none => lose
      | some none => trap 0x06 va 0
      | some (some ch) => if gPending t then lose else do
        adv
        modD fun d => migrateTo d d.cur ch
  | _ => trap 0x06 va 0
def execMigr (a : BitVec 5) (m : Bool) (s : State) : Out := s.run (.migr a m) { srcs := [.g a m] } (migr (.migr a m) a)
def execMhom (s : State) : Out := s.run .mhom {} (do
  let t ← me
  adv
  match t.mig with
  | none => pure ()
  | some (ch, _) => modD fun d =>
    -- R167: the way back costs what the way out did
    let (n, d) := migrateCost d (coreOf d.cur) (unitOf ch)
    ((dropResv d d.cur).updThread d.cur fun t => { t with mig := some (ch, none), st := .parked, wait := .context, limit := none }).post n .contextReturn [d.cur])

/-! ## Fences (R169) -/

/-- R169, R170: a fence waits for every earlier load (R150), and for the journal; at package scope not for stores to the host and to
peers. -/
def fence (drain : Bool) (c : BitVec 3) : M Unit := do
  settleLoads
  fun _ d =>
      let t := d.thread d.cur
      let sc := c.toNat
      let es := if drain then (d.core (t.at d.cur)).journal ++ ownEntries d d.cur else ownEntries d d.cur
      if es.any (fun e => !(e.2.orig.any (exempt d sc))) || unreleased d d.nextId d.cur sc true then .error .lose
      else .ok ((), d)
def execFncAcq (x : Bool) (c : BitVec 3) (s : State) : Out := s.run (.fncAcq x c) {} (do fence x c; adv)
def execFncRel (x : Bool) (c : BitVec 3) (s : State) : Out := s.run (.fncRel x c) {} (do fence x c; adv)
def execFncFull (x : Bool) (c : BitVec 3) (s : State) : Out := s.run (.fncFull x c) {} (do fence x c; adv)

/-- R161: the host's completion times out: status 3, or the fault. -/
def execHostCompletionTimeout (s : State) : Out := s.event fun _ d =>
  let id := d.arg 0
  match d.reqs.get? id with
  | none => d
  | some r => if r.sf then answer d id r (withStatus r 0 3)
    else farRefuse d id r 0x0C (if r.ent.isSome then 0x0B else 0x19) ((r.parts.head?.map fun p => p.va).getD 0)

end Sys2Proof.Machine
end

