-- ==== Sys2Proof/Machine/Comp.lean ====
section
/-! DEFINITION. Compressed chunks (R276, R277) and COMP regions (R278), and the accesses of units other than cores. -/
namespace Sys2Proof.Machine

/-! ## The code of a chunk (R276) -/

/-- d_i. -/
def deltas : D → List D → List D
  | _, [] => []
  | p, w :: ws => (w - p) :: deltas w ws
/-- Plane `j` of a group: bit k is bit j of d_k. -/
def planeOf (ds : List D) (j : Nat) : Nat := (ds.zipIdx).foldl (fun a x => a + b2n (bitN x.1 j) * 2 ^ x.2) 0
/-- q_63 down to q_0 of a group. -/
def qPlanes (ds : List D) : List Nat :=
  (List.range 64).map fun i => planeOf ds (63 - i) ^^^ (if i = 0 then 0 else planeOf ds (64 - i))
/-- Lengths of the alternating runs of a plane, from bit 0 upward: `cur` and `n` are the run being read. -/
def runsFrom (q cur n : Nat) : Nat → Nat → List Nat
  | 0, _ => [n]
  | k + 1, i => if q / 2 ^ i % 2 = cur then runsFrom q cur (n + 1) k (i + 1) else n :: runsFrom q (1 - cur) 1 k (i + 1)
def runsOf (q : Nat) : List Nat := runsFrom q (q % 2) 1 63 1
/-- The code of a plane: value and bits. The shortest applicable code, on equal length the lower tag. -/
def codePlane (q : Nat) : Nat × Nat :=
  if q = 0 then (0, 2)
  else if q = 2 ^ 64 - 1 then (1, 2)
  else
    let r := runsOf q
    let c := r.length
    if c ≤ 16 ∧ 7 + 6 * c < 66 then
      (3 + 4 * (q % 2) + 8 * (c - 1) + 128 * (r.zipIdx).foldl (fun a x => a + (x.1 - 1) * 64 ^ x.2) 0, 7 + 6 * c)
    else (2 + 4 * q, 66)
/-- The stream: value and bits. -/
def streamOf (ws : List D) : Nat × Nat :=
  let ds := deltas 0 ws
  ((List.range 8).flatMap fun g => qPlanes ((ds.drop (64 * g)).take 64)).foldl (fun (a : Nat × Nat) q =>
    let c := codePlane q
    (a.1 + c.1 * 2 ^ a.2, a.2 + c.2)) (0, 0)
/-- CRC-32C, bit by bit. -/
def crcByte (c b : Nat) : Nat := (List.range 8).foldl (fun c _ => if c % 2 = 1 then (c / 2) ^^^ 0x82F63B78 else c / 2) (c ^^^ b)
def crc32c (ws : List D) : Nat :=
  ws.foldl (fun c w => (List.range 8).foldl (fun c i => crcByte c (w.toNat / 2 ^ (8 * i) % 256)) c) (2 ^ 32 - 1) ^^^ (2 ^ 32 - 1)
/-- A coded chunk: its words, header first; none for a chunk of zeros. -/
def encodeChunk (ws : List D) : List D :=
  if ws.all (· = 0) then []
  else
    let (x, n) := streamOf ws
    let len := (n + 63) / 64 * 8
    let hdr (v len : Nat) : D := ofN (v * 2 ^ 56 + len * 2 ^ 32 + crc32c ws)
    if 4096 < len then hdr 2 4096 :: ws
    else hdr 1 len :: (List.range (len / 8)).map fun i => ofN (x / 2 ^ (64 * i) % 2 ^ 64)
/-- Read runs until `left` bits are placed: the plane's value. -/
def readRuns (x : Nat) : Nat → Nat → Nat → Nat → Option Nat
  | 0, left, _, _ => if left = 0 then some 0 else none
  | c + 1, left, s, i =>
    let n := x / 64 ^ i % 64 + 1
    if left < n then none
    else (readRuns x c (left - n) (1 - s) (i + 1)).map fun q => (if s = 1 then (2 ^ n - 1) * 2 ^ (64 - left) else 0) + q
/-- One plane from a stream of `n` bits: the plane and the bits it took. -/
def decodePlane (x n : Nat) : Option (Nat × Nat) :=
  match x % 4 with
  | 0 => if 2 ≤ n then some (0, 2) else none
  | 1 => if 2 ≤ n then some (2 ^ 64 - 1, 2) else none
  | 2 => if 66 ≤ n then some (x / 4 % 2 ^ 64, 66) else none
  | _ =>
    let c := x / 8 % 16 + 1
    if n < 7 + 6 * c then none else (readRuns (x / 128) c 64 (x / 4 % 2) 0).map fun q => (q, 7 + 6 * c)
def decodePlanes : Nat → Nat → Nat → Option (List Nat)
  | 0, x, _ => if x = 0 then some [] else none
  | k + 1, x, n => match decodePlane x n with
    | none => none
    | some (q, b) => (decodePlanes k (x / 2 ^ b) (n - b)).map fun l => q :: l
/-- p_63 down to p_0 of a group from its q planes. -/
def pPlanes : Nat → List Nat → List Nat
  | _, [] => []
  | p, q :: qs => (p ^^^ q) :: pPlanes (p ^^^ q) qs
/-- d_k of a group. -/
def groupDeltas (qs : List Nat) : List Nat :=
  let ps := (pPlanes 0 qs).zipIdx
  (List.range 64).map fun k => ps.foldl (fun a x => a + x.1 / 2 ^ k % 2 * 2 ^ (63 - x.2)) 0
def sums : Nat → List Nat → List D
  | _, [] => []
  | p, d :: ds => ofN (p + d) :: sums ((p + d) % 2 ^ 64) ds
/-- The 512 words of a chunk of `len` bytes with these words, or none when it is bad. -/
def decodeChunk (len : Nat) (ws : List D) : Option (List D) :=
  match ws with
  | [] => none
  | h :: body =>
    let n := fieldN h 47 32
    let out : Option (List D) :=
      if fieldN h 55 48 ≠ 0 ∨ n + 8 ≠ len then none
      else if fieldN h 63 56 = 2 then (if n = 4096 then some body else none)
      else if fieldN h 63 56 = 1 then
        (decodePlanes 512 ((body.zipIdx).foldl (fun a x => a + x.1.toNat * 2 ^ (64 * x.2)) 0) (8 * n)).map fun qs =>
          sums 0 ((List.range 8).flatMap fun g => groupDeltas ((qs.drop (64 * g)).take 64))
      else none
    out.bind fun ws => if crc32c ws = fieldN h 31 0 then some ws else none

/-! ## A chunk in memory (R277, R278); `key` gives where a byte of the image stands -/

def tableEntry (len off : Nat) : D := ofN (len * 2 ^ 48 + off % 2 ^ 48)
/-- The words of chunk `c` of an image whose bytes stand from key `k`. -/
def chunkAt (m : Mem) (d : Dev) (k c : Nat) : Option (List D) :=
  let e := rd64 m d (k + 8 * c)
  let len := fieldN e 63 48
  let off := fieldN e 47 0
  if len = 0 then some (List.replicate 512 0)
  else if (List.range ((len + 7) / 8)).any fun i => uncorrectable m d (k + off + 8 * i) then none
  else decodeChunk len ((List.range ((len + 7) / 8)).map fun i => rd64 m d (k + off + 8 * i))

/-- R278: the highest chunk end in the offset table. -/
def storeTop (m : Mem) (d : Dev) (tile : Nat) (a b : D) : Nat :=
  let otab := fieldN b 24 0
  let n := fieldN a 45 32 - fieldN a 12 0
  (List.range n).foldl (fun top c =>
    let e := rd64 m d (vaultKey tile (otab + 8 * c))
    if fieldN e 63 48 = 0 then top else max top (otab + fieldN e 47 0 + (fieldN e 63 48 + 7) / 8 * 8)) (otab + 8 * n)
/-- Entry, chunk and byte in the chunk of a TILE offset in a COMP region. -/
def compPlace (tl : Tile) (off : Nat) : Option (Nat × Nat × Nat) :=
  if regionAttr tl off = 2 then (regionEntry tl off).map fun e => (e, off / 4096 - fieldN (tl.rga.toArray.getD e 0) 12 0, off % 4096) else none
def otabKey (tile : Nat) (tl : Tile) (e : Nat) : Nat := vaultKey tile (fieldN (tl.rgb.toArray.getD e 0) 24 0)
/-- `n` bytes at byte `b` of 512 words. -/
def bytesOf (ws : List D) (b n : Nat) : Nat := (List.range n).foldl (fun a i => a + (ws.getD ((b + i) / 8) 0).toNat / 2 ^ (8 * ((b + i) % 8)) % 256 * 256 ^ i) 0
def withBytes (ws : List D) (b n x : Nat) : List D :=
  (List.range n).foldl (fun ws i => ws.set ((b + i) / 8)
    (setField (ws.getD ((b + i) / 8) 0) (8 * ((b + i) % 8) + 7) (8 * ((b + i) % 8)) (x / 256 ^ i % 256))) ws
/-- Read from a COMP region of a tile with region table `tl`; none when the chunk is bad. -/
def compRead (m : Mem) (d : Dev) (tl : Tile) (tile off n : Nat) : Option Nat :=
  match compPlace tl off with
  | none => some 0
  | some (e, c, b) => (chunkAt m d (otabKey tile tl e) c).map fun ws => bytesOf ws b n
/-- Write into a COMP region: expand, change, code again, append at the top, rewrite the table word; none past SLIM. The words of
a bad chunk are free values (log 30). Under a table written since, the top is what the offset table says (R265). -/
def compWrite (m : Mem) (d : Dev) (tl : Tile) (tile off n x : Nat) : Option Dev :=
  match compPlace tl off with
  | none => some d
  | some (e, c, b) =>
    let k := otabKey tile tl e
    let ra := tl.rga.toArray.getD e 0
    let rb := tl.rgb.toArray.getD e 0
    let live := (d.tile tile).rga.toArray.getD e 0 = ra ∧ (d.tile tile).rgb.toArray.getD e 0 = rb
    let (old, d) : List D × Dev := match chunkAt m d k c with
      | some ws => (ws, d)
      | none => ((List.range 512).map fun i => Config.freeBits 64 (d.free + i), { d with free := d.free + 512 })
    let ws := encodeChunk (withBytes old b n x)
    let base := fieldN rb 24 0
    let top := if live then (d.tile tile).ctop.toArray.getD e 0 else storeTop m d tile ra rb
    if ws.isEmpty then some (wr64 d (k + 8 * c) 0)
    else if fieldN rb 56 32 < top + 8 * ws.length then none
    else
      let d := (ws.zipIdx).foldl (fun d w => wr64 d (vaultKey tile (top + 8 * w.2)) w.1) d
      let d := wr64 d (k + 8 * c) (tableEntry (8 * ws.length) (top - base))
      some (if live then d.updTile tile fun t => { t with ctop := t.ctop.setIfInBounds e (top + 8 * ws.length) } else d)

/-! ## Accesses of units (R142, R156, R208, R267) -/

/-- On whose behalf a unit accesses memory: the issuing thread and core, the master, the translation context, privilege, and the
region tables it was accepted under. -/
structure UCtx where
  loc : Nat
  core : Nat
  master : Nat
  ctx : D
  user : Bool
  regions : List (Nat × Vector D 16 × Vector D 16) := []
deriving DecidableEq, Repr
/-- Why an access of a unit is not performed. -/
inductive UStop where
  | fail (reason : Nat)
  /-- an uncorrectable word, and where it stands (R342) -/
  | bad (key : Nat)
  | wait
  | absent (die : Nat) (va : D) (page : Nat)
  | denied (at_ : Checker) (addr : D)
  | held
  | badChunk (c : Nat)
  /-- an uncorrectable node of the walk -/
  | badNode (key : Nat)
deriving DecidableEq, Repr
/-- Where the bytes of an access stand. -/
inductive UPlace where
  | key (k : Nat)
  | comp (tile off : Nat)
  /-- behind the peer window of an Amigaes link (R341) -/
  | peer (link : Nat)
  /-- in the control span of a die (R334) -/
  | span (die off : Nat)
deriving DecidableEq, Repr
/-- A byte of a vault in a COMP region is reached through the conversion engine. -/
def UCtx.at_ (u : UCtx) (d : Dev) (k : Nat) : UPlace :=
  if compKey (tileAt u.regions d) k then .comp (k / 2 ^ 56 - 4) (k % 2 ^ 56) else .key k
/-- A unit's access of a kind (R358): first stage, access tables, second stage; a vault window is relative to the issuing core. -/
def placeFor (m : Mem) (d : Dev) (u : UCtx) (va : D) (kind : Nat) : Except UStop UPlace :=
  let wr := needsWr kind
  if winCode va = 0 then
    if walkHeld m d u.ctx va.toNat then .error .wait
    else match firstStage m d u.ctx va.toNat kind u.user with
    | .refused c _ => .error ((badNode m d u.ctx va.toNat).elim (.fail c) .badNode)
    | .leaf p w l => match pageTarget d u.master u.ctx w (needsRd kind) wr va.toNat p (leafSize l) with
      | .byte k _ => .ok (u.at_ d k)
      | .span die off => .ok (.span die off)
      | .peer k => .ok (.peer k)
      | .wait => .error .wait
      | .nonresident die => .error (.absent die va (leafSize l))
      | .refused r => .error (.fail r)
      | .linkDown => .error (.fail 0x0B)
      | .denied a x => .error (.denied a x)
  else match vaultLoc u.core va with
    | none => .error (.fail 0x06)
    | some (t, o) =>
      if !granted (d.tile t).access 0 u.master 0 wr then .error (.denied (.vault t) (ofN (dieOff (t, o)))) else .ok (u.at_ d (vaultKey t o))
/-- A unit's read or write. -/
def unitPlace (m : Mem) (d : Dev) (u : UCtx) (va : D) (wr : Bool) : Except UStop UPlace := placeFor m d u va (if wr then 1 else 0)
/-- Read `size` bytes for a unit. What a peer answers is a free value (log 110). -/
def unitRead (m : Mem) (d : Dev) (u : UCtx) (va : D) (size : Nat) : Except UStop Nat :=
  match unitPlace m d u va false with
  | .error e => .error e
  | .ok (.key k) => if uncorrectable m d k then .error (.bad k) else .ok (rdN m d k size)
  | .ok (.span die off) => .ok (spanBytes d die off size)
  | .ok (.peer _) => .ok (Config.freeBits (8 * size) (2 ^ 64 * (d.free + 1) + va.toNat)).toNat
  | .ok (.comp t o) => let tl := tileAt u.regions d t
    match compRead m d tl t o size with
    | some x => .ok x
    | none => .error (.badChunk ((compPlace tl o).elim 0 fun x => x.2.1))
/-- A word of a request as a plain load finds it, or why it cannot be read. -/
def partRead (m : Mem) (d : Dev) (r : Req) (p : Part) : Except UStop Nat := match target d r p with
  | .byte k _ =>
    if compKey (tileAt r.regions d) k then
      (compRead m d (tileAt r.regions d (k / 2 ^ 56 - 4)) (k / 2 ^ 56 - 4) (k % 2 ^ 56) p.size).elim (.error (.badChunk 0)) .ok
    else if uncorrectable m d k then .error (.bad k) else .ok (rdN m d k p.size)
  | .peer _ => .ok (Config.freeBits (8 * p.size) (2 ^ 64 * (d.free + 1) + p.va.toNat)).toNat
  | .span die off => .ok (spanBytes d die off p.size)
  | .wait => .error .wait
  | .nonresident die => .error (.absent die p.va p.page)
  | .refused c => .error (.fail c)
  | .linkDown => .error (.fail 0x0B)
  | .denied a x => .error (.denied a x)
/-- R342: a read corrects the code words on its way, its walk's among them, and counts them. -/
def unitFix (m : Mem) (d : Dev) (u : UCtx) (va : D) : Dev :=
  let d := if winCode va = 0 then walkFix m d u.loc u.master u.ctx va.toNat else d
  match unitPlace m d u va false with
  | .ok (.key k) => correctErr m d u.loc k
  | .ok (.peer _) | .ok (.span ..) => { d with free := d.free + 1 }
  | _ => d
/-- R270: a unit's write of `size` bytes where they stand, performed at the word's controller; `who` is the thread whose own reservation
stays. A register of a control span is written by a step of its own. -/
def writeAt (m : Mem) (d : Dev) (u : UCtx) (who : Nat) (at_ : UPlace) (size x : Nat) : Except UStop Dev := match at_ with
  | .key k =>
    if uncorrectable m d k then .error (.bad k)
    else if keyHeld d k size then .error .held
    else if heldForOther d who k size then .error .wait
    else .ok (writeBytes m d who k size x)
  | .peer _ => .ok d
  | .span die off => .ok ((List.range ((size + 7) / 8)).foldl (fun d i => d.post 0 .controlRegisterWrite [die, off + 8 * i, x / 2 ^ (64 * i) % 2 ^ 64, min 8 (size - 8 * i)]) d)
  | .comp t o => if keyHeld d (vaultKey t o) size then .error .held else match compWrite m d (tileAt u.regions d t) t o size x with
    | some d => .ok d
    | none => .error (.fail 0x0B)
def unitWrite (m : Mem) (d : Dev) (u : UCtx) (who : Nat) (va : D) (size x : Nat) : Except UStop Dev :=
  (unitPlace m d u va true).bind fun p => writeAt m d u who p size x
/-- No thread: the writer of an engine's words. -/
def noThread : Nat := 2 ^ 40
/-- R342: the entry of a read that meets an uncorrectable word. -/
def badRead (d : Dev) (master k : Nat) : Dev := pushFault d (keyDie k) (ofN (keyPhys k)) (if 68 ≤ k / 2 ^ 56 then 5 else 1) master
/-- A stop that the unit waits on, that freezes it, or that is reported; `kind` is the kind of access a violation record shows. -/
def stopUnit (d : Dev) (u : UCtx) (wr : Bool) (kind : Nat) : UStop → Dev
  | .absent die va page => pageRequest d die u.master u.loc u.ctx va page
  | .denied a x => freezeUnit d u.master a x kind
  | .bad k => if wr then d else badRead d u.master k
  | .badNode k => badRead d u.master k
  | _ => d
/-- The stop of a unit's read or write. -/
def unitStopped (d : Dev) (u : UCtx) (wr : Bool) (e : UStop) : Dev := stopUnit d u wr (b2n wr) e
/-- The cause of a stop that ends a unit's work. -/
def UStop.reason : UStop → Nat
  | .fail r => r
  | .bad _ | .badChunk _ => 0x0D
  | .badNode _ => 0x0A
  | _ => 0x09

/-! ## A core's access to a COMP region (R278, R282) -/

def compPart (m : Mem) (d : Dev) (r : Req) (p : Part) : Option Nat := match target d r p with
  | .byte k _ => if compKey (tileAt r.regions d) k then compRead m d (tileAt r.regions d (k / 2 ^ 56 - 4)) (k / 2 ^ 56 - 4) (k % 2 ^ 56) p.size else some (rdN m d k p.size)
  | _ => some 0
/-- The engine expands the chunk for a load; for a store it expands, changes and codes it again. -/
def compAccess (m : Mem) (d : Dev) (id : Nat) (r : Req) : Dev :=
  match r.op with
  | .st =>
    let wr (acc : Option Dev) (p : Part) : Option Dev := acc.bind fun d => match target d r p with
      | .byte k _ => if compKey (tileAt r.regions d) k then compWrite m d (tileAt r.regions d (k / 2 ^ 56 - 4)) (k / 2 ^ 56 - 4) (k % 2 ^ 56) p.size p.data.toNat
          else some (writeBytes m d r.loc k p.size p.data.toNat)
      | _ => some d
    -- the entry clears 160 cycles after the store was sent, or later where it had to wait
    let back := max r.back (r.sentAt + 160 - d.cycle)
    match r.parts.foldl wr (some d), r.ent with
    | some d, some e => ({ d with reqs := d.reqs.set id { r with phase := .performed } }).post back .journalAck [r.core, e]
    | some d, none => { d with reqs := d.reqs.erase id }
    | none, _ => farRefuse d id { r with back := back } 0x0B 0x0B ((r.parts.headD ⟨0, 0, 0, 0, none, 0, 0⟩).va)
  | _ =>
    let vs := r.parts.map fun p => (p, compPart m d r p)
    match vs.find? fun x => x.2.isNone with
    | some x => farRefuse d id { r with back := r.back + 80 } 0x0D 0x0D x.1.va
    | none =>
      let r' := { r with back := r.back + 80 }
      let put (old : Nat) : Nat := vs.foldl (fun acc x =>
        let w := 8 * x.1.size
        acc - acc / 2 ^ (w * x.1.lane) % 2 ^ w * 2 ^ (w * x.1.lane) + x.2.getD 0 * 2 ^ (w * x.1.lane)) old
      match r.op, r.dst with
      | .ld _, .v n => answer d id r' (g1 r (put (((d.owner r.loc id).vr n).val.toNat % (if (r.parts.headD ⟨0, 0, 0, 0, none, 0, 0⟩).size = 1 then 2 ^ 512 else 2 ^ 1024))))
      | .ld _, .xa => answer d id r' [(.xa, BitVec.ofNat 6400 (put 0)), (.xflags, BitVec.ofNat 6400 (put 0 / 2 ^ 6400 % 4))]
      | .ld sg, _ => answer d id r' (g1 r (loadValue sg (r.parts.headD ⟨0, 8, 0, 0, none, 0, 0⟩).size ((vs.headD (⟨0, 0, 0, 0, none, 0, 0⟩, some 0)).2.getD 0)).toNat)
      | _, _ => answer d id r' (g1 r (put 0))
def execCompChunkAccess (s : State) : Out := s.event fun m d => match d.reqs.get? (d.arg 0) with
  | some r => compAccess m d (d.arg 0) r
  | none => d

end Sys2Proof.Machine
end

