-- ==== Sys2Proof/Machine/Issue.lean ====
section
/-! DEFINITION. Offering issue slots: which slots a cycle offers (R12, R17), what is taken at an instruction boundary (R151,
R321, R322), fetching (R24), and issuing an instruction for a thread or for a quad (R18 to R20). `ex` is `exec`. -/
namespace Sys2Proof.Machine

/-! ## Fetch (R24, R39) -/

/-- The instruction store a thread fetches through: its row's, or its steward core's. -/
def storeOf (d : Dev) (loc : Nat) : Tbl (BitVec 2048) :=
  let ca := coreOf loc
  if isCompute ca then (d.row (rowKeyOf ca)).istore else (d.core ca).istore
/-- The word of a 256-byte line at a byte address. -/
def lineWord (line : BitVec 2048) (pc : Nat) : Word := (line >>> (8 * (pc % 256))).setWidth 32
inductive Fetch where
  | word (w : Word)
  | aperture
  | refused (cause : Nat) (aux : D)
  | miss
deriving DecidableEq, Repr
def fetch (d : Dev) (loc : Nat) (pc : D) : Fetch :=
  if winCode pc ≠ 0 then .aperture
  else if pc.toNat % 4 ≠ 0 then .refused 0x05 0
  else match (storeOf d loc).get? (pc.toNat / 256) with
    | some l => .word (lineWord l pc.toNat)
    | none => match (d.thread loc).refusal with
      | some (a, k, c, aux) => if k = 2 ∧ a.toNat / 256 = pc.toNat / 256 then .refused c aux else .miss
      | none => .miss
/-- R24, R81: a miss asks for the line once: the first stage, then a load's latency. -/
def startRefill (d : Dev) (loc : Nat) (pc : D) : Dev :=
  let ln := pc.toNat / 256
  let key := if isCompute (coreOf loc) then rowKeyOf (coreOf loc) else 2 ^ 20 + coreOf loc
  if d.refills.contains (key, ln) then d
  else ({ d with refills := d.refills ++ [(key, ln)] }).postRange 180 480 .instructionStoreRefill [loc, ln]

/-- The instruction a word stands for; a word that is none stands for ILLEGAL_OPCODE with the word as operand (R43). -/
def decodeOr (w : Word) : Instr × List Nat := match decode w with
  | .ok i => (i, [])
  | .error _ => (.illegalOpcode, [w.toNat])

/-! ## Boundaries -/

/-- R151 step 1: the slot's lowest refused entry not yet taken. While a handler level is open it stays pending (log 11). -/
def dueRefusal (d : Dev) (loc : Nat) : Option (Nat × JEntry) :=
  if (d.thread loc).lvl then none else (refusedEntries d loc).find? fun e => !e.2.taken
/-- R149, R176: the trap of a refused entry. -/
def takeRefusal (d : Dev) (loc ent : Nat) (e : JEntry) : Dev :=
  let d := d.updCore e.core fun c => { c with journal := c.journal.set ent { e with taken := true } }
  let pc := (d.thread loc).pc
  if e.refused = some 0x17 then takeTrap d loc 0x17 2 e.addr e.addrHi pc
  else takeTrap d loc 0x0B 2 (ofN ent) (entryStatus e) pc
/-- R322: an enabled HBP of the thread's group names the instruction, or either word of a UNI pair. -/
def hbpMatch (d : Dev) (loc : Nat) (w : Word) : Bool :=
  let t := d.thread loc
  match t.hgrp with
  | none => false
  | some g => !t.stepping && (List.range 4).any fun k =>
      let x := d.hbp.toArray.getD (4 * g + k) 0
      bitN x 63 && (fieldN x 55 2 * 4 = t.pc.toNat || (w = 2 && fieldN x 55 2 * 4 = t.pc.toNat + 4))

/-! ## Constrained sequences (R164) -/

/-- A memory access, as a constrained sequence may not hold one. -/
def isAccess (w : Word) : Bool :=
  let op := w.toNat / 67108864
  (0x18 ≤ op && op ≤ 0x1E) || (0x20 ≤ op && op ≤ 0x23) || op = 0x28 || op = 0x29 || op = 0x2C || op = 0x2D || (match decode w with
    | .ok (.xspl ..) | .ok (.xfil ..) | .ok (.ncas ..) | .ok (.wdq ..) | .ok (.gnew ..) | .ok (.glen ..) | .ok (.gev ..) | .ok (.gidx ..)
    | .ok (.gpfx ..) | .ok (.gscn ..) | .ok (.gmv ..) => true
    | _ => false)
/-- A constrained sequence after the instruction `w` at `pc`, with `pc'` next; RSV begins one itself. -/
def consStep (c : Option (Nat × D)) (w : Word) (pc pc' : D) : Option (Nat × D) :=
  let op := w.toNat / 67108864
  match c with
  | none => none
  | some (n, a) =>
    if op = 0x2A then some (0, a)
    else if op = 0x2B then none else if isAccess w || pc'.toNat < pc.toNat || 8 ≤ n then none else some (n + 1, a)

/-! ## One turn -/

/-- After an instruction: the constrained sequence, and a single step's end (R323). -/
def afterIssue (loc : Nat) (w : Word) (pc : D) (s : State) : State :=
  match s.dev.last with
  | .lost | .starved => s
  | _ =>
    { s with dev := s.dev.updThread loc fun t =>
        let t := { t with cons := consStep t.cons w pc t.pc }
        if t.stepping && t.st != .vacant then { (t.halt s.dev.cycle) with stepping := false } else t }
/-- Fetch, decode and execute for one thread, no boundary event being due. -/
def issueOne (ex : Instr → State → Out) (loc : Nat) (s : State) : Out :=
  let d := { s.dev with cur := loc, wbuf := [] }
  let pc := (d.thread loc).pc
  match fetch d loc pc with
  | .aperture => .next (commit s.mem (takeTrap d loc 0x06 0 pc 0 pc))
  | .refused c aux => .next (commit s.mem (takeTrap d loc c 0 pc aux pc))
  | .miss => .next (commit s.mem { startRefill d loc pc with last := .lost })
  | .word w =>
    if hbpMatch d loc w then ex .hwBreakpointMatch { s with dev := { d with args := [loc] } }
    else
      let (i, as) := decodeOr w
      match ex i { s with dev := { d with args := as } } with
      | .next s' => .next (afterIssue loc w pc s')
      | x => x
/-- What a thread's boundary does before its instruction: halts, refusals. -/
inductive Boundary where
  | halt
  | refusal (ent : Nat) (e : JEntry)
  /-- a user interrupt of an entry of this kind is entered (R182) -/
  | user (kind : Nat)
  | go
  | none
deriving DecidableEq, Repr
/-- R321: the trigger of a halted group has reached a core: it goes to every core, and is on its way to those it still has to
reach. -/
def triggerHere (d : Dev) (ca g : Nat) : Bool :=
  (d.core ca).haltArr.getLsbD g || (hgcHalted (d.hgc.toArray.getD g 0) && !d.events.any fun e => e.step = .haltTriggerArrival && e.args = [g, ca])
/-- What is due at a boundary where the thread may take it: a refused entry, then a user interrupt (log 123), then the
instruction (R151, R182). -/
def dueHere (d : Dev) (loc : Nat) : Boundary := match dueRefusal d loc with
  | some (i, e) => .refusal i e
  | none => match (d.thread loc).uint with
    | some k => .user k
    | none => .go
/-- R298: the keepers of a co-start begin together, once all of them have their names. -/
def costartHolds (d : Dev) (t : Thread) : Bool := t.start = .loader && d.costarts.any fun c => some c.launch = t.launch
def boundary (d : Dev) (loc : Nat) : Boundary :=
  let t := d.thread loc
  let frozen := (d.core (coreOf loc)).frozen || (d.core (t.at loc)).frozen
  let trig := match t.hgrp with
    | some g => triggerHere d (coreOf loc) g && !t.stepping
    | none => false
  -- R285: a new thread waits for its start, and for what its keeper did before the SPWN
  let held := t.stopped.isSome || costartHolds d t || decide (d.cycle < t.startAt) || (match t.after with
    | some (id, k) => unreleased d id k 1 true
    | none => false)
  if frozen || held then .none
  else match t.st with
    | .run | .lent => if trig then .halt else dueHere d loc
    | .parked => if trig then .halt else if t.mig.isSome ∧ t.wait = .context then dueHere d loc else .none
    | _ => .none
/-- R18 to R20: the members of the quad of a leader's slot. -/
def quad (d : Dev) (loc : Nat) : List Nat :=
  (List.range 4).map (fun k => loc + 64 * k) |>.filter fun l => (d.thread l).st != .vacant
/-- R305: the die-physical address of a pool's area, with the die in [57:56]. -/
def areaOf (sab : D) (i : Nat) : Nat := fieldN sab 57 56 * 2 ^ 56 + fieldN sab 55 18 * 2 ^ 18 + 8192 * i
/-- R38: registers of the thread are still in the area it was restored from. -/
def Thread.anyAbsent (t : Thread) : Bool := t.g.toArray.any (fun x => x.st = .absent) || t.v.toArray.any (fun x => x.st = .absent) || t.p.toArray.any fun x => x.st = .absent
/-- Pool indices of a core that contexts own: resident, lent out, cached, or saved to memory in the pool (R305); and those whose
areas ABSENT registers have still to be fetched from. -/
def poolUsed (d : Dev) (ca : Nat) : List Nat :=
  (((d.threads.map Prod.snd ++ d.lentOut.map (fun x => x.2.2) ++ d.cores.flatMap (fun c => c.2.tcc.map Prod.snd)).filter fun t => t.src != t.area && t.anyAbsent).filterMap fun t =>
    (List.range 32).find? fun i => areaOf (d.core ca).sab i = t.src) ++
  ((List.range 16).filterMap fun k => (d.thread (ca * 16 + k)).pool) ++
  ((List.range 16).filterMap fun k => (d.lentOut.get? (ca * 16 + k)).bind fun x => x.2.pool) ++
  ((d.core ca).tcc.filterMap fun x => x.2.pool) ++
  (d.away.filterMap fun a => a.pool.bind fun p => if p.1 = ca then some p.2 else none)
def freePool (d : Dev) (ca : Nat) : Option Nat := (List.range 32).find? fun i => !(poolUsed d ca).contains i
/-- Starts of a core's threads that wait for their names. -/
def pendingStarts (d : Dev) (ca : Nat) : List StartReq := d.mint.queue.filterMap fun x => match x.2 with
  | .start r => if coreOf r.loc = ca then some r else none
  | _ => none
/-- R305: a thread can start on the core. -/
def canStart (d : Dev) (ca : Nat) : Bool := bitN (d.core ca).sab 0 && (poolUsed d ca).length + (pendingStarts d ca).length < 32
/-- No thread, no exit record, none about to start there, and none whose save has not ended. -/
def slotFree (d : Dev) (loc : Nat) : Bool :=
  (d.thread loc).st = .vacant && ((d.core (coreOf loc)).exits.get? (slotOf loc)).isNone &&
  !((pendingStarts d (coreOf loc)).any fun r => r.loc = loc) && !(d.preempts.any fun p => p.2.locs.contains loc)
def lowestFree (d : Dev) (ca : Nat) : Option Nat := ((List.range 16).drop 1).find? fun k => slotFree d (ca * 16 + k)
/-- The leader's slot of a quad member's. -/
def leaderOf (loc : Nat) : Nat := loc - 64 * (idxOf (coreOf loc) % 4)
/-- R20: a member that did not fault enters the handler with the others; one that is halted does so at resume. -/
def joinTrap (d : Dev) (ls : List Nat) (faulted : List Nat) : Dev :=
  match ls.find? faulted.contains with
  | none => d
  | some f =>
    let tf := d.thread f
    ls.foldl (fun d l => if faulted.contains l then d
      else
        let halted := (d.thread l).st = .halted
        let d := takeTrap d l (fieldN tf.tcause 7 0) (fieldN tf.tcause 11 10) 0 (ofN (2 ^ 63)) tf.tpc
        if halted && (d.thread l).st != .halted then d.updThread l (Thread.halt d.cycle) else d) d
/-- The quad stops with the traps of the members named and of those its instruction trapped (log 43). -/
def joinQuad (d : Dev) (loc : Nat) (faulted : List Nat) : Dev :=
  let leader := leaderOf loc
  let fs := faulted ++ ((d.quads.get? leader).map fun q => q.trapped).getD []
  { joinTrap d (quad d leader) fs with quads := d.quads.erase leader }
/-- R20: a trap that a member takes outside an instruction takes its quad with it. -/
def trapQuad (d : Dev) (loc : Nat) : Dev := if isGang d loc then joinQuad d loc [loc] else d
/-- R182: the interrupt is entered, in a turn of its own: the shadow registers replace g26 to g31, shadow g31 holds the resume PC,
PC becomes UIV, or the thread traps MISALIGNED. -/
def enterUser (d : Dev) (loc kind : Nat) : Dev :=
  let d := { d.updThread loc (fun t => { t with uint := none }) with last := .issued }
  let t := d.thread loc
  if t.uiv.toNat % 4 ≠ 0 then takeTrap d loc 0x05 0 t.uiv 0 t.pc
  else d.updThread loc fun t =>
    { t with uis := setField (setField t.uis 15 12 kind) 2 1 1, sh := t.sh.set 5 (.ofVal t.pc), pc := t.uiv, dirty := t.dirty ||| (1 <<< 77) }.touch 7
/-- In a gang row a trap of the entry takes the quad with it (R20). -/
def enterUserAt (d : Dev) (loc kind : Nat) : Dev :=
  let d := enterUser d loc kind
  if d.last = .trapped then trapQuad d loc else d
/-- Members of a quad that stands between two instructions enter their handlers; a misaligned vector of one is the quad's trap
(R20). The leader's program counter stays every member's, whichever of them is interrupted (R17, log 124). -/
def enterUsers (d : Dev) (ls : List Nat) (due : List (Nat × Nat)) : Dev :=
  match due.filter (fun x => (d.thread x.1).uiv.toNat % 4 ≠ 0) with
  | [] => due.foldl (fun d x => enterUser d x.1 x.2) d
  | bad => joinTrap (bad.foldl (fun d x => enterUser d x.1 x.2) d) ls (bad.map Prod.fst)
/-- R19: a branch or jump as the thread at `cur` evaluates it on its own operands: whether it is taken. -/
def branchWay (m : Mem) (d : Dev) (i : Instr) : Option Bool :=
  let cmp (a b : BitVec 5) (f : D → D → Bool) : Option Bool := match (do pure (f (← gv a) (← gv b)) : M Bool) m d with
    | .ok (x, _) => some x
    | .error _ => none
  match i with
  | .beq a b _ _ => cmp a b (· == ·)
  | .bne a b _ _ => cmp a b (· != ·)
  | .blt a b _ _ => cmp a b BitVec.slt
  | .bge a b _ _ => cmp a b fun x y => !x.slt y
  | .bltn a b _ _ => cmp a b BitVec.ult
  | .bgen a b _ _ => cmp a b fun x y => !x.ult y
  | .bemp a f full _ => some (decide (regState d f a = if full then .full else .empty))
  | .jal .. | .jalr .. => some true
  | _ => none
/-- The members' ways with that of one more. -/
def addWay (ws : List (Nat × Bool)) (l : Nat) (w : Option Bool) : List (Nat × Bool) := match w with
  | some b => (ws.filter fun x => x.1 != l) ++ [(l, b)]
  | none => ws
/-- R19: followers take the leader's program counter; a branch or jump that a follower's own operands send another way, or
elsewhere, sets its DIVG. -/
def follow (d : Dev) (leader : Nat) (ways : List (Nat × Bool)) (ls : List Nat) : Dev :=
  let pc := (d.thread leader).pc
  let way (l : Nat) : Option Bool := (ways.find? fun x => x.1 = l).map Prod.snd
  if (d.thread leader).st = .vacant then d
  else ls.foldl (fun d l => if l = leader then d else d.updThread l fun t =>
    if t.st = .vacant then t
    else
      let differs := (way leader).isSome && (way l).isSome && (way l != way leader || t.pc != pc)
      let t := { t with pc := pc }
      if differs then { t with divg := true }.touch 1 else t) d
/-- Every member has had its turn: the members enter the handler, or, none being left in the instruction, go on together. -/
def closeQuad (d : Dev) (leader : Nat) (q : QuadRun) : Dev :=
  if !q.todo.isEmpty then { d with quads := d.quads.set leader q }
  else if !q.trapped.isEmpty then joinQuad { d with quads := d.quads.set leader q } leader []
  else if q.again.isEmpty then { follow d leader q.ways (quad d leader) with quads := d.quads.erase leader }
  else { d with quads := d.quads.set leader q }
/-- A member still has the quad's instruction to complete. -/
def stillIn (d : Dev) (q : QuadRun) (l : Nat) : Bool := (d.thread l).live && (d.thread l).pc = q.pc
/-- A member leaves its slot: the quad waits for it no longer. -/
def leaveQuad (d : Dev) (loc : Nat) : Dev := match d.quads.get? (leaderOf loc) with
  | some q => if q.todo.contains loc || q.again.contains loc
      then closeQuad d (leaderOf loc) { q with todo := q.todo.erase loc, again := q.again.erase loc } else d
  | none => d
/-- R17: a member executes what was forwarded to it before it enters a user interrupt; one PARKED in the instruction leaves it. -/
def forwarded (q : QuadRun) (loc : Nat) (b : Boundary) : Boundary := match b with
  | .user k => if q.todo.contains loc then .go else .user k
  | b => b
/-- A member executes the instruction its quad is in, for its own slot. -/
def memberTurn (ex : Instr → State → Out) (loc : Nat) (q : QuadRun) (s : State) : Out :=
  let d := s.dev
  let leader := leaderOf loc
  match forwarded q loc (boundary d loc) with
  | .none => .next { s with dev := { d with last := .lost } }
  | .halt => .next { s with dev := d.updThread loc (Thread.halt d.cycle) }
  | .refusal i e => .next (commit s.mem (joinQuad (takeRefusal d loc i e) loc [loc]))
  | .user k =>
    let d := enterUserAt d loc k
    .next (commit s.mem (if d.last = .trapped then d else closeQuad d leader { q with again := q.again.erase loc }))
  | .go =>
    if !stillIn d q loc then .next { s with dev := closeQuad d leader { q with todo := q.todo.erase loc, again := q.again.erase loc } }
    else
      let (i, as) := decodeOr q.word
      let way := branchWay s.mem d i
      match ex i { s with dev := { d with args := as, wbuf := [] } } with
      | .next s' =>
        let s' := afterIssue loc q.word q.pc s'
        let again : Bool := match s'.dev.last with
          | .lost | .starved => true
          | _ => (s'.dev.thread loc).parks && (s'.dev.thread loc).wait != .context
        let trapped := match s'.dev.last with
          | .trapped | .deferred => q.trapped ++ [loc]
          | _ => q.trapped
        let q := { q with todo := q.todo.erase loc, again := q.again.erase loc ++ (if again then [loc] else []), trapped := trapped, ways := addWay q.ways loc way }
        .next (commit s'.mem { closeQuad { s'.dev with wbuf := [], wclear := [] } leader q with last := s'.dev.last })
      | x => x
/-- How a member's turn would end, were it taken now. -/
def trial (ex : Instr → State → Out) (i : Instr) (as : List Nat) (s : State) (l : Nat) : Turn :=
  match ex i { s with dev := { s.dev with cur := l, args := as, wbuf := [] } } with
  | .next s' => s'.dev.last
  | _ => .issued
/-- R299: the lanes of a core but its keeper's, in order. -/
def spawnLanes (l : Launch) (ca : Nat) : List Nat := l.lanes.filter fun x => coreOf x = ca && slotOf x != 0
/-- The slot SPWN starts on a core, of its own choice: the next lane's in a DET row, else the lowest free one (R285, R299). -/
def spawnChoice (d : Dev) (ca : Nat) : Option Nat :=
  let row := d.row (rowKeyOf ca)
  if row.det then match d.launches.find? fun l => some l.name = row.launch with
    | some l => match (spawnLanes l ca)[l.laneNext.getD ca 0]? with
      | some x => if slotFree d x then some (slotOf x) else none
      | none => none
    | none => none
  else lowestFree d ca
/-- The slot a gang's SPWN starts (R285): the leader's choice, which every member starts on its own core. -/
def spawnSlot (d : Dev) (leader : Nat) : Option Nat := if canStart d (coreOf leader) then spawnChoice d (coreOf leader) else none
/-- R18, R151: the leader's cycle for a quad that is in no instruction. -/
def issueQuad (ex : Instr → State → Out) (loc : Nat) (s : State) : Out :=
  let d := { s.dev with cur := loc, wbuf := [] }
  let ls := quad d loc
  let pc := (d.thread loc).pc
  -- the leader owns the program counter of every slot (R17)
  let d := ls.foldl (fun d l => d.updThread l fun t => { t with pc := pc }) d
  let s := { s with dev := d }
  let bs := ls.map fun l => (l, boundary d l)
  -- a member of the quad that is about to start is waited for (R18, R285)
  let starting := (d.mint.queue.any fun x => match x.2 with
      | .start r => (List.range 4).any fun k => r.loc = loc + 64 * k
      | _ => false) || d.events.any fun e => e.step = .rowLoadDone && e.args.length = 2 && e.args.head? = some (rowKeyOf (coreOf loc))
  let due := bs.filterMap fun b => match b.2 with
    | .refusal i e => some (b.1, i, e)
    | _ => none
  let users := bs.filterMap fun b => match b.2 with
    | .user k => some (b.1, k)
    | _ => none
  if starting || bs.any (fun b => b.2 = .none || b.2 = .halt) then .next { s with dev := { d with last := .lost } }
  else if !due.isEmpty then .next (commit s.mem (joinTrap (due.foldl (fun d x => takeRefusal d x.1 x.2.1 x.2.2) d) ls (due.map fun x => x.1)))
  else if !users.isEmpty then .next (commit s.mem (enterUsers d ls users))
  else match fetch d loc pc with
    | .aperture => .next (commit s.mem (joinTrap (takeTrap d loc 0x06 0 pc 0 pc) ls [loc]))
    | .refused c aux => .next (commit s.mem (joinTrap (takeTrap d loc c 0 pc aux pc) ls [loc]))
    | .miss => .next (commit s.mem { startRefill d loc pc with last := .lost })
    | .word w =>
      if hbpMatch d loc w then ex .hwBreakpointMatch { s with dev := { d with args := [loc] } }
      else
        let (i, as) := decodeOr w
        -- a UNI pair is the leader's alone (R21)
        let turns := (if i = .uni then [loc] else ls).map fun l => (l, trial ex i as s l)
        let late := (turns.filter fun x => x.2 = .deferred).map fun x => x.1
        if !late.isEmpty then
          match late.foldl (fun o l => match o with
              | .next s => if (s.dev.thread l).st = .vacant then .next s else ex i { s with dev := { s.dev with cur := l, args := as, wbuf := [] } }
              | x => x) (Host.Outcome.next s) with
          | .next s' => .next (commit s'.mem (joinTrap { s'.dev with wbuf := [], wclear := [] } ls late))
          | x => x
        else if turns.any fun x => x.2 = .starved then .next { s with dev := { d with last := .starved } }
        else
          let q : QuadRun := ⟨w, pc, ls.filter (· != loc), [], [], spawnSlot d loc, addWay [] loc (branchWay s.mem d i)⟩
          match ex i { s with dev := { d with args := as } } with
          | .next s' => match s'.dev.last with
            | .lost | .starved => .next s'
            | last =>
              -- R322: a BRK that halts the group is the leader's alone: the followers stop at their own boundaries
              if i = .brk && (s'.dev.thread loc).st = .halted then .next (commit s'.mem { s'.dev with wbuf := [], wclear := [] }) else
              let s' := afterIssue loc w pc s'
              let parked := (s'.dev.thread loc).parks && (s'.dev.thread loc).wait != .context
              let q := { q with again := if parked then [loc] else [], trapped := if last = .trapped then [loc] else [] }
              .next (commit s'.mem { closeQuad { s'.dev with wbuf := [], wclear := [] } loc q with last := last })
          | x => x
/-- The leader's cycle: the quad issues its next instruction once every member has completed the last. -/
def leaderTurn (ex : Instr → State → Out) (loc : Nat) (s : State) : Out :=
  match s.dev.quads.get? loc with
  | none => issueQuad ex loc s
  | some q =>
    let again := q.again.filter (stillIn s.dev q)
    if q.todo.isEmpty && again.isEmpty then issueQuad ex loc { s with dev := closeQuad s.dev loc { q with again := [] } }
    else if again.contains loc then memberTurn ex loc { q with again := again } s
    else .next { s with dev := { s.dev with last := .lost } }
/-- R17: a follower's cycle: it executes what the leader forwarded; its slot halts at its own boundary (R321). -/
def followerTurn (ex : Instr → State → Out) (loc : Nat) (s : State) : Out :=
  let halts : Out := match boundary s.dev loc with
    | .halt => .next { s with dev := s.dev.updThread loc (Thread.halt s.dev.cycle) }
    | _ => .next s
  match s.dev.quads.get? (leaderOf loc) with
  | some q => if q.todo.contains loc || q.again.contains loc then memberTurn ex loc q s else halts
  | none => halts
/-- Offer the head of `todo` its issue slot (R12); a thread that has ended since the cycle began takes none. -/
def issueTurn (ex : Instr → State → Out) (s : State) : Out :=
  match s.dev.todo with
  | [] => .next s
  | loc :: rest =>
    let d := { s.dev with todo := rest, cur := loc, wbuf := [] }
    let s := { s with dev := d }
    if (d.thread loc).st = .vacant then .next s
    else if isFollower d loc then followerTurn ex loc s
    else match boundary d loc with
      | .halt => .next { s with dev := d.updThread loc (Thread.halt d.cycle) }
      | b =>
        if isGang d loc then leaderTurn ex loc s
        else match b with
          | .refusal i e => .next (commit s.mem (takeRefusal d loc i e))
          | .user k => .next (commit s.mem (enterUser d loc k))
          | .go => issueOne ex loc s
          | _ => .next s
/-- R12, R17: the threads whose slot the present cycle offers. -/
def offered (d : Dev) : List Nat :=
  (d.threads.filter fun x => x.2.live && turnSlot d x.1 x.2 = some (d.cycle % 16)).map Prod.fst
/-- The next cycle. -/
def nextCycle (s : State) : State :=
  let d := { s.dev with cycle := s.dev.cycle + 1 }
  { s with dev := { d with todo := offered d } }
/-- The first step in flight that is due. -/
def dueEvent (d : Dev) : Option Event := d.events.find? fun e => e.due ≤ d.cycle
def takeEvent (ex : Instr → State → Out) (e : Event) (s : State) : Out :=
  ex e.step { s with dev := { s.dev with events := s.dev.events.erase e, args := e.args } }
/-- One step of the package: a step in flight that is due, or the next offered slot, or the next cycle. -/
def stepWith (ex : Instr → State → Out) (s : State) : Out :=
  match dueEvent s.dev with
  | some e => takeEvent ex e s
  | none => if s.dev.todo.isEmpty then .next (nextCycle s) else issueTurn ex s

/-! ## Placing a first instruction (the host's question) -/

/-- A 256-byte line with one word replaced. -/
def lineWith (line : BitVec 2048) (pc : Nat) (w : Word) : BitVec 2048 :=
  let sh := 8 * (pc % 256)
  (line &&& ~~~((BitVec.allOnes 32).setWidth 2048 <<< sh)) ||| (w.setWidth 2048 <<< sh)
def putWord (d : Dev) (loc : Nat) (pc : D) (w : Word) : Dev :=
  let k := pc.toNat / 256
  let put (t : Tbl (BitVec 2048)) := t.set k (lineWith (t.getD k 0) pc.toNat w)
  if isCompute (coreOf loc) then d.updRow (rowKeyOf (coreOf loc)) fun r => { r with istore := put r.istore }
  else d.updCore (coreOf loc) fun c => { c with istore := put c.istore }
/-- Where no thread is about to issue, the host's word is run by a keeper started as the loader starts one (R31): core 0.0.0,
slot 0, in U, at 0x10000, its row in RUN (log 12). -/
def placeThread (s : State) : State :=
  let d := s.dev.setThread 0 { Thread.vacant with st := .run, pc := 0x10000, start := .loader }
  let d := d.updRow 0 fun r => { r with state := 2, live := 1 }
  { s with dev := { d with todo := [0], events := [] } }
/-- A thread is about to issue: nothing is due, and its boundary lets it go. -/
def issuing (d : Dev) : Option Nat := match dueEvent d, d.todo with
  | none, loc :: _ => if boundary d loc = .go && !isFollower d loc && (d.quads.get? loc).isNone then some loc else none
  | _, _ => none
/-- Store a word where the next step fetches. -/
def placeWord (s : State) (w : Word) : State :=
  match issuing s.dev with
  | some loc => { s with dev := putWord s.dev loc (s.dev.thread loc).pc w }
  | none => let s := placeThread s
    { s with dev := putWord s.dev 0 0x10000 w }

end Sys2Proof.Machine
end

