-- ==== Sys2Proof/Machine/Misc.lean ====
section
/-! DEFINITION. The MISC class but for TEND and UNI (R50, R96 to R103), user interrupts (R182), and the words that are no
instruction (R43). -/
namespace Sys2Proof.Machine

/-- R50. -/
def execNop (s : State) : Out := s.run .nop {} adv

/-! ## Full/empty state (R96, R97) -/

/-- Set a register FULL or EMPTY, its value kept; a pending producer is claimed. -/
def Thread.setState (t : Thread) (f : BitVec 2) (r : BitVec 5) (st : RSt) : Thread :=
  if f = 0 then t.setGr r ⟨(t.gr r).val, st, .none⟩
  else if f = 1 then t.setVr r ⟨(t.vr r).val, st, .none⟩
  else t.setPr (r.setWidth 3) ⟨(t.pr (r.setWidth 3)).val, st, .none⟩
/-- R96: a queue register traps RESERVED_FIELD. -/
def setRegState (i : Instr) (f : BitVec 2) (r : BitVec 5) (st : RSt) : M Unit := do
  let t ← me
  if f = 0 ∧ t.isQueue r then trap 0x02 ((encode i).setWidth 64) 0x03E00000
  else do
    present f r
    modMe fun t => t.setState f r st
    adv
def execSetf (d : BitVec 5) (f : BitVec 2) (s : State) : Out := s.run (.setf d f) {} (setRegState (.setf d f) f d .full)
/-- R96. -/
def execSete (d : BitVec 5) (f : BitVec 2) (s : State) : Out := s.run (.sete d f) {} (setRegState (.sete d f) f d .empty)
/-- R97: the 2-bit codes of a file's registers; the p file has eight. -/
def fileStates (d : Dev) (f : BitVec 2) : D :=
  let n := if f = 2 then 8 else 32
  (List.range n).foldl (fun acc r => acc ||| ofN ((regState d f (BitVec.ofNat 5 r)).code * 4 ^ r)) 0
/-- The lowest ABSENT register of a file, which is fetched first. -/
def firstAbsent (d : Dev) (f : BitVec 2) : Option Nat :=
  (List.range (if f = 2 then 8 else 32)).find? fun r => regState d f (BitVec.ofNat 5 r) = .absent
def execTfe (d : BitVec 5) (f : BitVec 2) (s : State) : Out := s.run (.tfe d f) { dst := some d } (do
  let dv ← getD
  match firstAbsent dv f with
  | some r => stop (.miss f.toNat r)
  | none => do
    wg d (fileStates dv f)
    adv)

/-! ## Control registers (R32, R33, R68, R98) -/

/-- R178: INS; OVF shows at most the 1,024 entries of the ring (log 133). -/
def insOf (d : Dev) (loc : Nat) : D :=
  let c := d.core (coreOf loc)
  let t := d.thread loc
  let own := (c.inbox.filter fun x => x.slot = slotOf loc).length
  ofN (t.lsnd % 2 ^ 19 * 2 ^ 44 + min 1024 c.overflow.length * 2 ^ 33 + t.lkind % 16 * 2 ^ 29 + own * 64 + c.inbox.length)
/-- R148: PJS. -/
def pjsOf (d : Dev) (loc : Nat) : D :=
  let own := ownEntries d loc
  ofN (b2n (own.any fun e => e.2.refused.isSome && !e.2.taken) * 65536 + (32 - (d.core ((d.thread loc).at loc)).journal.length) * 256 + own.length)
/-- The value RDC reads; PC is the address of the reading instruction, in a pair that of its second word (R98). -/
def readCtl (d : Dev) (loc : Nat) (c : Nat) : D :=
  let t := d.thread loc
  match c with
  | 0x00 => if d.inUni then t.pc + 4 else t.pc
  | 0x01 => tstOf d loc
  | 0x02 => t.fpm
  | 0x03 => t.rnc
  | 0x04 => t.name.setWidth 64
  | 0x05 => (t.name >>> 64).setWidth 64
  | 0x06 => t.uiv
  | 0x07 => t.uis
  | 0x08 => insOf d loc
  | 0x09 => pjsOf d loc
  | 0x0A => t.lrp
  | 0x0B => t.ckq
  | 0x10 => t.tcause
  | 0x11 => t.tpc
  | 0x12 => t.tval
  | 0x13 => t.taux
  | 0x14 => t.tvec
  | _ => if c < 0x28 then t.lpb.toArray.getD (c - 0x20) 0 else t.lpl.toArray.getD (c - 0x28) 0
/-- R68: a write of FPM: the flags, and RM unless the value places 000 or 111 there. -/
def fpmWrite (old x : D) : D :=
  let rm := fieldN x 2 0
  let y := setField (setField 0 14 8 (fieldN x 14 8)) 2 0 (fieldN old 2 0)
  if rm = 0 ∨ rm = 7 then y else setField y 2 0 rm
/-- R302: CLASS 11 is held as 00. -/
def tcauseWrite (x : D) : D := if fieldN x 11 10 = 3 then setField 0 9 0 (fieldN x 9 0) else setField 0 11 0 (fieldN x 11 0)
/-- The effect of a WRC: only the writable fields change. -/
def Thread.writeCtl (t : Thread) (c : Nat) (x : D) : Thread :=
  match c with
  | 0x01 => if bitN x 22 then t else { t with divg := false }.touch 1
  | 0x02 => { t with fpm := fpmWrite t.fpm x }.touch 2
  | 0x03 => { t with rnc := x }.touch 3
  | 0x06 => { t with uiv := x }.touch 6
  | 0x07 => { t with uis := setField t.uis 0 0 (fieldN x 0 0) }.touch 7
  | 0x0A => if t.priv then { t with lrp := x }.touch 8 else t
  -- a thread that returns to S without ERET has its user handler's registers again (log 33)
  | 0x10 => { t with tcause := tcauseWrite x, own := t.own && !(bitN x 8 && !bitN x 9) }.touch 10
  | 0x11 => { t with tpc := x }.touch 11
  | 0x12 => { t with tval := x }.touch 12
  | 0x13 => { t with taux := x }.touch 13
  | 0x14 => { t with tvec := x }.touch 14
  | _ => if 0x20 ≤ c ∧ c < 0x28 then { t with lpb := t.lpb.setIfInBounds (c - 0x20) (setField 0 31 0 (fieldN x 31 0)) }.touch 15
      else if 0x28 ≤ c ∧ c < 0x30 then { t with lpl := t.lpl.setIfInBounds (c - 0x28) (setField 0 31 3 (fieldN x 31 3)) }.touch 16
      else t
/-- R32: registers U may not reach. -/
def ctlPrivileged (c : BitVec 7) : Bool := 0x10 ≤ c.toNat
/-- R69: an earlier FDIV, FSQRT, VDIV or VSQRT has flags to set. -/
def fpPending (d : Dev) (loc : Nat) : Bool := d.arrs.any fun a => a.2.loc = loc && mine d loc a.1 && a.2.fp
def ctlReady (c : BitVec 7) : M Unit := fun _ d => if c = 2 ∧ fpPending d d.cur then .error .lose else .ok ((), d)
def execRdc (d : BitVec 5) (c : BitVec 7) (s : State) : Out := s.run (.rdc d c) { priv := ctlPrivileged c, dst := some d } (do
  ctlReady c
  let dv ← getD
  wg d (readCtl dv dv.cur c.toNat)
  adv)
/-- R182: with EN just set, an entry that already stands in the inbox raises an interrupt at the next boundary. -/
def raiseWaiting (d : Dev) (loc : Nat) : Dev :=
  let t := d.thread loc
  if bitN t.uis 0 && !bitN t.uis 1 then match (d.core (coreOf loc)).inbox.find? (fun x => x.slot = slotOf loc) with
    | some x => d.post 0 .userInterrupt [loc, x.kind]
    | none => d
  else d
/-- R98: the source always blocks. -/
def execWrc (a : BitVec 5) (c : BitVec 7) (s : State) : Out := s.run (.wrc a c) { priv := ctlPrivileged c, srcs := [.g a false] } (do
  ctlReady c
  let x ← gv a
  let t ← me
  modMe fun t => t.writeCtl c.toNat x
  if c = 7 ∧ !bitN t.uis 0 then modD fun d => raiseWaiting d d.cur else pure ()
  adv)

/-! ## Traps and returns -/

/-- R99: BREAKPOINT before it retires, TVAL = the word. -/
def execBrk (s : State) : Out := s.run .brk {} (trap 0x1E 3 0)
/-- R100; a pending pre-emption of the row stops the thread here (R315). -/
def checkpoint : M Unit := fun _ d =>
  let d := d.updThread d.cur fun t => { t with ckq := t.ckq + 1 }.touch 9
  let waits := isCompute (coreOf d.cur) && (match (d.row (rowKeyOf (coreOf d.cur))).preempt with
    | some (_, _, w) => w
    | none => false)
  .ok ((), if waits then d.updThread d.cur fun t => { t with stopped := some (some t.pc) } else d)
def execCkpt (s : State) : Out := s.run .ckpt {} (do checkpoint; adv)
/-- R101: from U, S is entered with the code and the next address; in S the word is illegal. -/
def execSysc (c : BitVec 10) (s : State) : Out := s.run (.sysc c) {} (do
  let t ← me
  if t.priv then trap 0x01 ((encode (.sysc c)).setWidth 64) 1
  else stop (.trap 0x00 0 (c.setWidth 64) 0 (some (t.pc + 4))))
/-- The trap block of a thread's area. -/
def Thread.block (t : Thread) : Nat := t.area + 0xA0
/-- R155, R344: the trap block lies in a granule that is being copied, or in a stack that retrains. -/
def blockHeld (d : Dev) (t : Thread) : Bool := t.hasArea && (physHeld d t.block || physHeld d (t.block + 32))
/-- R304: g28 to g31 come back from the trap block, EMPTY until they arrive at a load's latency with the states saved there. A code word
that cannot be corrected faults the registers that come from it, or need their states from it (R342, log 138). -/
def restoreBlock (m : Mem) (d : Dev) (loc : Nat) : Dev :=
  let t := d.thread loc
  if !t.hasArea then d else
  let k := t.block
  let sts := rdN m d (k + 32) 1
  let d := (List.range 4).foldl (fun d i =>
    let x := rd64 m d (k + 8 * i)
    let r := BitVec.ofNat 5 (28 + i)
    let (id, d) := d.newId
    let d := d.updThread loc fun t => { t with g := t.g.setIfInBounds r.toNat ⟨x, .empty, .pend id⟩, dirty := t.dirty ||| (1 <<< r.toNat) }
    let (y, d) := d.draw 81
    let bad := if uncorrectable m d (k + 32) then some (k + 32) else if uncorrectable m d k then some k else none
    let f : Option DFault := bad.map fun b => ⟨t.pc, 0x0D, faultTval { newReq d (.ld false) 0 [] (.g r) with loc := loc } (ofN (b % 2 ^ 56)), 0x0D, false⟩
    ({ d with arrs := d.arrs.set id ⟨loc, [(if bad.isSome then .g r else .gs r, BitVec.ofNat 6400 (x.toNat + sts / 4 ^ i % 4 * 2 ^ 64))], 0, false, f, [], false⟩ }).post (180 + y)
      (if bad.isSome then .loadFaultArrival else .producerValueArrival) [id]) d
  [k, k + 32].foldl (fun d b => if uncorrectable m d b then pushFault d (keyDie b) (ofN (keyPhys b)) 1 (masterOf (coreOf loc)) else correctErr m d loc b) d
/-- R102, R304: close the handler level, return to U at TPC. -/
def exceptionReturn : M Unit := fun m d =>
  let t := d.thread d.cur
  if t.tpc.toNat % 4 ≠ 0 then .error (.trap 0x05 0 t.tpc 0 none)
  else if blockHeld d t then .error .lose
  else .ok ((), (restoreBlock m d d.cur).updThread d.cur fun t => { t with tcause := setField t.tcause 9 9 0, priv := false, own := false, pc := t.tpc }.touch 10)
def execEret (s : State) : Out := s.run .eret { priv := true } exceptionReturn

/-! ## User interrupts (R182) -/

/-- An entry addressed to the slot has arrived: in a handler, or with an interrupt already raised (log 123), it sets PEND; else it
raises one at the thread's next boundary, where UIS.EN lets it, and wakes a PARKED thread (R182). -/
def execUserInterrupt (s : State) : Out := s.event fun _ d =>
  let loc := d.arg 0
  let t := d.thread loc
  if t.st = .vacant then d
  else if bitN t.uis 1 || t.uint.isSome then d.updThread loc fun t =>
    { t with uis := setField t.uis 2 2 1, pendKind := if bitN t.uis 2 then t.pendKind else d.arg 1 }.touch 7
  else if bitN t.uis 0 then (unpark d loc).updThread loc fun t => { t with uint := some (d.arg 1) }
  else d
/-- R103: back to shadow g31, whose value stands whatever its state (log 125); a pending entry raises the next interrupt, which
is entered at the boundary that follows. -/
def userReturn (i : Instr) : M Unit := fun _ d =>
  let t := d.thread d.cur
  if !bitN t.uis 1 then .error (.trap 0x01 0 ((encode i).setWidth 64) 1 none)
  else
    let ret := (t.sh.toArray.getD 5 (.ofVal 0)).val
    if ret.toNat % 4 ≠ 0 then .error (.trap 0x05 0 ret 0 none)
    else
      .ok ((), d.updThread d.cur fun t =>
        { t with uis := setField t.uis 2 1 0, own := false, pc := ret, uint := if bitN t.uis 2 then some t.pendKind else t.uint }.touch 7)
def execUiret (s : State) : Out := s.run .uiret {} (userReturn .uiret)

/-! ## Words that are no instruction (R43) -/

/-- The class of a refused word, for check 3, and whether it is privileged or a keeper's. -/
def wordGate (w : Word) : Gate × Bool :=
  let op := w.toNat / 67108864
  let sel := w.toNat % 512
  let grmVec := op = 0x31 && 2 ≤ w.toNat % 16 && w.toNat % 16 ≤ 4
  let unit := op = 0x31 || (0x34 ≤ op && op ≤ 0x38) || (op = 0x32 && 3 ≤ sel)
  let cn := w.toNat / 512 % 128
  let priv := op = 0x38 || (op = 0 && sel = 0x00B) || (op = 0x35 && w.toNat / 256 % 64 = 1) ||
    (op = 0 && (sel = 8 || sel = 9) && ((0x10 ≤ cn && cn ≤ 0x14) || (0x20 ≤ cn && cn ≤ 0x2F)))
  (if 0x20 ≤ op && op ≤ 0x26 then .vector else if grmVec then .grmVec else if unit then .unit else .any, priv)
/-- The tile's conversion steward. -/
def convSteward (loc : Nat) : Bool := kindOf (coreOf loc) = 1 && idxOf (coreOf loc) = 49
/-- R265: a region-table register on another core than the conversion steward is unallocated. -/
def engAbsent (loc : Nat) (e : BitVec 2) (r : BitVec 6) : Bool := e = 2 && 0x20 ≤ r.toNat && !convSteward loc
/-- The refused bits of an instruction's fields, on the core of a thread. -/
def refusedHere (loc : Nat) (i : Instr) : Nat := match i with
  | .engw _ _ e r | .engr _ e r => if engAbsent loc e r then 0x3F else refusedFields i
  | _ => refusedFields i
/-- Checks 1 to 5 for a word that decoding refuses. -/
def refuseWord (w : Word) : M Unit := fun _ d =>
  let t := d.thread d.cur
  let v := w.setWidth 64
  match decodeRaw w with
  | none => .error (.trap 0x01 0 v 0 none)
  | some (i, z) =>
    match gateStop (wordGate w).1 (kindOf (t.at d.cur)) t.mig.isSome with
    | some (c, aux) => .error (.trap c 0 v (ofN aux) none)
    | none => if (wordGate w).2 && !t.priv then .error (.trap 0x03 0 v 0 none)
        else .error (.trap 0x02 0 v (ofN (z + refusedHere d.cur i)) none)
/-- The word is the step's operand. -/
def execIllegalOpcode (s : State) : Out := s.run .illegalOpcode {} (refuseWord (BitVec.ofNat 32 (s.dev.arg 0)))

end Sys2Proof.Machine
end

