-- ==== Sys2Proof/Machine/Names.lean ====
section
/-! DEFINITION. Names (R186 to R206): the name table in HBM, the name caches, the mint's requests, resolution, NNEW and the
allocator, NCAS, NKIL, NSHD and their shoot-downs. -/
namespace Sys2Proof.Machine

/-! ## The name (R186) -/

def nmClass (n : Q) : Nat := n.toNat / 2 ^ 122
def nmChip (n : Q) : Nat := n.toNat / 2 ^ 96 % 2 ^ 26
def nmSeq (n : Q) : Nat := n.toNat % 2 ^ 96
def mkName (cls seq : Nat) : Q := BitVec.ofNat 128 (cls * 2 ^ 122 + Config.chipTag.toNat * 2 ^ 96 + seq % 2 ^ 96)
def loHalf (n : Q) : D := n.setWidth 64
def hiHalf (n : Q) : D := (n >>> 64).setWidth 64
/-- R199: OWNER is the SEQ of the issuer's launch. For a thread of no launch the spec names no OWNER: the model writes 0, and the U owner
test compares it as any other (log 114). -/
def ownerOf (l : Option Q) : Nat := (l.map nmSeq).getD 0

/-! ## The name table (R190 to R193). Every unit's NTCFG holds one value; the model reads that of the asking die. -/

/-- R190: the table's first byte. An address beyond the die's HBM reaches memory all the same (log 139). -/
def tableKey (d : Dev) (die : Nat) : Nat := let c := (d.die die).ntcfg
  fieldN c 57 56 * 2 ^ 56 + fieldN c 55 12 * 4096
def tableBuckets (d : Dev) (die : Nat) : Nat := 2 ^ fieldN (d.die die).ntcfg 5 0 / 4
/-- R192. -/
def nameHash (cls seq : Nat) : Nat :=
  let m := 2 ^ 64
  let h := (seq % m) ^^^ (seq / m * 2 ^ 17 % m) ^^^ (cls * 2 ^ 40 % m)
  let h := (h ^^^ (h / 2 ^ 33)) * 0xFF51AFD7ED558CCD % m
  h ^^^ (h / 2 ^ 33)
def homeBucket (d : Dev) (die cls seq : Nat) : Nat := nameHash cls seq % tableBuckets d die
/-- The eight buckets a name may stand in. -/
def bucketsOf (d : Dev) (die cls seq : Nat) : List Nat := (List.range 8).map fun i => (homeBucket d die cls seq + i) % tableBuckets d die
def entryKeys (d : Dev) (die bucket : Nat) : List Nat := (List.range 4).map fun i => tableKey d die + 64 * (4 * bucket + i)
def entryState (m : Mem) (d : Dev) (k : Nat) : Nat := fieldN (rd64 m d (k + 16)) 63 62
def entryName (m : Mem) (d : Dev) (k : Nat) : Q := rd64 m d (k + 8) ++ rd64 m d k
/-- Buckets read until the name is found, and its entry. -/
def lookupIn (m : Mem) (d : Dev) (die : Nat) (n : Q) : List Nat → Nat → Nat × Option Nat
  | [], c => (c, none)
  | b :: bs, c => match (entryKeys d die b).find? fun k => entryName m d k = n && entryState m d k != 0 with
    | some k => (c + 1, some k)
    | none => lookupIn m d die n bs (c + 1)
def lookup (m : Mem) (d : Dev) (die : Nat) (n : Q) : Nat × Option Nat := lookupIn m d die n (bucketsOf d die (nmClass n) (nmSeq n)) 0
/-- R155, R344: an entry that a look-up of the name reads stands in a granule or a stack that has to be waited for. -/
def tableHeld (d : Dev) (die : Nat) (n : Q) : Bool := ((bucketsOf d die (nmClass n) (nmSeq n)).flatMap (entryKeys d die)).any (physHeld d)
/-- R342: what a look-up reads is corrected on its way. -/
def tableFix (m : Mem) (d : Dev) (die loc : Nat) (n : Q) : Dev := match (lookup m d die n).2 with
  | some k => correctErr m (correctErr m d loc k) loc (k + 32)
  | none => d
/-- The first FREE entry for a name to be minted. -/
def freeEntryFor (m : Mem) (d : Dev) (die cls seq : Nat) : Option Nat :=
  ((bucketsOf d die cls seq).flatMap (entryKeys d die)).find? fun k => entryState m d k = 0
/-- R191: word 2. -/
def mkWord2 (state cls : Nat) (keep einit : Bool) (psz owner : Nat) : D :=
  ofN (state * 2 ^ 62 + cls * 2 ^ 56 + b2n keep * 2 ^ 47 + b2n einit * 2 ^ 46 + psz * 2 ^ 44 + owner / 2 ^ 64)
def writeEntry (d : Dev) (k : Nat) (n : Q) (w2 w3 w4 w5 w6 w7 : D) : Dev :=
  ([loHalf n, hiHalf n, w2, w3, w4, w5, w6, w7].zipIdx).foldl (fun d x => wr64 d (k + 8 * x.2) x.1) d
def entryOwner (m : Mem) (d : Dev) (k : Nat) : Nat := fieldN (rd64 m d (k + 16)) 31 0 * 2 ^ 64 + (rd64 m d (k + 56)).toNat

/-! ## Name caches (R194) -/

def ncSet (d : Dev) (die : Nat) (n : Q) : Nat := homeBucket d die (nmClass n) (nmSeq n) % 256
def ncFind (d : Dev) (tile : Nat) (n : Q) : Option NcEntry :=
  ((d.tile tile).ncache.getD (ncSet d (tileDie tile) n) []).find? fun e => e.name = n
/-- The entry becomes the most recently used; the fifth of a set is evicted, its TMASK bit left set. -/
def ncUse (d : Dev) (tile : Nat) (e : NcEntry) : Dev :=
  let k := ncSet d (tileDie tile) e.name
  d.updTile tile fun t => { t with ncache := t.ncache.upd k [] fun l => (e :: l.filter fun x => x.name != e.name).take 4 }
def ncDrop (t : Tile) (n : Q) : Tile := { t with ncache := t.ncache.map fun x => (x.1, x.2.filter fun e => e.name != n) }
/-- A THRD or LAUNCH name changes or ends: no cache holds it any more. Caches are exact or absent. -/
def purgeName (d : Dev) (n : Q) : Dev := { d with tiles := d.tiles.map fun x => (x.1, ncDrop x.2 n) }
def freeName (m : Mem) (d : Dev) (die : Nat) (n : Q) : Dev := match (lookup m d die n).2 with
  | some k => purgeName (wr64 d (k + 16) (setField (rd64 m d (k + 16)) 63 62 0)) n
  | none => d
/-- R193: the entry's BASE is rewritten when a thread moves, its STATE when it ends. -/
def rebaseName (m : Mem) (d : Dev) (die : Nat) (n : Q) (base : D) : Dev := match (lookup m d die n).2 with
  | some k => purgeName (wr64 d (k + 32) base) n
  | none => d
def dyingName (m : Mem) (d : Dev) (die : Nat) (n : Q) : Dev := match (lookup m d die n).2 with
  | some k => purgeName (wr64 d (k + 16) (setField (rd64 m d (k + 16)) 63 62 2)) n
  | none => d

/-! ## Resolution (R195) -/

inductive Res where
  | live (w2 w3 w4 w5 : D)
  | gone
  | never
  | foreign
deriving DecidableEq, Repr
/-- The tile whose name cache serves a core; channel cores have none. -/
def cacheTile (ca : Nat) : Option Nat := if kindOf ca = 2 then none else some (unitOf ca)
def setMask (m : Mem) (d : Dev) (k tile : Nat) : Dev := wr64 d (k + 48) (rd64 m d (k + 48) ||| ofN (2 ^ tile))
/-- R194, R202: a tile keeps an entry it has read, and its TMASK bit is set: also while a shoot-down of the name is on its way to it
or its acknowledgement on the way back, but not between the two, when the tile does not serve the name (log 52). -/
def install (m : Mem) (d : Dev) (k t : Nat) (e : NcEntry) : Dev :=
  if (d.tile t).shooting.any fun s => (d.shoots.get? s).any fun x => x.name = e.name then d
  else
    let d := { d with shoots := d.shoots.map fun s => if s.2.name = e.name && s.2.left.contains t then (s.1, { s.2 with kept := t :: s.2.kept }) else s }
    ncUse (setMask m d k t) t e
/-- R195: a resolution at this moment. -/
def resolve (m : Mem) (d : Dev) (ca : Nat) (n : Q) : Res × Dev :=
  let die := dieOf ca
  if nmChip n ≠ Config.chipTag.toNat then (.foreign, d)
  else match (cacheTile ca).bind fun t => (ncFind d t n).map fun e => (t, e) with
  | some (t, e) => (.live e.w2 e.w3 e.w4 e.w5, ncUse d t e)
  | none => match (lookup m d die n).2 with
    | some k =>
      if entryState m d k = 1 then
        let w (i : Nat) : D := rd64 m d (k + 8 * i)
        (.live (w 2) (w 3) (w 4) (w 5), match cacheTile ca with
          | some t => install m d k t ⟨n, w 2, w 3, w 4, w 5⟩
          | none => d)
      else (.gone, d)
    | none => (if nmSeq n < d.mint.next then .gone else .never, d)
/-- R197: one HBM access of the table's die for each bucket read, and 24 cycles; 32 on a cache hit. -/
def tableAccess (d : Dev) (ca : Nat) : Nat × Nat := if fieldN (d.die (dieOf ca)).ntcfg 57 56 = dieOf ca then (180, 80) else (260, 120)
def hitTime : Nat := 32
def resolveTime (m : Mem) (d : Dev) (ca : Nat) (n : Q) (cached : Bool) : Nat × Dev :=
  if cached && ((cacheTile ca).bind fun t => ncFind d t n).isSome then (hitTime, d)
  else
    let b := (lookup m d (dieOf ca) n).1
    let (lo, ex) := tableAccess d ca
    let (x, d) := drawDet d ca (ex * b + 1)
    (lo * b + x + 24, d)
/-- R195: steps 1 and 2, at the issuing core: a reserved class traps; FOREIGN traps where the instruction says so. -/
def checkClass (n : Q) : M Unit :=
  if nmClass n = 0 ∨ 6 < nmClass n then trap 0x10 (loHalf n) (hiHalf n) else pure ()
/-- The spec states TVAL and TAUX for NAME_CLASS only; the model gives those of the exact FOREIGN_NAME the same two halves of the name
(log 115). -/
def checkForeign (n : Q) : M Unit :=
  if nmChip n ≠ Config.chipTag.toNat then trap 0x20 (loHalf n) (hiHalf n) else pure ()
def nameFault (pc : D) (cause : Nat) (n : Q) : DFault := ⟨pc, cause, loHalf n, cause, false⟩

/-! ## Queries -/

/-- The query of the thread whose turn it is; its destinations pend on its number. -/
def newQuery (d : Dev) (kind : NKind) (dsts : List Dst) (name : Q) (sel : Nat) : Nat × Dev :=
  let t := d.thread d.cur
  let (id, d) := pendArr d d.cur dsts
  (id, { d with nameQ := d.nameQ.set id { loc := d.cur, kind := kind, name := name, sel := sel, req := 0, tmpl := 0, arg := 0, parts := [], pc := t.pc, user := !t.priv, launch := t.launch, away := false, regions := [] } })
/-- A query reaches the name unit half-way through its time `n`. -/
def sendQuery (d : Dev) (id n : Nat) : Dev := d.post (n / 2) .nameTableOperation [id, n - n / 2]
def pairDst (d : BitVec 5) : List Dst := [.g d, .g (pairOf d)]
/-- Word `sel` of an entry (R196). -/
def selWord (sel : Nat) (w2 w3 w4 w5 : D) : D := match sel with
  | 0 => w4
  | 1 => w5
  | 2 => w3
  | _ => w2
def queryTime (d : Dev) (n : Q) (cached : Bool) : M Nat := fun m dv =>
  let (t, dv) := resolveTime m dv ((dv.thread dv.cur).at dv.cur) n cached
  .ok (t, { dv with free := max dv.free d.free })
def shName (a : BitVec 5) (m : Bool) (long : List (BitVec 5)) : Shape := { srcs := [.g a m, .g (pairOf a) m], long := long }
def execNres (d a k1 : BitVec 5) (m : Bool) (s : State) : Out := s.run (.nres d a k1 m) (shName a m [d]) (do
  let n ← gpair a
  checkClass n
  checkForeign n
  let dv ← getD
  let time ← queryTime dv n true
  modD fun dv => let (id, dv) := newQuery dv .res [.g d] n k1.toNat
    sendQuery dv id time
  adv)
def execNrst (d a k1 : BitVec 5) (m : Bool) (s : State) : Out := s.run (.nrst d a k1 m) (shName a m [d, pairOf d]) (do
  let n ← gpair a
  checkClass n
  let dv ← getD
  let time ← queryTime dv n true
  modD fun dv => let (id, dv) := newQuery dv .rst (pairDst d) n k1.toNat
    sendQuery dv id time
  adv)
def execNqry (d a k1 : BitVec 5) (m : Bool) (s : State) : Out := s.run (.nqry d a k1 m) (shName a m [d]) (do
  let n ← gpair a
  checkClass n
  let dv ← getD
  let time ← queryTime dv n false
  modD fun dv => let (id, dv) := newQuery dv .qry [.g d] n k1.toNat
    sendQuery dv id time
  adv)
/-- R201: the thread's own name. -/
def execNslf (d : BitVec 5) (s : State) : Out := s.run (.nslf d) { dst := some d, also := [.g (pairOf d) false] } (do
  needSpace (pairOf d)
  let t ← me
  wgpair d t.name
  adv)
/-- R203: NCAS, NKIL and NSHD take the time of an AMO to the entry's home. -/
def homeTime : M Nat := fun _ d =>
  let (lo, ex) := tableAccess d ((d.thread d.cur).at d.cur)
  let (x, d) := d.draw (ex + 1)
  .ok (lo + x, d)
def changeName (kind : NKind) (d a : BitVec 5) : M Unit := do
  let n ← gpair a
  checkClass n
  checkForeign n
  let time ← homeTime
  modD fun dv => let (id, dv) := newQuery dv kind [.g d] n 0
    sendQuery dv id time
  adv
def execNkil (d a : BitVec 5) (m : Bool) (s : State) : Out := s.run (.nkil d a m) (shName a m [d]) (changeName .kil d a)
def execNshd (d a : BitVec 5) (m : Bool) (s : State) : Out := s.run (.nshd d a m) (shName a m [d]) (changeName .shd d a)
/-- R204: the block is aligned, decoded, checked and translated at issue; it is read and written as the thread's own words. -/
def execNcas (d a b : BitVec 5) (m n : Bool) (s : State) : Out :=
  s.run (.ncas d a b m n) { srcs := [.g a m, .g (pairOf a) m, .g b n], long := [d] } (do
    let nm ← gpair a
    let va ← gv b
    checkClass nm
    checkForeign nm
    windowAlign va 64 0
    let ws := (List.range 8).map fun k => (k, va + ofN (8 * k), 0)
    let xs ← reachAll 8 0 (ws.map fun w => w.2.1)
    -- R240, R358: the write-back's right is tested here too
    let _ ← reachAll 8 1 (ws.map fun w => w.2.1)
    let time ← homeTime
    modD fun dv => let (id, dv) := newQuery dv .cas [.g d] nm 0
      sendQuery { dv with nameQ := dv.nameQ.upd id ⟨0, .cas, 0, 0, 0, 0, 0, [], 0, false, none, false, []⟩ fun q => { q with parts := partsOf 8 ws xs } } id time
    adv)

/-! ## NNEW (R198 to R200) -/

def pszBytes (k : Nat) : Nat := match k with
  | 0 => 2 ^ 16
  | 1 => 2 ^ 21
  | _ => 2 ^ 30
/-- R193: the alignment of a class's BASE. -/
def baseAlign (cls : Nat) : Nat := if cls = 1 then 128 else 64
/-- R198: BADREQ. -/
def badRequest (req tmpl arg : D) : Bool :=
  let cls := fieldN req 5 0
  let psz := fieldN req 7 6
  req.toNat / 1024 ≠ 0 || !(cls = 1 || cls = 2 || cls = 3 || cls = 5) ||
  (if cls = 3 then
    psz = 3 || arg.toNat = 0 || 2 ^ 40 < arg.toNat || plTier tmpl = 3 || plMig tmpl || plCur tmpl ≠ 0 || plMalformed tmpl (pszBytes psz) ||
    (bitN req 9 && plTier tmpl = 1)
  else bitN req 9 || psz ≠ 0 || arg.toNat % baseAlign cls ≠ 0 || tmpl ≠ 0)
/-- A request joins the mint's queue of its die; the mint serves when it is free. -/
def mintRequest (d : Dev) (die : Nat) (r : MintReq) : Dev :=
  let d := { d with mint := { d.mint with queue := d.mint.queue ++ [(die, r)] } }
  if d.mint.writing || d.events.any (fun e => e.step = .mintIssue) then d else d.post (max 1 (d.mint.freeAt - d.cycle)) .mintIssue []
/-- A failed NNEW: a status, or the deferred-exact ALLOC_EXHAUSTED, whose TVAL is g[a], for a grammar view its name's low half. -/
def failNew (d : Dev) (id dt : Nat) (q : NQuery) (st : Nat) : Dev :=
  let d := { d with nameQ := d.nameQ.erase id }
  match q.kind, d.arrs.get? id with
  | .new true, some a => fillArr d id dt ((a.vals.zipIdx).map fun v => (v.1.1, if v.2 = 0 then BitVec.ofNat 6400 st else 0))
  | _, _ => failArr d id dt ⟨q.pc, 0x1B, if q.name = 0 then q.arg else loHalf q.name, st, false⟩
def execNnew (d a b : BitVec 5) (m n f : Bool) (s : State) : Out :=
  s.run (.nnew d a b m n f) { srcs := [.g a m, .g b n, .g (pairOf b) n], long := [d, pairOf d] } (do
    let arg ← gv a
    let req ← gv b
    let tmpl ← gv (pairOf b)
    modD fun dv =>
      let (id, dv) := newQuery dv (.new f) (pairDst d) 0 0
      let dv := { dv with nameQ := dv.nameQ.upd id ⟨0, .res, 0, 0, 0, 0, 0, [], 0, false, none, false, []⟩ fun q => { q with req := req, tmpl := tmpl, arg := arg } }
      let q := dv.nameQ.getD id ⟨0, .res, 0, 0, 0, 0, 0, [], 0, false, none, false, []⟩
      if badRequest req tmpl arg then
        let (lo, ex) := tableAccess dv ((dv.thread dv.cur).at dv.cur)
        let (x, dv) := dv.draw (ex + 1)
        failNew dv id (lo + x) q 3
      else mintRequest dv (dieOf ((dv.thread dv.cur).at dv.cur)) (.nnew id)
    adv)

/-! ### The allocator (R199, R339) -/

/-- The pool of a unit of a placement: its die and place in the allocator area. -/
def poolOf (tier unit : Nat) : Nat × Nat := match tier with
  | 0 => (unit / 3, unit % 3)
  | 1 => (unit / 2, 3 + unit % 2)
  | _ => (unit, 5)
/-- R339: a pool's record in the allocator area; an address beyond the die's HBM reaches memory all the same (log 139). -/
def poolKey (d : Dev) (die idx : Nat) : Nat := (d.die die).alloc.toNat % 2 ^ 58 + 64 * idx
def poolCount (m : Mem) (d : Dev) (p : Nat × Nat) : Nat := (rd64 m d (poolKey d p.1 p.2)).toNat
def poolStack (m : Mem) (d : Dev) (p : Nat × Nat) : Nat := (rd64 m d (poolKey d p.1 p.2 + 8)).toNat % 2 ^ 58
/-- Take `n` frames from the top of a pool's stack, whose entries are words. -/
def takeFrames (m : Mem) (d : Dev) (p : Nat × Nat) (n : Nat) : List Nat × Dev :=
  let c := poolCount m d p
  ((List.range n).map fun i => (rd64 m d (poolStack m d p + 8 * (c - 1 - i))).toNat, wr64 d (poolKey d p.1 p.2) (ofN (c - n)))
def giveFrame (m : Mem) (d : Dev) (p : Nat × Nat) (f : Nat) : Dev :=
  let c := poolCount m d p
  wr64 (wr64 d (poolStack m d p + 8 * c) (ofN f)) (poolKey d p.1 p.2) (ofN (c + 1))
/-- 64 KiB frames that one unit gives a page: its granules, packed (log 13). -/
def framesPerPage (tmpl : D) (page : Nat) : Nat :=
  let g := 2 ^ (plGran tmpl + 8)
  let n := max (plUnits tmpl).length 1
  ((page / g + n - 1) / n * g + 65535) / 65536
/-- The flat key of a frame's first byte; a pool's frame number beyond its memory is a byte all the same (log 139). -/
def frameKey (tier unit frame : Nat) : Nat := match tier with
  | 0 => unit / 3 * 2 ^ 56 + 65536 * frame
  | 1 => cxlKey unit (65536 * frame)
  | _ => vaultKey (unit * 16 + 65536 * frame / 0x2000000) (65536 * frame % 0x2000000)
/-- The die whose second stage maps a unit's part of a page. -/
def unitDie (tier unit : Nat) : Nat := match tier with
  | 0 => unit / 3
  | 1 => unit / 2
  | _ => unit
/-- The node of a context's table that holds the leaf of an address at a level, if the path to it stands (R140). -/
def nodeAt (m : Mem) (d : Dev) (va lvl : Nat) : Nat → Nat → Option Nat
  | 0, node => if lvl = 0 then some node else none
  | n + 1, node =>
    if lvl = n + 1 then some node
    else
      let k := node + 16 * walkIdx va (n + 1)
      if bitN (rd64 m d (k + 8)) 0 && !bitN (rd64 m d (k + 8)) 1 then nodeAt m d va lvl n ((rd64 m d k).toNat % 2 ^ 58) else none
def leafKey (m : Mem) (d : Dev) (root : D) (va psz : Nat) : Option Nat :=
  (nodeAt m d va psz 4 (root.toNat % 2 ^ 58)).map fun n => n + 16 * walkIdx va psz
/-- A free range of the arena: any is allowed. A free choice names an aligned place; when that is taken, the lowest free one. -/
def arenaRange (d : Dev) (ctx : Vector D 4) (len psz : Nat) : Option (Nat × Dev) :=
  let lo := fieldN (ctx.get 1) 55 0
  let hi := lo + fieldN (ctx.get 2) 55 0
  let up (x : Nat) : Nat := (x + psz - 1) / psz * psz
  let mine := d.blocks.filter fun b => b.ctx = ctx.get 0
  let ok (va : Nat) : Bool := lo ≤ va && va + len ≤ hi && mine.all fun b => !overlaps va len b.va b.len
  let n := (hi - lo) / psz
  let (x, d) := d.draw (max n 1)
  let any := up lo + x * psz
  if ok any then some (any, d)
  else
    let cands := up lo :: mine.map fun b => up (b.va + b.len)
    ((cands.filter ok).min?).map fun v => (v, d)
/-- Lay pages out over units' frames: the second stage's entries (log 13). -/
def layPages (die0 : Nat → Nat) (ctx : D) (va psz per : Nat) (fs : List (Nat × List Nat)) : List Stage2 :=
  fs.flatMap fun (u, l) => (l.zipIdx).map fun (f, i) =>
    { die := die0 u, ctx := ctx, base := va + i / per * psz, size := psz, resident := true, rd := true, wr := true, part := some (u, i % per), frame := 65536 * f, fresh := false, peer := none }
/-- Frames of all units for a number of pages, or none when a pool lacks them. -/
def takeAll (m : Mem) (d : Dev) (tier n : Nat) : List Nat → Option (List (Nat × List Nat) × Dev)
  | [] => some ([], d)
  | u :: us =>
    if poolCount m d (poolOf tier u) < n then none
    else
      let (l, d) := takeFrames m d (poolOf tier u) n
      (takeAll m d tier n us).map fun r => ((u, l) :: r.1, r.2)
/-- R200: every word of a frame reads 0 and is FULL, or EMPTY. -/
def initFrame (d : Dev) (tier k : Nat) (empty : Bool) : Dev :=
  let d := (d.clear k 65536).clear (errKey k) 2048
  if tier = 1 then d
  else if empty then (List.range 8192).foldl (fun d i => setFe d (k + 8 * i) true) d
  else d.clear (feKey k) 8192
/-- The block of an OBJ: address, length and the leaves written, frames mapped and initialised; or the status of its failure. -/
def allocate (m : Mem) (d : Dev) (q : NQuery) (name : Q) : Except Nat (Nat × Nat × List Nat × Dev) :=
  let ctx := ctxOf d q.loc
  let k := fieldN q.req 7 6
  let psz := pszBytes k
  let len := (q.arg.toNat + psz - 1) / psz * psz
  let tier := plTier q.tmpl
  match arenaRange d ctx len psz with
  | none => .error 2
  | some (va, d) =>
    let pages := (List.range (len / psz)).map fun i => va + i * psz
    let leaves := pages.map fun a => leafKey m d (ctx.get 0) a k
    if leaves.any Option.isNone then .error 2
    else
      let per := framesPerPage q.tmpl psz
      match takeAll m d tier (per * pages.length) (plUnits q.tmpl) with
      | none => .error 1
      | some (fs, d) =>
        let d := { d with stage2 := layPages (unitDie tier) (ctx.get 0) va psz per fs ++ d.stage2 }
        let d := (leaves.filterMap id).foldl (fun d k => wr64 (wr64 d k q.tmpl) (k + 8) 0x2F) d
        let d := fs.foldl (fun d x => x.2.foldl (fun d f => initFrame d tier (frameKey tier x.1 f) (bitN q.req 9)) d) d
        .ok (va, len, leaves.filterMap id, { d with blocks := d.blocks ++ [⟨name, ctx.get 0, va, len, psz, q.tmpl, fs.flatMap fun x => x.2.map fun f => ((poolOf tier x.1).1, (poolOf tier x.1).2, f)⟩] })
/-- R198, R199: the mint serves an NNEW: true when it takes the next sequence. -/
def mintNew (m : Mem) (d : Dev) (id : Nat) : Bool × Dev :=
  match d.nameQ.get? id with
  | none => (false, d)
  | some q =>
    let ca := (d.thread q.loc).at q.loc
    let die := dieOf ca
    let cls := fieldN q.req 5 0
    let seq := d.mint.next
    let name := mkName cls seq
    let (lo, ex) := tableAccess d ca
    let (x, d) := d.draw (2 * ex + 1)
    if d.mint.stopped then (false, failNew d id (2 * lo + x) q 5)
    else match freeEntryFor m d die cls seq with
    | none => (false, failNew d id (2 * lo + x) q 4)
    | some k =>
      match (if cls = 3 then allocate m d q name else .ok (q.arg.toNat, if cls = 1 then 128 else if cls = 2 then 64 else 0, [], d)) with
      | .error st => (false, failNew d id (2 * lo + x) q st)
      | .ok (base, len, leaves, d) =>
        let owner := ownerOf q.launch
        let w2 := mkWord2 1 cls (bitN q.req 8) (bitN q.req 9) (fieldN q.req 7 6) owner
        let tile := cacheTile ca
        let d := writeEntry d k name w2 q.tmpl (ofN base) (ofN len) (ofN ((tile.map fun t => 2 ^ t).getD 0)) (ofN owner)
        let d := match tile with
          | some t => ncUse d t ⟨name, w2, q.tmpl, ofN base, ofN len⟩
          | none => d
        -- R197: a leaf write takes R143's figure for the die of its node
        let (y, d) := leaves.foldl (fun (y, d) k => let (lo, ex) := if k / 2 ^ 56 = die then (180, 80) else (260, 120)
          let (x, d) := Dev.draw d (ex + 1)
          (y + lo + x, d)) (0, d)
        let time := 2 * lo + x + y + (if cls = 3 then len / 128 else 0)
        let d := { d with nameQ := d.nameQ.erase id }
        (true, match d.arrs.get? id with
          | some a => fillArr d id time ((a.vals.zipIdx).map fun v => (v.1.1, (if v.2 = 0 then loHalf name else hiHalf name).setWidth 6400))
          | none => d)

/-! ## Shoot-downs (R202, R205, R357) -/

/-- Placement TLB shoot-down of pages to every tile (R154); `step` is posted when all have acknowledged. -/
def startTsd (d : Dev) (ctx : D) (base size : Nat) (step : Instr) (args : List Nat) : Dev :=
  let (id, d) := d.newId
  let d := { d with tsds := d.tsds.set id ⟨ctx, base, size, List.range 64, step, args⟩ }
  (List.range 64).foldl (fun d t => d.postRange 40 1000 .placementTlbShootdown [id, t]) d
def execPlacementTlbShootdown (s : State) : Out := s.event fun _ d =>
  match d.tsds.get? (d.arg 0) with
  | none => d
  | some x =>
    let t := d.arg 1
    let d := d.updTile t fun tl => { tl with tlb := tl.tlb.filter fun e => !(e.ctx = x.ctx && overlaps e.base e.size x.base x.size) }
    let left := x.left.erase t
    if left.isEmpty then ({ d with tsds := d.tsds.erase (d.arg 0) }).postRange 40 1000 x.step x.args
    else { d with tsds := d.tsds.set (d.arg 0) { x with left := left } }
/-- R357: each of the three legs of a shoot-down, to a tile, at it, and back: 40 cycles where the tile lies on the die of the entry's
home, longer where it does not, and at most 740 (log 129). -/
def shootLeg (key tile : Nat) : Nat × Nat := if tileDie tile = key / 2 ^ 56 % 4 then (40, 0) else (110, 630)
/-- The entry is still the one of the shoot-down's name: a thread's or launch's may have been freed since. -/
def Shoot.here (m : Mem) (d : Dev) (x : Shoot) : Bool := entryName m d x.key = x.name && entryState m d x.key != 0
/-- R205: a part of an access in the block: it is refused where it has still to be performed. -/
def Part.unmapped (b : Block) (p : Part) : Part := if p.place.isSome && b.va ≤ p.va.toNat && p.va.toNat < b.va + b.len then { p with page := 0 } else p
/-- R205: no access translated before the block's end reaches the frames once they are given back. -/
def refuseBlock (d : Dev) (b : Block) : Dev :=
  let its (loc : Nat) : Bool := rootOf (ctxOf d loc) = b.ctx
  let req (r : Req) : Req := if its r.loc then { r with parts := r.parts.map (Part.unmapped b) } else r
  { d with reqs := d.reqs.map fun x => (x.1, req x.2),
           cores := d.cores.map fun x => (x.1, { x.2 with journal := x.2.journal.map fun j => (j.1, { j.2 with orig := j.2.orig.map req }) }),
           nameQ := d.nameQ.map fun x => (x.1, if its x.2.loc then { x.2 with parts := x.2.parts.map (Part.unmapped b) } else x.2),
           gramQ := d.gramQ.map fun x => (x.1, if its x.2.loc then { x.2 with parts := x.2.parts.map (Part.unmapped b) } else x.2) }
/-- R205: a killed block is mapped no more: what reaches a die after the unmap is refused there, whatever a tile's TLB holds. -/
def unmapBlock (d : Dev) (b : Block) : Dev :=
  { d with stage2 := d.stage2.filter fun e => !(e.ctx = b.ctx && b.va ≤ e.base && e.base < b.va + b.len && e.part.isSome) }
/-- R205: what a finished kill gives back: the entry, the frames, the range. -/
def releaseName (m : Mem) (d : Dev) (x : Shoot) : Dev :=
  let d := wr64 d (x.key + 16) (setField (setField (rd64 m d (x.key + 16)) 63 62 0) 55 55 0)
  match d.blocks.find? fun b => b.name = x.name with
  | none => d
  | some b =>
    let d := b.frames.foldl (fun d f => giveFrame m d (f.1, f.2.1) f.2.2) (refuseBlock d b)
    { d with blocks := d.blocks.filter fun b => b.name != x.name }
/-- R155, R344: a word that the release of a name writes has to be waited for. -/
def releaseHeld (m : Mem) (d : Dev) (x : Shoot) : Bool :=
  physHeld d x.key || (d.blocks.any fun b => b.name = x.name && b.frames.any fun f =>
    let p := (f.1, f.2.1)
    physHeld d (poolKey d p.1 p.2) || physHeld d (poolStack m d p + 8 * poolCount m d p))
/-- A launch's kill has finished: its completion goes on (R296). -/
def killDone (d : Dev) (l : Q) : Dev :=
  { d with launches := d.launches.map fun (x : Launch) => if x.name = l then { x with kills := x.kills.map (· - 1) } else x }.post 0 .launchComplete [l.toNat]
/-- A message for a thread by its name: to its slot, or kept while it is saved or stands behind a LENT slot; with the thread it
ends. -/
def postNamed (m : Mem) (d : Dev) (name : Q) (x : Msg) : Dev :=
  match d.threads.find? fun t => t.2.live && t.2.name = name with
  | some (l, _) => postMsg d (coreOf l) { x with slot := slotOf l, dest := some name }
  | none => match (lookup m d 0 name).2 with
    | some k => if entryState m d k = 1 then { d with mail := d.mail ++ [(name, x)] } else d
    | none => d
/-- What was kept for the thread now in a slot reaches it. -/
def giveMail (d : Dev) (loc : Nat) : Dev :=
  let n := (d.thread loc).name
  (d.mail.filter fun x => x.1 = n).foldl (fun d x => postMsg d (coreOf loc) { x.2 with slot := slotOf loc, dest := some n })
    { d with mail := d.mail.filter fun x => x.1 != n }
/-- R202 step 5, R205: a shoot-down whose acknowledgements have all arrived ends: SHD is cleared, a kill gives the entry back, and
NAMEOP goes to the issuing thread. A kill outlasts the other shoot-downs of its entry. -/
def endShoot (m : Mem) (d : Dev) (sid : Nat) : Dev :=
  match d.shoots.get? sid with
  | none => d
  | some x =>
    let others := d.shoots.any fun y => y.1 != sid && y.2.name = x.name
    let msg : Msg := ⟨[loHalf x.name, hiHalf x.name, ofN x.code, ofN x.count], 4, slotOf x.loc, x.loc, some x.thread⟩
    if !(x.left.isEmpty && x.tlb = 0) || (x.kill && others) then d
    else if (x.launch.isNone && outFull d msg) || (if x.kill then releaseHeld m d x else physHeld d x.key) then d.post 16 .shootdownAckAtEntry [sid, 65]
    else
    let d := { d with shoots := d.shoots.erase sid }
    let d := if x.kill then releaseName m d x
      else if others || !x.here m d then d
      else wr64 d (x.key + 16) (setField (rd64 m d (x.key + 16)) 55 55 0)
    match x.launch with
    | some l => killDone d l
    | none => postNamed m d x.thread msg
/-- An acknowledgement has arrived for `sid`; a kill of the same entry may have waited for it. -/
def finishShoot (m : Mem) (d : Dev) (sid : Nat) : Dev :=
  let name := (d.shoots.get? sid).map fun x => x.name
  let d := endShoot m d sid
  match d.shoots.find? fun y => some y.2.name = name && y.2.kill with
  | some y => endShoot m d y.1
  | none => d
/-- R202 step 1: SHD is set, TMASK read, and every tile of it is sent the shoot-down once the status has arrived, `back` cycles from
now (R357); R205: an OBJ's leaves are unmapped. -/
def startShoot (m : Mem) (d : Dev) (key : Nat) (name : Q) (loc code back : Nat) (kill : Bool) (launch : Option Q) : Dev :=
  let (sid, d) := d.newId
  let tiles := setBits (rd64 m d (key + 48)).toNat 64
  let obj := if kill then d.blocks.find? fun b => b.name = name else none
  let x : Shoot := ⟨name, key, loc, (d.thread loc).name, code, kill, 0, tiles, b2n obj.isSome, launch, []⟩
  let d := { d with shoots := d.shoots.set sid x }
  let w2 := setField (rd64 m d (key + 16)) 55 55 1
  let d := wr64 d (key + 16) (if kill then setField w2 63 62 2 else w2)
  -- R179: waiters on a killed queue learn that its name is GONE
  let d := if kill then
      let d := (d.recvQ.filter fun x => x.1 = name.toNat).foldl (fun d x => d.post 0 .queueDequeue [x.2, 0, 1]) d
      (d.sendQ.filter fun x => x.1 = name.toNat).foldl (fun d x => d.post 0 .queueAppend [x.2.1, x.2.2, 8, 1]) d
    else d
  let d := match obj with
    | none => d
    | some b =>
      let psz := if b.psz = 2 ^ 16 then 0 else if b.psz = 2 ^ 21 then 1 else 2
      let d := (List.range (b.len / b.psz)).foldl (fun d i => match leafKey m d b.ctx (b.va + i * b.psz) psz with
        | some k => wr64 (wr64 d k 0) (k + 8) 0
        | none => d) (unmapBlock d b)
      -- an access that waits at the word for its state is refused now
      let d := (d.feWait.filter fun id => (d.reqs.get? id).any fun r => r.parts.any fun p => p.place.isSome && b.va ≤ p.va.toNat && p.va.toNat < b.va + b.len).foldl
        (fun d id => d.post 0 .memoryRequestAtTarget [id]) d
      startTsd d b.ctx b.va b.len .shootdownAckAtEntry [sid, 64]
  if tiles.isEmpty then d.postRange (back + 1) 39 .shootdownAckAtEntry [sid, 65]
  else tiles.foldl (fun d t => let (lo, ex) := shootLeg key t
    d.postRange (back + lo) ex .shootdownArrival [sid, t]) d
/-- R202 step 2, R222: the tile no longer serves the name and holds new walks. -/
def execShootdownArrival (s : State) : Out := s.event fun _ d =>
  let sid := d.arg 0
  match d.shoots.get? sid with
  | none => d
  | some x =>
    let t := d.arg 1
    -- what the tile read since step 1 goes too: its acknowledgement clears its bit
    let d := { d with shoots := d.shoots.set sid { x with kept := x.kept.filter (· != t) } }
    let (lo, ex) := shootLeg x.key t
    (d.updTile t fun tl => { ncDrop tl x.name with shooting := tl.shooting ++ [sid] }).postRange lo ex .shootdownAcknowledge [sid, t]
/-- Steps 4 and 5: an acknowledgement arrives at the entry. Tile 64 stands for the placement TLBs, 65 for an empty TMASK. -/
def execShootdownAckAtEntry (s : State) : Out := s.event fun m d =>
  let sid := d.arg 0
  let t := d.arg 1
  match d.shoots.get? sid with
  | none => d
  | some x =>
    -- R155, R344: the entry's word is written after a copy or a retraining that holds it
    if physHeld d x.key then d.post 16 .shootdownAckAtEntry [sid, t] else
    let d := if t < 64 then
        let d := if x.kept.contains t || !x.here m d then d
          else wr64 d (x.key + 48) (ofN ((rd64 m d (x.key + 48)).toNat - (if bitN (rd64 m d (x.key + 48)) t then 2 ^ t else 0)))
        { d with shoots := d.shoots.set sid { x with left := x.left.erase t, count := x.count + 1 } }
      else if t = 64 then { d with shoots := d.shoots.set sid { x with tlb := 0 } }
      else d
    finishShoot m d sid

/-! ## Operations at the table (R192, R201 to R206) -/

/-- Give a query's answer: its destinations' values in order. -/
def answerQuery (d : Dev) (id dt : Nat) (xs : List D) : Dev :=
  let d := { d with nameQ := d.nameQ.erase id }
  match d.arrs.get? id with
  | some a => fillArr d id dt ((a.vals.zipIdx).map fun v => (v.1.1, (xs.getD v.2 0).setWidth 6400))
  | none => d
def faultQuery (d : Dev) (id dt : Nat) (f : DFault) : Dev := failArr { d with nameQ := d.nameQ.erase id } id dt f
/-- Status 2 or 4 for a name that is not LIVE. -/
def absentStatus (d : Dev) (n : Q) : Nat := if nmSeq n < d.mint.next then 2 else 4
/-- R203: what NKIL and NSHD find: a status, or the entry. -/
def changeStatus (m : Mem) (d : Dev) (ca : Nat) (q : NQuery) (own : Bool) : Nat ⊕ Nat :=
  match (lookup m d (dieOf ca) q.name).2 with
  | none => .inl (absentStatus d q.name)
  | some k =>
    if entryState m d k ≠ 1 then .inl 2
    else if own && q.user && entryOwner m d k ≠ ownerOf q.launch then .inl 5
    else if own && (nmClass q.name = 4 || nmClass q.name = 6) then .inl 6
    else .inr k
/-- R204: the new words 2 to 5 are refused. -/
def refusedDescriptor (cls : Nat) (old new : List D) : Bool :=
  let w (l : List D) (i : Nat) : D := l.getD i 0
  let mask : Nat := 2 ^ 64 - 1 - 2 ^ 47
  decide ((w old 0).toNat &&& mask ≠ (w new 0).toNat &&& mask) ||
  (if cls = 3 then decide (w old 1 ≠ w new 1) || decide (w old 2 ≠ w new 2) || decide (w old 3 ≠ w new 3)
   else decide (w new 1 ≠ 0) || decide ((w new 3).toNat ≠ (if cls = 1 then 128 else if cls = 2 then 64 else 0)) || decide ((w new 2).toNat % baseAlign cls ≠ 0) ||
     decide (cls = 5 ∧ winCode (w new 2) ≠ 0))
/-- The refused load of a frozen unit leaves its destinations EMPTY with no producer (R156). -/
def abandonArr (d : Dev) (id : Nat) : Dev := match d.arrs.get? id with
  | none => d
  | some a => { d.updOwner a.loc id (fun t => a.vals.foldl (fun t v => t.unpend id v.1) t) with arrs := d.arrs.erase id }
/-- The words of an NCAS block as plain loads of the thread find them, or the first that cannot be read. -/
def blockRead (m : Mem) (d : Dev) (r : Req) : Except (UStop × Part) (List D) :=
  r.parts.mapM fun p => match partRead m d r p with
    | .ok x => .ok (ofN x)
    | .error e => .error (e, p)
def ncasFault (d : Dev) (id : Nat) (q : NQuery) (reason : Nat) (va : D) : DFault :=
  let dst := ((d.arrs.get? id).bind fun a => a.vals.head?.map Prod.fst).getD .none
  ⟨q.pc, if reason = 0x0D then 0x0D else 0x0C, faultTval { newReq Dev.reset (.ld false) 0 [] .none with dst := dst } va, reason, false⟩
/-- The write-back's stores that find journal entries, in order (R240): the words left. -/
def backStores (m : Mem) (id ca : Nat) (q : NQuery) : List Part → Dev → List Part × Dev
  | [], d => ([], d)
  | p :: ps, d => match queryStore m d id q.loc ca q.pc q.user q.regions p with
    | some d => backStores m id ca q ps d
    | none => (p :: ps, d)
/-- R204, R240: status 1: the current words 2 to 5, which `q.parts` holds, are written back as plain stores of the thread. `q.sel` is
1 more than the words sent. -/
def ncasBack (m : Mem) (d : Dev) (id back : Nat) (q : NQuery) : Dev :=
  let ca := (d.owner q.loc id).at q.loc
  let left := q.parts.drop (q.sel - 1)
  if queryFailed d id then
    if queryStoring d id q.loc then d.post 4 .nameTableOperation [id, back]
    else { d with nameQ := d.nameQ.erase id }.post back .loadFaultArrival [id]
  else
    let (rest, d) := backStores m id ca q left d
    if rest.isEmpty && !queryStoring d id q.loc then answerQuery d id back [1]
    else { d with nameQ := d.nameQ.set id { q with sel := 5 - rest.length } }.post 4 .nameTableOperation [id, back]
/-- R204, R145: the block is read in the order of the thread's own accesses. -/
def ncasAt (m : Mem) (d : Dev) (id back : Nat) (q : NQuery) : Dev :=
  if q.sel ≠ 0 then ncasBack m d id back q else
  let ca := (d.owner q.loc id).at q.loc
  match changeStatus m d ca q true with
  | .inl st => answerQuery d id back [ofN st]
  | .inr k =>
    let r := { newReq { d with cur := q.loc } (.ld false) 0 q.parts .none with core := ca, user := q.user, regions := q.regions }
    let again (d : Dev) (dt : Nat) : Dev := d.post dt .nameTableOperation [id, back]
    if blocked d id r then again d 4 else
    let d := { d with nameQ := d.nameQ.set id { q with away := false } }
    match blockRead m d r with
    -- R142: a page that is not resident is waited for
    | .error (.absent die va page, _) => again { pageRequest d die (masterOf ca) q.loc (rootOf (ctxOf d q.loc)) va page with nameQ := d.nameQ.set id { q with away := true } } 16
    | .error (.denied a x, _) => abandonArr { freeze d ca a x 0 with nameQ := d.nameQ.erase id } id
    | .error (.wait, _) | .error (.held, _) => again d 16
    | .error (.bad k, p) => faultQuery (badRead d (masterOf ca) k) id back (ncasFault d id q 0x0D p.va)
    | .error (.badChunk _, p) => faultQuery d id back (ncasFault d id q 0x0D p.va)
    | .error (.fail c, p) => faultQuery d id back (ncasFault d id q c p.va)
    | .error (.badNode _, p) => faultQuery d id back (ncasFault d id q 0x0A p.va)
    | .ok blk =>
      let d := q.parts.foldl (fun d p => match target d r p with
        | .byte k _ => correctErr m d q.loc k
        | _ => d) d
      let old := (List.range 4).map fun i => rd64 m d (k + 16 + 8 * i)
      if blk.take 4 ≠ old then ncasBack m d id back { q with sel := 1, parts := (q.parts.zip old).map fun x => { x.1 with data := x.2 } }
      else if refusedDescriptor (nmClass q.name) old (blk.drop 4) then answerQuery d id back [3]
      else
        let d := ((blk.drop 4).zipIdx).foldl (fun d x => wr64 d (k + 16 + 8 * x.2) x.1) d
        answerQuery (startShoot m d k q.name q.loc 0x03 back false none) id back [0]
/-- R145, R206: the queries that only resolve a name follow the thread's older acquires. -/
def NKind.reads : NKind → Bool
  | .res | .rst | .qry => true
  | _ => false
/-- An operation on a name is performed, at the cache or at the entry's home. -/
def execNameTableOperation (s : State) : Out := s.event fun m d =>
  let id := d.arg 0
  let back := d.arg 1
  match d.nameQ.get? id with
  | none => d
  | some q =>
    let ca := (d.owner q.loc id).at q.loc
    if tableHeld d (dieOf ca) q.name || (q.kind.reads && acquiring d q.loc id) then d.post 16 .nameTableOperation [id, back]
    else if back = hitTime / 2 && ((cacheTile ca).bind fun t => ncFind d t q.name).isNone then
      -- R197: the cached entry has gone since: the look-up takes the time of a miss
      let (n, d) := resolveTime m d ca q.name false
      d.post (n / 2 - hitTime / 2) .nameTableOperation [id, n - n / 2]
    else
    let d := tableFix m d (dieOf ca) q.loc q.name
    match q.kind with
    | .res => match resolve m d ca q.name with
      | (.live a b c e, d) => answerQuery d id back [selWord q.sel a b c e]
      | (.never, d) => faultQuery d id back (nameFault q.pc 0x0F q.name)
      | (_, d) => faultQuery d id back (nameFault q.pc 0x0E q.name)
    | .rst => match resolve m d ca q.name with
      | (.live a b c e, d) => answerQuery d id back [selWord q.sel a b c e, 0]
      | (.gone, d) => answerQuery d id back [0, 1]
      | (.never, d) => answerQuery d id back [0, 2]
      | (.foreign, d) => answerQuery d id back [0, 3]
    | .qry =>
      if nmChip q.name ≠ Config.chipTag.toNat then answerQuery d id back [0]
      else match (lookup m d (dieOf ca) q.name).2 with
        | none => answerQuery d id back [0]
        | some k => let w (i : Nat) : D := rd64 m d (k + 8 * i)
          answerQuery d id back [if q.sel = 4 then w 6 else selWord q.sel (w 2) (w 3) (w 4) (w 5)]
    | .kil => match changeStatus m d ca q true with
      | .inl st => answerQuery d id back [ofN st]
      | .inr k => answerQuery (startShoot m d k q.name q.loc 0x04 back true none) id back [0]
    | .shd => match changeStatus m d ca q false with
      | .inl st => answerQuery d id back [ofN st]
      | .inr k => answerQuery (startShoot m d k q.name q.loc 0x06 back false none) id back [0]
    | .cas => ncasAt m d id back q
    | .new _ => d

end Sys2Proof.Machine
end

