-- ==== Sys2Proof/Machine/Sync.lean ====
section
/-! DEFINITION. Barriers, semaphores, messages between threads, named and register queues (R171 to R181). -/
namespace Sys2Proof.Machine

/-! ## Barriers (R172, R173) -/

/-- A barrier of a level at a unit. -/
def barKey (loc level idx : Nat) : Nat :=
  let ca := coreOf loc
  level * 2 ^ 20 + idx + 64 * (match level with
    | 0 => rowKeyOf ca
    | 1 => unitOf ca
    | 2 => tileDie (unitOf ca)
    | _ => 0)
def releaseTime (level : Nat) : Nat := match level with
  | 0 => 8
  | 1 => 24
  | 2 => 96
  | _ => 240
/-- R173: the scope of BARV and BARW: tile, die or package. -/
def barScope (level : Nat) : Nat := if level < 2 then 2 else level + 1
def launchOf (d : Dev) (n : Option Q) : Option Launch := d.launches.find? fun l => some l.name = n
/-- R26: the thread's launch has package co-start. -/
def costarted (d : Dev) (loc : Nat) : Bool := ((launchOf d (d.thread loc).launch).map fun l => bitN (l.words.getD 3 0) 7).getD false
/-- Statuses 1 and 6, which the core decides. -/
def barRefused (d : Dev) (loc level idx : Nat) : Option Nat :=
  if level = 0 ∧ !isCompute (coreOf loc) then some 1
  else if 2 ≤ level ∧ !costarted d loc then some 1
  else if level = 0 ∧ 3 < idx then some 6
  else none
def Dev.bar (d : Dev) (k : Nat) : Bar := d.bars.getD k .empty
/-- The cores that take part, and those all of whose threads have arrived. -/
def Bar.cores (b : Bar) : List Nat := ((b.regs ++ b.owing.map Prod.snd).map coreOf).eraseDups
def Bar.done (b : Bar) (ca : Nat) : Bool :=
  (b.regs.filter fun l => coreOf l = ca).all (fun l => b.ready.contains l) && b.owing.all fun x => coreOf x.2 != ca
/-- A phase completes when every participant has arrived; its release sets out to every participating core. -/
def barCheck (d : Dev) (k : Nat) : Dev :=
  let b := d.bar k
  if !b.regs.isEmpty && b.cores.all b.done then
    let d := { d with bars := d.bars.set k { b with arrived := [], ready := [], sent := [], phase := b.phase + 1 } }
    b.cores.foldl (fun d ca => d.postRange 1 (releaseTime (k / 2 ^ 20) - 1) .barrierRelease [k, ca, b.phase + 1]) d
  else { d with bars := d.bars.set k { b with sent := b.cores.filter b.done } }
/-- The arrivals of a thread that are not yet counted at its core: a BARV's, while an access it releases is not performed. -/
def uncounted (d : Dev) (k loc : Nat) : List (Nat × Nat) :=
  if (d.bar k).arrived.contains loc && !(d.bar k).ready.contains loc then
    (d.events.filter fun e => e.step = .barrierUnitArrival && e.args.take 2 = [k, loc] && !((d.bar k).owing.any fun x => x.1 = e.args.getD 2 0)).map fun e => (e.args.getD 2 0, loc)
  else []
/-- BDRG: a thread that has not arrived counts as arrived, and an arrival it has made still counts when what its BARV releases is
performed; the claim ends with the last registration. -/
def barLeave (d : Dev) (k loc : Nat) : Dev :=
  let b := d.bar k
  let b := { b with regs := b.regs.erase loc, arrived := b.arrived.erase loc, ready := b.ready.erase loc, latest := b.latest.erase loc, owing := b.owing ++ uncounted d k loc }
  if b.regs.isEmpty then { d with bars := d.bars.set k { b with launch := none, arrived := [], ready := [], sent := [], owing := [], phase := b.phase + 1 } }
  else barCheck { d with bars := d.bars.set k b } k
/-- Every registration of a thread is withdrawn (R104). -/
def leaveBarriers (d : Dev) (loc : Nat) : Dev := ((d.bars.filter fun b => b.2.regs.contains loc).map Prod.fst).foldl (fun d k => barLeave d k loc) d
/-- A status the core decides by itself arrives within 16 cycles. -/
def localStatus (r : BitVec 5) (st : Nat) : M Unit := fun m d =>
  let (x, d) := d.draw 16
  longG (1 + x) r (ofN st) 0 false m d
def barWord (w : D) : Nat × Nat := (fieldN w 7 6, fieldN w 5 0)
def shBar (d a : BitVec 5) (m : Bool) : Shape := { gate := .sync, srcs := [.g a m], long := [d] }
def execBreg (d a : BitVec 5) (m : Bool) (s : State) : Out := s.run (.breg d a m) (shBar d a m) (do
  let w ← gv a
  let dv ← getD
  let (level, idx) := barWord w
  let k := barKey dv.cur level idx
  let b := dv.bar k
  match barRefused dv dv.cur level idx with
  | some st => localStatus d st
  | none =>
    if !b.regs.isEmpty && b.launch != (dv.thread dv.cur).launch then longG (releaseTime level) d 3
    else if b.regs.contains dv.cur then longG (releaseTime level) d 0
    else if !b.arrived.isEmpty || !b.owing.isEmpty then lose
    else do
      modD fun dv => { dv with bars := dv.bars.set k { b with launch := (dv.thread dv.cur).launch, regs := b.regs ++ [dv.cur] } }
      longG (releaseTime level) d 0
  adv)
def execBdrg (d a : BitVec 5) (m : Bool) (s : State) : Out := s.run (.bdrg d a m) (shBar d a m) (do
  let w ← gv a
  let dv ← getD
  let (level, idx) := barWord w
  let k := barKey dv.cur level idx
  match barRefused dv dv.cur level idx with
  | some st => localStatus d st
  | none =>
    if !(dv.bar k).regs.contains dv.cur then localStatus d 2
    else do
      modD fun dv => barLeave dv k dv.cur
      longG (releaseTime level) d 0
  adv)
/-- R173: BARV is a release: its arrival counts once every earlier access of the thread is performed. -/
def execBarv (d a : BitVec 5) (m : Bool) (s : State) : Out := s.run (.barv d a m) (shBar d a m) (do
  let w ← gv a
  let dv ← getD
  let (level, idx) := barWord w
  let k := barKey dv.cur level idx
  let b := dv.bar k
  match barRefused dv dv.cur level idx with
  | some st => localStatus d st
  | none =>
    if !b.regs.contains dv.cur then localStatus d 2
    else if b.arrived.contains dv.cur then localStatus d 5
    else do
      modD fun dv =>
        let (id, dv) := dv.newId
        ({ dv with bars := dv.bars.set k { b with arrived := b.arrived ++ [dv.cur], latest := b.latest.set dv.cur b.phase } }).post 1 .barrierUnitArrival [k, dv.cur, id]
      localStatus d 0
  adv)
def execBarw (d a b : BitVec 5) (m n : Bool) (s : State) : Out := s.run (.barw d a b m n) { shBar d a m with srcs := [.g a m, .g b n] } (do
  let w ← gv a
  let lim ← gv b
  let dv ← getD
  let (level, idx) := barWord w
  let k := barKey dv.cur level idx
  let br := dv.bar k
  match barRefused dv dv.cur level idx with
  | some st => do
    localStatus d st
    adv
  | none =>
    if !br.regs.contains dv.cur then do
      localStatus d 2
      adv
    else match br.latest.get? dv.cur with
      | none => do
        localStatus d 4
        adv
      | some ph =>
        if ph < br.released.getD (coreOf dv.cur) 0 then do
          localStatus d 0
          adv
        else park (.barrier k) lim.toNat [d])
/-- A thread's arrival is counted at its core, and the core's at the unit. -/
def execBarrierUnitArrival (s : State) : Out := s.event fun _ d =>
  let k := d.arg 0
  let loc := d.arg 1
  let b := d.bar k
  let left := b.owing.any fun x => x.1 = d.arg 2
  if !left && !b.arrived.contains loc then d
  else if unreleased d (d.arg 2) loc (barScope (k / 2 ^ 20)) true then d.post 4 .barrierUnitArrival [k, loc, d.arg 2]
  else barCheck { d with bars := d.bars.set k (if left then { b with owing := b.owing.filter fun x => x.1 != d.arg 2 } else { b with ready := b.ready ++ [loc] }) } k
/-- The release of a phase reaches a core: its BARW waiters of that phase go on. -/
def execBarrierRelease (s : State) : Out := s.event fun _ d =>
  let k := d.arg 0
  let ca := d.arg 1
  let ph := d.arg 2
  let b := d.bar k
  let d := { d with bars := d.bars.set k { b with released := b.released.set ca (max ph (b.released.getD ca 0)) } }
  (b.latest.filter fun x => coreOf x.1 = ca && x.2 < ph).foldl (fun d x => if (d.thread x.1).awaits (.barrier k) then complete d x.1 0 [0] else d) d
/-- Arrivals still outstanding at the unit: cores for a row or tile, tiles above. -/
def outstanding (b : Bar) (level : Nat) : Nat :=
  let cs := b.cores.filter fun ca => !b.done ca
  if level < 2 then cs.length else (cs.map unitOf).eraseDups.length

/-! ## Semaphores (R174) -/

/-- Units go to the waiters in arrival order. -/
def semServe : Nat → Dev → Nat → Nat → Dev
  | 0, d, _, _ => d
  | n + 1, d, tile, i =>
    let t := d.tile tile
    match t.semWait.find? fun w => w.sem = i with
    | none => d
    | some w =>
      let c := t.sems.toArray.getD i 0
      if c = 0 then d
      else
        let d := d.updTile tile fun t => { t with sems := t.sems.setIfInBounds i (c - 1), semWait := t.semWait.erase w }
        semServe n (complete d w.loc 14 [ofN (c - 1)]) tile i
def shSem (d a b : BitVec 5) (m n : Bool) : Shape := { gate := .sync, srcs := [.g a m, .g b n], long := [d] }
/-- SEMP is a release at tile scope: it loses turns until earlier accesses are performed. -/
def execSemp (d a b : BitVec 5) (m n : Bool) (s : State) : Out := s.run (.semp d a b m n) (shSem d a b m n) (do
  let x ← gv a
  let y ← gv b
  let dv ← getD
  if unreleased dv dv.nextId dv.cur 2 true then lose else do
    let tile := unitOf (coreOf dv.cur)
    let i := fieldN x 4 0
    let c := (dv.tile tile).sems.toArray.getD i 0 + fieldN y 31 0
    longG 14 d (flag (2 ^ 32 ≤ c))
    modD fun dv => semServe (dv.tile tile).semWait.length (dv.updTile tile fun t => { t with sems := t.sems.setIfInBounds i (min c (2 ^ 32 - 1)) }) tile i
    adv)
def execSemw (d a b : BitVec 5) (m n : Bool) (s : State) : Out := s.run (.semw d a b m n) (shSem d a b m n) (do
  let x ← gv a
  let lim ← gv b
  let dv ← getD
  let tile := unitOf (coreOf dv.cur)
  let i := fieldN x 4 0
  let c := (dv.tile tile).sems.toArray.getD i 0
  if c = 0 then do
    modD fun dv => dv.updTile tile fun t => { t with semWait := t.semWait ++ [⟨i, dv.cur⟩] }
    park (.semaphore i) lim.toNat [d]
  else do
    modD fun dv => dv.updTile tile fun t => { t with sems := t.sems.setIfInBounds i (c - 1) }
    longG 14 d (ofN (c - 1))
    adv)

/-! ## SEND (R175 to R177, R359) -/

/-- R359: the time from a core to a core. -/
def messageTime (src dst : Nat) : Nat × Nat :=
  if src = dst then (8, 0)
  else if kindOf src ≠ 2 ∧ kindOf dst ≠ 2 ∧ unitOf src = unitOf dst then (14, 0)
  else if dieOf src = dieOf dst then (40, 80)
  else (220, 100)
/-- R170: the smallest scope that holds two cores. -/
def scopeOf (src dst : Nat) : Nat :=
  if src = dst then 1 else if kindOf src ≠ 2 ∧ kindOf dst ≠ 2 ∧ unitOf src = unitOf dst then 2 else if dieOf src = dieOf dst then 3 else 4
/-- R359, R299: the time of a message in a range. In a deterministic launch the flume's schedule adds up to 256 cycles between tiles; it
is fixed, so the time depends on the tiles and the place in the schedule alone (log 116). -/
def flumeTime (d : Dev) (src dst lo ex : Nat) : Nat × Dev :=
  if (d.row (rowKeyOf src)).det && unitOf src ≠ unitOf dst then
    (lo + Config.freeNat (2 ^ 100 + (unitOf src * 256 + unitOf dst) * 256 + d.cycle % 256) % (ex + 257), d)
  else
    let (x, d) := d.draw (ex + 1)
    (lo + x, d)
/-- The core a THRD name names now, as far as its table entry tells. -/
def threadCore (m : Mem) (d : Dev) (ca : Nat) (n : Q) : Option Nat := match (lookup m d (dieOf ca) n).2 with
  | some k => let b := rd64 m d (k + 32)
    if bitN b 63 || bitN b 62 then none else some (coreOf (fieldN b 18 0))
  | none => none
/-- R179: header word 0 of the queue a name is bound to, as the table entry gives it. -/
def queuePart (m : Mem) (d : Dev) (loc ca : Nat) (n : Q) : Option Part := ((lookup m d (dieOf ca) n).2).bind fun k =>
  let va := rd64 m d (k + 32)
  match firstStage m d (rootOf (ctxOf d loc)) va.toNat 0 (!(d.thread loc).priv) with
  | .leaf p w l => some ⟨va, 8, 0, 0, some p, leafSize l, w⟩
  | _ => none
/-- R359, R159: the latency of an atomic at the queue's home. -/
def queueTime (m : Mem) (d : Dev) (loc ca : Nat) (n : Q) : Nat × Dev := match queuePart m d loc ca n with
  | some p => partLatency d ca p
  | none => let (x, d) := d.draw 81
    (180 + x, d)
/-- R170: the smallest scope that holds a core and a queue's home. -/
def queueScope (m : Mem) (d : Dev) (loc ca : Nat) (n : Q) : Nat := match queuePart m d loc ca n with
  | some p => match p.place with
    | some w => if plTier w = 3 || plDie w (p.va.toNat % p.page) ≠ dieOf ca then 4 else 3
    | none => 4
  | none => 4
def quad4 (b : BitVec 5) : M (List D) := do
  let w0 ← gv b
  let w1 ← gv (b + 1)
  let w2 ← gv (b + 2)
  let w3 ← gv (b + 3)
  pure [w0, w1, w2, w3]
def execSend (d a b : BitVec 5) (m n : Bool) (s : State) : Out :=
  s.run (.send d a b m n) { srcs := [.g a m, .g (pairOf a) m, .g b n, .g (b + 1) n, .g (b + 2) n, .g (b + 3) n, .g d false] } (do
    let tgt ← gpair a
    let ws ← quad4 b
    let lim ← gv d
    let cls := nmClass tgt
    if cls ≠ 0 ∧ cls ≠ 4 ∧ cls ≠ 5 then trap 0x10 (loHalf tgt) (hiHalf tgt)
    else do
      if cls ≠ 0 then checkForeign tgt else pure ()
      let ca ← myCore
      let dv ← getD
      -- the time to the target, and the scope
      let (time, sc, res) ← (fun m _ =>
        let (t, dv) := if cls = 0 then (0, dv) else resolveTime m dv ca tgt true
        if cls = 5 then
          let (x, dv) := queueTime m dv dv.cur ca tgt
          .ok ((t + x, queueScope m dv dv.cur ca tgt, t), dv)
        else
          let dst := if cls = 4 then threadCore m dv ca tgt else some (tgt.toNat % 2 ^ 15)
          let (lo, ex) := (dst.map (messageTime ca)).getD (180, 200)
          let (x, dv) := flumeTime dv ca (dst.getD ca) lo ex
          .ok ((t + x, (dst.map (scopeOf ca)).getD 4, t), dv) : M (Nat × Nat × Nat))
      -- the last word of the entry's message: the time its name takes to resolve
      journalMsg .send tgt (ws ++ [0, ofN res]) sc time 0 lim.toNat
      adv)
/-- The entry a message step is about: still there, not placed, not refused. -/
def msgEntry (d : Dev) (ca ent id : Nat) : Option JEntry := match (d.core ca).journal.get? ent with
  | some e => if e.req = id ∧ !e.placed ∧ e.refused.isNone then some e else none
  | none => none
/-- A message that names no living thread clears its entry and comes back as a GONE notice (R177). -/
def undelivered (d : Dev) (ca ent back : Nat) (e : JEntry) (why : Nat) (stage : Nat := 0) : Dev :=
  if outFull d (goneMsg d e.loc (e.addrHi ++ e.addr) why e.data) then d.post 16 .messagePlacement ([ca, ent, e.req, back] ++ (if stage = 0 then [] else [stage]))
  else placedEntry (goneNotice (unspill d stage ca ent e.req) e.loc (e.addrHi ++ e.addr) why e.data) ca ent back
/-- R175: a SEND reaches its target. The sender a thread away from its slot gives is its origin slot (log 134). -/
def placeSend (m : Mem) (d : Dev) (ca ent back stage : Nat) (e : JEntry) : Dev :=
  let again (d : Dev) : Dev := d.post 16 .messagePlacement ([ca, ent, e.req, back] ++ (if stage = 0 then [] else [stage]))
  let tgt : Q := e.addrHi ++ e.addr
  let put (d : Dev) (loc : Nat) : Dev :=
    let x : Msg := ⟨e.msg.take 4, 0, slotOf loc, e.loc, none⟩
    arriveMsg d ca ent (coreOf loc) back stage e x (inboxOpen (d.core (coreOf loc))) fun d => placeMsg d (coreOf loc) x
  if nmClass tgt ≠ 0 ∧ tableHeld d (dieOf ca) tgt then again d
  else if stage = 0 && unreleased d e.req e.loc e.order !e.again then d.post 4 .messagePlacement [ca, ent, e.req, back]
  else if nmClass tgt = 0 then put d (tgt.toNat % 2 ^ 15 * 16)
  else if nmClass tgt = 5 then d.post 0 .queueAppend [ca, ent, back]
  else match resolve m d ca tgt with
    | (.live _ _ b _, d) =>
      let loc := fieldN b 18 0
      if !(bitN b 63 || bitN b 62) && (d.thread loc).live && (d.thread loc).name = tgt then put d loc else undelivered d ca ent back e 1 stage
    | (.never, d) => undelivered d ca ent back e 2 stage
    | (_, d) => undelivered d ca ent back e 1 stage
/-! ## RECV and named queues (R178, R179) -/

/-- A queue's header where it stands, or the reason it is refused with; none while its page is not there yet. -/
structure Header where
  key : Nat
  ring : D
  cap : Nat
  head : Nat
  tail : Nat
deriving DecidableEq, Repr
def keyOfVa (m : Mem) (d : Dev) (loc : Nat) (va : D) (wr : Bool) : Except (Option Nat) Nat :=
  if winCode va ≠ 0 then .error (some 2)
  else if walkHeld m d (rootOf (ctxOf d loc)) va.toNat then .error none
  else match firstStage m d (rootOf (ctxOf d loc)) va.toNat (if wr then 1 else 0) (!(d.thread loc).priv) with
  | .refused c _ => .error (some c)
  | .leaf p w l =>
    let part : Part := ⟨va, 8, 0, 0, some p, leafSize l, w⟩
    match target d { newReq { d with cur := loc } (if wr then .st else .ld false) 0 [part] .none with user := !(d.thread loc).priv } part with
    | .byte k _ => if uncorrectable m d k then .error (some 0x0D) else .ok k
    | .wait | .nonresident _ => .error none
    | .refused r => .error (some r)
    | .linkDown => .error (some 0x0B)
    | _ => .error (some 0x09)
/-- R179: a page of the second tier or of host memory holds neither header nor ring. -/
def badQueuePage (m : Mem) (d : Dev) (loc : Nat) (va : D) : Bool := match firstStage m d (rootOf (ctxOf d loc)) va.toNat 0 (!(d.thread loc).priv) with
  | .leaf p _ _ => plTier p = 1 || plTier p = 3
  | _ => false
def readHeader (m : Mem) (d : Dev) (loc : Nat) (va : D) : Except (Option Nat) Header :=
  match keyOfVa m d loc va false with
  | .error e => .error e
  | .ok k =>
    let w (i : Nat) : D := rd64 m d (k + 8 * i)
    let cap := (w 1).toNat
    if (w 0).toNat % 64 ≠ 0 ∨ winCode (w 0) ≠ 0 ∨ 2 ^ 20 < cap ∨ cap < 2 ∨ 2 ^ Nat.log2 cap ≠ cap ∨ ((List.range 4).any fun i => w (4 + i) ≠ 0) ∨ badQueuePage m d loc va ∨ badQueuePage m d loc (w 0) then .error (some 2)
    else .ok ⟨k, w 0, cap, (w 2).toNat, (w 3).toNat⟩
/-- R175: word 4 of an inbox entry. -/
def entryHeader (kind slot sender : Nat) : D := ofN (kind * 2 ^ 60 + slot * 2 ^ 56 + sender % 2 ^ 19 * 2 ^ 34)
/-- R179: the next SEND that waits at the home of a named queue is served. -/
def nextSend (m : Mem) (d : Dev) (q : Nat) : Dev := match d.sendQ.find? fun y => y.1 = q with
  | some y =>
    let (x, d) := queueTime m d (((d.core y.2.1).journal.get? y.2.2).elim 0 fun e => e.loc) y.2.1 (BitVec.ofNat 128 q)
    d.post 0 .queueAppend [y.2.1, y.2.2, x]
  | none => d
/-- A SEND leaves those that wait at a named queue. -/
def leaveSend (m : Mem) (d : Dev) (ca ent : Nat) : Dev := match d.sendQ.find? fun x => x.2 = (ca, ent) with
  | some x => nextSend m { d with sendQ := d.sendQ.filter fun y => y.2 != (ca, ent) } x.1
  | none => d
/-- R176: the limit passes before the message is placed. -/
def execInboxFull (s : State) : Out := s.event fun m d =>
  match msgEntry d (d.arg 0) (d.arg 1) (d.arg 2) with
  | some _ => refuseEntry (leaveSend m d (d.arg 0) (d.arg 1)) (d.arg 0) (d.arg 1) 0x17
  | none => d
/-- A SEND stands at the home of a named queue, in arrival order: the first is appended at TAIL once an entry is free, and with it the
next SEND and the first waiting RECV are served. -/
def execQueueAppend (s : State) : Out := s.event fun m d =>
  let ca := d.arg 0
  let ent := d.arg 1
  let back := d.arg 2
  match (d.core ca).journal.get? ent with
  | none => leaveSend m d ca ent
  | some e =>
    if e.placed || e.refused.isSome then leaveSend m d ca ent else
    let tgt : Q := e.addrHi ++ e.addr
    let again (d : Dev) : Dev := d.post 16 .queueAppend [ca, ent, back]
    if d.arg 3 = 1 then undelivered (leaveSend m d ca ent) ca ent back e 1
    else if tableHeld d (dieOf ca) tgt then again d
    else match resolve m d ca tgt with
    | (.never, d) => undelivered (leaveSend m d ca ent) ca ent back e 2
    | (.gone, d) | (.foreign, d) => undelivered (leaveSend m d ca ent) ca ent back e 1
    | (.live _ _ base _, d) =>
      let d := if d.sendQ.any fun x => x.2 = (ca, ent) then d else { d with sendQ := d.sendQ ++ [(tgt.toNat, ca, ent)] }
      if (d.sendQ.find? fun x => x.1 = tgt.toNat).map Prod.snd ≠ some (ca, ent) then d
      else match readHeader m d e.loc base with
      | .error none => again d
      | .error (some r) => refuseEntry (leaveSend m d ca ent) ca ent r
      | .ok h =>
        if h.tail - h.head < h.cap then
          match keyOfVa m d e.loc (h.ring + ofN (64 * (h.tail % h.cap))) true with
          | .error none => again d
          | .error (some r) => refuseEntry (leaveSend m d ca ent) ca ent r
          | .ok k =>
            let d := ((e.msg.take 4 ++ [entryHeader 0 0 e.loc, 0, 0, 0]).zipIdx).foldl (fun d x => writeBytes m d e.loc (k + 8 * x.2) 8 x.1.toNat) d
            let d := writeBytes m d e.loc (h.key + 24) 8 (h.tail + 1)
            placedEntry (leaveSend m (nextRecv d tgt.toNat) ca ent) ca ent back
        else d
/-- A parked RECV ends with a deferred-exact fault: its registers are EMPTY behind it. -/
def failRecv (d : Dev) (loc cause : Nat) (tval : D) (reason : Nat) : Dev :=
  let t := d.thread loc
  failArr (endWait d loc) t.waitId 0 ⟨t.pc, cause, tval, reason, false⟩
/-- R150: the fault of a RECV whose queue cannot be read; TVAL names its first destination. -/
def badRecv (d : Dev) (loc : Nat) (va : D) (reason : Nat) : Dev :=
  let dst : Dst := (((d.thread loc).held.head?).map fun x => Dst.g x.1).getD .none
  failRecv d loc (if reason = 0x0D then 0x0D else 0x0C) (faultTval { newReq d (.ld false) 0 [] dst with loc := loc } va) reason
/-- A RECV stands at the home of its queue, in arrival order: the first takes the entry at HEAD once there is one, and with it the
next RECV and the first waiting SEND are served. -/
def execQueueDequeue (s : State) : Out := s.event fun m d =>
  let loc := d.arg 0
  match (d.thread loc).wait with
  | .namedQueue id name =>
    if !(d.thread loc).parks || (d.arg 1 ≠ 0 && d.arg 1 ≠ id) then d else
    let ca := (d.thread loc).at loc
    if nmClass name ≠ 5 then failRecv (leaveRecv d loc) loc 0x10 (loHalf name) 0x10
    else if d.arg 2 = 1 then failRecv (leaveRecv d loc) loc 0x0E (loHalf name) 0x0E
    else if tableHeld d (dieOf ca) name then d.post 16 .queueDequeue [loc, id]
    else match resolve m d ca name with
    | (.foreign, d) => failRecv (leaveRecv d loc) loc 0x20 (loHalf name) 0x20
    | (.never, d) => failRecv (leaveRecv d loc) loc 0x0F (loHalf name) 0x0F
    | (.gone, d) => failRecv (leaveRecv d loc) loc 0x0E (loHalf name) 0x0E
    | (.live _ _ base _, d) =>
      let d := if d.recvQ.any fun x => x.2 = loc then d else { d with recvQ := d.recvQ ++ [(name.toNat, loc)] }
      if (d.recvQ.find? fun x => x.1 = name.toNat).map Prod.snd ≠ some loc then d
      else match readHeader m d loc base with
      | .error none => d.post 16 .queueDequeue [loc, id]
      | .error (some r) => badRecv (leaveRecv d loc) loc base r
      | .ok h =>
        if h.head < h.tail then
          match keyOfVa m d loc (h.ring + ofN (64 * (h.head % h.cap))) true with
          | .error none => d.post 16 .queueDequeue [loc, id]
          | .error (some r) => badRecv (leaveRecv d loc) loc h.ring r
          | .ok k =>
            let hd := rd64 m d (k + 32)
            let d := leaveRecv (writeBytes m d loc (h.key + 16) 8 (h.head + 1)) loc
            let (x, d) := queueTime m d loc ca name
            let d := d.updThread loc fun t => { t with lsnd := fieldN hd 52 34, lkind := fieldN hd 63 60 }
            nextSend m (complete d loc (x - x / 2) ((List.range 4).map fun i => rd64 m d (k + 8 * i))) name.toNat
        else d
  | _ => d
def execRecv (d a b : BitVec 5) (m n : Bool) (s : State) : Out :=
  s.run (.recv d a b m n) { srcs := (if a = 0 then [] else [.g a m, .g (pairOf a) m]) ++ [.g b n], long := [d, d + 1, d + 2, d + 3] } (do
    let name ← if a = 0 then pure 0 else gpair a
    let lim ← gv b
    let dv ← getD
    if a = 0 then
      match takeMsg dv dv.cur with
      | some (x, dv') => do
        modD fun _ =>
          let (y, dv) := (dv'.updThread dv'.cur fun t => t.dequeued x).draw 16
          sendArr dv dv.cur (1 + y) ((List.range 4).map fun i => (.g (d + BitVec.ofNat 5 i), (x.data.getD i 0).setWidth 6400)) 0
        adv
      | none => park .inbox lim.toNat [d, d + 1, d + 2, d + 3]
    else do
      checkClass name
      let time ← (fun m _ =>
        let ca := (dv.thread dv.cur).at dv.cur
        let (t, dv) := resolveTime m dv ca name true
        let (x, dv) := queueTime m dv dv.cur ca name
        .ok (t + x / 2, dv) : M Nat)
      modD fun dv =>
        let (id, dv) := dv.newId
        (parkFor dv dv.cur (.namedQueue id name) lim.toNat [d, d + 1, d + 2, d + 3] .waitExpired).post time .queueDequeue [dv.cur, id])

/-! ## Register queues (R180, R181) -/

def execQcfg (d a : BitVec 5) (m : Bool) (s : State) : Out := s.run (.qcfg d a m) { gate := .sync, srcs := [.g a m], dst := some d } (do
  let x ← gv a
  let t ← me
  wg d (flag t.qm)
  modMe fun t => { t with qm := bitN x 0 }.touch 1
  adv)
def execQwt (a b : BitVec 5) (m n : Bool) (s : State) : Out := s.run (.qwt a b m n) { gate := .sync, srcs := [.g a m, .g b n] } (do
  let x ← gv a
  let lim ← gv b
  let dv ← getD
  let q := fieldN x 1 0
  if ((dv.core (coreOf dv.cur)).queues.toArray.getD q []).isEmpty then park (.queue q) lim.toNat [] .queueExpired else adv)
/-- A parked thread's limit passes, unless its event came first. Limits do not run while it is HALTED, or stopped for a
pre-emption (R310); a slot of a frozen core takes its trap when the core is unfrozen (R156). -/
def expires (d : Dev) (loc due : Nat) : Bool := (d.thread loc).st = .parked && (d.thread loc).limit = some due && (d.thread loc).stopped.isNone
def execQueueExpired (s : State) : Out := s.event fun _ d =>
  let loc := d.arg 0
  let t := d.thread loc
  if !expires d loc (d.arg 1) then d
  else if (d.core (coreOf loc)).frozen then d.post 16 .queueExpired d.args
  else match t.wait with
    | .queue q =>
      let c := d.core (coreOf loc)
      trapQuad (takeTrap d loc 0x16 0 (ofN q) (ofN (c.qhead.toArray.getD q 0 + 256 * c.qtail.toArray.getD q 0)) t.pc) loc
    | _ => d
/-- TVAL and TAUX of WAIT_EXPIRED for what the thread waits for. -/
def expiry (m : Mem) (d : Dev) (loc : Nat) : D × D := match (d.thread loc).wait with
  | .reservation => match d.resvs.find? fun r => r.loc = loc with
    | some r => (r.va, ofN (rdN m d r.key r.size))
    | none => (0, 0)
  | .barrier k => (ofN (k / 2 ^ 20 * 64 + k % 64), ofN (outstanding (d.bar k) (k / 2 ^ 20)))
  | .semaphore i => (ofN i, 0)
  | .inbox => (0, insOf d loc)
  | .namedQueue _ n => (loHalf n, 0)
  | .launch n => (loHalf n, 0)
  | .batch t id => (ofN t, ofN ((((d.tile (unitOf (coreOf loc))).array.batches.get? id).map fun b => b.left).getD 0))
  | .queue q => (ofN q, 0)
  | .context => (0, 0)
/-- A batch has completed: the thread is about to leave PARKED (R261). -/
def batchOver (d : Dev) (loc : Nat) : Bool := match (d.thread loc).wait with
  | .batch _ id => (((d.tile (unitOf (coreOf loc))).array.batches.get? id).map fun b => decide (b.left = 0)).getD true
  | _ => false
def execWaitExpired (s : State) : Out := s.event fun m d =>
  let loc := d.arg 0
  if !expires d loc (d.arg 1) || batchOver d loc then d
  else if (d.core (coreOf loc)).frozen then d.post 16 .waitExpired d.args
  else
    let (v, a) := expiry m d loc
    trapQuad (takeTrap d loc 0x15 0 v a (d.thread loc).pc) loc

end Sys2Proof.Machine
end

