-- ==== Sys2Proof/Machine/Matrix.lean ====
section
/-! DEFINITION. The matrix array (R74 to R78, R241 to R261): formats, streams, the lease, the command queue, batches. -/
namespace Sys2Proof.Machine

/-! ## Formats and elements (R241 to R246) -/

/-- R241: cell bytes, significand planes, planes stored; none for a refused code. -/
def mxFormat (c : Nat) : Option (Nat × Nat × Nat) := match c with
  | 0 => some (1, 2, 5)
  | 1 => some (1, 4, 9)
  | 2 => some (1, 3, 9)
  | 3 => some (1, 4, 4)
  | 4 => some (1, 8, 8)
  | 5 => some (2, 8, 17)
  | 6 => some (2, 11, 17)
  | _ => none
def mxCell (c : Nat) : Nat := ((mxFormat c).map fun f => f.1).getD 1
def mxSig (c : Nat) : Nat := ((mxFormat c).map fun f => f.2.1).getD 1
def mxPlanes (c : Nat) : Nat := ((mxFormat c).map fun f => f.2.2).getD 0
def mxInt (c : Nat) : Bool := c = 3 || c = 4
/-- Formats that carry scales. -/
def mxScaled (c : Nat) : Bool := c = 1 || c = 2
def mxFmt (c : Nat) : Fp.Fmt := match c with
  | 0 => Fp.e2m1
  | 1 => Fp.e4m3
  | 2 => Fp.e5m2
  | 5 => Fp.bf16
  | _ => Fp.f16
/-- The rows of R242. -/
def mxRow (c : Nat) : Nat := match c with
  | 0 => 0
  | 1 | 2 => 1
  | 3 | 4 => 2
  | 5 => 3
  | 6 => 4
  | _ => 5
def intVal (w : Nat) (uns : Bool) (x : Nat) : Fp.Val := let i : Int := if uns then x else sLane w x
  .fin (decide (i < 0)) i.natAbs 0
/-- The value of a weight cell. -/
def weightVal (c : Nat) (uns : Bool) (x : Nat) : Fp.Val := match c with
  | 3 => intVal 4 uns (x % 16)
  | 4 => intVal 8 uns (x % 256)
  | 0 => Fp.e2m1.decode (x % 16)
  | _ => (mxFmt c).decode x
/-- R243, R244: element `k` of an activation row, whose planes are 512 bits each. -/
def actVal (c : Nat) (uns : Bool) (planes row k : Nat) : Fp.Val :=
  let bit (p : Nat) : Nat := row / 2 ^ (512 * p + k) % 2
  if mxInt c then
    let n := if planes = 0 then mxSig c else planes
    intVal n uns ((List.range n).foldl (fun a p => a + bit p * 2 ^ p) 0)
  else
    let f := mxFmt c
    let s := bit 0 == 1
    let e := (List.range f.ew).foldl (fun a i => 2 * a + bit (1 + i)) 0
    let g := (List.range (f.mw + 1)).foldl (fun a i => 2 * a + bit (1 + f.ew + i)) 0
    let fr := g % 2 ^ f.mw
    let fin := Fp.Val.fin s g ((max e 1 : Nat) - (f.bias : Int) - f.mw)
    match f.kind with
    | .ieee => if e = 2 ^ f.ew - 1 then (if fr = 0 then .inf s else .nan false) else fin
    | .e4m3 => if e = 15 ∧ fr = 7 then .nan false else fin
    | .e2m1 => fin

/-! ## Segments and promotion (R74 to R78) -/

/-- The partial of a segment. `mw` is the sum of the formats' fraction bits: a product's exponent is that of its significand's last
bit plus `mw`, for subnormals too. -/
def segPartial (int : Bool) (mw : Nat) (ps : List (Fp.Val × Fp.Val)) : Fp.Val :=
  if ps.any fun p => p.1.isNaN || p.2.isNaN || (match p.1, p.2 with
      | .inf _, y => y.isZero
      | x, .inf _ => x.isZero
      | _, _ => false) then .nan false
  else
    let infs := ps.filterMap fun p => match p.1, p.2 with
      | .inf s, y => some (s != y.sign)
      | x, .inf t => some (x.sign != t)
      | _, _ => none
    if infs.contains true && infs.contains false then .nan false
    else match infs.head? with
      | some s => .inf s
      | none =>
        let prods := ps.filterMap fun p => match p.1, p.2 with
          | .fin s m e, .fin t n f => if m * n = 0 then none else some (s != t, m * n, e + f)
          | _, _ => none
        match prods.map fun x => x.2.2 with
        | [] => .fin false 0 0
        | e :: es =>
          let lsb : Int := if int then 0 else es.foldl max e + mw - 111
          let sum : Int := prods.foldl (fun a x => a + Fp.sig x.1 (Fp.shl x.2.1 (x.2.2 - lsb))) 0
          .fin (decide (sum < 0)) sum.natAbs lsb
/-- The exact product of two values. -/
def mulVal (x y : Fp.Val) : Fp.Val := match x, y with
  | .nan _, _ | _, .nan _ => .nan false
  | .inf s, y => if y.isZero then .nan false else .inf (s != y.sign)
  | x, .inf t => if x.isZero then .nan false else .inf (x.sign != t)
  | .fin s m e, .fin t n f => .fin (s != t) (m * n) (e + f)
/-- Promotion into an element of a bank of format `bf`: the new element and the bank's MFLG bits. -/
def promote (bf acc : Nat) (part sa sb : Fp.Val) : Nat × Nat :=
  if bf = 2 then match part with
    | .fin s m _ => ((((acc : Int) + Fp.sig s m) % 2 ^ 64).toNat, 0)
    | _ => (acc, 0)
  else
    let f := if bf = 0 then Fp.f32 else Fp.f64
    let old := f.decode acc
    let (x, fl) := if sa.isNaN || sb.isNaN then (f.nan, (0 : Fp.Flags)) else Fp.add f .rne 0 old (mulVal (mulVal part sa) sb)
    (x, if (f.decode x).isNaN then (if old.isNaN then 0 else 8)
      else 4 * b2n (fl &&& Fp.OF != 0) + 2 * b2n (fl &&& Fp.UF != 0) + b2n (fl &&& Fp.NX != 0))

/-! ## Registers (R247) -/

def idxOfLoc (loc : Nat) : Nat := idxOf (coreOf loc)
def Dev.array (d : Dev) (tile : Nat) : MArray := (d.tile tile).array
def Dev.updArray (d : Dev) (tile : Nat) (f : MArray → MArray) : Dev := d.updTile tile fun t => { t with array := f t.array }
/-- R249, R250: the thread of a slot as the array knows it: one that is lent the slot is not the FAULTED thread behind it. -/
def lessee (d : Dev) (loc : Nat) : Nat := loc + if (d.lentOut.get? loc).isSome then 2 ^ 20 else 0
/-- Waiters in MXL whose limit has not passed. -/
def MArray.waiting (a : MArray) (cycle : Nat) : List (Nat × Nat) := a.waiters.filter fun w => cycle < w.2
def mstOf (d : Dev) (tile : Nat) : D :=
  let a := d.array tile
  let h := match a.holder with
    | some l => 2 ^ 31 + idxOfLoc l * 2 ^ 25 + slotOf l * 2 ^ 21 + a.remc * 2 ^ 15
    | none => 0
  let w := match a.block with
    | some b => 2 ^ 9 + b.fmt * 2 ^ 5
    | none => 0
  ofN ((a.waiting d.cycle).length % 1024 * 2 ^ 32 + h + a.queue.length * 2 ^ 10 + w)
/-- Writable bits of registers 0 to 7. -/
def mxMask (r : Nat) : D := match r with
  | 2 => 0x3FFFFF
  | 5 => 0x7FFFF0
  | 7 => 0xFFFFFFFFFFC
  | _ => 0x1FFFFFF
def MArray.bank (a : MArray) (q r c : Nat) : D := a.banks.getD (q * 8192 + r * 256 + c) 0
def MArray.setBank (a : MArray) (q r c : Nat) (x : D) : MArray :=
  let k := q * 8192 + r * 256 + c
  { a with banks := if x = 0 then a.banks.erase k else a.banks.set k x }
/-- The batch that ends a bank's busy state: of those that name it an open one, the latest to name it, else the one closed last,
since batches complete in the order they were closed (R258, R259, log 64). -/
def MArray.busyBy (a : MArray) (q : Nat) : Option (Nat × MBatch) :=
  let l := a.batches.filter fun b => b.2.busy / 2 ^ q % 2 = 1
  let os := l.filter fun b => !b.2.closed
  ((os.find? fun b => a.namer.get? q = some b.1).or os.getLast?).or
    (l.foldl (fun (r : Option (Nat × MBatch)) b => match r with
      | some x => if x.2.order ≤ b.2.order then some b else some x
      | none => some b) none)
def MBatch.aux (b : MBatch) : D := if !b.closed then 0x100 else match b.tag with
  | some t => ofN t
  | none => 0x200

/-! ## The lease (R249, R250) -/

/-- A run of 32 commands or 16,384 cycles begins. -/
def newRun (d : Dev) (tile : Nat) : Dev :=
  let n := (d.array tile).run + 1
  (d.updArray tile fun a => { a with remc := 32, run := n }).post 16384 .leaseRunEnd [tile, n]
def grantLease (d : Dev) (tile loc : Nat) : Dev :=
  newRun (d.updArray tile fun a => { a with holder := some (lessee d loc), waiters := a.waiters.filter fun w => w.1 != loc }) tile
/-- Round robin from the core after `after`, slots ascending. -/
def nextWaiter (ws : List (Nat × Nat)) (after : Nat) : Option Nat :=
  let rank (l : Nat) : Nat := (idxOfLoc l + 51 - (after + 1) % 51) % 51 * 16 + slotOf l
  (ws.foldl (fun (b : Option Nat) w => match b with
    | some l => if rank w.1 < rank l then some w.1 else b
    | none => some w.1) none)
/-- A run ends: the lease passes to a waiter, or a new run begins. -/
def endRun (d : Dev) (tile : Nat) : Dev :=
  let a := d.array tile
  match a.holder with
  | none => d
  | some h => match nextWaiter (a.waiting d.cycle) (idxOfLoc h) with
    | some l => grantLease d tile l
    | none => newRun d tile
/-- The lessee gives the lease up. -/
def dropLease (d : Dev) (tile who : Nat) : Dev :=
  if (d.array tile).holder = some who then
    match nextWaiter ((d.array tile).waiting d.cycle) (idxOfLoc who) with
    | some l => grantLease d tile l
    | none => d.updArray tile fun a => { a with holder := none, remc := 0, run := a.run + 1 }
  else d
def execLeaseRunEnd (s : State) : Out := s.event fun _ d =>
  if (d.array (d.arg 0)).run = d.arg 1 then endRun d (d.arg 0) else d

/-! ## Batches (R258) -/

def MBatch.new (loc : Nat) (name : Q) : MBatch :=
  { loc := loc, thread := name, closed := false, order := 0, tag := none, cmds := 0, left := 0, refused := 0, first := none, busy := 0, wrote := 0, post := false, cookie := 0 }
def MArray.updBatch (a : MArray) (b : Nat) (f : MBatch → MBatch) : MArray := match a.batches.get? b with
  | some x => { a with batches := a.batches.set b (f x) }
  | none => a
/-- A closed batch with no command left completes. -/
def tryComplete (d : Dev) (tile b : Nat) : Dev := match (d.array tile).batches.get? b with
  | some x => if x.closed && x.left = 0 then d.post 0 .batchCompletion [tile, b, 0] else d
  | none => d
/-- R250: a lessee's open batch is closed anonymously. -/
def closeAnonymous (d : Dev) (tile who : Nat) : Dev := match (d.array tile).opened.get? who with
  | none => d
  | some b =>
    let d := d.updArray tile fun a =>
      let a := a.updBatch b fun x => { x with closed := true, order := d.nextId }
      { a with opened := a.opened.erase who }
    tryComplete d tile b
/-- A lessee gives up the lease and its open batch. -/
def leaveArray (d : Dev) (tile who : Nat) : Dev := dropLease (closeAnonymous d tile who) tile who
/-- R250: TEND and pre-emption give up the lease, the wait for it, and the open batch. -/
def releaseArray (d : Dev) (loc : Nat) : Dev :=
  let tile := unitOf (coreOf loc)
  if kindOf (coreOf loc) = 2 then d
  else leaveArray (d.updArray tile fun a => { a with waiters := a.waiters.filter fun w => w.1 != loc }) tile (lessee d loc)
/-- MFLG bits of a mask of banks. -/
def bankFlags (mask : Nat) : Nat := (List.range 16).foldl (fun a q => a + mask / 2 ^ q % 2 * 15 * 16 ^ q) 0
/-- The COMPLETION message of a batch. -/
def batchMessage (b : MBatch) (flags : Nat) : List D :=
  [ofN (b.tag.getD 0 + 3 * 256 + min b.cmds 255 * 65536 + min b.refused 255 * 2 ^ 24 + ((b.first.map Prod.fst).getD 0) * 2 ^ 32 + min ((b.first.map Prod.snd).getD 0) 255 * 2 ^ 40),
   ofN flags, b.cookie, ofN b.wrote]
/-! ## Operand ranges and checks (R253) -/

/-- A range: TILE offset, bytes, and its need: 0 read in PLANE, 1 read, 2 write. -/
abbrev MRange := Nat × Nat × Nat
def MCmd.f (c : MCmd) (r hi lo : Nat) : Nat := fieldN (c.regs.toArray.getD r 0) hi lo
def MCmd.off (c : MCmd) (r : Nat) : Nat := c.f r 24 0
/-- MXRD's element size. -/
def MArray.elemSize (a : MArray) (q : Nat) : Nat := if a.bfmt.toArray.getD q 0 = 0 then 4 else 8
def mxRanges (a : MArray) (c : MCmd) : List MRange := match c.cmd with
  | 2 =>
    let w := c.f 2 21 18
    (List.range (c.f 2 16 9 + 1)).map (fun i => (c.off 0 + 512 * i, (c.f 2 8 0 + 1) * mxCell w, 0)) ++ (if mxScaled w then [(c.off 1, 32, 1)] else [])
  | 3 | 4 =>
    let f := c.f 5 22 19
    let m := c.f 5 8 4 + 1
    (if (mxFormat f).isSome then [(c.off 3, m * mxPlanes f * 64, 0)] else []) ++ (if mxScaled f then [(c.off 4, 16 * m, 1)] else [])
  | 8 =>
    let z := a.elemSize c.bank
    (List.range (c.f 7 6 2 + 1)).map fun r => (c.off 6 + r * c.f 7 43 28, (c.f 7 19 12 + 1) * z, 2)
  | _ => []
/-- The attribute of a chunk under the region table at acceptance. -/
def MCmd.attr (c : MCmd) (chunk : Nat) : Nat := regionAttr { Tile.reset with rga := c.rga, rgb := c.rgb } (chunk * 4096)
def rangeAttrs (c : MCmd) (r : MRange) : List Nat :=
  (List.range ((r.1 + r.2.1 - 1) / 4096 + 1 - r.1 / 4096)).map fun i => c.attr (r.1 / 4096 + i)
/-- R134: every granule of 64 bytes lies in a pair that grants it. -/
def rangeAllowed (c : MCmd) (tile : Nat) (r : MRange) : Bool :=
  (List.range ((r.1 + r.2.1 - 1) / 64 + 1 - r.1 / 64)).all fun i =>
    let lo := max r.1 ((r.1 / 64 + i) * 64)
    let hi := min (r.1 + r.2.1) ((r.1 / 64 + i + 1) * 64)
    (List.range 8).any fun k => pairPasses (c.lpb.toArray.getD k 0) (c.lpl.toArray.getD k 0) (dieOff (tile, lo)) (hi - lo) (if r.2.2 = 2 then 1 else 0)
def rangeCorrupt (m : Mem) (d : Dev) (tile : Nat) (r : MRange) : Bool :=
  r.2.2 < 2 && (List.range ((r.1 + r.2.1 - 1) / 32 + 1 - r.1 / 32)).any fun i => uncorrectable m d (vaultKey tile ((r.1 / 32 + i) * 32))
/-- Checks 0x04 to 0x09 of the ranges. -/
def rangeReason (m : Mem) (d : Dev) (tile : Nat) (c : MCmd) (misaligned : Bool) : Nat :=
  let rs := mxRanges (d.array tile) c
  if rs.any fun r => (rangeAttrs c r).any fun at_ => at_ = 2 || (r.2.2 = 0 && at_ != 1) then 4
  else if rs.any fun r => 0x1E00000 < r.1 + r.2.1 then 5
  else if rs.any fun r => !rangeAllowed c tile r then 6
  else if misaligned then 7
  else if rs.any (rangeCorrupt m d tile) then 9
  else 0
/-- The reason a command is refused, 0 for none. -/
def mxReason (m : Mem) (d : Dev) (tile : Nat) (c : MCmd) : Nat :=
  let a := d.array tile
  match c.cmd with
  | 2 =>
    let w := c.f 2 21 18
    if (mxFormat w).isNone then 1
    else if 512 / mxCell w < c.f 2 8 0 + 1 then 3
    else rangeReason m d tile c (c.off 0 % 64 ≠ 0 || (mxScaled w && c.off 1 % 4 ≠ 0))
  | 3 | 4 => match a.block with
    | none => 8
    | some b =>
      let f := c.f 5 22 19
      let fs := (if c.cmd = 4 then List.range 16 else [c.bank]).map fun q => a.bfmt.toArray.getD q 0
      let p := c.f 5 17 14
      if (mxFormat f).isNone || mxRow f ≠ mxRow b.fmt then 1
      else if fs.any fun x => x ≠ fs.headD 0 || (x = 2) != mxInt f then 2
      else if 32 < c.f 5 13 9 + c.f 5 8 4 + 1 || (p ≠ 0 && (!mxInt f || mxSig f < p)) then 3
      else rangeReason m d tile c (c.off 3 % 64 ≠ 0 || (mxScaled f && c.off 4 % 4 ≠ 0))
  | 5 => if c.fmt = 3 then 1 else 0
  | 8 =>
    let z := a.elemSize c.bank
    if 32 < c.f 7 11 7 + c.f 7 6 2 + 1 || 256 < c.f 7 27 20 + c.f 7 19 12 + 1 || c.f 7 43 28 % z ≠ 0 then 3
    else rangeReason m d tile c (c.off 6 % z ≠ 0)
  | _ => 0

/-! ## Acceptance (R252, R259, R260) -/

/-- The step that runs a command. -/
def mxStep (cmd : Nat) : Instr := match cmd with
  | 2 => .arrayWeightLoad
  | 3 => .arrayStream
  | 4 => .arrayBatchedStream
  | 6 => .batchCompletion
  | 8 => .arrayBankReadout
  | _ => .arrayBankPrepare
def arrayMaster (tile : Nat) : Nat := 64 * tile + 55
/-- R252: commands start one at a time, in acceptance order. -/
def arrayKick (d : Dev) (tile : Nat) : Dev :=
  let a := d.array tile
  if a.busy then d
  else match a.queue with
    | [] => d
    | c :: _ => (d.updArray tile fun a => { a with busy := true }).post 0 (mxStep c.cmd) [tile, c.id, 3]
/-- The banks a command names. -/
def bankMask (cmd bank : Nat) : Nat := if cmd = 4 then 0xFFFF else if cmd = 3 || cmd = 5 || cmd = 8 || cmd = 9 then 2 ^ bank else 0
/-- A queued command of the thread whose turn it is: the lease, the queue, then acceptance. `x` and `y` are g[a] and g[b]. -/
def mxCommand (cmd : Nat) (tag : BitVec 8) (x y : D) : M Unit := fun _ d =>
  let loc := d.cur
  let tile := unitOf (coreOf loc)
  let a := d.array tile
  let who := lessee d loc
  if a.holder ≠ some who then .error (.trap 0x14 0 (mstOf d tile) 0 none)
  else if 16 ≤ a.queue.length then .error .lose
  else
    let t := d.thread loc
    let (id, d) := d.newId
    let (b, batch) := match a.opened.get? who with
      | some b => (b, a.batches.getD b (MBatch.new loc t.name))
      | none => (id, MBatch.new loc t.name)
    let c : MCmd :=
      { id := id, loc := loc, cmd := cmd, tag := tag.toNat, bank := fieldN x 3 0, fmt := fieldN y 1 0, regs := a.regs, lpb := t.lpb, lpl := t.lpl,
        rga := (d.tile tile).rga, rgb := (d.tile tile).rgb, batch := b, idx := batch.cmds, acc := d.cycle }
    let batch := { batch with cmds := batch.cmds + 1, left := batch.left + 1, busy := batch.busy ||| bankMask cmd c.bank }
    let batch := if cmd = 6 then { batch with closed := true, order := id, tag := some tag.toNat, post := bitN x 0, cookie := y } else batch
    let held := ((mxRanges a c).filter fun r => r.2.2 < 2 && r.2.1 != 0).map fun r => (r.1 / 64 * 64, (r.1 + r.2.1 + 63) / 64 * 64 - r.1 / 64 * 64, id, loc)
    let d := d.updTile tile fun tl => { tl with holds := tl.holds ++ held }
    let d := d.updArray tile fun a =>
      { a with queue := a.queue ++ [c], batches := a.batches.set b batch, remc := a.remc - 1,
               namer := (setBits (bankMask cmd c.bank) 16).foldl (fun l q => l.set q b) a.namer,
               opened := if cmd = 6 then a.opened.erase who else a.opened.set who b,
               pending := if cmd = 6 then a.pending.set tag.toNat b else a.pending }
    let d := if (d.array tile).remc = 0 then d.post 0 .leaseRunEnd [tile, (d.array tile).run] else d
    .ok ((), arrayKick d tile)

/-! ## Execution (R254 to R257, R261) -/

/-- R252: the issuer's earlier accesses to its tile's vault have been performed. -/
def mxSent (d : Dev) (tile : Nat) (c : MCmd) : Bool := !((d.reqs.any fun r => r.2.ord r.1 < c.id && r.2.loc = c.loc && r.2.phase != .performed &&
  r.2.parts.any fun p => match target d r.2 p with
    | .byte k _ => k / 2 ^ 56 = 4 + tile
    -- an access that waits for its page, or for a granule, may be one to the vault
    | .nonresident _ | .wait => p.place.any fun w => plTier w = 2 && plDie w (p.va.toNat % max p.page 1) = tileDie tile
    | _ => false) ||
  -- a query's reads and stores, and those of NCAS, are accesses of the issuer (R240)
  (d.gramQ.any fun q => q.1 < c.id && q.2.loc = c.loc) || (d.nameQ.any fun q => q.1 < c.id && q.2.loc = c.loc && q.2.kind = .cas))
def mxCycles (a : MArray) (c : MCmd) : Nat := match c.cmd with
  | 2 => 16 + c.f 2 16 9 + 1
  | 3 | 4 =>
    let f := c.f 5 22 19
    24 + (c.f 5 8 4 + 2) / 2 * (if c.f 5 17 14 = 0 then mxSig f else c.f 5 17 14)
  | 8 => 16 + ((c.f 7 6 2 + 1) * (c.f 7 19 12 + 1) * a.elemSize c.bank + 511) / 512
  | _ => 32
/-- Waiting stores a command's end may let go. -/
def heldRequests (d : Dev) : List Nat := (d.reqs.filter fun r => r.2.phase = .waiting && writesWord r.2.op && r.2.parts.any fun p => match target d r.2 p with
  | .byte k _ => keyHeld d k p.size (some (r.2.loc, r.2.ord r.1))
  | _ => false).map Prod.fst
/-- A command leaves the queue: its holds end, its batch counts it, the next one starts. -/
def mxFinish (d : Dev) (tile : Nat) (c : MCmd) : Dev :=
  let ids := heldRequests d
  let d := d.updTile tile fun tl => { tl with holds := tl.holds.filter fun h => h.2.2.1 != c.id }
  let d := ids.foldl (fun d i => d.post 0 .heldStorePerform [i]) d
  let d := d.updArray tile fun a =>
    let a := a.updBatch c.batch fun b => { b with left := b.left - 1 }
    { a with queue := a.queue.filter (fun x => x.id != c.id), busy := false }
  arrayKick (tryComplete d tile c.batch) tile
/-- A command that fails a check: MERR and its batch record it. -/
def mxRefuse (d : Dev) (tile : Nat) (c : MCmd) (reason : Nat) : Dev := d.updArray tile fun a =>
  let a := a.updBatch c.batch fun b => { b with refused := b.refused + 1, first := if b.first.isNone then some (reason, c.idx) else b.first }
  { a with merr := ofN (c.tag * 65536 + reason * 256 + min (fieldN a.merr 7 0 + 1) 255) }
/-- R156: the first access of the command that the vault's table denies: a read or a write. -/
def mxDenied (d : Dev) (tile : Nat) (c : MCmd) : Option (Nat × Bool) :=
  (mxRanges (d.array tile) c).findSome? fun r => if grants ((d.tile tile).access.getD (arrayMaster tile) 0) 0 (r.2.2 = 2) then none else some (r.1, decide (r.2.2 = 2))
/-- A command at the head of the queue starts once it has been sent; a frozen array takes no command. MXC ends at once. -/
def mxStart (m : Mem) (d : Dev) (tile : Nat) (c : MCmd) : Dev :=
  if d.frozenMs.contains (arrayMaster tile) then d.updArray tile fun a => { a with busy := false }
  else if !mxSent d tile c then d.post 1 (mxStep c.cmd) [tile, c.id, 3]
  else if c.cmd = 6 then mxFinish d tile c
  else match mxReason m d tile c with
    | 0 => match mxDenied d tile c with
      | some (off, wr) =>
        (freezeUnit d (arrayMaster tile) (.vault tile) (ofN (dieOff (tile, off))) (b2n wr)).updArray tile fun a => { a with busy := false }
      | none => d.post (mxCycles (d.array tile) c) (mxStep c.cmd) [tile, c.id, 4]
    | r => (mxRefuse d tile c r).post 4 (mxStep c.cmd) [tile, c.id, 5]
/-- The array's steps: the start of a command (phase 3), its end (4), the end of a refused one (5). -/
def mxRun (f : Mem → Dev → Nat → MCmd → Dev) (m : Mem) (d : Dev) : Dev :=
  let tile := d.arg 0
  match (d.array tile).queue.find? fun c => c.id = d.arg 1 with
  | none => d
  | some c => match d.arg 2 with
    | 3 => mxStart m d tile c
    | 4 => mxFinish (f m d tile c) tile c
    | _ => mxFinish d tile c
/-- R254: the block is latched with its format and scales. -/
def latchBlock (m : Mem) (d : Dev) (tile : Nat) (c : MCmd) : Dev :=
  let w := c.f 2 21 18
  let k := c.f 2 8 0 + 1
  let n := c.f 2 16 9 + 1
  let rd (off len : Nat) : Nat := rdN m d (vaultKey tile off) len
  let b : WBlock :=
    { fmt := w, uns := c.f 2 17 17 == 1, k := k, n := n, cols := (List.range n).map fun i => BitVec.ofNat 4096 (rd (c.off 0 + 512 * i) (k * mxCell w)),
      scales := if mxScaled w then (List.range 8).map fun i => rd (c.off 1 + 4 * i) 4 else [] }
  d.updArray tile fun a => { a with block := some b }
/-- The value of weight (k, n) of the latched block. -/
def WBlock.val (b : WBlock) (n k : Nat) : Fp.Val :=
  weightVal b.fmt b.uns ((b.cols.getD n 0).toNat / 2 ^ (8 * mxCell b.fmt * k) % 2 ^ (8 * mxCell b.fmt))
def oneVal : Fp.Val := .fin false 1 0
/-- One element through one segment of K-elements `k0` to `k1 - 1`. -/
def segStep (b : WBlock) (f : Nat) (act : Nat → Fp.Val) (ascale : Nat → Fp.Val) (bf n k0 k1 : Nat) (acc : Nat × Nat) : Nat × Nat :=
  let ps := (List.range (k1 - k0)).map fun i => (b.val n (k0 + i), act (k0 + i))
  let part := segPartial (mxInt f) ((mxFmt b.fmt).mw + (mxFmt f).mw) ps
  let (sa, sb) := if mxScaled f then (ascale (k0 / 128), Fp.f32.decode (b.scales.getD (2 * (k0 / 128) + n / 128) 0)) else (oneVal, oneVal)
  let (x, fl) := promote bf acc.1 part sa sb
  (x, acc.2 ||| fl)
/-- The segments of R74 over the latched K. -/
def segments (f k : Nat) : List (Nat × Nat) :=
  if mxScaled f then (List.range ((k + 127) / 128)).map fun g => (128 * g, min k (128 * g + 128)) else [(0, k)]
/-- Row `r` of a stream into columns of a bank: for each, the weight column, the bank column and its segments. -/
def streamCols (b : WBlock) (f : Nat) (act : Nat → Fp.Val) (ascale : Nat → Fp.Val) (q row : Nat) (segs : List (Nat × Nat)) (cols : List (Nat × Nat)) (a : MArray) : MArray :=
  cols.foldl (fun a nc =>
    let (x, fl) := segs.foldl (fun acc s => segStep b f act ascale (a.bfmt.toArray.getD q 0) nc.1 s.1 s.2 acc) ((a.bank q row nc.2).toNat, 0)
    { (a.setBank q row nc.2 (ofN x)) with mflg := a.mflg ||| fl * 16 ^ q }) a
/-- The blocks of a stream: bank, segments, columns. MXS has one (R255), MXB sixteen (R256). -/
def streamBlocks (b : WBlock) (f : Nat) (c : MCmd) : List (Nat × List (Nat × Nat) × List (Nat × Nat)) :=
  if c.cmd = 3 then [(c.bank, segments f b.k, (List.range b.n).map fun n => (n, n))]
  else (List.range 16).filterMap fun j =>
    let z := 32 / mxCell f
    let cols := ((List.range 16).filter fun i => 16 * j + i < b.n).map fun i => (16 * j + i, i)
    if cols.isEmpty then none else some (j, [(z * j, max (z * j) (min b.k (z * j + z)))], cols)
def stream (m : Mem) (d : Dev) (tile : Nat) (c : MCmd) : Dev := match (d.array tile).block with
  | none => d
  | some b =>
    let f := c.f 5 22 19
    let blocks := streamBlocks b f c
    let rows := List.range (c.f 5 8 4 + 1)
    d.updArray tile fun a =>
      let a := rows.foldl (fun a r =>
        let row := rdN m d (vaultKey tile (c.off 3 + r * mxPlanes f * 64)) (mxPlanes f * 64)
        let act := actVal f (c.f 5 18 18 = 1) (c.f 5 17 14) row
        let asc (g : Nat) : Fp.Val := Fp.f32.decode (rdN m d (vaultKey tile (c.off 4 + 4 * (4 * r + g))) 4)
        blocks.foldl (fun a x => streamCols b f act asc x.1 (c.f 5 13 9 + r) x.2.1 x.2.2 a) a) a
      a.updBatch c.batch fun t => { t with wrote := t.wrote ||| (blocks.foldl (fun w x => w ||| 2 ^ x.1) 0) }
/-- R257: MXP and MXZ. -/
def prepareBank (_ : Mem) (d : Dev) (tile : Nat) (c : MCmd) : Dev := d.updArray tile fun a =>
  let a := a.updBatch c.batch fun b => { b with wrote := b.wrote ||| 2 ^ c.bank }
  { a with
    bfmt := if c.cmd = 5 then a.bfmt.setIfInBounds c.bank c.fmt else a.bfmt,
    banks := a.banks.filter fun x => x.1 / 8192 != c.bank,
    mflg := a.mflg - (a.mflg / 16 ^ c.bank % 16) * 16 ^ c.bank }
/-- R257: MXRD's plain stores. -/
def readOut (m : Mem) (d : Dev) (tile : Nat) (c : MCmd) : Dev :=
  let a := d.array tile
  let z := a.elemSize c.bank
  (List.range (c.f 7 6 2 + 1)).foldl (fun d r => (List.range (c.f 7 19 12 + 1)).foldl (fun d i =>
    let k := vaultKey tile (c.off 6 + r * c.f 7 43 28 + i * z)
    -- R342: a store into a code word that cannot be corrected is refused
    if uncorrectable m d k then d else writeBytes m d (2 ^ 40) k z (a.bank c.bank (c.f 7 11 7 + r) (c.f 7 27 20 + i)).toNat) d) d
def execArrayWeightLoad (s : State) : Out := s.event (mxRun latchBlock)
def execArrayStream (s : State) : Out := s.event (mxRun stream)
def execArrayBatchedStream (s : State) : Out := s.event (mxRun stream)
def execArrayBankPrepare (s : State) : Out := s.event (mxRun prepareBank)
def execArrayBankReadout (s : State) : Out := s.event (mxRun readOut)

/-- Completion (phase 0), then the release of waiting threads (1), then the message (2). An MXC is executed in phase 3. -/
def completeBatch (m : Mem) (d : Dev) : Dev :=
  if d.arg 2 = 3 then mxRun (fun _ d _ _ => d) m d else
  let tile := d.arg 0
  let id := d.arg 1
  match (d.array tile).batches.get? id with
  | none => d
  | some b => match d.arg 2 with
    | 0 =>
      let a := d.array tile
      let pend := b.tag.bind fun t => if a.pending.get? t = some id then some t else none
      let flags := a.mflg &&& bankFlags b.wrote
      let d := d.updArray tile fun a =>
        let a := a.updBatch id fun b => { b with busy := 0 }
        { a with pending := (pend.map a.pending.erase).getD a.pending }
      (d.postRange 0 12 .batchCompletion [tile, id, 1]).post 12 .batchCompletion [tile, id, 2, flags]
    | 1 => ((d.threads.filter fun t => t.2.awaits (.batch (b.tag.getD 0) id) && unitOf (coreOf t.1) = tile).map Prod.fst).foldl (fun d l => complete d l 0 []) d
    | _ =>
      let msg : Msg := ⟨batchMessage b (d.arg 3), 2, slotOf b.loc, b.loc, some b.thread⟩
      let posts := b.tag.isSome && b.post
      if posts && outFull d msg then d.post 16 .batchCompletion d.args
      else
        let d := d.updArray tile fun a => { a with batches := a.batches.erase id }
        if posts then postNamed m d b.thread msg else d
def execBatchCompletion (s : State) : Out := s.event completeBatch

/-! ## The instructions (R250, R251, R258) -/

def shMx (srcs : List Src) : Shape := { gate := .unit, srcs := srcs }
/-- MXL: granted, held already, or a turn lost waiting. -/
def takeLease (lim : D) : M Bool := fun _ d =>
  let loc := d.cur
  let tile := unitOf (coreOf loc)
  let a := d.array tile
  if a.holder = some (lessee d loc) then .ok (true, d)
  else match a.waiters.find? fun w => w.1 = loc with
    | some w => if d.cycle < w.2 then .error .lose else .error (.trap 0x15 0 (mstOf d tile) 0 none)
    | none =>
      if a.holder.isNone && (a.waiting d.cycle).isEmpty then .ok (true, grantLease d tile loc)
      else .ok (false, { (d.updArray tile fun a => { a with waiters := a.waiters ++ [(loc, d.cycle + 16 * max lim.toNat 1)] }) with last := .lost })
def execMxl (a : BitVec 5) (m : Bool) (t : BitVec 8) (s : State) : Out := s.run (.mxl a m t) (shMx [.g a m]) (do
  let d0 ← getD
  let lim ← gv a
  let got ← takeLease lim
  -- a turn lost waiting takes nothing from a queue
  if got then adv else modD fun d => { d with cores := d0.cores })
def execMxu (t : BitVec 8) (s : State) : Out := s.run (.mxu t) (shMx []) (do
  modD fun d =>
    let tile := unitOf (coreOf d.cur)
    let who := lessee d d.cur
    if (d.array tile).holder = some who then leaveArray d tile who else d
  adv)
def execMxw (t : BitVec 8) (s : State) : Out := s.run (.mxw t) (shMx []) (do
  mxCommand 2 t 0 0
  adv)
def execMxs (a : BitVec 5) (m : Bool) (t : BitVec 8) (s : State) : Out := s.run (.mxs a m t) (shMx [.g a m]) (do
  let x ← gv a
  mxCommand 3 t x 0
  adv)
def execMxb (t : BitVec 8) (s : State) : Out := s.run (.mxb t) (shMx []) (do
  mxCommand 4 t 0 0
  adv)
def execMxp (a b : BitVec 5) (m n : Bool) (t : BitVec 8) (s : State) : Out := s.run (.mxp a b m n t) (shMx [.g a m, .g b n]) (do
  let x ← gv a
  let y ← gv b
  mxCommand 5 t x y
  adv)
def execMxc (a b : BitVec 5) (m n : Bool) (t : BitVec 8) (s : State) : Out := s.run (.mxc a b m n t) (shMx [.g a m, .g b n]) (do
  let x ← gv a
  let y ← gv b
  mxCommand 6 t x y
  adv)
def execMxrd (a : BitVec 5) (m : Bool) (t : BitVec 8) (s : State) : Out := s.run (.mxrd a m t) (shMx [.g a m]) (do
  let x ← gv a
  mxCommand 8 t x 0
  adv)
def execMxz (a : BitVec 5) (m : Bool) (t : BitVec 8) (s : State) : Out := s.run (.mxz a m t) (shMx [.g a m]) (do
  let x ← gv a
  mxCommand 9 t x 0
  adv)
/-- MXWB: back at once when the tag is DONE, else parked on its latest batch. -/
def execMxwb (a : BitVec 5) (m : Bool) (t : BitVec 8) (s : State) : Out := s.run (.mxwb a m t) (shMx [.g a m]) (do
  let lim ← gv a
  let d ← getD
  match (d.array (unitOf (coreOf d.cur))).pending.get? t.toNat with
  | some b => park (.batch t.toNat b) lim.toNat []
  | none => adv)

end Sys2Proof.Machine
end

