-- ==== Sys2Proof/Machine/Eng.lean ====
section
/-! DEFINITION. ENGW and ENGR on the three engines (R247, R248, R263 to R265). -/
namespace Sys2Proof.Machine

/-! ## The register maps -/

/-- R264: used bits of the copy and of the conversion staging registers. -/
def copyMask (r : Nat) : D := match r with
  | 1 => 0xFFFFFF
  | 4 => 0x78
  | 5 => 0xFFFFFFFFFFFFFFFF
  | 6 => 0xFFFFFFFF
  | _ => 0xFFFFFFFFFFFF
def convMask (r : Nat) : D := match r with
  | 0 => 0xFFFFFFFF
  | 1 => 0xFFFF
  | 2 | 3 => 0xFFFFFFFFFFFF
  | 4 => 0xFFFC
  | _ => 0xFFFFFFFFFFFFFFFF
/-- R264: CES and CVS. -/
def engineStatus (e : Engine) (queued : Nat) : D := ofN (e.done % 2 ^ 32 * 65536 + b2n e.cur.isSome * 32768 + queued)

/-! ## ENGW -/

def leaseHeld : M Unit := fun _ d =>
  let tile := unitOf (coreOf d.cur)
  if (d.array tile).holder = some (lessee d d.cur) then .ok ((), d) else .error (.trap 0x14 0 (mstOf d tile) 0 none)
/-- A write of a register of the matrix array. -/
def arrayWrite (r : Nat) (x : D) : M Unit :=
  if r = 0x10 ∨ r = 0x13 then pure ()
  else do
    leaseHeld
    modD fun d =>
      let tile := unitOf (coreOf d.cur)
      if r = 0x11 then d.post 0 .mflgWrite [tile, x.toNat]
      else if r = 0x12 then d.post 0 .merrWrite [tile]
      else d.updArray tile fun a => { a with regs := a.regs.setIfInBounds r (x &&& mxMask r) }
/-- The effect of a write, by engine. -/
def engineWrite (e r : Nat) (x : D) : M Unit := match e with
  | 3 => arrayWrite r x
  | 2 =>
    if r = 0x10 then pure ()
    else if 0x20 ≤ r then modD fun d => d.post 0 .regionTableWrite [unitOf (coreOf d.cur), r, x.toNat]
    else modMe fun t => { t with cvs := t.cvs.setIfInBounds r (x &&& convMask r) }.touch (40 + r)
  | _ => if r = 0x10 then pure () else modMe fun t => { t with cps := t.cps.setIfInBounds r (x &&& copyMask r) }.touch (24 + r)
def reservedEng (i : Instr) : M Unit := trap 0x02 ((encode i).setWidth 64) 0x3F
def execEngw (a : BitVec 5) (m : Bool) (e : BitVec 2) (r : BitVec 6) (s : State) : Out :=
  if engAbsent s.dev.cur e r then s.run (.engw a m e r) { gate := .unit } (reservedEng (.engw a m e r))
  else s.run (.engw a m e r) { gate := .unit, srcs := [.g a m] } (do
    let x ← gv a
    engineWrite e.toNat r.toNat x
    adv)

/-! ## ENGR -/

def engineRead (d : Dev) (loc e r : Nat) : D :=
  let t := d.thread loc
  let tl := d.tile (unitOf (coreOf loc))
  match e with
  | 3 =>
    if r < 8 then tl.array.regs.toArray.getD r 0
    else if r = 0x10 then mstOf d (unitOf (coreOf loc))
    else if r = 0x11 then ofN tl.array.mflg
    else if r = 0x12 then tl.array.merr
    else ofN ((tl.array.bfmt.toList.zipIdx).foldl (fun a x => a + x.1 * 4 ^ x.2) 0)
  | 2 =>
    if r = 0x10 then engineStatus (tl.engines.toArray.getD 2 ⟨0, none, none⟩) tl.convQ.length
    else if 0x30 ≤ r then tl.rgb.toArray.getD (r - 0x30) 0
    else if 0x20 ≤ r then tl.rga.toArray.getD (r - 0x20) 0
    else t.cvs.toArray.getD r 0
  | e => if r = 0x10 then engineStatus (tl.engines.toArray.getD e ⟨0, none, none⟩) tl.copyQ.length else t.cps.toArray.getD r 0
/-- The value arrives 24 cycles after issue. -/
def execEngr (d : BitVec 5) (e : BitVec 2) (r : BitVec 6) (s : State) : Out :=
  if engAbsent s.dev.cur e r then s.run (.engr d e r) { gate := .unit } (reservedEng (.engr d e r))
  else s.run (.engr d e r) { gate := .unit, long := [d] } (do
    let dv ← getD
    longG 24 d (engineRead dv dv.cur e.toNat r.toNat)
    adv)
/-- R247, R259: the selected bank element; a busy bank traps ACC_BUSY. -/
def bankRead (d : BitVec 5) (x : D) : M Unit := do
  let dv ← getD
  let a := dv.array (unitOf (coreOf dv.cur))
  let q := fieldN x 16 13
  match a.busyBy q with
  | some (_, b) => trap 0x13 (ofN q) b.aux
  | none => longG 24 d (a.bank q (fieldN x 12 8) (fieldN x 7 0))
def execEngrBdat (d a : BitVec 5) (m : Bool) (s : State) : Out := s.run (.engrBdat d a m) { gate := .unit, srcs := [.g a m], long := [d] } (do
  let x ← gv a
  bankRead d x
  adv)

/-! ## Writes that are steps of their own -/

/-- Writing 0 to a flag clears it. -/
def execMflgWrite (s : State) : Out := s.event fun _ d => d.updArray (d.arg 0) fun a => { a with mflg := a.mflg &&& d.arg 1 }
def execMerrWrite (s : State) : Out := s.event fun _ d => d.updArray (d.arg 0) fun a => { a with merr := 0 }
/-- R265: a COMP layout that is refused. -/
def compRefused (a b : D) : Bool :=
  let otab := fieldN b 24 0
  let slim := fieldN b 56 32
  let base := fieldN a 12 0
  let lim := fieldN a 45 32
  fieldN b 63 62 = 2 && (otab % 8 ≠ 0 || slim % 8 ≠ 0 || (base < lim && otab < slim && overlaps otab (slim - otab) (4096 * base) (4096 * (lim - base))) ||
    slim < otab + 8 * (lim - base))
/-- R265: what has been accepted at a tile goes on under its region table as it stands. -/
def keepRegions (d : Dev) (tile : Nat) : Dev :=
  let tl := d.tile tile
  let add (l : List (Nat × Vector D 16 × Vector D 16)) := if l.any (fun x => x.1 = tile) then l else l ++ [(tile, tl.rga, tl.rgb)]
  let keep (c : ECmd) : ECmd := { c with regions := add c.regions }
  { d with reqs := d.reqs.map fun r => (r.1, { r.2 with regions := add r.2.regions }),
           gramQ := d.gramQ.map fun q => (q.1, { q.2 with regions := add q.2.regions }),
           nameQ := d.nameQ.map fun q => (q.1, { q.2 with regions := add q.2.regions }),
           tiles := d.tiles.map fun t => (t.1, { t.2 with copyQ := t.2.copyQ.map keep, convQ := t.2.convQ.map keep,
                                                          engines := t.2.engines.map fun e => { e with cur := e.cur.map keep } }) }
def writeRegion (m : Mem) (d : Dev) (tile r : Nat) (x : D) : Dev :=
  let e := (r - 0x20) % 16
  let tl := d.tile tile
  let old := tl.rgb.toArray.getD e 0
  let a := if r < 0x30 then x &&& 0x3FFF00001FFF else tl.rga.toArray.getD e 0
  let b := if r < 0x30 then old else (if fieldN x 63 62 = 3 then 0 else x &&& 0xC000000000000000) ||| (x &&& 0x01FFFFFF01FFFFFF)
  let b := setField b 61 61 (b2n (compRefused a b))
  let top := if 0x30 ≤ r ∧ fieldN b 63 62 = 2 then storeTop m d tile a b else tl.ctop.toArray.getD e 0
  d.updTile tile fun t => { t with rga := t.rga.setIfInBounds e a, rgb := t.rgb.setIfInBounds e b, ctop := t.ctop.setIfInBounds e top }
def execRegionTableWrite (s : State) : Out := s.event fun m d => writeRegion m (keepRegions d (d.arg 0)) (d.arg 0) (d.arg 1) (ofN (d.arg 2))

end Sys2Proof.Machine
end

