-- ==== Sys2Proof/Machine/Grammar.lean ====
section
/-! DEFINITION. Grammars (chapter 09): records, lifted operators and summaries, the rule-result table, walks, the GRM
instructions, and the shoot-downs a tile acknowledges (R207 to R240). -/
namespace Sys2Proof.Machine

/-! ## Summaries (R209, R213 to R216) -/

def phashP : Nat := 2 ^ 61 - 1
/-- R209: the bytes of an element of a scalar type. -/
def etSize (et : Nat) : Nat := match et with
  | 0 | 2 => 4
  | 1 | 3 => 8
  | 4 | 5 => 2
  | _ => 1
def etFmt (et : Nat) : Fp.Fmt := match et with
  | 2 => Fp.f32
  | 3 => Fp.f64
  | 4 => Fp.f16
  | 5 => Fp.bf16
  | 6 => Fp.e4m3
  | _ => Fp.e5m2
/-- R210: an element as a 64-bit value. -/
def elemValue (et x : Nat) : Nat :=
  if et = 0 then ((BitVec.ofNat 32 x).signExtend 64).toNat
  else if et = 1 then x
  else (Fp.convert Fp.f64 .rne 0 ((etFmt et).decode x)).1
def fadd64 (x y : Nat) : Nat := (Fp.add Fp.f64 .rne 0 (Fp.f64.decode x) (Fp.f64.decode y)).1
/-- R214: lane 1 of a combination, by operator and the type in lane 2. -/
def comb1 (op ty x y : Nat) : Nat :=
  let flt := 2 ≤ ty ∧ ty ≤ 7
  match op with
  | 1 => fadd64 x y
  | 2 => if flt then (Fp.minmax Fp.f64 false x y).1 else if (ofN x).toInt ≤ (ofN y).toInt then x else y
  | 3 => if flt then (Fp.minmax Fp.f64 true x y).1 else if (ofN y).toInt ≤ (ofN x).toInt then x else y
  | 4 => x &&& y
  | 5 => x ||| y
  | 6 => x ^^^ y
  | 10 => if flt then fadd64 x y else (x + y) % 2 ^ 64
  | _ => (x + y) % 2 ^ 64
/-- R214: comb(s, t). -/
def gcomb (op : Nat) (s t : GSum) : GSum :=
  let m := 2 ^ 64
  let l := (s.len + t.len) % m
  match op with
  | 8 => ⟨l, (s.s1 + t.s1) % m, (s.s2 + t.s2 + s.len * t.s1) % m, 0⟩
  | 9 => ⟨l, (s.s1 * t.s3 + t.s1) % phashP, 0, s.s3 * t.s3 % phashP⟩
  | _ => ⟨l, comb1 op s.s2 s.s1 t.s1, s.s2, 0⟩
/-- R215: rep(s, q): the steps below the highest set bit, downward. -/
def repFrom (op q : Nat) (s : GSum) : Nat → GSum → GSum
  | 0, r => r
  | k + 1, r =>
    let r := gcomb op r r
    repFrom op q s k (if q / 2 ^ k % 2 = 1 then gcomb op r s else r)
def grep (op q : Nat) (s : GSum) : GSum := repFrom op q s (Nat.log2 q) s
/-- Modular power. -/
def powModFrom (b e : Nat) : Nat → Nat → Nat
  | 0, r => r
  | k + 1, r => powModFrom b e k (r * r % phashP * (if e / 2 ^ k % 2 = 1 then b else 1) % phashP)
def powMod (b e : Nat) : Nat := powModFrom (b % phashP) e 64 1
def foldFirst (f : Nat → Nat → Nat) : List Nat → Nat
  | [] => 0
  | x :: xs => xs.foldl f x
/-- R214: the summary of a leaf's values. -/
def gleaf (op et par : Nat) (vs : List Nat) : GSum :=
  let m := 2 ^ 64
  let l := vs.length
  match op with
  | 7 => ⟨l, vs.countP (· = par), et, 0⟩
  | 8 => ⟨l, vs.foldl (· + ·) 0 % m, (vs.zipIdx).foldl (fun a x => a + x.1 * x.2) 0 % m, 0⟩
  | 9 => ⟨l, vs.foldl (fun h v => (h * par + v) % phashP) 0, 0, powMod par l⟩
  | _ => ⟨l, foldFirst (comb1 op et) vs, et, 0⟩
/-- R213: the reason an operator does not take a type, 0 when it does. -/
def liftReason (op et : Nat) : Nat :=
  if 8 < et then 2
  else if (op = 10) ≠ (et = 8) then 3
  else if (op = 0 ∨ op = 4 ∨ op = 5 ∨ op = 6 ∨ op = 8) ∧ 1 < et then 2
  else if op = 1 ∧ et < 2 then 2 else 0
/-- R216: a summary placed at an offset. -/
def place (op : Nat) (s : GSum) (o b : Nat) : GSum := match op with
  | 8 => { s with s2 := (s.s2 + o * s.s1) % 2 ^ 64 }
  | 9 => { s with s1 := s.s1 * powMod b o % phashP }
  | _ => s
def vecSum (s : GSum) : V := ofLanes 64 [s.len, s.s1, s.s2, s.s3]
def sumVec (x : V) : GSum := ⟨laneOf 64 x 0, laneOf 64 x 1, laneOf 64 x 2, laneOf 64 x 3⟩

/-! ## The rule-result table (R218 to R220, R224) -/

/-- R219. -/
def gramSet (rule op bind par : Nat) : Nat :=
  let m := 2 ^ 64
  let h := rule % m ^^^ (rule / m * 2 ^ 17 % m) ^^^ (op * 2 ^ 58 % m) ^^^ par ^^^ (bind % m) ^^^ (bind / m * 2 ^ 29 % m)
  let h := (h ^^^ (h / 2 ^ 33)) * 0xFF51AFD7ED558CCD % m
  (h ^^^ (h / 2 ^ 33)) % 8192
def GEntry.is (e : GEntry) (rule op bind par : Nat) : Bool := e.rule = rule && e.op = op && e.bind = bind && e.par = par
def countG (t : Tile) (i n : Nat) : Tile := { t with gcount := t.gcount.setIfInBounds i ((t.gcount.toArray.getD i 0 + n) % 2 ^ 64) }
/-- The entry of a key, which becomes the most recently used of its set. -/
def gramFind (t : Tile) (rule op bind par : Nat) : Option (GEntry × Tile) :=
  let k := gramSet rule op bind par
  let l := t.rrt.getD k []
  (l.find? fun e => e.is rule op bind par).map fun e => (e, { t with rrt := t.rrt.set k (e :: l.filter fun x => x != e) })
/-- R220: a lookup; SUMI is also served by MOM1. Every lookup counts. -/
def gramLookup (d : Dev) (tile loc rule op bind par : Nat) : Option GEntry × Dev :=
  let t := d.tile tile
  let r := match gramFind t rule op bind par with
    | some x => some x
    | none => if op = 0 then (gramFind t rule 8 0 0).map fun x => ({ x.1 with sum := ⟨x.1.sum.len, x.1.sum.s1, x.1.et, 0⟩ }, x.2) else none
  let sat (n : Nat) : Nat := min (n + 1) (2 ^ 32 - 1)
  match r with
  | some (e, t) => (some e, (d.updTile tile fun _ => countG t 0 1).updThread loc fun t => { t with hits := sat t.hits })
  | none => (none, (d.updTile tile fun t => countG t 1 1).updThread loc fun t => { t with misses := sat t.misses })
/-- R219: an insertion takes the key's way, else a way not valid, else the least recently used. -/
def gramInsert (d : Dev) (tile : Nat) (e : GEntry) : Dev :=
  let k := gramSet e.rule e.op e.bind e.par
  d.updTile tile fun t =>
    let l := t.rrt.getD k []
    let same (x : GEntry) : Bool := x.is e.rule e.op e.bind e.par
    let put (w : Nat) (rest : List GEntry) : Tile := countG { t with rrt := t.rrt.set k ({ e with way := w } :: rest) } 2 1
    match l.find? same with
    | some x => put x.way (l.filter fun x => !same x)
    | none => match (List.range 4).find? fun w => !(l.any fun x => x.way = w) with
      | some w => put w l
      | none => countG (put ((l.getLast?.map (·.way)).getD 0) l.dropLast) 3 1
/-- Remove entries: the number removed, and the tile. -/
def gramRemove (t : Tile) (p : GEntry → Bool) : Nat × Tile :=
  let n := (t.rrt.map fun x => x.2.countP p).foldl (· + ·) 0
  (n, countG { t with rrt := (t.rrt.map fun x => (x.1, x.2.filter fun e => !p e)).filter fun x => !x.2.isEmpty } 4 n)
/-- R222, R238: the entries of a RULE and every composite one; the entries bound to an OBJ. -/
def gramMatch (cls seq : Nat) (e : GEntry) : Bool :=
  if cls = 1 then e.rule = seq || e.comp else if cls = 3 then e.bind = seq && e.op = 10 else false
def gramValid (t : Tile) : Nat := (t.rrt.map fun x => x.2.length).foldl (· + ·) 0

/-! ## Walks (R221). A walk is made at one moment; what it has inserted stays when it fails. -/

inductive GStop where
  | fail (f : GFault)
  /-- older accesses of the thread stand before one of its reads, or a page is awaited: the walk is made again later -/
  | again
  /-- one of its reads waits for a page that is not resident (R142) -/
  | away
  /-- the grammar unit is frozen -/
  | frozen
deriving DecidableEq, Repr
structure GSt where
  m : Mem
  d : Dev
  id : Nat
  q : GQuery
  cyc : Nat
  /-- base and length of the bound vector, once resolved -/
  bound : Option (D × D)
abbrev GW := ExceptT GStop (StateM GSt)

def gramMaster (tile : Nat) : Nat := 64 * tile + 56
def GQuery.uctx (q : GQuery) (d : Dev) : UCtx := ⟨q.loc, q.core, gramMaster (unitOf q.core), rootOf (ctxOf d q.loc), q.user, q.regions⟩
def malformed {α} (name : Q) (reason : Nat) : GW α := throw (.fail ⟨0x12, loHalf name, reason, false⟩)
def notLiftable {α} (name : Q) (reason : Nat) : GW α := throw (.fail ⟨0x11, loHalf name, reason, false⟩)
def memFault (reason : Nat) (va : D) : GFault := ⟨if reason = 0x0D then 0x0D else 0x0C, va, reason, true⟩
def spend (n : Nat) : GW Unit := modify fun s => { s with cyc := s.cyc + n }
/-- R208, R240: `size` bytes read as a plain load of the thread. -/
def gread1 (name : Q) (va : D) (size : Nat) : GW Nat := do
  let s ← get
  let u := s.q.uctx s.d
  if winCode va = 1 ∨ winCode va = 7 then malformed name 0x17
  else
    let r := { newReq { s.d with cur := s.q.loc } (.ld false) 0 [⟨va, size, 0, 0, none, 0, 0⟩] .none with core := s.q.core }
    if blocked s.d s.id r then throw .again
    else if (match vaultLoc s.q.core va with
      | some l => winCode va != 0 && !protOk (s.d.owner s.q.loc s.id) l size 0
      | none => false) then throw (.fail (memFault 0x07 va))
    else match unitRead s.m s.d u va size with
      | .ok x => do
        set { s with d := unitFix s.m s.d u va }
        pure x
      | .error (.fail r) => throw (.fail (memFault r va))
      | .error (.badChunk _) => throw (.fail (memFault 0x0D va))
      | .error (.badNode k) => do
        set { s with d := unitStopped s.d u false (.badNode k) }
        throw (.fail (memFault 0x0A va))
      | .error (.bad k) => do
        set { s with d := unitStopped s.d u false (.bad k) }
        throw (.fail (memFault 0x0D va))
      | .error e =>
        set { s with d := unitStopped s.d u false e }
        throw (match e with
          | .denied .. => .frozen
          | .absent .. => .away
          | _ => .again)
def greadN (name : Q) (va : D) (size : Nat) : Nat → GW (List Nat)
  | 0 => pure []
  | n + 1 => do
    let x ← gread1 name va size
    let xs ← greadN name (va + ofN size) size n
    pure (x :: xs)
/-- R227: one access, and 4 cycles for each further 128 bytes. -/
def gread (name : Q) (va : D) (size n : Nat) : GW (List Nat) := do
  let xs ← greadN name va size n
  modify fun s =>
    let place := if winCode va ≠ 0 then (none, 0) else match firstStage s.m s.d (s.q.uctx s.d).ctx va.toNat 0 s.q.user with
      | .leaf p _ l => (some p, leafSize l)
      | _ => (none, 0)
    let (c, d) := partLatency s.d s.q.core ⟨va, size, 0, 0, place.1, place.2, 0⟩
    { s with d := d, cyc := s.cyc + c + 4 * ((n * size - 1) / 128) }
  pure xs
/-- R195: a name that must be LIVE: words 2 to 5 of its entry; the reason is 0x20 for a root, 0x21 for a child. -/
def gresolve (n : Q) (reason : Nat) : GW (D × D × D × D) := do
  let s ← get
  if ((cacheTile s.q.core).bind fun t => ncFind s.d t n).isNone && tableHeld s.d (dieOf s.q.core) n then throw .again else
  let (c, d) := resolveTime s.m s.d s.q.core n true
  let (r, d) := resolve s.m d s.q.core n
  set { s with d := d, cyc := s.cyc + c }
  match r with
  | .live a b c e => pure (a, b, c, e)
  | .gone => throw (.fail ⟨0x0E, loHalf n, reason, false⟩)
  | .never => throw (.fail ⟨0x0F, loHalf n, reason, false⟩)
  | .foreign => throw (.fail ⟨0x20, loHalf n, reason, false⟩)

/-- R207: a record as the walk uses it. -/
structure GRec where
  kind : Nat
  et : Nat
  nch : Nat
  rt : Nat
  len : Nat
  w1 : Nat
  kids : List Q
deriving DecidableEq, Repr
def recWord0 (w : Nat) : GRec := ⟨w / 2 ^ 60, w / 2 ^ 56 % 16, w / 2 ^ 52 % 16, w / 2 ^ 48 % 16, w % 2 ^ 48, 0, []⟩
def GRec.word0Ok (r : GRec) : Bool :=
  r.kind ≤ 2 && r.et ≤ 8 && r.rt ≤ (if r.et = 8 then 7 else 0) &&
  (match r.kind with
    | 0 => r.nch = 0 && 1 ≤ r.len && r.len ≤ 256
    | 1 => 2 ≤ r.nch && r.nch ≤ 4
    | _ => r.nch = 1)
/-- The scalar type of a rule's elements. -/
def GRec.vt (r : GRec) : Nat := if r.et = 8 then r.rt else r.et
/-- R207, R208: read and check a record. The reason for a name that does not resolve is that of a child or of a root. -/
def grec (n : Q) (child : Bool) : GW GRec := do
  let e ← gresolve n (if child then 0x21 else 0x20)
  let base := e.2.2.1
  if base.toNat % 128 ≠ 0 then malformed n 0x15
  else
    let w ← gread n base 8 16
    let r0 := recWord0 (w.getD 0 0)
    let kid (j : Nat) : Q := BitVec.ofNat 128 (w.getD (2 + 2 * j) 0 + w.getD (3 + 2 * j) 0 * 2 ^ 64)
    let r := { r0 with w1 := w.getD 1 0, kids := (List.range r0.nch).map kid }
    if !r.word0Ok || (w.drop 10).any (· ≠ 0) || (List.range 4).any (fun j => decide (r.nch ≤ j) && kid j != 0) ||
      (r.kind = 2 && (r.w1 < 2 || 2 ^ 32 < r.w1)) then malformed n 0x12
    else if r.kids.any fun k => nmClass k ≠ 1 then malformed n 0x16
    else if r.kind = 0 ∧ r.w1 % etSize r.vt ≠ 0 then malformed n 0x15
    else pure r
/-- A foreign name has no entry of this chip. -/
def gchip (n : Q) (child : Bool) : GW Unit :=
  if nmChip n ≠ Config.chipTag.toNat then throw (.fail ⟨0x20, loHalf n, if child then 0x21 else 0x20, false⟩) else pure ()
/-- R234: L, ETYPE and, for ROW, RTYPE of a rule: from any table entry of it, or else from its record. -/
def ginfo (n : Q) (child : Bool) : GW (Nat × Nat × Nat) := do
  gchip n child
  let s ← get
  match ((s.d.tile (unitOf s.q.core)).rrt.flatMap Prod.snd).find? fun e => e.rule = nmSeq n with
  | some e => pure (e.sum.len, e.et, e.sum.s2)
  | none => do
    let r ← grec n child
    pure (r.len, r.et, r.rt)
/-- R208: a child has its parent's types. The spec does not say whose SEQ TVAL holds for reason 0x14: the model gives the parent's
(log 112). -/
def sameType (par : Option (Q × GRec)) (et rt : Nat) : GW Unit := match par with
  | some (pn, p) => if et ≠ p.et ∨ (p.et = 8 ∧ rt ≠ p.rt) then malformed pn 0x14 else pure ()
  | none => pure ()

/-- What a walk evaluates: operator, parameter, and for DOT the bound name with its block. -/
structure GOp where
  op : Nat
  par : Nat
  bind : Nat
  bname : Q
deriving DecidableEq, Repr
/-- The bound vector: its name is resolved when a lookup of the query first misses (R201). -/
def gbind (n : Q) : GW (D × D) := do
  match (← get).bound with
  | some b => pure b
  | none => do
    let e ← gresolve n 0x20
    modify fun s => { s with bound := some e.2.2 }
    pure e.2.2
/-- R217: a leaf's sum of products with the bound vector. -/
def dotLeaf (o : GOp) (n : Q) (r : GRec) (off : Nat) (vs : List Nat) : GW GSum := do
  let (base, len) ← gbind o.bname
  if len.toNat / 8 < off + r.len then malformed n 0x18
  else
    let xs ← gread n (base + ofN (8 * off)) 8 r.len
    let step (acc : Nat) (a : Nat × Nat) : Nat :=
      if 2 ≤ r.rt then (Fp.fma Fp.f64 .rne 0 (Fp.f64.decode a.1) (Fp.f64.decode a.2) (some (Fp.f64.decode acc))).1 else (a.1 * a.2 + acc) % 2 ^ 64
    pure ⟨r.len, (vs.zip xs).foldl step 0, r.rt, 0⟩
/-- Repetitions 1 to `n` of an RPT under DOT, folded left to right. -/
def dotReps (f : Nat → GW GSum) (op : Nat) : Nat → Nat → GSum → GW GSum
  | 0, _, acc => pure acc
  | n + 1, k, acc => do
    let s ← f k
    spend 4
    dotReps f op n (k + 1) (gcomb op acc s)
/-- The children of a CAT in slot order; under DOT each at the offset the earlier ones leave. -/
def catKids (f : Nat → Q → GW GSum) (op : Nat) : List Q → Nat → Option GSum → GW GSum
  | [], _, acc => pure (acc.getD ⟨0, 0, 0, 0⟩)
  | c :: cs, off, acc => do
    let s ← f off c
    match acc with
    | none => catKids f op cs (off + s.len) (some s)
    | some a => do
      spend 4
      catKids f op cs (off + s.len) (some (gcomb op a s))
/-- R221: eval. The fuel is 64 less the rules on the path. Under DOT the offset class is part of the key. -/
def geval (o : GOp) (rowRoot : Bool) : Nat → List Q → Option (Q × GRec) → Nat → Q → GW (GSum × Nat)
  | 0, _, _, _, n => malformed n 0x11
  | fuel + 1, path, par, off, n => do
    if path.contains n then malformed n 0x10
    let child := rowRoot || !path.isEmpty
    gchip n child
    let dot := o.op = 10
    let key := if dot then off % 2 ^ 64 else o.par
    spend 20
    let s0 ← get
    let (hit, d) := gramLookup s0.d (unitOf s0.q.core) s0.q.loc (nmSeq n) o.op o.bind key
    set { s0 with d := d }
    match hit with
    | some e => do
      sameType par e.et e.sum.s2
      pure (e.sum, e.et)
    | none => do
      if dot then let _ ← gbind o.bname
      let r ← grec n child
      sameType par r.et r.rt
      let bad := liftReason o.op r.et
      if bad ≠ 0 then notLiftable n bad
      let sub (x : Nat) (c : Q) : GW GSum := do
        let y ← geval o rowRoot fuel (path ++ [n]) (some (n, r)) (if dot then x else 0) c
        pure y.1
      let s ← match r.kind with
        | 0 => do
          let raw ← gread n (ofN r.w1) (etSize r.vt) r.len
          spend (4 * ((r.len + 15) / 16))
          let vs := raw.map (elemValue r.vt)
          if dot then dotLeaf o n r off vs else pure (gleaf o.op r.et o.par vs)
        | 1 => do
          let s ← catKids sub o.op r.kids off none
          if s.len ≠ r.len then malformed n 0x13 else pure s
        | _ => do
          let c := r.kids.headD 0
          let s1 ← sub off c
          if r.w1 * s1.len ≠ r.len then malformed n 0x13
          else if dot then dotReps (fun k => sub (off + k * s1.len) c) o.op (r.w1 - 1) 1 s1
          else do
            spend (4 * 2 * Nat.log2 r.w1)
            pure (grep o.op r.w1 s1)
      modify fun st => { st with d := gramInsert st.d (unitOf st.q.core) ⟨0, nmSeq n, o.op, o.bind, key, r.et, r.kind ≠ 0, s⟩ }
      pure (s, r.et)
def gevalRoot (o : GOp) (rowRoot : Bool) (off : Nat) (n : Q) : GW GSum := do
  let x ← geval o rowRoot 64 [] none off n
  pure x.1

/-! ## Views (R211, R212) -/

/-- The root of a query: a rule, and the GRAM record's view when the name is a GRAM: SCAN, SOP, BIAS, L, ETYPE. -/
structure GView where
  root : Q
  gram : Bool
  scan : Bool
  sop : Nat
  bias : Nat
  len : Nat
  et : Nat
deriving DecidableEq, Repr
/-- The record check does not test that SOP fits ETYPE: the spec refuses no such SCAN record, and the values are added as they stand
(log 113). -/
def groot (n : Q) (scanOk : Bool) : GW GView := do
  if nmClass n = 1 then pure ⟨n, false, false, 0, 0, 0, 0⟩
  else
    let e ← gresolve n 0x20
    let base := e.2.2.1
    if base.toNat % 64 ≠ 0 then malformed n 0x15
    else
      let w ← gread n base 8 8
      let w2 := w.getD 2 0
      let root : Q := BitVec.ofNat 128 (w.getD 0 0 + w.getD 1 0 * 2 ^ 64)
      let view := w2 / 2 ^ 60
      let et := w2 / 2 ^ 56 % 16
      let sop := w2 / 2 ^ 51 % 32
      if 1 < view ∨ w2 / 2 ^ 48 % 8 ≠ 0 ∨ (w.drop 5).any (· ≠ 0) ∨ nmClass root ≠ 1 ∨
        (if view = 1 then 1 < sop else sop ≠ 0 ∨ w.getD 3 0 ≠ 0 ∨ w.getD 4 0 ≠ 0) then malformed n 0x12
      else if view = 1 ∧ !scanOk then notLiftable n 0x04
      else do
        let (l, ret, _) ← ginfo root false
        if ret ≠ et then malformed n 0x12
        else if l ≠ w2 % 2 ^ 48 then malformed n 0x13
        else pure ⟨root, true, view = 1, sop, w.getD 3 0, l, et⟩
/-- R235: the operator a prefix is taken under. -/
def sumOp (et : Nat) : Nat := if 2 ≤ et then 1 else 0
def gadd (op : Nat) (acc : Option Nat) (x : Nat) : Nat := match acc with
  | none => x
  | some a => if op = 1 then fadd64 a x else (a + x) % 2 ^ 64
/-- The child that holds an index, after the totals of the children before it (R234, R235). -/
def gkids (tot : Q → GW Nat) (op : Nat) (scan : Bool) : List (Q × Nat) → Nat → Option Nat → GW (Option (Q × Nat × Option Nat))
  | [], _, _ => pure none
  | (c, l) :: cs, i, acc => do
    if i < l then pure (some (c, i, acc))
    else if scan then do
      let t ← tot c
      spend 4
      gkids tot op scan cs (i - l) (some (gadd op acc t))
    else gkids tot op scan cs (i - l) acc
/-- R208: the children of a record with their L: each is of the record's types, and L is what they make. -/
def gchildren (n : Q) (r : GRec) : GW (List (Q × Nat)) := do
  let ls ← r.kids.mapM fun c => do
    let (l, et, rt) ← ginfo c true
    sameType (some (n, r)) et rt
    pure (c, l)
  let sum := (ls.map Prod.snd).sum
  if (if r.kind = 2 then r.w1 * sum else sum) ≠ r.len then malformed n 0x13 else pure ls
/-- R234, R235: the descent to the leaf that holds an index: its record, the index in it, and the sum so far. -/
def gdescend (o : GOp) (scan : Bool) : Nat → List Q → Option (Q × GRec) → Q → Nat → Option Nat → GW (Q × GRec × Nat × Option Nat)
  | 0, _, _, n, _, _ => malformed n 0x11
  | fuel + 1, path, par, n, i, acc => do
    if path.contains n then malformed n 0x10
    let r ← grec n !path.isEmpty
    sameType par r.et r.rt
    let p2 := path ++ [n]
    let sub (c : Q) : GW GSum := do
      let y ← geval o false fuel p2 (some (n, r)) 0 c
      pure y.1
    match r.kind with
    | 0 => if r.len ≤ i then malformed n 0x13 else pure (n, r, i, acc)
    | 1 => do
      let ls ← gchildren n r
      let x ← gkids (fun c => do let s ← sub c; pure s.s1) o.op scan ls i acc
      match x with
      | none => malformed n 0x13
      | some (c, i, acc) => gdescend o scan fuel p2 (some (n, r)) c i acc
    | _ => do
      let (c, l) := (← gchildren n r).headD (0, 0)
      if l = 0 ∨ r.w1 * l ≤ i then malformed n 0x13
      else
        let q := i / l
        let acc ← if scan && q != 0 then do
            let s ← sub c
            spend (8 * Nat.log2 q)
            pure (some (gadd o.op acc (grep o.op q s).s1))
          else pure acc
        gdescend o scan fuel p2 (some (n, r)) c (i % l) acc
/-- An element, raw, or the scan up to and including it. -/
def gelement (root : Q) (o : GOp) (scan : Bool) (i : Nat) (acc : Option Nat) : GW (GRec × Nat × Nat) := do
  let (n, r, k, acc) ← gdescend o scan 64 [] none root i acc
  let sz := etSize r.vt
  if scan then do
    let raw ← gread n (ofN r.w1) sz (k + 1)
    spend (4 * ((k + 16) / 16))
    let vs := raw.map (elemValue r.vt)
    pure (r, raw.getD k 0, (vs.foldl (fun a v => some (gadd o.op a v)) acc).getD 0)
  else do
    let raw ← gread n (ofN (r.w1 + k * sz)) sz 1
    pure (r, raw.getD 0 0, elemValue r.vt (raw.getD 0 0))
/-- R234, R235: the operator, start value and range of an indexed query: none when the index is beyond L. A SCAN is taken under the
record's SOP, also one that does not fit ETYPE (log 113). -/
def gindexed (v : GView) (pfx : Bool) (i : Nat) : GW (Option (GOp × Bool × Option Nat)) := do
  let (l, et, _) ← if v.gram then pure (v.len, v.et, 0) else ginfo v.root false
  if (pfx || v.scan) && et == 8 then notLiftable v.root 0x03
  else if l ≤ i then pure none
  else pure (some (⟨if v.scan then v.sop else sumOp et, 0, 0, 0⟩, pfx || v.scan, if v.scan then some v.bias else none))

/-! ## What each query finds (R229 to R237) -/

def gramRecord (root : Q) (view et sop len total : Nat) : List D :=
  [loHalf root, hiHalf root, ofN (view * 2 ^ 60 + et * 2 ^ 56 + sop * 2 ^ 51 + len), 0, ofN total, 0, 0, 0]
/-- A fault of the walk as a value. -/
def caught {α} (x : GW α) : GW (α ⊕ GFault) := tryCatch (do let y ← x; pure (.inl y)) fun e => match e with
  | .fail f => pure (.inr f)
  | e => throw e
/-- The rows of GMV, in ascending order, until one fails. -/
def gmvRows (o : GOp) (obj : Q) (rows : D) (col : Nat) : Nat → Nat → List D → GW (List D × Option GFault)
  | 0, _, ys => pure (ys, none)
  | n + 1, r, ys => do
    let one : GW D := do
      let w ← gread obj (rows + ofN (16 * r)) 8 2
      let nm : Q := BitVec.ofNat 128 (w.getD 0 0 + w.getD 1 0 * 2 ^ 64)
      if nmClass nm ≠ 1 then malformed nm 0x16
      else do
        let s ← gevalRoot o true col nm
        pure (ofN s.s1)
    match ← caught one with
    | .inl y => gmvRows o obj rows col n (r + 1) (ys ++ [y])
    | .inr f => pure (ys, some f)
/-- R237, R201: x is resolved where a row's lookup first misses, and so fails that row; with no row it is resolved all the same (log 130). -/
def gmv (q : GQuery) : GW GOut := do
  let o : GOp := ⟨10, 0, nmSeq q.name, q.name⟩
  let w ← gread q.name q.area 8 8
  let cnt := w.getD 1 0
  let bad (reason : Nat) : GOut := .rows 0 [] 0 (some ⟨0x12, loHalf q.name, reason, false⟩)
  if 2 ^ 17 ≤ cnt ∨ 65536 < cnt ∨ 2 ^ 48 ≤ w.getD 3 0 ∨ (w.drop 5).any (· ≠ 0) then pure (bad 0x12)
  else if w.getD 0 0 % 16 ≠ 0 ∨ w.getD 2 0 % 8 ≠ 0 then pure (bad 0x15)
  else if cnt = 0 then do
    match ← caught (gbind q.name) with
    | .inl _ => pure (.rows (ofN (w.getD 2 0)) [] 0 none)
    | .inr f => pure (.rows 0 [] 0 (some f))
  else do
    let (ys, e) ← gmvRows o q.name (ofN (w.getD 0 0)) (w.getD 3 0) cnt 0 []
    pure (.rows (ofN (w.getD 2 0)) ys 0 e)
def gquery (q : GQuery) : GW GOut := match q.kind with
  | .new => do
    let e ← gresolve q.name 0x20
    if e.2.2.1.toNat % 128 ≠ 0 then malformed q.name 0x15
    else do
      let w ← gread q.name e.2.2.1 8 1
      let r := recWord0 (w.getD 0 0)
      if !r.word0Ok then malformed q.name 0x12 else pure (.record (gramRecord q.name 0 r.et 0 r.len 0))
  | .len =>
    if nmClass q.name = 1 then do
      let e ← gresolve q.name 0x20
      if e.2.2.1.toNat % 128 ≠ 0 then malformed q.name 0x15
      else do
        let w ← gread q.name e.2.2.1 8 1
        if !(recWord0 (w.getD 0 0)).word0Ok then malformed q.name 0x12 else pure (.g (ofN (w.getD 0 0 % 2 ^ 48)))
    else do
      let e ← gresolve q.name 0x20
      if e.2.2.1.toNat % 64 ≠ 0 then malformed q.name 0x15
      else do
        let w ← gread q.name (e.2.2.1 + 16) 8 1
        let x := w.getD 0 0
        if 1 < x / 2 ^ 60 ∨ 8 < x / 2 ^ 56 % 16 ∨ x / 2 ^ 48 % 8 ≠ 0 ∨ x / 2 ^ 60 < x / 2 ^ 51 % 32 then malformed q.name 0x12
        else pure (.g (ofN (x % 2 ^ 48)))
  | .ev op =>
    if 10 < op then notLiftable q.name 0x01
    else do
      let v ← groot q.name false
      let s ← gevalRoot ⟨op, if op = 9 then q.par.toNat % phashP else if op = 7 then q.par.toNat else 0,
        if op = 10 then nmSeq q.bind else 0, q.bind⟩ false (if op = 10 then q.off else 0) v.root
      pure (.v s)
  | .idx => do
    let v ← groot q.name true
    match ← gindexed v false q.par.toNat with
    | none => pure (.g 0)
    | some (o, scan, acc) => do
      let x ← gelement v.root o scan q.par.toNat acc
      pure (.g (ofN x.2.2))
  | .pfx => do
    let v ← groot q.name false
    match ← gindexed v true q.par.toNat with
    | none => pure (.g 0)
    | some (o, scan, acc) => do
      let x ← gelement v.root o scan q.par.toNat acc
      pure (.g (ofN x.2.2))
  | .scn => do
    let v ← groot q.name false
    let (l, et, _) ← if v.gram then pure (v.len, v.et, 0) else ginfo v.root false
    if et = 8 then notLiftable v.root 0x03
    else do
      let s ← gevalRoot ⟨sumOp et, 0, 0, 0⟩ false 0 v.root
      pure (.record (gramRecord v.root 1 et (sumOp et) l s.s1))
  | .mv => gmv q
  | .rti _ => pure (.g 0)

/-! ## The unit: 8 walkers and a queue of 64 (R225) -/

def gramOf (d : Dev) (tile : Nat) : List (Nat × GQuery) := d.gramQ.filter fun q => unitOf q.2.core = tile
def gramWalking (d : Dev) (tile : Nat) : Nat := ((gramOf d tile).filter fun q => q.2.walking).length
/-- The query is answered or failed: its destinations hear of it, and a walker is free. -/
def gramDone (d : Dev) (id : Nat) : Dev := { d with gramQ := d.gramQ.erase id }
def failGram (d : Dev) (id dt : Nat) (q : GQuery) (f : GFault) : Dev :=
  let tv := if f.mem then faultTval { newReq Dev.reset (.ld false) 0 [] q.dst with pc := q.pc } f.tval else f.tval
  failArr (gramDone d id) id dt ⟨q.pc, f.cause, tv, f.reason, false⟩
/-- R145, R206: a query follows the thread's older acquires, also where the rule-result table answers it. GRTI reads nothing. -/
def GQuery.behind (d : Dev) (id : Nat) (q : GQuery) : Bool := (match q.kind with
  | .rti _ => false
  | _ => true) && acquiring d q.loc id
/-- The next query starts while a walker is free, no shoot-down holds walks (R222), and the unit is not frozen. A GRTI waits for
the walks in progress, and holds those behind it (R238). -/
def gramKick (d : Dev) (tile : Nat) : Dev :=
  if !(d.tile tile).shooting.isEmpty || d.frozenMs.contains (gramMaster tile) then d
  else match (gramOf d tile).find? fun q => !q.2.walking && !q.2.behind d q.1 with
    | none => d
    | some (id, q) =>
      let n := gramWalking d tile
      match q.kind with
      | .rti mode =>
        if n ≠ 0 then d
        else
          let (k, t) := gramRemove (d.tile tile) (if mode = 0 then fun _ => true else gramMatch (if mode = 1 then 1 else 3) (nmSeq q.name))
          ({ d with gramQ := d.gramQ.set id { q with walking := true, out := some (.g (ofN k)) } }.updTile tile fun _ => t).post 600 .grammarWalk [id, 1]
      | _ => if 8 ≤ n then d else ({ d with gramQ := d.gramQ.set id { q with walking := true } }).post 0 .grammarWalk [id, 0]
/-- The stores of a record's words that find journal entries, in order: the words left (R240). -/
def recordStores (m : Mem) (id : Nat) (q : GQuery) : List D → Dev → List D × Dev
  | [], d => ([], d)
  | w :: ws, d => match queryStore m d id q.loc q.core q.pc q.user q.regions { q.parts.getD (7 - ws.length) ⟨q.area, 8, 0, 0, none, 0, 0⟩ with data := w } with
    | some d => recordStores m id q ws d
    | none => (w :: ws, d)
/-- R237, R240: a word of y is decoded, checked and translated as a store's; a reason, or none while the walk has to wait. -/
def rowPart (m : Mem) (d : Dev) (id : Nat) (q : GQuery) (va x : D) : Except (Option Nat) Part :=
  let ctx := rootOf (ctxOf d q.loc)
  if winCode va = 0 then
    if walkHeld m d ctx va.toNat then .error none
    else match firstStage m d ctx va.toNat 1 q.user with
      | .refused c _ => .error (some c)
      | .leaf p w l => .ok ⟨va, 8, 0, x, some p, leafSize l, w⟩
  else match vaultLoc q.core va with
    | none => .error (some 0x06)
    | some l => if protOk (d.owner q.loc id) l 8 1 then .ok ⟨va, 8, 0, x, none, 0, 0⟩ else .error (some 0x07)
/-- The query fails with the fault a store of it met. -/
def failStored (d : Dev) (id dt : Nat) : Dev := (gramDone d id).post dt .loadFaultArrival [id]
def answerGram (d : Dev) (id : Nat) (x : BitVec 6400) : Dev := match d.arrs.get? id with
  | some a => fillArr (gramDone d id) id 6 (a.vals.map fun v => (v.1, x))
  | none => gramDone d id
/-- A walk's end: the stores and the mint of GNEW and GSCN, the stores of GMV, or the answer. GMV stores y row by row, each when the
one before has been performed, and then PROGRESS (R237). -/
def gramEnd (m : Mem) (d : Dev) (id : Nat) (q : GQuery) : Dev :=
  let next (d : Dev) (dt : Nat) (o : GOut) : Dev := ({ d with gramQ := d.gramQ.set id { q with out := some o } }).post dt .grammarWalk [id, 1]
  match q.out with
  | none => d
  | some (.bad f) => failGram d id 6 q f
  | some (.g x) => answerGram d id (x.setWidth 6400)
  | some (.v s) => answerGram d id ((vecSum s).setWidth 6400)
  | some (.record ws) =>
    if queryFailed d id then (if queryStoring d id q.loc then next d 4 (.record ws) else failStored d id 6)
    else
      let (ws, d) := recordStores m id q ws d
      if !ws.isEmpty || queryStoring d id q.loc then next d 4 (.record ws)
      else
        mintRequest { gramDone d id with nameQ := d.nameQ.set id { loc := q.loc, kind := .new false, name := q.name, sel := 0, req := 2, tmpl := 0, arg := q.area, parts := [], pc := q.pc, user := q.user, launch := q.launch, away := false, regions := [] } }
          (dieOf q.core) (.nnew id)
  | some (.rows out ys n err) =>
    if queryStoring d id q.loc then next d 4 (.rows out ys n err)
    -- the row last sent was refused: it is the row that fails
    else if queryFailed d id then next d 0 (.tally (n - 1) none)
    else match ys with
      | [] => next d 0 (.tally n err)
      | y :: ys => match rowPart m d id q (out + ofN (8 * n)) y with
        | .error none => next d 16 (.rows out (y :: ys) n err)
        | .error (some c) => next d 0 (.tally n (some (memFault c (out + ofN (8 * n)))))
        | .ok p => match queryStore m d id q.loc q.core q.pc q.user q.regions p with
          | some d => next d 0 (.rows out ys (n + 1) err)
          | none => next d 4 (.rows out (y :: ys) n err)
  | some (.tally n err) => match queryStore m d id q.loc q.core q.pc q.user q.regions { q.parts.getD 4 ⟨q.area + 32, 8, 0, 0, none, 0, 0⟩ with data := ofN n } with
    | some d => next d 0 (.progress n err)
    | none => next d 4 (.tally n err)
  | some (.progress n err) =>
    if queryStoring d id q.loc then next d 4 (.progress n err)
    else match err with
      | some f => failGram d id 6 q f
      | none => if queryFailed d id then failStored d id 6 else answerGram d id (BitVec.ofNat 6400 n)
/-- A walk is made (phase 0), and ends when its time has passed (phase 1); a query behind an acquire looks for it (phase 2). -/
def execGrammarWalk (s : State) : Out := s.event fun m d =>
  let id := d.arg 0
  match d.gramQ.get? id with
  | none => d
  | some q =>
    let tile := unitOf q.core
    if d.arg 1 = 2 then
      if q.walking then d else if q.behind d id then d.post 4 .grammarWalk [id, 2] else (List.range 8).foldl (fun d _ => gramKick d tile) d
    else if d.arg 1 = 1 then
      let d := gramEnd m d id q
      if (d.gramQ.get? id).isSome then d else (List.range 8).foldl (fun d _ => gramKick d tile) d
    else
      let again (st : GSt) (away : Bool) : Dev :=
        { d with dies := st.d.dies, wbuf := st.d.wbuf, gramQ := d.gramQ.set id { q with away := away } }.post 16 .grammarWalk [id, 0]
      let q := { q with away := false }
      let (r, st) := (gquery q).run ⟨m, d, id, q, 0, none⟩
      let ends (o : GOut) : Dev :=
        let n := match q.kind with
          | .mv => st.cyc / 8
          | _ => st.cyc
        let (x, d) := st.d.draw (if q.kind = .mv then st.cyc + 1 else 1)
        ({ d with gramQ := d.gramQ.set id { q with out := some o } }).post (6 + n + x) .grammarWalk [id, 1]
      match r with
      | .ok o => ends o
      | .error (.fail f) => ends (.bad f)
      | .error .again => again st false
      | .error .away => again st true
      | .error .frozen => abandonArr (gramDone st.d id) id
/-- The query of the thread whose turn it is; with the queue full the turn is lost. -/
def gramIssue (kind : GKind) (dsts : List Dst) (name bind : Q) (par : D) (off : Nat) (area : D) (parts : List Part) : M Unit := fun _ d =>
  let t := d.thread d.cur
  let ca := t.at d.cur
  let tile := unitOf ca
  if 64 ≤ ((gramOf d tile).filter fun q => !q.2.walking).length then .error .lose
  else
    let (id, d) := pendArr d d.cur dsts
    let q : GQuery :=
        { loc := d.cur, core := ca, kind := kind, name := name, bind := bind, par := par, off := off, area := area, parts := parts, dst := dsts.headD .none, pc := t.pc, user := !t.priv, launch := t.launch, walking := false, away := false, regions := [], out := none }
    let d := gramKick { d with arrs := d.arrs.map fun a => if a.1 = id then (a.1, { a.2 with gram := true }) else a, gramQ := d.gramQ.set id q } tile
    .ok ((), if q.behind d id then d.post 4 .grammarWalk [id, 2] else d)

/-! ## The instructions -/

/-- R195, R226: a class the instruction does not take traps, and so does a foreign name. The spec gives no order of the two; the
model tests the class first (log 111). -/
def takeName (cls : List Nat) (n : Q) : M Unit := do
  if !cls.contains (nmClass n) then trap 0x10 (loHalf n) (hiHalf n) else pure ()
  checkForeign n
def shG (a : BitVec 5) (m : Bool) (more : List Src) (long : List (BitVec 5)) : Shape :=
  { gate := .unit, srcs := [.g a m, .g (pairOf a) m] ++ more, long := long }
/-- R240: a record area or block is decoded, checked and translated at issue, as a store's address is. -/
def recordArea (va : D) : M (List Part) := do
  windowAlign va 64 0
  let ws := (List.range 8).map fun k => (k, va + ofN (8 * k), 0)
  let xs ← reachAll 8 1 (ws.map fun w => w.2.1)
  pure (partsOf 8 ws xs)
/-- The name is tested before the area's window, alignment, protection and translation: the model's order (log 111). -/
def newView (kind : GKind) (cls : List Nat) (d a b : BitVec 5) : M Unit := do
  let n ← gpair a
  let area ← gv b
  takeName cls n
  let ps ← recordArea area
  gramIssue kind (pairDst d) n 0 0 0 area ps
  adv
def execGnew (d a b : BitVec 5) (m n : Bool) (s : State) : Out := s.run (.gnew d a b m n) (shG a m [.g b n] [d, pairOf d]) (newView .new [1] d a b)
def execGscn (d a b : BitVec 5) (m n : Bool) (s : State) : Out := s.run (.gscn d a b m n) (shG a m [.g b n] [d, pairOf d]) (newView .scn [1, 2] d a b)
def execGlen (d a : BitVec 5) (m : Bool) (s : State) : Out := s.run (.glen d a m) (shG a m [] [d]) (do
  let n ← gpair a
  takeName [1, 2] n
  gramIssue .len [.g d] n 0 0 0 0 []
  adv)
def gevSrcs (b : BitVec 5) (n : Bool) (l : BitVec 5) : List Src :=
  if l = 7 ∨ l = 9 then [.g b n] else if l = 10 then [.g b n, .g (b + 1) n, .g (b + 2) n] else []
def execGev (d a b : BitVec 5) (m n : Bool) (l : BitVec 5) (s : State) : Out :=
  s.run (.gev d a b m n l) { gate := .grmVec, srcs := [.g a m, .g (pairOf a) m] ++ gevSrcs b n l, also := [.v d] } (do
    let nm ← gpair a
    let par ← if l = 7 ∨ l = 9 then gv b else pure 0
    let bind ← if l = 10 then gpair b else pure 0
    let col ← if l = 10 then gv (b + 2) else pure 0
    takeName [1, 2] nm
    if l = 10 then takeName [3] bind else pure ()
    gramIssue (.ev l.toNat) [.v d] nm bind par col.toNat 0 []
    adv)
/-- R228, R232: an exact refusal. -/
def refuseLift (l : BitVec 5) (reason : Nat) : M Unit := if reason = 0 then pure () else trap 0x11 (l.setWidth 64) (ofN reason)
/-- R228: what GCMB refuses: a code above 10, lane 2 that differs or names a type the operator is not defined on. -/
def combReason (op : Nat) (s t : GSum) : Nat :=
  if 10 < op then 1
  else if op = 8 ∨ op = 9 then 0
  else if s.s2 ≠ t.s2 then 2
  else if op = 10 then (if 7 < s.s2 then 2 else 0) else liftReason op s.s2
def execGcmb (d a b l : BitVec 5) (s : State) : Out := s.run (.gcmb d a b l) { gate := .grmVec, srcs := [.v a, .v b], also := [.v d] } (do
  let x ← vv a
  let y ← vv b
  refuseLift l (combReason l.toNat (sumVec x) (sumVec y))
  wv d (vecSum (gcomb l.toNat (sumVec x) (sumVec y)))
  adv)
def execGofs (d a b : BitVec 5) (m n : Bool) (l : BitVec 5) (s : State) : Out :=
  s.run (.gofs d a b m n l) { gate := .grmVec, srcs := [.v d, .g a m] ++ (if l = 9 then [.g b n] else []) } (do
    let x ← vv d
    let o ← gv a
    let base ← if l = 9 then gv b else pure 0
    refuseLift l (if 10 < l.toNat then 1 else if l = 10 then 3 else 0)
    wv d (vecSum (place l.toNat (sumVec x) o.toNat base.toNat))
    adv)
def indexed (kind : GKind) (d a b : BitVec 5) : M Unit := do
  let n ← gpair a
  let i ← gv b
  takeName [1, 2] n
  gramIssue kind [.g d] n 0 i 0 0 []
  adv
def execGidx (d a b : BitVec 5) (m n : Bool) (s : State) : Out := s.run (.gidx d a b m n) (shG a m [.g b n] [d]) (indexed .idx d a b)
def execGpfx (d a b : BitVec 5) (m n : Bool) (s : State) : Out := s.run (.gpfx d a b m n) (shG a m [.g b n] [d]) (indexed .pfx d a b)
/-- The name is tested before the block, as in `newView` (log 111). -/
def execGmv (d a b : BitVec 5) (m n : Bool) (s : State) : Out := s.run (.gmv d a b m n) (shG a m [.g b n] [d]) (do
  let nm ← gpair a
  let blk ← gv b
  takeName [3] nm
  let ps ← recordArea blk
  gramIssue .mv [.g d] nm nm 0 0 blk ps
  adv)
def execGrtiAll (d : BitVec 5) (s : State) : Out := s.run (.grtiAll d) { gate := .unit, long := [d] } (do
  gramIssue (.rti 0) [.g d] 0 0 0 0 0 []
  adv)
/-- GRTI names a RULE by its SEQ and does not resolve it, so a GONE or NEVER name removes what is bound to it as any other does
(log 131). -/
def execGrtiRule (d a : BitVec 5) (m : Bool) (s : State) : Out := s.run (.grtiRule d a m) (shG a m [] [d]) (do
  let n ← gpair a
  takeName [1] n
  gramIssue (.rti 1) [.g d] n 0 0 0 0 []
  adv)
def execGrtiObj (d a : BitVec 5) (m : Bool) (s : State) : Out := s.run (.grtiObj d a m) (shG a m [] [d]) (do
  let n ← gpair a
  takeName [3] n
  gramIssue (.rti 2) [.g d] n 0 0 0 0 []
  adv)
/-- R239: the counter of a selector. The counters of the slot wait for the thread's earlier queries. -/
def gramCounter (d : Dev) (loc sel : Nat) : D :=
  let t := d.thread loc
  let tl := d.tile (unitOf (coreOf loc))
  match sel with
  | 0 | 8 => ofN t.hits
  | 1 | 9 => ofN t.misses
  | 7 => ofN (gramValid tl)
  | k => ofN (tl.gcount.toArray.getD (k - 2) 0)
def readCounter (sel : Nat) (d : BitVec 5) : M Unit := do
  let dv ← getD
  if (sel < 2 ∨ 7 < sel) ∧ (dv.arrs.any fun a => a.2.loc = dv.cur && mine dv dv.cur a.1 && a.2.gram) then lose
  else longG 32 d (gramCounter dv dv.cur sel)
/-- R227: GRTQ walks nothing and is answered in 32 cycles: it takes no place in the unit's queue of 64 (log 132). -/
def execGrtq (d : BitVec 5) (k1 : BitVec 3) (s : State) : Out := s.run (.grtq d k1) { gate := .unit, long := [d] } (do
  readCounter k1.toNat d
  adv)
def execGrtqClear (d : BitVec 5) (k1 : Bool) (s : State) : Out := s.run (.grtqClear d k1) { gate := .unit, long := [d] } (do
  readCounter (8 + b2n k1) d
  modMe fun t => if k1 then { t with misses := 0 } else { t with hits := 0 }
  adv)

/-! ## Shoot-downs at a tile (R222) -/

/-- R202, R321: a tile is halted when it has halted threads and no others (log 52). -/
def tileHalted (d : Dev) (tile : Nat) : Bool :=
  let ts := d.threads.filter fun x => kindOf (coreOf x.1) != 2 && unitOf (coreOf x.1) = tile && x.2.live
  !ts.isEmpty && ts.all fun x => x.2.st = .halted
/-- The walks in progress have completed, and the tile is not halted: the entries go, the tile acknowledges, and held walks proceed. -/
def execShootdownAcknowledge (s : State) : Out := s.event fun _ d =>
  let sid := d.arg 0
  let tile := d.arg 1
  if gramWalking d tile ≠ 0 || tileHalted d tile then d.post 4 .shootdownAcknowledge [sid, tile]
  else
    let d := match d.shoots.get? sid with
      | some x => d.updTile tile fun t => (gramRemove t (gramMatch (nmClass x.name) (nmSeq x.name))).2
      | none => d
    let d := d.updTile tile fun t => { t with shooting := t.shooting.erase sid }
    let (lo, ex) := shootLeg (((d.shoots.get? sid).map fun x => x.key).getD 0) tile
    (List.range 8).foldl (fun d _ => gramKick d tile) (d.postRange lo ex .shootdownAckAtEntry [sid, tile])

end Sys2Proof.Machine
end

