-- ==== Sys2Proof/Machine/Engine.lean ====
section
/-! DEFINITION. The commands of the copy engines and of the conversion engine (R266 to R282): acceptance, what each performs,
completion. Engine `e` of tile T is copy engine 0 or 1, or 2, the conversion engine. -/
namespace Sys2Proof.Machine

/-! ## Formats (R264) -/

/-- Bits of an element of a conversion code. -/
def cvBits (c : Nat) : Nat := ([64, 32, 16, 16, 8, 8, 4, 64, 32, 16, 8, 4, 64, 32, 16, 8].getD c 8)
def cvFmt (c : Nat) : Fp.Fmt := match c with
  | 0 => Fp.f64
  | 1 => Fp.f32
  | 2 => Fp.f16
  | 3 => Fp.bf16
  | 4 => Fp.e4m3
  | 5 => Fp.e5m2
  | _ => Fp.e2m1
def cvSigned (c : Nat) : Bool := c < 12
/-- The value of an element: floating point, or an integer. -/
def cvVal (c x : Nat) : Fp.Val := if c < 7 then (cvFmt c).decode x else intVal (cvBits c) (!cvSigned c) x
/-- R279: one element, by VCVT's rules (R123, R72, R73). -/
def cvElem (sf df : Nat) (mode : Fp.Mode) (u : Nat) (scale : Option Nat) (x : Nat) : Nat × Fp.Flags :=
  match scale with
  | some s => Fp.scaled (cvFmt df) mode u (cvVal sf x) (Fp.f32.decode s)
  | none =>
    let w := cvBits df
    -- R123: rows 8 to 11 zero-extend
    let i : Int := if cvSigned sf && (df < 7 || cvSigned df) then sLane (cvBits sf) x else x
    match decide (sf < 7), decide (df < 7) with
    | true, true => Fp.convert (cvFmt df) mode u (cvVal sf x)
    | true, false => let (n, f) := Fp.toIntR w (cvSigned df) mode u (cvVal sf x)
      (wrapLane w n, f)
    | false, true => Fp.ofInt (cvFmt df) mode u i
    | false, false => (wrapLane w i, 0)
/-- Bits of an element of a matrix format in memory (R281). -/
def mxBits (f : Nat) : Nat := if f = 0 ∨ f = 3 then 4 else 8 * mxCell f

/-! ## A command's fields and ranges -/

def ECmd.r (c : ECmd) (k : Nat) : Nat := (c.stage.toArray.getD k 0).toNat
def ECmd.rows (c : ECmd) : Nat := c.r 1 + 1
def ECmd.fec (c : ECmd) : Bool := c.r 4 / 8 % 2 = 1
def ECmd.xpnd (c : ECmd) : Bool := c.r 4 / 16 % 2 = 1
def ECmd.fez (c : ECmd) : Nat := c.r 4 / 32 % 4
def ECmd.sfmt (c : ECmd) : Nat := c.r 4 / 4096 % 16
def ECmd.dfmt (c : ECmd) : Nat := c.r 4 / 256 % 16
def ECmd.rnd (c : ECmd) : Nat := c.r 4 / 32 % 8
def ECmd.sblk (c : ECmd) : Nat := c.r 4 / 8 % 4
def ECmd.wcol (c : ECmd) : Bool := c.r 4 / 4 % 2 = 1
/-- Addresses of row `k` of the source and of the destination. -/
def ECmd.src (c : ECmd) (k : Nat) : D := c.a + ofN (k * c.r 2)
def ECmd.dst (c : ECmd) (k : Nat) : D := c.b + ofN (k * c.r 3)
/-- Elements of a block that share a scale, and blocks of a row. -/
def ECmd.block (c : ECmd) : Nat := if c.cmd = 2 then 128 else match c.sblk with
  | 1 => 32
  | 2 => 128
  | _ => max (c.r 0) 1
def ECmd.nblk (c : ECmd) : Nat := (c.r 0 + c.block - 1) / c.block
def ECmd.isScaled (c : ECmd) : Bool := c.cmd = 2 || c.sblk != 0
/-- CPC: chunks, and the bytes of the offset table. -/
def ECmd.chunks (c : ECmd) : Nat := c.r 0 / 4096
/-- A range: first address, bytes, need: 0 read, 1 write, 2 both. -/
abbrev ERange := D × Nat × Nat
def eachRow (c : ECmd) (f : Nat → List ERange) : List ERange := (List.range c.rows).flatMap f
/-- R271, R277: the list of bad chunks of a CPY from a COMP region, as far as it can be filled. -/
def ECmd.badList (c : ECmd) : List ERange := if c.r 6 = 0 then [] else [(ofN (c.r 5), 8 * min (c.r 6) (((c.rows - 1) * c.r 2 + c.r 0) / 4096 + 2), 1)]
/-- R267, R271 to R281: the ranges checked at acceptance. Of a CPC image that is expanded, the table; its chunks are checked as
they are read, and GEXP's elements as they are written. -/
def ECmd.ranges (c : ECmd) : List ERange :=
  if c.conv then
    let row (bits : Nat) : Nat := (c.r 0 * bits + 7) / 8
    if c.cmd = 1 then
      (eachRow c fun k => [(c.src k, row (mxBits c.sfmt), 0)]) ++
      (if c.wcol then (List.range (c.r 0)).map fun n => (c.b + ofN (512 * n), 512, 1)
       else (List.range c.rows).map fun k => (c.b + ofN (64 * mxPlanes c.sfmt * k), 64 * mxPlanes c.sfmt, 1))
    else
      (eachRow c fun k => [(c.src k, row (cvBits c.sfmt), 0), (c.dst k, row (cvBits c.dfmt), 1)]) ++
      (if c.isScaled then [(ofN (c.r 5), 4 * c.rows * c.nblk, if c.cmd = 2 then 1 else 0)] else [])
  else match c.cmd with
  | 0 => (eachRow c fun k => [(c.src k, c.r 0, 0), (c.dst k, c.r 0, 1)]) ++ (if c.comp then c.badList else [])
  | 2 => eachRow c fun k => [(c.a + ofN (k * c.r 3), c.r 0, 1)]
  | 3 => [(c.a, c.r 0, 2), (c.b, (c.chunks + 31) / 32 * 8, 1)]
  | 4 =>
    if c.xpnd then [(c.a, 8 * c.chunks, 0), (c.b, c.r 0, 1)] ++ (if c.r 6 = 0 then [] else [(ofN (c.r 5), 8 * min (c.r 6) c.chunks, 1)])
    else [(c.a, c.r 0, 0), (c.b, max (c.r 7) (8 * c.chunks), 1)]
  | _ => []

/-! ## Acceptance (R267 to R269) -/

/-- A range in no window, leaving its window, or in SLICE from a steward core. -/
def noWindow (c : ECmd) (r : ERange) : Bool := r.2.1 != 0 &&
  (let e := r.1 + ofN (r.2.1 - 1)
   winCode r.1 ≠ winCode e || (winCode r.1 ≠ 0 && ((vaultLoc c.core r.1).isNone || (vaultLoc c.core e).isNone)))
/-- R134: the pairs grant some bytes of a vault location, which do not touch the rule-result table (R130). -/
def pairsGrant (c : ECmd) (l : Nat × Nat) (n need : Nat) : Bool :=
  let ok (k : Nat) : Bool := (List.range 8).any fun i => pairPasses (c.lpb.toArray.getD i 0) (c.lpl.toArray.getD i 0) (dieOff l) n k
  l.2 + n ≤ 0x1E00000 && (need = 1 || ok 0) && (need = 0 || ok 1)
/-- The pieces of a range within 8-byte words. -/
def wordPieces (va : D) (n : Nat) : List (D × Nat) :=
  (List.range ((va.toNat % 8 + n + 7) / 8)).map fun i =>
    let lo := max (va.toNat % 8) (8 * i)
    let hi := min (va.toNat % 8 + n) (8 * i + 8)
    (va + ofN lo - ofN (va.toNat % 8), hi - lo)
def pieceOk (c : ECmd) (need : Nat) (p : D × Nat) : Bool := winCode p.1 = 0 || match vaultLoc c.core p.1 with
  | some l => pairsGrant c l p.2 need
  | none => false
def unprotected (c : ECmd) (r : ERange) : Bool := (wordPieces r.1 r.2.1).any fun p => !pieceOk c r.2.2 p
/-- R271: where a range lies, as far as that is known without translation: a space and an offset. -/
def knownPlace (c : ECmd) (va : D) : Nat × Nat := if winCode va = 0 then (0, va.toNat) else match vaultLoc c.core va with
  | some l => (1, l.1 * 2 ^ 25 + l.2)
  | none => (2, va.toNat)
def rangesOverlap (c : ECmd) (x y : ERange) : Bool :=
  let (s, a) := knownPlace c x.1
  let (t, b) := knownPlace c y.1
  s = t && x.2.1 != 0 && y.2.1 != 0 && overlaps a x.2.1 b y.2.1
/-- Reason 0x02: a staging value that is refused. -/
def badStaging (c : ECmd) : Bool :=
  if c.conv then match c.cmd with
    | 0 => c.rnd = 0 || c.rnd = 7 || (c.sblk ≠ 0 && !(4 ≤ c.dfmt && c.dfmt ≤ 6)) || (c.r 0 % 2 = 1 && (cvBits c.sfmt = 4 || cvBits c.dfmt = 4))
    | 1 => 6 < c.sfmt || 512 / (if c.wcol then 2 else mxCell c.sfmt) < c.r 0 || (c.wcol && 512 / mxCell c.sfmt < c.rows)
    | _ => c.rnd = 0 || c.rnd = 7 || !(1 ≤ c.sfmt && c.sfmt ≤ 3) || !(c.dfmt = 4 || c.dfmt = 5) || c.r 0 % 128 ≠ 0
  else match c.cmd with
    | 2 => c.fez = 3
    | 3 | 4 => c.r 0 % 4096 ≠ 0
    | _ => false
/-- Reason 0x05. -/
def misaligned (c : ECmd) : Bool :=
  let all (n : Nat) (l : List Nat) : Bool := l.any fun x => x % n ≠ 0
  if c.conv then
    let s := max 1 ((if c.cmd = 1 then mxBits c.sfmt else cvBits c.sfmt) / 8)
    let t := max 1 (cvBits c.dfmt / 8)
    -- R281 states no rule for the stride of a single row
    all s (if c.cmd = 1 && c.rows = 1 then [c.a.toNat] else [c.a.toNat, c.r 2]) || (c.cmd ≠ 1 && (all t [c.b.toNat, c.r 3] || c.r 5 % 4 ≠ 0))
  else match c.cmd with
    | 0 => (c.fec && all 8 [c.a.toNat, c.b.toNat, c.r 0, c.r 2, c.r 3]) || (c.comp && c.r 6 ≠ 0 && c.r 5 % 8 ≠ 0)
    | 2 => all 8 [c.a.toNat, c.r 0] || (c.r 1 ≠ 0 && c.r 3 % 8 ≠ 0)
    | 3 => c.a.toNat % 4096 ≠ 0 || c.b.toNat % 8 ≠ 0
    | 4 => all 8 [c.a.toNat, c.b.toNat] || (c.xpnd && c.r 6 ≠ 0 && c.r 5 % 8 ≠ 0)
    | _ => false
/-- R281: a vault destination is wholly in PLANE regions. -/
def planeRange (d : Dev) (c : ECmd) (r : ERange) : Bool := winCode r.1 = 0 || r.2.2 = 0 ||
  (wordPieces r.1 r.2.1).all fun p => match vaultLoc c.core p.1 with
    | some (t, o) => regionAttr (d.tile t) o = 1
    | none => false
/-- An address in each 4 KiB chunk that a range touches. -/
def chunksOf (va : D) (n : Nat) : List D := if n = 0 then [] else
  va :: (List.range ((va.toNat % 4096 + n - 1) / 4096)).map fun i => ofN ((va.toNat / 4096 + 1 + i) * 4096)
/-- A row of a CPY's source touches a COMP region of a vault window. -/
def compSource (d : Dev) (c : ECmd) : Bool := !c.conv && c.cmd = 0 && (List.range c.rows).any fun k => (chunksOf (c.src k) (c.r 0)).any fun va =>
  match vaultLoc c.core va with
  | some (t, o) => regionAttr (d.tile t) o = 2
  | none => false
/-- The reason acceptance refuses the command with. -/
def refusalOf (d : Dev) (c : ECmd) : Option Nat :=
  let rs := c.ranges
  if badStaging c then some 0x02
  else if misaligned c then some 0x05
  else if rs.any (noWindow c) || (!c.conv && c.cmd = 5 && noWindow c (c.b, 1, 1)) then some 0x06
  else if rs.any (unprotected c) then some 0x07
  else if !c.conv && c.cmd = 0 && (List.range c.rows).any (fun i => (List.range c.rows).any fun k => rangesOverlap c (c.src i, c.r 0, 0) (c.dst k, c.r 0, 1)) then some 0x40
  else if c.conv && c.cmd = 1 && rs.any (fun r => !planeRange d c r) then some 0x45
  else none
/-- The step that performs a command. -/
def engStep (c : ECmd) : Instr := if c.conv then (match c.cmd with
    | 0 => .convertRun
    | 1 => .planeLayoutRun
    | _ => .quantiseRun)
  else match c.cmd with
    | 0 => .copyRun
    | 1 => .restripeRun
    | 2 => .fillRun
    | 3 => .scrubRun
    | 4 => if c.xpnd then .expandRun else .compressRun
    | _ => .grammarExpandRun
def engMaster (tile e : Nat) : Nat := 64 * tile + 52 + e
def Dev.engine (d : Dev) (tile e : Nat) : Engine := (d.tile tile).engines.toArray.getD e ⟨0, none, none⟩
def Dev.updEngine (d : Dev) (tile e : Nat) (f : Engine → Engine) : Dev :=
  d.updTile tile fun t => { t with engines := t.engines.setIfInBounds e (f (t.engines.toArray.getD e ⟨0, none, none⟩)) }
/-- The head of a queue is tried in each cycle until it has been sent and an engine takes it (phase 0). -/
def engineKick (d : Dev) (tile : Nat) (conv : Bool) : Dev :=
  match (if conv then (d.tile tile).convQ else (d.tile tile).copyQ) with
  | [] => d
  | c :: _ =>
    let args := [tile, b2n conv, c.id, 0]
    if d.events.any fun e => e.step = engStep c && e.args = args then d else d.post 0 (engStep c) args
/-- R268: a command enters its queue; with the queue full the turn is lost. -/
def engineCommand (conv : Bool) (cmd : Nat) (tag : BitVec 8) (x y : D) (name : Q) : M Unit := fun _ d =>
  let loc := d.cur
  let ca := coreOf loc
  let tile := unitOf ca
  let t := d.thread loc
  let tl := d.tile tile
  if (if conv then 16 ≤ tl.convQ.length else 32 ≤ tl.copyQ.length) then .error .lose
  else
    let (id, d) := d.newId
    let c : ECmd :=
      { id := id, loc := loc, core := ca, thread := t.name, conv := conv, cmd := cmd, tag := tag.toNat, a := x, b := y, name := name,
        stage := if conv then t.cvs else t.cps, ctx := rootOf (ctxOf d loc), user := !t.priv, lpb := t.lpb, lpl := t.lpl, refuse := none,
        prog := 0, bads := [], comp := false, slot := 0, base := 0, size := 0, old := 0, status := 0, reason := 0, w1 := 0, w2 := 0, w3 := 0, regions := [] }
    let c := { c with comp := compSource d c }
    let c := { c with refuse := refusalOf d c }
    -- R279: a command under SR takes its counters
    let d := if conv && cmd ≠ 1 && c.rnd = 6 then
        d.updThread loc fun t => { t with cvs := t.cvs.set 8 (t.cvs.get 8 + ofN (c.rows * ((c.r 0 + 63) / 64))) }.touch 48
      else d
    let d := if isCompute ca then d.updRow (rowKeyOf ca) fun r => { r with engc := r.engc + 1 } else d.updTile tile fun t => { t with sengc := t.sengc + 1 }
    let d := d.updTile tile fun t => if conv then { t with convQ := t.convQ ++ [c] } else { t with copyQ := t.copyQ ++ [c] }
    .ok ((), engineKick d tile conv)
def shCmd (a b : BitVec 5) (m n : Bool) : Shape := { gate := .unit, srcs := [.g a m, .g b n] }
def engineIssue (conv : Bool) (cmd : Nat) (a b : BitVec 5) (t : BitVec 8) : M Unit := do
  let x ← gv a
  let y ← gv b
  engineCommand conv cmd t x y 0
  adv
def execCpy (a b : BitVec 5) (m n : Bool) (t : BitVec 8) (s : State) : Out := s.run (.cpy a b m n t) (shCmd a b m n) (engineIssue false 0 a b t)
def execCpr (a b : BitVec 5) (m n : Bool) (t : BitVec 8) (s : State) : Out :=
  s.run (.cpr a b m n t) { shCmd a b m n with priv := true } (engineIssue false 1 a b t)
def execCpz (a b : BitVec 5) (m n : Bool) (t : BitVec 8) (s : State) : Out := s.run (.cpz a b m n t) (shCmd a b m n) (engineIssue false 2 a b t)
def execCps (a b : BitVec 5) (m n : Bool) (t : BitVec 8) (s : State) : Out := s.run (.cps a b m n t) (shCmd a b m n) (engineIssue false 3 a b t)
/-- CPC: CFLG.XPND, not the word, says which way. -/
def execCpcCompress (a b : BitVec 5) (m n : Bool) (t : BitVec 8) (s : State) : Out :=
  s.run (.cpcCompress a b m n t) (shCmd a b m n) (engineIssue false 4 a b t)
def execCpcExpand (a b : BitVec 5) (m n : Bool) (t : BitVec 8) (s : State) : Out :=
  s.run (.cpcExpand a b m n t) (shCmd a b m n) (engineIssue false 4 a b t)
def execGexp (a b : BitVec 5) (m n : Bool) (t : BitVec 8) (s : State) : Out :=
  s.run (.gexp a b m n t) { gate := .unit, srcs := [.g a m, .g (pairOf a) m, .g b n] } (do
    let name ← gpair a
    let y ← gv b
    engineCommand false 5 t 0 y name
    adv)
def execCvt (a b : BitVec 5) (m n : Bool) (t : BitVec 8) (s : State) : Out := s.run (.cvt a b m n t) (shCmd a b m n) (engineIssue true 0 a b t)
/-- CVP: VFMT.WCOL, not the word, says which layout. -/
def execCvpAct (a b : BitVec 5) (m n : Bool) (t : BitVec 8) (s : State) : Out := s.run (.cvpAct a b m n t) (shCmd a b m n) (engineIssue true 1 a b t)
def execCvpWcol (a b : BitVec 5) (m n : Bool) (t : BitVec 8) (s : State) : Out := s.run (.cvpWcol a b m n t) (shCmd a b m n) (engineIssue true 1 a b t)
def execCvq (a b : BitVec 5) (m n : Bool) (t : BitVec 8) (s : State) : Out := s.run (.cvq a b m n t) (shCmd a b m n) (engineIssue true 2 a b t)

/-! ## Completion (R269) -/

/-- The command leaves its engine, 12 cycles before its COMPLETION is posted. A frozen engine keeps it (R267). -/
def engineEnd (d : Dev) (tile e : Nat) (c : ECmd) : Dev :=
  let d := d.updEngine tile e fun x => { x with cur := none }
  if d.frozenMs.contains (engMaster tile e) then d.updEngine tile e fun x => { x with kept := some c }
  else
    let w0 := c.tag + e * 256 + c.cmd * 65536 + c.status * 2 ^ 24 + c.reason * 2 ^ 32
    engineKick (d.post 12 .engineCompletion [tile, e, c.loc, c.thread.toNat, w0, c.w1.toNat, c.w2.toNat, c.w3.toNat]) tile c.conv
/-- A thawed engine posts the completion it kept, and takes commands again. -/
def engineThaw (d : Dev) (tile e : Nat) : Dev := match (d.engine tile e).kept with
  | some c => engineEnd (d.updEngine tile e fun x => { x with kept := none }) tile e c
  | none => engineKick d tile (e = 2)
def execEngineCompletion (s : State) : Out := s.event fun m d =>
  let tile := d.arg 0
  let e := d.arg 1
  let loc := d.arg 2
  let msg : Msg := ⟨(List.range 4).map fun i => ofN (d.arg (4 + i)), 2, slotOf loc, loc, none⟩
  if outFull d msg then d.post 16 .engineCompletion d.args else
  let d := d.updEngine tile e fun x => { x with done := x.done + 1 }
  let d := if isCompute (coreOf loc) then
      (d.updRow (rowKeyOf (coreOf loc)) fun r => { r with engc := r.engc - 1 }).post 0 .rowFree [rowKeyOf (coreOf loc)]
    else d.updTile tile fun t => { t with sengc := t.sengc - 1 }
  postNamed m d (BitVec.ofNat 128 (d.arg 3)) msg

/-! ## The engines' accesses (R267, R270) -/

/-- Why a unit of a command is not done: it is tried again later, or the command stops. -/
inductive EStop where
  | again (d : Dev)
  /-- `wrote` counts the bytes that the unfinished unit has written, `bads` are the bad chunks it has recorded -/
  | stop (d : Dev) (reason : Nat) (w3 : D) (wrote : Nat) (bads : List Nat)
  /-- GEXP: how the grammar unit failed -/
  | gram (d : Dev) (f : GFault)
abbrev ERes := Except EStop (Dev × ECmd)
def stopAt (d : Dev) (reason : Nat) (w3 : D) (wrote : Nat) : EStop := .stop d reason w3 wrote []
/-- R277: a unit that stops after it has recorded bad chunks keeps them. -/
def ECmd.recorded {α} (c : ECmd) : Except EStop α → Except EStop α
  | .error (.stop d r w n l) => .error (.stop d r w n (if l.isEmpty then c.bads else l))
  | x => x
def ECmd.uctx (c : ECmd) (d : Dev) : UCtx :=
  ⟨c.loc, c.core, engMaster (unitOf c.core) (if c.conv then 2 else if ((d.engine (unitOf c.core) 1).cur.map (·.id)) = some c.id then 1 else 0), c.ctx, c.user, c.regions⟩
def eStop (d : Dev) (u : UCtx) (wr : Bool) (va : D) : UStop → EStop
  | .fail r => stopAt d r va 0
  | .held => stopAt d 0x42 va 0
  | .badChunk _ => stopAt d 0x0D va 0
  | .badNode k => stopAt (unitStopped d u wr (.badNode k)) 0x0A va 0
  | .bad k => stopAt (unitStopped d u wr (.bad k)) 0x0D va 0
  | .denied a x => stopAt (unitStopped d u wr (.denied a x)) 0x09 va 0
  | x => .again (unitStopped d u wr x)
/-- What a unit that is tried again leaves: its page requests. -/
def keepPages (d d' : Dev) : Dev :=
  (List.range 4).foldl (fun d k => if (d'.die k).pageQ = (d.die k).pageQ then d else d.updDie k fun x => { x with pageQ := (d'.die k).pageQ, pageOvf := (d'.die k).pageOvf }) d
/-- R342: the code words that a unit has read are corrected. -/
def eFix (m : Mem) (d : Dev) (c : ECmd) (va : D) (n : Nat) : Dev :=
  (List.range ((va.toNat % 32 + n + 31) / 32)).foldl (fun d i => unitFix m d (c.uctx d) (if i = 0 then va else va - ofN (va.toNat % 32) + ofN (32 * i))) d
/-- Bytes of an arbitrary range, little-endian. -/
def unitBytes (m : Mem) (d : Dev) (u : UCtx) (va : D) : Nat → Except UStop Nat
  | 0 => .ok 0
  | n + 1 => (unitRead m d u va 1).bind fun x => (unitBytes m d u (va + 1) n).map fun y => x + 256 * y
def eRead (m : Mem) (d : Dev) (c : ECmd) (va : D) (n : Nat) : Except EStop Nat :=
  match (if n ≤ 8 ∧ va.toNat % 8 + n ≤ 8 then unitRead m d (c.uctx d) va n else unitBytes m d (c.uctx d) va n) with
  | .ok x => .ok x
  | .error e => .error (eStop d (c.uctx d) false va e)
/-- Whole words from an 8-aligned address. -/
def eWords (m : Mem) (d : Dev) (c : ECmd) (va : D) : Nat → Except EStop (List D)
  | 0 => .ok []
  | n + 1 => (eRead m d c va 8).bind fun x => (eWords m d c (va + 8) n).map fun xs => ofN x :: xs
/-- A write within one word. -/
def eWrite (m : Mem) (d : Dev) (c : ECmd) (va : D) (n x : Nat) : Except EStop Dev :=
  match unitWrite m d (c.uctx d) noThread va n x with
  | .ok d => .ok d
  | .error e => .error (eStop d (c.uctx d) true va e)
/-- Writes in order; a stop tells the bytes written before it. -/
def eWriteAll (m : Mem) (c : ECmd) : List (D × Nat × Nat) → Dev → (done : Nat := 0) → Except EStop Dev
  | [], d, _ => .ok d
  | (va, n, x) :: l, d, k => match eWrite m d c va n x with
    | .ok d => eWriteAll m c l d (k + n)
    | .error (.stop d r w j l) => .error (.stop d r w (j + k) l)
    | .error e => .error e
/-- The writes of some bytes, word by word. -/
def byteWrites (va : D) (n x : Nat) : List (D × Nat × Nat) :=
  (wordPieces va n).map fun p => (p.1, p.2, x / 256 ^ (p.1 - va).toNat % 256 ^ p.2)
/-- The key of a word, for its full/empty bit. -/
def eKey (m : Mem) (d : Dev) (c : ECmd) (va : D) (wr : Bool) : Except EStop Nat := match unitPlace m d (c.uctx d) va wr with
  | .ok (.key k) => .ok k
  | .ok (.comp t o) => .ok (vaultKey t o)
  | .ok (.peer _) | .ok (.span ..) => .error (stopAt d 0x1C va 0)
  | .error e => .error (eStop d (c.uctx d) wr va e)
/-- R277: a bad chunk is counted, and listed while the list has room. -/
def recordBad (m : Mem) (d : Dev) (c : ECmd) (k : Nat) : ERes :=
  if c.bads.contains k then .ok (d, c)
  else
    let n := c.bads.length
    let c' := { c with bads := c.bads ++ [k], w2 := ofN (n + 1), status := 2 }
    let r : ERange := (ofN (c.r 5 + 8 * n), 8, 1)
    if c.r 6 ≤ n then .ok (d, c')
    else if noWindow c r then .error (stopAt d 0x06 r.1 0)
    else if unprotected c r then .error (stopAt d 0x07 r.1 0)
    else (eWrite m d c r.1 8 k).map fun d => (d, c')

/-! ## CPY, CPZ, CPS (R271 to R273). Unit `k` of a CPY or CPZ is a word piece of the destination, of a CPS a 4 KiB chunk. -/

/-- Pieces of a row whose first byte is at `va`, and piece `k` counted over all rows. -/
def rowPieces (va : D) (n : Nat) : Nat := (va.toNat % 8 + n + 7) / 8
def pieceAt (c : ECmd) (dst : Nat → D) (k : Nat) : Option (Nat × D × Nat) :=
  let rec go : Nat → Nat → Nat → Option (Nat × D × Nat)
    | 0, _, _ => none
    | f + 1, row, k =>
      let n := rowPieces (dst row) (c.r 0)
      if k < n then ((wordPieces (dst row) (c.r 0))[k]?).map fun p => (row, p.1, p.2) else go f (row + 1) (k - n)
  go c.rows 0 k
/-- Source bytes of a CPY; those of a chunk that fails its check are zeros, and its index from the first one is recorded. -/
def copyBytes (m : Mem) : Nat → D → Dev → ECmd → Except EStop (Nat × Dev × ECmd)
  | 0, _, d, c => .ok (0, d, c)
  | n + 1, va, d, c => do
    let u := c.uctx d
    let (x, d, c) ← match unitRead m d u va 1 with
      | .ok x => .ok (x, d, c)
      | .error (.badChunk k) =>
        let first := match unitPlace m d u c.a false with
          | .ok (.comp t o) => ((compPlace (tileAt c.regions d t) o).map fun x => x.2.1).getD 0
          | _ => 0
        (recordBad m d c (k - first)).map fun r => (0, r.1, r.2)
      | .error e => .error (eStop d u false va e)
    let (y, d, c) ← c.recorded (copyBytes m n (va + 1) d c)
    pure (x + 256 * y, d, c)
def copyUnit (m : Mem) (d : Dev) (c : ECmd) : ERes := match pieceAt c c.dst c.prog with
  | none => .ok (d, c)
  | some (row, va, n) => do
    let sa := c.src row + (va - c.dst row)
    let (x, d, c) ← copyBytes m n sa d c
    c.recorded do
      let d ← eWrite m (eFix m d c sa n) c va n x
      let c := { c with w1 := c.w1 + ofN n }
      if c.fec then
        let ks ← eKey m d c sa false
        let kd ← eKey m d c va true
        pure (setFe d kd (feEmpty m d ks), c)
      else pure (d, c)
def fillUnit (m : Mem) (d : Dev) (c : ECmd) : ERes := match pieceAt c (fun k => c.a + ofN (k * c.r 3)) c.prog with
  | none => .ok (d, c)
  | some (_, va, n) => do
    let d ← eWrite m d c va n c.b.toNat
    let c := { c with w1 := c.w1 + ofN n }
    if c.fez ≠ 0 then
      let k ← eKey m d c va true
      pure (setFe d k (c.fez = 2), c)
    else pure (d, c)
/-- Where the code words of a chunk stand. -/
def scrubKeys (m : Mem) (d : Dev) (c : ECmd) (va : D) : Except EStop (List Nat) := (List.range 128).mapM fun i => eKey m d c (va + ofN (32 * i)) false
/-- R273: corrected code words are rewritten, the address of an uncorrectable one is queued; the bitmap is written first, so that a
chunk is scrubbed whole or not at all. -/
def scrubUnit (m : Mem) (d : Dev) (c : ECmd) : ERes := do
  let ks ← scrubKeys m d c (c.a + ofN (4096 * c.prog))
  let good := ks.filter fun k => (rdB m d (errKey k)).toNat = 1
  let bad := ks.filter fun k => 1 < (rdB m d (errKey k)).toNat
  let x := !good.isEmpty
  let y := !bad.isEmpty
  let wa := c.b + ofN (c.prog / 32 * 8)
  let old ← eRead m d c wa 8
  let sh := 2 * (c.prog % 32)
  let d ← eWrite m d c wa 8 (setField (ofN old) (sh + 1) sh (b2n x + 2 * b2n y)).toNat
  let d := good.foldl (fun d k => correctErr m d c.loc k) d
  let d := bad.foldl (fun d k => pushFault d (keyDie k) (ofN (keyPhys k)) 2 (c.uctx d).master) d
  pure (d, { c with slot := good.length, w1 := c.w1 + 4096, w2 := c.w2 + ofN (b2n x + b2n y * 2 ^ 32), status := if y then 2 else c.status })

/-! ## CPC (R277). A unit is a chunk. -/

/-- The image so far ends at `base` bytes; a chunk of zeros is absent. -/
def compressUnit (m : Mem) (d : Dev) (c : ECmd) : ERes := do
  let sa := c.a + ofN (4096 * c.prog)
  let ws ← eWords m d c sa 512
  let x := encodeChunk ws
  let off := max c.base.toNat (8 * c.chunks)
  if !x.isEmpty && c.r 7 < off + 8 * x.length then .error (stopAt d 0x41 (c.b + ofN off) 0)
  else
    let d ← eWriteAll m c (((x.zipIdx).map fun w => (c.b + ofN (off + 8 * w.2), 8, w.1.toNat)) ++
      [(c.b + ofN (8 * c.prog), 8, if x.isEmpty then 0 else (tableEntry (8 * x.length) off).toNat)]) (eFix m d c sa 4096)
    pure (d, { c with base := ofN (off + 8 * x.length), w1 := c.w1 + ofN (8 + 8 * x.length) })
/-- The chunk's words, none when it is bad. Its bytes are checked against the pairs as they are read. -/
def imageChunk (m : Mem) (d : Dev) (c : ECmd) (k : Nat) : Except EStop (Dev × Option (List D)) := do
  let ta := c.a + ofN (8 * k)
  let e := ofN (← eRead m d c ta 8)
  let d := eFix m d c ta 8
  let len := fieldN e 63 48
  let va := c.a + ofN (fieldN e 47 0)
  if len = 0 then pure (d, some (List.replicate 512 0))
  else if len % 8 ≠ 0 ∨ va.toNat % 8 ≠ 0 then pure (d, none)
  else if noWindow c (va, len, 0) then .error (stopAt d 0x06 va 0)
  else if unprotected c (va, len, 0) then .error (stopAt d 0x07 va 0)
  else match eWords m d c va (len / 8) with
    | .ok ws => pure (eFix m d c va len, decodeChunk len ws)
    | .error (.stop d 0x0D _ _ _) => pure (d, none)
    | .error x => .error x
def expandUnit (m : Mem) (d : Dev) (c : ECmd) : ERes := do
  let (d, ws) ← imageChunk m d c c.prog
  let (d, c) ← if ws.isNone then recordBad m d c c.prog else pure (d, c)
  let d ← c.recorded <| eWriteAll m c (((ws.getD (List.replicate 512 0)).zipIdx).map fun w => (c.b + ofN (4096 * c.prog + 8 * w.2), 8, w.1.toNat)) d
  pure (d, { c with w1 := c.w1 + 4096 })

/-! ## GEXP (R275). A unit is an element. -/

def ECmd.gquery (c : ECmd) (i : Nat) : GQuery :=
  { loc := c.loc, core := c.core, kind := .idx, name := c.name, bind := 0, par := ofN i, off := 0, area := 0, parts := [], dst := .none, pc := 0,
    user := c.user, launch := none, walking := true, away := false, regions := c.regions, out := none }
/-- The name of a GEXP is a RULE or a GRAM of this part. -/
def expandName (name : Q) : GW Unit :=
  if nmClass name ≠ 1 ∧ nmClass name ≠ 2 then throw (.fail ⟨0x10, loHalf name, 0, false⟩)
  else if nmChip name ≠ Config.chipTag.toNat then throw (.fail ⟨0x20, loHalf name, 0x20, false⟩)
  else pure ()
/-- The element size, and L. -/
def expandHead (name : Q) : GW (Nat × Nat) := do
  expandName name
  let v ← groot name true
  let (l, et, _) ← if v.gram then pure (v.len, v.et, 0) else ginfo v.root false
  if v.scan && et == 8 then notLiftable v.root 0x03
  else if v.scan && v.sop == 1 then pure (8, l)
  else if et == 8 then do
    let r ← grec v.root false
    pure (etSize r.rt, l)
  else pure (etSize et, l)
/-- An element and its size, none at or beyond L. -/
def expandElement (name : Q) (i : Nat) : GW (Option (Nat × Nat)) := do
  expandName name
  let v ← groot name true
  match ← gindexed v false i with
  | none => pure none
  | some (o, scan, acc) =>
    let (r, raw, x) ← gelement v.root o scan i acc
    if !scan then pure (some (raw, etSize r.vt)) else if o.op = 1 then pure (some (x, 8))
    else pure (some (x % 2 ^ (8 * etSize v.et), etSize v.et))
/-- Run a part of a walk for a command, under its protection pairs: what it finds, and the cycles of R227. -/
def gexpRun {α} (m : Mem) (d : Dev) (c : ECmd) (i : Nat) (w : GW α) : Except EStop (α × Dev × Nat) :=
  let tile := unitOf c.core
  if !(d.tile tile).shooting.isEmpty || d.frozenMs.contains (gramMaster tile) then .error (.again d)
  else
    let t := d.thread c.loc
    let (r, st) := w.run ⟨m, d.setThread c.loc { t with lpb := c.lpb, lpl := c.lpl }, c.id, c.gquery i, 0, none⟩
    let d' := st.d.updThread c.loc fun x => { x with lpb := t.lpb, lpl := t.lpl }
    match r with
    | .error .again | .error .away => .error (.again (keepPages d d'))
    | .error .frozen => .error (stopAt d' 0x09 (loHalf c.name) 0)
    | .error (.fail f) => .error (.gram d' f)
    | .ok x => .ok (x, d', st.cyc)
/-- R275, R269: the destination is refused for its alignment, its window or its protection before anything is written; and the walk's
time. -/
def gexpRefusal (m : Mem) (d : Dev) (c : ECmd) : Except EStop (Option Nat × Nat) :=
  (gexpRun m d c 0 (expandHead c.name)).map fun ((size, l), _, n) =>
    let r : ERange := (c.b, size * min (c.r 9) (l - c.r 8), 1)
    (if c.b.toNat % size ≠ 0 then some 0x05 else if noWindow c r then some 0x06 else if unprotected c r then some 0x07 else none, n)
def grammarUnit (m : Mem) (d : Dev) (c : ECmd) : ERes :=
  match gexpRun m d c (c.r 8 + c.prog) (expandElement c.name (c.r 8 + c.prog)) with
  | .error e => .error e
  | .ok (none, d, _) => .ok (d, { c with prog := c.r 9 })
  | .ok (some (x, n), d, _) => (eWrite m d c (c.b + ofN (n * c.prog)) n x).map fun d => (d, { c with w1 := c.w1 + 1 })

/-! ## CVT, CVQ, CVP (R279 to R281) -/

/-- Element `i` of a packed row at an address. -/
def readElem (m : Mem) (d : Dev) (c : ECmd) (row : D) (bits i : Nat) : Except EStop Nat :=
  if bits = 4 then (eRead m d c (row + ofN (i / 2)) 1).map fun x => x / 16 ^ (i % 2) % 16 else eRead m d c (row + ofN (i * (bits / 8))) (bits / 8)
def readElems (m : Mem) (d : Dev) (c : ECmd) (row : D) (bits : Nat) : Nat → Nat → Except EStop (List Nat)
  | 0, _ => .ok []
  | n + 1, i => (readElem m d c row bits i).bind fun x => (readElems m d c row bits n (i + 1)).map fun xs => x :: xs
/-- NV, DZ, OF, UF, NX from bit 4 down. -/
def flagWord (f : Fp.Flags) : D := ofN (16 * b2n (f.getLsbD 0) + 8 * b2n (f.getLsbD 1) + 4 * b2n (f.getLsbD 2) + 2 * b2n (f.getLsbD 3) + b2n (f.getLsbD 4))
/-- R66, R279: the random word of element `i` of row `r`. -/
def ECmd.random (c : ECmd) (r i : Nat) : Nat :=
  Fp.srWord (ofN (c.r 8 + r * ((c.r 0 + 63) / 64) + i / 64)) (c.stage.toArray.getD 6 0) (c.stage.toArray.getD 7 0) (i % 64)
/-- Elements `i` to `i + n - 1` of a row, converted with a scale and packed. -/
def convertRange (m : Mem) (d : Dev) (c : ECmd) (r i n : Nat) (scale : Option Nat) : ERes := do
  let xs ← readElems m d c (c.src r) (cvBits c.sfmt) n i
  let ys := (xs.zipIdx).map fun x => cvElem c.sfmt c.dfmt (Fp.modeOf c.rnd 0) (c.random r (i + x.2)) scale x.1
  let w := cvBits c.dfmt
  let d ← eWriteAll m c (byteWrites (c.dst r + ofN (i * w / 8)) (n * w / 8) (packLanes w (ys.map Prod.fst))) (eFix m d c (c.src r + ofN (i * cvBits c.sfmt / 8)) ((n * cvBits c.sfmt + 7) / 8))
  pure (d, { c with w1 := c.w1 + ofN n, w2 := c.w2 ||| flagWord (ys.foldl (fun a y => a ||| y.2) 0) })
/-- CVT: a unit is an element, or two that share a byte. -/
def ECmd.per (c : ECmd) : Nat := if cvBits c.dfmt = 4 then 2 else 1
def convertUnit (m : Mem) (d : Dev) (c : ECmd) : ERes := do
  let k := c.prog * c.per
  let r := k / max (c.r 0) 1
  let i := k % max (c.r 0) 1
  let scale (j : Nat) : Except EStop (Option Nat) :=
    if c.isScaled then (eRead m d c (ofN (c.r 5 + 4 * (r * c.nblk + j / c.block))) 4).map some else .ok none
  let s ← scale i
  convertRange m d c r i c.per s
/-- CVQ: a unit is a block. -/
def quantiseUnit (m : Mem) (d : Dev) (c : ECmd) : ERes := do
  let r := c.prog / max c.nblk 1
  let b := c.prog % max c.nblk 1
  let xs ← readElems m d c (c.src r) (cvBits c.sfmt) 128 (128 * b)
  let mag (x : Nat) : Nat := (Fp.convert Fp.f32 .rne 0 (cvVal c.sfmt x)).1 % 2 ^ 31
  let amax := xs.foldl (fun a x => max a (mag x)) 0
  let one := (Fp.ofInt Fp.f32 .rne 0 1).1
  let fmax := (Fp.ofInt Fp.f32 .rne 0 (if c.dfmt = 4 then 448 else 57344)).1
  let nan := 0x7F800000 ≤ amax
  let s := if nan then Fp.f32.nan else if amax = 0 then one else (Fp.div Fp.f32 .rtz 0 (Fp.f32.decode fmax) (Fp.f32.decode amax)).1
  let scale := if nan then Fp.f32.nan else (Fp.div Fp.f32 .rne 0 (Fp.f32.decode one) (Fp.f32.decode s)).1
  let d ← eWrite m d c (ofN (c.r 5 + 4 * c.prog)) 4 scale
  convertRange m d c r (128 * b) 128 (some s)
/-- R243: plane `p` of a row of elements, as `planes` lays it out: sign, exponent from the top, significand from the top; integers
from bit 0 up. -/
def planeBit (f x p : Nat) : Nat :=
  if mxInt f then x / 2 ^ p % 2
  else
    let t := mxFmt f
    let e := x / 2 ^ t.mw % 2 ^ t.ew
    if p = 0 then x / 2 ^ (t.ew + t.mw) % 2
    else if p ≤ t.ew then e / 2 ^ (t.ew - p) % 2
    else if p = t.ew + 1 then b2n (e != 0)
    else x / 2 ^ (t.mw - (p - t.ew - 1)) % 2
def planesOf (f : Nat) (xs : List Nat) : Nat :=
  (List.range (mxPlanes f)).foldl (fun a p => a + (xs.zipIdx).foldl (fun a x => a + planeBit f x.1 p * 2 ^ x.2) 0 * 2 ^ (512 * p)) 0
/-- CVP: a unit is a row of planes, or a column. -/
def layoutUnit (m : Mem) (d : Dev) (c : ECmd) : ERes := do
  let bits := mxBits c.sfmt
  if c.wcol then
    let cell := 8 * mxCell c.sfmt
    let xs ← (List.range c.rows).mapM fun r => readElem m d c (c.src r) bits c.prog
    let d := (List.range c.rows).foldl (fun d r => eFix m d c (c.src r + ofN (c.prog * bits / 8)) ((bits + 7) / 8)) d
    let d ← eWriteAll m c (byteWrites (c.b + ofN (512 * c.prog)) 512 (packLanes cell xs)) d
    pure (d, { c with w1 := c.w1 + 512 })
  else
    let n := 64 * mxPlanes c.sfmt
    let xs ← readElems m d c (c.src c.prog) bits (c.r 0) 0
    let d ← eWriteAll m c (byteWrites (c.b + ofN (n * c.prog)) n (planesOf c.sfmt xs)) (eFix m d c (c.src c.prog) ((c.r 0 * bits + 7) / 8))
    pure (d, { c with w1 := c.w1 + ofN n })

/-! ## Running a command (R268, R282) -/

/-- Units of a command; done by each step, and the cycles between steps. -/
def ECmd.units (c : ECmd) : Nat :=
  if c.conv then match c.cmd with
    | 0 => c.rows * c.r 0 / c.per
    | 1 => if c.wcol then c.r 0 else c.rows
    | _ => c.rows * c.nblk
  else match c.cmd with
    | 0 => (List.range c.rows).foldl (fun n k => n + rowPieces (c.dst k) (c.r 0)) 0
    | 2 => c.rows * (c.r 0 / 8)
    | 3 | 4 => c.chunks
    | _ => c.r 9
def ECmd.pace (c : ECmd) : Nat × Nat :=
  if c.conv then match c.cmd with
    | 0 => (64 / c.per, 1)
    | 1 => (1, if c.wcol then 1 else (64 * mxPlanes c.sfmt + 511) / 512)
    | _ => (1, 4)
  else match c.cmd with
    | 0 | 2 => (16, 1)
    | 3 => (1, 16)
    | 4 => (1, if c.xpnd then 32 else 64)
    | _ => (16, 1)
/-- An address in each 64 KiB page of a GLOBAL range. -/
def pages (r : ERange) : List D := if winCode r.1 ≠ 0 ∨ r.2.1 = 0 then [] else
  r.1 :: (List.range ((r.1.toNat % 65536 + r.2.1 - 1) / 65536)).map fun i => ofN ((r.1.toNat / 65536 + 1 + i) * 65536)
/-- R155: a walk of the command's ranges has to wait. -/
def startHeld (m : Mem) (d : Dev) (c : ECmd) : Bool := c.refuse.isNone && (c.ranges.flatMap pages).any fun va => walkHeld m d c.ctx va.toNat
/-- The tier of the page of a GLOBAL address, 2 where there is none. -/
def ECmd.tierOf (m : Mem) (d : Dev) (c : ECmd) (va : D) : Nat := match (walk m d c.ctx va.toNat 0 c.user).2 with
  | .leaf p _ _ => plTier p
  | _ => 2
/-- Where each chunk of a GLOBAL range stands in a vault. -/
def vaultChunks (m : Mem) (d : Dev) (c : ECmd) (wr : Bool) (r : ERange) : List (D × Except UStop UPlace) :=
  if winCode r.1 ≠ 0 then [] else ((chunksOf r.1 r.2.1).filter fun va => c.tierOf m d va = 2).map fun va => (va, unitPlace m d (c.uctx d) va wr)
/-- R281, R271: the GLOBAL ranges whose region decides: a CVP's destination, a CPY's source. -/
def ECmd.regional (c : ECmd) : List ERange :=
  if c.conv then (if c.cmd = 1 then c.ranges.filter fun r => r.2.2 = 1 else [])
  else if c.cmd = 0 && !c.comp && c.r 6 ≠ 0 then eachRow c fun k => [(c.src k, c.r 0, 0)] else []
/-- R142: a page of such a range is not resident, and the start waits for it; or it has to be waited for otherwise. -/
def startWaits (m : Mem) (d : Dev) (c : ECmd) : Option UStop := (c.regional.flatMap (vaultChunks m d c c.conv)).findSome? fun x => match x.2 with
  | .error .wait => some .wait
  | .error (.absent die va page) => some (.absent die va page)
  | _ => none
/-- R271 to R273, R281: what is refused when the command starts: a tier without full/empty bits or scrubbing, a page that is no
PLANE region, and the list of bad chunks of a GLOBAL source in a COMP region. -/
def startReason (m : Mem) (d : Dev) (c : ECmd) : Option Nat :=
  let off (rs : List ERange) : Bool := (rs.flatMap pages).any fun va => c.tierOf m d va = 1 || c.tierOf m d va = 3
  let plane (va : D) : Bool := match unitPlace m d (c.uctx d) va true with
    | .ok (.key k) => 4 ≤ k / 2 ^ 56 && k / 2 ^ 56 < 68 && regionAttr (tileAt c.regions d (k / 2 ^ 56 - 4)) (k % 2 ^ 56) = 1
    | .ok _ => false
    | .error _ => true
  match c.refuse with
  | some x => some x
  | none =>
    if c.conv then
      if c.regional.any (fun r => winCode r.1 = 0 && (chunksOf r.1 r.2.1).any fun va => c.tierOf m d va != 2 || !plane va) then some 0x45 else none
    else if (c.cmd = 0 && c.fec || c.cmd = 2 && c.fez ≠ 0) && off c.ranges then some 0x1C
    else if c.cmd = 3 && off [(c.a, c.r 0, 0)] then some 0x1C
    else if (c.regional.flatMap (vaultChunks m d c false)).any (fun x => match x.2 with | .ok (.comp ..) => true | _ => false) then
      if c.r 5 % 8 ≠ 0 then some 0x05 else if c.badList.any (noWindow c) then some 0x06 else if c.badList.any (unprotected c) then some 0x07 else none
    else none
/-- Up to `n` units; one that has to wait is tried again whole: the machine, the command as far as it got, and why it did not go on. -/
def doUnits (act : Mem → Dev → ECmd → ERes) (m : Mem) (total : Nat) : Nat → Dev → ECmd → Except (EStop × ECmd) (Dev × ECmd)
  | 0, d, c => .ok (d, c)
  | n + 1, d, c =>
    if total ≤ c.prog then .ok (d, c)
    else match act m d c with
      | .ok (d, c) => doUnits act m total n d { c with prog := c.prog + 1 }
      | .error (.again d') => .error (.again (keepPages d d'), c)
      | .error x => .error (x, c)
/-- R277, R281: word 1 counts what a stopped unit had written: elements of a CVT or CVQ, else bytes. -/
def ECmd.stopped (c : ECmd) (reason : Nat) (w3 : D) (wrote : Nat) : ECmd :=
  { c with status := 3, reason := reason, w3 := w3, w1 := c.w1 + ofN (if c.conv && c.cmd ≠ 1 then wrote * 8 / cvBits c.dfmt else wrote) }
/-- R277: word 2 counts the bad chunks of a unit that stopped too. -/
def ECmd.listed (c : ECmd) (l : List Nat) : ECmd := if l.isEmpty then c else { c with bads := l, w2 := ofN l.length }
def setCur (d : Dev) (tile e : Nat) (c : ECmd) : Dev := d.updEngine tile e fun x => { x with cur := some c }
/-- Phase 0: the head of the queue, once sent, is taken by a free engine. -/
def engineTake (d : Dev) (tile : Nat) (conv : Bool) (id : Nat) : Dev :=
  let q := if conv then (d.tile tile).convQ else (d.tile tile).copyQ
  match q with
  | [] => d
  | c :: rest =>
    if c.id ≠ id then d
    else match (if conv then [2] else [0, 1]).find? fun e => (d.engine tile e).cur.isNone && (d.engine tile e).kept.isNone && !d.frozenMs.contains (engMaster tile e) with
      | none => if (if conv then [2] else [0, 1]).all fun e => (d.engine tile e).cur.isNone then d else d.post 1 (engStep c) [tile, b2n conv, id, 0]
      | some e =>
        if unreleased d id c.loc 0 true then d.post 1 (engStep c) [tile, b2n conv, id, 0]
        else
          let d := d.updTile tile fun t => if conv then { t with convQ := rest } else { t with copyQ := rest }
          engineKick ((setCur d tile e c).post 8 (engStep c) [tile, e, id, 1]) tile conv
/-- A command of the generic kind: phase 1 starts it; phase 2 does some units when their time has passed. -/
def engineRun (act : Mem → Dev → ECmd → ERes) (m : Mem) (d : Dev) : Dev :=
  let tile := d.arg 0
  let e := d.arg 1
  if d.arg 3 = 0 then engineTake d tile (e = 1) (d.arg 2)
  else match (d.engine tile e).cur with
    | none => d
    | some c =>
      let next (d : Dev) (c : ECmd) (dt : Nat) : Dev := (setCur d tile e c).post dt (engStep c) [tile, e, c.id, 2]
      if c.id ≠ d.arg 2 then d
      else if d.arg 3 = 1 then
        if startHeld m d c then d.post 16 (engStep c) d.args
        else match (if c.refuse.isSome then none else startWaits m d c) with
        | some x => (unitStopped d (c.uctx d) c.conv x).post 16 (engStep c) d.args
        | none => match startReason m d c with
        | some r => engineEnd d tile e { c with status := 1, reason := r }
        | none => match (if !c.conv && c.cmd = 5 then gexpRefusal m d c else .ok (none, 0)) with
        | .ok (some r, _) => engineEnd d tile e { c with status := 1, reason := r }
        | .error (.again d) => (setCur d tile e c).post 16 (engStep c) [tile, e, c.id, 1]
        | .error (.stop d r w n _) => engineEnd d tile e (c.stopped r w n)
        | .error (.gram d f) => engineEnd d tile e { c with status := 3, reason := f.cause, w2 := ofN f.reason, w3 := f.tval }
        | .ok (none, n) =>
          let first := if c.units = 0 then 0 else c.pace.2
          if !c.conv && (c.cmd = 0 || c.cmd = 2) then
            -- R282: CPY and CPZ take the latency of their first access
            let place := if winCode c.a ≠ 0 then (none, 0) else match (walk m d c.ctx c.a.toNat 0 c.user).2 with
              | .leaf p _ l => (some p, leafSize l)
              | _ => (none, 0)
            let (n, d) := partLatency d c.core ⟨c.a, 8, 0, 0, place.1, place.2, 0⟩
            next d c (n + first)
          else if !c.conv && c.cmd = 5 then
            -- R282: GEXP takes the time of its walk to the first element
            next d c (first + n + match gexpRun m d c (c.r 8) (expandElement c.name (c.r 8)) with
              | .ok (_, _, k) => k
              | .error _ => 0)
          else next d c first
      else if c.units ≤ c.prog then engineEnd d tile e c
      else
        let (k, dt) := c.pace
        let d' := match doUnits act m c.units k d c with
          | .ok (d, c) =>
            -- R282: each word that CPS corrects adds a write
            let more := if !c.conv && c.cmd = 3 then c.slot else 0
            if c.units ≤ c.prog ∧ more = 0 then engineEnd d tile e c else next d c ((if c.units ≤ c.prog then 0 else dt) + more)
          | .error (.again d, c) => next d c 16
          | .error (.stop d r w n l, c) => engineEnd d tile e ((c.listed l).stopped r w n)
          | .error (.gram d f, c) => engineEnd d tile e { c with status := 3, reason := f.cause, w2 := ofN f.reason, w3 := f.tval }
        serveWaiters m d'.feWait.length d'
def execCopyRun (s : State) : Out := s.event (engineRun copyUnit)
def execFillRun (s : State) : Out := s.event (engineRun fillUnit)
def execScrubRun (s : State) : Out := s.event (engineRun scrubUnit)
def execCompressRun (s : State) : Out := s.event (engineRun compressUnit)
def execExpandRun (s : State) : Out := s.event (engineRun expandUnit)
def execGrammarExpandRun (s : State) : Out := s.event (engineRun grammarUnit)
def execConvertRun (s : State) : Out := s.event (engineRun convertUnit)
def execQuantiseRun (s : State) : Out := s.event (engineRun quantiseUnit)
def execPlaneLayoutRun (s : State) : Out := s.event (engineRun layoutUnit)

end Sys2Proof.Machine
end

