-- ==== Sys2Proof/Machine/Tasks.lean ====
section
/-! DEFINITION. Threads and their slots: starting and ending a thread (R31, R104, R284, R305), the keeper's instructions (R285,
R286), active messages (R28, R287, R288), the work distributor's query (R297), TBND and ENCL. -/
namespace Sys2Proof.Machine

/-! ## Starting a thread -/

/-- A write dropped at a port, a dropped acknowledgement (R346). -/
def countErr (d : Dev) (die : Nat) : Dev := d.updDie die fun x => { x with errcnt := x.errcnt + 1 }
/-- R285: the answer of SPWN: a status or a name. -/
def spwnAnswer (d : Dev) (id dt : Nat) (lo hi : D) : Dev := match d.arrs.get? id with
  | some a => fillArr d id dt ((a.vals.zipIdx).map fun v => (v.1.1, (if v.2 = 0 then lo else hi).setWidth 6400))
  | none => d
/-- R28, R287: the inbox entry of an active message. -/
def activeEntry (r : StartReq) : Msg := ⟨[r.pc, r.a1, r.a2, r.w3], 3, 0, r.sender, none⟩
/-- A start that fails when the mint serves it. -/
def startFailed (d : Dev) (r : StartReq) (st : Nat) : Dev := match r.how with
  | .spwn => (r.arr.map fun id => spwnAnswer d id 23 (ofN st) 0).getD d
  | .message => postMsg d (coreOf r.loc) (activeEntry r)
  | .loader => d.post 16 .rowLoadDone [rowKeyOf (coreOf r.loc), coreOf r.loc]
  | .steward => countErr d (dieOf (coreOf r.loc))
/-- R31: the thread as it starts. -/
def startState (d : Dev) (r : StartReq) (name : Q) (i from_ : Nat) : Thread :=
  let c := d.core (coreOf r.loc)
  let v := Thread.vacant
  { v with
    st := .run, name := name, pc := r.pc, g := (v.g.set 1 (.ofVal r.a1)).set 2 (.ofVal r.a2), rnc := r.rnc,
    lrp := (if isCompute (coreOf r.loc) then (d.row (rowKeyOf (coreOf r.loc))).lrp else 0), tvec := c.dtv, lpb := r.lpb, lpl := r.lpl,
    priv := r.priv, hgrp := r.hgrp, pool := some i, area := areaOf c.sab i, src := areaOf c.sab i, launch := r.launch, start := r.how,
    dirty := BitVec.allOnes 160, startAt := max r.earliest from_, after := r.after }
/-- The compute core at a position of a row. -/
def rowCore (k p : Nat) : Nat := mkCore (k / 12) (k % 12 * 4 + p) 0
/-- R298: a keeper of a co-start has its name; with the last of them all start. -/
def keeperNamed (d : Dev) (loc : Nat) (l : Option Q) : Dev :=
  { d with costarts := d.costarts.filterMap fun c =>
      if some c.launch ≠ l then some c
      else
        let ks := loc :: c.keepers
        if (c.groups.flatMap fun g => g.2.2).all fun k => (List.range 4).all fun p => ks.contains (rowCore k p * 16) then none else some { c with keepers := ks } }
/-- The mint serves a start: the name's entry is written and the slot holds the thread. True when a sequence is taken. -/
def startThread (m : Mem) (d : Dev) (r : StartReq) : Bool × Dev :=
  let ca := coreOf r.loc
  let die := dieOf ca
  let seq := d.mint.next
  if d.mint.stopped then (false, startFailed d r 5)
  else if (d.thread r.loc).st != .vacant || !bitN (d.core ca).sab 0 then (false, startFailed d r 1)
  else match freeEntryFor m d die 4 seq, freePool d ca with
  | none, _ => (false, startFailed d r 5)
  | _, none => (false, startFailed d r 1)
  | some k, some i =>
    let name := mkName 4 seq
    let owner := ownerOf r.launch
    let d := writeEntry d k name (mkWord2 1 4 false false 0 owner) 0 (ofN r.loc) 0 0 (ofN owner)
    let (x, d) := d.draw 41
    let d := d.setThread r.loc (startState d r name i (d.cycle + (if r.how = .spwn then 23 + x else 0)))
    let d := if isCompute ca then d.updRow (rowKeyOf ca) fun w => { w with live := w.live + 1 } else d
    let d := if r.how = .loader then keeperNamed d r.loc r.launch else d
    (true, (r.arr.map fun id => spwnAnswer d id (23 + x) (loHalf name) (hiHalf name)).getD d)

/-! ## Ending a thread -/

/-- R23: no keeper of the row lives or is about to start. -/
def keepersEnded (d : Dev) (k : Nat) : Bool := (List.range 4).all fun p =>
  let ca := rowCore k p
  !(d.thread (ca * 16)).live && !((pendingStarts d ca).any fun r => slotOf r.loc = 0) &&
  !(d.events.any fun e => e.step = .rowLoadDone && e.args = [k, ca])
/-- R23: RUN to DRAIN; a draining row is looked at for FREE. -/
def rowDrain (d : Dev) (k : Nat) : Dev :=
  let d := if (d.row k).state = 2 && keepersEnded d k then d.updRow k fun r => { r with state := 3 } else d
  d.post 0 .rowFree [k]
/-- A launch's record changes. -/
def updLaunch (d : Dev) (n : Q) (f : Launch → Launch) : Dev :=
  { d with launches := d.launches.map fun (l : Launch) => if l.name = n then f l else l }
/-- What a thread has in flight is discarded: it waits for nothing more. Its stores and messages, and atomic operations already
sent, still take effect. -/
def discardProducers (d : Dev) (loc : Nat) : Dev :=
  { d with
    arrs := d.arrs.filter (fun a => !(a.2.loc = loc && mine d loc a.1)),
    reqs := d.reqs.filter (fun r => !(r.2.loc = loc && mine d loc r.1 && r.2.ent.isNone)),
    feWait := d.feWait.filter (fun id => match d.reqs.get? id with
      | some r => !(r.loc = loc && mine d loc id && r.ent.isNone)
      | none => false),
    gramQ := d.gramQ.filter (fun q => !(q.2.loc = loc && mine d loc q.1)),
    nameQ := d.nameQ.filter (fun q => !(q.2.loc = loc && mine d loc q.1 && q.2.kind = .cas)),
    chanQ := d.chanQ.filter (fun x => x.2 != (loc, true)),
    fwd := d.fwd.filter (fun f => f.1 != loc),
    resvHold := d.resvHold.filter (fun v => v.2.loc != loc) }
/-- The slot loses its thread and its quad waits for it no longer. A LENT slot whose lent thread ends by itself is FAULTED again,
with the thread it belongs to (log 82). -/
def vacate (d : Dev) (loc : Nat) : Dev :=
  let d := if isCompute (coreOf loc) then d.updRow (rowKeyOf (coreOf loc)) fun r => { r with live := r.live - 1 } else d
  match d.lentOut.get? loc with
  | some (_, u) => { (d.setThread loc { u with st := if u.st = .halted then .halted else .faulted }) with lentOut := d.lentOut.erase loc }
  | none => leaveQuad { d with threads := d.threads.erase loc } loc
/-- R104 steps 3 and 4, R284: the thread of a slot ends, with a cause when system software ends it. -/
def endThread (m : Mem) (d : Dev) (loc : Nat) (value : D) (cause : Nat) : Dev :=
  let t := d.thread loc
  let ca := coreOf loc
  let die := dieOf ca
  let d := leaveBarriers (releaseArray (dropResv (withdraw d loc) loc) loc) loc
  let d := discardProducers d loc
  let d := if isCompute ca || kindOf ca = 1 then d.updTile (unitOf ca) fun tl => { tl with walks := tl.walks.filter fun w => w.loc != loc } else d
  let d := vacate d loc
  let d := if t.start = .spwn then (dyingName m d die t.name).updCore ca fun c => { c with exits := c.exits.set (slotOf loc) ⟨value, t.name, cause⟩ }
    else freeName m d die t.name
  let d := match t.launch with
    | some l => if cause = 0 then d else updLaunch d l fun x => { x with xcnt := min (x.xcnt + 1) 65535, cause := if x.xcnt = 0 then cause else x.cause }
    | none => d
  if isCompute ca then rowDrain d (rowKeyOf ca) else d
/-- R155, R344: the entry of the thread's name, which its end writes, has to be waited for. -/
def endHeld (d : Dev) (loc : Nat) : Bool := tableHeld d (dieOf (coreOf loc)) (d.thread loc).name
/-- A load that is still awaited at a die interface, its page not resident (R142). -/
def waitsForPage (d : Dev) (loc : Nat) : Bool := (openLoads d loc).any id
/-- R104 step 1: every producer has delivered; a pending load fault is taken. -/
def settleProducers : M Unit := fun m d =>
  if waitsForPage d d.cur then .error .pageFault
  else if d.arrs.any (fun a => a.2.loc = d.cur && mine d d.cur a.1) || d.nameQ.any (fun q => q.2.loc = d.cur && mine d d.cur q.1) then .error .lose
  else settleLoads m d
def execTend (a : BitVec 5) (m : Bool) (s : State) : Out := s.run (.tend a m) { srcs := [.g a m] } (do
  let x ← gv a
  settleProducers
  settleStores
  fun m d => if endHeld d d.cur then .error .lose else .ok ((), endThread m d d.cur x 0))

/-! ## SPWN, REAP, SLST (R284 to R286) -/

/-- The slot SPWN starts: the leader's choice in a gang row, the next lane's in a DET row, else the lowest free one. The Bool says
that a member's own slot was not free (R285). -/
def chooseSlot (d : Dev) (loc : Nat) : Option Nat × Bool :=
  let ca := coreOf loc
  if isFollower d loc then match (d.quads.get? (leaderOf loc)).bind fun q => q.slot with
    | some k => if slotFree d (ca * 16 + k) then (some k, false) else (none, true)
    | none => (none, false)
  else (spawnChoice d ca, false)
/-- R134, R285: word 16 of the auxiliary block. -/
def launchSeed (d : Dev) (l : Option Q) : D := ((launchOf d l).map fun x => x.aux.getD 16 0).getD 0
def spwnBody (d : BitVec 5) (pc a1 a2 : D) : M Unit := fun _ dv =>
  let loc := dv.cur
  let ca := coreOf loc
  let t := dv.thread loc
  let (id, dv) := pendArr dv loc [.g d, .g (pairOf d)]
  let fail (dv : Dev) (st : Nat) : Dev :=
    let (x, dv) := dv.draw 41
    spwnAnswer dv id (24 + x) (ofN st) 0
  match (if canStart dv ca then chooseSlot dv loc else (none, false)) with
  | (none, div) => .ok ((), fail (if div then dv.updThread loc fun t => { t with divg := true } else dv) 1)
  | (some k, _) =>
    if dv.mint.stopped then .ok ((), fail dv 5)
    else
      let row := dv.row (rowKeyOf ca)
      let dv := if row.det then (row.launch.map fun n => updLaunch dv n fun l => { l with laneNext := l.laneNext.set ca (l.laneNext.getD ca 0 + 1) }).getD dv else dv
      let (ord, dv) := dv.newId
      .ok ((), mintRequest dv (dieOf ca) (.start
        { loc := ca * 16 + k, how := .spwn, pc := pc, a1 := a1, a2 := a2, priv := false, arr := some id, lpb := t.lpb, lpl := t.lpl, rnc := launchSeed dv t.launch,
          launch := t.launch, hgrp := t.hgrp, sender := loc, w3 := 0, asked := dv.cycle, earliest := 0, after := some (ord, loc) }))
def execSpwn (d a b : BitVec 5) (m n : Bool) (s : State) : Out :=
  s.run (.spwn d a b m n) { gate := .keeper, srcs := [.g a m, .g b n, .g (pairOf b) n], long := [d, pairOf d] } (do
    let pc ← gv a
    let a1 ← gv b
    let a2 ← gv (pairOf b)
    spwnBody d pc a1 a2
    adv)
def execReap (d a : BitVec 5) (m : Bool) (s : State) : Out := s.run (.reap d a m) { gate := .keeper, srcs := [.g a m], dst := some d, also := [.g (pairOf d) false] } (do
  needSpace (pairOf d)
  let x ← gv a
  let dv ← getD
  let ca := coreOf dv.cur
  let k := fieldN x 3 0
  if k = 0 then wgpair d ((3 : D) ++ (0 : D))
  else match (dv.core ca).exits.get? k with
    | some e => do
      wgpair d (ofN (e.cause % 256 * 256) ++ e.value)
      fun m d => if tableHeld d (dieOf ca) e.name then .error .lose else .ok ((), freeName m (d.updCore ca fun c => { c with exits := c.exits.erase k }) (dieOf ca) e.name)
    | none => wgpair d ((if (dv.thread (ca * 16 + k)).live then (1 : D) else 2) ++ (0 : D))
  adv)
def SlotState.code : SlotState → Nat
  | .vacant => 0
  | .run => 1
  | .parked => 2
  | .faulted => 3
  | .lent => 4
  | .halted => 5
/-- R286: the state word. -/
def slotWord (d : Dev) (loc : Nat) : D :=
  let t := d.thread loc
  let rec_ := (d.core (coreOf loc)).exits.get? (slotOf loc)
  let seq := if t.live then nmSeq t.name else (rec_.map fun e => nmSeq e.name).getD 0
  let det := (d.row (rowKeyOf (coreOf loc))).det && (t.live || rec_.isSome)
  ofN (seq % 2 ^ 32 * 2 ^ 32 + b2n rec_.isSome * 32 + b2n det * 16 + t.st.code)
def execSlst (d a : BitVec 5) (m : Bool) (s : State) : Out := s.run (.slst d a m) { gate := .keeper, srcs := [.g a m], dst := some d } (do
  let x ← gv a
  let dv ← getD
  wg d (slotWord dv (coreOf dv.cur * 16 + fieldN x 3 0))
  adv)

/-! ## Active messages (R28, R287, R288) -/

/-- R28: the thread an active message asks for. -/
def activeStart (d : Dev) (ca : Nat) (ws : List D) (sender : Nat) : StartReq :=
    let row := d.row (rowKeyOf ca)
    let k0 := d.thread (ca * 16)
    { loc := ca * 16 + (lowestFree d ca).getD 0, how := .message, pc := ws.getD 0 0, a1 := ws.getD 1 0, a2 := ws.getD 2 0, priv := false, arr := none,
      lpb := k0.lpb, lpl := k0.lpl, rnc := launchSeed d row.launch, launch := row.launch, hgrp := k0.hgrp, sender := sender, w3 := ws.getD 3 0, asked := d.cycle,
      earliest := 0, after := none }
/-- R28: a core can start a thread for an active message now. -/
def activeReady (d : Dev) (ca : Nat) : Bool :=
  let row := d.row (rowKeyOf ca)
  row.state = 2 && !row.gang && !row.det && (lowestFree d ca).isSome && canStart d ca && !d.mint.stopped
/-- R28: the message starts a thread, or stands in the inbox as an entry to slot 0; none while the ring is full. -/
def placeActive (d : Dev) (ca : Nat) (ws : List D) (sender : Nat) : Option Dev :=
  let r := activeStart d ca ws sender
  if activeReady d ca then some (mintRequest d (dieOf ca) (.start r))
  else placeMsg d ca (activeEntry r)
/-- R288. The fifth word of the entry says whether it was sent in U. -/
def execAmsg (d a b : BitVec 5) (m n : Bool) (s : State) : Out :=
  s.run (.amsg d a b m n) { gate := .unit, srcs := [.g a m, .g b n, .g (b + 1) n, .g (b + 2) n, .g (b + 3) n, .g d false] } (do
    let tgt ← gv a
    let ws ← quad4 b
    let lim ← gv d
    let ca ← myCore
    let t ← me
    let dst := fieldN tgt 14 0
    let (lo, ex) := messageTime ca dst
    let time ← withD fun dv => flumeTime dv ca dst lo ex
    journalMsg .amsg ((ofN dst).setWidth 128) (ws.take 3 ++ [setField (ws.getD 3 0) 63 63 0, flag !t.priv]) (scopeOf ca dst) time 0 lim.toNat
    adv)
/-- A compute core of the package. -/
def realCompute (ca : Nat) : Bool := kindOf ca = 0 && unitOf ca < 64 && idxOf ca < 48
/-- R288: a U thread reaches the compute cores of its own launch; one of no launch reaches none. -/
def amsgRefused (d : Dev) (dst : Nat) (l : Option Q) : Bool := l.isNone || (d.row (rowKeyOf dst)).launch != l
def placeAmsg (d : Dev) (ca ent back stage : Nat) (e : JEntry) : Dev :=
  let dst := e.addr.toNat % 2 ^ 15
  if stage = 0 && unreleased d e.req e.loc e.order !e.again then d.post 4 .messagePlacement [ca, ent, e.req, back]
  else if !realCompute dst || (e.msg.getD 5 0 = 1 && amsgRefused d dst (d.owner e.loc e.req).launch) then refuseEntry (unspill d stage ca ent e.req) ca ent 0x09
  else arriveMsg d ca ent dst back stage e (activeEntry (activeStart d dst (e.msg.take 4) e.loc)) (activeReady d dst || inboxOpen (d.core dst)) fun d => placeActive d dst (e.msg.take 4) e.loc
/-- R175: a SEND or an AMSG reaches its target: core and entry of the journal, the entry's number, the time back; then, of a message on
its way to an overflow area, the core it goes to, plus 1. -/
def execMessagePlacement (s : State) : Out := s.event fun m d =>
  match msgEntry d (d.arg 0) (d.arg 1) (d.arg 2) with
  | none => unspill d (d.arg 4) (d.arg 0) (d.arg 1) (d.arg 2)
  | some e => if e.kind = .amsg then placeAmsg d (d.arg 0) (d.arg 1) (d.arg 3) (d.arg 4) e else placeSend m d (d.arg 0) (d.arg 1) (d.arg 3) (d.arg 4) e

/-! ## The work distributor (R297, R299) -/

/-- A SLICE or TILE address becomes the DIE-window address of the location it names. -/
def dieAddress (ca : Nat) (va : D) : D := if winCode va = 0 then va else match vaultLoc ca va with
  | some l => ofN (dieBase + dieOff l)
  | none => va
def execWdq (a : BitVec 5) (m : Bool) (s : State) : Out := s.run (.wdq a m) { gate := .unit, srcs := [.g a m] } (do
  let va ← gv a
  let x ← reachM va 8 8 3
  syncTier va x
  fun _ d =>
    let ca := (d.thread d.cur).at d.cur
    match freeEntry (d.core ca) with
    | none => .error .lose
    | some e =>
      let (id, d) := d.newId
      let at_ := dieAddress ca va
      let r := { newReq d .stf 0 [mkPart at_ 8 0 0 x] .none with ent := some e }
      let (n, d) := reqLatency d ca false r.parts
      let r := { r with back := n }
      let j : JEntry :=
        { loc := d.cur, core := ca, kind := .wdq, size := 8, sc := 0, addr := at_, addrHi := 0, data := 0, pc := r.pc, req := id,
          refused := none, taken := false, placed := false, orig := some r, msg := [], again := false }
      let d := d.updCore ca fun c => { c with journal := c.journal.set e j }
      let (x, d) := drawDet d ca (if (d.row (rowKeyOf ca)).det then 577 else 321)
      .ok ((), ({ d with reqs := d.reqs.set id r }).post (40 + x) .distributorQuery [id])
  adv)
/-- Where the second stage looks a part up, for a part that is not yet at its bytes. -/
def partWord (p : Part) : Option (Nat × Nat × Nat × Nat) := p.place.map fun w =>
  let off := p.va.toNat % max p.page 1
  (plTier w, plDie w off, plUnit w off, plLocal w off / 8)
/-- R297: a part of an older access touches the word of a part, by whatever address, also where both wait for a page, a granule or a
stack. -/
def sameWord (d : Dev) (x : Req) (q : Part) (r : Req) (p : Part) : Bool := match target d x q, target d r p with
  | .byte k h, .byte l g => h = g && k / 8 ≤ l / 8 && l / 8 ≤ (k + max q.size 1 - 1) / 8
  | .byte .., _ | _, .byte .. => false
  | _, _ => partsOverlap q p || (partWord q).isSome && partWord q = partWord p
/-- R297: an older access of the thread to the answer word, by whatever address, has not been performed: a query's stores are among
them (R240), and those of an NCAS go where its name still has to say. -/
def answerBusy (d : Dev) (id : Nat) (r : Req) : Bool :=
  (d.reqs.any fun x => x.2.ord x.1 < id && x.2.loc = r.loc && x.2.phase != .performed && x.2.parts.any fun q => r.parts.any (sameWord d x.2 q r)) ||
  (d.gramQ.any fun q => q.1 < id && q.2.loc = r.loc && r.parts.any fun p => q.2.stores p || q.2.parts.any fun b => sameWord d { r with core := q.2.core } b r p) ||
  (d.nameQ.any fun q => q.1 < id && q.2.loc = r.loc && q.2.kind = .cas)
/-- R299: in a deterministic launch a lane's queries are answered in program order (log 116). -/
def laneAsks (d : Dev) (id loc : Nat) : Bool := (d.row (rowKeyOf (coreOf loc))).det &&
  d.events.any fun e => e.step = .distributorQuery && e.args.getD 0 0 < id && (d.reqs.get? (e.args.getD 0 0)).any fun x => x.loc = loc
/-- R299: the lane bound to a location. -/
def boundLane (l : Launch) (loc : Nat) : Option Nat := l.lanes.findIdx? (· = loc)
/-- R297: what the distributor answers, and the launch after the query. -/
def distribute (d : Dev) (loc : Nat) (launch : Option Q) : D × Dev :=
  match launchOf d launch with
  | none => (BitVec.allOnes 64, d)
  | some l =>
    let gx := fieldN (l.words.getD 4 0) 31 16
    let gy := fieldN (l.words.getD 4 0) 47 32
    if gx * gy = 0 then (BitVec.allOnes 64, d)
    else
      let det := bitN (l.words.getD 3 0) 5
      let k := (boundLane l loc).getD 0
      let n := if det then l.askedBy.getD k 0 * l.lanes.length + k else l.asked
      let d := updLaunch d l.name fun l => if det then { l with askedBy := l.askedBy.set k (l.askedBy.getD k 0 + 1) } else { l with asked := l.asked + 1 }
      (if n < gx * gy then ofN (n % gx + n / gx * 2 ^ 32) else BitVec.allOnes 64, d)
/-- A query arrives at its distributor; the answer goes to the word as STF stores it. -/
def execDistributorQuery (s : State) : Out := s.event fun _ d =>
  let id := d.arg 0
  match d.reqs.get? id with
  | none => d
  | some r =>
    if answerBusy d id r || laneAsks d id r.loc then d.post 16 .distributorQuery [id]
    else
      let (x, d) := distribute d r.loc (d.owner r.loc id).launch
      let r := { r with parts := r.parts.map fun p => { p with data := x } }
      let d := d.updCore r.core fun c => match r.ent.bind fun e => (c.journal.get? e).map fun j => (e, j) with
        | some (e, j) => { c with journal := c.journal.set e { j with data := x, orig := some r } }
        | none => c
      ({ d with reqs := d.reqs.set id r }).post r.back .memoryRequestAtTarget [id]

/-! ## TBND and ENCL (R295, R300) -/

def execTbnd (d : BitVec 5) (s : State) : Out := s.run (.tbnd d) { gate := .unit, dst := some d } (do
  let dv ← getD
  let row := dv.row (rowKeyOf (coreOf dv.cur))
  let x : D := match (if isCompute (coreOf dv.cur) && row.det then launchOf dv row.launch else none) with
    | none => BitVec.allOnes 64
    | some l => match boundLane l dv.cur with
      | some k => ofN (k % 2 ^ 32 + l.lanes.length * 2 ^ 32)
      | none => ofN ((Config.freeBits 32 dv.free).toNat + l.lanes.length * 2 ^ 32)
  modD fun d => { d with free := d.free + 1 }
  wg d x
  adv)
/-- R294: units of an energy class. -/
def eclsCost (e : Nat) : Nat := 2 ^ (e % 4)
def execEncl (d a : BitVec 5) (m : Bool) (s : State) : Out := s.run (.encl d a m) { gate := .unit, srcs := [.g a m], dst := some d } (do
  let x ← gv a
  let dv ← getD
  let ca := coreOf dv.cur
  let k := rowKeyOf ca
  let cur := if isCompute ca then (dv.row k).ecls else 0
  let new := fieldN x 1 0
  wg d (ofN (cur + b2n (cur < new) * 2 ^ 63))
  if new < cur then
    modD fun d => ((d.updRow k fun r => { r with ecls := new }).updTile (unitOf ca) fun t => { t with used := t.used + eclsCost new - eclsCost cur }).post 0 .launchSelection
      [tileDie (unitOf ca)]
  else pure ()
  adv)

end Sys2Proof.Machine
end

