-- ==== Sys2Proof/Machine/Launch.lean ====
section
/-! DEFINITION. The mint (R187 to R189), launches from descriptor to completion (R289 to R299), the rows they run in (R22, R23,
R293, R356), package co-start (R298) and LWT (R292). -/
namespace Sys2Proof.Machine

/-! ## Reading for a launch. The launch unit and the loader have no master number (log 14). -/

def launchU (ca : Nat) (ctx : Vector D 4) (user : Bool) : UCtx := ⟨ca * 16, ca, noMaster, rootOf ctx, user, []⟩
def readWords (m : Mem) (d : Dev) (u : UCtx) (va : D) (n : Nat) : Except UStop (List D) :=
  (List.range n).mapM fun i => (unitRead m d u (va + ofN (8 * i)) 8).map ofN
/-- R342: words that were read are corrected on their way. -/
def fixWords (m : Mem) (u : UCtx) (va : D) (n : Nat) (d : Dev) : Dev := (List.range n).foldl (fun d i => unitFix m d u (va + ofN (8 * i))) d
def Launch.f (l : Launch) (w hi lo : Nat) : Nat := fieldN (l.words.getD w 0) hi lo
/-- Fields of words 3 (R289). -/
def dNdep (w3 : D) : Nat := fieldN w3 15 12
def dDies (w3 : D) : Nat := fieldN w3 11 8
def dCost (w3 : D) : Bool := bitN w3 7
def dDet (w3 : D) : Bool := bitN w3 5
def dGroups (w3 : D) : Nat := fieldN w3 41 26 + 1
def dSize (w3 : D) : Nat := fieldN w3 25 16 + 1
def Launch.w3 (l : Launch) : D := l.words.getD 3 0
def Launch.tasks (l : Launch) : Nat := l.f 4 15 0 + 1
def Launch.dies (l : Launch) : List Nat := if dDies l.w3 = 0 then [l.die] else setBits (dDies l.w3) 4
/-- R299: the location a lane-map word names; none for a word that is refused. -/
def laneLoc (x : Nat) : Option Nat :=
  let tile := x / 2 ^ 18 % 64
  let row := x / 2 ^ 14 % 16
  if x / 2 ^ 24 ≠ 0 ∨ x % 2 ^ 8 ≠ 0 ∨ 12 ≤ row then none
  else some (mkCore tile (row * 4 + x / 2 ^ 12 % 4) 0 * 16 + x / 2 ^ 8 % 16)
/-- R299: a map that names a slot twice, a slot 0 that is not the first lane of its core, or a tile outside DIES. -/
def badLanes (dies : List Nat) (ls : List Nat) : Bool :=
  !ls.Nodup || (ls.any fun l => slotOf l = 0 && (ls.find? fun k => coreOf k = coreOf l) != some l) || ls.any fun l => !dies.contains (tileDie (unitOf (coreOf l)))
/-- R289: the refusals that the descriptor's words show. -/
def badWords (ws : List D) : Bool :=
  let w3 := ws.getD 3 0
  let aux := ws.getD 6 0
  fieldN w3 63 50 ≠ 0 || fieldN (ws.getD 4 0) 63 48 ≠ 0 || 4 < dNdep w3 || (!dCost w3 && 1 < (setBits (dDies w3) 4).length) ||
  768 < dSize w3 || (dDet w3 && aux = 0) || (ws.getD 5 0).toNat % 16 ≠ 0 || aux.toNat % 64 ≠ 0
def badAux (w3 : D) (aux : List D) : Bool :=
  let vlen := aux.getD 20 0
  (dDet w3 && aux.getD 18 0 = 0) || (aux.getD 19 0).toNat % 8 ≠ 0 || (aux.getD 21 0).toNat % 8 ≠ 0 || fieldN vlen 63 20 ≠ 0 || vlen.toNat % 8 ≠ 0 || 524288 < vlen.toNat ||
  aux.getD 22 0 ≠ 0 || aux.getD 23 0 ≠ 0

/-! ## Accepting a launch (R291) -/

/-- Launches that hold an entry of a die's pool, or of a parent's quota, with those the mint is about to name. -/
def poolHeld (d : Dev) (f : Nat → Option Q → Bool) : Nat :=
  (d.launches.filter fun l => !l.host && !l.done && f l.die l.parent).length +
  (d.mint.queue.filter fun x => match x.2 with
    | .launch k => match d.entries.get? k with
      | some e => e.arr.isSome && f e.die e.parent
      | none => false
    | _ => false).length
def entryDepth (d : Dev) (e : Entry) : Nat := ((launchOf d e.parent).map fun l => l.depth).getD 0 + 1
/-- The outcome is on its way: to the issuer's pair, or to the port's result. -/
def entryOutcome (d : Dev) (k : Nat) (e : Entry) (dt : Nat) (lo hi : D) : Dev :=
  let d := { d with entries := d.entries.erase k }
  match e.arr with
  | some id => spwnAnswer d id dt lo hi
  | none => d.post dt .launchAccept [k, e.die, lo.toNat, hi.toNat]
/-- What stops an acceptance: a status, or waiting for a page. -/
inductive Refuse where
  | status (st : Nat)
  | stop (x : UStop)
deriving DecidableEq, Repr
def reading {α} (x : Except UStop α) : Except Refuse α := match x with
  | .ok a => .ok a
  | .error (.fail _) => .error (.status 3)
  | .error (.badChunk _) => .error (.status 3)
  | .error e => .error (.stop e)
def readLanes (m : Mem) (d : Dev) (u : UCtx) (va : D) (n : Nat) : Except Refuse (List Nat) :=
  (List.range n).mapM fun i => do
    let x ← reading (unitRead m d u (va + ofN (4 * i)) 4)
    match laneLoc x with
    | some l => .ok l
    | none => .error (.status 3)
/-- R291: statuses 1 to 4, in that order, and what was read. -/
def acceptEntry (m : Mem) (d : Dev) (e : Entry) : Except Refuse Entry := do
  let u := launchU (coreOf e.loc) e.ctx e.user
  let quota := match launchOf d e.parent with
    | some p => if p.f 3 49 42 = 0 then 256 else p.f 3 49 42
    | none => 256
  if e.addr.toNat % 64 ≠ 0 then .error (.status 3)
  else if e.arr.isSome && 256 ≤ poolHeld d (fun die _ => die = e.die) then .error (.status 1)
  else if e.arr.isSome && e.parent.isSome && quota ≤ poolHeld d (fun _ p => p = e.parent) then .error (.status 2)
  else
    let ws ← reading (readWords m d u e.addr 7)
    let w3 := ws.getD 3 0
    if badWords ws then .error (.status 3)
    else
      let _ ← reading (unitPlace m d u (e.addr + 56) true)
      let aux ← if ws.getD 6 0 = 0 then .ok [] else reading (readWords m d u (ws.getD 6 0) 24)
      if badAux w3 aux then .error (.status 3)
      else
        let lanes ← if dDet w3 then readLanes m d u (aux.getD 18 0) ((fieldN (ws.getD 4 0) 15 0 + 1) * dGroups w3 * dSize w3) else .ok []
        let dies := if dDies w3 = 0 then [e.die] else setBits (dDies w3) 4
        if badLanes dies lanes then .error (.status 3)
        else
          let ds ← reading (readWords m d u (ws.getD 5 0) (2 * dNdep w3))
          let deps := (List.range (dNdep w3)).map fun i => ds.getD (2 * i + 1) 0 ++ ds.getD (2 * i) 0
          let bad (n : Q) : Bool := nmClass n ≠ 6 || nmChip n ≠ Config.chipTag.toNat || ((lookup m d e.die n).2.isNone && d.mint.next ≤ nmSeq n)
          if deps.any (tableHeld d e.die) then .error (.stop .wait)
          else if deps.any bad then .error (.status 4)
          else .ok { e with words := ws, aux := aux, deps := deps, lanes := lanes }
/-- R342: what an accepted entry was read from, and the look-ups of its dependences, are corrected on their way. -/
def entryFix (m : Mem) (d : Dev) (e : Entry) : Dev :=
  let u := launchU (coreOf e.loc) e.ctx e.user
  let lanes := fixWords m u (e.aux.getD 18 0) ((e.lanes.length + 1) / 2)
  let d := lanes (fixWords m u (e.words.getD 5 0) (2 * e.deps.length) (fixWords m u (e.words.getD 6 0) e.aux.length (fixWords m u e.addr e.words.length d)))
  e.deps.foldl (fun d n => tableFix m d e.die e.loc n) d
/-- HBM accesses that reading an entry takes. -/
def entryReads (e : Entry) : Nat := 1 + b2n (!e.deps.isEmpty) + (if e.aux.isEmpty then 0 else 3) + (e.lanes.length + 15) / 16
/-- R291: the launch unit reads a descriptor once every earlier access of its issuer is performed; with four operands, the outcome
of a host launch reaches its port. -/
def execLaunchAccept (s : State) : Out := s.event fun m d =>
  let k := d.arg 0
  if d.args.length = 4 then
    let die := d.arg 1
    if d.launchPort.toArray.getD die 0 = k then { d with launchResult := d.launchResult.setIfInBounds die (ofN (d.arg 3) ++ ofN (d.arg 2)) } else d
  else match d.entries.get? k with
  | none => d
  | some e =>
    if e.arr.isSome && unreleased d k e.loc 4 true then d.post 4 .launchAccept [k]
    -- R339: a port is served in order
    else if e.arr.isNone && d.entries.any (fun x => x.1 < k && x.2.arr.isNone && x.2.die = e.die && x.2.words.isEmpty) then d.post 4 .launchAccept [k]
    else
      let (x, d) := d.draw 81
      if e.arr.isSome && 25 ≤ entryDepth d e then
        match e.arr with
        | some id => failArr { d with entries := d.entries.erase k } id (220 + x) ⟨e.pc, 0x18, e.addr, 0x18, false⟩
        | none => d
      else if !bitN (d.die e.die).ctrl 1 then
        -- R347: no launch is accepted before READY is set; the spec gives no status for it
        entryOutcome { d with free := d.free + 1 } k e (220 + x) (Config.freeBits 64 d.free) 0
      else match acceptEntry m d e with
        | .error (.stop (.bad key)) | .error (.stop (.badNode key)) => entryOutcome (badRead d noMaster key) k e (220 + x) 3 0
        | .error (.stop st) => (unitStopped d (launchU (coreOf e.loc) e.ctx e.user) false st).post 16 .launchAccept [k]
        | .error (.status st) => entryOutcome d k e (220 + x) (ofN st) 0
        | .ok e => mintRequest (entryFix m { d with entries := d.entries.set k e } e) e.die (.launch k)
def execLnch (d a : BitVec 5) (m : Bool) (s : State) : Out := s.run (.lnch d a m) { gate := .unit, srcs := [.g a m], long := [d, pairOf d] } (do
  let va ← gv a
  let _ ← reachM va 64 64 0
  fun _ dv =>
    let loc := dv.cur
    let t := dv.thread loc
    let ca := coreOf loc
    let (id, dv) := pendArr dv loc [.g d, .g (pairOf d)]
    let e : Entry :=
      { die := dieOf ca, loc := loc, arr := some id, addr := dieAddress ca va, pc := t.pc, ctx := ctxOf dv loc, parent := t.launch, user := !t.priv,
        words := [], aux := [], deps := [], lanes := [] }
    .ok ((), ({ dv with entries := dv.entries.set id e }).post 1 .launchAccept [id])
  adv)
/-- The mint serves an accepted launch: its name, its record, word 7 set to 0, and its tasks in their queue. -/
def mintLaunch (m : Mem) (d : Dev) (k : Nat) : Bool × Dev :=
  match d.entries.get? k with
  | none => (false, d)
  | some e =>
    let n := entryReads e
    let (x, d) := d.draw (80 * n + 1)
    let time := 180 * n + 40 + x
    let seq := d.mint.next
    if d.mint.stopped then (false, entryOutcome d k e time 5 0)
    else match freeEntryFor m d e.die 6 seq with
    | none => (false, entryOutcome d k e time 5 0)
    | some key =>
      let name := mkName 6 seq
      let host := e.arr.isNone
      let w3 := e.words.getD 3 0
      let prio := match launchOf d e.parent with
        | some p => min (fieldN w3 2 0) p.prio
        | none => fieldN w3 2 0
      let owner := ownerOf e.parent
      let d := writeEntry d key name (mkWord2 1 6 host false 0 owner) 0 e.addr 64 0 (ofN owner)
      let l : Launch :=
        { name := name, die := e.die, addr := e.addr, words := e.words, aux := e.aux, deps := e.deps, lanes := e.lanes, ctx := e.ctx, parent := e.parent,
          issuer := if host then hostSender else e.loc, depth := entryDepth d e, prio := prio, host := host, done := false, status := 0, acked := false, late := 0,
          xcnt := 0, cause := 0, kills := none, asked := 0, askedBy := [], laneNext := [] }
      let d := match unitWrite m d (launchU (coreOf e.loc) e.ctx e.user) noThread (e.addr + 56) 8 0 with
        | .ok d => d
        | .error _ => d
      let die := if dCost w3 then e.die else l.dies.headD e.die
      let ts : List Task := (List.range l.tasks).map fun i => ⟨die, name, i, prio, d.cycle, 0⟩
      let d := { d with launches := d.launches ++ [l], tasks := d.tasks ++ ts }
      let d := (d.post 0 .launchSelection [die]).post (fieldN (d.die die).age 31 0 + 1) .taskAging [name.toNat, d.cycle]
      (true, entryOutcome d k e time (loHalf name) (hiHalf name))

/-! ## The mint (R187 to R189) -/

/-- The request served next: round robin among the dies, in order within one. -/
def mintNext (q : Mint) : Option (Nat × MintReq) := (List.range 4).findSome? fun i => q.queue.find? fun x => x.1 = (q.last + 1 + i) % 4
def mintServe (m : Mem) (d : Dev) : MintReq → Bool × Dev
  | .nnew id => mintNew m d id
  | .start r => startThread m d r
  | .launch k => mintLaunch m d k
/-- The class of the name a request is for, and the die that asks. -/
def mintClass (d : Dev) : MintReq → Nat
  | .nnew id => ((d.nameQ.get? id).map fun q => fieldN q.req 5 0).getD 0
  | .start _ => 4
  | .launch _ => 6
/-- R155, R344: an entry of the name table or a pool that serving a request reads has to be waited for. -/
def mintHeld (m : Mem) (d : Dev) (die : Nat) (r : MintReq) : Bool :=
  tableHeld d die (mkName (mintClass d r) d.mint.next) || match r with
    | .nnew id => mintClass d r = 3 && (d.nameQ.get? id).any fun q => (plUnits q.tmpl).any fun u =>
        let p := poolOf (plTier q.tmpl) u
        physHeld d (poolKey d p.1 p.2) || physHeld d (poolStack m d p + 8 * (poolCount m d p - 1))
    | _ => false
/-- R155: so has a node that the leaves of a new block are written in. -/
def leavesHeld (m : Mem) (d : Dev) (r : MintReq) (n : Q) : Bool := match r with
  | .nnew _ => (d.blocks.filter fun b => b.name = n).any fun b => (List.range (b.len / b.psz)).any fun i => walkHeld m d b.ctx (b.va + i * b.psz)
  | _ => false
def mintStep (m : Mem) (d : Dev) : Dev :=
  match mintNext d.mint with
  | none => d
  | some x =>
    if mintHeld m d x.1 x.2 || leavesHeld m (mintServe m d x.2).2 x.2 (mkName (mintClass d x.2) d.mint.next) then d.post 16 .mintIssue [] else
    let d := { d with mint := { d.mint with queue := d.mint.queue.erase x, last := x.1, freeAt := d.cycle + 2 } }
    let (took, d) := mintServe m d x.2
    let d := if took then { d with mint := { d.mint with next := d.mint.next + 1 } } else d
    if d.mint.queue.isEmpty || d.events.any (fun e => e.step = .mintIssue) then d else d.post 2 .mintIssue []
/-- R187: the mint serves one request; R188: at a block's first sequence it writes its record first; R189: or it stops. -/
def execMintIssue (s : State) : Out := s.event fun m d =>
  let q := d.mint
  if q.writing || q.queue.isEmpty then d
  else if !q.stopped && q.next % 2 ^ 32 = 0 && q.recorded < q.next / 2 ^ 32 then
    if 2 ^ 96 - 2 ^ 32 ≤ q.next then mintStep m { d with mint := { q with stopped := true } }
    else { d with mint := { q with writing := true } }.postRange 1 41999 .mintBlockRecord []
  else mintStep m d
/-- R188, R189: the record is written, unless it cannot be. -/
def execMintBlockRecord (s : State) : Out := s.event fun _ d =>
  let (x, d) := d.draw 2
  let q := { d.mint with writing := false }
  { d with mint := if x = 0 then { q with recorded := q.next / 2 ^ 32 } else { q with stopped := true } }.post 0 .mintIssue []

/-! ## Placing groups on rows (R26, R293, R294) -/

/-- Rows that a co-start has reserved. -/
def reservedRows (d : Dev) : List Nat := (d.costarts.filter fun c => !c.started).flatMap fun c => c.groups.flatMap fun g => g.2.2
/-- R298: the row is still streaming a pre-emption save. -/
def saving (d : Dev) (k : Nat) : Bool := d.preempts.any fun p => p.2.row = some k && 2 ≤ p.2.phase
/-- Rows of a tile that can be taken, with those in `taken` left out. -/
def takeable (d : Dev) (tile : Nat) (late : Bool) (taken : List Nat) : List Nat :=
  ((List.range 12).map fun n => tile * 12 + n).filter fun k => ((d.row k).state = 0 || (late && saving d k)) && !taken.contains k && !(reservedRows d).contains k
/-- R293: the rows of a group of `k` rows: of the tile of least USED, then lowest index, that holds them within its budget. `extra`
gives units a tile is about to take. -/
def pickRows (d : Dev) (die k cost : Nat) (late : Bool) (taken : List Nat) (extra : Tbl Nat) : Option (List Nat) :=
  let use (t : Nat) : Nat := (d.tile t).used + extra.getD t 0
  let ts := ((List.range 16).map fun t => die * 16 + t).filter fun t => k ≤ (takeable d t late taken).length && use t + k * cost ≤ (d.tile t).budget
  (ts.foldl (fun (b : Option Nat) t => match b with
    | none => some t
    | some u => if use t < use u then some t else b) none).map fun t => (takeable d t late taken).take k
/-- R26: the rows of a group. -/
def Launch.rows (l : Launch) : Nat := (dSize l.w3 + 63) / 64
/-- R299: the rows the map names for the lanes of a group. -/
def mapRows (l : Launch) (task g : Nat) : List Nat :=
  let n := dSize l.w3
  (((l.lanes.drop ((task * dGroups l.w3 + g) * n)).take n).map fun x => rowKeyOf (coreOf x)).eraseDups
/-- R24, R140: where a line of text stands under a launch's context; none behind a peer window. -/
def textKey (m : Mem) (d : Dev) (ctx : D) (ln : Nat) : Except UStop (Option Nat) :=
  if walkHeld m d ctx (256 * ln) then .error .wait
  else match firstStage m d ctx (256 * ln) 2 true with
  | .refused c _ => .error ((badNode m d ctx (256 * ln)).elim (.fail c) .badNode)
  | .leaf p w l => match pageTarget d noMaster ctx w true false (256 * ln) p (leafSize l) with
    | .byte k _ => match (List.range 8).find? fun i => uncorrectable m d (k + 32 * i) with
      | some i => .error (.bad (k + 32 * i))
      | none => .ok (some k)
    | .peer _ => .ok none
    | .wait => .error .wait
    | .nonresident die => .error (.absent die (ofN (256 * ln)) (leafSize l))
    | _ => .error (.fail 0x08)
/-- The lines of the task's text from its entry on, at most 64 KiB, as far as they can be fetched, and what stops them. -/
def textLines (m : Mem) (d : Dev) (ctx : D) : Nat → Nat → List (Nat × Option Nat) × Option UStop
  | 0, _ => ([], none)
  | n + 1, ln => match textKey m d ctx ln with
    | .ok k => let r := textLines m d ctx n (ln + 1)
      ((ln, k) :: r.1, r.2)
    | .error e => ([], some e)
def Launch.text (l : Launch) (m : Mem) (d : Dev) : List (Nat × Option Nat) × Option UStop := textLines m d (rootOf l.ctx) 256 ((l.words.getD 0 0).toNat / 256)
/-- R356: the loader puts a line into a row's instruction store. -/
def loadLine (m : Mem) (k : Nat) (d : Dev) (x : Nat × Option Nat) : Dev :=
  let put (d : Dev) (v : BitVec 2048) : Dev := d.updRow k fun r => { r with istore := r.istore.set x.1 v }
  match x.2 with
  | some key => (List.range 8).foldl (fun d i => correctErr m d (rowCore k 0 * 16) (key + 32 * i)) (put d (BitVec.ofNat 2048 (rdN m d key 256)))
  | none => { put d (Config.freeBits 2048 d.free) with free := d.free + 1 }
/-- R356, R141, R143: the first access of a range that the loader reads: the walk where the tile's TLB does not hold the page, and
the latency of the page's tier and die. -/
def firstAccess (m : Mem) (d : Dev) (l : Launch) (ca : Nat) (va : D) (kind : Nat) : Nat × Dev :=
  let ctx := rootOf l.ctx
  if winCode va ≠ 0 then partLatency d ca ⟨va, 8, 0, 0, none, 0, 0⟩
  else
    let walked := (tlbFind (d.tile (unitOf ca)) ctx va.toNat).isNone
    let n := if walked then 40 * (walk m d ctx va.toNat kind true).1 else 0
    let (x, d) := if walked then d.draw (n + 1) else (0, d)
    match firstStage m d ctx va.toNat kind true with
    | .leaf p w lvl =>
      let d := if walked then tlbInstall d (unitOf ca) ⟨ctx, va.toNat / leafSize lvl * leafSize lvl, leafSize lvl, p, w⟩ else d
      let (y, d) := partLatency d ca ⟨va, 8, 0, 0, some p, leafSize lvl, w⟩
      (n + x + y, d)
    | .refused .. => (n + x, d)
/-- R356: the cycles a row stays in LOAD. -/
def loadTime (m : Mem) (d : Dev) (l : Launch) (k : Nat) : Nat × Dev :=
  let ca := rowCore k 0
  let lines := (l.text m d).1.length
  let vlen := (l.aux.getD 20 0).toNat
  let (x, d) := firstAccess m d l ca (l.words.getD 0 0) 2
  let image := l.aux.getD 19 0 != 0
  let (y, d) := if image && l.aux.getD 21 0 != 0 then firstAccess m d l ca (l.aux.getD 21 0) 0 else (0, d)
  let (z, d) := if image then firstAccess m d l ca (l.aux.getD 19 0) 0 else (0, d)
  (x + (2 * lines - 2) + y + z + (if image then vlen / 256 else 0), d)
/-- R23: a row goes to LOAD for a group. R22 does not say whether PRIO follows a task that has aged to a higher level (R293): the model
shows the launch's own PRIO (log 118). -/
def loadRow (m : Mem) (d : Dev) (l : Launch) (task g k : Nat) : Dev :=
  let w3 := l.w3
  let d := d.updRow k fun _ => { Row.reset with
    state := 1, gang := bitN w3 6, det := dDet w3, ecls := fieldN w3 4 3, prio := l.prio, ltag := nmSeq l.name % 2 ^ 32, ctx := l.ctx,
    launch := some l.name, task := task, group := g }
  let d := d.updTile (k / 12) fun t => { t with used := t.used + eclsCost (fieldN w3 4 3) }
  let (n, d) := loadTime m d l k
  d.post n .rowLoadDone [k]
/-- R293: every dependence has completed. -/
def depsMet (d : Dev) (l : Launch) : Bool := l.deps.all fun n => match launchOf d (some n) with
  | some x => x.done
  | none => true
def updTask (d : Dev) (t : Task) (f : Task → Task) : Dev := { d with tasks := d.tasks.map fun x => if x = t then f x else x }
/-- Place the groups of a task, in order, until one finds no rows. -/
def placeGroups (m : Mem) (l : Launch) (die : Nat) : Nat → Dev → Task → Dev
  | 0, d, _ => d
  | n + 1, d, t =>
    let rows := if dDet l.w3 then
        (let ks := mapRows l t.index t.placed
          if ks.all fun k => (d.row k).state = 0 && !(reservedRows d).contains k then some ks else none)
      else pickRows d die l.rows (eclsCost (l.f 3 4 3)) false [] []
    match rows with
    | none => d
    | some ks =>
      let d := ks.foldl (fun d k => loadRow m d l t.index t.placed k) d
      let t' := { t with placed := t.placed + 1 }
      if t'.placed = dGroups l.w3 then { d with tasks := d.tasks.erase t } else placeGroups m l die n (updTask d t fun _ => t') t'
/-- R298: the groups of a co-start with their rows, each die in DIES taking its share in turn; none when rows are lacking. -/
def reserveAll (d : Dev) (l : Launch) : List (Nat × Nat) → Nat → List Nat → Tbl Nat → Option (List (Nat × Nat × List Nat))
  | [], _, _, _ => some []
  | (t, g) :: rest, j, taken, extra =>
    let cost := eclsCost (l.f 3 4 3)
    let rows := if dDet l.w3 then
        (let ks := mapRows l t g
          if ks.all fun k => ((d.row k).state = 0 || saving d k) && !taken.contains k && !(reservedRows d).contains k then some ks else none)
      else pickRows d (l.dies.getD (j % l.dies.length) 0) l.rows cost true taken extra
    match rows with
    | none => none
    | some ks => (reserveAll d l rest (j + 1) (taken ++ ks) (ks.foldl (fun x k => x.upd (k / 12) 0 (· + cost)) extra)).map fun r => (t, g, ks) :: r
/-- The deadline in cycles at the present clock (R289, R336). -/
def deadlineCycles (d : Dev) (l : Launch) : Nat :=
  let ns := fieldN (l.aux.getD 17 0) 31 0
  (if ns = 0 then 50000 else ns) * (2100 - 100 * fieldN (d.die l.die).clk 3 0) / 1000
def beginCostart (d : Dev) (l : Launch) : Dev :=
  let gs := (List.range l.tasks).flatMap fun t => (List.range (dGroups l.w3)).map fun g => (t, g)
  match reserveAll d l gs 0 [] [] with
  | none => d
  | some groups =>
    let due := d.cycle + deadlineCycles d l
    let d := { d with costarts := d.costarts ++ [Costart.mk l.name groups due false [] [] (d.tasks.filter fun t => t.launch = l.name)], tasks := d.tasks.filter fun t => t.launch != l.name }
    (d.post 0 .costartStart [l.name.toNat]).post (due - d.cycle) .costartDeadline [l.name.toNat, due]
/-- R293: one task is looked at. -/
def placeTask (m : Mem) (die : Nat) (d : Dev) (t : Task) : Dev :=
  if !d.tasks.contains t then d
  else match launchOf d (some t.launch) with
  | none => d
  | some l => if !depsMet d l then d
      else if dCost l.w3 then beginCostart d l
      else placeGroups m l die (dGroups l.w3) d t
def insertTask (t : Task) : List Task → List Task
  | [] => [t]
  | u :: us => if t.entry < u.entry then t :: u :: us else u :: insertTask t us
/-- The tasks of a level, oldest entry time first. -/
def levelTasks (d : Dev) (die level : Nat) : List Task := (d.tasks.filter fun t => t.die = die && t.level = level).foldl (fun l t => insertTask t l) []
/-- R293: the selection of a die. -/
def execLaunchSelection (s : State) : Out := s.event fun m d =>
  let die := d.arg 0
  (List.range 8).reverse.foldl (fun d level => (levelTasks d die level).foldl (placeTask m die) d) d
/-- R293: tasks of a launch that have waited longer than AGE join the next level's tail. -/
def execTaskAging (s : State) : Out := s.event fun _ d =>
  let old (t : Task) : Bool := t.launch.toNat = d.arg 0 && t.entry = d.arg 1
  match d.tasks.find? old with
  | none => d
  | some t =>
    let age := fieldN (d.die t.die).age 31 0
    if d.cycle ≤ t.entry + age then d.post (t.entry + age + 1 - d.cycle) .taskAging [d.arg 0, d.arg 1]
    else if 7 ≤ t.level then d
    else
      let up (t : Task) : Task := { t with level := min 7 (t.level + 1), entry := d.cycle }
      ({ d with tasks := d.tasks.filter (fun t => !old t) ++ (d.tasks.filter old).map up }).post (age + 1) .taskAging [d.arg 0, d.cycle]

/-! ## LOAD to RUN (R23, R31, R56, R356) -/

/-- The loader writes word `j` of the vault image into a slice, with its state. -/
def imageWord (m : Mem) (u : UCtx) (l : Launch) (k : Nat) (d : Dev) (j : Nat) : Dev :=
  let feb := l.aux.getD 21 0
  let (empty, d) := if feb = 0 then (false, d) else match unitRead m d u (feb + ofN (8 * (j / 64))) 8 with
    | .ok x => (x / 2 ^ (j % 64) % 2 = 1, unitFix m d u (feb + ofN (8 * (j / 64))))
    | .error e => (false, unitStopped d u false e)
  match unitRead m d u (l.aux.getD 19 0 + ofN (8 * j)) 8 with
  | .error e => unitStopped d u false e
  | .ok x => (List.range 4).foldl (fun d p =>
      let key := vaultKey (k / 12) ((k % 12 * 4 + p) * 0x80000 + 8 * j)
      setFe (writeBytes m d noThread key 8 x) key empty) (unitFix m d u (l.aux.getD 19 0 + ofN (8 * j)))
/-- What the loader has to wait for: a line of text, a word of the image or of its bitmap. -/
def imageWaits (m : Mem) (d : Dev) (u : UCtx) (l : Launch) : Option UStop :=
  let n := (l.aux.getD 20 0).toNat / 8
  let at_ (w k : Nat) : List D := if l.aux.getD w 0 = 0 then [] else (List.range k).map fun j => l.aux.getD w 0 + ofN (8 * j)
  let vas := if l.aux.getD 19 0 = 0 then [] else at_ 19 n ++ at_ 21 ((n + 63) / 64)
  let waits : UStop → Option UStop
    | .fail _ | .bad _ | .badChunk _ | .badNode _ => none
    | e => some e
  ((l.text m d).2.bind waits).or (vas.findSome? fun va => match unitRead m d u va 8 with
    | .ok _ => none
    | .error e => waits e)
def lpbMask (x : D) : D := setField 0 31 0 (fieldN x 31 0)
def lplMask (x : D) : D := setField 0 31 3 (fieldN x 31 3)
/-- R31: the keeper of a core, with the pairs and the seed of the auxiliary block. A keeper the loader starts has no keeper of its own
whose halt group R31 would give it: the model gives it none (log 119). -/
def keeperStart (d : Dev) (l : Launch) (ca : Nat) : StartReq :=
  { loc := ca * 16, how := .loader, pc := l.words.getD 0 0, a1 := l.words.getD 1 0, a2 := l.words.getD 2 0, priv := false, arr := none,
    lpb := Vector.ofFn fun i => lpbMask (l.aux.getD i.val 0), lpl := Vector.ofFn fun i => lplMask (l.aux.getD (8 + i.val) 0), rnc := l.aux.getD 16 0,
    launch := some l.name, hgrp := none, sender := l.issuer, w3 := 0, asked := d.cycle, earliest := 0, after := none }
/-- The row moves to RUN: text, image, and in each core the task-start message and the keeper. -/
def startRow (m : Mem) (d : Dev) (l : Launch) (k : Nat) : Dev :=
  let row := d.row k
  let u := launchU (rowCore k 0) l.ctx true
  let text := l.text m d
  let d := text.1.foldl (loadLine m k) (d.updRow k fun r => { r with state := 2, istore := [] })
  let d := match text.2 with
    | some e => unitStopped d u false e
    | none => d
  let d := if l.aux.getD 19 0 = 0 then d else (List.range ((l.aux.getD 20 0).toNat / 8)).foldl (imageWord m u l k) d
  let msg : Msg := ⟨[l.words.getD 0 (0 : D), l.words.getD 1 0, l.words.getD 2 0, ofN (2 ^ 63 + row.group % 2 ^ 16 * 2 ^ 32 + row.task)], 3, 0, l.issuer, none⟩
  (List.range 4).foldl (fun d p =>
    let ca := rowCore k p
    mintRequest (postMsg d ca msg) (dieOf ca) (.start (keeperStart d l ca))) d
/-- A row has been filled; its keepers start once their cores have save areas (R305). A co-start's rows start together. With two
operands, a keeper whose start failed is started again. -/
def execRowLoadDone (s : State) : Out := s.event fun m d =>
  let k := d.arg 0
  let row := d.row k
  match launchOf d row.launch with
  | none => d
  | some l =>
    if d.args.length = 2 then
      if row.state = 2 then mintRequest d (dieOf (d.arg 1)) (.start (keeperStart d l (d.arg 1))) else d
    else if row.state ≠ 1 then d
    else if d.mint.stopped || !((List.range 4).all fun p => canStart d (rowCore k p)) then d.post 16 .rowLoadDone [k]
    else match imageWaits m d (launchU (rowCore k 0) l.ctx true) l with
    | some e => (unitStopped d (launchU (rowCore k 0) l.ctx true) false e).post 16 .rowLoadDone [k]
    | none => match d.costarts.find? (fun c => c.launch = l.name) with
      | none => startRow m d l k
      | some c =>
        let c' := { c with loaded := if c.loaded.contains k then c.loaded else c.loaded ++ [k] }
        let all := c.groups.flatMap fun g => g.2.2
        let d := { d with costarts := d.costarts.map fun x => if x = c then c' else x }
        if all.all c'.loaded.contains then all.foldl (fun d r => startRow m d l r) d else d

/-! ## Co-start (R298) -/

/-- Every reserved row is ready: all go to LOAD together. -/
def execCostartStart (s : State) : Out := s.event fun m d =>
  match d.costarts.find? fun c => c.launch.toNat = d.arg 0 && !c.started, launchOf d (some (BitVec.ofNat 128 (d.arg 0))) with
  | some c, some l =>
    if c.groups.all fun g => g.2.2.all fun k => (d.row k).state = 0 then
      c.groups.foldl (fun d g => g.2.2.foldl (fun d k => loadRow m d l g.1 g.2.1 k) d) { d with costarts := d.costarts.map fun x => if x = c then { c with started := true } else x }
    else d
  | _, _ => d
/-- The deadline passes first: the start is withheld and the tasks queue again, in the levels they had, until a row becomes FREE (R293). -/
def execCostartDeadline (s : State) : Out := s.event fun _ d =>
  match d.costarts.find? (fun c => c.launch.toNat = d.arg 0 && c.due = d.arg 1 && !c.started), launchOf d (some (BitVec.ofNat 128 (d.arg 0))) with
  | some c, some l =>
    let d := updLaunch { d with costarts := d.costarts.erase c } l.name fun l => { l with late := min 255 (l.late + 1) }
    let ts := c.tasks.map fun t => { t with entry := d.cycle }
    ({ d with tasks := d.tasks ++ ts }).post (fieldN (d.die l.die).age 31 0 + 1) .taskAging [l.name.toNat, d.cycle]
  | _, _ => d

/-! ## DRAIN to FREE, and completion (R23, R296) -/

/-- R23, R284: a drained row becomes FREE. -/
def execRowFree (s : State) : Out := s.event fun m d =>
  let k := d.arg 0
  let row := d.row k
  if row.state ≠ 3 ∨ row.live ≠ 0 ∨ row.engc ≠ 0 then d
  -- R155, R344: an entry that becomes FREE with its record has to be waited for
  else if (List.range 4).any fun p => (d.core (rowCore k p)).exits.any fun x => tableHeld d (tileDie (k / 12)) x.2.name then d.post 16 .rowFree [k]
  else
    let d := (List.range 4).foldl (fun d p =>
      let ca := rowCore k p
      let d := ((d.core ca).exits).foldl (fun d x => freeName m d (dieOf ca) x.2.name) d
      d.updCore ca fun c => { c with exits := [], inbox := [], overflow := [] }) d
    let d := (List.range 4).foldl (fun d p => if (d.core (rowCore k p)).held.isEmpty then d else d.post 0 .postedMessagePlacement [rowCore k p]) d
    let d := d.updRow k fun r => { Row.reset with ctx := r.ctx }
    let d := d.updTile (k / 12) fun t => { t with used := t.used - eclsCost row.ecls }
    let d := match row.launch with
      | some l => d.post 0 .launchComplete [l.toNat]
      | none => d
    let d := (d.costarts.filter fun c => c.groups.any fun g => g.2.2.contains k).foldl (fun d c => d.post 0 .costartStart [c.launch.toNat]) d
    -- the queue of every die that may place on this one: its own, and those of co-starts
    (List.range 4).foldl (fun d die => d.post 0 .launchSelection [die]) d
/-- R296: all tasks placed, all rows FREE, all threads ended, all children completed. -/
def launchOver (d : Dev) (l : Launch) : Bool :=
  !(d.tasks.any fun t => t.launch = l.name) && !(d.costarts.any fun c => c.launch = l.name) && !(d.rows.any fun r => r.2.launch = some l.name) &&
  !(d.launches.any fun x => x.parent = some l.name && !x.done) && !(d.away.any fun a => a.launch = some l.name) &&
  !(d.cores.any fun c => c.2.tcc.any fun t => t.2.launch = some l.name)
/-- The entries of the name table that list a byte, as keys. -/
def listedEntries (m : Mem) (d : Dev) (die : Nat) : List Nat :=
  let b := tableKey d die
  let n := 256 * tableBuckets d die
  (((m.map Prod.fst ++ d.wbuf.map Prod.fst).filter fun k => b ≤ k && k < b + n).map fun k => b + (k - b) / 64 * 64).eraseDups
/-- R193: the names a launch owns with KEEP = 0. -/
def ownedNames (m : Mem) (d : Dev) (l : Launch) : List Nat := (listedEntries m d l.die).filter fun k =>
  entryState m d k = 1 && entryOwner m d k = nmSeq l.name && !bitN (rd64 m d (k + 16)) 47
def statusWord (l : Launch) : D :=
  ofN (2 ^ 63 + l.late * 2 ^ 48 + l.xcnt * 2 ^ 32 + (if l.xcnt = 0 then 0 else l.cause % 256) * 256 + b2n (l.xcnt ≠ 0))
/-- The name of a host launch becomes FREE, and its record ends. -/
def forget (m : Mem) (d : Dev) (l : Launch) : Dev := freeName m { d with launches := d.launches.filter fun (x : Launch) => x.name != l.name } l.die l.name
/-- R296 steps 2 to 4. -/
def finishLaunch (m : Mem) (d : Dev) (l : Launch) : Dev :=
  let u := launchU (if l.issuer = hostSender then 16 * l.die * 256 else coreOf l.issuer) l.ctx false
  let st := statusWord l
  let again (d : Dev) : Dev := d.post 16 .launchComplete [l.name.toNat]
  if l.acked && tableHeld d l.die l.name then again d else
  match unitWrite m d u noThread (l.addr + 56) 8 st.toNat with
  | .error (.absent die va p) => again (unitStopped d u true (.absent die va p))
  | .error .wait | .error .held => again d
  | r =>
    let d := match r with
      | .ok d => d
      | .error _ => d
    let d := updLaunch d l.name fun x => { x with done := true, status := st }
    -- the names of its children, killed with its owned names, are gone
    let d := { d with launches := d.launches.filter fun (x : Launch) => x.parent != some l.name }
    let (y, d) := d.draw 81
    let d := (d.threads.filter fun t => t.2.awaits (.launch l.name)).foldl (fun d t => complete d t.1 (180 + y) [st]) d
    let d := if l.acked then forget m d l else d
    let d := match l.parent with
      | some p => d.post 0 .launchComplete [p.toNat]
      | none => d
    (List.range 4).foldl (fun d die => d.post 0 .launchSelection [die]) d
/-- R296: a launch completes: step 1 kills its owned names, and their shoot-downs are waited for. -/
def execLaunchComplete (s : State) : Out := s.event fun m d =>
  match launchOf d (some (BitVec.ofNat 128 (d.arg 0))) with
  | none => d
  | some l =>
    if l.done then d
    else match l.kills with
    | some 0 => finishLaunch m d l
    | some _ => d
    | none =>
      if !launchOver d l then d
      else
        let ks := ownedNames m d l
        if ks.any (physHeld d) then d.post 16 .launchComplete [l.name.toNat] else
        let d := updLaunch d l.name fun x => { x with kills := some ks.length }
        if ks.isEmpty then d.post 0 .launchComplete [l.name.toNat]
        else ks.foldl (fun d k => startShoot m d k (entryName m d k) (16 * l.die * 256 * 16) 0x01 0 true (some l.name)) d

/-! ## LWT (R292) -/

def execLwt (d a b : BitVec 5) (m n : Bool) (s : State) : Out :=
  s.run (.lwt d a b m n) { gate := .unit, srcs := [.g a m, .g (pairOf a) m, .g b n], long := [d] } (do
    let nm ← gpair a
    let lim ← gv b
    checkClass nm
    checkForeign nm
    if nmClass nm ≠ 6 then trap 0x10 (loHalf nm) (hiHalf nm)
    else do
      let dv ← getD
      let time ← queryTime dv nm false
      let res ← (fun m dv => .ok (resolve m dv (coreOf dv.cur) nm) : M Res)
      let dv ← getD
      let give (x : D) : M Unit := do
        longG time d x
        adv
      match res with
      | .never | .foreign => do
        modD fun dv =>
          let pc := (dv.thread dv.cur).pc
          let (id, dv) := pendArr dv dv.cur [.g d]
          failArr dv id time (nameFault pc 0x0F nm)
        adv
      | .gone => give (BitVec.allOnes 64)
      | .live .. => match launchOf dv (some nm) with
        | some l => if l.done then give l.status else park (.launch nm) lim.toNat [d]
        | none => give (BitVec.allOnes 64))

end Sys2Proof.Machine
end

