-- ==== Sys2Proof/Machine/Context.lean ====
section
/-! DEFINITION. Contexts: collecting what a thread has outstanding (R308, R310), the save area (R306, R307, R309), and putting a
context back into a slot (R313). -/
namespace Sys2Proof.Machine

/-! ## Outstanding requests become records (R308, R310 steps 2 and 3) -/

/-- A VLD: sixteen words in a row. -/
def isVld (r : Req) : Bool := r.parts.length = 16 && (r.parts.zipIdx).all fun p => p.1.size = 8 && p.1.va = (r.parts.headD p.1).va + ofN (8 * p.2)
/-- The KIND a request can be recorded as, and its register. -/
def recordKind (r : Req) : Option (Nat × Nat × Nat) := match r.op, r.dst with
  | .ld true, .g x => some (0, 0, x.toNat)
  | .ld false, .g x => some (1, 0, x.toNat)
  | .ldt, .g x => some (2, 0, x.toNat)
  | .ldw, .g x => some (3, 0, x.toNat)
  | .ld _, .v x => if isVld r then some (4, 1, x.toNat) else none
  | _, _ => none
/-- Requests that are withdrawn and recorded: a synchronising load waiting at its controller, a load of a page not resident. -/
def withdrawn (r : Req) : Bool := r.ent.isNone && (recordKind r).isSome &&
  (r.phase = .nonresident || (r.phase = .waiting && (r.op = .ldt || r.op = .ldw)))
/-- The physical g registers, whatever a user interrupt handler sees of them. -/
def Thread.gRaw (t : Thread) (i : Nat) : Reg 64 := t.g.toArray.getD i (.ofVal 0)
/-- The register, or its shadow, still waits for this producer. -/
def Thread.awaitsId (t : Thread) (id : Nat) : Dst → Bool
  | .g r => (t.g.toArray.getD r.toNat (.ofVal 0)).prod = .pend id || (26 ≤ r.toNat && (t.sh.toArray.getD (r.toNat - 26) (.ofVal 0)).prod = .pend id)
  | .v r => (t.vr r).prod = .pend id
  | _ => false
def requestRecord (t : Thread) (id : Nat) (r : Req) : Option ORec := (recordKind r).bind fun k =>
  -- a claimed register's take is still made, its value discarded (R36)
  let reg := if t.awaitsId id r.dst then k.2.2 else 0
  if k.2.1 = 1 && !t.awaitsId id r.dst then none
  else some ⟨(r.parts.headD ⟨0, 8, 0, 0, none, 0, 0⟩).va, r.pc,
    ofN (k.1 * 2 ^ 60 + k.2.1 * 2 ^ 58 + reg * 2 ^ 53 + Nat.log2 ((r.parts.headD ⟨0, 8, 0, 0, none, 0, 0⟩).size) * 2 ^ 51 + r.sc * 2 ^ 48), 0⟩
/-- The register a fault stands behind, the thread's own or a shadow. -/
def faultReg (t : Thread) (id : Nat) : Nat × Nat := match (List.range 32).find? fun i => (t.gRaw i).prod = .fault id || (26 ≤ i && (t.sh.toArray.getD (i - 26) (.ofVal 0)).prod = .fault id) with
  | some i => (0, i)
  | none => match (List.range 32).find? fun i => (t.vr (BitVec.ofNat 5 i)).prod = .fault id with
    | some i => (1, i)
    | none => (3, 0)
def faultRecord (t : Thread) (id : Nat) (f : DFault) : ORec :=
  let (file, reg) := faultReg t id
  ⟨if f.cause = 0x0C ∨ f.cause = 0x0D then tvalAddr f.tval else f.tval, f.pc, ofN (8 * 2 ^ 60 + file * 2 ^ 58 + reg * 2 ^ 53 + f.cause % 256 * 2 ^ 40),
    setField t.pc 63 56 f.reason⟩
def Reg.settled {w} (r : Reg w) : Reg w := { r with prod := .none }
/-- Numbers that belong to the thread in the slot, or to the one behind it. -/
def owns (d : Dev) (loc : Nat) (behind : Bool) (id : Nat) : Bool := mine d loc id != behind
/-- Everything else of the thread has been answered; `except` is the arrival of the pre-emption's own status, and a PARKED thread
issues its instruction again (R310). -/
def answered (d : Dev) (loc except : Nat) (behind : Bool) : Bool :=
  let t := d.thread loc
  !(d.arrs.any fun a => a.2.loc = loc && a.1 != except && !(t.parks && a.1 = t.waitId) && owns d loc behind a.1) && !(d.nameQ.any fun q => q.2.loc = loc && owns d loc behind q.1) &&
  !(d.gramQ.any fun q => q.2.loc = loc && owns d loc behind q.1) &&
  d.reqs.all fun r => !(r.2.loc = loc && r.2.ent.isNone && owns d loc behind r.1) || withdrawn r.2
def journalOf (d : Dev) (loc : Nat) (behind : Bool) : List (Nat × JEntry) :=
  (slotEntries d loc).filter fun e => owns d loc behind e.2.req
/-- Insert in order of number. -/
def insertRec (x : Nat × ORec) : List (Nat × ORec) → List (Nat × ORec)
  | [] => [x]
  | y :: ys => if x.1 < y.1 then x :: y :: ys else y :: insertRec x ys
/-- R310 step 3: the thread with its records in program order, nothing pending any more; the requests leave the machine. -/
def collect (d : Dev) (loc : Nat) (behind : Bool) (t : Thread) : Thread × Dev :=
  let rs := d.reqs.filter fun r => r.2.loc = loc && owns d loc behind r.1 && withdrawn r.2
  let recs := rs.filterMap (fun r => (requestRecord t r.1 r.2).map fun o => (r.1, o)) ++ t.faults.map fun f => (f.1, faultRecord t f.1 f.2)
  let recs := (recs.foldl (fun l x => insertRec x l) []).map Prod.snd
  let t := { t with records := (t.records ++ recs).take 64, faults := [], g := t.g.map Reg.settled, v := t.v.map Reg.settled, p := t.p.map Reg.settled,
                    sh := t.sh.map Reg.settled, refusal := none, cons := none, limit := none, stopped := none, stepping := false, after := none }
  (t, { d with reqs := d.reqs.filter (fun r => !(rs.any fun x => x.1 = r.1)), feWait := d.feWait.filter fun id => !(rs.any fun x => x.1 = id) })

/-! ## The save area (R306) -/

def regFileCode (t : Thread) (file i : Nat) : RSt := match file with
  | 0 => (t.gRaw i).st
  | 1 => (t.vr (BitVec.ofNat 5 i)).st
  | _ => (t.pr (BitVec.ofNat 3 i)).st
/-- A word of states; an ABSENT register keeps the state saved with it. -/
def stateWord (m : Mem) (d : Dev) (t : Thread) (file : Nat) : Nat := (List.range (if file = 2 then 8 else 32)).foldl (fun n i =>
  n + (match regFileCode t file i with
    | .absent => (areaState m d t file i).code
    | s => s.code) * 4 ^ i) 0
/-- The states of the shadow registers. -/
def shadowStates (t : Thread) : D := ofN ((List.range 6).foldl (fun n i => n + (t.sh.toArray.getD i (.ofVal 0)).st.code * 4 ^ i) 0)
/-- Write one item of the area at `k`: 0 to 31 g, 32 to 63 v, 64 to 71 p, 72 to 77 shadow, 100 xa, 104 to 119 copy and 120 to 135
conversion staging. An ABSENT register's word is brought from the area it stands in. -/
def writeItem (m : Mem) (t : Thread) (k : Nat) (d : Dev) (i : Nat) : Dev :=
  if i < 32 then let r := t.gRaw i
    wr64 d (k + 0x200 + 8 * i) (if r.st = .absent then rd64 m d (t.src + 0x200 + 8 * i) else r.val)
  else if i < 64 then let r := t.v.toArray.getD (i - 32) (.ofVal 0)
    wrN d (k + 0x1000 + 128 * (i - 32)) (if r.st = .absent then rdN m d (t.src + 0x1000 + 128 * (i - 32)) 128 else r.val.toNat) 128
  else if i < 72 then let r := t.p.toArray.getD (i - 64) (.ofVal 0)
    wr64 d (k + 0x300 + 8 * (i - 64)) (if r.st = .absent then rd64 m d (t.src + 0x300 + 8 * (i - 64)) else r.val)
  else if i < 78 then wr64 d (k + 0xE0 + 8 * (i - 72)) (t.sh.toArray.getD (i - 72) (.ofVal 0)).val
  else if i = 100 then wrN d (k + 0x440) (t.xa.toNat + fieldN t.fpm 14 13 * 2 ^ 6400) 808
  else if 104 ≤ i ∧ i < 120 then wr64 d (k + 0x340 + 8 * (i - 104)) (t.cps.toArray.getD (i - 104) 0)
  else if 120 ≤ i ∧ i < 136 then wr64 d (k + 0x3C0 + 8 * (i - 120)) (t.cvs.toArray.getD (i - 120) 0)
  else d
/-- The items with dirty bits of their own. -/
def itemList : List Nat := List.range 78 ++ [100] ++ (List.range 32).map (· + 104)
/-- MISC. -/
def miscWord (t : Thread) : D :=
  ofN (b2n t.qm + b2n t.lent * 2 + t.records.length % 128 * 4 + (t.hgrp.getD 31) * 512 + b2n (t.st = .halted) * 16384 + b2n t.wakeKept * 32768)
/-- The words written at every save. -/
def writeControl (m : Mem) (t : Thread) (tst : D) (k : Nat) (d : Dev) : Dev :=
  let ws : List (Nat × D) :=
    [(0x08, loHalf t.name), (0x10, hiHalf t.name), (0x18, t.pc), (0x20, tst), (0x28, t.fpm), (0x30, t.rnc), (0x38, t.uiv), (0x40, t.uis), (0x48, t.lrp),
     (0x50, t.ckq), (0x58, miscWord t), (0x60, ofN (stateWord m d t 0)), (0x68, ofN (stateWord m d t 1)), (0x70, ofN (stateWord m d t 2)),
     (0x110, shadowStates t),
     (0x198, t.tcause), (0x1A0, t.tpc), (0x1A8, t.tval), (0x1B0, t.taux), (0x1B8, t.tvec)]
  let d := ws.foldl (fun d w => wr64 d (k + w.1) w.2) d
  let d := (List.range 8).foldl (fun d i => wr64 (wr64 d (k + 0x118 + 8 * i) (t.lpb.toArray.getD i 0)) (k + 0x158 + 8 * i) (t.lpl.toArray.getD i 0)) d
  -- the reserved words are 0
  [(0x78, 5), (0xC8, 3), (0x1C0, 8), (0x768, 19)].foldl (fun d r => (List.range r.2).foldl (fun d i => wr64 d (k + r.1 + 8 * i) 0) d) d
def writeRecords (t : Thread) (k : Nat) (d : Dev) : Dev := (t.records.zipIdx).foldl (fun d o =>
  let a := k + 0x800 + 32 * o.2
  wr64 (wr64 (wr64 (wr64 d a o.1.addr) (a + 8) o.1.pc) (a + 16) o.1.w2) (a + 24) o.1.w3) d
/-- The trap block moves with the context. -/
def copyBlock (m : Mem) (src dst : Nat) (d : Dev) : Dev :=
  if src = dst then d else (List.range 5).foldl (fun d i => wr64 d (dst + 0xA0 + 8 * i) (rd64 m d (src + 0xA0 + 8 * i))) d
/-- R318: the first frame or code word of an area that a save cannot write. -/
def areaFault (m : Mem) (d : Dev) (k : Nat) : Option Nat :=
  if retired d k then some k else ((List.range 256).map fun i => k + 32 * i).find? fun a => uncorrectable m d a
/-- R307: CWORD. -/
def cword (t : Thread) (delta : Nat) : D := ofN (2 ^ 63 + delta % 65536 * 2 ^ 32 + (t.sfltGen + 1) % 2 ^ 32)
/-- R310 step 7, R313: a context is written to an area, CWORD last: its dirty items, or all of it. -/
def saveArea (m : Mem) (d : Dev) (t : Thread) (tst : D) (k : Nat) (all : Bool) : Except Nat Dev :=
  match areaFault m d k with
  | some a => .error a
  | none =>
    let dirty (i : Nat) : Bool := all || t.dirty.getLsbD i || (t.src ≠ k && i < 72 && (if i < 32 then (t.gRaw i).st = .absent
      else if i < 64 then (t.v.toArray.getD (i - 32) (.ofVal 0)).st = .absent else (t.p.toArray.getD (i - 64) (.ofVal 0)).st = .absent))
    let d := (itemList.filter dirty).foldl (writeItem m t k) d
    let d := writeRecords t k (copyBlock m t.area k (writeControl m t tst k d))
    .ok (wr64 d k (cword t (((List.range 72).filter dirty).length)))
/-- The restored state of code `n`: 3 is restored as FULL (R34). -/
def codeState (n : Nat) : RSt := if n = 1 then .empty else .full
/-- Reserved bits of a register restored from an area that was edited read 0, as after a write of it (R6): UIS. -/
def uisMask (x : D) : D := setField (setField 0 15 12 (fieldN x 15 12)) 2 0 (fieldN x 2 0)
/-- R313: a context as its area holds it, with what the area does not hold taken from its record; lazily, its registers ABSENT. -/
def loadArea (m : Mem) (d : Dev) (w : Away) (isLazy : Bool) : Thread :=
  let k := w.area
  let x (o : Nat) : D := rd64 m d (k + o)
  let st (file i : Nat) : RSt := if isLazy then .absent else codeState ((x (0x60 + 8 * file)).toNat / 4 ^ i % 4)
  let misc := x 0x58
  let tst := x 0x20
  let n := fieldN misc 8 2
  let xa := rdN m d (k + 0x440) 808
  let v := Thread.vacant
  { v with
    st := if bitN misc 14 then .halted else .run, name := w.name, pc := x 0x18,
    g := Vector.ofFn fun i => if i.val = 0 then .ofVal 0 else if isLazy then ⟨0, .absent, .none⟩ else ⟨x (0x200 + 8 * i.val), st 0 i.val, .none⟩,
    v := Vector.ofFn fun i => if isLazy then ⟨0, .absent, .none⟩ else ⟨BitVec.ofNat 1024 (rdN m d (k + 0x1000 + 128 * i.val) 128), st 1 i.val, .none⟩,
    p := Vector.ofFn fun i => if i.val = 0 then .ofVal (BitVec.allOnes 64) else if isLazy then ⟨0, .absent, .none⟩ else ⟨x (0x300 + 8 * i.val), st 2 i.val, .none⟩,
    sh := Vector.ofFn fun i => ⟨x (0xE0 + 8 * i.val), codeState ((x 0x110).toNat / 4 ^ i.val % 4), .none⟩,
    xa := BitVec.ofNat 6400 xa, fpm := fpmWrite v.fpm (x 0x28), rnc := x 0x30, uiv := x 0x38, uis := uisMask (x 0x40), lrp := x 0x48, ckq := x 0x50,
    tcause := tcauseWrite (x 0x198), tpc := x 0x1A0, tval := x 0x1A8, taux := x 0x1B0, tvec := x 0x1B8,
    lpb := Vector.ofFn fun i => lpbMask (x (0x118 + 8 * i.val)), lpl := Vector.ofFn fun i => lplMask (x (0x158 + 8 * i.val)),
    priv := bitN tst 26, qm := bitN misc 0, divg := bitN tst 22, lent := bitN misc 1, preHalt := .run, wakeKept := bitN misc 15,
    records := (List.range (min n 64)).map fun i => ⟨x (0x800 + 32 * i), x (0x808 + 32 * i), x (0x810 + 32 * i), x (0x818 + 32 * i)⟩,
    hgrp := if fieldN misc 13 9 < 16 then some (fieldN misc 13 9) else none, pool := none, area := k, sfltGen := fieldN (x 0) 31 0,
    cps := Vector.ofFn fun i => x (0x340 + 8 * i.val) &&& copyMask i.val, cvs := Vector.ofFn fun i => x (0x3C0 + 8 * i.val) &&& convMask i.val,
    launch := w.launch, start := w.start, lsnd := (Config.freeBits 19 d.free).toNat, lkind := (Config.freeBits 4 d.free).toNat, src := k, ghost := w.ghost, own := w.own,
    pendKind := w.pendKind, uint := w.uint, quadIn := w.quadIn }

/-! ## Leaving a slot (R310 steps 5 and 6) -/

/-- Barrier registrations of one place are kept under another. -/
def renameBars (d : Dev) (old new : Nat) : Dev :=
  let f (l : Nat) : Nat := if l = old then new else l
  let g (c : Nat) : Nat := if c = coreOf old then coreOf new else c
  let h (b : Bar) : Bar :=
    let rest : Tbl Nat := b.latest.filter fun x => x.1 != old
    let mine : Tbl Nat := match b.latest.get? old with
      | some p => Tbl.set rest new p
      | none => rest
    -- a phase released to the thread while it was saved is released to it at its new core
    let seen := match b.released.get? (coreOf new) with
      | some p => max p ((b.released.get? (coreOf old)).getD 0)
      | none => (b.released.get? (coreOf old)).getD 0
    { b with released := if coreOf old = coreOf new then b.released else b.released.set (coreOf new) seen, regs := b.regs.map f, arrived := b.arrived.map f, ready := b.ready.map f, sent := b.sent.map g, latest := mine }
  { d with bars := d.bars.map fun (b : Nat × Bar) => if b.2.regs.contains old then (b.1, h b.2) else b,
           -- an arrival still on its way is that of the thread where it is now
           events := d.events.map fun (e : Event) => if e.step = .barrierUnitArrival && e.args.getD 1 0 = old && (d.bars.getD (e.args.getD 0 0) .empty).regs.contains old then
             { e with args := [e.args.getD 0 0, new, e.args.getD 2 0] } else e }
/-- The place of a saved context: by core, slot and pool index. -/
def ghostOf (loc : Nat) (pool : Option Nat) : Nat := loc + 2 ^ 24 * (pool.getD 63 + 1)
/-- TST of a context, as RDC would read it at the place it was saved from. -/
def savedTst (d : Dev) (t : Thread) : D := tstOf (d.setThread (t.ghost % 2 ^ 19) t) (t.ghost % 2 ^ 19)
def freeCache (d : Dev) (ca : Nat) : List Nat := (List.range (Config.tccEntries + 1)).filter fun i => ((d.core ca).tcc.get? i).isNone
/-- R193: BASE of a context in the cache: bit 63, bit 62 clear; the spec does not give the form of the slot (log 5). -/
def cacheBase (d : Dev) : D := ofN (2 ^ 63 + (Config.freeBits 62 d.free).toNat)
/-- R193, R310: BASE of a context saved to memory. -/
def areaBase (k : Nat) : D := ofN (2 ^ 62 + k / 2 ^ 56 % 4 * 2 ^ 56 + k % 2 ^ 56 / 64)
/-- The instruction that the quad of a member is in, when the member has still to complete it or was trapped by it (log 43). -/
def quadPlace (d : Dev) (loc : Nat) : Option (Word × D × Bool) := (d.quads.get? (leaderOf loc)).bind fun q =>
  if q.trapped.contains loc then some (q.word, q.pc, true) else if q.todo.contains loc || q.again.contains loc then some (q.word, q.pc, false) else none
/-- A member of a quad is back in a slot, with what its quad had still to complete. -/
def quadBack (d : Dev) (loc : Nat) (x : Option (Word × D × Bool)) : Dev := match x with
  | none => d
  | some (w, pc, trapped) =>
    if !isGang d loc then d
    else
      let q := (d.quads.get? (leaderOf loc)).getD ⟨w, pc, [], [], [], none, []⟩
      let q := if trapped then { q with trapped := q.trapped ++ [loc] } else { q with again := q.again ++ [loc] }
      { d with quads := d.quads.set (leaderOf loc) q }
/-- A context, its outstanding requests already collected, moves into entry `e` of its core's cache. The state it held is kept in
`preHalt`. -/
def intoCache (m : Mem) (d : Dev) (loc e : Nat) (t : Thread) : Dev :=
  let ca := coreOf loc
  let t := { t with st := if t.st = .halted then .halted else .run, preHalt := if t.st = .halted then t.preHalt else t.st, ghost := ghostOf loc t.pool }
  let d := renameBars d loc t.ghost
  let d := rebaseName m d (dieOf ca) t.name (cacheBase d)
  { d.updCore ca (fun c => { c with tcc := c.tcc.set e t }) with free := d.free + 1 }
/-- The thread, its context sent home, with what it holds of units given up. -/
def leaveUnits (d : Dev) (loc : Nat) : Dev :=
  let d := d.updThread loc Thread.goHome
  let d := releaseArray (dropResv (withdraw d loc) loc) loc
  { d with chanQ := d.chanQ.filter (fun x => x.2 != (loc, true)), fwd := d.fwd.filter (fun f => f.1 != loc), resvHold := d.resvHold.filter fun v => v.2.loc != loc }

/-! ## Back into a slot (R313) -/

/-- A halted context whose group has been resumed since goes on (R313). -/
def haltedStill (d : Dev) (t : Thread) : Bool := t.st = .halted && (match t.hgrp with
  | some g => hgcHalted (d.hgc.toArray.getD g 0)
  | none => true)
/-- The context takes the slot: state, pool area, barrier registrations, BASE, LIVE, and the messages kept for it. -/
def putBack (m : Mem) (d : Dev) (loc : Nat) (t : Thread) (pool : Option Nat) (area delay : Nat) (lend isLazy : Bool) : Dev :=
  let ca := coreOf loc
  let sameTile := unitOf (coreOf (t.ghost % 2 ^ 19)) = unitOf ca
  let d := if sameTile then renameBars d t.ghost loc else leaveBarriers d t.ghost
  let d := copyBlock m t.area area d
  let halted := haltedStill d t
  let t := { t with
    st := if halted then .halted else if lend then .lent else .run, preHalt := if lend then .lent else .run, haltAt := d.cycle, lent := lend,
    pool := pool, area := area, hits := 0, misses := 0, startAt := d.cycle + delay, wakeKept := halted && t.wakeKept,
    dirty := if t.area = area then t.dirty else BitVec.allOnes 160, src := t.src, ghost := 0 }
  -- lazily, a record waits for its register; one that has none is reissued or re-armed now
  let waits (o : ORec) : Bool := isLazy && t.records.find? (fun x => recordReg x = recordReg o) = some o && (match recordReg o with
    | .g r => r != 0 && (t.gRaw r.toNat).st = .absent && areaState m d t 0 r.toNat = .empty
    | .v r => (t.vr r).st = .absent && areaState m d t 1 r.toNat = .empty
    | _ => false)
  let recs := t.records.filter fun o => !waits o
  let d := d.setThread loc { t with records := t.records.filter waits, quadIn := none }
  let d := quadBack d loc t.quadIn
  let d := recs.foldl (fun d o => reissueOne m d loc o) d
  let d := rebaseName m d (dieOf ca) t.name (ofN loc)
  let d := if isCompute ca then d.updRow (rowKeyOf ca) fun r => { r with live := r.live + 1 } else d
  let d := match t.hgrp with
    | some g => if hgcHalted (d.hgc.toArray.getD g 0) then d.updCore ca (fun c => { c with haltArr := c.haltArr ||| (1 <<< g) }) else d
    | none => d
  giveMail d loc

end Sys2Proof.Machine
end

