-- ==== Sys2Proof/Machine/Sys.lean ====
section
/-! DEFINITION. Pre-emption (R309 to R312, R315 to R318), restoring contexts (R313), wakes (R314), live-range tables (R316, R317),
and halt groups (R319 to R324). -/
namespace Sys2Proof.Machine

/-! ## Target words (R311) -/

def twCore (x : D) : Nat := fieldN x 14 0
def twLoc (x : D) : Nat := twCore x * 16 + fieldN x 19 16
def twRow (x : D) : Bool := bitN x 20
def twMem (x : D) : Bool := bitN x 21
def twForce (x : D) : Bool := bitN x 22
/-- A status reaches its register. -/
def sysStatus (d : Dev) (id dt : Nat) (st : Nat) : Dev := match d.arrs.get? id with
  | some a => fillArr d id dt (a.vals.map fun v => (v.1, BitVec.ofNat 6400 st))
  | none => d
/-- A status at a latency the spec does not give (log 4). -/
def sysAnswer (d : Dev) (id st : Nat) : Dev :=
  let (x, d) := d.draw 400
  sysStatus d id (1 + x) st
def shSys (d : BitVec 5) (srcs : List Src) : Shape := { gate := .unit, priv := true, srcs := srcs, long := [d] }

/-- The limit of a wait, moved by the cycles spent halted or stopped. -/
def moveLimit (d : Dev) (l : Nat) (by_ : Nat) : Dev :=
  let t := d.thread l
  let d := match t.limit with
    | some due => ({ d with threads := d.threads.set l { t with limit := some (due + by_) } }).post (due + by_ - d.cycle)
        (match t.wait with | .queue _ => .queueExpired | _ => .waitExpired) [l, due + by_]
    | none => d
  let tile := unitOf (coreOf l)
  if kindOf (coreOf l) ≠ 2 && (d.tile tile).array.waiters.any (fun w => w.1 = l) then
    d.updTile tile fun t => { t with array := { t.array with waiters := t.array.waiters.map fun w => if w.1 = l then (w.1, w.2 + by_) else w } }
  else d

/-! ## Pre-emption (R310, R312) -/

def rowSlots (k : Nat) : List Nat := (List.range 4).flatMap fun p => (List.range 16).map fun s => rowCore k p * 16 + s
/-- Barrier registrations of tile level or wider. -/
def wideBarrier (d : Dev) (loc : Nat) : Bool := d.bars.any fun b => 2 ^ 20 ≤ b.1 && b.2.regs.contains loc
/-- The slots a slot request applies to: in a gang row those of all members (R310). -/
def requestSlots (d : Dev) (loc : Nat) : List Nat :=
  if isGang d loc then quad d (rowCore (rowKeyOf (coreOf loc)) 0 * 16 + slotOf loc) else [loc]
/-- The save engine of a core of a row, under the row's context. -/
def saveU (d : Dev) (k p : Nat) : UCtx := ⟨rowCore k p * 16, rowCore k p, masterOf (rowCore k p), rootOf (d.row k).ctx, false, []⟩
/-- A read that cannot be made counts as nothing there; one that waits, or that has still to be reported, is left as it is. -/
def soft {α} (x : Except UStop α) : Except UStop (Option α) := match x with
  | .ok a => .ok (some a)
  | .error (.fail _) | .error (.badChunk _) => .ok none
  | .error e => .error e
/-- R316: the header of a row's table: its entries and the slice base; none when none is bound. -/
def rowTable (m : Mem) (d : Dev) (k : Nat) : Except UStop (Option (Nat × D)) :=
  let row := d.row k
  if row.lrp = 0 then .ok none
  else do
    let n ← soft (unitRead m d (saveU d k 0) row.lrp 8)
    let b ← soft (unitRead m d (saveU d k 0) (row.lrp + 8) 8)
    .ok (match n, b with
      | some n, some b => if b = 0 || b % 65536 ≠ 0 || winCode (ofN b) ≠ 0 then none else some (n % 65536, ofN b)
      | _, _ => none)
/-- R312: the status that refuses a pre-emption at once, or why the row's table cannot be read yet. -/
def preemptRefused (m : Mem) (d : Dev) (x : D) : Except UStop (Option Nat) :=
  let loc := twLoc x
  let ca := twCore x
  let k := rowKeyOf ca
  let areas (ls : List Nat) : List Nat := ((ls.filter fun l => (d.thread l).live).map fun l => (d.thread l).area) ++ ls.filterMap fun l => (d.lentOut.get? l).map fun x => x.2.area
  if !realCompute ca || (!twRow x && (slotOf loc = 0 || (d.row k).det)) then (.ok (some 6))
  else if twRow x then
    if (d.row k).state ≠ 2 then .ok (some 2)
    else if (d.row k).preempt.isSome || d.preempts.any (fun p => p.2.locs.any (rowSlots k).contains) then .ok (some 7)
    else if (List.range 4).any (fun p => !bitN (d.core (rowCore k p)).sab 0) || (areas (rowSlots k)).any (retired d) then .ok (some 8)
    else (rowTable m d k).map fun t => if t.isNone then some 8 else none
  else if !(d.thread loc).live then .ok (some 2)
  else
    let ls := requestSlots d loc
    if (d.row k).preempt.isSome || d.preempts.any (fun p => p.2.locs.any ls.contains) then .ok (some 7)
    else if ls.any (fun l => !bitN (d.core (coreOf l)).sab 0) || (twMem x && (areas ls).any (retired d)) then .ok (some 8)
    else if !twForce x && ls.any (wideBarrier d) then .ok (some 5)
    else if ls.any (fun l => (freeCache d (coreOf l)).length < 1 + b2n (d.lentOut.get? l).isSome) then .ok (some 3)
    else .ok none
/-- A thread stops; where it stood at a checkpoint is kept, and the cycle it stopped at. -/
def stopThread (cycle : Nat) (t : Thread) : Thread :=
  if t.live && t.stopped.isNone then { t with stopped := some none, haltAt := if t.st = .halted then t.haltAt else cycle } else t
def stopAll (d : Dev) (ls : List Nat) : Dev := ls.foldl (fun d l => if (d.thread l).live then d.updThread l (stopThread d.cycle) else d) d
/-- Threads that stay in their slots go on: the limits of their waits did not run meanwhile. -/
def goOn (d : Dev) (ls : List Nat) : Dev := ls.foldl (fun d l =>
  let t := d.thread l
  if !t.live then d
  else
    let d := d.updThread l fun t => { t with stopped := none }
    if t.stopped = some none && t.st != .halted then moveLimit d l (d.cycle - t.haltAt) else d) d
def setPre (d : Dev) (id : Nat) (p : Preempt) : Dev := { d with preempts := d.preempts.set id p }
def endPre (d : Dev) (id : Nat) : Dev := { d with preempts := d.preempts.erase id }
/-- The save engine's next look at a pre-emption. -/
def lookAgain (d : Dev) (id dt : Nat) : Dev := d.post dt .checkpointStreamWrite [1, id]
/-- A pre-emption sets out under number `id`; a row's checkpoint wait ends at cycle `due`. -/
def beginPreempt (d : Dev) (id : Nat) (x : D) (due : Nat) : Dev :=
  let k := rowKeyOf (twCore x)
  if twRow x then
    let ls := rowSlots k
    -- R315 step 1: all but running threads stop at once
    let d := ls.foldl (fun d l => let t := d.thread l
      if t.live && t.st != .run then d.updThread l (stopThread d.cycle) else d) d
    let p : Preempt := ⟨ls, some k, true, false, due, 0, [], false⟩
    ((lookAgain (setPre (d.updRow k fun r => { r with preempt := some (id, due, true) }) id p) id 4).post (due - d.cycle) .preemptDeadline [id])
  else
    let (y, d) := d.draw 16
    lookAgain (setPre d id ⟨requestSlots d (twLoc x), none, twMem x, false, 0, 1, [], false⟩) id (1 + y)
/-- PRMT: refused, or begun once the row's table has been read. -/
def prmtTry (m : Mem) (d : Dev) (id : Nat) (x : D) (due : Nat) : Dev :=
  let k := rowKeyOf (twCore x)
  match preemptRefused m d x with
  | .error (.bad key) | .error (.badNode key) => sysAnswer (badRead d (saveU d k 0).master key) id 8
  | .error e => (unitStopped d (saveU d k 0) false e).post 16 .checkpointStreamWrite [2, id, x.toNat, due]
  | .ok (some st) => sysAnswer d id st
  | .ok none => beginPreempt d id x due
def prmtBody (i : Instr) (d a b : BitVec 5) (m n : Bool) (s : State) : Out := s.run i (shSys d [.g a m, .g b n]) (do
  let x ← gv a
  let y ← gv b
  fun mm dv =>
    let (id, dv) := pendArr dv dv.cur [.g d]
    .ok ((), prmtTry mm dv id x (dv.cycle + fieldN y 31 0))
  adv)
/-- R310, R315: the target word's ROW bit says which. -/
def execPrmt (d a b : BitVec 5) (m n : Bool) (s : State) : Out := prmtBody (.prmt d a b m n) d a b m n s
def execPrmtRow (d a b : BitVec 5) (m n : Bool) (s : State) : Out := prmtBody (.prmtRow d a b m n) d a b m n s

/-- R310 step 4: a refused entry fails the pre-emption; others are waited for. -/
def journalState (d : Dev) (l : Nat) : Option Bool :=
  let es := journalOf d l false ++ (if (d.lentOut.get? l).isSome then journalOf d l true else [])
  if es.any fun e => e.2.refused.isSome then some false else if es.isEmpty then some true else none
/-- The thread behind a lent slot, or the slot's own, moves into the cache; the second when it is lent. -/
def cacheSlot (m : Mem) (d : Dev) (l : Nat) : Dev :=
  let ca := coreOf l
  let (t, d) := collect d l false { d.thread l with quadIn := quadPlace d l }
  let d := intoCache m d l ((freeCache d ca).headD (1000 + slotOf l)) t
  let d := if isCompute ca then d.updRow (rowKeyOf ca) fun r => { r with live := r.live - 1 } else d
  match d.lentOut.get? l with
  | none => { d with threads := d.threads.erase l }
  | some (_, u) =>
    let (u, d) := collect d l true u
    let d := intoCache m d l ((freeCache d ca).headD (2000 + slotOf l)) u
    let d := if isCompute ca then d.updRow (rowKeyOf ca) fun r => { r with live := r.live - 1 } else d
    { d with threads := d.threads.erase l, lentOut := d.lentOut.erase l }
/-- R314: what tells the keeper that its lent thread has left the slot. -/
def wakeCopy (n : Q) : Msg := ⟨[loHalf n, hiHalf n, 1, 0], 5, 0, hostSender, none⟩
/-- R314: a WAKE saves the lent thread; the faulted one goes on, and the keeper is told. -/
def wakeSlot (m : Mem) (d : Dev) (l : Nat) : Dev :=
  let ca := coreOf l
  let (t, d) := collect d l false (d.thread l)
  let d := vacate (intoCache m d l ((freeCache d ca).headD (1000 + slotOf l)) t) l
  let u := d.thread l
  -- a faulted thread halted meanwhile keeps the wake for its resume (R321)
  let d := d.updThread l fun u => if u.st = .faulted then { u with st := .run } else if u.st = .halted && u.preHalt = .faulted then { u with wakeKept := true } else u
  postMsg (giveMail d l) ca (wakeCopy u.name)
/-- R310, R315 step 3: everything the threads wait for has come: they leave their slots. -/
def collectAll (m : Mem) (d : Dev) (id : Nat) (p : Preempt) : Dev :=
  let ls := p.locs.filter fun l => (d.thread l).live
  let stops := ls.map fun l => (l, ((d.thread l).stopped.getD none))
  let d := ls.foldl leaveUnits d
  -- R250: a thread saved from behind a LENT slot gives up its lease too
  let d := if p.wake then d else ls.foldl (fun d l => if (d.lentOut.get? l).isSome && kindOf (coreOf l) != 2 then leaveArray d (unitOf (coreOf l)) l else d) d
  let d := if p.row.isSome then ls.foldl leaveBarriers d else d
  if p.wake then (ls.foldl (wakeSlot m) (endPre d id))
  else
    let d := ls.foldl (cacheSlot m) d
    let d := { d with quads := (ls.filter (isGang d)).foldl (fun q l => q.erase (leaderOf l)) d.quads }
    let d := if p.row.isNone then (match ls.head? with
      | some l => if isCompute (coreOf l) then d.post 0 .rowFree [rowKeyOf (coreOf l)] else d
      | none => d) else d
    if p.mem then
      let (x, d) := d.draw 1000
      lookAgain (setPre d id { p with phase := 2, stops := stops }) id (180 + x)
    else sysStatus (endPre d id) id 1 0
/-- The cached contexts a pre-emption writes to memory; a thread that was lent a slot comes after the one whose slot it was. -/
def cachedOf (d : Dev) (p : Preempt) : List (Nat × Nat) :=
  let of (lent : Bool) : List (Nat × Nat) := ((p.locs.map coreOf).eraseDups).flatMap fun ca =>
    ((d.core ca).tcc.filter fun t => p.locs.contains (t.2.ghost % 2 ^ 24) && t.2.lent = lent).map fun t => (ca, t.1)
  of false ++ of true
/-- R318: an abandoned save puts the thread back in its slot, in the state it held; a row that is no longer its launch's leaves it in
the cache. -/
def abandonSave (m : Mem) (d : Dev) (c : Nat × Nat) (t : Thread) : Dev :=
  let loc := t.ghost % 2 ^ 19
  let u := d.thread loc
  let row := d.row (rowKeyOf (coreOf loc))
  let lends := t.lent && (u.st = .faulted || u.st = .halted)
  if (u.live && !lends) || (isCompute (coreOf loc) && (row.state < 2 || row.launch != t.launch)) then
    d.updCore c.1 fun x => { x with tcc := x.tcc.set c.2 t }
  else
    let d := d.updCore c.1 fun x => { x with tcc := x.tcc.erase c.2 }
    let d := if lends then { d with lentOut := d.lentOut.set loc (d.nextId, u) } else d
    let d := putBack m d loc t t.pool t.area 0 t.lent false
    if t.preHalt != .faulted then d
    else d.updThread loc fun u => if u.st = .halted then { u with preHalt := .faulted } else { u with st := .faulted }
/-- R310 step 7, R318: one cached context is written to its area; a save that faults is abandoned, and the thread goes back to its
slot. -/
def writeContext (m : Mem) (acc : Dev × Bool) (c : Nat × Nat) : Dev × Bool :=
  let (d, ok) := acc
  match (d.core c.1).tcc.get? c.2 with
  | none => (d, ok)
  | some t =>
    match saveArea m d t (savedTst d t) t.area false with
    | .ok d =>
      let w : Away := ⟨t.name, t.launch, t.start, t.ghost, t.pool.map fun i => (c.1, i), t.area, t.own, t.pendKind, t.uint, t.quadIn⟩
      (rebaseName m { d.updCore c.1 (fun x => { x with tcc := x.tcc.erase c.2 }) with away := d.away ++ [w] } (dieOf c.1) t.name (areaBase t.area), ok)
    | .error a =>
      let d := pushFault d (a / 2 ^ 56 % 4) (ofN (a % 2 ^ 56)) 3 (masterOf c.1)
      (abandonSave m d c { t with sfltGen := t.sfltGen % 2 ^ 32 + 2 ^ 32 }, false)

/-! ## The slices of a row (R315 step 5, R316) -/

/-- The ranges of an entry, none if it breaks the table. -/
def entryRanges (ws : List D) : Option (List (Nat × Nat)) :=
  let n := (ws.getD 2 0).toNat
  let rs := (List.range n).map fun i => ws.getD (3 + i) 0
  if 5 < n || rs.any (fun r => fieldN r 31 19 ≠ 0 || fieldN r 63 52 ≠ 0 || fieldN r 18 0 % 8 ≠ 0 || fieldN r 51 32 = 0 || fieldN r 51 32 % 8 ≠ 0 ||
      524288 < fieldN r 18 0 + fieldN r 51 32) then none
  else some (rs.map fun r => (fieldN r 18 0, fieldN r 51 32))
/-- The entry for a checkpoint: the first whose range holds its address. -/
def liveRanges (m : Mem) (d : Dev) (u : UCtx) (table : D) (pc : D) : Nat → Nat → Except UStop (Option (List (Nat × Nat)))
  | 0, _ => .ok none
  | n + 1, i => do
    match ← soft (readWords m d u (table + ofN (64 + 64 * i)) 8) with
    | none => .ok none
    | some ws => if (ws.getD 0 0).toNat ≤ pc.toNat && pc.toNat < (ws.getD 1 0).toNat then .ok (entryRanges ws) else liveRanges m d u table pc n (i + 1)
/-- What of a core's slice is written: the union of its checkpoints' ranges, or none for the whole. -/
def sliceRanges (m : Mem) (d : Dev) (u : UCtx) (table : D) (n : Nat) (stops : List (Option D)) : Except UStop (Option (List (Nat × Nat))) := do
  let rs ← stops.mapM fun (s : Option D) => match s with
    | some pc => liveRanges m d u table pc n 0
    | none => .ok none
  .ok ((rs.mapM id).map List.flatten)
/-- Copy a range of a slice into the image at `base`; where it stops, the address it could not write. -/
def copyRange (m : Mem) (u : UCtx) (tile idx : Nat) (base : D) (acc : Except (UStop × D) Dev) (r : Nat × Nat) : Except (UStop × D) Dev :=
  (List.range (r.2 / 8)).foldl (fun acc i => match acc with
    | .error e => .error e
    | .ok d =>
      let k := vaultKey tile (idx * 0x80000 + r.1 + 8 * i)
      let va := base + ofN (r.1 + 8 * i)
      if uncorrectable m d k then .error (.bad k, va)
      else match unitWrite m d u noThread va 8 (rdN m d k 8) with
        | .ok d => .ok d
        | .error e => .error (e, va)) acc
/-- The slice images of a row: which cores were saved whole, or what stopped it, and where. -/
def saveSlices (m : Mem) (d : Dev) (k : Nat) (p : Preempt) (n : Nat) (base : D) : Except (UStop × D) (Nat × Dev) :=
  let table := (d.row k).lrp
  (List.range 4).foldl (fun acc q => match acc with
    | .error e => .error e
    | .ok (whole, d) =>
      let u := saveU d k q
      match sliceRanges m d u table n ((p.stops.filter fun s => coreOf s.1 = u.core).map Prod.snd) with
      | .error e => .error (e, table)
      | .ok rs =>
        let whole := if rs.isNone then whole + 2 ^ q else whole
        ((rs.getD [(0, 524288)]).foldl (copyRange m u (k / 12) (idxOf u.core) (base + ofN (524288 * q))) (.ok d)).map fun d => (whole, d)) (.ok (0, d))
/-- R155, R344: the 8 KiB of an area that have to be waited for. -/
def areaHeld (d : Dev) (area : Nat) : Bool := (List.range 32).any fun i => physHeld d (area + 256 * i)
/-- R344: a save waits while a stack it writes to retrains. -/
def saveWaits (d : Dev) (p : Preempt) : Bool := (cachedOf d p).any fun c => ((d.core c.1).tcc.get? c.2).any fun t => areaHeld d t.area
/-- R318, R342: the die and the die-physical address of a frame that a save could not write: as the second stage maps it, or, where it
maps nothing there, as the placement lays it out (log 137). -/
def framePhys (m : Mem) (d : Dev) (u : UCtx) (va : D) : Nat × Nat := match firstStage m d u.ctx va.toNat 1 u.user with
  | .leaf w _ l =>
    let off := va.toNat % leafSize l
    let (unit, lo) := (plUnit w off, plLocal w off)
    let f := match d.stage2.find? fun e => e.die = plDie w off && e.ctx = u.ctx && e.base ≤ va.toNat && va.toNat < e.base + e.size && (e.part = none || e.part = some (unit, lo / 65536)) with
      | some e => e.frame + (if e.part.isSome then lo % 65536 else va.toNat - e.base)
      | none => lo
    (plDie w off, f)
  | _ => (dieOf u.core, 0)
/-- R315 steps 4 to 6. -/
def finishRow (m : Mem) (d : Dev) (id k : Nat) (p : Preempt) : Dev :=
  if (d.row k).engc ≠ 0 then lookAgain d id 16
  else
    let close (d : Dev) : Dev := endPre (d.updRow k fun r => { r with preempt := none }) id
    if p.failed then sysStatus (close d) id 1 1
    else match rowTable m d k with
    | .error (.bad key) | .error (.badNode key) => sysStatus (close (badRead d (saveU d k 0).master key)) id 1 1
    | .error e => lookAgain (unitStopped d (saveU d k 0) false e) id 16
    | .ok none => sysStatus (close d) id 1 1
    | .ok (some (n, base)) => match saveSlices m d k p n base with
      | .error (.bad key, _) => sysStatus (close (pushFault d (keyDie key) (ofN (keyPhys key)) 3 (saveU d k 0).master)) id 1 1
      | .error (.fail _, va) | .error (.badChunk _, va) =>
        let f := framePhys m d (saveU d k 0) va
        sysStatus (close (pushFault d f.1 (ofN f.2) 3 (saveU d k 0).master)) id 1 1
      -- R344: the deadline does not count while the save waits for a stack
      | .error (e, _) => lookAgain (setPre (unitStopped d (saveU d k 0) true e) id { p with due := p.due + (if d.retraining.isEmpty then 0 else 16) }) id 16
      | .ok (whole, d) =>
        let (x, d) := d.draw 200000
        sysStatus ((close (d.updRow k fun r => { r with state := 3 })).post 0 .rowFree [k]) id (1 + x) (whole * 256)
/-- A pre-emption goes on. -/
def preStep (m : Mem) (d : Dev) (id : Nat) : Dev :=
  match d.preempts.get? id with
  | none => d
  | some p =>
    match p.phase with
    | 0 =>
      -- a thread that parks meanwhile stops at once
      let d := p.locs.foldl (fun d l => if (d.thread l).live && (d.thread l).st != .run then d.updThread l (stopThread d.cycle) else d) d
      if p.locs.all (fun l => !(d.thread l).live || (d.thread l).stopped.isSome) then
        let d := match p.row with
          | some k => d.updRow k fun r => { r with preempt := r.preempt.map fun q => (q.1, q.2.1, false) }
          | none => d
        lookAgain (setPre d id { p with phase := 1 }) id 1
      else lookAgain d id 4
    | 1 =>
      let d := stopAll d p.locs
      let ls := p.locs.filter fun l => (d.thread l).live
      let give (d : Dev) (st : Nat) : Dev :=
        let d := match p.row with
          | some k => d.updRow k fun r => { r with preempt := none }
          | none => d
        sysStatus (endPre (goOn d ls) id) id 1 st
      if ls.isEmpty && !p.row.isSome then give d 2
      else if ls.any (fun l => journalState d l = some false) then
        -- R310 step 4, R314: the thread goes on and takes REMOTE_REFUSED; a WAKE tries again later
        if p.wake then ((d.lentOut.filter fun x => ls.contains x.1).foldl (fun d x => d.post 64 .wakeMessage [x.2.2.name.toNat]) (endPre (goOn d ls) id)) else give d 4
      else if ls.any (fun l => journalState d l != some true || !answered d l id false || ((d.lentOut.get? l).isSome && !p.wake && !answered d l id true)) then lookAgain d id 8
      else if p.row.isNone && ls.any (fun l => (freeCache d (coreOf l)).length < 1 + b2n ((d.lentOut.get? l).isSome && !p.wake)) then
        (if p.wake then lookAgain d id 64 else give d 3)
      else if p.wake && (d.lentOut.any fun x => ls.contains x.1 && outFull d (wakeCopy x.2.2.name)) then lookAgain d id 16
      else collectAll m d id p
    | 2 =>
      -- R344: the deadline does not count while the save waits
      if saveWaits d p then lookAgain (setPre d id { p with due := p.due + 64 }) id 64
      else
        let (d, ok) := (cachedOf d p).foldl (writeContext m) (d, true)
        match p.row with
        | some _ => lookAgain (setPre d id { p with phase := 3, failed := !ok }) id 1
        | none => sysStatus (endPre d id) id 1 (b2n (!ok))
    | _ => match p.row with
      | some k => finishRow m d id k p
      | none => endPre d id
/-- R315 step 2: the deadline passes: running threads stop at their next boundary. -/
def execPreemptDeadline (s : State) : Out := s.event fun _ d =>
  match d.preempts.get? (d.arg 0) with
  | some p => if p.phase = 0 then stopAll d p.locs else d
  | none => d

/-! ## Checkpoint streaming (R309) -/

/-- The dirty items of a context; ABSENT registers are not dirty. -/
def dirtyItems (t : Thread) : List Nat := (List.range 160).filter fun i => t.dirty.getLsbD i && !(i < 72 && (if i < 32 then (t.gRaw i).st = .absent
  else if i < 64 then (t.v.toArray.getD (i - 32) (.ofVal 0)).st = .absent else (t.p.toArray.getD (i - 64) (.ofVal 0)).st = .absent))
/-- The first context of a core with something dirty, of the threads in the slots and of those behind LENT slots. -/
def streamNext (d : Dev) (ca : Nat) : Option (Nat × Bool × Nat) := (List.range 16).findSome? fun k =>
  let l := ca * 16 + k
  let first (t : Thread) (behind : Bool) : Option (Nat × Bool × Nat) :=
    if t.live && t.hasArea && !areaHeld d t.area then ((dirtyItems t).head?).map fun i => (l, behind, i) else none
  (first (d.thread l) false).or ((d.lentOut.get? l).bind fun x => first x.2 true)
/-- The thread of a slot, or the one behind it. -/
def threadAt (d : Dev) (loc : Nat) (behind : Bool) : Thread := if behind then ((d.lentOut.get? loc).map fun x => x.2).getD .vacant else d.thread loc
def updThreadAt (d : Dev) (loc : Nat) (behind : Bool) (f : Thread → Thread) : Dev :=
  if behind then match d.lentOut.get? loc with
    | some (k, u) => { d with lentOut := d.lentOut.set loc (k, f u) }
    | none => d
  else d.updThread loc f
/-- One item goes to its word, with the states and the control words; CWORD loses VALID at the first one (R307). -/
def streamItem (m : Mem) (d : Dev) (loc : Nat) (behind : Bool) (i : Nat) : Dev :=
  let t := threadAt d loc behind
  let d := if bitN (rd64 m d t.area) 63 then wr64 d t.area (setField (rd64 m d t.area) 63 63 0) else d
  let d := if 80 ≤ i ∧ i < 100 then writeControl m t (tstOf (d.setThread loc t) loc) t.area d else writeItem m t t.area d i
  let d := if i < 72 then wr64 d (t.area + 0x60 + 8 * (if i < 32 then 0 else if i < 64 then 1 else 2)) (ofN (stateWord m d t (if i < 32 then 0 else if i < 64 then 1 else 2)))
    else if 72 ≤ i ∧ i < 78 then wr64 d (t.area + 0x110) (shadowStates t) else d
  updThreadAt d loc behind fun t => { t with dirty := t.dirty &&& ~~~((1 : BitVec 160) <<< i) }
/-- The save engine of core `arg 1` writes one dirty item in a free port cycle, while STREAM is set; or, with `arg 0` = 1, the save
of a pre-emption goes on, with 2 a PRMT tries again. -/
def execCheckpointStreamWrite (s : State) : Out := s.event fun m d =>
  if d.arg 0 = 1 then preStep m d (d.arg 1)
  else if d.arg 0 = 2 then prmtTry m d (d.arg 1) (ofN (d.arg 2)) (d.arg 3)
  else
    let ca := d.arg 1
    if !bitN (d.core ca).sab 1 then d
    else match streamNext d ca with
      | none => d.post 16 .checkpointStreamWrite [0, ca]
      | some (loc, behind, i) =>
        let d := if (areaFault m d (threadAt d loc behind).area).isSome then d else streamItem m d loc behind i
        d.postRange 1 15 .checkpointStreamWrite [0, ca]

/-! ## TCCF (R313) -/

/-- Where a context is. -/
inductive Where where
  | slot
  | cache (ca e : Nat) (t : Thread)
  | memory (w : Away)
deriving DecidableEq, Repr
def findContext (d : Dev) (n : Q) : Option Where :=
  if (d.threads.any fun t => t.2.live && t.2.name = n) || d.lentOut.any (fun x => x.2.2.name = n) then some .slot
  else match d.cores.findSome? fun c => (c.2.tcc.find? fun t => t.2.name = n).map fun t => (c.1, t) with
    | some (ca, e, t) => some (.cache ca e t)
    | none => (d.away.find? fun w => w.name = n).map .memory
/-- The name resolves to a LIVE THRD. -/
def liveThread (m : Mem) (d : Dev) (n : Q) : Bool := nmClass n = 4 && nmChip n = Config.chipTag.toNat && (match (lookup m d 0 n).2 with
  | some k => entryState m d k = 1
  | none => false)
/-- The load latency of an area from a core. -/
def areaLatency (d : Dev) (ca area : Nat) : Nat × Dev :=
  let (x, d) := d.draw 121
  (if area / 2 ^ 56 % 4 = dieOf ca then 180 + min x 80 else 260 + x, d)
/-- Fields of the mode word that must be 0 and are not. -/
def badMode (x : D) : Bool := match fieldN x 2 0 with
  | 0 | 1 | 2 => fieldN x 63 22 ≠ 0
  | 4 => fieldN x 10 3 ≠ 0
  | _ => true
/-- Modes 0 to 2. -/
def tccfRestore (m : Mem) (d : Dev) (id : Nat) (n : Q) (x : D) : Dev :=
  let mode := fieldN x 2 0
  let ca := fieldN x 21 7
  let loc := ca * 16 + fieldN x 6 3
  let row := d.row (rowKeyOf ca)
  if badMode x || !realCompute ca || (mode = 2 && (row.gang || row.det)) then sysAnswer d id 6
  else if tableHeld d 0 n then d.post 16 .tccfLazy [id, n.toNat, x.toNat]
  else if !liveThread m d n then sysAnswer d id 1
  else match findContext d n with
  | none => sysAnswer d id 1
  | some .slot => sysAnswer d id 2
  | some w =>
    let u := d.thread loc
    let pool := freePool d ca
    -- R305: a context of the core's own cache keeps its index
    let kept := match w with
      | .cache c _ t => c = ca && t.pool.isSome
      | _ => false
    if (if mode = 2 then u.st != .faulted else u.st != .vacant) || !(canStart d ca || (kept && bitN (d.core ca).sab 0)) || d.preempts.any (fun p => p.2.locs.contains loc) then sysAnswer d id 3
    else
      let put (d : Dev) (t : Thread) (home : Nat) (pool : Option Nat) (delay : Nat) : Dev :=
        if row.state ≠ 2 || row.launch != t.launch || (t.qm && home != ca) then sysAnswer d id 5
        else
          let area := (pool.map fun i => areaOf (d.core ca).sab i).getD t.area
          let d := match w with
            | .cache c e _ => d.updCore c fun x => { x with tcc := x.tcc.erase e }
            | .memory a => { d with away := d.away.filter fun b => b != a }
            | .slot => d
          let d := if mode = 2 then { d with lentOut := d.lentOut.set loc (d.nextId, u) } else d
          sysStatus (putBack m d loc t pool area delay (mode = 2) (mode = 1 && (match w with | .memory _ => true | _ => false))) id delay 0
      match w with
      | .cache c _ t => put d t c (if kept then t.pool else pool) 64
      | .memory a =>
        if areaHeld d a.area then d.post 16 .tccfLazy [id, n.toNat, x.toNat]
        else if !bitN (rd64 m d a.area) 63 then sysAnswer d id 4
        else
          let (y, d) := areaLatency d ca a.area
          put d (loadArea m d a (mode = 1)) (coreOf (a.ghost % 2 ^ 19)) pool (y + (if mode = 1 then 8 else 128))
      | .slot => d
/-- Mode 4. -/
def tccfOut (m : Mem) (d : Dev) (id : Nat) (n : Q) (x : D) : Dev :=
  let dst := fieldN x 12 11 * 2 ^ 56 + fieldN x 63 13 * 8192 % 2 ^ 56
  if badMode x then sysAnswer d id 6
  else if tableHeld d 0 n || areaHeld d dst then d.post 16 .tccfOut [id, n.toNat, x.toNat]
  else if !liveThread m d n then sysAnswer d id 1
  else match findContext d n with
  | some .slot => sysAnswer d id 2
  | some (.cache c e t) =>
    if d.preempts.any (fun p => p.2.phase = 2 && (cachedOf d p.2).contains (c, e)) then sysAnswer d id 5
    else if !bitN (d.core c).sab 0 || retired d dst then sysAnswer d id 8
    else match saveArea m d t (savedTst d t) dst true with
      | .error a =>
        let d := d.updCore c fun y => { y with tcc := y.tcc.set e { t with sfltGen := t.sfltGen % 2 ^ 32 + 2 ^ 32 } }
        sysAnswer (pushFault d (a / 2 ^ 56 % 4) (ofN (a % 2 ^ 56)) 3 (masterOf c)) id 1
      | .ok d =>
        let (y, d) := areaLatency d c dst
        let d := d.updCore c fun x => { x with tcc := x.tcc.erase e }
        let d := { d with away := d.away ++ [⟨t.name, t.launch, t.start, t.ghost, none, dst, t.own, t.pendKind, t.uint, t.quadIn⟩] }
        sysStatus (rebaseName m d (dieOf c) n (areaBase dst)) id (y + 128) 0
  | _ => sysAnswer d id 1
/-- TCCF of every mode: mode 0 acts at once, the others by a step of their own. -/
def execTccfIn (d a b : BitVec 5) (m n : Bool) (s : State) : Out :=
  s.run (.tccfIn d a b m n) (shSys d [.g a m, .g (pairOf a) m, .g b n]) (do
    let nm ← gpair a
    let x ← gv b
    checkClass nm
    fun mm dv =>
      let (id, dv) := pendArr dv dv.cur [.g d]
      let args := [id, nm.toNat, x.toNat]
      .ok ((), match fieldN x 2 0 with
        | 0 => tccfRestore mm dv id nm x
        | 1 => dv.post 1 .tccfLazy args
        | 2 => dv.post 1 .tccfLend args
        | 4 => dv.post 1 .tccfOut args
        | _ => sysAnswer dv id 6)
    adv)
def tccfArgs (f : Mem → Dev → Nat → Q → D → Dev) (s : State) : Out := s.event fun m d => f m d (d.arg 0) (BitVec.ofNat 128 (d.arg 1)) (ofN (d.arg 2))
def execTccfLazy (s : State) : Out := tccfArgs tccfRestore s
def execTccfLend (s : State) : Out := tccfArgs tccfRestore s
def execTccfOut (s : State) : Out := tccfArgs tccfOut s

/-! ## LRTB (R317) and WAKE (R314) -/

def execLrtb (d a b : BitVec 5) (m n : Bool) (s : State) : Out := s.run (.lrtb d a b m n) (shSys d [.g a m, .g b n]) (do
  let va ← gv a
  let x ← gv b
  modD fun dv =>
    let (id, dv) := pendArr dv dv.cur [.g d]
    let ca := twCore x
    let k := rowKeyOf ca
    if va.toNat % 64 ≠ 0 ∨ winCode va ≠ 0 then sysAnswer dv id 1
    else if !realCompute ca then sysAnswer dv id 3
    else if (dv.row k).state ≠ 2 then sysAnswer dv id 2
    else
      let dv := dv.updRow k fun r => { r with lrp := va }
      let dv := (rowSlots k).foldl (fun dv l => if (dv.thread l).live then dv.updThread l fun t => { t with lrp := va }.touch 8 else dv) dv
      -- a faulted thread behind a LENT slot is a thread of the row too
      let dv := { dv with lentOut := dv.lentOut.map fun y => if (rowSlots k).contains y.1 then (y.1, y.2.1, { y.2.2 with lrp := va }.touch 8) else y }
      sysAnswer dv id 0
  adv)
/-- A WAKE reaches the core of the thread it names; a slot of a frozen core keeps its state until the core is unfrozen (R156). -/
def wake (d : Dev) (n : Q) : Dev :=
  match d.threads.find? fun t => t.2.live && t.2.name = n with
  | some (l, t) =>
    if (d.core (coreOf l)).frozen then d.post 16 .wakeMessage [n.toNat]
    else if t.st = .faulted then d.updThread l fun t => { t with st := .run }
    else if t.st = .halted && t.preHalt = .faulted then d.updThread l fun t => { t with wakeKept := true }
    else d
  | none => match d.lentOut.find? fun x => x.2.2.name = n with
    | none => d
    | some (l, k, u) =>
      if u.st = .halted then { d with lentOut := d.lentOut.set l (k, { u with wakeKept := true }) }
      else if (d.core (coreOf l)).frozen || d.preempts.any fun p => p.2.locs.contains l then d.post 64 .wakeMessage [n.toNat]
      else
        let (id, d) := d.newId
        let (y, d) := d.draw 16
        lookAgain (setPre d id ⟨[l], none, false, true, 0, 1, [], false⟩) id (1 + y)
def execWakeMessage (s : State) : Out := s.event fun _ d => wake d (BitVec.ofNat 128 (d.arg 0))

/-! ## Halt groups (R319 to R323) -/

def execHgrp (d a b : BitVec 5) (m n : Bool) (s : State) : Out := s.run (.hgrp d a b m n) (shSys d [.g a m, .g b n]) (do
  let x ← gv a
  let y ← gv b
  modD fun dv =>
    let (id, dv) := pendArr dv dv.cur [.g d]
    let g := fieldN y 4 0
    let loc := twLoc x
    let old := (if (dv.thread loc).live then (dv.thread loc).hgrp else none).getD 31
    if 16 ≤ g ∧ g ≠ 31 then sysAnswer dv id 0xFF
    else
      let ls := if twRow x && isCompute (twCore x) then rowSlots (rowKeyOf (twCore x)) else requestSlots dv loc
      let dv := ls.foldl (fun dv l => if (dv.thread l).live then dv.updThread l fun t => { t with hgrp := if g = 31 then none else some g } else dv) dv
      sysAnswer dv id old
  adv)
def execHalt (d a : BitVec 5) (m : Bool) (s : State) : Out := s.run (.halt d a m) (shSys d [.g a m]) (do
  let x ← gv a
  modD fun dv =>
    let (id, dv) := pendArr dv dv.cur [.g d]
    let g := fieldN x 3 0
    if hgcHalted (dv.hgc.toArray.getD g 0) then sysAnswer dv id 1 else sysAnswer (haltGroup dv g 0 dv.cur) id 0
  adv)
def inGroups (gs : List Nat) (t : Thread) : Bool := match t.hgrp with
  | some g => gs.contains g
  | none => false
/-- R321: a trigger reaches a core; a FAULTED member, also one behind a lent slot, halts at once. The slots of a frozen core keep
their states until it is unfrozen (R156). -/
def execHaltTriggerArrival (s : State) : Out := s.event fun _ d =>
  let g := d.arg 0
  let ca := d.arg 1
  if !hgcHalted (d.hgc.toArray.getD g 0) then d
  else if (d.core ca).frozen then d.post 16 .haltTriggerArrival d.args
  else
    let d := d.updCore ca fun c => { c with haltArr := c.haltArr ||| (1 <<< g) }
    (List.range 16).foldl (fun d s =>
      let l := ca * 16 + s
      let t := d.thread l
      let d := if t.st = .faulted && t.hgrp = some g then d.updThread l (Thread.halt d.cycle) else d
      match d.lentOut.get? l with
      | some (k, u) => if u.hgrp = some g then { d with lentOut := d.lentOut.set l (k, u.halt d.cycle) } else d
      | none => d) d
/-- A halted member returns to the state before the halt, as changed by the events kept during it. -/
def resumeThread (d : Dev) (l : Nat) : Dev :=
  let t := d.thread l
  let d := d.updThread l fun t => { t with st := if t.preHalt = .faulted && t.wakeKept then .run else t.preHalt, wakeKept := false }
  moveLimit d l (d.cycle - t.haltAt)
def resumeAll (d : Dev) (gs : List Nat) : Dev :=
  let d := { d with hgc := gs.foldl (fun v g => v.setIfInBounds g (setField (v.toArray.getD g 0) 0 0 0)) d.hgc,
                    cores := d.cores.map fun (c : Nat × Core) => (c.1, { c.2 with haltArr := gs.foldl (fun b g => b &&& ~~~((1 : BitVec 16) <<< g)) c.2.haltArr }) }
  let d := ((d.threads.filter fun t => t.2.st = .halted && inGroups gs t.2).map Prod.fst).foldl resumeThread d
  (d.lentOut.filter fun x => x.2.2.st = .halted && inGroups gs x.2.2).foldl (fun d x =>
    let u := x.2.2
    let d := { d with lentOut := d.lentOut.set x.1 (x.2.1, { u with st := .faulted, wakeKept := false }) }
    if u.wakeKept then d.post 0 .wakeMessage [u.name.toNat] else d) d
/-- R323: members run one instruction each. -/
def beginStep (d : Dev) (gs : List Nat) : Dev :=
  let d := resumeAll d gs
  { d with threads := d.threads.map fun t => if t.2.live && inGroups gs t.2 then (t.1, { t.2 with stepping := true }) else t }
def execResm (d a b : BitVec 5) (m n : Bool) (s : State) : Out := s.run (.resm d a b m n) (shSys d [.g a m, .g b n]) (do
  let x ← gv a
  let y ← gv b
  modD fun dv =>
    let (id, dv) := pendArr dv dv.cur [.g d]
    let g := fieldN x 3 0
    if !hgcHalted (dv.hgc.toArray.getD g 0) then sysAnswer dv id 1
    else if bitN y 0 then sysAnswer (dv.post 0 .resmStep [g]) id 0
    else sysAnswer (resumeAll dv (groupSet dv g)) id 0
  adv)
def execResmStep (s : State) : Out := s.event fun _ d =>
  let g := d.arg 0
  if hgcHalted (d.hgc.toArray.getD g 0) then (beginStep d (groupSet d g)).post 1 .stepEnd [g, d.cycle + 1024] else d
/-- R323: the step ends when every running member has issued, or after 64 turns; the group is halted again. -/
def execStepEnd (s : State) : Out := s.event fun _ d =>
  let g := d.arg 0
  let gs := groupSet d g
  if d.cycle < d.arg 1 && d.threads.any (fun t => t.2.stepping && (t.2.st = .run || t.2.st = .lent) && inGroups gs t.2) then d.post 1 .stepEnd [g, d.arg 1]
  else
    let d := { d with
      hgc := gs.foldl (fun v k => v.setIfInBounds k (setField (v.toArray.getD k 0) 0 0 1)) d.hgc,
      threads := d.threads.map fun t => if t.2.live && inGroups gs t.2 then (t.1, { (t.2.halt d.cycle) with stepping := false }) else t,
      lentOut := d.lentOut.map fun x => if inGroups gs x.2.2 then (x.1, x.2.1, x.2.2.halt d.cycle) else x }
    (coresInUse d).foldl (fun d ca => d.updCore ca fun c => { c with haltArr := gs.foldl (fun b k => b ||| (1 <<< k)) c.haltArr }) d
/-- R322: the group halts before the instruction issues. -/
def execHwBreakpointMatch (s : State) : Out := s.event fun _ d =>
  let loc := d.arg 0
  { haltThread d loc 0x1E with last := .lost }
/-- R320, R334: what a write of a group's word leaves: HGC (0) keeps its read-only bits, HBP0 to HBP3 (1 to 4) the bits that are fields. -/
def writeGroup (d : Dev) (g w : Nat) (x : D) : Dev := match w with
  | 0 => { d with hgc := d.hgc.setIfInBounds g (setField (setField (d.hgc.toArray.getD g 0) 47 32 (fieldN x 47 32)) 3 3 (fieldN x 3 3)) }
  | k + 1 => if k < 4 then { d with hbp := d.hbp.setIfInBounds (4 * g + k) (setField (setField 0 63 63 (fieldN x 63 63)) 55 2 (fieldN x 55 2)) } else d
/-- R320, R321, R348: JTAG's access to a halt group, once the root of trust has unlocked it: group, operation, operands. Operation 0
halts the group: no thread triggers it, so HSRC and HSLOT are open; 1 resumes it, 2 lets it run one instruction each, 3 writes its
word `arg 2` (HGC, HBP0 to HBP3) with `arg 3`, 4 reads that word (log 135). -/
def execJtagHalt (s : State) : Out := s.event fun _ d =>
  let (x, d) := d.draw (2 ^ 19)
  let g := d.arg 0 % 16
  let halted := hgcHalted (d.hgc.toArray.getD g 0)
  if !d.jtagOpen then d
  else match d.arg 1 with
    | 0 => if halted then d else haltGroup d g 0 x
    | 1 => if halted then resumeAll d (groupSet d g) else d
    | 2 => if halted then d.post 0 .resmStep [g] else d
    | 3 => writeGroup d g (d.arg 2) (ofN (d.arg 3))
    | 4 => { d with hostReply := .value ((if d.arg 2 = 0 then d.hgc.toArray.getD g 0 else d.hbp.toArray.getD (4 * g + (d.arg 2 - 1) % 4) 0).toNat) }
    | _ => d

end Sys2Proof.Machine
end

