-- ==== Sys2Proof/Machine/Host.lean ====
section
/-! DEFINITION. The control spans and their ports (R22, R294, R320, R334 to R337), the host's ports and windows (R338, R339), CXL
(R340), Amigaes peers (R341), error marks and bad pages (R342, R343), retraining (R344), power and clocks (R345, R346), and
bring-up (R188, R347, R348). The steps of the outside world carry their operands in `args`. -/
namespace Sys2Proof.Machine

/-! ## What the host may reach -/

/-- R337: the host function's master number. -/
def hostMaster : Nat := 4352
/-- R334, R347: the host's accesses through BAR0 are checked as master 4,352 at the die's interface, once READY of its CTRL is set; system
software writes the tables before (log 90). -/
def hostMay (d : Dev) (die : Nat) (wr : Bool) : Bool := !bitN (d.die die).ctrl 1 || grants ((d.die die).access.getD hostMaster 0) 0 wr
/-- An access of the host to a die's span through BAR0: `step` is what is tried again while the host function is frozen. -/
def byHost (d : Dev) (step : Instr) (die off : Nat) (wr : Bool) (f : Dev) : Dev :=
  if d.stuck then d
  else if d.frozenMs.contains hostMaster then d.post 16 step d.args
  else if !hostMay d die wr then { freezeUnit d hostMaster (.die die) (ofN (0xFF00000000 + off)) (b2n wr) with hostReply := if wr then d.hostReply else .completerAbort }
  else f

/-! ## Ports -/

/-- Where a tile's block stands in its die's span. -/
def tileSpan (tile : Nat) : Nat := tile % 16 * 0x100000
/-- A port's write that is not a single aligned write of its size is dropped and counted (R335). -/
def dropped (d : Dev) (die : Nat) : Dev := countErr d die
/-- R335: a steward thread starts in a VACANT slot. -/
def stewardStart (d : Dev) (tile k : Nat) (ws : List D) : Dev :=
  let ca := mkCore tile (48 + k) 1
  let w3 := ws.getD 3 0
  let loc := ca * 16 + fieldN w3 3 0
  if (d.thread loc).st != .vacant || (pendingStarts d ca).any (fun r => r.loc = loc) || !canStart d ca || d.mint.stopped then countErr d (tileDie tile)
  else mintRequest d (tileDie tile) (.start
    { loc := loc, how := .steward, pc := ws.getD 0 0, a1 := ws.getD 1 0, a2 := ws.getD 2 0, priv := bitN w3 8, arr := none,
      lpb := (Vector.replicate 8 0).set 0 (lpbMask (ws.getD 4 0)), lpl := (Vector.replicate 8 0).set 0 (lplMask (ws.getD 5 0)), rnc := 0, launch := none, hgrp := none,
      sender := 0, w3 := 0, asked := d.cycle, earliest := 0, after := none })
/-- A write of other than the port's eight words has other operands, and is dropped; so with the other ports. -/
def execStewardStartPort (s : State) : Out := s.event fun _ d => byHost d .stewardStartPort (tileDie (d.arg 0)) (tileSpan (d.arg 0) + 0x2000) true <|
  if d.args.length ≠ 10 then dropped d (tileDie (d.arg 0)) else stewardStart d (d.arg 0) (d.arg 1 % 3) ((d.args.drop 2).map ofN)
/-- R15, R335: the thread-end port takes the slot from the lent thread and from the faulted one behind it, which moves to the cache
(log 117). -/
def endBehind (m : Mem) (d : Dev) (loc : Nat) : Dev := match d.lentOut.get? loc with
  | none => d
  | some (_, u) =>
    let ca := coreOf loc
    let (u, d) := collect d loc true u
    let d := intoCache m d loc ((freeCache d ca).headD (2000 + slotOf loc)) u
    let d := if isCompute ca then d.updRow (rowKeyOf ca) fun r => { r with live := r.live - 1 } else d
    { d with lentOut := d.lentOut.erase loc }
/-- What the faulted thread behind a LENT slot has in flight is answered first. -/
def behindBusy (d : Dev) (loc : Nat) : Bool := (d.lentOut.get? loc).isSome && (!answered d loc 0 true || !(journalOf d loc true).isEmpty)
/-- R335: the thread-end port. Its thread leaves the exit value 0 (R332). The thread stops; its refused entries are discarded and the others waited for; an atomic already
sent still takes effect. -/
def endPort (m : Mem) (d : Dev) (tile : Nat) (w : D) (again : Bool) : Dev :=
  let c := fieldN w 5 0
  let ca := tileCore tile c
  let loc := ca * 16 + fieldN w 11 8
  let status (d : Dev) (st : Nat) : Dev := d.updTile tile fun t => { t with endStatus := st }
  if 51 ≤ c || !(d.thread loc).live then status d 1
  else
    let d := if again then d else d.updThread loc fun t => { t.goHome with stopped := some none }
    -- the refused entries of a thread behind a LENT slot are discarded with the slot's (log 117)
    let behind := if (d.lentOut.get? loc).isSome then (journalOf d loc true).filter fun e => e.2.refused.isSome else []
    let d := (refusedEntries d loc ++ behind).foldl (fun d e => d.updCore e.2.core fun c => { c with journal := c.journal.erase e.1 }) d
    let atomics := d.reqs.any fun r => r.2.loc = loc && mine d loc r.1 && r.2.ent.isNone && r.2.phase = .sent && (match r.2.op with | .amo _ | .cas | .scn => true | _ => false)
    if atomics || !(ownEntries d loc).isEmpty || behindBusy d loc || endHeld d loc then (status d 2).post 8 .threadEndPort [tile, w.toNat, 1]
    else status (endThread m (endBehind m d loc) loc 0 (fieldN w 23 16)) 0
def execThreadEndPort (s : State) : Out := s.event fun m d =>
  -- the port's own further steps have a third operand
  if d.arg 2 = 1 then (if d.stuck then d else endPort m d (d.arg 0) (ofN (d.arg 1)) true)
  else byHost d .threadEndPort (tileDie (d.arg 0)) (tileSpan (d.arg 0) + 0x3000) true <|
    if d.args.length < 2 then dropped d (tileDie (d.arg 0)) else endPort m d (d.arg 0) (ofN (d.arg 1)) false
/-- A core is unfrozen: its slots whose wait ended meanwhile go on (R156). -/
def unfreezeCore (d : Dev) (ca : Nat) : Dev :=
  let d := d.updCore ca fun c => { c with frozen := false }
  ((List.range 16).map fun k => ca * 16 + k).foldl (fun d l => if (d.thread l).awaits .context && (d.thread l).mig.isNone then d.updThread l fun t => t.wake t.running else d) d
/-- R156, R335: every target unfreezes a master. -/
def unfreeze (d : Dev) (n : Nat) : Dev :=
  let d := { d with frozenMs := d.frozenMs.filter (· != n) }
  if 4096 ≤ n then (if n < 4224 then unfreezeCore d (mkCore (n - 4096) 0 2) else d)
  else
    let tile := n / 64
    match n % 64 with
    | 52 | 53 | 54 => engineThaw d tile (n % 64 - 52)
    | 55 => arrayKick d tile
    | 56 => gramKick d tile
    | c => if c < 51 then unfreezeCore d (tileCore tile c) else d
def execUnfreezePort (s : State) : Out := s.event fun _ d => byHost d .unfreezePort 0 0x3100 true <|
  if d.args.length ≠ 1 then dropped d (tileDie (d.arg 0)) else unfreeze d (d.arg 0 % 8192)
/-- R335, R336: 0 written to word 0 of a record of a tile (0), a die interface (1) or its base dies (2). -/
def freeViol (d : Dev) (which unit i : Nat) : Dev := match which with
  | 0 => d.updTile unit fun t => { t with viols := t.viols.setIfInBounds i .free }
  | 1 => d.updDie unit fun x => { x with viols := x.viols.setIfInBounds i .free }
  | _ => d.updDie unit fun x => { x with baseViols := x.baseViols.setIfInBounds i .free }
def execViolationRecordFree (s : State) : Out := s.event fun _ d =>
  byHost d .violationRecordFree (if d.arg 0 = 0 then tileDie (d.arg 1) else d.arg 1) (if d.arg 0 = 0 then tileSpan (d.arg 1) + 0x3200 else 0x1000800) true (freeViol d (d.arg 0) (d.arg 1) (d.arg 2))
/-- R336: the name unit finds the thread and sends it a WAKE. -/
def wakeFrom (d : Dev) (name : Nat) : Dev := d.postRange 40 1000 .wakeMessage [name]
def execWakePort (s : State) : Out := s.event fun _ d => byHost d .wakePort (d.arg 0) 0x1000200 true <|
  if d.args.length ≠ 3 then dropped d (d.arg 0) else wakeFrom d (d.arg 1 + d.arg 2 * 2 ^ 64)
/-- R336: a 16-byte read takes the oldest entry of the fault-address queue and returns it; an empty queue reads zeros. -/
def popFault (d : Dev) (die : Nat) : Dev :=
  let e := (d.die die).faultQ.headD (0, 0)
  { d.updDie die fun x => { x with faultQ := x.faultQ.drop 1 } with hostReply := .value (e.1.toNat + e.2.toNat * 2 ^ 64) }
/-- R336: the same of the page-request queue. -/
def popPage (d : Dev) (die : Nat) : Dev :=
  let e := (d.die die).pageQ.headD (0, 0, 0)
  { d.updDie die fun x => { x with pageQ := x.pageQ.drop 1 } with hostReply := .value (e.1.toNat + e.2.1.toNat * 2 ^ 64) }
def execFaultQueuePop (s : State) : Out := s.event fun _ d => byHost d .faultQueuePop (d.arg 0) 0x1001010 false (popFault d (d.arg 0))
def execPageRequestPop (s : State) : Out := s.event fun _ d => byHost d .pageRequestPop (d.arg 0) 0x1002010 false (popPage d (d.arg 0))
/-- R336: OVF of the fault-address queue (0) or the page-request queue (1) of a die. -/
def clearOvf (d : Dev) (die which : Nat) : Dev := d.updDie die fun x => if which = 0 then { x with faultOvf := false } else { x with pageOvf := false }
def execQueueOvfClear (s : State) : Out := s.event fun _ d => byHost d .queueOvfClear (d.arg 0) 0x1001000 true (clearOvf d (d.arg 0) (d.arg 1))
def writeCtrl (d : Dev) (die : Nat) (x : D) : Dev := d.updDie die fun y => { y with ctrl := ofN (b2n (bitN x 1) * 2) }
/-- R347. -/
def execCtrlWrite (s : State) : Out := s.event fun _ d => byHost d .ctrlWrite (d.arg 0) 0x1000108 true (writeCtrl d (d.arg 0) (ofN (d.arg 1)))

/-! ## Writing a control span (R334 to R336) -/

/-- R335: the writable bits of word `w` of a translation context. -/
def ctxMask (w : Nat) (x : D) : D := match w with
  | 0 => setField 0 57 12 (fieldN x 57 12)
  | 1 | 2 => setField 0 55 16 (fieldN x 55 16)
  | _ => 0
def accessMask (x : D) : D := setField 0 32 0 (fieldN x 32 0)
def sabMask (x : D) : D := setField (setField 0 57 18 (fieldN x 57 18)) 1 0 (fieldN x 1 0)
/-- R190: an entry count out of range is held as 24. -/
def ntcfgMask (x : D) : D :=
  let n := fieldN x 5 0
  setField (setField 0 57 12 (fieldN x 57 12)) 5 0 (if 16 ≤ n ∧ n ≤ 30 then n else 24)
def violSet (v : Viol) (w : Nat) (x : D) : Viol := match w with
  | 0 => if x = 0 then .free else { v with valid := bitN x 63, more := bitN x 62, master := fieldN x 12 0 }
  | 1 => { v with addr := x }
  | 2 => { v with kind := fieldN x 1 0 }
  | _ => v
def violsSet (l : Vector Viol n) (i w : Nat) (x : D) : Vector Viol n := l.setIfInBounds i (violSet (l.toArray.getD i .free) w x)
/-- A write of 8 bytes to a tile block. -/
def tileWrite (m : Mem) (d : Dev) (tile o : Nat) (x : D) : Dev :=
  if o = 0x100 then (d.updTile tile fun t => { t with budget := fieldN x 39 32 }).post 0 .launchSelection [tileDie tile]
  else if 0x200 ≤ o ∧ o < 0x380 then
    (let w := (o - 0x200) / 8 % 4
     d.updRow (tile * 12 + (o - 0x200) / 32) fun r => { r with ctx := r.ctx.setIfInBounds w (ctxMask w x) })
  else if 0x380 ≤ o ∧ o < 0x3A0 then
    (let w := (o - 0x380) / 8
     d.updTile tile fun t => { t with sctx := t.sctx.setIfInBounds w (ctxMask w x) })
  else if 0x1000 ≤ o ∧ o < 0x1198 then
    (let ca := tileCore tile ((o - 0x1000) / 8)
     let d := d.updCore ca fun c => { c with sab := sabMask x }
     if bitN x 1 && !(d.events.any fun e => e.step = .checkpointStreamWrite && e.args = [0, ca]) then d.post 1 .checkpointStreamWrite [0, ca] else d)
  else if 0x1800 ≤ o ∧ o < 0x1998 then d.updCore (tileCore tile ((o - 0x1800) / 8)) fun c => { c with dtv := x }
  else if 0x2000 ≤ o ∧ o < 0x20C0 then dropped d (tileDie tile)
  else if o = 0x3000 then endPort m d tile x false
  else if o = 0x3100 then unfreeze d (fieldN x 12 0)
  else if 0x3200 ≤ o ∧ o < 0x3300 then d.updTile tile fun t => { t with viols := violsSet t.viols ((o - 0x3200) / 32) ((o - 0x3200) / 8 % 4) x }
  else if 0x10000 ≤ o ∧ o < 0x20000 then d.updTile tile fun t => { t with access := if accessMask x = 0 then t.access.erase ((o - 0x10000) / 8) else t.access.set ((o - 0x10000) / 8) (accessMask x) }
  else d
/-- A write of 8 bytes to a die block. The base dies' access tables have no address of their own: an entry of the die interface's
table is theirs too (log 15). -/
def dieWrite (d : Dev) (die o : Nat) (x : D) : Dev :=
  if o = 0 then d.updDie die fun y => { y with ntcfg := ntcfgMask x }
  else if o = 8 then
    (let d := d.updDie die fun y => { y with age := ofN (fieldN x 31 0) }
     (d.tasks.filter fun t => t.die = die).foldl (fun d t => d.post 1 .taskAging [t.launch.toNat, t.entry]) d)
  else if o = 0x10 then d.updDie die fun y => { y with alloc := ofN (fieldN x 57 0) }
  else if 0x40 ≤ o ∧ o < 0x60 then d.updDie die fun y => { y with hostCtx := y.hostCtx.setIfInBounds ((o - 0x40) / 8) (ctxMask ((o - 0x40) / 8) x) }
  else if 0x60 ≤ o ∧ o < 0x80 then (if die = 0 then d.updDie die fun y => { y with winCtx := y.winCtx.setIfInBounds ((o - 0x60) / 8) (ctxMask ((o - 0x60) / 8) x) } else d)
  else if o = 0x108 then writeCtrl d die x
  else if 0x200 ≤ o ∧ o < 0x210 then dropped d die
  else if 0x800 ≤ o ∧ o < 0x900 then d.updDie die fun y => { y with viols := violsSet y.viols ((o - 0x800) / 32) ((o - 0x800) / 8 % 4) x }
  else if 0xA00 ≤ o ∧ o < 0xD00 then d.updDie die fun y => { y with baseViols := violsSet y.baseViols ((o - 0xA00) / 32) ((o - 0xA00) / 8 % 4) x }
  else if o = 0x1000 then (if bitN x 63 then d else clearOvf d die 0)
  else if o = 0x2000 then (if bitN x 63 then d else clearOvf d die 1)
  else if 0x4000 ≤ o ∧ o < 0x4400 then
    (let g := (o - 0x4000) / 64
     writeGroup d g ((o - 0x4000) / 8 % 8) x)
  else if 0x8000 ≤ o ∧ o < 0x18000 then
    (let k := (o - 0x8000) / 8
     let put (t : Tbl D) (k : Nat) : Tbl D := if accessMask x = 0 then t.erase k else t.set k (accessMask x)
     d.updDie die fun y => { y with access := put y.access k, baseAccess := (List.range 3).foldl (fun t j => put t (8192 * (3 * die + j) + k)) y.baseAccess })
  else d
/-- R334: the bytes of the ports. -/
def isPort (off : Nat) : Bool :=
  let o := off % 0x100000
  if off < 0x1000000 then
    (0x2000 ≤ o && o < 0x20C0) || (0x3000 ≤ o && o < 0x3008) || (0x3100 ≤ o && o < 0x3108)
  else 0x1000200 ≤ off && off < 0x1000210
/-- R335: a write that touches a port and is not its single aligned write is dropped and counted. -/
def strayWrite (d : Dev) (die off size : Nat) : Dev := if isPort off || isPort (off + (size - 1)) then dropped d die else d
/-- A write of 8 bytes to a span, 8-byte aligned; a read-only word keeps its value. -/
def spanWrite (m : Mem) (d : Dev) (die off : Nat) (x : D) : Dev :=
  if off % 8 ≠ 0 then strayWrite d die off 8
  else if off < 0x1000000 then tileWrite m d (die * 16 + off / 0x100000) (off % 0x100000) x
  else if off < 0x1020000 then dieWrite d die (off - 0x1000000) x
  else d
/-- R334: a write of fewer bytes: a port drops and counts it; a register takes the bytes written. -/
def spanStore (m : Mem) (d : Dev) (die off size x : Nat) : Dev :=
  if size = 8 then spanWrite m d die off (ofN x)
  else if isPort off then dropped d die
  else
    let sh := 8 * (off % 8)
    spanWrite m d die (off / 8 * 8) (setField (spanRead d die off) (sh + 8 * size - 1) sh x)
/-- A device's request to a span, at the moment it is performed: a load reads, a store writes, an atomic does both. -/
def spanRequest (m : Mem) (d : Dev) (id : Nat) (r : Req) : Dev :=
  let ts := r.parts.map fun p => (p, target d r p)
  let val (x : Part × Target) : Nat := match x.2 with
    | .span die off => spanBytes d die off x.1.size
    | .byte k _ => rdN m d k x.1.size
    -- what a peer answers is a free value (log 110)
    | .peer _ => (Config.freeBits (8 * x.1.size) (2 ^ 64 * (d.free + 1) + x.1.va.toNat)).toNat
    | _ => 0
  let store (d : Dev) (x : Part × Target) (n : Nat) : Dev := match x.2 with
    | .span die off => spanStore m d die off x.1.size n
    | .byte k _ => writeBytes m d r.loc k x.1.size n
    | _ => d
  let put (old : Nat) : Nat := ts.foldl (fun acc x =>
    let w := 8 * x.1.size
    acc - acc / 2 ^ (w * x.1.lane) % 2 ^ w * 2 ^ (w * x.1.lane) + val x * 2 ^ (w * x.1.lane)) old
  let ack (d : Dev) : Dev := match r.ent with
    | some e => d.post r.back .journalAck [r.core, e]
    | none => { d with reqs := d.reqs.erase id }
  let p := ts.headD (⟨0, 8, 0, 0, none, 0, 0⟩, .wait)
  let old := val p
  let x := (r.opnds.headD 0).toNat
  let d := { d with free := d.free + 1 }
  match r.op with
  | .ld sg => match r.dst with
    | .v n => answer d id r (g1 r (put ((d.owner r.loc id).vr n).val.toNat))
    | .xa => answer d id r [(.xa, BitVec.ofNat 6400 (put 0)), (.xflags, BitVec.ofNat 6400 (put 0 / 2 ^ 6400 % 4))]
    | _ => answer d id r (g1 r (loadValue sg p.1.size old).toNat)
  | .ldt | .ldw | .rsv => answer d id r (g1 r old)
  | .st | .ste | .stf => ack (ts.foldl (fun d x => store d x x.1.data.toNat) d)
  | .amo op => answer (store d p (amoOp op p.1.size old x)) id r (withStatus r old 0)
  | .red op => ack (store d p (amoOp op p.1.size old x))
  | .cas =>
    let nw := (r.opnds.getD 2 0).toNat % 2 ^ (8 * p.1.size)
    answer (if old = x then store d p nw else d) id r (withStatus r old 0)
  | .scn => answer d id r (g1 r 1)
/-- R334, R335: a device's request reaches a span (one operand), a unit writes bytes of one (four: die, offset, value, size), or the host
writes 8 bytes (three). -/
def execControlRegisterWrite (s : State) : Out := s.event fun m d =>
  if d.args.length = 1 then
    match d.reqs.get? (d.arg 0) with
    | some r => spanRequest m d (d.arg 0) r
    | none => d
  else if d.args.length = 4 then spanStore m d (d.arg 0) (d.arg 1) (d.arg 3) (d.arg 2)
  else byHost d .controlRegisterWrite (d.arg 0 % 4) (d.arg 1) true (spanWrite m d (d.arg 0 % 4) (d.arg 1) (ofN (d.arg 2)))

/-! ## The host's ports (R338, R339) -/

/-- R339: an earlier message of the same port still waits to be placed: a seventh operand numbers those that wait. -/
def portWaits (d : Dev) (die n : Nat) : Bool := d.events.any fun e => e.step = .hostActiveMessagePort && e.args.length = 7 && e.args.head? = some die && e.args.getD 6 0 < n
/-- R28, R339: an active message of the host, in the words of the port. -/
def execHostActiveMessagePort (s : State) : Out := s.event fun _ d =>
  let ca := d.arg 5 % 2 ^ 15
  if d.stuck then d
  else if d.args.length < 6 || !realCompute ca || dieOf ca ≠ d.arg 0 then countErr d (d.arg 0 % 4)
  else
    let (n, d) := if d.args.length = 7 then (d.arg 6, d) else d.newId
    let again (d : Dev) : Dev := d.post 16 .hostActiveMessagePort (d.args.take 6 ++ [n])
    if portWaits d (d.arg 0) n then again d
    else match placeActive d ca ((d.args.drop 1).take 4 |>.map ofN) hostSender with
      | some d => d
      | none => again d
/-- R339: a descriptor enters at depth 1. -/
def execHostLaunchPort (s : State) : Out := s.event fun _ d =>
  let die := d.arg 0 % 4
  if d.stuck then d
  else if d.args.length ≠ 2 then countErr d die
  else
    let (id, d) := d.newId
    let e : Entry :=
      { die := die, loc := mkCore (16 * die) 0 0 * 16, arr := none, addr := ofN (d.arg 1), pc := 0, ctx := (d.die die).hostCtx, parent := none, user := false,
        words := [], aux := [], deps := [], lanes := [] }
    ({ d with entries := d.entries.set id e, launchResult := d.launchResult.setIfInBounds die (BitVec.allOnes 128), launchPort := d.launchPort.setIfInBounds die id }).post 1
      .launchAccept [id]
/-- R296, R339: an acknowledgement; a second one, or one of another name, is dropped and counted at die 0, where the endpoint is. -/
def acknowledge (m : Mem) (d : Dev) (n : Q) : Dev := match d.launches.find? fun l => l.name = n && l.host with
  | none => countErr d 0
  | some l => if l.acked then countErr d 0 else if l.done then (if tableHeld d l.die n then d.post 16 .hostAcknowledgePort d.args else forget m d l) else updLaunch d n fun l => { l with acked := true }
def execHostAcknowledgePort (s : State) : Out := s.event fun m d =>
  if d.stuck then d else if d.args.length ≠ 2 then countErr d 0 else acknowledge m d (BitVec.ofNat 128 (d.arg 0 + d.arg 1 * 2 ^ 64))
/-- R337, R338: the host function's accesses, through the window context of die 0. -/
def hostU (d : Dev) : UCtx := ⟨noThread, mkCore 0 0 2, hostMaster, rootOf (d.die 0).winCtx, false, []⟩
/-- What a stopped access of the host does: it waits for a page, a stack or a granule, or freezes the host function. -/
def hostStopped (d : Dev) (step : Instr) (wr : Bool) (kind : Nat) (e : UStop) : Dev := match e with
  | .absent .. => (stopUnit d (hostU d) wr kind e).post 64 step d.args
  | .wait | .held => d.post 16 step d.args
  | _ => stopUnit d (hostU d) wr kind e
/-- R338: a request that is refused is completed with Completer Abort. -/
def hostAbort (d : Dev) : Dev := { d with hostReply := .completerAbort }
def UStop.waits : UStop → Bool
  | .absent .. | .wait | .held => true
  | _ => false
/-- R338: the host's write of bytes: every word of them is reached before the first is written (log 136). -/
def hostWrite (m : Mem) (d : Dev) (va : D) (size x : Nat) : Except UStop Dev := do
  let ps ← (byteWrites va size x).mapM fun p => (unitPlace m d (hostU d) p.1 true).map fun at_ => (at_, p.2)
  ps.foldlM (fun d p => writeAt m d (hostU d) noThread p.1 p.2.1 p.2.2) d
/-- The host's read of bytes, word by word. -/
def hostRead (m : Mem) (d : Dev) (va : D) (size : Nat) : Except UStop Nat :=
  (byteWrites va size 0).foldlM (fun n p => (unitRead m d (hostU d) p.1 p.2.1).map fun x => n + x * 256 ^ (p.1 - va).toNat) 0
/-- R334: a write through BAR0: a port of 64 or 16 bytes, or words. -/
def barWrite (m : Mem) (d : Dev) (die off size x : Nat) : Dev :=
  let o := off % 0x100000
  let ws := (List.range (size / 8)).map fun i => ofN (x / 2 ^ (64 * i) % 2 ^ 64)
  if off < 0x1000000 && size = 64 && 0x2000 ≤ o && o < 0x20C0 && o % 64 = 0 then stewardStart d (die * 16 + off / 0x100000) ((o - 0x2000) / 64) ws
  else if off = 0x1000200 && size = 16 then wakeFrom d (x % 2 ^ 128)
  else if size = 8 then spanWrite m d die off (ofN x)
  else if off % 8 = 0 && size % 8 = 0 && !((List.range (size / 8)).any fun i => isPort (off + 8 * i)) then
    ws.zipIdx.foldl (fun d w => spanWrite m d die (off + 8 * w.2) w.1) d
  else strayWrite d die off size
/-- R334, R336: a read through BAR0: an entry of a queue, or words. -/
def barRead (d : Dev) (die off size : Nat) : Dev :=
  if off = 0x1001010 && size = 16 then popFault d die
  else if off = 0x1002010 && size = 16 then popPage d die
  else { d with hostReply := .value (spanBytes d die off size), free := d.free + 1 }
/-- R334, R338: an access of the host: address, size, whether it writes, data; with a fifth operand 1 it goes through BAR0, else through
BAR4. An uncorrectable word gives a free value (log 93). -/
def execHostWindowAccess (s : State) : Out := s.event fun m d =>
  let va := ofN (d.arg 0 % 2 ^ 36)
  let size := d.arg 1
  if d.arg 4 = 1 then
    let die := d.arg 0 / 2 ^ 28 % 4
    let off := d.arg 0 % 2 ^ 28
    byHost d .hostWindowAccess die off (d.arg 2 = 1) (if d.arg 2 = 1 then barWrite m d die off size (d.arg 3) else barRead d die off size)
  else if d.stuck then d
  else if d.frozenMs.contains hostMaster then d.post 16 .hostWindowAccess d.args
  else if d.arg 2 = 1 then match hostWrite m d va size (d.arg 3) with
    | .ok d => serveWaiters m d.feWait.length d
    | .error e => hostStopped d .hostWindowAccess true 1 e
  else
    let free : HostReply := .value (Config.freeBits (8 * size) d.free).toNat
    match hostRead m d va size with
    | .ok x => { (byteWrites va size 0).foldl (fun d p => unitFix m d (hostU d) p.1) d with hostReply := .value x }
    | .error (.bad k) => { badRead d hostMaster k with hostReply := free, free := d.free + 1 }
    | .error (.badChunk _) => { d with hostReply := free, free := d.free + 1 }
    | .error e => let d := hostStopped d .hostWindowAccess false 0 e
      if e.waits then d else hostAbort d
/-- R338: what FetchAdd (0), Swap (1) and CAS (2) leave at a word. -/
def hostOpValue (op size old x cmp : Nat) : Nat := match op with
  | 0 => (old + x) % 2 ^ (8 * size)
  | 1 => x
  | _ => if old = cmp then x else old
/-- R338: FetchAdd (0), Swap (1) or CAS (2): address, size, operation, operand, compare value. It needs RD and W (R358). -/
def execHostAtomicop (s : State) : Out := s.event fun m d =>
  let va := ofN (d.arg 0 % 2 ^ 36)
  let size := d.arg 1
  let op := d.arg 2
  let x := d.arg 3 % 2 ^ (8 * size)
  if d.stuck then d
  else if !(size = 4 || size = 8 || (size = 16 && op = 2)) then { d with hostReply := .unsupportedRequest }
  else if va.toNat % size ≠ 0 then hostAbort d
  else if d.frozenMs.contains hostMaster then d.post 16 .hostAtomicop d.args
  else match placeFor m d (hostU d) va 3 with
    | .ok (.key k) =>
      if uncorrectable m d k then hostAbort (badRead d hostMaster k)
      else if keyHeld d k size || heldForOther d noThread k size then d.post 16 .hostAtomicop d.args
      else
        let old := rdN m d k size
        let d := { d with hostReply := .value old }
        if op ≤ 1 || old = d.arg 4 then writeBytes m d noThread k size (hostOpValue op size old x (d.arg 4)) else correctErr m d noThread k
    | .ok (.span die off) =>
      let old := spanBytes d die off size
      let d := { d with hostReply := .value old, free := d.free + 1 }
      if op ≤ 1 || old = d.arg 4 then (List.range ((size + 7) / 8)).foldl (fun d i =>
        spanStore m d die (off + 8 * i) (min 8 (size - 8 * i)) (hostOpValue op size old x (d.arg 4) / 2 ^ (64 * i) % 2 ^ 64)) d else d
    -- R135, R341: a COMP region and a peer take no atomic
    | .ok _ => hostAbort d
    | .error e => let d := hostStopped d .hostAtomicop true 2 e
      if e.waits then d else hostAbort d

/-! ## Amigaes peers, CXL, errors (R340 to R344) -/

/-- R341: a peer's 64 bytes at a stack: port, address, key, whether it writes, whether it is an atomic or full/empty operation, and
eight words. -/
def execPeerRequest (s : State) : Out := s.event fun m d =>
  let k := d.arg 0 % 12
  let die := k / 3
  let wr := d.arg 3 = 1
  let master := 4224 + k
  let key := die * 2 ^ 56 + (Config.stackBase k).toNat + d.arg 1 / 64 * 64
  -- an address beyond the stack is refused, as a request that holds an atomic is
  if d.stuck || d.arg 4 = 1 || stackBytes ≤ d.arg 1 then d
  else if d.retraining.contains k || d.frozenMs.contains master then d.post 16 .peerRequest d.args
  else if !grants ((d.die die).baseAccess.getD (8192 * k + master) 0) (d.arg 2 % 16) wr then freezeUnit d master (.base k) (ofN (d.arg 1)) (b2n wr)
  else if uncorrectable m d key || uncorrectable m d (key + 32) then (if wr then d else badRead d master (if uncorrectable m d key then key else key + 32))
  else if wr && heldForOther d noThread key 64 then d.post 16 .peerRequest d.args
  else if wr then serveWaiters m d.feWait.length ((List.range 8).foldl (fun d i => writeBytes m d noThread (key + 8 * i) 8 (d.arg (5 + i))) d)
  else correctErr m (correctErr m d noThread key) noThread (key + 32)
/-- R340. -/
def execCxlLinkDown (s : State) : Out := s.event fun _ d => if d.cxlDown.contains (d.arg 0) then d else { d with cxlDown := d.cxlDown ++ [d.arg 0] }
def execCxlLinkUp (s : State) : Out := s.event fun _ d => { d with cxlDown := d.cxlDown.filter (· != d.arg 0) }
/-- R342: an error arises in the code word of a byte: one that can be corrected (1), or one that cannot (2); two in one code word
cannot. R340: an expander shows only the second, as poison of 64 bytes (log 107). -/
def execSoftError (s : State) : Out := s.event fun m d =>
  let k := d.arg 0
  if 76 * 2 ^ 56 ≤ k then d
  else if 68 * 2 ^ 56 ≤ k then (if d.arg 1 = 2 then wrB (wrB d (errKey (k / 64 * 64)) 2) (errKey (k / 64 * 64 + 32)) 2 else d)
  else wrB d (errKey k) (BitVec.ofNat 8 (min 2 ((rdB m d (errKey k)).toNat + (if d.arg 1 = 2 then 2 else 1))))
/-- R343. -/
def execBadPageAppend (s : State) : Out := s.event fun _ d => d.updDie (d.arg 0 % 4) fun x =>
  if x.badPages.length < 4096 && !x.badPages.contains (d.arg 1) then { x with badPages := x.badPages ++ [d.arg 1] } else x
def inStack (k key : Nat) : Bool := key / 2 ^ 56 = k / 3 && (stackAddr k (key % 2 ^ 56)).toNat % 2 ^ 56 < stackBytes
/-- R344: a row save writes to a stack: contexts to their areas, then slices to their image, whose granules are of 256 bytes or more. -/
def savesTo (m : Mem) (d : Dev) (k : Nat) (p : Preempt) : Bool :=
  (p.phase = 2 && (cachedOf d p).any fun c => ((d.core c.1).tcc.get? c.2).any fun t => inStack k t.area) ||
  (p.phase = 3 && p.row.any fun r => match rowTable m d r with
    | .ok (some (_, base)) => (List.range 8192).any fun i => match unitPlace m d (saveU d r 0) (base + ofN (256 * i)) true with
      | .ok (.key x) => inStack k x
      | _ => false
    | _ => false)
/-- R344: retraining waits for row saves to the stack whose deadlines have not passed. -/
def execRetrainRequest (s : State) : Out := s.event fun m d =>
  let k := d.arg 0 % 12
  let saves := d.preempts.any fun p => p.2.row.isSome && d.cycle < p.2.due && savesTo m d k p.2
  if saves then d.post 64 .retrainRequest d.args
  else if d.retraining.contains k then d
  else ({ d with retraining := d.retraining ++ [k] }).postRange 1 4199999 .retrainEnd [k]
def execRetrainEnd (s : State) : Out := s.event fun _ d => { d with retraining := d.retraining.filter (· != d.arg 0 % 12) }

/-! ## Power, bring-up, attestation (R345 to R348) -/

/-- A tile's power, temperature and clock as telemetry shows them: measured, so open, but for the clock at the module step. -/
def tileTelemetry (d : Dev) (step : Nat) (below : Bool) (k : Nat) : D :=
  let n := d.free + k
  let s := if below then step + 1 + Config.freeNat n % (9 - step) else step
  setField (Config.freeBits 64 n) 63 48 (2100 - 100 * s)
/-- R345: the controller's window ends: it has held the average of the module's power at or below 3,000 W, and the clock goes down a
step, up one, or stays; tiles may run below the
module step while no deterministic launch is resident. -/
def execPowerWindow (s : State) : Out := s.event fun _ d =>
  let (p, d) := d.draw 3000001
  let (c, d) := d.draw 3
  let step := fieldN (d.die 0).clk 3 0
  let step' := if c = 2 then min 9 (step + 1) else if c = 1 then step - 1 else step
  let det := detResident d
  let d' := (List.range 4).foldl (fun d die =>
    let mask := if det || step' = 9 then 0 else Config.freeNat (d.free + 100 + die) % 65536
    d.updDie die fun x => { x with
      clk := ofN (step' + mask * 65536),
      telemetry := ((List.range 16).foldl (fun (t : Tbl D) k => t.set (16 * k) (tileTelemetry d step' (mask / 2 ^ k % 2 = 1) (16 * die + k))) x.telemetry).set 0x100 (ofN p) }) d
  { d' with free := d.free + 200 }.post (1000 * (2100 - 100 * step')) .powerWindow []
/-- R188, R347: what a reset leaves: everything at its reset value but the mint, which resumes at the block after the last one
recorded, the bad-page lists, and the numbering of free values and records. -/
def resetDev (d : Dev) : Dev :=
  { Dev.reset with
    free := d.free, nextId := d.nextId, mint := { Dev.reset.mint with next := (d.mint.recorded + 1) * 2 ^ 32, recorded := d.mint.recorded },
    dies := (List.range 4).foldl (fun (t : Tbl Die) k => if (d.die k).badPages.isEmpty then t else t.set k { Die.reset with badPages := (d.die k).badPages }) [],
    hostAtomics := d.hostAtomics }
/-- Memory keeps its contents over a reset (log 17). -/
def execReset (s : State) : Out := s.event fun _ d => { resetDev d with stuck := d.stuck }
/-- R347: after power-good the memories of the package hold what `State.reset` says (log 17); a failed signature leaves the part in
step 1. -/
def execPowerGood (s : State) : Out := s.event fun _ d =>
  let (x, d) := d.draw 2
  { (((resetDev d).clear 0 (76 * 2 ^ 56)).clear (2 ^ 72) (2 ^ 74)) with stuck := decide (x = 1) }
/-- R348: measurements are answered outside the machine; the root of trust may unlock JTAG's access to the halt groups. -/
def execSpdmRequest (s : State) : Out := s.event fun _ d =>
  let (x, d) := d.draw 2
  if x = 1 then { d with jtagOpen := true } else d

end Sys2Proof.Machine
end

