-- ==== Sys2Proof/Machine/Restripe.lean ====
section
/-! DEFINITION. CPR (R274, R154): a page moves to a new placement word granule by granule, under a cursor. -/
namespace Sys2Proof.Machine

def ECmd.dies (c : ECmd) : List Nat := setBits (plDies c.old ||| plDies c.b) 4
def granuleSize (w : D) : Nat := 2 ^ (plGran w + 8)
/-- The cursor of the page on every die of the old and the new word. -/
def setCursor (d : Dev) (c : ECmd) (g : Nat) (lock : Bool) : Dev :=
  c.dies.foldl (fun d k => d.updDie k fun x => { x with cursors := x.cursors.set c.slot ⟨lock, g, c.b, c.base, c.old, c.ctx, c.size⟩ }) d
/-- R164: a locked granule's reservations are lost. -/
def loseRange (m : Mem) (d : Dev) (key n : Nat) : Dev := (d.resvs.filter fun r => overlaps r.key r.size key n).foldl (loseOne m) d
/-- Where a byte of the page stands under its old word, or under the new one. CPR asks the second stage for no right of the page. -/
def sameTarget (c : ECmd) (d : Dev) (fresh wr : Bool) (va : Nat) : Target :=
  placeTarget d (c.uctx d).master c.ctx 0 false wr va (if fresh then c.b else c.old) c.size fresh
/-- The second stage's entries of the page. -/
def pageEntry (c : ECmd) (x : Stage2) : Bool := x.ctx = c.ctx && x.base = c.base.toNat && x.size = c.size
def lockGranule (m : Mem) (d : Dev) (c : ECmd) (g : Nat) : Dev :=
  let d := setCursor d c g true
  let n := granuleSize c.old
  match sameTarget c d false false (c.base.toNat + g * n) with
  | .byte k _ => loseRange m d k n
  | _ => d
/-- What CPR refuses (R274), or its slot, the old word, its leaf's key and the page. -/
def restripeCheck (m : Mem) (d : Dev) (c : ECmd) : Except Nat (Nat × D × Nat × Nat) :=
  if winCode c.a ≠ 0 then .error 0x08
  else match (walk m d c.ctx c.a.toNat 0 false).2 with
    | .refused .. => .error 0x08
    | .leaf w _ lvl =>
      let size := leafSize lvl
      if plMalformed c.b size || plMig c.b || plCur c.b ≠ 0 || 1 < plTier c.b || plTier c.b ≠ plTier w || plGran c.b ≠ plGran w then .error 0x02
      else if plMig w then .error 0x44
      else
        let dies := setBits (plDies w ||| plDies c.b) 4
        match (List.range 64).find? (fun k => dies.all fun x => ((d.die x).cursors.get? k).isNone), leafKey m d c.ctx c.a.toNat lvl with
        | none, _ => .error 0x43
        | _, none => .error 0x08
        | some slot, some k =>
          let per := framesPerPage c.b size
          if (plUnits c.b).any fun u => poolCount m d (poolOf (plTier c.b) u) < per then .error 0x1B else .ok (slot, w, k, size)
/-- Phase 1: the slot, the frames, the leaf with MIG = 1, and the first shoot-down. -/
def restripeStart (m : Mem) (d : Dev) (tile e : Nat) (c : ECmd) : Dev :=
  match restripeCheck m d c with
  | .error r => engineEnd d tile e { c with status := 1, reason := r }
  | .ok (slot, w, k, size) =>
    let base := c.a.toNat / size * size
    let c := { c with slot := slot, old := w, size := size, base := ofN base }
    let per := framesPerPage c.b size
    match takeAll m d (plTier c.b) per (plUnits c.b) with
    | none => engineEnd d tile e { c with status := 1, reason := 0x1B }
    | some (fs, d) =>
      -- the new frames are entered with the rights the old ones have
      let old := d.stage2.filter fun x => pageEntry c x && !x.fresh
      let d := { d with stage2 := (layPages (unitDie (plTier c.b)) c.ctx base size per fs).map (fun x =>
        { x with fresh := true, rd := old.all fun y => y.rd, wr := old.all fun y => y.wr }) ++ d.stage2 }
      let d := lockGranule m d c 0
      let d := wr64 d k (setField (setField w 29 29 1) 15 0 slot)
      startTsd (setCur d tile e c) c.ctx base size .restripeRun [tile, e, c.id, 2]
/-- One word with its full/empty bit, and the mark of its code word. -/
def moveWord (m : Mem) (d : Dev) (c : ECmd) (va : Nat) : Except EStop (Dev × Bool) :=
  let src := sameTarget c d false false va
  let dst := sameTarget c d true true va
  let bad (t : Target) (wr : Bool) : EStop := match t with
    | .wait => .again d
    | .nonresident die => .again (unitStopped d (c.uctx d) wr (.absent die (ofN va) c.size))
    | .denied a x => stopAt (unitStopped d (c.uctx d) wr (.denied a x)) 0x09 (ofN va) 0
    | .refused r => stopAt d r (ofN va) 0
    | .linkDown => stopAt d 0x0B (ofN va) 0
    | _ => stopAt d 0x09 (ofN va) 0
  match src, dst with
  | .byte k _, .byte k' _ =>
    let d := wr64 d k' (rd64 m d k)
    let d := if plTier c.b = 1 then d else setFe d k' (feEmpty m d k)
    if va % 32 ≠ 0 then .ok (d, false)
    else
      let mark := rdB m d (errKey k)
      let d := wrB d (errKey k') (if mark = 2 then 2 else 0)
      -- a word held for another thread's RSV moves with it
      let d := { d with resvHold := d.resvHold.map fun (x : Nat × Resv) => if k ≤ x.2.key ∧ x.2.key < k + 32 then (x.1, { x.2 with key := k' + (x.2.key - k) }) else x }
      if mark = 2 then .ok (pushFault d (keyDie k) (ofN (keyPhys k)) 4 (c.uctx d).master, true) else .ok (d, false)
  | .byte .., t => .error (bad t true)
  | t, _ => .error (bad t false)
def moveWords (m : Mem) (c : ECmd) (va : Nat) : Nat → Dev → Bool → Except EStop (Dev × Bool)
  | 0, d, b => .ok (d, b)
  | n + 1, d, b => (moveWord m d c va).bind fun r => moveWords m c (va + 8) n r.1 (b || r.2)
/-- The words carried by what is in flight to the page are the new one's from now on: every TLB has acknowledged. -/
def restamp (c : ECmd) (ctx : D) (p : Part) : Part :=
  if ctx = c.ctx ∧ p.page = c.size ∧ p.place.isSome ∧ p.va.toNat / c.size * c.size = c.base.toNat then { p with place := some c.b } else p
def restampAll (d : Dev) (c : ECmd) : Dev :=
  let req (r : Req) : Req := { r with parts := r.parts.map (restamp c (rootOf (ctxOf d r.loc))) }
  { d with
    reqs := d.reqs.map fun x => (x.1, req x.2),
    cores := d.cores.map fun x => (x.1, { x.2 with journal := x.2.journal.map fun j => (j.1, { j.2 with orig := j.2.orig.map req }) }),
    nameQ := d.nameQ.map fun x => (x.1, { x.2 with parts := x.2.parts.map (restamp c (rootOf (ctxOf d x.2.loc))) }),
    gramQ := d.gramQ.map fun x => (x.1, { x.2 with parts := x.2.parts.map (restamp c (rootOf (ctxOf d x.2.loc))) }) }
/-- The page's frames that a pool owns: pool and frame number. -/
def pageFrames (c : ECmd) (fresh : Bool) (w : D) (d : Dev) : List (Nat × Nat × Nat) :=
  (d.stage2.filter fun x => x.ctx = c.ctx && x.base = c.base.toNat && x.size = c.size && x.fresh = fresh).filterMap fun x =>
    x.part.map fun p => ((poolOf (plTier w) p.1).1, (poolOf (plTier w) p.1).2, x.frame / 65536)
/-- Phase 4: every TLB has acknowledged the new word: the old frames return, the slots are free. -/
def restripeEnd (m : Mem) (d : Dev) (c : ECmd) : Dev :=
  let gone := pageFrames c false c.old d
  let came := pageFrames c true c.b d
  let here := pageEntry c
  let d := restampAll (gone.foldl (fun d f => giveFrame m d (f.1, f.2.1) f.2.2) d) c
  let d := { d with
    stage2 := (d.stage2.filter fun x => !(here x && !x.fresh)).map fun x => if here x then { x with fresh := false } else x,
    blocks := d.blocks.map fun b => if b.ctx = c.ctx ∧ b.va ≤ c.base.toNat ∧ c.base.toNat < b.va + b.len then { b with frames := b.frames.filter (fun f => !gone.contains f) ++ came } else b }
  c.dies.foldl (fun d k => d.updDie k fun x => { x with cursors := x.cursors.erase c.slot }) d
/-- Phase 2: the granule's time passes. Phase 3: it is copied, and the next one is locked. -/
def restripe (m : Mem) (d : Dev) : Dev :=
  let tile := d.arg 0
  let e := d.arg 1
  if d.arg 3 = 0 then engineTake d tile false (d.arg 2)
  else match (d.engine tile e).cur with
    | none => d
    | some c =>
      let n := granuleSize c.old
      let time := 16 + (n + 127) / 128
      if c.id ≠ d.arg 2 then d
      else match d.arg 3 with
        | 1 => restripeStart m d tile e c
        | 2 => d.post time .restripeRun [tile, e, c.id, 3]
        | 3 => match moveWords m c (c.base.toNat + c.prog * n) (n / 8) d false with
          | .error (.stop d r w _ _) => engineEnd d tile e { c with status := 3, reason := r, w3 := w }
          | .error (.again d) | .error (.gram d _) => d.post 16 .restripeRun [tile, e, c.id, 3]
          | .ok (d, bad) =>
            let g := c.prog + 1
            let c := { c with prog := g, w1 := ofN g, status := if bad then 2 else c.status }
            let d := setCur d tile e c
            if g * n < c.size then
              let d := lockGranule m d c g
              serveWaiters m d.feWait.length (d.post time .restripeRun [tile, e, c.id, 3])
            else
              let d := setCursor d c g false
              let d := match leafKey m d c.ctx c.base.toNat (sizeLvl c.size) with
                | some k => wr64 d k c.b
                | none => d
              startTsd d c.ctx c.base.toNat c.size .restripeRun [tile, e, c.id, 4]
        | _ => engineEnd (restripeEnd m d c) tile e c
def execRestripeRun (s : State) : Out := s.event restripe

end Sys2Proof.Machine
end

