-- ==== Sys2Proof/Machine/Uni.lean ====
section
/-! DEFINITION. The UNI pair (R21, R49, R111): the word at the next address is executed by a gang's leader alone, and its result
is posted to the followers; in a row that is not in gang mode it is executed as itself. -/
namespace Sys2Proof.Machine

/-- R111: the instructions UNI may prefix, with their meanings and destinations. -/
def uniMeaning : Instr → Option ((State → Out) × BitVec 5)
  | .add d a b m n => some (execAdd d a b m n, d)
  | .sub d a b m n => some (execSub d a b m n, d)
  | .mul d a b m n => some (execMul d a b m n, d)
  | .mulh d a b m n => some (execMulh d a b m n, d)
  | .mulhn d a b m n => some (execMulhn d a b m n, d)
  | .div d a b m n => some (execDiv d a b m n, d)
  | .divn d a b m n => some (execDivn d a b m n, d)
  | .rem d a b m n => some (execRem d a b m n, d)
  | .remn d a b m n => some (execRemn d a b m n, d)
  | .and d a b m n => some (execAnd d a b m n, d)
  | .or d a b m n => some (execOr d a b m n, d)
  | .xor d a b m n => some (execXor d a b m n, d)
  | .andn d a b m n => some (execAndn d a b m n, d)
  | .orn d a b m n => some (execOrn d a b m n, d)
  | .shl d a b m n => some (execShl d a b m n, d)
  | .shrl d a b m n => some (execShrl d a b m n, d)
  | .shra d a b m n => some (execShra d a b m n, d)
  | .rotl d a b m n => some (execRotl d a b m n, d)
  | .rotr d a b m n => some (execRotr d a b m n, d)
  | .min d a b m n => some (execMin d a b m n, d)
  | .max d a b m n => some (execMax d a b m n, d)
  | .minn d a b m n => some (execMinn d a b m n, d)
  | .maxn d a b m n => some (execMaxn d a b m n, d)
  | .slt d a b m n => some (execSlt d a b m n, d)
  | .sltn d a b m n => some (execSltn d a b m n, d)
  | .seq d a b m n => some (execSeq d a b m n, d)
  | .sne d a b m n => some (execSne d a b m n, d)
  | .sel d a b m n => some (execSel d a b m n, d)
  | .clz d a m => some (execClz d a m, d)
  | .ctz d a m => some (execCtz d a m, d)
  | .popc d a m => some (execPopc d a m, d)
  | .brev d a m => some (execBrev d a m, d)
  | .bswp d a m => some (execBswp d a m, d)
  | .shadd d a b m n k => some (execShadd d a b m n k, d)
  | .addi d a m i => some (execAddi d a m i, d)
  | .andi d a m i => some (execAndi d a m i, d)
  | .ori d a m i => some (execOri d a m i, d)
  | .xori d a m i => some (execXori d a m i, d)
  | .slti d a m i => some (execSlti d a m i, d)
  | .seqi d a m i => some (execSeqi d a m i, d)
  | .shli d a m k1 => some (execShli d a m k1, d)
  | .shrli d a m k1 => some (execShrli d a m k1, d)
  | .shrai d a m k1 => some (execShrai d a m k1, d)
  | .rotli d a m k1 => some (execRotli d a m k1, d)
  | .li d i => some (execLi d i, d)
  | .lih d h v => some (execLih d h v, d)
  | .exts d a m p w => some (execExts d a m p w, d)
  | .extz d a m p w => some (execExtz d a m p w, d)
  | .ins d a m p w => some (execIns d a m p w, d)
  | .fadd d a b m n r f => some (execFadd d a b m n r f, d)
  | .fsub d a b m n r f => some (execFsub d a b m n r f, d)
  | .fmul d a b m n r f => some (execFmul d a b m n r f, d)
  | .fdiv d a b m n r f => some (execFdiv d a b m n r f, d)
  | .fsqrt d a m r f => some (execFsqrt d a m r f, d)
  | .fmin d a b m n f => some (execFmin d a b m n f, d)
  | .fmax d a b m n f => some (execFmax d a b m n f, d)
  | .feq d a b m n f => some (execFeq d a b m n f, d)
  | .flt d a b m n f => some (execFlt d a b m n f, d)
  | .fle d a b m n f => some (execFle d a b m n f, d)
  | .fcls d a m f => some (execFcls d a m f, d)
  | .fsgnCp d a b m n f => some (execFsgnCp d a b m n f, d)
  | .fsgnNeg d a b m n f => some (execFsgnNeg d a b m n f, d)
  | .fsgnXor d a b m n f => some (execFsgnXor d a b m n f, d)
  | .fcvt d a c m r f => some (execFcvt d a c m r f, d)
  | .fma d a b m n r f => some (execFma d a b m n r f, d)
  | .fms d a b m n r f => some (execFms d a b m n r f, d)
  | .fnma d a b m n r f => some (execFnma d a b m n r f, d)
  | .fnms d a b m n r f => some (execFnms d a b m n r f, d)
  | .rdc d c => some (execRdc d c, d)
  | .ld t b m z c o => some (execLd t b m z c o, t)
  | .ldz t b m z c o => some (execLdz t b m z c o, t)
  | .ldw t b m c o => some (execLdw t b m c o, t)
  | _ => none
/-- The second word's meaning and destination. A word of the list that decoding refuses raises its own trap. -/
def uniSecond (w : Word) : Option ((State → Out) × BitVec 5) := match decode w with
  | .ok i => uniMeaning i
  | .error _ => ((decodeRaw w).bind fun x => uniMeaning x.1).map fun f =>
      (fun s => execIllegalOpcode { s with dev := { s.dev with args := [w.toNat] } }, f.2)
/-- A follower's destination is EMPTY until the post arrives. -/
def uniPend (d : Dev) (l : Nat) (r : BitVec 5) : Nat × Dev :=
  let (id, d) := d.newId
  (id, { d.updThread l (fun t => t.pendG r id) with arrs := d.arrs.set id ⟨l, [(.g r, 0)], 0, false, none, [], false⟩ })
/-- The post of a value the leader has written: it reaches the follower within 16 cycles of the leader's turn, and so before that
member's next one. -/
def uniPost (d : Dev) (l : Nat) (r : BitVec 5) (x : D) : Dev :=
  let (id, d) := uniPend d l r
  (fillUni d id r x).postRange 1 (15 - idxOf (coreOf l) % 4) .uniPostArrival [id]
where fillUni (d : Dev) (id : Nat) (r : BitVec 5) (x : D) : Dev :=
  { d with arrs := d.arrs.set id { (d.arrs.getD id ⟨0, [], 0, false, none, [], false⟩) with vals := [(.g r, x.setWidth 6400)] } }
/-- The post of a value still on its way to the leader as producer `p`: sent on when it arrives. -/
def uniLater (d : Dev) (p l : Nat) (r : BitVec 5) : Dev :=
  let (id, d) := uniPend d l r
  { d with arrs := d.arrs.map (fun x => if x.1 = p then (x.1, { x.2 with posts := x.2.posts ++ [(l, id)] }) else x),
           reqs := d.reqs.map fun x => if x.1 = p then (x.1, { x.2 with posts := x.2.posts ++ [(l, id)] }) else x }
/-- A fault of the pair leaves a follower's destination EMPTY with no producer. -/
def uniFault (d : Dev) (l : Nat) (r : BitVec 5) : Dev := d.updThread l fun t => t.setGr r ⟨(t.gr r).val, .empty, .none⟩
/-- What the pair does at a follower in its own cycle (R21): its destination waits for the leader's post, or, where the pair
trapped at the leader, stays EMPTY with no producer (R111). -/
def uniFollow (d : Dev) (l : Nat) (r : BitVec 5) : Dev :=
  let leader := leaderOf l
  if ((d.quads.get? leader).map fun q => q.trapped.contains leader) = some true then
    (if fieldN (d.thread leader).tcause 11 10 = 0 then uniFault d l r else d)
  else
    let d := d.updThread l fun t => { t with pc := t.pc + 8 }
    let x := (d.thread leader).gr r
    if r = 0 then d else match x.prod with
      | .pend p => uniLater d p l r
      | .fault _ => uniFault d l r
      | .none => uniPost d l r x.val
/-- A follower's turn for a pair; a second word that cannot be fetched, or that UNI may not prefix, is the leader's trap alone. -/
def uniMember (m : Mem) (d : Dev) (l : Nat) : State := match fetch d l ((d.thread l).pc + 4) with
  | .word w => match uniSecond w with
    -- R38: an ABSENT destination is brought first
    | some (_, r) => if ((d.thread l).gr r).st = .absent then finish m d (.error (.miss 0 r.toNat)) else commit m (uniFollow d l r)
    | none => commit m d
  | _ => commit m d
/-- The pair, its second word fetched. -/
def uniRun (w : Word) (s : State) : Out := match uniSecond w with
  | none => .next (finish s.mem s.start (.error (.trap 0x01 0 (w.setWidth 64) 0 none)))
  | some (f, _) => match f { s with dev := { s.dev with inUni := true } } with
    | .next s' =>
      let d := if isAccess w then s'.dev.updThread s.dev.cur fun t => { t with cons := none } else s'.dev
      .next { s' with dev := { d with inUni := false } }
    | x => x
/-- R49: the pair is fetched as a unit; a fault of the second word's fetch is taken at the UNI. -/
def execUni (s : State) : Out :=
  let d := s.start
  let pc := (d.thread d.cur).pc + 4
  if (d.thread d.cur).st = .vacant then .fault .noThread
  else if isFollower d d.cur then .next (uniMember s.mem d d.cur)
  else match fetch d d.cur pc with
  | .aperture => .next (finish s.mem d (.error (.trap 0x06 0 pc 0 none)))
  | .refused c aux => .next (finish s.mem d (.error (.trap c 0 pc aux none)))
  | .miss => .next (commit s.mem { startRefill d d.cur pc with last := .lost })
  | .word w => uniRun w s

end Sys2Proof.Machine
end

