-- ==== Sys2Proof/Machine/Dispatch.lean ====
section
/-! DEFINITION. One arm per instruction and per step of the machine. -/
namespace Sys2Proof.Machine

def exec (i : Instr) (s : State) : Host.Outcome State Fault Refusal :=
  match i with
  | .setf d f => Sys2Proof.Machine.execSetf d f s
  | .sete d f => Sys2Proof.Machine.execSete d f s
  | .tfe d f => Sys2Proof.Machine.execTfe d f s
  | .rdc d c => Sys2Proof.Machine.execRdc d c s
  | .wrc a c => Sys2Proof.Machine.execWrc a c s
  | .sysc c => Sys2Proof.Machine.execSysc c s
  | .tend a m => Sys2Proof.Machine.execTend a m s
  | .add d a b m n => Sys2Proof.Machine.execAdd d a b m n s
  | .sub d a b m n => Sys2Proof.Machine.execSub d a b m n s
  | .mul d a b m n => Sys2Proof.Machine.execMul d a b m n s
  | .mulh d a b m n => Sys2Proof.Machine.execMulh d a b m n s
  | .mulhn d a b m n => Sys2Proof.Machine.execMulhn d a b m n s
  | .div d a b m n => Sys2Proof.Machine.execDiv d a b m n s
  | .divn d a b m n => Sys2Proof.Machine.execDivn d a b m n s
  | .rem d a b m n => Sys2Proof.Machine.execRem d a b m n s
  | .remn d a b m n => Sys2Proof.Machine.execRemn d a b m n s
  | .and d a b m n => Sys2Proof.Machine.execAnd d a b m n s
  | .or d a b m n => Sys2Proof.Machine.execOr d a b m n s
  | .xor d a b m n => Sys2Proof.Machine.execXor d a b m n s
  | .andn d a b m n => Sys2Proof.Machine.execAndn d a b m n s
  | .orn d a b m n => Sys2Proof.Machine.execOrn d a b m n s
  | .shl d a b m n => Sys2Proof.Machine.execShl d a b m n s
  | .shrl d a b m n => Sys2Proof.Machine.execShrl d a b m n s
  | .shra d a b m n => Sys2Proof.Machine.execShra d a b m n s
  | .rotl d a b m n => Sys2Proof.Machine.execRotl d a b m n s
  | .rotr d a b m n => Sys2Proof.Machine.execRotr d a b m n s
  | .min d a b m n => Sys2Proof.Machine.execMin d a b m n s
  | .max d a b m n => Sys2Proof.Machine.execMax d a b m n s
  | .minn d a b m n => Sys2Proof.Machine.execMinn d a b m n s
  | .maxn d a b m n => Sys2Proof.Machine.execMaxn d a b m n s
  | .slt d a b m n => Sys2Proof.Machine.execSlt d a b m n s
  | .sltn d a b m n => Sys2Proof.Machine.execSltn d a b m n s
  | .seq d a b m n => Sys2Proof.Machine.execSeq d a b m n s
  | .sne d a b m n => Sys2Proof.Machine.execSne d a b m n s
  | .sel d a b m n => Sys2Proof.Machine.execSel d a b m n s
  | .clz d a m => Sys2Proof.Machine.execClz d a m s
  | .ctz d a m => Sys2Proof.Machine.execCtz d a m s
  | .popc d a m => Sys2Proof.Machine.execPopc d a m s
  | .brev d a m => Sys2Proof.Machine.execBrev d a m s
  | .bswp d a m => Sys2Proof.Machine.execBswp d a m s
  | .shadd d a b m n k => Sys2Proof.Machine.execShadd d a b m n k s
  | .addi d a m imm => Sys2Proof.Machine.execAddi d a m imm s
  | .andi d a m imm => Sys2Proof.Machine.execAndi d a m imm s
  | .ori d a m imm => Sys2Proof.Machine.execOri d a m imm s
  | .xori d a m imm => Sys2Proof.Machine.execXori d a m imm s
  | .slti d a m imm => Sys2Proof.Machine.execSlti d a m imm s
  | .seqi d a m imm => Sys2Proof.Machine.execSeqi d a m imm s
  | .shli d a m k1 => Sys2Proof.Machine.execShli d a m k1 s
  | .shrli d a m k1 => Sys2Proof.Machine.execShrli d a m k1 s
  | .shrai d a m k1 => Sys2Proof.Machine.execShrai d a m k1 s
  | .rotli d a m k1 => Sys2Proof.Machine.execRotli d a m k1 s
  | .li d imm => Sys2Proof.Machine.execLi d imm s
  | .lih d h v => Sys2Proof.Machine.execLih d h v s
  | .exts d a m p w => Sys2Proof.Machine.execExts d a m p w s
  | .extz d a m p w => Sys2Proof.Machine.execExtz d a m p w s
  | .ins d a m p w => Sys2Proof.Machine.execIns d a m p w s
  | .beq a b m o => Sys2Proof.Machine.execBeq a b m o s
  | .bne a b m o => Sys2Proof.Machine.execBne a b m o s
  | .blt a b m o => Sys2Proof.Machine.execBlt a b m o s
  | .bge a b m o => Sys2Proof.Machine.execBge a b m o s
  | .bltn a b m o => Sys2Proof.Machine.execBltn a b m o s
  | .bgen a b m o => Sys2Proof.Machine.execBgen a b m o s
  | .jal o => Sys2Proof.Machine.execJal o s
  | .jalr d a m imm => Sys2Proof.Machine.execJalr d a m imm s
  | .bemp a f k1 o => Sys2Proof.Machine.execBemp a f k1 o s
  | .fadd d a b m n r f => Sys2Proof.Machine.execFadd d a b m n r f s
  | .fsub d a b m n r f => Sys2Proof.Machine.execFsub d a b m n r f s
  | .fmul d a b m n r f => Sys2Proof.Machine.execFmul d a b m n r f s
  | .fdiv d a b m n r f => Sys2Proof.Machine.execFdiv d a b m n r f s
  | .fsqrt d a m r f => Sys2Proof.Machine.execFsqrt d a m r f s
  | .fmin d a b m n f => Sys2Proof.Machine.execFmin d a b m n f s
  | .fmax d a b m n f => Sys2Proof.Machine.execFmax d a b m n f s
  | .feq d a b m n f => Sys2Proof.Machine.execFeq d a b m n f s
  | .flt d a b m n f => Sys2Proof.Machine.execFlt d a b m n f s
  | .fle d a b m n f => Sys2Proof.Machine.execFle d a b m n f s
  | .fcls d a m f => Sys2Proof.Machine.execFcls d a m f s
  | .fsgnCp d a b m n f => Sys2Proof.Machine.execFsgnCp d a b m n f s
  | .fsgnNeg d a b m n f => Sys2Proof.Machine.execFsgnNeg d a b m n f s
  | .fsgnXor d a b m n f => Sys2Proof.Machine.execFsgnXor d a b m n f s
  | .fcvt d a c m r f => Sys2Proof.Machine.execFcvt d a c m r f s
  | .fma d a b m n r f => Sys2Proof.Machine.execFma d a b m n r f s
  | .fms d a b m n r f => Sys2Proof.Machine.execFms d a b m n r f s
  | .fnma d a b m n r f => Sys2Proof.Machine.execFnma d a b m n r f s
  | .fnms d a b m n r f => Sys2Proof.Machine.execFnms d a b m n r f s
  | .ld t b m z c o => Sys2Proof.Machine.execLd t b m z c o s
  | .ldz t b m z c o => Sys2Proof.Machine.execLdz t b m z c o s
  | .st t b m z c o => Sys2Proof.Machine.execSt t b m z c o s
  | .ldt t b m c o => Sys2Proof.Machine.execLdt t b m c o s
  | .ldw t b m c o => Sys2Proof.Machine.execLdw t b m c o s
  | .ste t b m c o => Sys2Proof.Machine.execSte t b m c o s
  | .stf t b m c o => Sys2Proof.Machine.execStf t b m c o s
  | .gtoa d a w m => Sys2Proof.Machine.execGtoa d a w m s
  | .atog d a w m => Sys2Proof.Machine.execAtog d a w m s
  | .apq d a m => Sys2Proof.Machine.execApq d a m s
  | .plq d a m => Sys2Proof.Machine.execPlq d a m s
  | .plqCur d a m => Sys2Proof.Machine.execPlqCur d a m s
  | .psjInsp d a k1 m => Sys2Proof.Machine.execPsjInsp d a k1 m s
  | .psjRepost d a m => Sys2Proof.Machine.execPsjRepost d a m s
  | .psjDiscard d a m => Sys2Proof.Machine.execPsjDiscard d a m s
  | .vld v b m c o => Sys2Proof.Machine.execVld v b m c o s
  | .vst v b m c o => Sys2Proof.Machine.execVst v b m c o s
  | .vgx v a x p t k1 => Sys2Proof.Machine.execVgx v a x p t k1 s
  | .vsx v a x p t k1 => Sys2Proof.Machine.execVsx v a x p t k1 s
  | .vadd d a b p t => Sys2Proof.Machine.execVadd d a b p t s
  | .vsub d a b p t => Sys2Proof.Machine.execVsub d a b p t s
  | .vmul d a b p t => Sys2Proof.Machine.execVmul d a b p t s
  | .vdiv d a b p t => Sys2Proof.Machine.execVdiv d a b p t s
  | .vsqrt d a p t => Sys2Proof.Machine.execVsqrt d a p t s
  | .vmin d a b p t => Sys2Proof.Machine.execVmin d a b p t s
  | .vmax d a b p t => Sys2Proof.Machine.execVmax d a b p t s
  | .vabs d a p t => Sys2Proof.Machine.execVabs d a p t s
  | .vneg d a p t => Sys2Proof.Machine.execVneg d a p t s
  | .vand d a b p t => Sys2Proof.Machine.execVand d a b p t s
  | .vor d a b p t => Sys2Proof.Machine.execVor d a b p t s
  | .vxor d a b p t => Sys2Proof.Machine.execVxor d a b p t s
  | .vshl d a b p t => Sys2Proof.Machine.execVshl d a b p t s
  | .vshr d a b p t => Sys2Proof.Machine.execVshr d a b p t s
  | .vcmp c q a b p t => Sys2Proof.Machine.execVcmp c q a b p t s
  | .vsel d a b p t => Sys2Proof.Machine.execVsel d a b p t s
  | .vmov d a p t => Sys2Proof.Machine.execVmov d a p t s
  | .vbc d a p t => Sys2Proof.Machine.execVbc d a p t s
  | .vex d a b t => Sys2Proof.Machine.execVex d a b t s
  | .vins d a b t => Sys2Proof.Machine.execVins d a b t s
  | .viota d p t => Sys2Proof.Machine.execViota d p t s
  | .vperm d a b p t => Sys2Proof.Machine.execVperm d a b p t s
  | .vred d a o p t => Sys2Proof.Machine.execVred d a o p t s
  | .vscn d a o p t => Sys2Proof.Machine.execVscn d a o p t s
  | .vcvt d a c r t => Sys2Proof.Machine.execVcvt d a c r t s
  | .vminN d a b p t => Sys2Proof.Machine.execVminN d a b p t s
  | .vmaxN d a b p t => Sys2Proof.Machine.execVmaxN d a b p t s
  | .vcmpN c q a b p t => Sys2Proof.Machine.execVcmpN c q a b p t s
  | .vshrN d a b p t => Sys2Proof.Machine.execVshrN d a b p t s
  | .vfma d a b p t r => Sys2Proof.Machine.execVfma d a b p t r s
  | .vfms d a b p t r => Sys2Proof.Machine.execVfms d a b p t r s
  | .vfnma d a b p t r => Sys2Proof.Machine.execVfnma d a b p t r s
  | .vfnms d a b p t r => Sys2Proof.Machine.execVfnms d a b p t r s
  | .xmac2 a b p t => Sys2Proof.Machine.execXmac2 a b p t s
  | .xmac3 c a b p t => Sys2Proof.Machine.execXmac3 c a b p t s
  | .xadd a p t => Sys2Proof.Machine.execXadd a p t s
  | .xsgn d => Sys2Proof.Machine.execXsgn d s
  | .xrnd d r => Sys2Proof.Machine.execXrnd d r s
  | .xspl a => Sys2Proof.Machine.execXspl a s
  | .xfil a => Sys2Proof.Machine.execXfil a s
  | .amoAdd d a b m n f c z => Sys2Proof.Machine.execAmoAdd d a b m n f c z s
  | .amoAnd d a b m n f c z => Sys2Proof.Machine.execAmoAnd d a b m n f c z s
  | .amoOr d a b m n f c z => Sys2Proof.Machine.execAmoOr d a b m n f c z s
  | .amoXor d a b m n f c z => Sys2Proof.Machine.execAmoXor d a b m n f c z s
  | .amoMin d a b m n f c z => Sys2Proof.Machine.execAmoMin d a b m n f c z s
  | .amoMax d a b m n f c z => Sys2Proof.Machine.execAmoMax d a b m n f c z s
  | .amoMinn d a b m n f c z => Sys2Proof.Machine.execAmoMinn d a b m n f c z s
  | .amoMaxn d a b m n f c z => Sys2Proof.Machine.execAmoMaxn d a b m n f c z s
  | .amoSwp d a b m n f c z => Sys2Proof.Machine.execAmoSwp d a b m n f c z s
  | .amoFadds d a b m n f c => Sys2Proof.Machine.execAmoFadds d a b m n f c s
  | .amoFaddd d a b m n f c => Sys2Proof.Machine.execAmoFaddd d a b m n f c s
  | .cas d a b m n f c z => Sys2Proof.Machine.execCas d a b m n f c z s
  | .rsv d a m c z => Sys2Proof.Machine.execRsv d a m c z s
  | .scn d a b m n c z => Sys2Proof.Machine.execScn d a b m n c z s
  | .wrs d a m imm => Sys2Proof.Machine.execWrs d a m imm s
  | .redAdd a b m n c z => Sys2Proof.Machine.execRedAdd a b m n c z s
  | .redAnd a b m n c z => Sys2Proof.Machine.execRedAnd a b m n c z s
  | .redOr a b m n c z => Sys2Proof.Machine.execRedOr a b m n c z s
  | .redXor a b m n c z => Sys2Proof.Machine.execRedXor a b m n c z s
  | .redMin a b m n c z => Sys2Proof.Machine.execRedMin a b m n c z s
  | .redMax a b m n c z => Sys2Proof.Machine.execRedMax a b m n c z s
  | .redMinn a b m n c z => Sys2Proof.Machine.execRedMinn a b m n c z s
  | .redMaxn a b m n c z => Sys2Proof.Machine.execRedMaxn a b m n c z s
  | .redFadds a b m n c => Sys2Proof.Machine.execRedFadds a b m n c s
  | .redFaddd a b m n c => Sys2Proof.Machine.execRedFaddd a b m n c s
  | .fncAcq x c => Sys2Proof.Machine.execFncAcq x c s
  | .fncRel x c => Sys2Proof.Machine.execFncRel x c s
  | .fncFull x c => Sys2Proof.Machine.execFncFull x c s
  | .migr a m => Sys2Proof.Machine.execMigr a m s
  | .breg d a m => Sys2Proof.Machine.execBreg d a m s
  | .bdrg d a m => Sys2Proof.Machine.execBdrg d a m s
  | .barv d a m => Sys2Proof.Machine.execBarv d a m s
  | .barw d a b m n => Sys2Proof.Machine.execBarw d a b m n s
  | .semp d a b m n => Sys2Proof.Machine.execSemp d a b m n s
  | .semw d a b m n => Sys2Proof.Machine.execSemw d a b m n s
  | .send d a b m n => Sys2Proof.Machine.execSend d a b m n s
  | .recv d a b m n => Sys2Proof.Machine.execRecv d a b m n s
  | .qwt a b m n => Sys2Proof.Machine.execQwt a b m n s
  | .qcfg d a m => Sys2Proof.Machine.execQcfg d a m s
  | .nnew d a b m n f => Sys2Proof.Machine.execNnew d a b m n f s
  | .nres d a k1 m => Sys2Proof.Machine.execNres d a k1 m s
  | .nrst d a k1 m => Sys2Proof.Machine.execNrst d a k1 m s
  | .ncas d a b m n => Sys2Proof.Machine.execNcas d a b m n s
  | .nkil d a m => Sys2Proof.Machine.execNkil d a m s
  | .nqry d a k1 m => Sys2Proof.Machine.execNqry d a k1 m s
  | .nshd d a m => Sys2Proof.Machine.execNshd d a m s
  | .nslf d => Sys2Proof.Machine.execNslf d s
  | .gnew d a b m n => Sys2Proof.Machine.execGnew d a b m n s
  | .glen d a m => Sys2Proof.Machine.execGlen d a m s
  | .gev d a b m n l => Sys2Proof.Machine.execGev d a b m n l s
  | .gcmb d a b l => Sys2Proof.Machine.execGcmb d a b l s
  | .gofs d a b m n l => Sys2Proof.Machine.execGofs d a b m n l s
  | .gidx d a b m n => Sys2Proof.Machine.execGidx d a b m n s
  | .gpfx d a b m n => Sys2Proof.Machine.execGpfx d a b m n s
  | .gscn d a b m n => Sys2Proof.Machine.execGscn d a b m n s
  | .gmv d a b m n => Sys2Proof.Machine.execGmv d a b m n s
  | .grtiAll d => Sys2Proof.Machine.execGrtiAll d s
  | .grtiRule d a m => Sys2Proof.Machine.execGrtiRule d a m s
  | .grtiObj d a m => Sys2Proof.Machine.execGrtiObj d a m s
  | .grtq d k1 => Sys2Proof.Machine.execGrtq d k1 s
  | .grtqClear d k1 => Sys2Proof.Machine.execGrtqClear d k1 s
  | .spwn d a b m n => Sys2Proof.Machine.execSpwn d a b m n s
  | .reap d a m => Sys2Proof.Machine.execReap d a m s
  | .slst d a m => Sys2Proof.Machine.execSlst d a m s
  | .lnch d a m => Sys2Proof.Machine.execLnch d a m s
  | .lwt d a b m n => Sys2Proof.Machine.execLwt d a b m n s
  | .wdq a m => Sys2Proof.Machine.execWdq a m s
  | .amsg d a b m n => Sys2Proof.Machine.execAmsg d a b m n s
  | .tbnd d => Sys2Proof.Machine.execTbnd d s
  | .encl d a m => Sys2Proof.Machine.execEncl d a m s
  | .mxl a m t => Sys2Proof.Machine.execMxl a m t s
  | .mxu t => Sys2Proof.Machine.execMxu t s
  | .mxw t => Sys2Proof.Machine.execMxw t s
  | .mxs a m t => Sys2Proof.Machine.execMxs a m t s
  | .mxb t => Sys2Proof.Machine.execMxb t s
  | .mxp a b m n t => Sys2Proof.Machine.execMxp a b m n t s
  | .mxc a b m n t => Sys2Proof.Machine.execMxc a b m n t s
  | .mxwb a m t => Sys2Proof.Machine.execMxwb a m t s
  | .mxrd a m t => Sys2Proof.Machine.execMxrd a m t s
  | .mxz a m t => Sys2Proof.Machine.execMxz a m t s
  | .cpy a b m n t => Sys2Proof.Machine.execCpy a b m n t s
  | .cpr a b m n t => Sys2Proof.Machine.execCpr a b m n t s
  | .cpz a b m n t => Sys2Proof.Machine.execCpz a b m n t s
  | .cps a b m n t => Sys2Proof.Machine.execCps a b m n t s
  | .cpcCompress a b m n t => Sys2Proof.Machine.execCpcCompress a b m n t s
  | .cpcExpand a b m n t => Sys2Proof.Machine.execCpcExpand a b m n t s
  | .gexp a b m n t => Sys2Proof.Machine.execGexp a b m n t s
  | .cvt a b m n t => Sys2Proof.Machine.execCvt a b m n t s
  | .cvpAct a b m n t => Sys2Proof.Machine.execCvpAct a b m n t s
  | .cvpWcol a b m n t => Sys2Proof.Machine.execCvpWcol a b m n t s
  | .cvq a b m n t => Sys2Proof.Machine.execCvq a b m n t s
  | .engw a m e r => Sys2Proof.Machine.execEngw a m e r s
  | .engr d e r => Sys2Proof.Machine.execEngr d e r s
  | .engrBdat d a m => Sys2Proof.Machine.execEngrBdat d a m s
  | .prmt d a b m n => Sys2Proof.Machine.execPrmt d a b m n s
  | .prmtRow d a b m n => Sys2Proof.Machine.execPrmtRow d a b m n s
  | .hgrp d a b m n => Sys2Proof.Machine.execHgrp d a b m n s
  | .halt d a m => Sys2Proof.Machine.execHalt d a m s
  | .resm d a b m n => Sys2Proof.Machine.execResm d a b m n s
  | .tccfIn d a b m n => Sys2Proof.Machine.execTccfIn d a b m n s
  | .lrtb d a b m n => Sys2Proof.Machine.execLrtb d a b m n s
  | .nop => Sys2Proof.Machine.execNop s
  | .uni => Sys2Proof.Machine.execUni s
  | .brk => Sys2Proof.Machine.execBrk s
  | .ckpt => Sys2Proof.Machine.execCkpt s
  | .eret => Sys2Proof.Machine.execEret s
  | .uiret => Sys2Proof.Machine.execUiret s
  | .psd => Sys2Proof.Machine.execPsd s
  | .xclr => Sys2Proof.Machine.execXclr s
  | .mhom => Sys2Proof.Machine.execMhom s
  | .regionTableWrite => Sys2Proof.Machine.execRegionTableWrite s
  | .mflgWrite => Sys2Proof.Machine.execMflgWrite s
  | .merrWrite => Sys2Proof.Machine.execMerrWrite s
  | .resmStep => Sys2Proof.Machine.execResmStep s
  | .tccfLazy => Sys2Proof.Machine.execTccfLazy s
  | .tccfLend => Sys2Proof.Machine.execTccfLend s
  | .tccfOut => Sys2Proof.Machine.execTccfOut s
  | .producerValueArrival => Sys2Proof.Machine.execProducerValueArrival s
  | .uniPostArrival => Sys2Proof.Machine.execUniPostArrival s
  | .loadFaultArrival => Sys2Proof.Machine.execLoadFaultArrival s
  | .journalAck => Sys2Proof.Machine.execJournalAck s
  | .journalRefusal => Sys2Proof.Machine.execJournalRefusal s
  | .memoryRequestAtTarget => Sys2Proof.Machine.execMemoryRequestAtTarget s
  | .nonresidentRequestPerformed => Sys2Proof.Machine.execNonresidentRequestPerformed s
  | .atomicAtHome => Sys2Proof.Machine.execAtomicAtHome s
  | .remoteUpdate => Sys2Proof.Machine.execRemoteUpdate s
  | .heldStorePerform => Sys2Proof.Machine.execHeldStorePerform s
  | .compChunkAccess => Sys2Proof.Machine.execCompChunkAccess s
  | .placementTlbShootdown => Sys2Proof.Machine.execPlacementTlbShootdown s
  | .reservationHoldExpiry => Sys2Proof.Machine.execReservationHoldExpiry s
  | .hostCompletionTimeout => Sys2Proof.Machine.execHostCompletionTimeout s
  | .contextMigrationArrival => Sys2Proof.Machine.execContextMigrationArrival s
  | .contextReturn => Sys2Proof.Machine.execContextReturn s
  | .messagePlacement => Sys2Proof.Machine.execMessagePlacement s
  | .overflowReturn => Sys2Proof.Machine.execOverflowReturn s
  | .postedMessagePlacement => Sys2Proof.Machine.execPostedMessagePlacement s
  | .inboxFull => Sys2Proof.Machine.execInboxFull s
  | .queueAppend => Sys2Proof.Machine.execQueueAppend s
  | .queueDequeue => Sys2Proof.Machine.execQueueDequeue s
  | .userInterrupt => Sys2Proof.Machine.execUserInterrupt s
  | .barrierUnitArrival => Sys2Proof.Machine.execBarrierUnitArrival s
  | .barrierRelease => Sys2Proof.Machine.execBarrierRelease s
  | .waitExpired => Sys2Proof.Machine.execWaitExpired s
  | .queueExpired => Sys2Proof.Machine.execQueueExpired s
  | .mintIssue => Sys2Proof.Machine.execMintIssue s
  | .mintBlockRecord => Sys2Proof.Machine.execMintBlockRecord s
  | .nameTableOperation => Sys2Proof.Machine.execNameTableOperation s
  | .shootdownArrival => Sys2Proof.Machine.execShootdownArrival s
  | .shootdownAcknowledge => Sys2Proof.Machine.execShootdownAcknowledge s
  | .shootdownAckAtEntry => Sys2Proof.Machine.execShootdownAckAtEntry s
  | .grammarWalk => Sys2Proof.Machine.execGrammarWalk s
  | .arrayWeightLoad => Sys2Proof.Machine.execArrayWeightLoad s
  | .arrayStream => Sys2Proof.Machine.execArrayStream s
  | .arrayBatchedStream => Sys2Proof.Machine.execArrayBatchedStream s
  | .arrayBankPrepare => Sys2Proof.Machine.execArrayBankPrepare s
  | .arrayBankReadout => Sys2Proof.Machine.execArrayBankReadout s
  | .batchCompletion => Sys2Proof.Machine.execBatchCompletion s
  | .leaseRunEnd => Sys2Proof.Machine.execLeaseRunEnd s
  | .copyRun => Sys2Proof.Machine.execCopyRun s
  | .fillRun => Sys2Proof.Machine.execFillRun s
  | .scrubRun => Sys2Proof.Machine.execScrubRun s
  | .restripeRun => Sys2Proof.Machine.execRestripeRun s
  | .compressRun => Sys2Proof.Machine.execCompressRun s
  | .expandRun => Sys2Proof.Machine.execExpandRun s
  | .grammarExpandRun => Sys2Proof.Machine.execGrammarExpandRun s
  | .convertRun => Sys2Proof.Machine.execConvertRun s
  | .quantiseRun => Sys2Proof.Machine.execQuantiseRun s
  | .planeLayoutRun => Sys2Proof.Machine.execPlaneLayoutRun s
  | .engineCompletion => Sys2Proof.Machine.execEngineCompletion s
  | .launchAccept => Sys2Proof.Machine.execLaunchAccept s
  | .launchSelection => Sys2Proof.Machine.execLaunchSelection s
  | .taskAging => Sys2Proof.Machine.execTaskAging s
  | .rowLoadDone => Sys2Proof.Machine.execRowLoadDone s
  | .rowFree => Sys2Proof.Machine.execRowFree s
  | .costartStart => Sys2Proof.Machine.execCostartStart s
  | .costartDeadline => Sys2Proof.Machine.execCostartDeadline s
  | .launchComplete => Sys2Proof.Machine.execLaunchComplete s
  | .distributorQuery => Sys2Proof.Machine.execDistributorQuery s
  | .preemptDeadline => Sys2Proof.Machine.execPreemptDeadline s
  | .checkpointStreamWrite => Sys2Proof.Machine.execCheckpointStreamWrite s
  | .wakeMessage => Sys2Proof.Machine.execWakeMessage s
  | .haltTriggerArrival => Sys2Proof.Machine.execHaltTriggerArrival s
  | .hwBreakpointMatch => Sys2Proof.Machine.execHwBreakpointMatch s
  | .jtagHalt => Sys2Proof.Machine.execJtagHalt s
  | .stepEnd => Sys2Proof.Machine.execStepEnd s
  | .stewardStartPort => Sys2Proof.Machine.execStewardStartPort s
  | .threadEndPort => Sys2Proof.Machine.execThreadEndPort s
  | .unfreezePort => Sys2Proof.Machine.execUnfreezePort s
  | .violationRecordFree => Sys2Proof.Machine.execViolationRecordFree s
  | .wakePort => Sys2Proof.Machine.execWakePort s
  | .faultQueuePop => Sys2Proof.Machine.execFaultQueuePop s
  | .pageRequestPop => Sys2Proof.Machine.execPageRequestPop s
  | .queueOvfClear => Sys2Proof.Machine.execQueueOvfClear s
  | .ctrlWrite => Sys2Proof.Machine.execCtrlWrite s
  | .controlRegisterWrite => Sys2Proof.Machine.execControlRegisterWrite s
  | .hostActiveMessagePort => Sys2Proof.Machine.execHostActiveMessagePort s
  | .hostLaunchPort => Sys2Proof.Machine.execHostLaunchPort s
  | .hostAcknowledgePort => Sys2Proof.Machine.execHostAcknowledgePort s
  | .hostWindowAccess => Sys2Proof.Machine.execHostWindowAccess s
  | .hostAtomicop => Sys2Proof.Machine.execHostAtomicop s
  | .peerRequest => Sys2Proof.Machine.execPeerRequest s
  | .cxlLinkDown => Sys2Proof.Machine.execCxlLinkDown s
  | .retrainRequest => Sys2Proof.Machine.execRetrainRequest s
  | .retrainEnd => Sys2Proof.Machine.execRetrainEnd s
  | .powerWindow => Sys2Proof.Machine.execPowerWindow s
  | .powerGood => Sys2Proof.Machine.execPowerGood s
  | .reset => Sys2Proof.Machine.execReset s
  | .badPageAppend => Sys2Proof.Machine.execBadPageAppend s
  | .spdmRequest => Sys2Proof.Machine.execSpdmRequest s
  | .illegalOpcode => Sys2Proof.Machine.execIllegalOpcode s
  | .instructionStoreRefill => Sys2Proof.Machine.execInstructionStoreRefill s
  | .placementTlbWalk => Sys2Proof.Machine.execPlacementTlbWalk s
  | .cxlLinkUp => Sys2Proof.Machine.execCxlLinkUp s
  | .softError => Sys2Proof.Machine.execSoftError s

end Sys2Proof.Machine
end

