-- ==== Sys2Proof/Machine/Step.lean ====
section
/-! DEFINITION. One step of the package, and the host's way of placing one instruction. -/
namespace Sys2Proof.Machine

/-- A step in flight that is due; else the next offered slot of this cycle; else the next cycle. -/
def step (s : State) : Host.Outcome State Fault Refusal := stepWith exec s

/-- `s` with the instruction whose bits are `w` stored where `step` fetches next. -/
def State.withFetchWord (s : State) (_nbits w : Nat) : State := placeWord s (BitVec.ofNat 32 w)

end Sys2Proof.Machine
end

