-- ==== Sys2Proof/Laws/PerInstr.lean ====
section
/-! SUPPORT. Decoding an encoded instruction gives it back: one lemma for each instruction. -/
namespace Sys2Proof.Laws

theorem bf_eq {n lo len : Nat} {x : BitVec len} (h : n / 2 ^ lo % 2 ^ len = x.toNat) : bf n lo len = x := by
  apply BitVec.eq_of_toNat_eq; simpa [bf] using h
theorem bt_eq {n lo : Nat} {x : Bool} (h : n / 2 ^ lo % 2 = x.toNat) : bt n lo = x := by
  cases x <;> simp_all [bt]
theorem zf_eq {n lo len : Nat} (h : n / 2 ^ lo % 2 ^ len = 0) : zf n lo len = 0 := by simp [zf, h]

/-- An instruction that is well formed is what its word decodes to. -/
def RoundTrip.Statement (i : Instr) : Prop := WellFormed i = true → decode (encode i) = .ok i

/-- A field of a number written as the part above it, the field and the part below it. -/
theorem fld {n hi x low lo len : Nat} (e : n = (hi * 2 ^ len + x) * 2 ^ lo + low) (hx : x < 2 ^ len)
    (hl : low < 2 ^ lo) : n / 2 ^ lo % 2 ^ len = x := by
  subst e
  rw [Nat.mul_comm, Nat.mul_add_div (Nat.two_pow_pos lo), Nat.div_eq_of_lt hl, Nat.add_zero, Nat.mul_comm hi,
    Nat.mul_add_mod, Nat.mod_eq_of_lt hx]
theorem fld1 {n hi x low lo : Nat} (e : n = (hi * 2 + x) * 2 ^ lo + low) (hx : x < 2) (hl : low < 2 ^ lo) :
    n / 2 ^ lo % 2 = x := fld (len := 1) e hx hl
theorem fld0 {n hi x m : Nat} (e : n = hi * m + x) (hx : x < m) : n % m = x := by
  subst e; rw [Nat.mul_comm, Nat.mul_add_mod, Nat.mod_eq_of_lt hx]
/-- A word below 2^32 that the decoder reads as `i`, with no bit of a reserved field set. -/
theorem roundTrip_of {i : Instr}
    (h : WellFormed i = true → ∀ N : Nat, N = encodeNat i → N < 2 ^ 32 ∧ ∀ w : Word, w.toNat = N → decodeRaw w = some (i, 0)) :
    RoundTrip.Statement i := by
  intro wf
  have ⟨hlt, hd⟩ := h wf _ rfl
  have r : refusedFields i = 0 := by simp [WellFormed] at wf; exact wf.2
  simp [decode, hd (encode i) ((BitVec.toNat_ofNat ..).trans (Nat.mod_eq_of_lt hlt)), r]
/-- A step that no word encodes. -/
theorem roundTrip_none {i : Instr} (h : hasOwnWord i = false) : RoundTrip.Statement i := by
  intro wf; simp [WellFormed, h] at wf

/-! The layouts of the words: a major opcode, selector fields, operands and reserved fields, each at its place. -/
theorem shape0 {n c q k0 : Nat} (x0 : BitVec 5) (x1 : BitVec 2) (e : n = c + x0.toNat * 2097152 + x1.toNat * 4096) (hc : c = q * 67108864 + k0) (hq : q < 64) (hk0 : k0 < 512) :
    n < 2 ^ 32 ∧ n / 67108864 = q ∧ n % 512 = k0 ∧ bf n 21 5 = x0 ∧ bf n 12 2 = x1 ∧ zf n 9 3 + zf n 14 7 = 0 := by
  have := x0.isLt; have := x1.isLt
  exact ⟨by omega, (Nat.div_eq_of_lt_le (by omega) (by omega)), fld0 (hi := (q * 131072 + x0.toNat * 4096 + x1.toNat * 8)) (by rw [e, hc]; ring) hk0, bf_eq (fld (hi := (q)) (low := (k0 + x1.toNat * 4096)) (by rw [e, hc]; ring) x0.isLt (by clear e hc; omega)), bf_eq (fld (hi := (q * 4096 + x0.toNat * 128)) (low := (k0)) (by rw [e, hc]; ring) x1.isLt (by clear e hc; omega)), by rw [zf_eq (lo := 9) (len := 3) (fld (hi := (q * 16384 + x0.toNat * 512 + x1.toNat)) (low := (k0)) (by rw [e, hc]; ring) (by decide) (by clear e hc; omega)), zf_eq (lo := 14) (len := 7) (fld (hi := (q * 32 + x0.toNat)) (low := (k0 + x1.toNat * 4096)) (by rw [e, hc]; ring) (by decide) (by clear e hc; omega))]⟩
theorem shape1 {n c q k0 : Nat} (x0 : BitVec 5) (x1 : BitVec 7) (e : n = c + x0.toNat * 2097152 + x1.toNat * 512) (hc : c = q * 67108864 + k0) (hq : q < 64) (hk0 : k0 < 512) :
    n < 2 ^ 32 ∧ n / 67108864 = q ∧ n % 512 = k0 ∧ bf n 21 5 = x0 ∧ bf n 9 7 = x1 ∧ zf n 16 5 = 0 := by
  have := x0.isLt; have := x1.isLt
  exact ⟨by omega, (Nat.div_eq_of_lt_le (by omega) (by omega)), fld0 (hi := (q * 131072 + x0.toNat * 4096 + x1.toNat)) (by rw [e, hc]; ring) hk0, bf_eq (fld (hi := (q)) (low := (k0 + x1.toNat * 512)) (by rw [e, hc]; ring) x0.isLt (by clear e hc; omega)), bf_eq (fld (hi := (q * 1024 + x0.toNat * 32)) (low := (k0)) (by rw [e, hc]; ring) x1.isLt (by clear e hc; omega)), zf_eq (fld (hi := (q * 32 + x0.toNat)) (low := (k0 + x1.toNat * 512)) (by rw [e, hc]; ring) (by decide) (by clear e hc; omega))⟩
theorem shape2 {n c q k0 : Nat} (x0 : BitVec 5) (x1 : BitVec 7) (e : n = c + x0.toNat * 65536 + x1.toNat * 512) (hc : c = q * 67108864 + k0) (hq : q < 64) (hk0 : k0 < 512) :
    n < 2 ^ 32 ∧ n / 67108864 = q ∧ n % 512 = k0 ∧ bf n 16 5 = x0 ∧ bf n 9 7 = x1 ∧ zf n 21 5 = 0 := by
  have := x0.isLt; have := x1.isLt
  exact ⟨by omega, (Nat.div_eq_of_lt_le (by omega) (by omega)), fld0 (hi := (q * 131072 + x0.toNat * 128 + x1.toNat)) (by rw [e, hc]; ring) hk0, bf_eq (fld (hi := (q * 32)) (low := (k0 + x1.toNat * 512)) (by rw [e, hc]; ring) x0.isLt (by clear e hc; omega)), bf_eq (fld (hi := (q * 1024 + x0.toNat)) (low := (k0)) (by rw [e, hc]; ring) x1.isLt (by clear e hc; omega)), zf_eq (fld (hi := (q)) (low := (k0 + x0.toNat * 65536 + x1.toNat * 512)) (by rw [e, hc]; ring) (by decide) (by clear e hc; omega))⟩
theorem shape3 {n c q k0 : Nat} (x0 : BitVec 10) (e : n = c + x0.toNat * 2048) (hc : c = q * 67108864 + k0) (hq : q < 64) (hk0 : k0 < 512) :
    n < 2 ^ 32 ∧ n / 67108864 = q ∧ n % 512 = k0 ∧ bf n 11 10 = x0 ∧ zf n 9 2 + zf n 21 5 = 0 := by
  have := x0.isLt
  exact ⟨by omega, (Nat.div_eq_of_lt_le (by omega) (by omega)), fld0 (hi := (q * 131072 + x0.toNat * 4)) (by rw [e, hc]; ring) hk0, bf_eq (fld (hi := (q * 32)) (low := (k0)) (by rw [e, hc]; ring) x0.isLt (by clear e hc; omega)), by rw [zf_eq (lo := 9) (len := 2) (fld (hi := (q * 32768 + x0.toNat)) (low := (k0)) (by rw [e, hc]; ring) (by decide) (by clear e hc; omega)), zf_eq (lo := 21) (len := 5) (fld (hi := (q)) (low := (k0 + x0.toNat * 2048)) (by rw [e, hc]; ring) (by decide) (by clear e hc; omega))]⟩
theorem shape4 {n c q k0 : Nat} (x0 : BitVec 5) (x1 : Bool) (e : n = c + x0.toNat * 65536 + x1.toNat * 1024) (hc : c = q * 67108864 + k0) (hq : q < 64) (hk0 : k0 < 512) :
    n < 2 ^ 32 ∧ n / 67108864 = q ∧ n % 512 = k0 ∧ bf n 16 5 = x0 ∧ bt n 10 = x1 ∧ zf n 9 1 + zf n 11 5 + zf n 21 5 = 0 := by
  have := x0.isLt; have := x1.toNat_le
  exact ⟨by omega, (Nat.div_eq_of_lt_le (by omega) (by omega)), fld0 (hi := (q * 131072 + x0.toNat * 128 + x1.toNat * 2)) (by rw [e, hc]; ring) hk0, bf_eq (fld (hi := (q * 32)) (low := (k0 + x1.toNat * 1024)) (by rw [e, hc]; ring) x0.isLt (by clear e hc; omega)), bt_eq (fld1 (hi := (q * 32768 + x0.toNat * 32)) (low := (k0)) (by rw [e, hc]; ring) (Nat.lt_succ_of_le x1.toNat_le) (by clear e hc; omega)), by rw [zf_eq (lo := 9) (len := 1) (fld (hi := (q * 65536 + x0.toNat * 64 + x1.toNat)) (low := (k0)) (by rw [e, hc]; ring) (by decide) (by clear e hc; omega)), zf_eq (lo := 11) (len := 5) (fld (hi := (q * 1024 + x0.toNat)) (low := (k0 + x1.toNat * 1024)) (by rw [e, hc]; ring) (by decide) (by clear e hc; omega)), zf_eq (lo := 21) (len := 5) (fld (hi := (q)) (low := (k0 + x0.toNat * 65536 + x1.toNat * 1024)) (by rw [e, hc]; ring) (by decide) (by clear e hc; omega))]⟩
theorem shape5 {n c q k0 : Nat} (x0 : BitVec 5) (x1 : BitVec 5) (x2 : BitVec 5) (x3 : Bool) (x4 : Bool) (e : n = c + x0.toNat * 2097152 + x1.toNat * 65536 + x2.toNat * 2048 + x3.toNat * 1024 + x4.toNat * 512) (hc : c = q * 67108864 + k0) (hq : q < 64) (hk0 : k0 < 512) :
    n < 2 ^ 32 ∧ n / 67108864 = q ∧ n % 512 = k0 ∧ bf n 21 5 = x0 ∧ bf n 16 5 = x1 ∧ bf n 11 5 = x2 ∧ bt n 10 = x3 ∧ bt n 9 = x4 := by
  have := x0.isLt; have := x1.isLt; have := x2.isLt; have := x3.toNat_le; have := x4.toNat_le
  exact ⟨by omega, (Nat.div_eq_of_lt_le (by omega) (by omega)), fld0 (hi := (q * 131072 + x0.toNat * 4096 + x1.toNat * 128 + x2.toNat * 4 + x3.toNat * 2 + x4.toNat)) (by rw [e, hc]; ring) hk0, bf_eq (fld (hi := (q)) (low := (k0 + x1.toNat * 65536 + x2.toNat * 2048 + x3.toNat * 1024 + x4.toNat * 512)) (by rw [e, hc]; ring) x0.isLt (by clear e hc; omega)), bf_eq (fld (hi := (q * 32 + x0.toNat)) (low := (k0 + x2.toNat * 2048 + x3.toNat * 1024 + x4.toNat * 512)) (by rw [e, hc]; ring) x1.isLt (by clear e hc; omega)), bf_eq (fld (hi := (q * 1024 + x0.toNat * 32 + x1.toNat)) (low := (k0 + x3.toNat * 1024 + x4.toNat * 512)) (by rw [e, hc]; ring) x2.isLt (by clear e hc; omega)), bt_eq (fld1 (hi := (q * 32768 + x0.toNat * 1024 + x1.toNat * 32 + x2.toNat)) (low := (k0 + x4.toNat * 512)) (by rw [e, hc]; ring) (Nat.lt_succ_of_le x3.toNat_le) (by clear e hc; omega)), bt_eq (fld1 (hi := (q * 65536 + x0.toNat * 2048 + x1.toNat * 64 + x2.toNat * 2 + x3.toNat)) (low := (k0)) (by rw [e, hc]; ring) (Nat.lt_succ_of_le x4.toNat_le) (by clear e hc; omega))⟩
theorem shape6 {n c q k0 : Nat} (x0 : BitVec 5) (x1 : BitVec 5) (x2 : Bool) (e : n = c + x0.toNat * 2097152 + x1.toNat * 65536 + x2.toNat * 1024) (hc : c = q * 67108864 + k0) (hq : q < 64) (hk0 : k0 < 512) :
    n < 2 ^ 32 ∧ n / 67108864 = q ∧ n % 512 = k0 ∧ bf n 21 5 = x0 ∧ bf n 16 5 = x1 ∧ bt n 10 = x2 ∧ zf n 9 1 + zf n 11 5 = 0 := by
  have := x0.isLt; have := x1.isLt; have := x2.toNat_le
  exact ⟨by omega, (Nat.div_eq_of_lt_le (by omega) (by omega)), fld0 (hi := (q * 131072 + x0.toNat * 4096 + x1.toNat * 128 + x2.toNat * 2)) (by rw [e, hc]; ring) hk0, bf_eq (fld (hi := (q)) (low := (k0 + x1.toNat * 65536 + x2.toNat * 1024)) (by rw [e, hc]; ring) x0.isLt (by clear e hc; omega)), bf_eq (fld (hi := (q * 32 + x0.toNat)) (low := (k0 + x2.toNat * 1024)) (by rw [e, hc]; ring) x1.isLt (by clear e hc; omega)), bt_eq (fld1 (hi := (q * 32768 + x0.toNat * 1024 + x1.toNat * 32)) (low := (k0)) (by rw [e, hc]; ring) (Nat.lt_succ_of_le x2.toNat_le) (by clear e hc; omega)), by rw [zf_eq (lo := 9) (len := 1) (fld (hi := (q * 65536 + x0.toNat * 2048 + x1.toNat * 64 + x2.toNat)) (low := (k0)) (by rw [e, hc]; ring) (by decide) (by clear e hc; omega)), zf_eq (lo := 11) (len := 5) (fld (hi := (q * 1024 + x0.toNat * 32 + x1.toNat)) (low := (k0 + x2.toNat * 1024)) (by rw [e, hc]; ring) (by decide) (by clear e hc; omega))]⟩
theorem shape7 {n c q k0 : Nat} (x0 : BitVec 5) (x1 : BitVec 5) (x2 : BitVec 5) (x3 : Bool) (x4 : Bool) (x5 : BitVec 2) (e : n = c + x0.toNat * 2097152 + x1.toNat * 65536 + x2.toNat * 2048 + x3.toNat * 1024 + x4.toNat * 512 + x5.toNat) (hc : c = q * 67108864 + k0 * 4) (hq : q < 64) (hk0 : k0 < 128) :
    n < 2 ^ 32 ∧ n / 67108864 = q ∧ n / 4 % 128 = k0 ∧ bf n 21 5 = x0 ∧ bf n 16 5 = x1 ∧ bf n 11 5 = x2 ∧ bt n 10 = x3 ∧ bt n 9 = x4 ∧ bf n 0 2 = x5 := by
  have := x0.isLt; have := x1.isLt; have := x2.isLt; have := x3.toNat_le; have := x4.toNat_le; have := x5.isLt
  exact ⟨by omega, (Nat.div_eq_of_lt_le (by omega) (by omega)), fld (lo := 2) (len := 7) (hi := (q * 131072 + x0.toNat * 4096 + x1.toNat * 128 + x2.toNat * 4 + x3.toNat * 2 + x4.toNat)) (low := (x5.toNat)) (by rw [e, hc]; ring) hk0 (by clear e hc; omega), bf_eq (fld (hi := (q)) (low := (k0 * 4 + x1.toNat * 65536 + x2.toNat * 2048 + x3.toNat * 1024 + x4.toNat * 512 + x5.toNat)) (by rw [e, hc]; ring) x0.isLt (by clear e hc; omega)), bf_eq (fld (hi := (q * 32 + x0.toNat)) (low := (k0 * 4 + x2.toNat * 2048 + x3.toNat * 1024 + x4.toNat * 512 + x5.toNat)) (by rw [e, hc]; ring) x1.isLt (by clear e hc; omega)), bf_eq (fld (hi := (q * 1024 + x0.toNat * 32 + x1.toNat)) (low := (k0 * 4 + x3.toNat * 1024 + x4.toNat * 512 + x5.toNat)) (by rw [e, hc]; ring) x2.isLt (by clear e hc; omega)), bt_eq (fld1 (hi := (q * 32768 + x0.toNat * 1024 + x1.toNat * 32 + x2.toNat)) (low := (k0 * 4 + x4.toNat * 512 + x5.toNat)) (by rw [e, hc]; ring) (Nat.lt_succ_of_le x3.toNat_le) (by clear e hc; omega)), bt_eq (fld1 (hi := (q * 65536 + x0.toNat * 2048 + x1.toNat * 64 + x2.toNat * 2 + x3.toNat)) (low := (k0 * 4 + x5.toNat)) (by rw [e, hc]; ring) (Nat.lt_succ_of_le x4.toNat_le) (by clear e hc; omega)), bf_eq (fld (hi := (q * 16777216 + k0 + x0.toNat * 524288 + x1.toNat * 16384 + x2.toNat * 512 + x3.toNat * 256 + x4.toNat * 128)) (low := (0)) (by rw [e, hc]; ring) x5.isLt (by clear e hc; omega))⟩
theorem shape8 {n c q : Nat} (x0 : BitVec 5) (x1 : BitVec 5) (x2 : Bool) (x3 : BitVec 15) (e : n = c + x0.toNat * 2097152 + x1.toNat * 65536 + x2.toNat * 32768 + x3.toNat) (hc : c = q * 67108864) (hq : q < 64) :
    n < 2 ^ 32 ∧ n / 67108864 = q ∧ bf n 21 5 = x0 ∧ bf n 16 5 = x1 ∧ bt n 15 = x2 ∧ bf n 0 15 = x3 := by
  have := x0.isLt; have := x1.isLt; have := x2.toNat_le; have := x3.isLt
  exact ⟨by omega, (Nat.div_eq_of_lt_le (by omega) (by omega)), bf_eq (fld (hi := (q)) (low := (x1.toNat * 65536 + x2.toNat * 32768 + x3.toNat)) (by rw [e, hc]; ring) x0.isLt (by clear e hc; omega)), bf_eq (fld (hi := (q * 32 + x0.toNat)) (low := (x2.toNat * 32768 + x3.toNat)) (by rw [e, hc]; ring) x1.isLt (by clear e hc; omega)), bt_eq (fld1 (hi := (q * 1024 + x0.toNat * 32 + x1.toNat)) (low := (x3.toNat)) (by rw [e, hc]; ring) (Nat.lt_succ_of_le x2.toNat_le) (by clear e hc; omega)), bf_eq (fld (hi := (q * 2048 + x0.toNat * 64 + x1.toNat * 2 + x2.toNat)) (low := (0)) (by rw [e, hc]; ring) x3.isLt (by clear e hc; omega))⟩
theorem shape9 {n c q k0 : Nat} (x0 : BitVec 5) (x1 : BitVec 5) (x2 : Bool) (x3 : BitVec 6) (e : n = c + x0.toNat * 2097152 + x1.toNat * 65536 + x2.toNat * 32768 + x3.toNat) (hc : c = q * 67108864 + k0 * 8192) (hq : q < 64) (hk0 : k0 < 4) :
    n < 2 ^ 32 ∧ n / 67108864 = q ∧ n / 8192 % 4 = k0 ∧ bf n 21 5 = x0 ∧ bf n 16 5 = x1 ∧ bt n 15 = x2 ∧ bf n 0 6 = x3 ∧ zf n 6 7 = 0 := by
  have := x0.isLt; have := x1.isLt; have := x2.toNat_le; have := x3.isLt
  exact ⟨by omega, (Nat.div_eq_of_lt_le (by omega) (by omega)), fld (lo := 13) (len := 2) (hi := (q * 2048 + x0.toNat * 64 + x1.toNat * 2 + x2.toNat)) (low := (x3.toNat)) (by rw [e, hc]; ring) hk0 (by clear e hc; omega), bf_eq (fld (hi := (q)) (low := (k0 * 8192 + x1.toNat * 65536 + x2.toNat * 32768 + x3.toNat)) (by rw [e, hc]; ring) x0.isLt (by clear e hc; omega)), bf_eq (fld (hi := (q * 32 + x0.toNat)) (low := (k0 * 8192 + x2.toNat * 32768 + x3.toNat)) (by rw [e, hc]; ring) x1.isLt (by clear e hc; omega)), bt_eq (fld1 (hi := (q * 1024 + x0.toNat * 32 + x1.toNat)) (low := (k0 * 8192 + x3.toNat)) (by rw [e, hc]; ring) (Nat.lt_succ_of_le x2.toNat_le) (by clear e hc; omega)), bf_eq (fld (hi := (q * 1048576 + k0 * 128 + x0.toNat * 32768 + x1.toNat * 1024 + x2.toNat * 512)) (low := (0)) (by rw [e, hc]; ring) x3.isLt (by clear e hc; omega)), zf_eq (fld (hi := (q * 8192 + k0 + x0.toNat * 256 + x1.toNat * 8 + x2.toNat * 4)) (low := (x3.toNat)) (by rw [e, hc]; ring) (by decide) (by clear e hc; omega))⟩
theorem shape10 {n c q : Nat} (x0 : BitVec 5) (x1 : BitVec 21) (e : n = c + x0.toNat * 2097152 + x1.toNat) (hc : c = q * 67108864) (hq : q < 64) :
    n < 2 ^ 32 ∧ n / 67108864 = q ∧ bf n 21 5 = x0 ∧ bf n 0 21 = x1 := by
  have := x0.isLt; have := x1.isLt
  exact ⟨by omega, (Nat.div_eq_of_lt_le (by omega) (by omega)), bf_eq (fld (hi := (q)) (low := (x1.toNat)) (by rw [e, hc]; ring) x0.isLt (by clear e hc; omega)), bf_eq (fld (hi := (q * 32 + x0.toNat)) (low := (0)) (by rw [e, hc]; ring) x1.isLt (by clear e hc; omega))⟩
theorem shape11 {n c q : Nat} (x0 : BitVec 5) (x1 : BitVec 2) (x2 : BitVec 16) (e : n = c + x0.toNat * 2097152 + x1.toNat * 65536 + x2.toNat) (hc : c = q * 67108864) (hq : q < 64) :
    n < 2 ^ 32 ∧ n / 67108864 = q ∧ bf n 21 5 = x0 ∧ bf n 16 2 = x1 ∧ bf n 0 16 = x2 ∧ zf n 18 3 = 0 := by
  have := x0.isLt; have := x1.isLt; have := x2.isLt
  exact ⟨by omega, (Nat.div_eq_of_lt_le (by omega) (by omega)), bf_eq (fld (hi := (q)) (low := (x1.toNat * 65536 + x2.toNat)) (by rw [e, hc]; ring) x0.isLt (by clear e hc; omega)), bf_eq (fld (hi := (q * 256 + x0.toNat * 8)) (low := (x2.toNat)) (by rw [e, hc]; ring) x1.isLt (by clear e hc; omega)), bf_eq (fld (hi := (q * 1024 + x0.toNat * 32 + x1.toNat)) (low := (0)) (by rw [e, hc]; ring) x2.isLt (by clear e hc; omega)), zf_eq (fld (hi := (q * 32 + x0.toNat)) (low := (x1.toNat * 65536 + x2.toNat)) (by rw [e, hc]; ring) (by decide) (by clear e hc; omega))⟩
theorem shape12 {n c q k0 : Nat} (x0 : BitVec 5) (x1 : BitVec 5) (x2 : Bool) (x3 : BitVec 6) (x4 : BitVec 6) (e : n = c + x0.toNat * 2097152 + x1.toNat * 65536 + x2.toNat * 32768 + x3.toNat * 128 + x4.toNat * 2) (hc : c = q * 67108864 + k0 * 8192) (hq : q < 64) (hk0 : k0 < 4) :
    n < 2 ^ 32 ∧ n / 67108864 = q ∧ n / 8192 % 4 = k0 ∧ bf n 21 5 = x0 ∧ bf n 16 5 = x1 ∧ bt n 15 = x2 ∧ bf n 7 6 = x3 ∧ bf n 1 6 = x4 ∧ zf n 0 1 = 0 := by
  have := x0.isLt; have := x1.isLt; have := x2.toNat_le; have := x3.isLt; have := x4.isLt
  exact ⟨by omega, (Nat.div_eq_of_lt_le (by omega) (by omega)), fld (lo := 13) (len := 2) (hi := (q * 2048 + x0.toNat * 64 + x1.toNat * 2 + x2.toNat)) (low := (x3.toNat * 128 + x4.toNat * 2)) (by rw [e, hc]; ring) hk0 (by clear e hc; omega), bf_eq (fld (hi := (q)) (low := (k0 * 8192 + x1.toNat * 65536 + x2.toNat * 32768 + x3.toNat * 128 + x4.toNat * 2)) (by rw [e, hc]; ring) x0.isLt (by clear e hc; omega)), bf_eq (fld (hi := (q * 32 + x0.toNat)) (low := (k0 * 8192 + x2.toNat * 32768 + x3.toNat * 128 + x4.toNat * 2)) (by rw [e, hc]; ring) x1.isLt (by clear e hc; omega)), bt_eq (fld1 (hi := (q * 1024 + x0.toNat * 32 + x1.toNat)) (low := (k0 * 8192 + x3.toNat * 128 + x4.toNat * 2)) (by rw [e, hc]; ring) (Nat.lt_succ_of_le x2.toNat_le) (by clear e hc; omega)), bf_eq (fld (hi := (q * 8192 + k0 + x0.toNat * 256 + x1.toNat * 8 + x2.toNat * 4)) (low := (x4.toNat * 2)) (by rw [e, hc]; ring) x3.isLt (by clear e hc; omega)), bf_eq (fld (hi := (q * 524288 + k0 * 64 + x0.toNat * 16384 + x1.toNat * 512 + x2.toNat * 256 + x3.toNat)) (low := (0)) (by rw [e, hc]; ring) x4.isLt (by clear e hc; omega)), zf_eq (fld (hi := (q * 33554432 + k0 * 4096 + x0.toNat * 1048576 + x1.toNat * 32768 + x2.toNat * 16384 + x3.toNat * 64 + x4.toNat)) (low := (0)) (by rw [e, hc]; ring) (by decide) (by clear e hc; omega))⟩
theorem shape13 {n c q : Nat} (x0 : BitVec 26) (e : n = c + x0.toNat) (hc : c = q * 67108864) (hq : q < 64) :
    n < 2 ^ 32 ∧ n / 67108864 = q ∧ bf n 0 26 = x0 := by
  have := x0.isLt
  exact ⟨by omega, (Nat.div_eq_of_lt_le (by omega) (by omega)), bf_eq (fld (hi := (q)) (low := (0)) (by rw [e, hc]; ring) x0.isLt (by clear e hc; omega))⟩
theorem shape14 {n c q : Nat} (x0 : BitVec 5) (x1 : BitVec 2) (x2 : Bool) (x3 : BitVec 15) (e : n = c + x0.toNat * 2097152 + x1.toNat * 131072 + x2.toNat * 65536 + x3.toNat) (hc : c = q * 67108864) (hq : q < 64) :
    n < 2 ^ 32 ∧ n / 67108864 = q ∧ bf n 21 5 = x0 ∧ bf n 17 2 = x1 ∧ bt n 16 = x2 ∧ bf n 0 15 = x3 ∧ zf n 15 1 + zf n 19 2 = 0 := by
  have := x0.isLt; have := x1.isLt; have := x2.toNat_le; have := x3.isLt
  exact ⟨by omega, (Nat.div_eq_of_lt_le (by omega) (by omega)), bf_eq (fld (hi := (q)) (low := (x1.toNat * 131072 + x2.toNat * 65536 + x3.toNat)) (by rw [e, hc]; ring) x0.isLt (by clear e hc; omega)), bf_eq (fld (hi := (q * 128 + x0.toNat * 4)) (low := (x2.toNat * 65536 + x3.toNat)) (by rw [e, hc]; ring) x1.isLt (by clear e hc; omega)), bt_eq (fld1 (hi := (q * 512 + x0.toNat * 16 + x1.toNat)) (low := (x3.toNat)) (by rw [e, hc]; ring) (Nat.lt_succ_of_le x2.toNat_le) (by clear e hc; omega)), bf_eq (fld (hi := (q * 2048 + x0.toNat * 64 + x1.toNat * 4 + x2.toNat * 2)) (low := (0)) (by rw [e, hc]; ring) x3.isLt (by clear e hc; omega)), by rw [zf_eq (lo := 15) (len := 1) (fld (hi := (q * 1024 + x0.toNat * 32 + x1.toNat * 2 + x2.toNat)) (low := (x3.toNat)) (by rw [e, hc]; ring) (by decide) (by clear e hc; omega)), zf_eq (lo := 19) (len := 2) (fld (hi := (q * 32 + x0.toNat)) (low := (x1.toNat * 131072 + x2.toNat * 65536 + x3.toNat)) (by rw [e, hc]; ring) (by decide) (by clear e hc; omega))]⟩
theorem shape15 {n c q k0 : Nat} (x0 : BitVec 5) (x1 : BitVec 5) (x2 : BitVec 5) (x3 : Bool) (x4 : Bool) (x5 : BitVec 3) (x6 : Bool) (e : n = c + x0.toNat * 2097152 + x1.toNat * 65536 + x2.toNat * 2048 + x3.toNat * 1024 + x4.toNat * 512 + x5.toNat * 32 + x6.toNat * 16) (hc : c = q * 67108864 + k0) (hq : q < 64) (hk0 : k0 < 16) :
    n < 2 ^ 32 ∧ n / 67108864 = q ∧ n % 16 = k0 ∧ bf n 21 5 = x0 ∧ bf n 16 5 = x1 ∧ bf n 11 5 = x2 ∧ bt n 10 = x3 ∧ bt n 9 = x4 ∧ bf n 5 3 = x5 ∧ bt n 4 = x6 ∧ zf n 8 1 = 0 := by
  have := x0.isLt; have := x1.isLt; have := x2.isLt; have := x3.toNat_le; have := x4.toNat_le; have := x5.isLt; have := x6.toNat_le
  exact ⟨by omega, (Nat.div_eq_of_lt_le (by omega) (by omega)), fld0 (hi := (q * 4194304 + x0.toNat * 131072 + x1.toNat * 4096 + x2.toNat * 128 + x3.toNat * 64 + x4.toNat * 32 + x5.toNat * 2 + x6.toNat)) (by rw [e, hc]; ring) hk0, bf_eq (fld (hi := (q)) (low := (k0 + x1.toNat * 65536 + x2.toNat * 2048 + x3.toNat * 1024 + x4.toNat * 512 + x5.toNat * 32 + x6.toNat * 16)) (by rw [e, hc]; ring) x0.isLt (by clear e hc; omega)), bf_eq (fld (hi := (q * 32 + x0.toNat)) (low := (k0 + x2.toNat * 2048 + x3.toNat * 1024 + x4.toNat * 512 + x5.toNat * 32 + x6.toNat * 16)) (by rw [e, hc]; ring) x1.isLt (by clear e hc; omega)), bf_eq (fld (hi := (q * 1024 + x0.toNat * 32 + x1.toNat)) (low := (k0 + x3.toNat * 1024 + x4.toNat * 512 + x5.toNat * 32 + x6.toNat * 16)) (by rw [e, hc]; ring) x2.isLt (by clear e hc; omega)), bt_eq (fld1 (hi := (q * 32768 + x0.toNat * 1024 + x1.toNat * 32 + x2.toNat)) (low := (k0 + x4.toNat * 512 + x5.toNat * 32 + x6.toNat * 16)) (by rw [e, hc]; ring) (Nat.lt_succ_of_le x3.toNat_le) (by clear e hc; omega)), bt_eq (fld1 (hi := (q * 65536 + x0.toNat * 2048 + x1.toNat * 64 + x2.toNat * 2 + x3.toNat)) (low := (k0 + x5.toNat * 32 + x6.toNat * 16)) (by rw [e, hc]; ring) (Nat.lt_succ_of_le x4.toNat_le) (by clear e hc; omega)), bf_eq (fld (hi := (q * 262144 + x0.toNat * 8192 + x1.toNat * 256 + x2.toNat * 8 + x3.toNat * 4 + x4.toNat * 2)) (low := (k0 + x6.toNat * 16)) (by rw [e, hc]; ring) x5.isLt (by clear e hc; omega)), bt_eq (fld1 (hi := (q * 2097152 + x0.toNat * 65536 + x1.toNat * 2048 + x2.toNat * 64 + x3.toNat * 32 + x4.toNat * 16 + x5.toNat)) (low := (k0)) (by rw [e, hc]; ring) (Nat.lt_succ_of_le x6.toNat_le) (by clear e hc; omega)), zf_eq (fld (hi := (q * 131072 + x0.toNat * 4096 + x1.toNat * 128 + x2.toNat * 4 + x3.toNat * 2 + x4.toNat)) (low := (k0 + x5.toNat * 32 + x6.toNat * 16)) (by rw [e, hc]; ring) (by decide) (by clear e hc; omega))⟩
theorem shape16 {n c q k0 : Nat} (x0 : BitVec 5) (x1 : BitVec 5) (x2 : Bool) (x3 : BitVec 3) (x4 : Bool) (e : n = c + x0.toNat * 2097152 + x1.toNat * 65536 + x2.toNat * 1024 + x3.toNat * 32 + x4.toNat * 16) (hc : c = q * 67108864 + k0) (hq : q < 64) (hk0 : k0 < 16) :
    n < 2 ^ 32 ∧ n / 67108864 = q ∧ n % 16 = k0 ∧ bf n 21 5 = x0 ∧ bf n 16 5 = x1 ∧ bt n 10 = x2 ∧ bf n 5 3 = x3 ∧ bt n 4 = x4 ∧ zf n 8 2 + zf n 11 5 = 0 := by
  have := x0.isLt; have := x1.isLt; have := x2.toNat_le; have := x3.isLt; have := x4.toNat_le
  exact ⟨by omega, (Nat.div_eq_of_lt_le (by omega) (by omega)), fld0 (hi := (q * 4194304 + x0.toNat * 131072 + x1.toNat * 4096 + x2.toNat * 64 + x3.toNat * 2 + x4.toNat)) (by rw [e, hc]; ring) hk0, bf_eq (fld (hi := (q)) (low := (k0 + x1.toNat * 65536 + x2.toNat * 1024 + x3.toNat * 32 + x4.toNat * 16)) (by rw [e, hc]; ring) x0.isLt (by clear e hc; omega)), bf_eq (fld (hi := (q * 32 + x0.toNat)) (low := (k0 + x2.toNat * 1024 + x3.toNat * 32 + x4.toNat * 16)) (by rw [e, hc]; ring) x1.isLt (by clear e hc; omega)), bt_eq (fld1 (hi := (q * 32768 + x0.toNat * 1024 + x1.toNat * 32)) (low := (k0 + x3.toNat * 32 + x4.toNat * 16)) (by rw [e, hc]; ring) (Nat.lt_succ_of_le x2.toNat_le) (by clear e hc; omega)), bf_eq (fld (hi := (q * 262144 + x0.toNat * 8192 + x1.toNat * 256 + x2.toNat * 4)) (low := (k0 + x4.toNat * 16)) (by rw [e, hc]; ring) x3.isLt (by clear e hc; omega)), bt_eq (fld1 (hi := (q * 2097152 + x0.toNat * 65536 + x1.toNat * 2048 + x2.toNat * 32 + x3.toNat)) (low := (k0)) (by rw [e, hc]; ring) (Nat.lt_succ_of_le x4.toNat_le) (by clear e hc; omega)), by rw [zf_eq (lo := 8) (len := 2) (fld (hi := (q * 65536 + x0.toNat * 2048 + x1.toNat * 64 + x2.toNat)) (low := (k0 + x3.toNat * 32 + x4.toNat * 16)) (by rw [e, hc]; ring) (by decide) (by clear e hc; omega)), zf_eq (lo := 11) (len := 5) (fld (hi := (q * 1024 + x0.toNat * 32 + x1.toNat)) (low := (k0 + x2.toNat * 1024 + x3.toNat * 32 + x4.toNat * 16)) (by rw [e, hc]; ring) (by decide) (by clear e hc; omega))]⟩
theorem shape17 {n c q k0 : Nat} (x0 : BitVec 5) (x1 : BitVec 5) (x2 : BitVec 5) (x3 : Bool) (x4 : Bool) (x5 : Bool) (e : n = c + x0.toNat * 2097152 + x1.toNat * 65536 + x2.toNat * 2048 + x3.toNat * 1024 + x4.toNat * 512 + x5.toNat * 16) (hc : c = q * 67108864 + k0) (hq : q < 64) (hk0 : k0 < 16) :
    n < 2 ^ 32 ∧ n / 67108864 = q ∧ n % 16 = k0 ∧ bf n 21 5 = x0 ∧ bf n 16 5 = x1 ∧ bf n 11 5 = x2 ∧ bt n 10 = x3 ∧ bt n 9 = x4 ∧ bt n 4 = x5 ∧ zf n 5 4 = 0 := by
  have := x0.isLt; have := x1.isLt; have := x2.isLt; have := x3.toNat_le; have := x4.toNat_le; have := x5.toNat_le
  exact ⟨by omega, (Nat.div_eq_of_lt_le (by omega) (by omega)), fld0 (hi := (q * 4194304 + x0.toNat * 131072 + x1.toNat * 4096 + x2.toNat * 128 + x3.toNat * 64 + x4.toNat * 32 + x5.toNat)) (by rw [e, hc]; ring) hk0, bf_eq (fld (hi := (q)) (low := (k0 + x1.toNat * 65536 + x2.toNat * 2048 + x3.toNat * 1024 + x4.toNat * 512 + x5.toNat * 16)) (by rw [e, hc]; ring) x0.isLt (by clear e hc; omega)), bf_eq (fld (hi := (q * 32 + x0.toNat)) (low := (k0 + x2.toNat * 2048 + x3.toNat * 1024 + x4.toNat * 512 + x5.toNat * 16)) (by rw [e, hc]; ring) x1.isLt (by clear e hc; omega)), bf_eq (fld (hi := (q * 1024 + x0.toNat * 32 + x1.toNat)) (low := (k0 + x3.toNat * 1024 + x4.toNat * 512 + x5.toNat * 16)) (by rw [e, hc]; ring) x2.isLt (by clear e hc; omega)), bt_eq (fld1 (hi := (q * 32768 + x0.toNat * 1024 + x1.toNat * 32 + x2.toNat)) (low := (k0 + x4.toNat * 512 + x5.toNat * 16)) (by rw [e, hc]; ring) (Nat.lt_succ_of_le x3.toNat_le) (by clear e hc; omega)), bt_eq (fld1 (hi := (q * 65536 + x0.toNat * 2048 + x1.toNat * 64 + x2.toNat * 2 + x3.toNat)) (low := (k0 + x5.toNat * 16)) (by rw [e, hc]; ring) (Nat.lt_succ_of_le x4.toNat_le) (by clear e hc; omega)), bt_eq (fld1 (hi := (q * 2097152 + x0.toNat * 65536 + x1.toNat * 2048 + x2.toNat * 64 + x3.toNat * 32 + x4.toNat * 16)) (low := (k0)) (by rw [e, hc]; ring) (Nat.lt_succ_of_le x5.toNat_le) (by clear e hc; omega)), zf_eq (fld (hi := (q * 131072 + x0.toNat * 4096 + x1.toNat * 128 + x2.toNat * 4 + x3.toNat * 2 + x4.toNat)) (low := (k0 + x5.toNat * 16)) (by rw [e, hc]; ring) (by decide) (by clear e hc; omega))⟩
theorem shape18 {n c q k0 : Nat} (x0 : BitVec 5) (x1 : BitVec 5) (x2 : Bool) (x3 : Bool) (e : n = c + x0.toNat * 2097152 + x1.toNat * 65536 + x2.toNat * 1024 + x3.toNat * 16) (hc : c = q * 67108864 + k0) (hq : q < 64) (hk0 : k0 < 16) :
    n < 2 ^ 32 ∧ n / 67108864 = q ∧ n % 16 = k0 ∧ bf n 21 5 = x0 ∧ bf n 16 5 = x1 ∧ bt n 10 = x2 ∧ bt n 4 = x3 ∧ zf n 5 5 + zf n 11 5 = 0 := by
  have := x0.isLt; have := x1.isLt; have := x2.toNat_le; have := x3.toNat_le
  exact ⟨by omega, (Nat.div_eq_of_lt_le (by omega) (by omega)), fld0 (hi := (q * 4194304 + x0.toNat * 131072 + x1.toNat * 4096 + x2.toNat * 64 + x3.toNat)) (by rw [e, hc]; ring) hk0, bf_eq (fld (hi := (q)) (low := (k0 + x1.toNat * 65536 + x2.toNat * 1024 + x3.toNat * 16)) (by rw [e, hc]; ring) x0.isLt (by clear e hc; omega)), bf_eq (fld (hi := (q * 32 + x0.toNat)) (low := (k0 + x2.toNat * 1024 + x3.toNat * 16)) (by rw [e, hc]; ring) x1.isLt (by clear e hc; omega)), bt_eq (fld1 (hi := (q * 32768 + x0.toNat * 1024 + x1.toNat * 32)) (low := (k0 + x3.toNat * 16)) (by rw [e, hc]; ring) (Nat.lt_succ_of_le x2.toNat_le) (by clear e hc; omega)), bt_eq (fld1 (hi := (q * 2097152 + x0.toNat * 65536 + x1.toNat * 2048 + x2.toNat * 32)) (low := (k0)) (by rw [e, hc]; ring) (Nat.lt_succ_of_le x3.toNat_le) (by clear e hc; omega)), by rw [zf_eq (lo := 5) (len := 5) (fld (hi := (q * 65536 + x0.toNat * 2048 + x1.toNat * 64 + x2.toNat)) (low := (k0 + x3.toNat * 16)) (by rw [e, hc]; ring) (by decide) (by clear e hc; omega)), zf_eq (lo := 11) (len := 5) (fld (hi := (q * 1024 + x0.toNat * 32 + x1.toNat)) (low := (k0 + x2.toNat * 1024 + x3.toNat * 16)) (by rw [e, hc]; ring) (by decide) (by clear e hc; omega))]⟩
theorem shape19 {n c q k0 k1 : Nat} (x0 : BitVec 5) (x1 : BitVec 5) (x2 : BitVec 5) (x3 : Bool) (x4 : Bool) (x5 : Bool) (e : n = c + x0.toNat * 2097152 + x1.toNat * 65536 + x2.toNat * 2048 + x3.toNat * 1024 + x4.toNat * 512 + x5.toNat * 16) (hc : c = q * 67108864 + k0 + k1 * 32) (hq : q < 64) (hk0 : k0 < 16) (hk1 : k1 < 8) :
    n < 2 ^ 32 ∧ n / 67108864 = q ∧ n % 16 = k0 ∧ n / 32 % 8 = k1 ∧ bf n 21 5 = x0 ∧ bf n 16 5 = x1 ∧ bf n 11 5 = x2 ∧ bt n 10 = x3 ∧ bt n 9 = x4 ∧ bt n 4 = x5 ∧ zf n 8 1 = 0 := by
  have := x0.isLt; have := x1.isLt; have := x2.isLt; have := x3.toNat_le; have := x4.toNat_le; have := x5.toNat_le
  exact ⟨by omega, (Nat.div_eq_of_lt_le (by omega) (by omega)), fld0 (hi := (q * 4194304 + k1 * 2 + x0.toNat * 131072 + x1.toNat * 4096 + x2.toNat * 128 + x3.toNat * 64 + x4.toNat * 32 + x5.toNat)) (by rw [e, hc]; ring) hk0, fld (lo := 5) (len := 3) (hi := (q * 262144 + x0.toNat * 8192 + x1.toNat * 256 + x2.toNat * 8 + x3.toNat * 4 + x4.toNat * 2)) (low := (k0 + x5.toNat * 16)) (by rw [e, hc]; ring) hk1 (by clear e hc; omega), bf_eq (fld (hi := (q)) (low := (k0 + k1 * 32 + x1.toNat * 65536 + x2.toNat * 2048 + x3.toNat * 1024 + x4.toNat * 512 + x5.toNat * 16)) (by rw [e, hc]; ring) x0.isLt (by clear e hc; omega)), bf_eq (fld (hi := (q * 32 + x0.toNat)) (low := (k0 + k1 * 32 + x2.toNat * 2048 + x3.toNat * 1024 + x4.toNat * 512 + x5.toNat * 16)) (by rw [e, hc]; ring) x1.isLt (by clear e hc; omega)), bf_eq (fld (hi := (q * 1024 + x0.toNat * 32 + x1.toNat)) (low := (k0 + k1 * 32 + x3.toNat * 1024 + x4.toNat * 512 + x5.toNat * 16)) (by rw [e, hc]; ring) x2.isLt (by clear e hc; omega)), bt_eq (fld1 (hi := (q * 32768 + x0.toNat * 1024 + x1.toNat * 32 + x2.toNat)) (low := (k0 + k1 * 32 + x4.toNat * 512 + x5.toNat * 16)) (by rw [e, hc]; ring) (Nat.lt_succ_of_le x3.toNat_le) (by clear e hc; omega)), bt_eq (fld1 (hi := (q * 65536 + x0.toNat * 2048 + x1.toNat * 64 + x2.toNat * 2 + x3.toNat)) (low := (k0 + k1 * 32 + x5.toNat * 16)) (by rw [e, hc]; ring) (Nat.lt_succ_of_le x4.toNat_le) (by clear e hc; omega)), bt_eq (fld1 (hi := (q * 2097152 + k1 + x0.toNat * 65536 + x1.toNat * 2048 + x2.toNat * 64 + x3.toNat * 32 + x4.toNat * 16)) (low := (k0)) (by rw [e, hc]; ring) (Nat.lt_succ_of_le x5.toNat_le) (by clear e hc; omega)), zf_eq (fld (hi := (q * 131072 + x0.toNat * 4096 + x1.toNat * 128 + x2.toNat * 4 + x3.toNat * 2 + x4.toNat)) (low := (k0 + k1 * 32 + x5.toNat * 16)) (by rw [e, hc]; ring) (by decide) (by clear e hc; omega))⟩
theorem shape20 {n c q k0 : Nat} (x0 : BitVec 5) (x1 : BitVec 5) (x2 : BitVec 5) (x3 : Bool) (x4 : BitVec 3) (x5 : Bool) (e : n = c + x0.toNat * 2097152 + x1.toNat * 65536 + x2.toNat * 2048 + x3.toNat * 1024 + x4.toNat * 32 + x5.toNat * 16) (hc : c = q * 67108864 + k0) (hq : q < 64) (hk0 : k0 < 16) :
    n < 2 ^ 32 ∧ n / 67108864 = q ∧ n % 16 = k0 ∧ bf n 21 5 = x0 ∧ bf n 16 5 = x1 ∧ bf n 11 5 = x2 ∧ bt n 10 = x3 ∧ bf n 5 3 = x4 ∧ bt n 4 = x5 ∧ zf n 8 2 = 0 := by
  have := x0.isLt; have := x1.isLt; have := x2.isLt; have := x3.toNat_le; have := x4.isLt; have := x5.toNat_le
  exact ⟨by omega, (Nat.div_eq_of_lt_le (by omega) (by omega)), fld0 (hi := (q * 4194304 + x0.toNat * 131072 + x1.toNat * 4096 + x2.toNat * 128 + x3.toNat * 64 + x4.toNat * 2 + x5.toNat)) (by rw [e, hc]; ring) hk0, bf_eq (fld (hi := (q)) (low := (k0 + x1.toNat * 65536 + x2.toNat * 2048 + x3.toNat * 1024 + x4.toNat * 32 + x5.toNat * 16)) (by rw [e, hc]; ring) x0.isLt (by clear e hc; omega)), bf_eq (fld (hi := (q * 32 + x0.toNat)) (low := (k0 + x2.toNat * 2048 + x3.toNat * 1024 + x4.toNat * 32 + x5.toNat * 16)) (by rw [e, hc]; ring) x1.isLt (by clear e hc; omega)), bf_eq (fld (hi := (q * 1024 + x0.toNat * 32 + x1.toNat)) (low := (k0 + x3.toNat * 1024 + x4.toNat * 32 + x5.toNat * 16)) (by rw [e, hc]; ring) x2.isLt (by clear e hc; omega)), bt_eq (fld1 (hi := (q * 32768 + x0.toNat * 1024 + x1.toNat * 32 + x2.toNat)) (low := (k0 + x4.toNat * 32 + x5.toNat * 16)) (by rw [e, hc]; ring) (Nat.lt_succ_of_le x3.toNat_le) (by clear e hc; omega)), bf_eq (fld (hi := (q * 262144 + x0.toNat * 8192 + x1.toNat * 256 + x2.toNat * 8 + x3.toNat * 4)) (low := (k0 + x5.toNat * 16)) (by rw [e, hc]; ring) x4.isLt (by clear e hc; omega)), bt_eq (fld1 (hi := (q * 2097152 + x0.toNat * 65536 + x1.toNat * 2048 + x2.toNat * 64 + x3.toNat * 32 + x4.toNat)) (low := (k0)) (by rw [e, hc]; ring) (Nat.lt_succ_of_le x5.toNat_le) (by clear e hc; omega)), zf_eq (fld (hi := (q * 65536 + x0.toNat * 2048 + x1.toNat * 64 + x2.toNat * 2 + x3.toNat)) (low := (k0 + x4.toNat * 32 + x5.toNat * 16)) (by rw [e, hc]; ring) (by decide) (by clear e hc; omega))⟩
theorem shape21 {n c q k0 : Nat} (x0 : BitVec 5) (x1 : BitVec 5) (x2 : BitVec 5) (x3 : Bool) (x4 : Bool) (x5 : BitVec 3) (x6 : Bool) (e : n = c + x0.toNat * 2097152 + x1.toNat * 65536 + x2.toNat * 2048 + x3.toNat * 1024 + x4.toNat * 512 + x5.toNat * 32 + x6.toNat * 16) (hc : c = q * 67108864 + k0) (hq : q < 64) (hk0 : k0 < 4) :
    n < 2 ^ 32 ∧ n / 67108864 = q ∧ n % 4 = k0 ∧ bf n 21 5 = x0 ∧ bf n 16 5 = x1 ∧ bf n 11 5 = x2 ∧ bt n 10 = x3 ∧ bt n 9 = x4 ∧ bf n 5 3 = x5 ∧ bt n 4 = x6 ∧ zf n 2 2 + zf n 8 1 = 0 := by
  have := x0.isLt; have := x1.isLt; have := x2.isLt; have := x3.toNat_le; have := x4.toNat_le; have := x5.isLt; have := x6.toNat_le
  exact ⟨by omega, (Nat.div_eq_of_lt_le (by omega) (by omega)), fld0 (hi := (q * 16777216 + x0.toNat * 524288 + x1.toNat * 16384 + x2.toNat * 512 + x3.toNat * 256 + x4.toNat * 128 + x5.toNat * 8 + x6.toNat * 4)) (by rw [e, hc]; ring) hk0, bf_eq (fld (hi := (q)) (low := (k0 + x1.toNat * 65536 + x2.toNat * 2048 + x3.toNat * 1024 + x4.toNat * 512 + x5.toNat * 32 + x6.toNat * 16)) (by rw [e, hc]; ring) x0.isLt (by clear e hc; omega)), bf_eq (fld (hi := (q * 32 + x0.toNat)) (low := (k0 + x2.toNat * 2048 + x3.toNat * 1024 + x4.toNat * 512 + x5.toNat * 32 + x6.toNat * 16)) (by rw [e, hc]; ring) x1.isLt (by clear e hc; omega)), bf_eq (fld (hi := (q * 1024 + x0.toNat * 32 + x1.toNat)) (low := (k0 + x3.toNat * 1024 + x4.toNat * 512 + x5.toNat * 32 + x6.toNat * 16)) (by rw [e, hc]; ring) x2.isLt (by clear e hc; omega)), bt_eq (fld1 (hi := (q * 32768 + x0.toNat * 1024 + x1.toNat * 32 + x2.toNat)) (low := (k0 + x4.toNat * 512 + x5.toNat * 32 + x6.toNat * 16)) (by rw [e, hc]; ring) (Nat.lt_succ_of_le x3.toNat_le) (by clear e hc; omega)), bt_eq (fld1 (hi := (q * 65536 + x0.toNat * 2048 + x1.toNat * 64 + x2.toNat * 2 + x3.toNat)) (low := (k0 + x5.toNat * 32 + x6.toNat * 16)) (by rw [e, hc]; ring) (Nat.lt_succ_of_le x4.toNat_le) (by clear e hc; omega)), bf_eq (fld (hi := (q * 262144 + x0.toNat * 8192 + x1.toNat * 256 + x2.toNat * 8 + x3.toNat * 4 + x4.toNat * 2)) (low := (k0 + x6.toNat * 16)) (by rw [e, hc]; ring) x5.isLt (by clear e hc; omega)), bt_eq (fld1 (hi := (q * 2097152 + x0.toNat * 65536 + x1.toNat * 2048 + x2.toNat * 64 + x3.toNat * 32 + x4.toNat * 16 + x5.toNat)) (low := (k0)) (by rw [e, hc]; ring) (Nat.lt_succ_of_le x6.toNat_le) (by clear e hc; omega)), by rw [zf_eq (lo := 2) (len := 2) (fld (hi := (q * 4194304 + x0.toNat * 131072 + x1.toNat * 4096 + x2.toNat * 128 + x3.toNat * 64 + x4.toNat * 32 + x5.toNat * 2 + x6.toNat)) (low := (k0)) (by rw [e, hc]; ring) (by decide) (by clear e hc; omega)), zf_eq (lo := 8) (len := 1) (fld (hi := (q * 131072 + x0.toNat * 4096 + x1.toNat * 128 + x2.toNat * 4 + x3.toNat * 2 + x4.toNat)) (low := (k0 + x5.toNat * 32 + x6.toNat * 16)) (by rw [e, hc]; ring) (by decide) (by clear e hc; omega))]⟩
theorem shape22 {n c q : Nat} (x0 : BitVec 5) (x1 : BitVec 5) (x2 : Bool) (x3 : BitVec 2) (x4 : BitVec 3) (x5 : BitVec 10) (e : n = c + x0.toNat * 2097152 + x1.toNat * 65536 + x2.toNat * 32768 + x3.toNat * 8192 + x4.toNat * 1024 + x5.toNat) (hc : c = q * 67108864) (hq : q < 64) :
    n < 2 ^ 32 ∧ n / 67108864 = q ∧ bf n 21 5 = x0 ∧ bf n 16 5 = x1 ∧ bt n 15 = x2 ∧ bf n 13 2 = x3 ∧ bf n 10 3 = x4 ∧ bf n 0 10 = x5 := by
  have := x0.isLt; have := x1.isLt; have := x2.toNat_le; have := x3.isLt; have := x4.isLt; have := x5.isLt
  exact ⟨by omega, (Nat.div_eq_of_lt_le (by omega) (by omega)), bf_eq (fld (hi := (q)) (low := (x1.toNat * 65536 + x2.toNat * 32768 + x3.toNat * 8192 + x4.toNat * 1024 + x5.toNat)) (by rw [e, hc]; ring) x0.isLt (by clear e hc; omega)), bf_eq (fld (hi := (q * 32 + x0.toNat)) (low := (x2.toNat * 32768 + x3.toNat * 8192 + x4.toNat * 1024 + x5.toNat)) (by rw [e, hc]; ring) x1.isLt (by clear e hc; omega)), bt_eq (fld1 (hi := (q * 1024 + x0.toNat * 32 + x1.toNat)) (low := (x3.toNat * 8192 + x4.toNat * 1024 + x5.toNat)) (by rw [e, hc]; ring) (Nat.lt_succ_of_le x2.toNat_le) (by clear e hc; omega)), bf_eq (fld (hi := (q * 2048 + x0.toNat * 64 + x1.toNat * 2 + x2.toNat)) (low := (x4.toNat * 1024 + x5.toNat)) (by rw [e, hc]; ring) x3.isLt (by clear e hc; omega)), bf_eq (fld (hi := (q * 8192 + x0.toNat * 256 + x1.toNat * 8 + x2.toNat * 4 + x3.toNat)) (low := (x5.toNat)) (by rw [e, hc]; ring) x4.isLt (by clear e hc; omega)), bf_eq (fld (hi := (q * 65536 + x0.toNat * 2048 + x1.toNat * 64 + x2.toNat * 32 + x3.toNat * 8 + x4.toNat)) (low := (0)) (by rw [e, hc]; ring) x5.isLt (by clear e hc; omega))⟩
theorem shape23 {n c q k0 : Nat} (x0 : BitVec 5) (x1 : BitVec 5) (x2 : Bool) (x3 : BitVec 3) (x4 : BitVec 10) (e : n = c + x0.toNat * 2097152 + x1.toNat * 65536 + x2.toNat * 32768 + x3.toNat * 1024 + x4.toNat) (hc : c = q * 67108864 + k0 * 8192) (hq : q < 64) (hk0 : k0 < 4) :
    n < 2 ^ 32 ∧ n / 67108864 = q ∧ n / 8192 % 4 = k0 ∧ bf n 21 5 = x0 ∧ bf n 16 5 = x1 ∧ bt n 15 = x2 ∧ bf n 10 3 = x3 ∧ bf n 0 10 = x4 := by
  have := x0.isLt; have := x1.isLt; have := x2.toNat_le; have := x3.isLt; have := x4.isLt
  exact ⟨by omega, (Nat.div_eq_of_lt_le (by omega) (by omega)), fld (lo := 13) (len := 2) (hi := (q * 2048 + x0.toNat * 64 + x1.toNat * 2 + x2.toNat)) (low := (x3.toNat * 1024 + x4.toNat)) (by rw [e, hc]; ring) hk0 (by clear e hc; omega), bf_eq (fld (hi := (q)) (low := (k0 * 8192 + x1.toNat * 65536 + x2.toNat * 32768 + x3.toNat * 1024 + x4.toNat)) (by rw [e, hc]; ring) x0.isLt (by clear e hc; omega)), bf_eq (fld (hi := (q * 32 + x0.toNat)) (low := (k0 * 8192 + x2.toNat * 32768 + x3.toNat * 1024 + x4.toNat)) (by rw [e, hc]; ring) x1.isLt (by clear e hc; omega)), bt_eq (fld1 (hi := (q * 1024 + x0.toNat * 32 + x1.toNat)) (low := (k0 * 8192 + x3.toNat * 1024 + x4.toNat)) (by rw [e, hc]; ring) (Nat.lt_succ_of_le x2.toNat_le) (by clear e hc; omega)), bf_eq (fld (hi := (q * 8192 + k0 + x0.toNat * 256 + x1.toNat * 8 + x2.toNat * 4)) (low := (x4.toNat)) (by rw [e, hc]; ring) x3.isLt (by clear e hc; omega)), bf_eq (fld (hi := (q * 65536 + k0 * 8 + x0.toNat * 2048 + x1.toNat * 64 + x2.toNat * 32 + x3.toNat)) (low := (0)) (by rw [e, hc]; ring) x4.isLt (by clear e hc; omega))⟩
theorem shape24 {n c q k0 : Nat} (x0 : BitVec 5) (x1 : BitVec 5) (x2 : BitVec 5) (x3 : Bool) (e : n = c + x0.toNat * 2097152 + x1.toNat * 65536 + x2.toNat * 2048 + x3.toNat * 1024) (hc : c = q * 67108864 + k0) (hq : q < 64) (hk0 : k0 < 512) :
    n < 2 ^ 32 ∧ n / 67108864 = q ∧ n % 512 = k0 ∧ bf n 21 5 = x0 ∧ bf n 16 5 = x1 ∧ bf n 11 5 = x2 ∧ bt n 10 = x3 ∧ zf n 9 1 = 0 := by
  have := x0.isLt; have := x1.isLt; have := x2.isLt; have := x3.toNat_le
  exact ⟨by omega, (Nat.div_eq_of_lt_le (by omega) (by omega)), fld0 (hi := (q * 131072 + x0.toNat * 4096 + x1.toNat * 128 + x2.toNat * 4 + x3.toNat * 2)) (by rw [e, hc]; ring) hk0, bf_eq (fld (hi := (q)) (low := (k0 + x1.toNat * 65536 + x2.toNat * 2048 + x3.toNat * 1024)) (by rw [e, hc]; ring) x0.isLt (by clear e hc; omega)), bf_eq (fld (hi := (q * 32 + x0.toNat)) (low := (k0 + x2.toNat * 2048 + x3.toNat * 1024)) (by rw [e, hc]; ring) x1.isLt (by clear e hc; omega)), bf_eq (fld (hi := (q * 1024 + x0.toNat * 32 + x1.toNat)) (low := (k0 + x3.toNat * 1024)) (by rw [e, hc]; ring) x2.isLt (by clear e hc; omega)), bt_eq (fld1 (hi := (q * 32768 + x0.toNat * 1024 + x1.toNat * 32 + x2.toNat)) (low := (k0)) (by rw [e, hc]; ring) (Nat.lt_succ_of_le x3.toNat_le) (by clear e hc; omega)), zf_eq (fld (hi := (q * 65536 + x0.toNat * 2048 + x1.toNat * 64 + x2.toNat * 2 + x3.toNat)) (low := (k0)) (by rw [e, hc]; ring) (by decide) (by clear e hc; omega))⟩
theorem shape25 {n c q k0 k1 : Nat} (x0 : BitVec 5) (x1 : BitVec 5) (x2 : Bool) (e : n = c + x0.toNat * 2097152 + x1.toNat * 65536 + x2.toNat * 1024) (hc : c = q * 67108864 + k0 + k1 * 2048) (hq : q < 64) (hk0 : k0 < 512) (hk1 : k1 < 32) :
    n < 2 ^ 32 ∧ n / 67108864 = q ∧ n % 512 = k0 ∧ n / 2048 % 32 = k1 ∧ bf n 21 5 = x0 ∧ bf n 16 5 = x1 ∧ bt n 10 = x2 ∧ zf n 9 1 = 0 := by
  have := x0.isLt; have := x1.isLt; have := x2.toNat_le
  exact ⟨by omega, (Nat.div_eq_of_lt_le (by omega) (by omega)), fld0 (hi := (q * 131072 + k1 * 4 + x0.toNat * 4096 + x1.toNat * 128 + x2.toNat * 2)) (by rw [e, hc]; ring) hk0, fld (lo := 11) (len := 5) (hi := (q * 1024 + x0.toNat * 32 + x1.toNat)) (low := (k0 + x2.toNat * 1024)) (by rw [e, hc]; ring) hk1 (by clear e hc; omega), bf_eq (fld (hi := (q)) (low := (k0 + k1 * 2048 + x1.toNat * 65536 + x2.toNat * 1024)) (by rw [e, hc]; ring) x0.isLt (by clear e hc; omega)), bf_eq (fld (hi := (q * 32 + x0.toNat)) (low := (k0 + k1 * 2048 + x2.toNat * 1024)) (by rw [e, hc]; ring) x1.isLt (by clear e hc; omega)), bt_eq (fld1 (hi := (q * 32768 + k1 + x0.toNat * 1024 + x1.toNat * 32)) (low := (k0)) (by rw [e, hc]; ring) (Nat.lt_succ_of_le x2.toNat_le) (by clear e hc; omega)), zf_eq (fld (hi := (q * 65536 + k1 * 2 + x0.toNat * 2048 + x1.toNat * 64 + x2.toNat)) (low := (k0)) (by rw [e, hc]; ring) (by decide) (by clear e hc; omega))⟩
theorem shape26 {n c q : Nat} (x0 : BitVec 5) (x1 : BitVec 5) (x2 : BitVec 5) (x3 : BitVec 3) (x4 : BitVec 3) (x5 : BitVec 2) (e : n = c + x0.toNat * 2097152 + x1.toNat * 65536 + x2.toNat * 2048 + x3.toNat * 256 + x4.toNat * 32 + x5.toNat) (hc : c = q * 67108864) (hq : q < 64) :
    n < 2 ^ 32 ∧ n / 67108864 = q ∧ bf n 21 5 = x0 ∧ bf n 16 5 = x1 ∧ bf n 11 5 = x2 ∧ bf n 8 3 = x3 ∧ bf n 5 3 = x4 ∧ bf n 0 2 = x5 ∧ zf n 2 3 = 0 := by
  have := x0.isLt; have := x1.isLt; have := x2.isLt; have := x3.isLt; have := x4.isLt; have := x5.isLt
  exact ⟨by omega, (Nat.div_eq_of_lt_le (by omega) (by omega)), bf_eq (fld (hi := (q)) (low := (x1.toNat * 65536 + x2.toNat * 2048 + x3.toNat * 256 + x4.toNat * 32 + x5.toNat)) (by rw [e, hc]; ring) x0.isLt (by clear e hc; omega)), bf_eq (fld (hi := (q * 32 + x0.toNat)) (low := (x2.toNat * 2048 + x3.toNat * 256 + x4.toNat * 32 + x5.toNat)) (by rw [e, hc]; ring) x1.isLt (by clear e hc; omega)), bf_eq (fld (hi := (q * 1024 + x0.toNat * 32 + x1.toNat)) (low := (x3.toNat * 256 + x4.toNat * 32 + x5.toNat)) (by rw [e, hc]; ring) x2.isLt (by clear e hc; omega)), bf_eq (fld (hi := (q * 32768 + x0.toNat * 1024 + x1.toNat * 32 + x2.toNat)) (low := (x4.toNat * 32 + x5.toNat)) (by rw [e, hc]; ring) x3.isLt (by clear e hc; omega)), bf_eq (fld (hi := (q * 262144 + x0.toNat * 8192 + x1.toNat * 256 + x2.toNat * 8 + x3.toNat)) (low := (x5.toNat)) (by rw [e, hc]; ring) x4.isLt (by clear e hc; omega)), bf_eq (fld (hi := (q * 16777216 + x0.toNat * 524288 + x1.toNat * 16384 + x2.toNat * 512 + x3.toNat * 64 + x4.toNat * 8)) (low := (0)) (by rw [e, hc]; ring) x5.isLt (by clear e hc; omega)), zf_eq (fld (hi := (q * 2097152 + x0.toNat * 65536 + x1.toNat * 2048 + x2.toNat * 64 + x3.toNat * 8 + x4.toNat)) (low := (x5.toNat)) (by rw [e, hc]; ring) (by decide) (by clear e hc; omega))⟩
theorem shape27 {n c q k0 : Nat} (x0 : BitVec 5) (x1 : BitVec 5) (x2 : BitVec 5) (x3 : BitVec 3) (x4 : BitVec 3) (e : n = c + x0.toNat * 2097152 + x1.toNat * 65536 + x2.toNat * 2048 + x3.toNat * 256 + x4.toNat * 32) (hc : c = q * 67108864 + k0) (hq : q < 64) (hk0 : k0 < 32) :
    n < 2 ^ 32 ∧ n / 67108864 = q ∧ n % 32 = k0 ∧ bf n 21 5 = x0 ∧ bf n 16 5 = x1 ∧ bf n 11 5 = x2 ∧ bf n 8 3 = x3 ∧ bf n 5 3 = x4 := by
  have := x0.isLt; have := x1.isLt; have := x2.isLt; have := x3.isLt; have := x4.isLt
  exact ⟨by omega, (Nat.div_eq_of_lt_le (by omega) (by omega)), fld0 (hi := (q * 2097152 + x0.toNat * 65536 + x1.toNat * 2048 + x2.toNat * 64 + x3.toNat * 8 + x4.toNat)) (by rw [e, hc]; ring) hk0, bf_eq (fld (hi := (q)) (low := (k0 + x1.toNat * 65536 + x2.toNat * 2048 + x3.toNat * 256 + x4.toNat * 32)) (by rw [e, hc]; ring) x0.isLt (by clear e hc; omega)), bf_eq (fld (hi := (q * 32 + x0.toNat)) (low := (k0 + x2.toNat * 2048 + x3.toNat * 256 + x4.toNat * 32)) (by rw [e, hc]; ring) x1.isLt (by clear e hc; omega)), bf_eq (fld (hi := (q * 1024 + x0.toNat * 32 + x1.toNat)) (low := (k0 + x3.toNat * 256 + x4.toNat * 32)) (by rw [e, hc]; ring) x2.isLt (by clear e hc; omega)), bf_eq (fld (hi := (q * 32768 + x0.toNat * 1024 + x1.toNat * 32 + x2.toNat)) (low := (k0 + x4.toNat * 32)) (by rw [e, hc]; ring) x3.isLt (by clear e hc; omega)), bf_eq (fld (hi := (q * 262144 + x0.toNat * 8192 + x1.toNat * 256 + x2.toNat * 8 + x3.toNat)) (low := (k0)) (by rw [e, hc]; ring) x4.isLt (by clear e hc; omega))⟩
theorem shape28 {n c q k0 : Nat} (x0 : BitVec 5) (x1 : BitVec 5) (x2 : BitVec 3) (x3 : BitVec 3) (e : n = c + x0.toNat * 2097152 + x1.toNat * 65536 + x2.toNat * 256 + x3.toNat * 32) (hc : c = q * 67108864 + k0) (hq : q < 64) (hk0 : k0 < 32) :
    n < 2 ^ 32 ∧ n / 67108864 = q ∧ n % 32 = k0 ∧ bf n 21 5 = x0 ∧ bf n 16 5 = x1 ∧ bf n 8 3 = x2 ∧ bf n 5 3 = x3 ∧ zf n 11 5 = 0 := by
  have := x0.isLt; have := x1.isLt; have := x2.isLt; have := x3.isLt
  exact ⟨by omega, (Nat.div_eq_of_lt_le (by omega) (by omega)), fld0 (hi := (q * 2097152 + x0.toNat * 65536 + x1.toNat * 2048 + x2.toNat * 8 + x3.toNat)) (by rw [e, hc]; ring) hk0, bf_eq (fld (hi := (q)) (low := (k0 + x1.toNat * 65536 + x2.toNat * 256 + x3.toNat * 32)) (by rw [e, hc]; ring) x0.isLt (by clear e hc; omega)), bf_eq (fld (hi := (q * 32 + x0.toNat)) (low := (k0 + x2.toNat * 256 + x3.toNat * 32)) (by rw [e, hc]; ring) x1.isLt (by clear e hc; omega)), bf_eq (fld (hi := (q * 32768 + x0.toNat * 1024 + x1.toNat * 32)) (low := (k0 + x3.toNat * 32)) (by rw [e, hc]; ring) x2.isLt (by clear e hc; omega)), bf_eq (fld (hi := (q * 262144 + x0.toNat * 8192 + x1.toNat * 256 + x2.toNat)) (low := (k0)) (by rw [e, hc]; ring) x3.isLt (by clear e hc; omega)), zf_eq (fld (hi := (q * 1024 + x0.toNat * 32 + x1.toNat)) (low := (k0 + x2.toNat * 256 + x3.toNat * 32)) (by rw [e, hc]; ring) (by decide) (by clear e hc; omega))⟩
theorem shape29 {n c q k0 : Nat} (x0 : BitVec 2) (x1 : BitVec 3) (x2 : BitVec 5) (x3 : BitVec 5) (x4 : BitVec 3) (x5 : BitVec 3) (e : n = c + x0.toNat * 16777216 + x1.toNat * 2097152 + x2.toNat * 65536 + x3.toNat * 2048 + x4.toNat * 256 + x5.toNat * 32) (hc : c = q * 67108864 + k0) (hq : q < 64) (hk0 : k0 < 32) :
    n < 2 ^ 32 ∧ n / 67108864 = q ∧ n % 32 = k0 ∧ bf n 24 2 = x0 ∧ bf n 21 3 = x1 ∧ bf n 16 5 = x2 ∧ bf n 11 5 = x3 ∧ bf n 8 3 = x4 ∧ bf n 5 3 = x5 := by
  have := x0.isLt; have := x1.isLt; have := x2.isLt; have := x3.isLt; have := x4.isLt; have := x5.isLt
  exact ⟨by omega, (Nat.div_eq_of_lt_le (by omega) (by omega)), fld0 (hi := (q * 2097152 + x0.toNat * 524288 + x1.toNat * 65536 + x2.toNat * 2048 + x3.toNat * 64 + x4.toNat * 8 + x5.toNat)) (by rw [e, hc]; ring) hk0, bf_eq (fld (hi := (q)) (low := (k0 + x1.toNat * 2097152 + x2.toNat * 65536 + x3.toNat * 2048 + x4.toNat * 256 + x5.toNat * 32)) (by rw [e, hc]; ring) x0.isLt (by clear e hc; omega)), bf_eq (fld (hi := (q * 4 + x0.toNat)) (low := (k0 + x2.toNat * 65536 + x3.toNat * 2048 + x4.toNat * 256 + x5.toNat * 32)) (by rw [e, hc]; ring) x1.isLt (by clear e hc; omega)), bf_eq (fld (hi := (q * 32 + x0.toNat * 8 + x1.toNat)) (low := (k0 + x3.toNat * 2048 + x4.toNat * 256 + x5.toNat * 32)) (by rw [e, hc]; ring) x2.isLt (by clear e hc; omega)), bf_eq (fld (hi := (q * 1024 + x0.toNat * 256 + x1.toNat * 32 + x2.toNat)) (low := (k0 + x4.toNat * 256 + x5.toNat * 32)) (by rw [e, hc]; ring) x3.isLt (by clear e hc; omega)), bf_eq (fld (hi := (q * 32768 + x0.toNat * 8192 + x1.toNat * 1024 + x2.toNat * 32 + x3.toNat)) (low := (k0 + x5.toNat * 32)) (by rw [e, hc]; ring) x4.isLt (by clear e hc; omega)), bf_eq (fld (hi := (q * 262144 + x0.toNat * 65536 + x1.toNat * 8192 + x2.toNat * 256 + x3.toNat * 8 + x4.toNat)) (low := (k0)) (by rw [e, hc]; ring) x5.isLt (by clear e hc; omega))⟩
theorem shape30 {n c q k0 : Nat} (x0 : BitVec 5) (x1 : BitVec 5) (x2 : BitVec 5) (x3 : BitVec 3) (e : n = c + x0.toNat * 2097152 + x1.toNat * 65536 + x2.toNat * 2048 + x3.toNat * 32) (hc : c = q * 67108864 + k0) (hq : q < 64) (hk0 : k0 < 32) :
    n < 2 ^ 32 ∧ n / 67108864 = q ∧ n % 32 = k0 ∧ bf n 21 5 = x0 ∧ bf n 16 5 = x1 ∧ bf n 11 5 = x2 ∧ bf n 5 3 = x3 ∧ zf n 8 3 = 0 := by
  have := x0.isLt; have := x1.isLt; have := x2.isLt; have := x3.isLt
  exact ⟨by omega, (Nat.div_eq_of_lt_le (by omega) (by omega)), fld0 (hi := (q * 2097152 + x0.toNat * 65536 + x1.toNat * 2048 + x2.toNat * 64 + x3.toNat)) (by rw [e, hc]; ring) hk0, bf_eq (fld (hi := (q)) (low := (k0 + x1.toNat * 65536 + x2.toNat * 2048 + x3.toNat * 32)) (by rw [e, hc]; ring) x0.isLt (by clear e hc; omega)), bf_eq (fld (hi := (q * 32 + x0.toNat)) (low := (k0 + x2.toNat * 2048 + x3.toNat * 32)) (by rw [e, hc]; ring) x1.isLt (by clear e hc; omega)), bf_eq (fld (hi := (q * 1024 + x0.toNat * 32 + x1.toNat)) (low := (k0 + x3.toNat * 32)) (by rw [e, hc]; ring) x2.isLt (by clear e hc; omega)), bf_eq (fld (hi := (q * 262144 + x0.toNat * 8192 + x1.toNat * 256 + x2.toNat * 8)) (low := (k0)) (by rw [e, hc]; ring) x3.isLt (by clear e hc; omega)), zf_eq (fld (hi := (q * 32768 + x0.toNat * 1024 + x1.toNat * 32 + x2.toNat)) (low := (k0 + x3.toNat * 32)) (by rw [e, hc]; ring) (by decide) (by clear e hc; omega))⟩
theorem shape31 {n c q k0 : Nat} (x0 : BitVec 5) (x1 : BitVec 3) (x2 : BitVec 3) (e : n = c + x0.toNat * 2097152 + x1.toNat * 256 + x2.toNat * 32) (hc : c = q * 67108864 + k0) (hq : q < 64) (hk0 : k0 < 32) :
    n < 2 ^ 32 ∧ n / 67108864 = q ∧ n % 32 = k0 ∧ bf n 21 5 = x0 ∧ bf n 8 3 = x1 ∧ bf n 5 3 = x2 ∧ zf n 11 10 = 0 := by
  have := x0.isLt; have := x1.isLt; have := x2.isLt
  exact ⟨by omega, (Nat.div_eq_of_lt_le (by omega) (by omega)), fld0 (hi := (q * 2097152 + x0.toNat * 65536 + x1.toNat * 8 + x2.toNat)) (by rw [e, hc]; ring) hk0, bf_eq (fld (hi := (q)) (low := (k0 + x1.toNat * 256 + x2.toNat * 32)) (by rw [e, hc]; ring) x0.isLt (by clear e hc; omega)), bf_eq (fld (hi := (q * 32768 + x0.toNat * 1024)) (low := (k0 + x2.toNat * 32)) (by rw [e, hc]; ring) x1.isLt (by clear e hc; omega)), bf_eq (fld (hi := (q * 262144 + x0.toNat * 8192 + x1.toNat)) (low := (k0)) (by rw [e, hc]; ring) x2.isLt (by clear e hc; omega)), zf_eq (fld (hi := (q * 32 + x0.toNat)) (low := (k0 + x1.toNat * 256 + x2.toNat * 32)) (by rw [e, hc]; ring) (by decide) (by clear e hc; omega))⟩
theorem shape32 {n c q k0 : Nat} (x0 : BitVec 5) (x1 : BitVec 5) (x2 : BitVec 5) (x3 : BitVec 3) (x4 : BitVec 3) (x5 : BitVec 3) (e : n = c + x0.toNat * 2097152 + x1.toNat * 65536 + x2.toNat * 2048 + x3.toNat * 256 + x4.toNat * 32 + x5.toNat * 4) (hc : c = q * 67108864 + k0) (hq : q < 64) (hk0 : k0 < 4) :
    n < 2 ^ 32 ∧ n / 67108864 = q ∧ n % 4 = k0 ∧ bf n 21 5 = x0 ∧ bf n 16 5 = x1 ∧ bf n 11 5 = x2 ∧ bf n 8 3 = x3 ∧ bf n 5 3 = x4 ∧ bf n 2 3 = x5 := by
  have := x0.isLt; have := x1.isLt; have := x2.isLt; have := x3.isLt; have := x4.isLt; have := x5.isLt
  exact ⟨by omega, (Nat.div_eq_of_lt_le (by omega) (by omega)), fld0 (hi := (q * 16777216 + x0.toNat * 524288 + x1.toNat * 16384 + x2.toNat * 512 + x3.toNat * 64 + x4.toNat * 8 + x5.toNat)) (by rw [e, hc]; ring) hk0, bf_eq (fld (hi := (q)) (low := (k0 + x1.toNat * 65536 + x2.toNat * 2048 + x3.toNat * 256 + x4.toNat * 32 + x5.toNat * 4)) (by rw [e, hc]; ring) x0.isLt (by clear e hc; omega)), bf_eq (fld (hi := (q * 32 + x0.toNat)) (low := (k0 + x2.toNat * 2048 + x3.toNat * 256 + x4.toNat * 32 + x5.toNat * 4)) (by rw [e, hc]; ring) x1.isLt (by clear e hc; omega)), bf_eq (fld (hi := (q * 1024 + x0.toNat * 32 + x1.toNat)) (low := (k0 + x3.toNat * 256 + x4.toNat * 32 + x5.toNat * 4)) (by rw [e, hc]; ring) x2.isLt (by clear e hc; omega)), bf_eq (fld (hi := (q * 32768 + x0.toNat * 1024 + x1.toNat * 32 + x2.toNat)) (low := (k0 + x4.toNat * 32 + x5.toNat * 4)) (by rw [e, hc]; ring) x3.isLt (by clear e hc; omega)), bf_eq (fld (hi := (q * 262144 + x0.toNat * 8192 + x1.toNat * 256 + x2.toNat * 8 + x3.toNat)) (low := (k0 + x5.toNat * 4)) (by rw [e, hc]; ring) x4.isLt (by clear e hc; omega)), bf_eq (fld (hi := (q * 2097152 + x0.toNat * 65536 + x1.toNat * 2048 + x2.toNat * 64 + x3.toNat * 8 + x4.toNat)) (low := (k0)) (by rw [e, hc]; ring) x5.isLt (by clear e hc; omega))⟩
theorem shape33 {n c q k0 : Nat} (x0 : BitVec 5) (x1 : BitVec 5) (x2 : BitVec 3) (x3 : BitVec 3) (e : n = c + x0.toNat * 65536 + x1.toNat * 2048 + x2.toNat * 256 + x3.toNat * 32) (hc : c = q * 67108864 + k0) (hq : q < 64) (hk0 : k0 < 32) :
    n < 2 ^ 32 ∧ n / 67108864 = q ∧ n % 32 = k0 ∧ bf n 16 5 = x0 ∧ bf n 11 5 = x1 ∧ bf n 8 3 = x2 ∧ bf n 5 3 = x3 ∧ zf n 21 5 = 0 := by
  have := x0.isLt; have := x1.isLt; have := x2.isLt; have := x3.isLt
  exact ⟨by omega, (Nat.div_eq_of_lt_le (by omega) (by omega)), fld0 (hi := (q * 2097152 + x0.toNat * 2048 + x1.toNat * 64 + x2.toNat * 8 + x3.toNat)) (by rw [e, hc]; ring) hk0, bf_eq (fld (hi := (q * 32)) (low := (k0 + x1.toNat * 2048 + x2.toNat * 256 + x3.toNat * 32)) (by rw [e, hc]; ring) x0.isLt (by clear e hc; omega)), bf_eq (fld (hi := (q * 1024 + x0.toNat)) (low := (k0 + x2.toNat * 256 + x3.toNat * 32)) (by rw [e, hc]; ring) x1.isLt (by clear e hc; omega)), bf_eq (fld (hi := (q * 32768 + x0.toNat * 32 + x1.toNat)) (low := (k0 + x3.toNat * 32)) (by rw [e, hc]; ring) x2.isLt (by clear e hc; omega)), bf_eq (fld (hi := (q * 262144 + x0.toNat * 256 + x1.toNat * 8 + x2.toNat)) (low := (k0)) (by rw [e, hc]; ring) x3.isLt (by clear e hc; omega)), zf_eq (fld (hi := (q)) (low := (k0 + x0.toNat * 65536 + x1.toNat * 2048 + x2.toNat * 256 + x3.toNat * 32)) (by rw [e, hc]; ring) (by decide) (by clear e hc; omega))⟩
theorem shape34 {n c q k0 : Nat} (x0 : BitVec 5) (x1 : BitVec 3) (x2 : BitVec 3) (e : n = c + x0.toNat * 65536 + x1.toNat * 256 + x2.toNat * 32) (hc : c = q * 67108864 + k0) (hq : q < 64) (hk0 : k0 < 32) :
    n < 2 ^ 32 ∧ n / 67108864 = q ∧ n % 32 = k0 ∧ bf n 16 5 = x0 ∧ bf n 8 3 = x1 ∧ bf n 5 3 = x2 ∧ zf n 11 5 + zf n 21 5 = 0 := by
  have := x0.isLt; have := x1.isLt; have := x2.isLt
  exact ⟨by omega, (Nat.div_eq_of_lt_le (by omega) (by omega)), fld0 (hi := (q * 2097152 + x0.toNat * 2048 + x1.toNat * 8 + x2.toNat)) (by rw [e, hc]; ring) hk0, bf_eq (fld (hi := (q * 32)) (low := (k0 + x1.toNat * 256 + x2.toNat * 32)) (by rw [e, hc]; ring) x0.isLt (by clear e hc; omega)), bf_eq (fld (hi := (q * 32768 + x0.toNat * 32)) (low := (k0 + x2.toNat * 32)) (by rw [e, hc]; ring) x1.isLt (by clear e hc; omega)), bf_eq (fld (hi := (q * 262144 + x0.toNat * 256 + x1.toNat)) (low := (k0)) (by rw [e, hc]; ring) x2.isLt (by clear e hc; omega)), by rw [zf_eq (lo := 11) (len := 5) (fld (hi := (q * 1024 + x0.toNat)) (low := (k0 + x1.toNat * 256 + x2.toNat * 32)) (by rw [e, hc]; ring) (by decide) (by clear e hc; omega)), zf_eq (lo := 21) (len := 5) (fld (hi := (q)) (low := (k0 + x0.toNat * 65536 + x1.toNat * 256 + x2.toNat * 32)) (by rw [e, hc]; ring) (by decide) (by clear e hc; omega))]⟩
theorem shape35 {n c q k0 : Nat} (x0 : BitVec 5) (e : n = c + x0.toNat * 2097152) (hc : c = q * 67108864 + k0) (hq : q < 64) (hk0 : k0 < 32) :
    n < 2 ^ 32 ∧ n / 67108864 = q ∧ n % 32 = k0 ∧ bf n 21 5 = x0 ∧ zf n 5 16 = 0 := by
  have := x0.isLt
  exact ⟨by omega, (Nat.div_eq_of_lt_le (by omega) (by omega)), fld0 (hi := (q * 2097152 + x0.toNat * 65536)) (by rw [e, hc]; ring) hk0, bf_eq (fld (hi := (q)) (low := (k0)) (by rw [e, hc]; ring) x0.isLt (by clear e hc; omega)), zf_eq (fld (hi := (q * 32 + x0.toNat)) (low := (k0)) (by rw [e, hc]; ring) (by decide) (by clear e hc; omega))⟩
theorem shape36 {n c q k0 : Nat} (x0 : BitVec 5) (x1 : BitVec 3) (e : n = c + x0.toNat * 2097152 + x1.toNat * 2048) (hc : c = q * 67108864 + k0) (hq : q < 64) (hk0 : k0 < 32) :
    n < 2 ^ 32 ∧ n / 67108864 = q ∧ n % 32 = k0 ∧ bf n 21 5 = x0 ∧ bf n 11 3 = x1 ∧ zf n 5 6 + zf n 14 7 = 0 := by
  have := x0.isLt; have := x1.isLt
  exact ⟨by omega, (Nat.div_eq_of_lt_le (by omega) (by omega)), fld0 (hi := (q * 2097152 + x0.toNat * 65536 + x1.toNat * 64)) (by rw [e, hc]; ring) hk0, bf_eq (fld (hi := (q)) (low := (k0 + x1.toNat * 2048)) (by rw [e, hc]; ring) x0.isLt (by clear e hc; omega)), bf_eq (fld (hi := (q * 4096 + x0.toNat * 128)) (low := (k0)) (by rw [e, hc]; ring) x1.isLt (by clear e hc; omega)), by rw [zf_eq (lo := 5) (len := 6) (fld (hi := (q * 32768 + x0.toNat * 1024 + x1.toNat)) (low := (k0)) (by rw [e, hc]; ring) (by decide) (by clear e hc; omega)), zf_eq (lo := 14) (len := 7) (fld (hi := (q * 32 + x0.toNat)) (low := (k0 + x1.toNat * 2048)) (by rw [e, hc]; ring) (by decide) (by clear e hc; omega))]⟩
theorem shape37 {n c q k0 : Nat} (x0 : BitVec 5) (e : n = c + x0.toNat * 65536) (hc : c = q * 67108864 + k0) (hq : q < 64) (hk0 : k0 < 32) :
    n < 2 ^ 32 ∧ n / 67108864 = q ∧ n % 32 = k0 ∧ bf n 16 5 = x0 ∧ zf n 5 11 + zf n 21 5 = 0 := by
  have := x0.isLt
  exact ⟨by omega, (Nat.div_eq_of_lt_le (by omega) (by omega)), fld0 (hi := (q * 2097152 + x0.toNat * 2048)) (by rw [e, hc]; ring) hk0, bf_eq (fld (hi := (q * 32)) (low := (k0)) (by rw [e, hc]; ring) x0.isLt (by clear e hc; omega)), by rw [zf_eq (lo := 5) (len := 11) (fld (hi := (q * 1024 + x0.toNat)) (low := (k0)) (by rw [e, hc]; ring) (by decide) (by clear e hc; omega)), zf_eq (lo := 21) (len := 5) (fld (hi := (q)) (low := (k0 + x0.toNat * 65536)) (by rw [e, hc]; ring) (by decide) (by clear e hc; omega))]⟩
theorem shape38 {n c q k0 : Nat} (x0 : BitVec 5) (x1 : BitVec 5) (x2 : BitVec 5) (x3 : Bool) (x4 : Bool) (x5 : Bool) (x6 : BitVec 3) (x7 : Bool) (e : n = c + x0.toNat * 2097152 + x1.toNat * 65536 + x2.toNat * 2048 + x3.toNat * 1024 + x4.toNat * 512 + x5.toNat * 256 + x6.toNat * 32 + x7.toNat * 16) (hc : c = q * 67108864 + k0) (hq : q < 64) (hk0 : k0 < 16) :
    n < 2 ^ 32 ∧ n / 67108864 = q ∧ n % 16 = k0 ∧ bf n 21 5 = x0 ∧ bf n 16 5 = x1 ∧ bf n 11 5 = x2 ∧ bt n 10 = x3 ∧ bt n 9 = x4 ∧ bt n 8 = x5 ∧ bf n 5 3 = x6 ∧ bt n 4 = x7 := by
  have := x0.isLt; have := x1.isLt; have := x2.isLt; have := x3.toNat_le; have := x4.toNat_le; have := x5.toNat_le; have := x6.isLt; have := x7.toNat_le
  exact ⟨by omega, (Nat.div_eq_of_lt_le (by omega) (by omega)), fld0 (hi := (q * 4194304 + x0.toNat * 131072 + x1.toNat * 4096 + x2.toNat * 128 + x3.toNat * 64 + x4.toNat * 32 + x5.toNat * 16 + x6.toNat * 2 + x7.toNat)) (by rw [e, hc]; ring) hk0, bf_eq (fld (hi := (q)) (low := (k0 + x1.toNat * 65536 + x2.toNat * 2048 + x3.toNat * 1024 + x4.toNat * 512 + x5.toNat * 256 + x6.toNat * 32 + x7.toNat * 16)) (by rw [e, hc]; ring) x0.isLt (by clear e hc; omega)), bf_eq (fld (hi := (q * 32 + x0.toNat)) (low := (k0 + x2.toNat * 2048 + x3.toNat * 1024 + x4.toNat * 512 + x5.toNat * 256 + x6.toNat * 32 + x7.toNat * 16)) (by rw [e, hc]; ring) x1.isLt (by clear e hc; omega)), bf_eq (fld (hi := (q * 1024 + x0.toNat * 32 + x1.toNat)) (low := (k0 + x3.toNat * 1024 + x4.toNat * 512 + x5.toNat * 256 + x6.toNat * 32 + x7.toNat * 16)) (by rw [e, hc]; ring) x2.isLt (by clear e hc; omega)), bt_eq (fld1 (hi := (q * 32768 + x0.toNat * 1024 + x1.toNat * 32 + x2.toNat)) (low := (k0 + x4.toNat * 512 + x5.toNat * 256 + x6.toNat * 32 + x7.toNat * 16)) (by rw [e, hc]; ring) (Nat.lt_succ_of_le x3.toNat_le) (by clear e hc; omega)), bt_eq (fld1 (hi := (q * 65536 + x0.toNat * 2048 + x1.toNat * 64 + x2.toNat * 2 + x3.toNat)) (low := (k0 + x5.toNat * 256 + x6.toNat * 32 + x7.toNat * 16)) (by rw [e, hc]; ring) (Nat.lt_succ_of_le x4.toNat_le) (by clear e hc; omega)), bt_eq (fld1 (hi := (q * 131072 + x0.toNat * 4096 + x1.toNat * 128 + x2.toNat * 4 + x3.toNat * 2 + x4.toNat)) (low := (k0 + x6.toNat * 32 + x7.toNat * 16)) (by rw [e, hc]; ring) (Nat.lt_succ_of_le x5.toNat_le) (by clear e hc; omega)), bf_eq (fld (hi := (q * 262144 + x0.toNat * 8192 + x1.toNat * 256 + x2.toNat * 8 + x3.toNat * 4 + x4.toNat * 2 + x5.toNat)) (low := (k0 + x7.toNat * 16)) (by rw [e, hc]; ring) x6.isLt (by clear e hc; omega)), bt_eq (fld1 (hi := (q * 2097152 + x0.toNat * 65536 + x1.toNat * 2048 + x2.toNat * 64 + x3.toNat * 32 + x4.toNat * 16 + x5.toNat * 8 + x6.toNat)) (low := (k0)) (by rw [e, hc]; ring) (Nat.lt_succ_of_le x7.toNat_le) (by clear e hc; omega))⟩
theorem shape39 {n c q k0 : Nat} (x0 : BitVec 5) (x1 : BitVec 5) (x2 : BitVec 5) (x3 : Bool) (x4 : Bool) (x5 : Bool) (x6 : BitVec 3) (e : n = c + x0.toNat * 2097152 + x1.toNat * 65536 + x2.toNat * 2048 + x3.toNat * 1024 + x4.toNat * 512 + x5.toNat * 256 + x6.toNat * 32) (hc : c = q * 67108864 + k0) (hq : q < 64) (hk0 : k0 < 16) :
    n < 2 ^ 32 ∧ n / 67108864 = q ∧ n % 16 = k0 ∧ bf n 21 5 = x0 ∧ bf n 16 5 = x1 ∧ bf n 11 5 = x2 ∧ bt n 10 = x3 ∧ bt n 9 = x4 ∧ bt n 8 = x5 ∧ bf n 5 3 = x6 ∧ zf n 4 1 = 0 := by
  have := x0.isLt; have := x1.isLt; have := x2.isLt; have := x3.toNat_le; have := x4.toNat_le; have := x5.toNat_le; have := x6.isLt
  exact ⟨by omega, (Nat.div_eq_of_lt_le (by omega) (by omega)), fld0 (hi := (q * 4194304 + x0.toNat * 131072 + x1.toNat * 4096 + x2.toNat * 128 + x3.toNat * 64 + x4.toNat * 32 + x5.toNat * 16 + x6.toNat * 2)) (by rw [e, hc]; ring) hk0, bf_eq (fld (hi := (q)) (low := (k0 + x1.toNat * 65536 + x2.toNat * 2048 + x3.toNat * 1024 + x4.toNat * 512 + x5.toNat * 256 + x6.toNat * 32)) (by rw [e, hc]; ring) x0.isLt (by clear e hc; omega)), bf_eq (fld (hi := (q * 32 + x0.toNat)) (low := (k0 + x2.toNat * 2048 + x3.toNat * 1024 + x4.toNat * 512 + x5.toNat * 256 + x6.toNat * 32)) (by rw [e, hc]; ring) x1.isLt (by clear e hc; omega)), bf_eq (fld (hi := (q * 1024 + x0.toNat * 32 + x1.toNat)) (low := (k0 + x3.toNat * 1024 + x4.toNat * 512 + x5.toNat * 256 + x6.toNat * 32)) (by rw [e, hc]; ring) x2.isLt (by clear e hc; omega)), bt_eq (fld1 (hi := (q * 32768 + x0.toNat * 1024 + x1.toNat * 32 + x2.toNat)) (low := (k0 + x4.toNat * 512 + x5.toNat * 256 + x6.toNat * 32)) (by rw [e, hc]; ring) (Nat.lt_succ_of_le x3.toNat_le) (by clear e hc; omega)), bt_eq (fld1 (hi := (q * 65536 + x0.toNat * 2048 + x1.toNat * 64 + x2.toNat * 2 + x3.toNat)) (low := (k0 + x5.toNat * 256 + x6.toNat * 32)) (by rw [e, hc]; ring) (Nat.lt_succ_of_le x4.toNat_le) (by clear e hc; omega)), bt_eq (fld1 (hi := (q * 131072 + x0.toNat * 4096 + x1.toNat * 128 + x2.toNat * 4 + x3.toNat * 2 + x4.toNat)) (low := (k0 + x6.toNat * 32)) (by rw [e, hc]; ring) (Nat.lt_succ_of_le x5.toNat_le) (by clear e hc; omega)), bf_eq (fld (hi := (q * 262144 + x0.toNat * 8192 + x1.toNat * 256 + x2.toNat * 8 + x3.toNat * 4 + x4.toNat * 2 + x5.toNat)) (low := (k0)) (by rw [e, hc]; ring) x6.isLt (by clear e hc; omega)), zf_eq (fld (hi := (q * 2097152 + x0.toNat * 65536 + x1.toNat * 2048 + x2.toNat * 64 + x3.toNat * 32 + x4.toNat * 16 + x5.toNat * 8 + x6.toNat)) (low := (k0)) (by rw [e, hc]; ring) (by decide) (by clear e hc; omega))⟩
theorem shape40 {n c q k0 k1 : Nat} (x0 : BitVec 5) (x1 : BitVec 5) (x2 : BitVec 5) (x3 : Bool) (x4 : Bool) (x5 : Bool) (x6 : BitVec 3) (e : n = c + x0.toNat * 2097152 + x1.toNat * 65536 + x2.toNat * 2048 + x3.toNat * 1024 + x4.toNat * 512 + x5.toNat * 256 + x6.toNat * 32) (hc : c = q * 67108864 + k0 + k1 * 16) (hq : q < 64) (hk0 : k0 < 16) (hk1 : k1 < 2) :
    n < 2 ^ 32 ∧ n / 67108864 = q ∧ n % 16 = k0 ∧ n / 16 % 2 = k1 ∧ bf n 21 5 = x0 ∧ bf n 16 5 = x1 ∧ bf n 11 5 = x2 ∧ bt n 10 = x3 ∧ bt n 9 = x4 ∧ bt n 8 = x5 ∧ bf n 5 3 = x6 := by
  have := x0.isLt; have := x1.isLt; have := x2.isLt; have := x3.toNat_le; have := x4.toNat_le; have := x5.toNat_le; have := x6.isLt
  exact ⟨by omega, (Nat.div_eq_of_lt_le (by omega) (by omega)), fld0 (hi := (q * 4194304 + k1 + x0.toNat * 131072 + x1.toNat * 4096 + x2.toNat * 128 + x3.toNat * 64 + x4.toNat * 32 + x5.toNat * 16 + x6.toNat * 2)) (by rw [e, hc]; ring) hk0, fld (lo := 4) (len := 1) (hi := (q * 2097152 + x0.toNat * 65536 + x1.toNat * 2048 + x2.toNat * 64 + x3.toNat * 32 + x4.toNat * 16 + x5.toNat * 8 + x6.toNat)) (low := (k0)) (by rw [e, hc]; ring) hk1 (by clear e hc; omega), bf_eq (fld (hi := (q)) (low := (k0 + k1 * 16 + x1.toNat * 65536 + x2.toNat * 2048 + x3.toNat * 1024 + x4.toNat * 512 + x5.toNat * 256 + x6.toNat * 32)) (by rw [e, hc]; ring) x0.isLt (by clear e hc; omega)), bf_eq (fld (hi := (q * 32 + x0.toNat)) (low := (k0 + k1 * 16 + x2.toNat * 2048 + x3.toNat * 1024 + x4.toNat * 512 + x5.toNat * 256 + x6.toNat * 32)) (by rw [e, hc]; ring) x1.isLt (by clear e hc; omega)), bf_eq (fld (hi := (q * 1024 + x0.toNat * 32 + x1.toNat)) (low := (k0 + k1 * 16 + x3.toNat * 1024 + x4.toNat * 512 + x5.toNat * 256 + x6.toNat * 32)) (by rw [e, hc]; ring) x2.isLt (by clear e hc; omega)), bt_eq (fld1 (hi := (q * 32768 + x0.toNat * 1024 + x1.toNat * 32 + x2.toNat)) (low := (k0 + k1 * 16 + x4.toNat * 512 + x5.toNat * 256 + x6.toNat * 32)) (by rw [e, hc]; ring) (Nat.lt_succ_of_le x3.toNat_le) (by clear e hc; omega)), bt_eq (fld1 (hi := (q * 65536 + x0.toNat * 2048 + x1.toNat * 64 + x2.toNat * 2 + x3.toNat)) (low := (k0 + k1 * 16 + x5.toNat * 256 + x6.toNat * 32)) (by rw [e, hc]; ring) (Nat.lt_succ_of_le x4.toNat_le) (by clear e hc; omega)), bt_eq (fld1 (hi := (q * 131072 + x0.toNat * 4096 + x1.toNat * 128 + x2.toNat * 4 + x3.toNat * 2 + x4.toNat)) (low := (k0 + k1 * 16 + x6.toNat * 32)) (by rw [e, hc]; ring) (Nat.lt_succ_of_le x5.toNat_le) (by clear e hc; omega)), bf_eq (fld (hi := (q * 262144 + x0.toNat * 8192 + x1.toNat * 256 + x2.toNat * 8 + x3.toNat * 4 + x4.toNat * 2 + x5.toNat)) (low := (k0 + k1 * 16)) (by rw [e, hc]; ring) x6.isLt (by clear e hc; omega))⟩
theorem shape41 {n c q : Nat} (x0 : BitVec 5) (x1 : BitVec 5) (x2 : BitVec 5) (x3 : Bool) (x4 : Bool) (x5 : Bool) (x6 : BitVec 3) (x7 : BitVec 2) (e : n = c + x0.toNat * 2097152 + x1.toNat * 65536 + x2.toNat * 2048 + x3.toNat * 1024 + x4.toNat * 512 + x5.toNat * 32 + x6.toNat * 4 + x7.toNat) (hc : c = q * 67108864) (hq : q < 64) :
    n < 2 ^ 32 ∧ n / 67108864 = q ∧ bf n 21 5 = x0 ∧ bf n 16 5 = x1 ∧ bf n 11 5 = x2 ∧ bt n 10 = x3 ∧ bt n 9 = x4 ∧ bt n 5 = x5 ∧ bf n 2 3 = x6 ∧ bf n 0 2 = x7 ∧ zf n 6 3 = 0 := by
  have := x0.isLt; have := x1.isLt; have := x2.isLt; have := x3.toNat_le; have := x4.toNat_le; have := x5.toNat_le; have := x6.isLt; have := x7.isLt
  exact ⟨by omega, (Nat.div_eq_of_lt_le (by omega) (by omega)), bf_eq (fld (hi := (q)) (low := (x1.toNat * 65536 + x2.toNat * 2048 + x3.toNat * 1024 + x4.toNat * 512 + x5.toNat * 32 + x6.toNat * 4 + x7.toNat)) (by rw [e, hc]; ring) x0.isLt (by clear e hc; omega)), bf_eq (fld (hi := (q * 32 + x0.toNat)) (low := (x2.toNat * 2048 + x3.toNat * 1024 + x4.toNat * 512 + x5.toNat * 32 + x6.toNat * 4 + x7.toNat)) (by rw [e, hc]; ring) x1.isLt (by clear e hc; omega)), bf_eq (fld (hi := (q * 1024 + x0.toNat * 32 + x1.toNat)) (low := (x3.toNat * 1024 + x4.toNat * 512 + x5.toNat * 32 + x6.toNat * 4 + x7.toNat)) (by rw [e, hc]; ring) x2.isLt (by clear e hc; omega)), bt_eq (fld1 (hi := (q * 32768 + x0.toNat * 1024 + x1.toNat * 32 + x2.toNat)) (low := (x4.toNat * 512 + x5.toNat * 32 + x6.toNat * 4 + x7.toNat)) (by rw [e, hc]; ring) (Nat.lt_succ_of_le x3.toNat_le) (by clear e hc; omega)), bt_eq (fld1 (hi := (q * 65536 + x0.toNat * 2048 + x1.toNat * 64 + x2.toNat * 2 + x3.toNat)) (low := (x5.toNat * 32 + x6.toNat * 4 + x7.toNat)) (by rw [e, hc]; ring) (Nat.lt_succ_of_le x4.toNat_le) (by clear e hc; omega)), bt_eq (fld1 (hi := (q * 1048576 + x0.toNat * 32768 + x1.toNat * 1024 + x2.toNat * 32 + x3.toNat * 16 + x4.toNat * 8)) (low := (x6.toNat * 4 + x7.toNat)) (by rw [e, hc]; ring) (Nat.lt_succ_of_le x5.toNat_le) (by clear e hc; omega)), bf_eq (fld (hi := (q * 2097152 + x0.toNat * 65536 + x1.toNat * 2048 + x2.toNat * 64 + x3.toNat * 32 + x4.toNat * 16 + x5.toNat)) (low := (x7.toNat)) (by rw [e, hc]; ring) x6.isLt (by clear e hc; omega)), bf_eq (fld (hi := (q * 16777216 + x0.toNat * 524288 + x1.toNat * 16384 + x2.toNat * 512 + x3.toNat * 256 + x4.toNat * 128 + x5.toNat * 8 + x6.toNat)) (low := (0)) (by rw [e, hc]; ring) x7.isLt (by clear e hc; omega)), zf_eq (fld (hi := (q * 131072 + x0.toNat * 4096 + x1.toNat * 128 + x2.toNat * 4 + x3.toNat * 2 + x4.toNat)) (low := (x5.toNat * 32 + x6.toNat * 4 + x7.toNat)) (by rw [e, hc]; ring) (by decide) (by clear e hc; omega))⟩
theorem shape42 {n c q : Nat} (x0 : BitVec 5) (x1 : BitVec 5) (x2 : Bool) (x3 : BitVec 3) (x4 : Bool) (e : n = c + x0.toNat * 2097152 + x1.toNat * 65536 + x2.toNat * 1024 + x3.toNat * 2 + x4.toNat) (hc : c = q * 67108864) (hq : q < 64) :
    n < 2 ^ 32 ∧ n / 67108864 = q ∧ bf n 21 5 = x0 ∧ bf n 16 5 = x1 ∧ bt n 10 = x2 ∧ bf n 1 3 = x3 ∧ bt n 0 = x4 ∧ zf n 4 6 + zf n 11 5 = 0 := by
  have := x0.isLt; have := x1.isLt; have := x2.toNat_le; have := x3.isLt; have := x4.toNat_le
  exact ⟨by omega, (Nat.div_eq_of_lt_le (by omega) (by omega)), bf_eq (fld (hi := (q)) (low := (x1.toNat * 65536 + x2.toNat * 1024 + x3.toNat * 2 + x4.toNat)) (by rw [e, hc]; ring) x0.isLt (by clear e hc; omega)), bf_eq (fld (hi := (q * 32 + x0.toNat)) (low := (x2.toNat * 1024 + x3.toNat * 2 + x4.toNat)) (by rw [e, hc]; ring) x1.isLt (by clear e hc; omega)), bt_eq (fld1 (hi := (q * 32768 + x0.toNat * 1024 + x1.toNat * 32)) (low := (x3.toNat * 2 + x4.toNat)) (by rw [e, hc]; ring) (Nat.lt_succ_of_le x2.toNat_le) (by clear e hc; omega)), bf_eq (fld (hi := (q * 4194304 + x0.toNat * 131072 + x1.toNat * 4096 + x2.toNat * 64)) (low := (x4.toNat)) (by rw [e, hc]; ring) x3.isLt (by clear e hc; omega)), bt_eq (fld1 (hi := (q * 33554432 + x0.toNat * 1048576 + x1.toNat * 32768 + x2.toNat * 512 + x3.toNat)) (low := (0)) (by rw [e, hc]; ring) (Nat.lt_succ_of_le x4.toNat_le) (by clear e hc; omega)), by rw [zf_eq (lo := 4) (len := 6) (fld (hi := (q * 65536 + x0.toNat * 2048 + x1.toNat * 64 + x2.toNat)) (low := (x3.toNat * 2 + x4.toNat)) (by rw [e, hc]; ring) (by decide) (by clear e hc; omega)), zf_eq (lo := 11) (len := 5) (fld (hi := (q * 1024 + x0.toNat * 32 + x1.toNat)) (low := (x2.toNat * 1024 + x3.toNat * 2 + x4.toNat)) (by rw [e, hc]; ring) (by decide) (by clear e hc; omega))]⟩
theorem shape43 {n c q : Nat} (x0 : BitVec 5) (x1 : BitVec 5) (x2 : BitVec 5) (x3 : Bool) (x4 : Bool) (x5 : BitVec 3) (x6 : Bool) (e : n = c + x0.toNat * 2097152 + x1.toNat * 65536 + x2.toNat * 2048 + x3.toNat * 1024 + x4.toNat * 512 + x5.toNat * 2 + x6.toNat) (hc : c = q * 67108864) (hq : q < 64) :
    n < 2 ^ 32 ∧ n / 67108864 = q ∧ bf n 21 5 = x0 ∧ bf n 16 5 = x1 ∧ bf n 11 5 = x2 ∧ bt n 10 = x3 ∧ bt n 9 = x4 ∧ bf n 1 3 = x5 ∧ bt n 0 = x6 ∧ zf n 4 5 = 0 := by
  have := x0.isLt; have := x1.isLt; have := x2.isLt; have := x3.toNat_le; have := x4.toNat_le; have := x5.isLt; have := x6.toNat_le
  exact ⟨by omega, (Nat.div_eq_of_lt_le (by omega) (by omega)), bf_eq (fld (hi := (q)) (low := (x1.toNat * 65536 + x2.toNat * 2048 + x3.toNat * 1024 + x4.toNat * 512 + x5.toNat * 2 + x6.toNat)) (by rw [e, hc]; ring) x0.isLt (by clear e hc; omega)), bf_eq (fld (hi := (q * 32 + x0.toNat)) (low := (x2.toNat * 2048 + x3.toNat * 1024 + x4.toNat * 512 + x5.toNat * 2 + x6.toNat)) (by rw [e, hc]; ring) x1.isLt (by clear e hc; omega)), bf_eq (fld (hi := (q * 1024 + x0.toNat * 32 + x1.toNat)) (low := (x3.toNat * 1024 + x4.toNat * 512 + x5.toNat * 2 + x6.toNat)) (by rw [e, hc]; ring) x2.isLt (by clear e hc; omega)), bt_eq (fld1 (hi := (q * 32768 + x0.toNat * 1024 + x1.toNat * 32 + x2.toNat)) (low := (x4.toNat * 512 + x5.toNat * 2 + x6.toNat)) (by rw [e, hc]; ring) (Nat.lt_succ_of_le x3.toNat_le) (by clear e hc; omega)), bt_eq (fld1 (hi := (q * 65536 + x0.toNat * 2048 + x1.toNat * 64 + x2.toNat * 2 + x3.toNat)) (low := (x5.toNat * 2 + x6.toNat)) (by rw [e, hc]; ring) (Nat.lt_succ_of_le x4.toNat_le) (by clear e hc; omega)), bf_eq (fld (hi := (q * 4194304 + x0.toNat * 131072 + x1.toNat * 4096 + x2.toNat * 128 + x3.toNat * 64 + x4.toNat * 32)) (low := (x6.toNat)) (by rw [e, hc]; ring) x5.isLt (by clear e hc; omega)), bt_eq (fld1 (hi := (q * 33554432 + x0.toNat * 1048576 + x1.toNat * 32768 + x2.toNat * 1024 + x3.toNat * 512 + x4.toNat * 256 + x5.toNat)) (low := (0)) (by rw [e, hc]; ring) (Nat.lt_succ_of_le x6.toNat_le) (by clear e hc; omega)), zf_eq (fld (hi := (q * 131072 + x0.toNat * 4096 + x1.toNat * 128 + x2.toNat * 4 + x3.toNat * 2 + x4.toNat)) (low := (x5.toNat * 2 + x6.toNat)) (by rw [e, hc]; ring) (by decide) (by clear e hc; omega))⟩
theorem shape44 {n c q k0 : Nat} (x0 : BitVec 5) (x1 : BitVec 5) (x2 : Bool) (x3 : Bool) (x4 : BitVec 3) (x5 : Bool) (e : n = c + x0.toNat * 65536 + x1.toNat * 2048 + x2.toNat * 1024 + x3.toNat * 512 + x4.toNat * 32 + x5.toNat * 16) (hc : c = q * 67108864 + k0) (hq : q < 64) (hk0 : k0 < 16) :
    n < 2 ^ 32 ∧ n / 67108864 = q ∧ n % 16 = k0 ∧ bf n 16 5 = x0 ∧ bf n 11 5 = x1 ∧ bt n 10 = x2 ∧ bt n 9 = x3 ∧ bf n 5 3 = x4 ∧ bt n 4 = x5 ∧ zf n 8 1 + zf n 21 5 = 0 := by
  have := x0.isLt; have := x1.isLt; have := x2.toNat_le; have := x3.toNat_le; have := x4.isLt; have := x5.toNat_le
  exact ⟨by omega, (Nat.div_eq_of_lt_le (by omega) (by omega)), fld0 (hi := (q * 4194304 + x0.toNat * 4096 + x1.toNat * 128 + x2.toNat * 64 + x3.toNat * 32 + x4.toNat * 2 + x5.toNat)) (by rw [e, hc]; ring) hk0, bf_eq (fld (hi := (q * 32)) (low := (k0 + x1.toNat * 2048 + x2.toNat * 1024 + x3.toNat * 512 + x4.toNat * 32 + x5.toNat * 16)) (by rw [e, hc]; ring) x0.isLt (by clear e hc; omega)), bf_eq (fld (hi := (q * 1024 + x0.toNat)) (low := (k0 + x2.toNat * 1024 + x3.toNat * 512 + x4.toNat * 32 + x5.toNat * 16)) (by rw [e, hc]; ring) x1.isLt (by clear e hc; omega)), bt_eq (fld1 (hi := (q * 32768 + x0.toNat * 32 + x1.toNat)) (low := (k0 + x3.toNat * 512 + x4.toNat * 32 + x5.toNat * 16)) (by rw [e, hc]; ring) (Nat.lt_succ_of_le x2.toNat_le) (by clear e hc; omega)), bt_eq (fld1 (hi := (q * 65536 + x0.toNat * 64 + x1.toNat * 2 + x2.toNat)) (low := (k0 + x4.toNat * 32 + x5.toNat * 16)) (by rw [e, hc]; ring) (Nat.lt_succ_of_le x3.toNat_le) (by clear e hc; omega)), bf_eq (fld (hi := (q * 262144 + x0.toNat * 256 + x1.toNat * 8 + x2.toNat * 4 + x3.toNat * 2)) (low := (k0 + x5.toNat * 16)) (by rw [e, hc]; ring) x4.isLt (by clear e hc; omega)), bt_eq (fld1 (hi := (q * 2097152 + x0.toNat * 2048 + x1.toNat * 64 + x2.toNat * 32 + x3.toNat * 16 + x4.toNat)) (low := (k0)) (by rw [e, hc]; ring) (Nat.lt_succ_of_le x5.toNat_le) (by clear e hc; omega)), by rw [zf_eq (lo := 8) (len := 1) (fld (hi := (q * 131072 + x0.toNat * 128 + x1.toNat * 4 + x2.toNat * 2 + x3.toNat)) (low := (k0 + x4.toNat * 32 + x5.toNat * 16)) (by rw [e, hc]; ring) (by decide) (by clear e hc; omega)), zf_eq (lo := 21) (len := 5) (fld (hi := (q)) (low := (k0 + x0.toNat * 65536 + x1.toNat * 2048 + x2.toNat * 1024 + x3.toNat * 512 + x4.toNat * 32 + x5.toNat * 16)) (by rw [e, hc]; ring) (by decide) (by clear e hc; omega))]⟩
theorem shape45 {n c q k0 : Nat} (x0 : BitVec 5) (x1 : BitVec 5) (x2 : Bool) (x3 : Bool) (x4 : BitVec 3) (e : n = c + x0.toNat * 65536 + x1.toNat * 2048 + x2.toNat * 1024 + x3.toNat * 512 + x4.toNat * 32) (hc : c = q * 67108864 + k0) (hq : q < 64) (hk0 : k0 < 16) :
    n < 2 ^ 32 ∧ n / 67108864 = q ∧ n % 16 = k0 ∧ bf n 16 5 = x0 ∧ bf n 11 5 = x1 ∧ bt n 10 = x2 ∧ bt n 9 = x3 ∧ bf n 5 3 = x4 ∧ zf n 4 1 + zf n 8 1 + zf n 21 5 = 0 := by
  have := x0.isLt; have := x1.isLt; have := x2.toNat_le; have := x3.toNat_le; have := x4.isLt
  exact ⟨by omega, (Nat.div_eq_of_lt_le (by omega) (by omega)), fld0 (hi := (q * 4194304 + x0.toNat * 4096 + x1.toNat * 128 + x2.toNat * 64 + x3.toNat * 32 + x4.toNat * 2)) (by rw [e, hc]; ring) hk0, bf_eq (fld (hi := (q * 32)) (low := (k0 + x1.toNat * 2048 + x2.toNat * 1024 + x3.toNat * 512 + x4.toNat * 32)) (by rw [e, hc]; ring) x0.isLt (by clear e hc; omega)), bf_eq (fld (hi := (q * 1024 + x0.toNat)) (low := (k0 + x2.toNat * 1024 + x3.toNat * 512 + x4.toNat * 32)) (by rw [e, hc]; ring) x1.isLt (by clear e hc; omega)), bt_eq (fld1 (hi := (q * 32768 + x0.toNat * 32 + x1.toNat)) (low := (k0 + x3.toNat * 512 + x4.toNat * 32)) (by rw [e, hc]; ring) (Nat.lt_succ_of_le x2.toNat_le) (by clear e hc; omega)), bt_eq (fld1 (hi := (q * 65536 + x0.toNat * 64 + x1.toNat * 2 + x2.toNat)) (low := (k0 + x4.toNat * 32)) (by rw [e, hc]; ring) (Nat.lt_succ_of_le x3.toNat_le) (by clear e hc; omega)), bf_eq (fld (hi := (q * 262144 + x0.toNat * 256 + x1.toNat * 8 + x2.toNat * 4 + x3.toNat * 2)) (low := (k0)) (by rw [e, hc]; ring) x4.isLt (by clear e hc; omega)), by rw [zf_eq (lo := 4) (len := 1) (fld (hi := (q * 2097152 + x0.toNat * 2048 + x1.toNat * 64 + x2.toNat * 32 + x3.toNat * 16 + x4.toNat)) (low := (k0)) (by rw [e, hc]; ring) (by decide) (by clear e hc; omega)), zf_eq (lo := 8) (len := 1) (fld (hi := (q * 131072 + x0.toNat * 128 + x1.toNat * 4 + x2.toNat * 2 + x3.toNat)) (low := (k0 + x4.toNat * 32)) (by rw [e, hc]; ring) (by decide) (by clear e hc; omega)), zf_eq (lo := 21) (len := 5) (fld (hi := (q)) (low := (k0 + x0.toNat * 65536 + x1.toNat * 2048 + x2.toNat * 1024 + x3.toNat * 512 + x4.toNat * 32)) (by rw [e, hc]; ring) (by decide) (by clear e hc; omega))]⟩
theorem shape46 {n c q k0 k1 : Nat} (x0 : BitVec 5) (x1 : BitVec 5) (x2 : Bool) (x3 : Bool) (x4 : BitVec 3) (e : n = c + x0.toNat * 65536 + x1.toNat * 2048 + x2.toNat * 1024 + x3.toNat * 512 + x4.toNat * 32) (hc : c = q * 67108864 + k0 + k1 * 16) (hq : q < 64) (hk0 : k0 < 16) (hk1 : k1 < 2) :
    n < 2 ^ 32 ∧ n / 67108864 = q ∧ n % 16 = k0 ∧ n / 16 % 2 = k1 ∧ bf n 16 5 = x0 ∧ bf n 11 5 = x1 ∧ bt n 10 = x2 ∧ bt n 9 = x3 ∧ bf n 5 3 = x4 ∧ zf n 8 1 + zf n 21 5 = 0 := by
  have := x0.isLt; have := x1.isLt; have := x2.toNat_le; have := x3.toNat_le; have := x4.isLt
  exact ⟨by omega, (Nat.div_eq_of_lt_le (by omega) (by omega)), fld0 (hi := (q * 4194304 + k1 + x0.toNat * 4096 + x1.toNat * 128 + x2.toNat * 64 + x3.toNat * 32 + x4.toNat * 2)) (by rw [e, hc]; ring) hk0, fld (lo := 4) (len := 1) (hi := (q * 2097152 + x0.toNat * 2048 + x1.toNat * 64 + x2.toNat * 32 + x3.toNat * 16 + x4.toNat)) (low := (k0)) (by rw [e, hc]; ring) hk1 (by clear e hc; omega), bf_eq (fld (hi := (q * 32)) (low := (k0 + k1 * 16 + x1.toNat * 2048 + x2.toNat * 1024 + x3.toNat * 512 + x4.toNat * 32)) (by rw [e, hc]; ring) x0.isLt (by clear e hc; omega)), bf_eq (fld (hi := (q * 1024 + x0.toNat)) (low := (k0 + k1 * 16 + x2.toNat * 1024 + x3.toNat * 512 + x4.toNat * 32)) (by rw [e, hc]; ring) x1.isLt (by clear e hc; omega)), bt_eq (fld1 (hi := (q * 32768 + x0.toNat * 32 + x1.toNat)) (low := (k0 + k1 * 16 + x3.toNat * 512 + x4.toNat * 32)) (by rw [e, hc]; ring) (Nat.lt_succ_of_le x2.toNat_le) (by clear e hc; omega)), bt_eq (fld1 (hi := (q * 65536 + x0.toNat * 64 + x1.toNat * 2 + x2.toNat)) (low := (k0 + k1 * 16 + x4.toNat * 32)) (by rw [e, hc]; ring) (Nat.lt_succ_of_le x3.toNat_le) (by clear e hc; omega)), bf_eq (fld (hi := (q * 262144 + x0.toNat * 256 + x1.toNat * 8 + x2.toNat * 4 + x3.toNat * 2)) (low := (k0 + k1 * 16)) (by rw [e, hc]; ring) x4.isLt (by clear e hc; omega)), by rw [zf_eq (lo := 8) (len := 1) (fld (hi := (q * 131072 + x0.toNat * 128 + x1.toNat * 4 + x2.toNat * 2 + x3.toNat)) (low := (k0 + k1 * 16 + x4.toNat * 32)) (by rw [e, hc]; ring) (by decide) (by clear e hc; omega)), zf_eq (lo := 21) (len := 5) (fld (hi := (q)) (low := (k0 + k1 * 16 + x0.toNat * 65536 + x1.toNat * 2048 + x2.toNat * 1024 + x3.toNat * 512 + x4.toNat * 32)) (by rw [e, hc]; ring) (by decide) (by clear e hc; omega))]⟩
theorem shape47 {n c q k0 : Nat} (x0 : Bool) (x1 : BitVec 3) (e : n = c + x0.toNat * 32 + x1.toNat * 4) (hc : c = q * 67108864 + k0) (hq : q < 64) (hk0 : k0 < 4) :
    n < 2 ^ 32 ∧ n / 67108864 = q ∧ n % 4 = k0 ∧ bt n 5 = x0 ∧ bf n 2 3 = x1 ∧ zf n 6 20 = 0 := by
  have := x0.toNat_le; have := x1.isLt
  exact ⟨by omega, (Nat.div_eq_of_lt_le (by omega) (by omega)), fld0 (hi := (q * 16777216 + x0.toNat * 8 + x1.toNat)) (by rw [e, hc]; ring) hk0, bt_eq (fld1 (hi := (q * 1048576)) (low := (k0 + x1.toNat * 4)) (by rw [e, hc]; ring) (Nat.lt_succ_of_le x0.toNat_le) (by clear e hc; omega)), bf_eq (fld (hi := (q * 2097152 + x0.toNat)) (low := (k0)) (by rw [e, hc]; ring) x1.isLt (by clear e hc; omega)), zf_eq (fld (hi := (q)) (low := (k0 + x0.toNat * 32 + x1.toNat * 4)) (by rw [e, hc]; ring) (by decide) (by clear e hc; omega))⟩
theorem shape48 {n c q k0 : Nat} (x0 : BitVec 5) (x1 : BitVec 5) (x2 : Bool) (x3 : Bool) (e : n = c + x0.toNat * 65536 + x1.toNat * 2048 + x2.toNat * 1024 + x3.toNat * 512) (hc : c = q * 67108864 + k0) (hq : q < 64) (hk0 : k0 < 512) :
    n < 2 ^ 32 ∧ n / 67108864 = q ∧ n % 512 = k0 ∧ bf n 16 5 = x0 ∧ bf n 11 5 = x1 ∧ bt n 10 = x2 ∧ bt n 9 = x3 ∧ zf n 21 5 = 0 := by
  have := x0.isLt; have := x1.isLt; have := x2.toNat_le; have := x3.toNat_le
  exact ⟨by omega, (Nat.div_eq_of_lt_le (by omega) (by omega)), fld0 (hi := (q * 131072 + x0.toNat * 128 + x1.toNat * 4 + x2.toNat * 2 + x3.toNat)) (by rw [e, hc]; ring) hk0, bf_eq (fld (hi := (q * 32)) (low := (k0 + x1.toNat * 2048 + x2.toNat * 1024 + x3.toNat * 512)) (by rw [e, hc]; ring) x0.isLt (by clear e hc; omega)), bf_eq (fld (hi := (q * 1024 + x0.toNat)) (low := (k0 + x2.toNat * 1024 + x3.toNat * 512)) (by rw [e, hc]; ring) x1.isLt (by clear e hc; omega)), bt_eq (fld1 (hi := (q * 32768 + x0.toNat * 32 + x1.toNat)) (low := (k0 + x3.toNat * 512)) (by rw [e, hc]; ring) (Nat.lt_succ_of_le x2.toNat_le) (by clear e hc; omega)), bt_eq (fld1 (hi := (q * 65536 + x0.toNat * 64 + x1.toNat * 2 + x2.toNat)) (low := (k0)) (by rw [e, hc]; ring) (Nat.lt_succ_of_le x3.toNat_le) (by clear e hc; omega)), zf_eq (fld (hi := (q)) (low := (k0 + x0.toNat * 65536 + x1.toNat * 2048 + x2.toNat * 1024 + x3.toNat * 512)) (by rw [e, hc]; ring) (by decide) (by clear e hc; omega))⟩
theorem shape49 {n c q k0 : Nat} (x0 : BitVec 5) (x1 : BitVec 5) (x2 : BitVec 5) (x3 : Bool) (x4 : Bool) (x5 : Bool) (e : n = c + x0.toNat * 2097152 + x1.toNat * 65536 + x2.toNat * 2048 + x3.toNat * 1024 + x4.toNat * 512 + x5.toNat * 256) (hc : c = q * 67108864 + k0) (hq : q < 64) (hk0 : k0 < 256) :
    n < 2 ^ 32 ∧ n / 67108864 = q ∧ n % 256 = k0 ∧ bf n 21 5 = x0 ∧ bf n 16 5 = x1 ∧ bf n 11 5 = x2 ∧ bt n 10 = x3 ∧ bt n 9 = x4 ∧ bt n 8 = x5 := by
  have := x0.isLt; have := x1.isLt; have := x2.isLt; have := x3.toNat_le; have := x4.toNat_le; have := x5.toNat_le
  exact ⟨by omega, (Nat.div_eq_of_lt_le (by omega) (by omega)), fld0 (hi := (q * 262144 + x0.toNat * 8192 + x1.toNat * 256 + x2.toNat * 8 + x3.toNat * 4 + x4.toNat * 2 + x5.toNat)) (by rw [e, hc]; ring) hk0, bf_eq (fld (hi := (q)) (low := (k0 + x1.toNat * 65536 + x2.toNat * 2048 + x3.toNat * 1024 + x4.toNat * 512 + x5.toNat * 256)) (by rw [e, hc]; ring) x0.isLt (by clear e hc; omega)), bf_eq (fld (hi := (q * 32 + x0.toNat)) (low := (k0 + x2.toNat * 2048 + x3.toNat * 1024 + x4.toNat * 512 + x5.toNat * 256)) (by rw [e, hc]; ring) x1.isLt (by clear e hc; omega)), bf_eq (fld (hi := (q * 1024 + x0.toNat * 32 + x1.toNat)) (low := (k0 + x3.toNat * 1024 + x4.toNat * 512 + x5.toNat * 256)) (by rw [e, hc]; ring) x2.isLt (by clear e hc; omega)), bt_eq (fld1 (hi := (q * 32768 + x0.toNat * 1024 + x1.toNat * 32 + x2.toNat)) (low := (k0 + x4.toNat * 512 + x5.toNat * 256)) (by rw [e, hc]; ring) (Nat.lt_succ_of_le x3.toNat_le) (by clear e hc; omega)), bt_eq (fld1 (hi := (q * 65536 + x0.toNat * 2048 + x1.toNat * 64 + x2.toNat * 2 + x3.toNat)) (low := (k0 + x5.toNat * 256)) (by rw [e, hc]; ring) (Nat.lt_succ_of_le x4.toNat_le) (by clear e hc; omega)), bt_eq (fld1 (hi := (q * 131072 + x0.toNat * 4096 + x1.toNat * 128 + x2.toNat * 4 + x3.toNat * 2 + x4.toNat)) (low := (k0)) (by rw [e, hc]; ring) (Nat.lt_succ_of_le x5.toNat_le) (by clear e hc; omega))⟩
theorem shape50 {n c q k0 : Nat} (x0 : BitVec 5) (x1 : BitVec 5) (x2 : BitVec 5) (x3 : Bool) (e : n = c + x0.toNat * 2097152 + x1.toNat * 65536 + x2.toNat * 2048 + x3.toNat * 1024) (hc : c = q * 67108864 + k0) (hq : q < 64) (hk0 : k0 < 256) :
    n < 2 ^ 32 ∧ n / 67108864 = q ∧ n % 256 = k0 ∧ bf n 21 5 = x0 ∧ bf n 16 5 = x1 ∧ bf n 11 5 = x2 ∧ bt n 10 = x3 ∧ zf n 8 2 = 0 := by
  have := x0.isLt; have := x1.isLt; have := x2.isLt; have := x3.toNat_le
  exact ⟨by omega, (Nat.div_eq_of_lt_le (by omega) (by omega)), fld0 (hi := (q * 262144 + x0.toNat * 8192 + x1.toNat * 256 + x2.toNat * 8 + x3.toNat * 4)) (by rw [e, hc]; ring) hk0, bf_eq (fld (hi := (q)) (low := (k0 + x1.toNat * 65536 + x2.toNat * 2048 + x3.toNat * 1024)) (by rw [e, hc]; ring) x0.isLt (by clear e hc; omega)), bf_eq (fld (hi := (q * 32 + x0.toNat)) (low := (k0 + x2.toNat * 2048 + x3.toNat * 1024)) (by rw [e, hc]; ring) x1.isLt (by clear e hc; omega)), bf_eq (fld (hi := (q * 1024 + x0.toNat * 32 + x1.toNat)) (low := (k0 + x3.toNat * 1024)) (by rw [e, hc]; ring) x2.isLt (by clear e hc; omega)), bt_eq (fld1 (hi := (q * 32768 + x0.toNat * 1024 + x1.toNat * 32 + x2.toNat)) (low := (k0)) (by rw [e, hc]; ring) (Nat.lt_succ_of_le x3.toNat_le) (by clear e hc; omega)), zf_eq (fld (hi := (q * 65536 + x0.toNat * 2048 + x1.toNat * 64 + x2.toNat * 2 + x3.toNat)) (low := (k0)) (by rw [e, hc]; ring) (by decide) (by clear e hc; omega))⟩
theorem shape51 {n c q k0 : Nat} (x0 : BitVec 5) (x1 : BitVec 5) (x2 : BitVec 5) (x3 : Bool) (x4 : Bool) (e : n = c + x0.toNat * 2097152 + x1.toNat * 65536 + x2.toNat * 2048 + x3.toNat * 1024 + x4.toNat * 512) (hc : c = q * 67108864 + k0) (hq : q < 64) (hk0 : k0 < 256) :
    n < 2 ^ 32 ∧ n / 67108864 = q ∧ n % 256 = k0 ∧ bf n 21 5 = x0 ∧ bf n 16 5 = x1 ∧ bf n 11 5 = x2 ∧ bt n 10 = x3 ∧ bt n 9 = x4 ∧ zf n 8 1 = 0 := by
  have := x0.isLt; have := x1.isLt; have := x2.isLt; have := x3.toNat_le; have := x4.toNat_le
  exact ⟨by omega, (Nat.div_eq_of_lt_le (by omega) (by omega)), fld0 (hi := (q * 262144 + x0.toNat * 8192 + x1.toNat * 256 + x2.toNat * 8 + x3.toNat * 4 + x4.toNat * 2)) (by rw [e, hc]; ring) hk0, bf_eq (fld (hi := (q)) (low := (k0 + x1.toNat * 65536 + x2.toNat * 2048 + x3.toNat * 1024 + x4.toNat * 512)) (by rw [e, hc]; ring) x0.isLt (by clear e hc; omega)), bf_eq (fld (hi := (q * 32 + x0.toNat)) (low := (k0 + x2.toNat * 2048 + x3.toNat * 1024 + x4.toNat * 512)) (by rw [e, hc]; ring) x1.isLt (by clear e hc; omega)), bf_eq (fld (hi := (q * 1024 + x0.toNat * 32 + x1.toNat)) (low := (k0 + x3.toNat * 1024 + x4.toNat * 512)) (by rw [e, hc]; ring) x2.isLt (by clear e hc; omega)), bt_eq (fld1 (hi := (q * 32768 + x0.toNat * 1024 + x1.toNat * 32 + x2.toNat)) (low := (k0 + x4.toNat * 512)) (by rw [e, hc]; ring) (Nat.lt_succ_of_le x3.toNat_le) (by clear e hc; omega)), bt_eq (fld1 (hi := (q * 65536 + x0.toNat * 2048 + x1.toNat * 64 + x2.toNat * 2 + x3.toNat)) (low := (k0)) (by rw [e, hc]; ring) (Nat.lt_succ_of_le x4.toNat_le) (by clear e hc; omega)), zf_eq (fld (hi := (q * 131072 + x0.toNat * 4096 + x1.toNat * 128 + x2.toNat * 4 + x3.toNat * 2 + x4.toNat)) (low := (k0)) (by rw [e, hc]; ring) (by decide) (by clear e hc; omega))⟩
theorem shape52 {n c q k0 : Nat} (x0 : BitVec 5) (x1 : BitVec 5) (x2 : Bool) (e : n = c + x0.toNat * 2097152 + x1.toNat * 65536 + x2.toNat * 1024) (hc : c = q * 67108864 + k0) (hq : q < 64) (hk0 : k0 < 256) :
    n < 2 ^ 32 ∧ n / 67108864 = q ∧ n % 256 = k0 ∧ bf n 21 5 = x0 ∧ bf n 16 5 = x1 ∧ bt n 10 = x2 ∧ zf n 8 2 + zf n 11 5 = 0 := by
  have := x0.isLt; have := x1.isLt; have := x2.toNat_le
  exact ⟨by omega, (Nat.div_eq_of_lt_le (by omega) (by omega)), fld0 (hi := (q * 262144 + x0.toNat * 8192 + x1.toNat * 256 + x2.toNat * 4)) (by rw [e, hc]; ring) hk0, bf_eq (fld (hi := (q)) (low := (k0 + x1.toNat * 65536 + x2.toNat * 1024)) (by rw [e, hc]; ring) x0.isLt (by clear e hc; omega)), bf_eq (fld (hi := (q * 32 + x0.toNat)) (low := (k0 + x2.toNat * 1024)) (by rw [e, hc]; ring) x1.isLt (by clear e hc; omega)), bt_eq (fld1 (hi := (q * 32768 + x0.toNat * 1024 + x1.toNat * 32)) (low := (k0)) (by rw [e, hc]; ring) (Nat.lt_succ_of_le x2.toNat_le) (by clear e hc; omega)), by rw [zf_eq (lo := 8) (len := 2) (fld (hi := (q * 65536 + x0.toNat * 2048 + x1.toNat * 64 + x2.toNat)) (low := (k0)) (by rw [e, hc]; ring) (by decide) (by clear e hc; omega)), zf_eq (lo := 11) (len := 5) (fld (hi := (q * 1024 + x0.toNat * 32 + x1.toNat)) (low := (k0 + x2.toNat * 1024)) (by rw [e, hc]; ring) (by decide) (by clear e hc; omega))]⟩
theorem shape53 {n c q k0 : Nat} (x0 : BitVec 5) (e : n = c + x0.toNat * 2097152) (hc : c = q * 67108864 + k0) (hq : q < 64) (hk0 : k0 < 256) :
    n < 2 ^ 32 ∧ n / 67108864 = q ∧ n % 256 = k0 ∧ bf n 21 5 = x0 ∧ zf n 8 13 = 0 := by
  have := x0.isLt
  exact ⟨by omega, (Nat.div_eq_of_lt_le (by omega) (by omega)), fld0 (hi := (q * 262144 + x0.toNat * 8192)) (by rw [e, hc]; ring) hk0, bf_eq (fld (hi := (q)) (low := (k0)) (by rw [e, hc]; ring) x0.isLt (by clear e hc; omega)), zf_eq (fld (hi := (q * 32 + x0.toNat)) (low := (k0)) (by rw [e, hc]; ring) (by decide) (by clear e hc; omega))⟩
theorem shape54 {n c q k0 : Nat} (x0 : BitVec 5) (x1 : BitVec 5) (x2 : BitVec 5) (x3 : Bool) (x4 : Bool) (e : n = c + x0.toNat * 2097152 + x1.toNat * 65536 + x2.toNat * 2048 + x3.toNat * 1024 + x4.toNat * 512) (hc : c = q * 67108864 + k0) (hq : q < 64) (hk0 : k0 < 16) :
    n < 2 ^ 32 ∧ n / 67108864 = q ∧ n % 16 = k0 ∧ bf n 21 5 = x0 ∧ bf n 16 5 = x1 ∧ bf n 11 5 = x2 ∧ bt n 10 = x3 ∧ bt n 9 = x4 ∧ zf n 4 5 = 0 := by
  have := x0.isLt; have := x1.isLt; have := x2.isLt; have := x3.toNat_le; have := x4.toNat_le
  exact ⟨by omega, (Nat.div_eq_of_lt_le (by omega) (by omega)), fld0 (hi := (q * 4194304 + x0.toNat * 131072 + x1.toNat * 4096 + x2.toNat * 128 + x3.toNat * 64 + x4.toNat * 32)) (by rw [e, hc]; ring) hk0, bf_eq (fld (hi := (q)) (low := (k0 + x1.toNat * 65536 + x2.toNat * 2048 + x3.toNat * 1024 + x4.toNat * 512)) (by rw [e, hc]; ring) x0.isLt (by clear e hc; omega)), bf_eq (fld (hi := (q * 32 + x0.toNat)) (low := (k0 + x2.toNat * 2048 + x3.toNat * 1024 + x4.toNat * 512)) (by rw [e, hc]; ring) x1.isLt (by clear e hc; omega)), bf_eq (fld (hi := (q * 1024 + x0.toNat * 32 + x1.toNat)) (low := (k0 + x3.toNat * 1024 + x4.toNat * 512)) (by rw [e, hc]; ring) x2.isLt (by clear e hc; omega)), bt_eq (fld1 (hi := (q * 32768 + x0.toNat * 1024 + x1.toNat * 32 + x2.toNat)) (low := (k0 + x4.toNat * 512)) (by rw [e, hc]; ring) (Nat.lt_succ_of_le x3.toNat_le) (by clear e hc; omega)), bt_eq (fld1 (hi := (q * 65536 + x0.toNat * 2048 + x1.toNat * 64 + x2.toNat * 2 + x3.toNat)) (low := (k0)) (by rw [e, hc]; ring) (Nat.lt_succ_of_le x4.toNat_le) (by clear e hc; omega)), zf_eq (fld (hi := (q * 131072 + x0.toNat * 4096 + x1.toNat * 128 + x2.toNat * 4 + x3.toNat * 2 + x4.toNat)) (low := (k0)) (by rw [e, hc]; ring) (by decide) (by clear e hc; omega))⟩
theorem shape55 {n c q k0 : Nat} (x0 : BitVec 5) (x1 : BitVec 5) (x2 : Bool) (e : n = c + x0.toNat * 2097152 + x1.toNat * 65536 + x2.toNat * 1024) (hc : c = q * 67108864 + k0) (hq : q < 64) (hk0 : k0 < 16) :
    n < 2 ^ 32 ∧ n / 67108864 = q ∧ n % 16 = k0 ∧ bf n 21 5 = x0 ∧ bf n 16 5 = x1 ∧ bt n 10 = x2 ∧ zf n 4 6 + zf n 11 5 = 0 := by
  have := x0.isLt; have := x1.isLt; have := x2.toNat_le
  exact ⟨by omega, (Nat.div_eq_of_lt_le (by omega) (by omega)), fld0 (hi := (q * 4194304 + x0.toNat * 131072 + x1.toNat * 4096 + x2.toNat * 64)) (by rw [e, hc]; ring) hk0, bf_eq (fld (hi := (q)) (low := (k0 + x1.toNat * 65536 + x2.toNat * 1024)) (by rw [e, hc]; ring) x0.isLt (by clear e hc; omega)), bf_eq (fld (hi := (q * 32 + x0.toNat)) (low := (k0 + x2.toNat * 1024)) (by rw [e, hc]; ring) x1.isLt (by clear e hc; omega)), bt_eq (fld1 (hi := (q * 32768 + x0.toNat * 1024 + x1.toNat * 32)) (low := (k0)) (by rw [e, hc]; ring) (Nat.lt_succ_of_le x2.toNat_le) (by clear e hc; omega)), by rw [zf_eq (lo := 4) (len := 6) (fld (hi := (q * 65536 + x0.toNat * 2048 + x1.toNat * 64 + x2.toNat)) (low := (k0)) (by rw [e, hc]; ring) (by decide) (by clear e hc; omega)), zf_eq (lo := 11) (len := 5) (fld (hi := (q * 1024 + x0.toNat * 32 + x1.toNat)) (low := (k0 + x2.toNat * 1024)) (by rw [e, hc]; ring) (by decide) (by clear e hc; omega))]⟩
theorem shape56 {n c q k0 : Nat} (x0 : BitVec 5) (x1 : BitVec 5) (x2 : BitVec 5) (x3 : Bool) (x4 : Bool) (x5 : BitVec 5) (e : n = c + x0.toNat * 2097152 + x1.toNat * 65536 + x2.toNat * 2048 + x3.toNat * 1024 + x4.toNat * 512 + x5.toNat * 16) (hc : c = q * 67108864 + k0) (hq : q < 64) (hk0 : k0 < 16) :
    n < 2 ^ 32 ∧ n / 67108864 = q ∧ n % 16 = k0 ∧ bf n 21 5 = x0 ∧ bf n 16 5 = x1 ∧ bf n 11 5 = x2 ∧ bt n 10 = x3 ∧ bt n 9 = x4 ∧ bf n 4 5 = x5 := by
  have := x0.isLt; have := x1.isLt; have := x2.isLt; have := x3.toNat_le; have := x4.toNat_le; have := x5.isLt
  exact ⟨by omega, (Nat.div_eq_of_lt_le (by omega) (by omega)), fld0 (hi := (q * 4194304 + x0.toNat * 131072 + x1.toNat * 4096 + x2.toNat * 128 + x3.toNat * 64 + x4.toNat * 32 + x5.toNat)) (by rw [e, hc]; ring) hk0, bf_eq (fld (hi := (q)) (low := (k0 + x1.toNat * 65536 + x2.toNat * 2048 + x3.toNat * 1024 + x4.toNat * 512 + x5.toNat * 16)) (by rw [e, hc]; ring) x0.isLt (by clear e hc; omega)), bf_eq (fld (hi := (q * 32 + x0.toNat)) (low := (k0 + x2.toNat * 2048 + x3.toNat * 1024 + x4.toNat * 512 + x5.toNat * 16)) (by rw [e, hc]; ring) x1.isLt (by clear e hc; omega)), bf_eq (fld (hi := (q * 1024 + x0.toNat * 32 + x1.toNat)) (low := (k0 + x3.toNat * 1024 + x4.toNat * 512 + x5.toNat * 16)) (by rw [e, hc]; ring) x2.isLt (by clear e hc; omega)), bt_eq (fld1 (hi := (q * 32768 + x0.toNat * 1024 + x1.toNat * 32 + x2.toNat)) (low := (k0 + x4.toNat * 512 + x5.toNat * 16)) (by rw [e, hc]; ring) (Nat.lt_succ_of_le x3.toNat_le) (by clear e hc; omega)), bt_eq (fld1 (hi := (q * 65536 + x0.toNat * 2048 + x1.toNat * 64 + x2.toNat * 2 + x3.toNat)) (low := (k0 + x5.toNat * 16)) (by rw [e, hc]; ring) (Nat.lt_succ_of_le x4.toNat_le) (by clear e hc; omega)), bf_eq (fld (hi := (q * 131072 + x0.toNat * 4096 + x1.toNat * 128 + x2.toNat * 4 + x3.toNat * 2 + x4.toNat)) (low := (k0)) (by rw [e, hc]; ring) x5.isLt (by clear e hc; omega))⟩
theorem shape57 {n c q k0 : Nat} (x0 : BitVec 5) (x1 : BitVec 5) (x2 : BitVec 5) (x3 : BitVec 5) (e : n = c + x0.toNat * 2097152 + x1.toNat * 65536 + x2.toNat * 2048 + x3.toNat * 16) (hc : c = q * 67108864 + k0) (hq : q < 64) (hk0 : k0 < 16) :
    n < 2 ^ 32 ∧ n / 67108864 = q ∧ n % 16 = k0 ∧ bf n 21 5 = x0 ∧ bf n 16 5 = x1 ∧ bf n 11 5 = x2 ∧ bf n 4 5 = x3 ∧ zf n 9 2 = 0 := by
  have := x0.isLt; have := x1.isLt; have := x2.isLt; have := x3.isLt
  exact ⟨by omega, (Nat.div_eq_of_lt_le (by omega) (by omega)), fld0 (hi := (q * 4194304 + x0.toNat * 131072 + x1.toNat * 4096 + x2.toNat * 128 + x3.toNat)) (by rw [e, hc]; ring) hk0, bf_eq (fld (hi := (q)) (low := (k0 + x1.toNat * 65536 + x2.toNat * 2048 + x3.toNat * 16)) (by rw [e, hc]; ring) x0.isLt (by clear e hc; omega)), bf_eq (fld (hi := (q * 32 + x0.toNat)) (low := (k0 + x2.toNat * 2048 + x3.toNat * 16)) (by rw [e, hc]; ring) x1.isLt (by clear e hc; omega)), bf_eq (fld (hi := (q * 1024 + x0.toNat * 32 + x1.toNat)) (low := (k0 + x3.toNat * 16)) (by rw [e, hc]; ring) x2.isLt (by clear e hc; omega)), bf_eq (fld (hi := (q * 131072 + x0.toNat * 4096 + x1.toNat * 128 + x2.toNat * 4)) (low := (k0)) (by rw [e, hc]; ring) x3.isLt (by clear e hc; omega)), zf_eq (fld (hi := (q * 32768 + x0.toNat * 1024 + x1.toNat * 32 + x2.toNat)) (low := (k0 + x3.toNat * 16)) (by rw [e, hc]; ring) (by decide) (by clear e hc; omega))⟩
theorem shape58 {n c q k0 k1 : Nat} (x0 : BitVec 5) (e : n = c + x0.toNat * 2097152) (hc : c = q * 67108864 + k0 + k1 * 2048) (hq : q < 64) (hk0 : k0 < 16) (hk1 : k1 < 32) :
    n < 2 ^ 32 ∧ n / 67108864 = q ∧ n % 16 = k0 ∧ n / 2048 % 32 = k1 ∧ bf n 21 5 = x0 ∧ zf n 4 7 + zf n 16 5 = 0 := by
  have := x0.isLt
  exact ⟨by omega, (Nat.div_eq_of_lt_le (by omega) (by omega)), fld0 (hi := (q * 4194304 + k1 * 128 + x0.toNat * 131072)) (by rw [e, hc]; ring) hk0, fld (lo := 11) (len := 5) (hi := (q * 1024 + x0.toNat * 32)) (low := (k0)) (by rw [e, hc]; ring) hk1 (by clear e hc; omega), bf_eq (fld (hi := (q)) (low := (k0 + k1 * 2048)) (by rw [e, hc]; ring) x0.isLt (by clear e hc; omega)), by rw [zf_eq (lo := 4) (len := 7) (fld (hi := (q * 32768 + k1 + x0.toNat * 1024)) (low := (k0)) (by rw [e, hc]; ring) (by decide) (by clear e hc; omega)), zf_eq (lo := 16) (len := 5) (fld (hi := (q * 32 + x0.toNat)) (low := (k0 + k1 * 2048)) (by rw [e, hc]; ring) (by decide) (by clear e hc; omega))]⟩
theorem shape59 {n c q k0 k1 : Nat} (x0 : BitVec 5) (x1 : BitVec 5) (x2 : Bool) (e : n = c + x0.toNat * 2097152 + x1.toNat * 65536 + x2.toNat * 1024) (hc : c = q * 67108864 + k0 + k1 * 2048) (hq : q < 64) (hk0 : k0 < 16) (hk1 : k1 < 32) :
    n < 2 ^ 32 ∧ n / 67108864 = q ∧ n % 16 = k0 ∧ n / 2048 % 32 = k1 ∧ bf n 21 5 = x0 ∧ bf n 16 5 = x1 ∧ bt n 10 = x2 ∧ zf n 4 6 = 0 := by
  have := x0.isLt; have := x1.isLt; have := x2.toNat_le
  exact ⟨by omega, (Nat.div_eq_of_lt_le (by omega) (by omega)), fld0 (hi := (q * 4194304 + k1 * 128 + x0.toNat * 131072 + x1.toNat * 4096 + x2.toNat * 64)) (by rw [e, hc]; ring) hk0, fld (lo := 11) (len := 5) (hi := (q * 1024 + x0.toNat * 32 + x1.toNat)) (low := (k0 + x2.toNat * 1024)) (by rw [e, hc]; ring) hk1 (by clear e hc; omega), bf_eq (fld (hi := (q)) (low := (k0 + k1 * 2048 + x1.toNat * 65536 + x2.toNat * 1024)) (by rw [e, hc]; ring) x0.isLt (by clear e hc; omega)), bf_eq (fld (hi := (q * 32 + x0.toNat)) (low := (k0 + k1 * 2048 + x2.toNat * 1024)) (by rw [e, hc]; ring) x1.isLt (by clear e hc; omega)), bt_eq (fld1 (hi := (q * 32768 + k1 + x0.toNat * 1024 + x1.toNat * 32)) (low := (k0)) (by rw [e, hc]; ring) (Nat.lt_succ_of_le x2.toNat_le) (by clear e hc; omega)), zf_eq (fld (hi := (q * 65536 + k1 * 2 + x0.toNat * 2048 + x1.toNat * 64 + x2.toNat)) (low := (k0)) (by rw [e, hc]; ring) (by decide) (by clear e hc; omega))⟩
theorem shape60 {n c q k0 : Nat} (x0 : BitVec 5) (x1 : BitVec 3) (e : n = c + x0.toNat * 2097152 + x1.toNat * 2048) (hc : c = q * 67108864 + k0) (hq : q < 64) (hk0 : k0 < 16) :
    n < 2 ^ 32 ∧ n / 67108864 = q ∧ n % 16 = k0 ∧ bf n 21 5 = x0 ∧ bf n 11 3 = x1 ∧ zf n 4 7 + zf n 16 5 = 0 := by
  have := x0.isLt; have := x1.isLt
  exact ⟨by omega, (Nat.div_eq_of_lt_le (by omega) (by omega)), fld0 (hi := (q * 4194304 + x0.toNat * 131072 + x1.toNat * 128)) (by rw [e, hc]; ring) hk0, bf_eq (fld (hi := (q)) (low := (k0 + x1.toNat * 2048)) (by rw [e, hc]; ring) x0.isLt (by clear e hc; omega)), bf_eq (fld (hi := (q * 4096 + x0.toNat * 128)) (low := (k0)) (by rw [e, hc]; ring) x1.isLt (by clear e hc; omega)), by rw [zf_eq (lo := 4) (len := 7) (fld (hi := (q * 32768 + x0.toNat * 1024 + x1.toNat)) (low := (k0)) (by rw [e, hc]; ring) (by decide) (by clear e hc; omega)), zf_eq (lo := 16) (len := 5) (fld (hi := (q * 32 + x0.toNat)) (low := (k0 + x1.toNat * 2048)) (by rw [e, hc]; ring) (by decide) (by clear e hc; omega))]⟩
theorem shape61 {n c q k0 k1 : Nat} (x0 : BitVec 5) (x1 : Bool) (e : n = c + x0.toNat * 2097152 + x1.toNat * 2048) (hc : c = q * 67108864 + k0 + k1 * 4096) (hq : q < 64) (hk0 : k0 < 16) (hk1 : k1 < 16) :
    n < 2 ^ 32 ∧ n / 67108864 = q ∧ n % 16 = k0 ∧ n / 4096 % 16 = k1 ∧ bf n 21 5 = x0 ∧ bt n 11 = x1 ∧ zf n 4 7 + zf n 16 5 = 0 := by
  have := x0.isLt; have := x1.toNat_le
  exact ⟨by omega, (Nat.div_eq_of_lt_le (by omega) (by omega)), fld0 (hi := (q * 4194304 + k1 * 256 + x0.toNat * 131072 + x1.toNat * 128)) (by rw [e, hc]; ring) hk0, fld (lo := 12) (len := 4) (hi := (q * 1024 + x0.toNat * 32)) (low := (k0 + x1.toNat * 2048)) (by rw [e, hc]; ring) hk1 (by clear e hc; omega), bf_eq (fld (hi := (q)) (low := (k0 + k1 * 4096 + x1.toNat * 2048)) (by rw [e, hc]; ring) x0.isLt (by clear e hc; omega)), bt_eq (fld1 (hi := (q * 16384 + k1 + x0.toNat * 512)) (low := (k0)) (by rw [e, hc]; ring) (Nat.lt_succ_of_le x1.toNat_le) (by clear e hc; omega)), by rw [zf_eq (lo := 4) (len := 7) (fld (hi := (q * 32768 + k1 * 2 + x0.toNat * 1024 + x1.toNat)) (low := (k0)) (by rw [e, hc]; ring) (by decide) (by clear e hc; omega)), zf_eq (lo := 16) (len := 5) (fld (hi := (q * 32 + x0.toNat)) (low := (k0 + k1 * 4096 + x1.toNat * 2048)) (by rw [e, hc]; ring) (by decide) (by clear e hc; omega))]⟩
theorem shape62 {n c q k0 : Nat} (x0 : BitVec 5) (e : n = c + x0.toNat * 2097152) (hc : c = q * 67108864 + k0) (hq : q < 64) (hk0 : k0 < 512) :
    n < 2 ^ 32 ∧ n / 67108864 = q ∧ n % 512 = k0 ∧ bf n 21 5 = x0 ∧ zf n 9 12 = 0 := by
  have := x0.isLt
  exact ⟨by omega, (Nat.div_eq_of_lt_le (by omega) (by omega)), fld0 (hi := (q * 131072 + x0.toNat * 4096)) (by rw [e, hc]; ring) hk0, bf_eq (fld (hi := (q)) (low := (k0)) (by rw [e, hc]; ring) x0.isLt (by clear e hc; omega)), zf_eq (fld (hi := (q * 32 + x0.toNat)) (low := (k0)) (by rw [e, hc]; ring) (by decide) (by clear e hc; omega))⟩
theorem shape63 {n c q k0 : Nat} (x0 : BitVec 5) (x1 : Bool) (x2 : BitVec 8) (e : n = c + x0.toNat * 2097152 + x1.toNat * 32768 + x2.toNat) (hc : c = q * 67108864 + k0 * 256) (hq : q < 64) (hk0 : k0 < 64) :
    n < 2 ^ 32 ∧ n / 67108864 = q ∧ n / 256 % 64 = k0 ∧ bf n 21 5 = x0 ∧ bt n 15 = x1 ∧ bf n 0 8 = x2 ∧ zf n 14 1 + zf n 16 5 = 0 := by
  have := x0.isLt; have := x1.toNat_le; have := x2.isLt
  exact ⟨by omega, (Nat.div_eq_of_lt_le (by omega) (by omega)), fld (lo := 8) (len := 6) (hi := (q * 4096 + x0.toNat * 128 + x1.toNat * 2)) (low := (x2.toNat)) (by rw [e, hc]; ring) hk0 (by clear e hc; omega), bf_eq (fld (hi := (q)) (low := (k0 * 256 + x1.toNat * 32768 + x2.toNat)) (by rw [e, hc]; ring) x0.isLt (by clear e hc; omega)), bt_eq (fld1 (hi := (q * 1024 + x0.toNat * 32)) (low := (k0 * 256 + x2.toNat)) (by rw [e, hc]; ring) (Nat.lt_succ_of_le x1.toNat_le) (by clear e hc; omega)), bf_eq (fld (hi := (q * 262144 + k0 + x0.toNat * 8192 + x1.toNat * 128)) (low := (0)) (by rw [e, hc]; ring) x2.isLt (by clear e hc; omega)), by rw [zf_eq (lo := 14) (len := 1) (fld (hi := (q * 2048 + x0.toNat * 64 + x1.toNat)) (low := (k0 * 256 + x2.toNat)) (by rw [e, hc]; ring) (by decide) (by clear e hc; omega)), zf_eq (lo := 16) (len := 5) (fld (hi := (q * 32 + x0.toNat)) (low := (k0 * 256 + x1.toNat * 32768 + x2.toNat)) (by rw [e, hc]; ring) (by decide) (by clear e hc; omega))]⟩
theorem shape64 {n c q k0 : Nat} (x0 : BitVec 8) (e : n = c + x0.toNat) (hc : c = q * 67108864 + k0 * 256) (hq : q < 64) (hk0 : k0 < 64) :
    n < 2 ^ 32 ∧ n / 67108864 = q ∧ n / 256 % 64 = k0 ∧ bf n 0 8 = x0 ∧ zf n 14 12 = 0 := by
  have := x0.isLt
  exact ⟨by omega, (Nat.div_eq_of_lt_le (by omega) (by omega)), fld (lo := 8) (len := 6) (hi := (q * 4096)) (low := (x0.toNat)) (by rw [e, hc]; ring) hk0 (by clear e hc; omega), bf_eq (fld (hi := (q * 262144 + k0)) (low := (0)) (by rw [e, hc]; ring) x0.isLt (by clear e hc; omega)), zf_eq (fld (hi := (q)) (low := (k0 * 256 + x0.toNat)) (by rw [e, hc]; ring) (by decide) (by clear e hc; omega))⟩
theorem shape65 {n c q k0 : Nat} (x0 : BitVec 5) (x1 : BitVec 5) (x2 : Bool) (x3 : Bool) (x4 : BitVec 8) (e : n = c + x0.toNat * 2097152 + x1.toNat * 65536 + x2.toNat * 32768 + x3.toNat * 16384 + x4.toNat) (hc : c = q * 67108864 + k0 * 256) (hq : q < 64) (hk0 : k0 < 64) :
    n < 2 ^ 32 ∧ n / 67108864 = q ∧ n / 256 % 64 = k0 ∧ bf n 21 5 = x0 ∧ bf n 16 5 = x1 ∧ bt n 15 = x2 ∧ bt n 14 = x3 ∧ bf n 0 8 = x4 := by
  have := x0.isLt; have := x1.isLt; have := x2.toNat_le; have := x3.toNat_le; have := x4.isLt
  exact ⟨by omega, (Nat.div_eq_of_lt_le (by omega) (by omega)), fld (lo := 8) (len := 6) (hi := (q * 4096 + x0.toNat * 128 + x1.toNat * 4 + x2.toNat * 2 + x3.toNat)) (low := (x4.toNat)) (by rw [e, hc]; ring) hk0 (by clear e hc; omega), bf_eq (fld (hi := (q)) (low := (k0 * 256 + x1.toNat * 65536 + x2.toNat * 32768 + x3.toNat * 16384 + x4.toNat)) (by rw [e, hc]; ring) x0.isLt (by clear e hc; omega)), bf_eq (fld (hi := (q * 32 + x0.toNat)) (low := (k0 * 256 + x2.toNat * 32768 + x3.toNat * 16384 + x4.toNat)) (by rw [e, hc]; ring) x1.isLt (by clear e hc; omega)), bt_eq (fld1 (hi := (q * 1024 + x0.toNat * 32 + x1.toNat)) (low := (k0 * 256 + x3.toNat * 16384 + x4.toNat)) (by rw [e, hc]; ring) (Nat.lt_succ_of_le x2.toNat_le) (by clear e hc; omega)), bt_eq (fld1 (hi := (q * 2048 + x0.toNat * 64 + x1.toNat * 2 + x2.toNat)) (low := (k0 * 256 + x4.toNat)) (by rw [e, hc]; ring) (Nat.lt_succ_of_le x3.toNat_le) (by clear e hc; omega)), bf_eq (fld (hi := (q * 262144 + k0 + x0.toNat * 8192 + x1.toNat * 256 + x2.toNat * 128 + x3.toNat * 64)) (low := (0)) (by rw [e, hc]; ring) x4.isLt (by clear e hc; omega))⟩
theorem shape66 {n c q k0 : Nat} (x0 : BitVec 5) (x1 : Bool) (x2 : BitVec 2) (x3 : BitVec 6) (e : n = c + x0.toNat * 65536 + x1.toNat * 1024 + x2.toNat * 64 + x3.toNat) (hc : c = q * 67108864 + k0 * 256) (hq : q < 64) (hk0 : k0 < 2) :
    n < 2 ^ 32 ∧ n / 67108864 = q ∧ n / 256 % 2 = k0 ∧ bf n 16 5 = x0 ∧ bt n 10 = x1 ∧ bf n 6 2 = x2 ∧ bf n 0 6 = x3 ∧ zf n 9 1 + zf n 11 5 + zf n 21 5 = 0 := by
  have := x0.isLt; have := x1.toNat_le; have := x2.isLt; have := x3.isLt
  exact ⟨by omega, (Nat.div_eq_of_lt_le (by omega) (by omega)), fld (lo := 8) (len := 1) (hi := (q * 131072 + x0.toNat * 128 + x1.toNat * 2)) (low := (x2.toNat * 64 + x3.toNat)) (by rw [e, hc]; ring) hk0 (by clear e hc; omega), bf_eq (fld (hi := (q * 32)) (low := (k0 * 256 + x1.toNat * 1024 + x2.toNat * 64 + x3.toNat)) (by rw [e, hc]; ring) x0.isLt (by clear e hc; omega)), bt_eq (fld1 (hi := (q * 32768 + x0.toNat * 32)) (low := (k0 * 256 + x2.toNat * 64 + x3.toNat)) (by rw [e, hc]; ring) (Nat.lt_succ_of_le x1.toNat_le) (by clear e hc; omega)), bf_eq (fld (hi := (q * 262144 + k0 + x0.toNat * 256 + x1.toNat * 4)) (low := (x3.toNat)) (by rw [e, hc]; ring) x2.isLt (by clear e hc; omega)), bf_eq (fld (hi := (q * 1048576 + k0 * 4 + x0.toNat * 1024 + x1.toNat * 16 + x2.toNat)) (low := (0)) (by rw [e, hc]; ring) x3.isLt (by clear e hc; omega)), by rw [zf_eq (lo := 9) (len := 1) (fld (hi := (q * 65536 + x0.toNat * 64 + x1.toNat)) (low := (k0 * 256 + x2.toNat * 64 + x3.toNat)) (by rw [e, hc]; ring) (by decide) (by clear e hc; omega)), zf_eq (lo := 11) (len := 5) (fld (hi := (q * 1024 + x0.toNat)) (low := (k0 * 256 + x1.toNat * 1024 + x2.toNat * 64 + x3.toNat)) (by rw [e, hc]; ring) (by decide) (by clear e hc; omega)), zf_eq (lo := 21) (len := 5) (fld (hi := (q)) (low := (k0 * 256 + x0.toNat * 65536 + x1.toNat * 1024 + x2.toNat * 64 + x3.toNat)) (by rw [e, hc]; ring) (by decide) (by clear e hc; omega))]⟩
theorem shape67 {n c q k0 : Nat} (x0 : BitVec 5) (x1 : BitVec 2) (x2 : BitVec 6) (e : n = c + x0.toNat * 2097152 + x1.toNat * 64 + x2.toNat) (hc : c = q * 67108864 + k0 * 256) (hq : q < 64) (hk0 : k0 < 2) :
    n < 2 ^ 32 ∧ n / 67108864 = q ∧ n / 256 % 2 = k0 ∧ bf n 21 5 = x0 ∧ bf n 6 2 = x1 ∧ bf n 0 6 = x2 ∧ zf n 9 12 = 0 := by
  have := x0.isLt; have := x1.isLt; have := x2.isLt
  exact ⟨by omega, (Nat.div_eq_of_lt_le (by omega) (by omega)), fld (lo := 8) (len := 1) (hi := (q * 131072 + x0.toNat * 4096)) (low := (x1.toNat * 64 + x2.toNat)) (by rw [e, hc]; ring) hk0 (by clear e hc; omega), bf_eq (fld (hi := (q)) (low := (k0 * 256 + x1.toNat * 64 + x2.toNat)) (by rw [e, hc]; ring) x0.isLt (by clear e hc; omega)), bf_eq (fld (hi := (q * 262144 + k0 + x0.toNat * 8192)) (low := (x2.toNat)) (by rw [e, hc]; ring) x1.isLt (by clear e hc; omega)), bf_eq (fld (hi := (q * 1048576 + k0 * 4 + x0.toNat * 32768 + x1.toNat)) (low := (0)) (by rw [e, hc]; ring) x2.isLt (by clear e hc; omega)), zf_eq (fld (hi := (q * 32 + x0.toNat)) (low := (k0 * 256 + x1.toNat * 64 + x2.toNat)) (by rw [e, hc]; ring) (by decide) (by clear e hc; omega))⟩
theorem shape68 {n c q k0 : Nat}  (e : n = c) (hc : c = q * 67108864 + k0) (hq : q < 64) (hk0 : k0 < 512) :
    n < 2 ^ 32 ∧ n / 67108864 = q ∧ n % 512 = k0 ∧ zf n 9 17 = 0 := by
  exact ⟨by omega, (Nat.div_eq_of_lt_le (by omega) (by omega)), fld0 (hi := (q * 131072)) (by rw [e, hc]; ring) hk0, zf_eq (fld (hi := (q)) (low := (k0)) (by rw [e, hc]; ring) (by decide) (by clear e hc; omega))⟩
theorem shape69 {n c q k0 : Nat}  (e : n = c) (hc : c = q * 67108864 + k0) (hq : q < 64) (hk0 : k0 < 32) :
    n < 2 ^ 32 ∧ n / 67108864 = q ∧ n % 32 = k0 ∧ zf n 5 21 = 0 := by
  exact ⟨by omega, (Nat.div_eq_of_lt_le (by omega) (by omega)), fld0 (hi := (q * 2097152)) (by rw [e, hc]; ring) hk0, zf_eq (fld (hi := (q)) (low := (k0)) (by rw [e, hc]; ring) (by decide) (by clear e hc; omega))⟩

theorem RoundTrip.setf (d : BitVec 5) (f : BitVec 2) : RoundTrip.Statement (.setf d f) := by
  refine roundTrip_of fun wf N hN => ?_
  obtain ⟨hlt, h0, h1, h2, h3, h4⟩ := shape0 (n := N) (q := 0) (k0 := 5) d f hN rfl (by decide) (by decide)
  refine ⟨hlt, fun word hw => ?_⟩
  rw [decodeRaw, hw, h0]; show decMisc N = _; rw [decMisc, h1]; show some (Instr.setf (bf N 21 5) (bf N 12 2), zf N 9 3 + zf N 14 7) = _; rw [h2, h3, h4]
theorem RoundTrip.sete (d : BitVec 5) (f : BitVec 2) : RoundTrip.Statement (.sete d f) := by
  refine roundTrip_of fun wf N hN => ?_
  obtain ⟨hlt, h0, h1, h2, h3, h4⟩ := shape0 (n := N) (q := 0) (k0 := 6) d f hN rfl (by decide) (by decide)
  refine ⟨hlt, fun word hw => ?_⟩
  rw [decodeRaw, hw, h0]; show decMisc N = _; rw [decMisc, h1]; show some (Instr.sete (bf N 21 5) (bf N 12 2), zf N 9 3 + zf N 14 7) = _; rw [h2, h3, h4]
theorem RoundTrip.tfe (d : BitVec 5) (f : BitVec 2) : RoundTrip.Statement (.tfe d f) := by
  refine roundTrip_of fun wf N hN => ?_
  obtain ⟨hlt, h0, h1, h2, h3, h4⟩ := shape0 (n := N) (q := 0) (k0 := 7) d f hN rfl (by decide) (by decide)
  refine ⟨hlt, fun word hw => ?_⟩
  rw [decodeRaw, hw, h0]; show decMisc N = _; rw [decMisc, h1]; show some (Instr.tfe (bf N 21 5) (bf N 12 2), zf N 9 3 + zf N 14 7) = _; rw [h2, h3, h4]
theorem RoundTrip.rdc (d : BitVec 5) (c : BitVec 7) : RoundTrip.Statement (.rdc d c) := by
  refine roundTrip_of fun wf N hN => ?_
  obtain ⟨hlt, h0, h1, h2, h3, h4⟩ := shape1 (n := N) (q := 0) (k0 := 8) d c hN rfl (by decide) (by decide)
  refine ⟨hlt, fun word hw => ?_⟩
  rw [decodeRaw, hw, h0]; show decMisc N = _; rw [decMisc, h1]; show some (Instr.rdc (bf N 21 5) (bf N 9 7), zf N 16 5) = _; rw [h2, h3, h4]
theorem RoundTrip.wrc (a : BitVec 5) (c : BitVec 7) : RoundTrip.Statement (.wrc a c) := by
  refine roundTrip_of fun wf N hN => ?_
  obtain ⟨hlt, h0, h1, h2, h3, h4⟩ := shape2 (n := N) (q := 0) (k0 := 9) a c hN rfl (by decide) (by decide)
  refine ⟨hlt, fun word hw => ?_⟩
  rw [decodeRaw, hw, h0]; show decMisc N = _; rw [decMisc, h1]; show some (Instr.wrc (bf N 16 5) (bf N 9 7), zf N 21 5) = _; rw [h2, h3, h4]
theorem RoundTrip.sysc (c : BitVec 10) : RoundTrip.Statement (.sysc c) := by
  refine roundTrip_of fun wf N hN => ?_
  obtain ⟨hlt, h0, h1, h2, h3⟩ := shape3 (n := N) (q := 0) (k0 := 10) c hN rfl (by decide) (by decide)
  refine ⟨hlt, fun word hw => ?_⟩
  rw [decodeRaw, hw, h0]; show decMisc N = _; rw [decMisc, h1]; show some (Instr.sysc (bf N 11 10), zf N 9 2 + zf N 21 5) = _; rw [h2, h3]
theorem RoundTrip.tend (a : BitVec 5) (m : Bool) : RoundTrip.Statement (.tend a m) := by
  refine roundTrip_of fun wf N hN => ?_
  obtain ⟨hlt, h0, h1, h2, h3, h4⟩ := shape4 (n := N) (q := 0) (k0 := 13) a m hN rfl (by decide) (by decide)
  refine ⟨hlt, fun word hw => ?_⟩
  rw [decodeRaw, hw, h0]; show decMisc N = _; rw [decMisc, h1]; show some (Instr.tend (bf N 16 5) (bt N 10), zf N 9 1 + zf N 11 5 + zf N 21 5) = _; rw [h2, h3, h4]
theorem RoundTrip.add (d : BitVec 5) (a : BitVec 5) (b : BitVec 5) (m : Bool) (n : Bool) : RoundTrip.Statement (.add d a b m n) := by
  refine roundTrip_of fun wf N hN => ?_
  obtain ⟨hlt, h0, h1, h2, h3, h4, h5, h6⟩ := shape5 (n := N) (q := 1) (k0 := 0) d a b m n hN rfl (by decide) (by decide)
  refine ⟨hlt, fun word hw => ?_⟩
  rw [decodeRaw, hw, h0]; show decAlu N = _; rw [decAlu, h1]; show some (Instr.add (bf N 21 5) (bf N 16 5) (bf N 11 5) (bt N 10) (bt N 9), 0) = _; rw [h2, h3, h4, h5, h6]
theorem RoundTrip.sub (d : BitVec 5) (a : BitVec 5) (b : BitVec 5) (m : Bool) (n : Bool) : RoundTrip.Statement (.sub d a b m n) := by
  refine roundTrip_of fun wf N hN => ?_
  obtain ⟨hlt, h0, h1, h2, h3, h4, h5, h6⟩ := shape5 (n := N) (q := 1) (k0 := 1) d a b m n hN rfl (by decide) (by decide)
  refine ⟨hlt, fun word hw => ?_⟩
  rw [decodeRaw, hw, h0]; show decAlu N = _; rw [decAlu, h1]; show some (Instr.sub (bf N 21 5) (bf N 16 5) (bf N 11 5) (bt N 10) (bt N 9), 0) = _; rw [h2, h3, h4, h5, h6]
theorem RoundTrip.mul (d : BitVec 5) (a : BitVec 5) (b : BitVec 5) (m : Bool) (n : Bool) : RoundTrip.Statement (.mul d a b m n) := by
  refine roundTrip_of fun wf N hN => ?_
  obtain ⟨hlt, h0, h1, h2, h3, h4, h5, h6⟩ := shape5 (n := N) (q := 1) (k0 := 2) d a b m n hN rfl (by decide) (by decide)
  refine ⟨hlt, fun word hw => ?_⟩
  rw [decodeRaw, hw, h0]; show decAlu N = _; rw [decAlu, h1]; show some (Instr.mul (bf N 21 5) (bf N 16 5) (bf N 11 5) (bt N 10) (bt N 9), 0) = _; rw [h2, h3, h4, h5, h6]
theorem RoundTrip.mulh (d : BitVec 5) (a : BitVec 5) (b : BitVec 5) (m : Bool) (n : Bool) : RoundTrip.Statement (.mulh d a b m n) := by
  refine roundTrip_of fun wf N hN => ?_
  obtain ⟨hlt, h0, h1, h2, h3, h4, h5, h6⟩ := shape5 (n := N) (q := 1) (k0 := 3) d a b m n hN rfl (by decide) (by decide)
  refine ⟨hlt, fun word hw => ?_⟩
  rw [decodeRaw, hw, h0]; show decAlu N = _; rw [decAlu, h1]; show some (Instr.mulh (bf N 21 5) (bf N 16 5) (bf N 11 5) (bt N 10) (bt N 9), 0) = _; rw [h2, h3, h4, h5, h6]
theorem RoundTrip.mulhn (d : BitVec 5) (a : BitVec 5) (b : BitVec 5) (m : Bool) (n : Bool) : RoundTrip.Statement (.mulhn d a b m n) := by
  refine roundTrip_of fun wf N hN => ?_
  obtain ⟨hlt, h0, h1, h2, h3, h4, h5, h6⟩ := shape5 (n := N) (q := 1) (k0 := 4) d a b m n hN rfl (by decide) (by decide)
  refine ⟨hlt, fun word hw => ?_⟩
  rw [decodeRaw, hw, h0]; show decAlu N = _; rw [decAlu, h1]; show some (Instr.mulhn (bf N 21 5) (bf N 16 5) (bf N 11 5) (bt N 10) (bt N 9), 0) = _; rw [h2, h3, h4, h5, h6]
theorem RoundTrip.div (d : BitVec 5) (a : BitVec 5) (b : BitVec 5) (m : Bool) (n : Bool) : RoundTrip.Statement (.div d a b m n) := by
  refine roundTrip_of fun wf N hN => ?_
  obtain ⟨hlt, h0, h1, h2, h3, h4, h5, h6⟩ := shape5 (n := N) (q := 1) (k0 := 5) d a b m n hN rfl (by decide) (by decide)
  refine ⟨hlt, fun word hw => ?_⟩
  rw [decodeRaw, hw, h0]; show decAlu N = _; rw [decAlu, h1]; show some (Instr.div (bf N 21 5) (bf N 16 5) (bf N 11 5) (bt N 10) (bt N 9), 0) = _; rw [h2, h3, h4, h5, h6]
theorem RoundTrip.divn (d : BitVec 5) (a : BitVec 5) (b : BitVec 5) (m : Bool) (n : Bool) : RoundTrip.Statement (.divn d a b m n) := by
  refine roundTrip_of fun wf N hN => ?_
  obtain ⟨hlt, h0, h1, h2, h3, h4, h5, h6⟩ := shape5 (n := N) (q := 1) (k0 := 6) d a b m n hN rfl (by decide) (by decide)
  refine ⟨hlt, fun word hw => ?_⟩
  rw [decodeRaw, hw, h0]; show decAlu N = _; rw [decAlu, h1]; show some (Instr.divn (bf N 21 5) (bf N 16 5) (bf N 11 5) (bt N 10) (bt N 9), 0) = _; rw [h2, h3, h4, h5, h6]
theorem RoundTrip.rem (d : BitVec 5) (a : BitVec 5) (b : BitVec 5) (m : Bool) (n : Bool) : RoundTrip.Statement (.rem d a b m n) := by
  refine roundTrip_of fun wf N hN => ?_
  obtain ⟨hlt, h0, h1, h2, h3, h4, h5, h6⟩ := shape5 (n := N) (q := 1) (k0 := 7) d a b m n hN rfl (by decide) (by decide)
  refine ⟨hlt, fun word hw => ?_⟩
  rw [decodeRaw, hw, h0]; show decAlu N = _; rw [decAlu, h1]; show some (Instr.rem (bf N 21 5) (bf N 16 5) (bf N 11 5) (bt N 10) (bt N 9), 0) = _; rw [h2, h3, h4, h5, h6]
theorem RoundTrip.remn (d : BitVec 5) (a : BitVec 5) (b : BitVec 5) (m : Bool) (n : Bool) : RoundTrip.Statement (.remn d a b m n) := by
  refine roundTrip_of fun wf N hN => ?_
  obtain ⟨hlt, h0, h1, h2, h3, h4, h5, h6⟩ := shape5 (n := N) (q := 1) (k0 := 8) d a b m n hN rfl (by decide) (by decide)
  refine ⟨hlt, fun word hw => ?_⟩
  rw [decodeRaw, hw, h0]; show decAlu N = _; rw [decAlu, h1]; show some (Instr.remn (bf N 21 5) (bf N 16 5) (bf N 11 5) (bt N 10) (bt N 9), 0) = _; rw [h2, h3, h4, h5, h6]
theorem RoundTrip.and (d : BitVec 5) (a : BitVec 5) (b : BitVec 5) (m : Bool) (n : Bool) : RoundTrip.Statement (.and d a b m n) := by
  refine roundTrip_of fun wf N hN => ?_
  obtain ⟨hlt, h0, h1, h2, h3, h4, h5, h6⟩ := shape5 (n := N) (q := 1) (k0 := 16) d a b m n hN rfl (by decide) (by decide)
  refine ⟨hlt, fun word hw => ?_⟩
  rw [decodeRaw, hw, h0]; show decAlu N = _; rw [decAlu, h1]; show some (Instr.and (bf N 21 5) (bf N 16 5) (bf N 11 5) (bt N 10) (bt N 9), 0) = _; rw [h2, h3, h4, h5, h6]
theorem RoundTrip.or (d : BitVec 5) (a : BitVec 5) (b : BitVec 5) (m : Bool) (n : Bool) : RoundTrip.Statement (.or d a b m n) := by
  refine roundTrip_of fun wf N hN => ?_
  obtain ⟨hlt, h0, h1, h2, h3, h4, h5, h6⟩ := shape5 (n := N) (q := 1) (k0 := 17) d a b m n hN rfl (by decide) (by decide)
  refine ⟨hlt, fun word hw => ?_⟩
  rw [decodeRaw, hw, h0]; show decAlu N = _; rw [decAlu, h1]; show some (Instr.or (bf N 21 5) (bf N 16 5) (bf N 11 5) (bt N 10) (bt N 9), 0) = _; rw [h2, h3, h4, h5, h6]
theorem RoundTrip.xor (d : BitVec 5) (a : BitVec 5) (b : BitVec 5) (m : Bool) (n : Bool) : RoundTrip.Statement (.xor d a b m n) := by
  refine roundTrip_of fun wf N hN => ?_
  obtain ⟨hlt, h0, h1, h2, h3, h4, h5, h6⟩ := shape5 (n := N) (q := 1) (k0 := 18) d a b m n hN rfl (by decide) (by decide)
  refine ⟨hlt, fun word hw => ?_⟩
  rw [decodeRaw, hw, h0]; show decAlu N = _; rw [decAlu, h1]; show some (Instr.xor (bf N 21 5) (bf N 16 5) (bf N 11 5) (bt N 10) (bt N 9), 0) = _; rw [h2, h3, h4, h5, h6]
theorem RoundTrip.andn (d : BitVec 5) (a : BitVec 5) (b : BitVec 5) (m : Bool) (n : Bool) : RoundTrip.Statement (.andn d a b m n) := by
  refine roundTrip_of fun wf N hN => ?_
  obtain ⟨hlt, h0, h1, h2, h3, h4, h5, h6⟩ := shape5 (n := N) (q := 1) (k0 := 19) d a b m n hN rfl (by decide) (by decide)
  refine ⟨hlt, fun word hw => ?_⟩
  rw [decodeRaw, hw, h0]; show decAlu N = _; rw [decAlu, h1]; show some (Instr.andn (bf N 21 5) (bf N 16 5) (bf N 11 5) (bt N 10) (bt N 9), 0) = _; rw [h2, h3, h4, h5, h6]
theorem RoundTrip.orn (d : BitVec 5) (a : BitVec 5) (b : BitVec 5) (m : Bool) (n : Bool) : RoundTrip.Statement (.orn d a b m n) := by
  refine roundTrip_of fun wf N hN => ?_
  obtain ⟨hlt, h0, h1, h2, h3, h4, h5, h6⟩ := shape5 (n := N) (q := 1) (k0 := 20) d a b m n hN rfl (by decide) (by decide)
  refine ⟨hlt, fun word hw => ?_⟩
  rw [decodeRaw, hw, h0]; show decAlu N = _; rw [decAlu, h1]; show some (Instr.orn (bf N 21 5) (bf N 16 5) (bf N 11 5) (bt N 10) (bt N 9), 0) = _; rw [h2, h3, h4, h5, h6]
theorem RoundTrip.shl (d : BitVec 5) (a : BitVec 5) (b : BitVec 5) (m : Bool) (n : Bool) : RoundTrip.Statement (.shl d a b m n) := by
  refine roundTrip_of fun wf N hN => ?_
  obtain ⟨hlt, h0, h1, h2, h3, h4, h5, h6⟩ := shape5 (n := N) (q := 1) (k0 := 24) d a b m n hN rfl (by decide) (by decide)
  refine ⟨hlt, fun word hw => ?_⟩
  rw [decodeRaw, hw, h0]; show decAlu N = _; rw [decAlu, h1]; show some (Instr.shl (bf N 21 5) (bf N 16 5) (bf N 11 5) (bt N 10) (bt N 9), 0) = _; rw [h2, h3, h4, h5, h6]
theorem RoundTrip.shrl (d : BitVec 5) (a : BitVec 5) (b : BitVec 5) (m : Bool) (n : Bool) : RoundTrip.Statement (.shrl d a b m n) := by
  refine roundTrip_of fun wf N hN => ?_
  obtain ⟨hlt, h0, h1, h2, h3, h4, h5, h6⟩ := shape5 (n := N) (q := 1) (k0 := 25) d a b m n hN rfl (by decide) (by decide)
  refine ⟨hlt, fun word hw => ?_⟩
  rw [decodeRaw, hw, h0]; show decAlu N = _; rw [decAlu, h1]; show some (Instr.shrl (bf N 21 5) (bf N 16 5) (bf N 11 5) (bt N 10) (bt N 9), 0) = _; rw [h2, h3, h4, h5, h6]
theorem RoundTrip.shra (d : BitVec 5) (a : BitVec 5) (b : BitVec 5) (m : Bool) (n : Bool) : RoundTrip.Statement (.shra d a b m n) := by
  refine roundTrip_of fun wf N hN => ?_
  obtain ⟨hlt, h0, h1, h2, h3, h4, h5, h6⟩ := shape5 (n := N) (q := 1) (k0 := 26) d a b m n hN rfl (by decide) (by decide)
  refine ⟨hlt, fun word hw => ?_⟩
  rw [decodeRaw, hw, h0]; show decAlu N = _; rw [decAlu, h1]; show some (Instr.shra (bf N 21 5) (bf N 16 5) (bf N 11 5) (bt N 10) (bt N 9), 0) = _; rw [h2, h3, h4, h5, h6]
theorem RoundTrip.rotl (d : BitVec 5) (a : BitVec 5) (b : BitVec 5) (m : Bool) (n : Bool) : RoundTrip.Statement (.rotl d a b m n) := by
  refine roundTrip_of fun wf N hN => ?_
  obtain ⟨hlt, h0, h1, h2, h3, h4, h5, h6⟩ := shape5 (n := N) (q := 1) (k0 := 27) d a b m n hN rfl (by decide) (by decide)
  refine ⟨hlt, fun word hw => ?_⟩
  rw [decodeRaw, hw, h0]; show decAlu N = _; rw [decAlu, h1]; show some (Instr.rotl (bf N 21 5) (bf N 16 5) (bf N 11 5) (bt N 10) (bt N 9), 0) = _; rw [h2, h3, h4, h5, h6]
theorem RoundTrip.rotr (d : BitVec 5) (a : BitVec 5) (b : BitVec 5) (m : Bool) (n : Bool) : RoundTrip.Statement (.rotr d a b m n) := by
  refine roundTrip_of fun wf N hN => ?_
  obtain ⟨hlt, h0, h1, h2, h3, h4, h5, h6⟩ := shape5 (n := N) (q := 1) (k0 := 28) d a b m n hN rfl (by decide) (by decide)
  refine ⟨hlt, fun word hw => ?_⟩
  rw [decodeRaw, hw, h0]; show decAlu N = _; rw [decAlu, h1]; show some (Instr.rotr (bf N 21 5) (bf N 16 5) (bf N 11 5) (bt N 10) (bt N 9), 0) = _; rw [h2, h3, h4, h5, h6]
theorem RoundTrip.min (d : BitVec 5) (a : BitVec 5) (b : BitVec 5) (m : Bool) (n : Bool) : RoundTrip.Statement (.min d a b m n) := by
  refine roundTrip_of fun wf N hN => ?_
  obtain ⟨hlt, h0, h1, h2, h3, h4, h5, h6⟩ := shape5 (n := N) (q := 1) (k0 := 32) d a b m n hN rfl (by decide) (by decide)
  refine ⟨hlt, fun word hw => ?_⟩
  rw [decodeRaw, hw, h0]; show decAlu N = _; rw [decAlu, h1]; show some (Instr.min (bf N 21 5) (bf N 16 5) (bf N 11 5) (bt N 10) (bt N 9), 0) = _; rw [h2, h3, h4, h5, h6]
theorem RoundTrip.max (d : BitVec 5) (a : BitVec 5) (b : BitVec 5) (m : Bool) (n : Bool) : RoundTrip.Statement (.max d a b m n) := by
  refine roundTrip_of fun wf N hN => ?_
  obtain ⟨hlt, h0, h1, h2, h3, h4, h5, h6⟩ := shape5 (n := N) (q := 1) (k0 := 33) d a b m n hN rfl (by decide) (by decide)
  refine ⟨hlt, fun word hw => ?_⟩
  rw [decodeRaw, hw, h0]; show decAlu N = _; rw [decAlu, h1]; show some (Instr.max (bf N 21 5) (bf N 16 5) (bf N 11 5) (bt N 10) (bt N 9), 0) = _; rw [h2, h3, h4, h5, h6]
theorem RoundTrip.minn (d : BitVec 5) (a : BitVec 5) (b : BitVec 5) (m : Bool) (n : Bool) : RoundTrip.Statement (.minn d a b m n) := by
  refine roundTrip_of fun wf N hN => ?_
  obtain ⟨hlt, h0, h1, h2, h3, h4, h5, h6⟩ := shape5 (n := N) (q := 1) (k0 := 34) d a b m n hN rfl (by decide) (by decide)
  refine ⟨hlt, fun word hw => ?_⟩
  rw [decodeRaw, hw, h0]; show decAlu N = _; rw [decAlu, h1]; show some (Instr.minn (bf N 21 5) (bf N 16 5) (bf N 11 5) (bt N 10) (bt N 9), 0) = _; rw [h2, h3, h4, h5, h6]
theorem RoundTrip.maxn (d : BitVec 5) (a : BitVec 5) (b : BitVec 5) (m : Bool) (n : Bool) : RoundTrip.Statement (.maxn d a b m n) := by
  refine roundTrip_of fun wf N hN => ?_
  obtain ⟨hlt, h0, h1, h2, h3, h4, h5, h6⟩ := shape5 (n := N) (q := 1) (k0 := 35) d a b m n hN rfl (by decide) (by decide)
  refine ⟨hlt, fun word hw => ?_⟩
  rw [decodeRaw, hw, h0]; show decAlu N = _; rw [decAlu, h1]; show some (Instr.maxn (bf N 21 5) (bf N 16 5) (bf N 11 5) (bt N 10) (bt N 9), 0) = _; rw [h2, h3, h4, h5, h6]
theorem RoundTrip.slt (d : BitVec 5) (a : BitVec 5) (b : BitVec 5) (m : Bool) (n : Bool) : RoundTrip.Statement (.slt d a b m n) := by
  refine roundTrip_of fun wf N hN => ?_
  obtain ⟨hlt, h0, h1, h2, h3, h4, h5, h6⟩ := shape5 (n := N) (q := 1) (k0 := 36) d a b m n hN rfl (by decide) (by decide)
  refine ⟨hlt, fun word hw => ?_⟩
  rw [decodeRaw, hw, h0]; show decAlu N = _; rw [decAlu, h1]; show some (Instr.slt (bf N 21 5) (bf N 16 5) (bf N 11 5) (bt N 10) (bt N 9), 0) = _; rw [h2, h3, h4, h5, h6]
theorem RoundTrip.sltn (d : BitVec 5) (a : BitVec 5) (b : BitVec 5) (m : Bool) (n : Bool) : RoundTrip.Statement (.sltn d a b m n) := by
  refine roundTrip_of fun wf N hN => ?_
  obtain ⟨hlt, h0, h1, h2, h3, h4, h5, h6⟩ := shape5 (n := N) (q := 1) (k0 := 37) d a b m n hN rfl (by decide) (by decide)
  refine ⟨hlt, fun word hw => ?_⟩
  rw [decodeRaw, hw, h0]; show decAlu N = _; rw [decAlu, h1]; show some (Instr.sltn (bf N 21 5) (bf N 16 5) (bf N 11 5) (bt N 10) (bt N 9), 0) = _; rw [h2, h3, h4, h5, h6]
theorem RoundTrip.seq (d : BitVec 5) (a : BitVec 5) (b : BitVec 5) (m : Bool) (n : Bool) : RoundTrip.Statement (.seq d a b m n) := by
  refine roundTrip_of fun wf N hN => ?_
  obtain ⟨hlt, h0, h1, h2, h3, h4, h5, h6⟩ := shape5 (n := N) (q := 1) (k0 := 38) d a b m n hN rfl (by decide) (by decide)
  refine ⟨hlt, fun word hw => ?_⟩
  rw [decodeRaw, hw, h0]; show decAlu N = _; rw [decAlu, h1]; show some (Instr.seq (bf N 21 5) (bf N 16 5) (bf N 11 5) (bt N 10) (bt N 9), 0) = _; rw [h2, h3, h4, h5, h6]
theorem RoundTrip.sne (d : BitVec 5) (a : BitVec 5) (b : BitVec 5) (m : Bool) (n : Bool) : RoundTrip.Statement (.sne d a b m n) := by
  refine roundTrip_of fun wf N hN => ?_
  obtain ⟨hlt, h0, h1, h2, h3, h4, h5, h6⟩ := shape5 (n := N) (q := 1) (k0 := 39) d a b m n hN rfl (by decide) (by decide)
  refine ⟨hlt, fun word hw => ?_⟩
  rw [decodeRaw, hw, h0]; show decAlu N = _; rw [decAlu, h1]; show some (Instr.sne (bf N 21 5) (bf N 16 5) (bf N 11 5) (bt N 10) (bt N 9), 0) = _; rw [h2, h3, h4, h5, h6]
theorem RoundTrip.sel (d : BitVec 5) (a : BitVec 5) (b : BitVec 5) (m : Bool) (n : Bool) : RoundTrip.Statement (.sel d a b m n) := by
  refine roundTrip_of fun wf N hN => ?_
  obtain ⟨hlt, h0, h1, h2, h3, h4, h5, h6⟩ := shape5 (n := N) (q := 1) (k0 := 40) d a b m n hN rfl (by decide) (by decide)
  refine ⟨hlt, fun word hw => ?_⟩
  rw [decodeRaw, hw, h0]; show decAlu N = _; rw [decAlu, h1]; show some (Instr.sel (bf N 21 5) (bf N 16 5) (bf N 11 5) (bt N 10) (bt N 9), 0) = _; rw [h2, h3, h4, h5, h6]
theorem RoundTrip.clz (d : BitVec 5) (a : BitVec 5) (m : Bool) : RoundTrip.Statement (.clz d a m) := by
  refine roundTrip_of fun wf N hN => ?_
  obtain ⟨hlt, h0, h1, h2, h3, h4, h5⟩ := shape6 (n := N) (q := 1) (k0 := 48) d a m hN rfl (by decide) (by decide)
  refine ⟨hlt, fun word hw => ?_⟩
  rw [decodeRaw, hw, h0]; show decAlu N = _; rw [decAlu, h1]; show some (Instr.clz (bf N 21 5) (bf N 16 5) (bt N 10), zf N 9 1 + zf N 11 5) = _; rw [h2, h3, h4, h5]
theorem RoundTrip.ctz (d : BitVec 5) (a : BitVec 5) (m : Bool) : RoundTrip.Statement (.ctz d a m) := by
  refine roundTrip_of fun wf N hN => ?_
  obtain ⟨hlt, h0, h1, h2, h3, h4, h5⟩ := shape6 (n := N) (q := 1) (k0 := 49) d a m hN rfl (by decide) (by decide)
  refine ⟨hlt, fun word hw => ?_⟩
  rw [decodeRaw, hw, h0]; show decAlu N = _; rw [decAlu, h1]; show some (Instr.ctz (bf N 21 5) (bf N 16 5) (bt N 10), zf N 9 1 + zf N 11 5) = _; rw [h2, h3, h4, h5]
theorem RoundTrip.popc (d : BitVec 5) (a : BitVec 5) (m : Bool) : RoundTrip.Statement (.popc d a m) := by
  refine roundTrip_of fun wf N hN => ?_
  obtain ⟨hlt, h0, h1, h2, h3, h4, h5⟩ := shape6 (n := N) (q := 1) (k0 := 50) d a m hN rfl (by decide) (by decide)
  refine ⟨hlt, fun word hw => ?_⟩
  rw [decodeRaw, hw, h0]; show decAlu N = _; rw [decAlu, h1]; show some (Instr.popc (bf N 21 5) (bf N 16 5) (bt N 10), zf N 9 1 + zf N 11 5) = _; rw [h2, h3, h4, h5]
theorem RoundTrip.brev (d : BitVec 5) (a : BitVec 5) (m : Bool) : RoundTrip.Statement (.brev d a m) := by
  refine roundTrip_of fun wf N hN => ?_
  obtain ⟨hlt, h0, h1, h2, h3, h4, h5⟩ := shape6 (n := N) (q := 1) (k0 := 51) d a m hN rfl (by decide) (by decide)
  refine ⟨hlt, fun word hw => ?_⟩
  rw [decodeRaw, hw, h0]; show decAlu N = _; rw [decAlu, h1]; show some (Instr.brev (bf N 21 5) (bf N 16 5) (bt N 10), zf N 9 1 + zf N 11 5) = _; rw [h2, h3, h4, h5]
theorem RoundTrip.bswp (d : BitVec 5) (a : BitVec 5) (m : Bool) : RoundTrip.Statement (.bswp d a m) := by
  refine roundTrip_of fun wf N hN => ?_
  obtain ⟨hlt, h0, h1, h2, h3, h4, h5⟩ := shape6 (n := N) (q := 1) (k0 := 52) d a m hN rfl (by decide) (by decide)
  refine ⟨hlt, fun word hw => ?_⟩
  rw [decodeRaw, hw, h0]; show decAlu N = _; rw [decAlu, h1]; show some (Instr.bswp (bf N 21 5) (bf N 16 5) (bt N 10), zf N 9 1 + zf N 11 5) = _; rw [h2, h3, h4, h5]
theorem RoundTrip.shadd (d : BitVec 5) (a : BitVec 5) (b : BitVec 5) (m : Bool) (n : Bool) (k : BitVec 2) : RoundTrip.Statement (.shadd d a b m n k) := by
  refine roundTrip_of fun wf N hN => ?_
  obtain ⟨hlt, h0, h1, h2, h3, h4, h5, h6, h7⟩ := shape7 (n := N) (q := 1) (k0 := 14) d a b m n k hN rfl (by decide) (by decide)
  have hk := k.isLt
  have hs : N % 512 = 56 + k.toNat := by have hE := (show N = 0x4000038 + d.toNat * 2097152 + a.toNat * 65536 + b.toNat * 2048 + m.toNat * 1024 + n.toNat * 512 + k.toNat from hN); omega
  have hs' : N % 512 = 56 ∨ N % 512 = 57 ∨ N % 512 = 58 ∨ N % 512 = 59 := by omega
  refine ⟨hlt, fun word hw => ?_⟩
  rw [decodeRaw, hw, h0]; show decAlu N = _; rcases hs' with hs | hs | hs | hs <;> rw [decAlu, hs] <;> show some (Instr.shadd (bf N 21 5) (bf N 16 5) (bf N 11 5) (bt N 10) (bt N 9) (bf N 0 2), 0) = _ <;> rw [h2, h3, h4, h5, h6, h7]
theorem RoundTrip.addi (d : BitVec 5) (a : BitVec 5) (m : Bool) (i : BitVec 15) : RoundTrip.Statement (.addi d a m i) := by
  refine roundTrip_of fun wf N hN => ?_
  obtain ⟨hlt, h0, h1, h2, h3, h4⟩ := shape8 (n := N) (q := 2) d a m i hN rfl (by decide)
  refine ⟨hlt, fun word hw => ?_⟩
  rw [decodeRaw, hw, h0]; show some (Instr.addi (bf N 21 5) (bf N 16 5) (bt N 15) (bf N 0 15), 0) = _; rw [h1, h2, h3, h4]
theorem RoundTrip.andi (d : BitVec 5) (a : BitVec 5) (m : Bool) (i : BitVec 15) : RoundTrip.Statement (.andi d a m i) := by
  refine roundTrip_of fun wf N hN => ?_
  obtain ⟨hlt, h0, h1, h2, h3, h4⟩ := shape8 (n := N) (q := 3) d a m i hN rfl (by decide)
  refine ⟨hlt, fun word hw => ?_⟩
  rw [decodeRaw, hw, h0]; show some (Instr.andi (bf N 21 5) (bf N 16 5) (bt N 15) (bf N 0 15), 0) = _; rw [h1, h2, h3, h4]
theorem RoundTrip.ori (d : BitVec 5) (a : BitVec 5) (m : Bool) (i : BitVec 15) : RoundTrip.Statement (.ori d a m i) := by
  refine roundTrip_of fun wf N hN => ?_
  obtain ⟨hlt, h0, h1, h2, h3, h4⟩ := shape8 (n := N) (q := 4) d a m i hN rfl (by decide)
  refine ⟨hlt, fun word hw => ?_⟩
  rw [decodeRaw, hw, h0]; show some (Instr.ori (bf N 21 5) (bf N 16 5) (bt N 15) (bf N 0 15), 0) = _; rw [h1, h2, h3, h4]
theorem RoundTrip.xori (d : BitVec 5) (a : BitVec 5) (m : Bool) (i : BitVec 15) : RoundTrip.Statement (.xori d a m i) := by
  refine roundTrip_of fun wf N hN => ?_
  obtain ⟨hlt, h0, h1, h2, h3, h4⟩ := shape8 (n := N) (q := 5) d a m i hN rfl (by decide)
  refine ⟨hlt, fun word hw => ?_⟩
  rw [decodeRaw, hw, h0]; show some (Instr.xori (bf N 21 5) (bf N 16 5) (bt N 15) (bf N 0 15), 0) = _; rw [h1, h2, h3, h4]
theorem RoundTrip.slti (d : BitVec 5) (a : BitVec 5) (m : Bool) (i : BitVec 15) : RoundTrip.Statement (.slti d a m i) := by
  refine roundTrip_of fun wf N hN => ?_
  obtain ⟨hlt, h0, h1, h2, h3, h4⟩ := shape8 (n := N) (q := 6) d a m i hN rfl (by decide)
  refine ⟨hlt, fun word hw => ?_⟩
  rw [decodeRaw, hw, h0]; show some (Instr.slti (bf N 21 5) (bf N 16 5) (bt N 15) (bf N 0 15), 0) = _; rw [h1, h2, h3, h4]
theorem RoundTrip.seqi (d : BitVec 5) (a : BitVec 5) (m : Bool) (i : BitVec 15) : RoundTrip.Statement (.seqi d a m i) := by
  refine roundTrip_of fun wf N hN => ?_
  obtain ⟨hlt, h0, h1, h2, h3, h4⟩ := shape8 (n := N) (q := 7) d a m i hN rfl (by decide)
  refine ⟨hlt, fun word hw => ?_⟩
  rw [decodeRaw, hw, h0]; show some (Instr.seqi (bf N 21 5) (bf N 16 5) (bt N 15) (bf N 0 15), 0) = _; rw [h1, h2, h3, h4]
theorem RoundTrip.shli (d : BitVec 5) (a : BitVec 5) (m : Bool) (s : BitVec 6) : RoundTrip.Statement (.shli d a m s) := by
  refine roundTrip_of fun wf N hN => ?_
  obtain ⟨hlt, h0, h1, h2, h3, h4, h5, h6⟩ := shape9 (n := N) (q := 8) (k0 := 0) d a m s hN rfl (by decide) (by decide)
  refine ⟨hlt, fun word hw => ?_⟩
  rw [decodeRaw, hw, h0]; show decShi N = _; rw [decShi, h1]; show some (Instr.shli (bf N 21 5) (bf N 16 5) (bt N 15) (bf N 0 6), zf N 6 7) = _; rw [h2, h3, h4, h5, h6]
theorem RoundTrip.shrli (d : BitVec 5) (a : BitVec 5) (m : Bool) (s : BitVec 6) : RoundTrip.Statement (.shrli d a m s) := by
  refine roundTrip_of fun wf N hN => ?_
  obtain ⟨hlt, h0, h1, h2, h3, h4, h5, h6⟩ := shape9 (n := N) (q := 8) (k0 := 1) d a m s hN rfl (by decide) (by decide)
  refine ⟨hlt, fun word hw => ?_⟩
  rw [decodeRaw, hw, h0]; show decShi N = _; rw [decShi, h1]; show some (Instr.shrli (bf N 21 5) (bf N 16 5) (bt N 15) (bf N 0 6), zf N 6 7) = _; rw [h2, h3, h4, h5, h6]
theorem RoundTrip.shrai (d : BitVec 5) (a : BitVec 5) (m : Bool) (s : BitVec 6) : RoundTrip.Statement (.shrai d a m s) := by
  refine roundTrip_of fun wf N hN => ?_
  obtain ⟨hlt, h0, h1, h2, h3, h4, h5, h6⟩ := shape9 (n := N) (q := 8) (k0 := 2) d a m s hN rfl (by decide) (by decide)
  refine ⟨hlt, fun word hw => ?_⟩
  rw [decodeRaw, hw, h0]; show decShi N = _; rw [decShi, h1]; show some (Instr.shrai (bf N 21 5) (bf N 16 5) (bt N 15) (bf N 0 6), zf N 6 7) = _; rw [h2, h3, h4, h5, h6]
theorem RoundTrip.rotli (d : BitVec 5) (a : BitVec 5) (m : Bool) (s : BitVec 6) : RoundTrip.Statement (.rotli d a m s) := by
  refine roundTrip_of fun wf N hN => ?_
  obtain ⟨hlt, h0, h1, h2, h3, h4, h5, h6⟩ := shape9 (n := N) (q := 8) (k0 := 3) d a m s hN rfl (by decide) (by decide)
  refine ⟨hlt, fun word hw => ?_⟩
  rw [decodeRaw, hw, h0]; show decShi N = _; rw [decShi, h1]; show some (Instr.rotli (bf N 21 5) (bf N 16 5) (bt N 15) (bf N 0 6), zf N 6 7) = _; rw [h2, h3, h4, h5, h6]
theorem RoundTrip.li (d : BitVec 5) (i : BitVec 21) : RoundTrip.Statement (.li d i) := by
  refine roundTrip_of fun wf N hN => ?_
  obtain ⟨hlt, h0, h1, h2⟩ := shape10 (n := N) (q := 9) d i hN rfl (by decide)
  refine ⟨hlt, fun word hw => ?_⟩
  rw [decodeRaw, hw, h0]; show some (Instr.li (bf N 21 5) (bf N 0 21), 0) = _; rw [h1, h2]
theorem RoundTrip.lih (d : BitVec 5) (h : BitVec 2) (v : BitVec 16) : RoundTrip.Statement (.lih d h v) := by
  refine roundTrip_of fun wf N hN => ?_
  obtain ⟨hlt, h0, h1, h2, h3, h4⟩ := shape11 (n := N) (q := 10) d h v hN rfl (by decide)
  refine ⟨hlt, fun word hw => ?_⟩
  rw [decodeRaw, hw, h0]; show some (Instr.lih (bf N 21 5) (bf N 16 2) (bf N 0 16), zf N 18 3) = _; rw [h1, h2, h3, h4]
theorem RoundTrip.exts (d : BitVec 5) (a : BitVec 5) (m : Bool) (p : BitVec 6) (w : BitVec 6) : RoundTrip.Statement (.exts d a m p w) := by
  refine roundTrip_of fun wf N hN => ?_
  obtain ⟨hlt, h0, h1, h2, h3, h4, h5, h6, h7⟩ := shape12 (n := N) (q := 11) (k0 := 0) d a m p w hN rfl (by decide) (by decide)
  refine ⟨hlt, fun word hw => ?_⟩
  rw [decodeRaw, hw, h0]; show decBf N = _; rw [decBf, h1]; show some (Instr.exts (bf N 21 5) (bf N 16 5) (bt N 15) (bf N 7 6) (bf N 1 6), zf N 0 1) = _; rw [h2, h3, h4, h5, h6, h7]
theorem RoundTrip.extz (d : BitVec 5) (a : BitVec 5) (m : Bool) (p : BitVec 6) (w : BitVec 6) : RoundTrip.Statement (.extz d a m p w) := by
  refine roundTrip_of fun wf N hN => ?_
  obtain ⟨hlt, h0, h1, h2, h3, h4, h5, h6, h7⟩ := shape12 (n := N) (q := 11) (k0 := 1) d a m p w hN rfl (by decide) (by decide)
  refine ⟨hlt, fun word hw => ?_⟩
  rw [decodeRaw, hw, h0]; show decBf N = _; rw [decBf, h1]; show some (Instr.extz (bf N 21 5) (bf N 16 5) (bt N 15) (bf N 7 6) (bf N 1 6), zf N 0 1) = _; rw [h2, h3, h4, h5, h6, h7]
theorem RoundTrip.ins (d : BitVec 5) (a : BitVec 5) (m : Bool) (p : BitVec 6) (w : BitVec 6) : RoundTrip.Statement (.ins d a m p w) := by
  refine roundTrip_of fun wf N hN => ?_
  obtain ⟨hlt, h0, h1, h2, h3, h4, h5, h6, h7⟩ := shape12 (n := N) (q := 11) (k0 := 2) d a m p w hN rfl (by decide) (by decide)
  refine ⟨hlt, fun word hw => ?_⟩
  rw [decodeRaw, hw, h0]; show decBf N = _; rw [decBf, h1]; show some (Instr.ins (bf N 21 5) (bf N 16 5) (bt N 15) (bf N 7 6) (bf N 1 6), zf N 0 1) = _; rw [h2, h3, h4, h5, h6, h7]
theorem RoundTrip.beq (a : BitVec 5) (b : BitVec 5) (m : Bool) (o : BitVec 15) : RoundTrip.Statement (.beq a b m o) := by
  refine roundTrip_of fun wf N hN => ?_
  obtain ⟨hlt, h0, h1, h2, h3, h4⟩ := shape8 (n := N) (q := 12) a b m o hN rfl (by decide)
  refine ⟨hlt, fun word hw => ?_⟩
  rw [decodeRaw, hw, h0]; show some (Instr.beq (bf N 21 5) (bf N 16 5) (bt N 15) (bf N 0 15), 0) = _; rw [h1, h2, h3, h4]
theorem RoundTrip.bne (a : BitVec 5) (b : BitVec 5) (m : Bool) (o : BitVec 15) : RoundTrip.Statement (.bne a b m o) := by
  refine roundTrip_of fun wf N hN => ?_
  obtain ⟨hlt, h0, h1, h2, h3, h4⟩ := shape8 (n := N) (q := 13) a b m o hN rfl (by decide)
  refine ⟨hlt, fun word hw => ?_⟩
  rw [decodeRaw, hw, h0]; show some (Instr.bne (bf N 21 5) (bf N 16 5) (bt N 15) (bf N 0 15), 0) = _; rw [h1, h2, h3, h4]
theorem RoundTrip.blt (a : BitVec 5) (b : BitVec 5) (m : Bool) (o : BitVec 15) : RoundTrip.Statement (.blt a b m o) := by
  refine roundTrip_of fun wf N hN => ?_
  obtain ⟨hlt, h0, h1, h2, h3, h4⟩ := shape8 (n := N) (q := 14) a b m o hN rfl (by decide)
  refine ⟨hlt, fun word hw => ?_⟩
  rw [decodeRaw, hw, h0]; show some (Instr.blt (bf N 21 5) (bf N 16 5) (bt N 15) (bf N 0 15), 0) = _; rw [h1, h2, h3, h4]
theorem RoundTrip.bge (a : BitVec 5) (b : BitVec 5) (m : Bool) (o : BitVec 15) : RoundTrip.Statement (.bge a b m o) := by
  refine roundTrip_of fun wf N hN => ?_
  obtain ⟨hlt, h0, h1, h2, h3, h4⟩ := shape8 (n := N) (q := 15) a b m o hN rfl (by decide)
  refine ⟨hlt, fun word hw => ?_⟩
  rw [decodeRaw, hw, h0]; show some (Instr.bge (bf N 21 5) (bf N 16 5) (bt N 15) (bf N 0 15), 0) = _; rw [h1, h2, h3, h4]
theorem RoundTrip.bltn (a : BitVec 5) (b : BitVec 5) (m : Bool) (o : BitVec 15) : RoundTrip.Statement (.bltn a b m o) := by
  refine roundTrip_of fun wf N hN => ?_
  obtain ⟨hlt, h0, h1, h2, h3, h4⟩ := shape8 (n := N) (q := 16) a b m o hN rfl (by decide)
  refine ⟨hlt, fun word hw => ?_⟩
  rw [decodeRaw, hw, h0]; show some (Instr.bltn (bf N 21 5) (bf N 16 5) (bt N 15) (bf N 0 15), 0) = _; rw [h1, h2, h3, h4]
theorem RoundTrip.bgen (a : BitVec 5) (b : BitVec 5) (m : Bool) (o : BitVec 15) : RoundTrip.Statement (.bgen a b m o) := by
  refine roundTrip_of fun wf N hN => ?_
  obtain ⟨hlt, h0, h1, h2, h3, h4⟩ := shape8 (n := N) (q := 17) a b m o hN rfl (by decide)
  refine ⟨hlt, fun word hw => ?_⟩
  rw [decodeRaw, hw, h0]; show some (Instr.bgen (bf N 21 5) (bf N 16 5) (bt N 15) (bf N 0 15), 0) = _; rw [h1, h2, h3, h4]
theorem RoundTrip.jal (o : BitVec 26) : RoundTrip.Statement (.jal o) := by
  refine roundTrip_of fun wf N hN => ?_
  obtain ⟨hlt, h0, h1⟩ := shape13 (n := N) (q := 18) o hN rfl (by decide)
  refine ⟨hlt, fun word hw => ?_⟩
  rw [decodeRaw, hw, h0]; show some (Instr.jal (bf N 0 26), 0) = _; rw [h1]
theorem RoundTrip.jalr (d : BitVec 5) (a : BitVec 5) (m : Bool) (i : BitVec 15) : RoundTrip.Statement (.jalr d a m i) := by
  refine roundTrip_of fun wf N hN => ?_
  obtain ⟨hlt, h0, h1, h2, h3, h4⟩ := shape8 (n := N) (q := 19) d a m i hN rfl (by decide)
  refine ⟨hlt, fun word hw => ?_⟩
  rw [decodeRaw, hw, h0]; show some (Instr.jalr (bf N 21 5) (bf N 16 5) (bt N 15) (bf N 0 15), 0) = _; rw [h1, h2, h3, h4]
theorem RoundTrip.bemp (a : BitVec 5) (f : BitVec 2) (s : Bool) (o : BitVec 15) : RoundTrip.Statement (.bemp a f s o) := by
  refine roundTrip_of fun wf N hN => ?_
  obtain ⟨hlt, h0, h1, h2, h3, h4, h5⟩ := shape14 (n := N) (q := 20) a f s o hN rfl (by decide)
  refine ⟨hlt, fun word hw => ?_⟩
  rw [decodeRaw, hw, h0]; show some (Instr.bemp (bf N 21 5) (bf N 17 2) (bt N 16) (bf N 0 15), zf N 15 1 + zf N 19 2) = _; rw [h1, h2, h3, h4, h5]
theorem RoundTrip.fadd (d : BitVec 5) (a : BitVec 5) (b : BitVec 5) (m : Bool) (n : Bool) (r : BitVec 3) (f : Bool) : RoundTrip.Statement (.fadd d a b m n r f) := by
  refine roundTrip_of fun wf N hN => ?_
  obtain ⟨hlt, h0, h1, h2, h3, h4, h5, h6, h7, h8, h9⟩ := shape15 (n := N) (q := 21) (k0 := 0) d a b m n r f hN rfl (by decide) (by decide)
  refine ⟨hlt, fun word hw => ?_⟩
  rw [decodeRaw, hw, h0]; show decFps N = _; rw [decFps, h1]; show some (Instr.fadd (bf N 21 5) (bf N 16 5) (bf N 11 5) (bt N 10) (bt N 9) (bf N 5 3) (bt N 4), zf N 8 1) = _; rw [h2, h3, h4, h5, h6, h7, h8, h9]
theorem RoundTrip.fsub (d : BitVec 5) (a : BitVec 5) (b : BitVec 5) (m : Bool) (n : Bool) (r : BitVec 3) (f : Bool) : RoundTrip.Statement (.fsub d a b m n r f) := by
  refine roundTrip_of fun wf N hN => ?_
  obtain ⟨hlt, h0, h1, h2, h3, h4, h5, h6, h7, h8, h9⟩ := shape15 (n := N) (q := 21) (k0 := 1) d a b m n r f hN rfl (by decide) (by decide)
  refine ⟨hlt, fun word hw => ?_⟩
  rw [decodeRaw, hw, h0]; show decFps N = _; rw [decFps, h1]; show some (Instr.fsub (bf N 21 5) (bf N 16 5) (bf N 11 5) (bt N 10) (bt N 9) (bf N 5 3) (bt N 4), zf N 8 1) = _; rw [h2, h3, h4, h5, h6, h7, h8, h9]
theorem RoundTrip.fmul (d : BitVec 5) (a : BitVec 5) (b : BitVec 5) (m : Bool) (n : Bool) (r : BitVec 3) (f : Bool) : RoundTrip.Statement (.fmul d a b m n r f) := by
  refine roundTrip_of fun wf N hN => ?_
  obtain ⟨hlt, h0, h1, h2, h3, h4, h5, h6, h7, h8, h9⟩ := shape15 (n := N) (q := 21) (k0 := 2) d a b m n r f hN rfl (by decide) (by decide)
  refine ⟨hlt, fun word hw => ?_⟩
  rw [decodeRaw, hw, h0]; show decFps N = _; rw [decFps, h1]; show some (Instr.fmul (bf N 21 5) (bf N 16 5) (bf N 11 5) (bt N 10) (bt N 9) (bf N 5 3) (bt N 4), zf N 8 1) = _; rw [h2, h3, h4, h5, h6, h7, h8, h9]
theorem RoundTrip.fdiv (d : BitVec 5) (a : BitVec 5) (b : BitVec 5) (m : Bool) (n : Bool) (r : BitVec 3) (f : Bool) : RoundTrip.Statement (.fdiv d a b m n r f) := by
  refine roundTrip_of fun wf N hN => ?_
  obtain ⟨hlt, h0, h1, h2, h3, h4, h5, h6, h7, h8, h9⟩ := shape15 (n := N) (q := 21) (k0 := 3) d a b m n r f hN rfl (by decide) (by decide)
  refine ⟨hlt, fun word hw => ?_⟩
  rw [decodeRaw, hw, h0]; show decFps N = _; rw [decFps, h1]; show some (Instr.fdiv (bf N 21 5) (bf N 16 5) (bf N 11 5) (bt N 10) (bt N 9) (bf N 5 3) (bt N 4), zf N 8 1) = _; rw [h2, h3, h4, h5, h6, h7, h8, h9]
theorem RoundTrip.fsqrt (d : BitVec 5) (a : BitVec 5) (m : Bool) (r : BitVec 3) (f : Bool) : RoundTrip.Statement (.fsqrt d a m r f) := by
  refine roundTrip_of fun wf N hN => ?_
  obtain ⟨hlt, h0, h1, h2, h3, h4, h5, h6, h7⟩ := shape16 (n := N) (q := 21) (k0 := 4) d a m r f hN rfl (by decide) (by decide)
  refine ⟨hlt, fun word hw => ?_⟩
  rw [decodeRaw, hw, h0]; show decFps N = _; rw [decFps, h1]; show some (Instr.fsqrt (bf N 21 5) (bf N 16 5) (bt N 10) (bf N 5 3) (bt N 4), zf N 8 2 + zf N 11 5) = _; rw [h2, h3, h4, h5, h6, h7]
theorem RoundTrip.fmin (d : BitVec 5) (a : BitVec 5) (b : BitVec 5) (m : Bool) (n : Bool) (f : Bool) : RoundTrip.Statement (.fmin d a b m n f) := by
  refine roundTrip_of fun wf N hN => ?_
  obtain ⟨hlt, h0, h1, h2, h3, h4, h5, h6, h7, h8⟩ := shape17 (n := N) (q := 21) (k0 := 5) d a b m n f hN rfl (by decide) (by decide)
  refine ⟨hlt, fun word hw => ?_⟩
  rw [decodeRaw, hw, h0]; show decFps N = _; rw [decFps, h1]; show some (Instr.fmin (bf N 21 5) (bf N 16 5) (bf N 11 5) (bt N 10) (bt N 9) (bt N 4), zf N 5 4) = _; rw [h2, h3, h4, h5, h6, h7, h8]
theorem RoundTrip.fmax (d : BitVec 5) (a : BitVec 5) (b : BitVec 5) (m : Bool) (n : Bool) (f : Bool) : RoundTrip.Statement (.fmax d a b m n f) := by
  refine roundTrip_of fun wf N hN => ?_
  obtain ⟨hlt, h0, h1, h2, h3, h4, h5, h6, h7, h8⟩ := shape17 (n := N) (q := 21) (k0 := 6) d a b m n f hN rfl (by decide) (by decide)
  refine ⟨hlt, fun word hw => ?_⟩
  rw [decodeRaw, hw, h0]; show decFps N = _; rw [decFps, h1]; show some (Instr.fmax (bf N 21 5) (bf N 16 5) (bf N 11 5) (bt N 10) (bt N 9) (bt N 4), zf N 5 4) = _; rw [h2, h3, h4, h5, h6, h7, h8]
theorem RoundTrip.feq (d : BitVec 5) (a : BitVec 5) (b : BitVec 5) (m : Bool) (n : Bool) (f : Bool) : RoundTrip.Statement (.feq d a b m n f) := by
  refine roundTrip_of fun wf N hN => ?_
  obtain ⟨hlt, h0, h1, h2, h3, h4, h5, h6, h7, h8⟩ := shape17 (n := N) (q := 21) (k0 := 7) d a b m n f hN rfl (by decide) (by decide)
  refine ⟨hlt, fun word hw => ?_⟩
  rw [decodeRaw, hw, h0]; show decFps N = _; rw [decFps, h1]; show some (Instr.feq (bf N 21 5) (bf N 16 5) (bf N 11 5) (bt N 10) (bt N 9) (bt N 4), zf N 5 4) = _; rw [h2, h3, h4, h5, h6, h7, h8]
theorem RoundTrip.flt (d : BitVec 5) (a : BitVec 5) (b : BitVec 5) (m : Bool) (n : Bool) (f : Bool) : RoundTrip.Statement (.flt d a b m n f) := by
  refine roundTrip_of fun wf N hN => ?_
  obtain ⟨hlt, h0, h1, h2, h3, h4, h5, h6, h7, h8⟩ := shape17 (n := N) (q := 21) (k0 := 8) d a b m n f hN rfl (by decide) (by decide)
  refine ⟨hlt, fun word hw => ?_⟩
  rw [decodeRaw, hw, h0]; show decFps N = _; rw [decFps, h1]; show some (Instr.flt (bf N 21 5) (bf N 16 5) (bf N 11 5) (bt N 10) (bt N 9) (bt N 4), zf N 5 4) = _; rw [h2, h3, h4, h5, h6, h7, h8]
theorem RoundTrip.fle (d : BitVec 5) (a : BitVec 5) (b : BitVec 5) (m : Bool) (n : Bool) (f : Bool) : RoundTrip.Statement (.fle d a b m n f) := by
  refine roundTrip_of fun wf N hN => ?_
  obtain ⟨hlt, h0, h1, h2, h3, h4, h5, h6, h7, h8⟩ := shape17 (n := N) (q := 21) (k0 := 9) d a b m n f hN rfl (by decide) (by decide)
  refine ⟨hlt, fun word hw => ?_⟩
  rw [decodeRaw, hw, h0]; show decFps N = _; rw [decFps, h1]; show some (Instr.fle (bf N 21 5) (bf N 16 5) (bf N 11 5) (bt N 10) (bt N 9) (bt N 4), zf N 5 4) = _; rw [h2, h3, h4, h5, h6, h7, h8]
theorem RoundTrip.fcls (d : BitVec 5) (a : BitVec 5) (m : Bool) (f : Bool) : RoundTrip.Statement (.fcls d a m f) := by
  refine roundTrip_of fun wf N hN => ?_
  obtain ⟨hlt, h0, h1, h2, h3, h4, h5, h6⟩ := shape18 (n := N) (q := 21) (k0 := 10) d a m f hN rfl (by decide) (by decide)
  refine ⟨hlt, fun word hw => ?_⟩
  rw [decodeRaw, hw, h0]; show decFps N = _; rw [decFps, h1]; show some (Instr.fcls (bf N 21 5) (bf N 16 5) (bt N 10) (bt N 4), zf N 5 5 + zf N 11 5) = _; rw [h2, h3, h4, h5, h6]
theorem RoundTrip.fsgnCp (d : BitVec 5) (a : BitVec 5) (b : BitVec 5) (m : Bool) (n : Bool) (f : Bool) : RoundTrip.Statement (.fsgnCp d a b m n f) := by
  refine roundTrip_of fun wf N hN => ?_
  obtain ⟨hlt, h0, h1, h2, h3, h4, h5, h6, h7, h8, h9⟩ := shape19 (n := N) (q := 21) (k0 := 11) (k1 := 0) d a b m n f hN rfl (by decide) (by decide) (by decide)
  refine ⟨hlt, fun word hw => ?_⟩
  rw [decodeRaw, hw, h0]; show decFps N = _; rw [decFps, h1, h2]; show some (Instr.fsgnCp (bf N 21 5) (bf N 16 5) (bf N 11 5) (bt N 10) (bt N 9) (bt N 4), zf N 8 1) = _; rw [h3, h4, h5, h6, h7, h8, h9]
theorem RoundTrip.fsgnNeg (d : BitVec 5) (a : BitVec 5) (b : BitVec 5) (m : Bool) (n : Bool) (f : Bool) : RoundTrip.Statement (.fsgnNeg d a b m n f) := by
  refine roundTrip_of fun wf N hN => ?_
  obtain ⟨hlt, h0, h1, h2, h3, h4, h5, h6, h7, h8, h9⟩ := shape19 (n := N) (q := 21) (k0 := 11) (k1 := 1) d a b m n f hN rfl (by decide) (by decide) (by decide)
  refine ⟨hlt, fun word hw => ?_⟩
  rw [decodeRaw, hw, h0]; show decFps N = _; rw [decFps, h1, h2]; show some (Instr.fsgnNeg (bf N 21 5) (bf N 16 5) (bf N 11 5) (bt N 10) (bt N 9) (bt N 4), zf N 8 1) = _; rw [h3, h4, h5, h6, h7, h8, h9]
theorem RoundTrip.fsgnXor (d : BitVec 5) (a : BitVec 5) (b : BitVec 5) (m : Bool) (n : Bool) (f : Bool) : RoundTrip.Statement (.fsgnXor d a b m n f) := by
  refine roundTrip_of fun wf N hN => ?_
  obtain ⟨hlt, h0, h1, h2, h3, h4, h5, h6, h7, h8, h9⟩ := shape19 (n := N) (q := 21) (k0 := 11) (k1 := 2) d a b m n f hN rfl (by decide) (by decide) (by decide)
  refine ⟨hlt, fun word hw => ?_⟩
  rw [decodeRaw, hw, h0]; show decFps N = _; rw [decFps, h1, h2]; show some (Instr.fsgnXor (bf N 21 5) (bf N 16 5) (bf N 11 5) (bt N 10) (bt N 9) (bt N 4), zf N 8 1) = _; rw [h3, h4, h5, h6, h7, h8, h9]
theorem RoundTrip.fcvt (d : BitVec 5) (a : BitVec 5) (c : BitVec 5) (m : Bool) (r : BitVec 3) (f : Bool) : RoundTrip.Statement (.fcvt d a c m r f) := by
  refine roundTrip_of fun wf N hN => ?_
  obtain ⟨hlt, h0, h1, h2, h3, h4, h5, h6, h7, h8⟩ := shape20 (n := N) (q := 21) (k0 := 12) d a c m r f hN rfl (by decide) (by decide)
  refine ⟨hlt, fun word hw => ?_⟩
  rw [decodeRaw, hw, h0]; show decFps N = _; rw [decFps, h1]; show some (Instr.fcvt (bf N 21 5) (bf N 16 5) (bf N 11 5) (bt N 10) (bf N 5 3) (bt N 4), zf N 8 2) = _; rw [h2, h3, h4, h5, h6, h7, h8]
theorem RoundTrip.fma (d : BitVec 5) (a : BitVec 5) (b : BitVec 5) (m : Bool) (n : Bool) (r : BitVec 3) (f : Bool) : RoundTrip.Statement (.fma d a b m n r f) := by
  refine roundTrip_of fun wf N hN => ?_
  obtain ⟨hlt, h0, h1, h2, h3, h4, h5, h6, h7, h8, h9⟩ := shape21 (n := N) (q := 22) (k0 := 0) d a b m n r f hN rfl (by decide) (by decide)
  refine ⟨hlt, fun word hw => ?_⟩
  rw [decodeRaw, hw, h0]; show decFmas N = _; rw [decFmas, h1]; show some (Instr.fma (bf N 21 5) (bf N 16 5) (bf N 11 5) (bt N 10) (bt N 9) (bf N 5 3) (bt N 4), zf N 2 2 + zf N 8 1) = _; rw [h2, h3, h4, h5, h6, h7, h8, h9]
theorem RoundTrip.fms (d : BitVec 5) (a : BitVec 5) (b : BitVec 5) (m : Bool) (n : Bool) (r : BitVec 3) (f : Bool) : RoundTrip.Statement (.fms d a b m n r f) := by
  refine roundTrip_of fun wf N hN => ?_
  obtain ⟨hlt, h0, h1, h2, h3, h4, h5, h6, h7, h8, h9⟩ := shape21 (n := N) (q := 22) (k0 := 1) d a b m n r f hN rfl (by decide) (by decide)
  refine ⟨hlt, fun word hw => ?_⟩
  rw [decodeRaw, hw, h0]; show decFmas N = _; rw [decFmas, h1]; show some (Instr.fms (bf N 21 5) (bf N 16 5) (bf N 11 5) (bt N 10) (bt N 9) (bf N 5 3) (bt N 4), zf N 2 2 + zf N 8 1) = _; rw [h2, h3, h4, h5, h6, h7, h8, h9]
theorem RoundTrip.fnma (d : BitVec 5) (a : BitVec 5) (b : BitVec 5) (m : Bool) (n : Bool) (r : BitVec 3) (f : Bool) : RoundTrip.Statement (.fnma d a b m n r f) := by
  refine roundTrip_of fun wf N hN => ?_
  obtain ⟨hlt, h0, h1, h2, h3, h4, h5, h6, h7, h8, h9⟩ := shape21 (n := N) (q := 22) (k0 := 2) d a b m n r f hN rfl (by decide) (by decide)
  refine ⟨hlt, fun word hw => ?_⟩
  rw [decodeRaw, hw, h0]; show decFmas N = _; rw [decFmas, h1]; show some (Instr.fnma (bf N 21 5) (bf N 16 5) (bf N 11 5) (bt N 10) (bt N 9) (bf N 5 3) (bt N 4), zf N 2 2 + zf N 8 1) = _; rw [h2, h3, h4, h5, h6, h7, h8, h9]
theorem RoundTrip.fnms (d : BitVec 5) (a : BitVec 5) (b : BitVec 5) (m : Bool) (n : Bool) (r : BitVec 3) (f : Bool) : RoundTrip.Statement (.fnms d a b m n r f) := by
  refine roundTrip_of fun wf N hN => ?_
  obtain ⟨hlt, h0, h1, h2, h3, h4, h5, h6, h7, h8, h9⟩ := shape21 (n := N) (q := 22) (k0 := 3) d a b m n r f hN rfl (by decide) (by decide)
  refine ⟨hlt, fun word hw => ?_⟩
  rw [decodeRaw, hw, h0]; show decFmas N = _; rw [decFmas, h1]; show some (Instr.fnms (bf N 21 5) (bf N 16 5) (bf N 11 5) (bt N 10) (bt N 9) (bf N 5 3) (bt N 4), zf N 2 2 + zf N 8 1) = _; rw [h2, h3, h4, h5, h6, h7, h8, h9]
theorem RoundTrip.ld (t : BitVec 5) (b : BitVec 5) (m : Bool) (z : BitVec 2) (c : BitVec 3) (o : BitVec 10) : RoundTrip.Statement (.ld t b m z c o) := by
  refine roundTrip_of fun wf N hN => ?_
  obtain ⟨hlt, h0, h1, h2, h3, h4, h5, h6⟩ := shape22 (n := N) (q := 24) t b m z c o hN rfl (by decide)
  refine ⟨hlt, fun word hw => ?_⟩
  rw [decodeRaw, hw, h0]; show some (Instr.ld (bf N 21 5) (bf N 16 5) (bt N 15) (bf N 13 2) (bf N 10 3) (bf N 0 10), 0) = _; rw [h1, h2, h3, h4, h5, h6]
theorem RoundTrip.ldz (t : BitVec 5) (b : BitVec 5) (m : Bool) (z : BitVec 2) (c : BitVec 3) (o : BitVec 10) : RoundTrip.Statement (.ldz t b m z c o) := by
  refine roundTrip_of fun wf N hN => ?_
  obtain ⟨hlt, h0, h1, h2, h3, h4, h5, h6⟩ := shape22 (n := N) (q := 25) t b m z c o hN rfl (by decide)
  refine ⟨hlt, fun word hw => ?_⟩
  rw [decodeRaw, hw, h0]; show some (Instr.ldz (bf N 21 5) (bf N 16 5) (bt N 15) (bf N 13 2) (bf N 10 3) (bf N 0 10), 0) = _; rw [h1, h2, h3, h4, h5, h6]
theorem RoundTrip.st (t : BitVec 5) (b : BitVec 5) (m : Bool) (z : BitVec 2) (c : BitVec 3) (o : BitVec 10) : RoundTrip.Statement (.st t b m z c o) := by
  refine roundTrip_of fun wf N hN => ?_
  obtain ⟨hlt, h0, h1, h2, h3, h4, h5, h6⟩ := shape22 (n := N) (q := 26) t b m z c o hN rfl (by decide)
  refine ⟨hlt, fun word hw => ?_⟩
  rw [decodeRaw, hw, h0]; show some (Instr.st (bf N 21 5) (bf N 16 5) (bt N 15) (bf N 13 2) (bf N 10 3) (bf N 0 10), 0) = _; rw [h1, h2, h3, h4, h5, h6]
theorem RoundTrip.ldt (t : BitVec 5) (b : BitVec 5) (m : Bool) (c : BitVec 3) (o : BitVec 10) : RoundTrip.Statement (.ldt t b m c o) := by
  refine roundTrip_of fun wf N hN => ?_
  obtain ⟨hlt, h0, h1, h2, h3, h4, h5, h6⟩ := shape23 (n := N) (q := 27) (k0 := 3) t b m c o hN rfl (by decide) (by decide)
  refine ⟨hlt, fun word hw => ?_⟩
  rw [decodeRaw, hw, h0]; show some (Instr.ldt (bf N 21 5) (bf N 16 5) (bt N 15) (bf N 10 3) (bf N 0 10), (if N / 8192 % 4 = 3 then 0 else 24576)) = _; rw [if_pos h1, h2, h3, h4, h5, h6]
theorem RoundTrip.ldw (t : BitVec 5) (b : BitVec 5) (m : Bool) (c : BitVec 3) (o : BitVec 10) : RoundTrip.Statement (.ldw t b m c o) := by
  refine roundTrip_of fun wf N hN => ?_
  obtain ⟨hlt, h0, h1, h2, h3, h4, h5, h6⟩ := shape23 (n := N) (q := 28) (k0 := 3) t b m c o hN rfl (by decide) (by decide)
  refine ⟨hlt, fun word hw => ?_⟩
  rw [decodeRaw, hw, h0]; show some (Instr.ldw (bf N 21 5) (bf N 16 5) (bt N 15) (bf N 10 3) (bf N 0 10), (if N / 8192 % 4 = 3 then 0 else 24576)) = _; rw [if_pos h1, h2, h3, h4, h5, h6]
theorem RoundTrip.ste (t : BitVec 5) (b : BitVec 5) (m : Bool) (c : BitVec 3) (o : BitVec 10) : RoundTrip.Statement (.ste t b m c o) := by
  refine roundTrip_of fun wf N hN => ?_
  obtain ⟨hlt, h0, h1, h2, h3, h4, h5, h6⟩ := shape23 (n := N) (q := 29) (k0 := 3) t b m c o hN rfl (by decide) (by decide)
  refine ⟨hlt, fun word hw => ?_⟩
  rw [decodeRaw, hw, h0]; show some (Instr.ste (bf N 21 5) (bf N 16 5) (bt N 15) (bf N 10 3) (bf N 0 10), (if N / 8192 % 4 = 3 then 0 else 24576)) = _; rw [if_pos h1, h2, h3, h4, h5, h6]
theorem RoundTrip.stf (t : BitVec 5) (b : BitVec 5) (m : Bool) (c : BitVec 3) (o : BitVec 10) : RoundTrip.Statement (.stf t b m c o) := by
  refine roundTrip_of fun wf N hN => ?_
  obtain ⟨hlt, h0, h1, h2, h3, h4, h5, h6⟩ := shape23 (n := N) (q := 30) (k0 := 3) t b m c o hN rfl (by decide) (by decide)
  refine ⟨hlt, fun word hw => ?_⟩
  rw [decodeRaw, hw, h0]; show some (Instr.stf (bf N 21 5) (bf N 16 5) (bt N 15) (bf N 10 3) (bf N 0 10), (if N / 8192 % 4 = 3 then 0 else 24576)) = _; rw [if_pos h1, h2, h3, h4, h5, h6]
theorem RoundTrip.gtoa (d : BitVec 5) (a : BitVec 5) (w : BitVec 5) (m : Bool) : RoundTrip.Statement (.gtoa d a w m) := by
  refine roundTrip_of fun wf N hN => ?_
  obtain ⟨hlt, h0, h1, h2, h3, h4, h5, h6⟩ := shape24 (n := N) (q := 31) (k0 := 0) d a w m hN rfl (by decide) (by decide)
  refine ⟨hlt, fun word hw => ?_⟩
  rw [decodeRaw, hw, h0]; show decMemx N = _; rw [decMemx, h1]; show some (Instr.gtoa (bf N 21 5) (bf N 16 5) (bf N 11 5) (bt N 10), zf N 9 1) = _; rw [h2, h3, h4, h5, h6]
theorem RoundTrip.atog (d : BitVec 5) (a : BitVec 5) (w : BitVec 5) (m : Bool) : RoundTrip.Statement (.atog d a w m) := by
  refine roundTrip_of fun wf N hN => ?_
  obtain ⟨hlt, h0, h1, h2, h3, h4, h5, h6⟩ := shape24 (n := N) (q := 31) (k0 := 1) d a w m hN rfl (by decide) (by decide)
  refine ⟨hlt, fun word hw => ?_⟩
  rw [decodeRaw, hw, h0]; show decMemx N = _; rw [decMemx, h1]; show some (Instr.atog (bf N 21 5) (bf N 16 5) (bf N 11 5) (bt N 10), zf N 9 1) = _; rw [h2, h3, h4, h5, h6]
theorem RoundTrip.apq (d : BitVec 5) (a : BitVec 5) (m : Bool) : RoundTrip.Statement (.apq d a m) := by
  refine roundTrip_of fun wf N hN => ?_
  obtain ⟨hlt, h0, h1, h2, h3, h4, h5⟩ := shape6 (n := N) (q := 31) (k0 := 2) d a m hN rfl (by decide) (by decide)
  refine ⟨hlt, fun word hw => ?_⟩
  rw [decodeRaw, hw, h0]; show decMemx N = _; rw [decMemx, h1]; show some (Instr.apq (bf N 21 5) (bf N 16 5) (bt N 10), zf N 9 1 + zf N 11 5) = _; rw [h2, h3, h4, h5]
theorem RoundTrip.plq (d : BitVec 5) (a : BitVec 5) (m : Bool) : RoundTrip.Statement (.plq d a m) := by
  refine roundTrip_of fun wf N hN => ?_
  obtain ⟨hlt, h0, h1, h2, h3, h4, h5, h6⟩ := shape25 (n := N) (q := 31) (k0 := 3) (k1 := 0) d a m hN rfl (by decide) (by decide) (by decide)
  refine ⟨hlt, fun word hw => ?_⟩
  rw [decodeRaw, hw, h0]; show decMemx N = _; rw [decMemx, h1, h2]; show some (Instr.plq (bf N 21 5) (bf N 16 5) (bt N 10), zf N 9 1) = _; rw [h3, h4, h5, h6]
theorem RoundTrip.plqCur (d : BitVec 5) (a : BitVec 5) (m : Bool) : RoundTrip.Statement (.plqCur d a m) := by
  refine roundTrip_of fun wf N hN => ?_
  obtain ⟨hlt, h0, h1, h2, h3, h4, h5, h6⟩ := shape25 (n := N) (q := 31) (k0 := 3) (k1 := 1) d a m hN rfl (by decide) (by decide) (by decide)
  refine ⟨hlt, fun word hw => ?_⟩
  rw [decodeRaw, hw, h0]; show decMemx N = _; rw [decMemx, h1, h2]; show some (Instr.plqCur (bf N 21 5) (bf N 16 5) (bt N 10), zf N 9 1) = _; rw [h3, h4, h5, h6]
theorem RoundTrip.psjInsp (d : BitVec 5) (a : BitVec 5) (s : BitVec 5) (m : Bool) : RoundTrip.Statement (.psjInsp d a s m) := by
  refine roundTrip_of fun wf N hN => ?_
  obtain ⟨hlt, h0, h1, h2, h3, h4, h5, h6⟩ := shape24 (n := N) (q := 31) (k0 := 4) d a s m hN rfl (by decide) (by decide)
  refine ⟨hlt, fun word hw => ?_⟩
  rw [decodeRaw, hw, h0]; show decMemx N = _; rw [decMemx, h1]; show some (Instr.psjInsp (bf N 21 5) (bf N 16 5) (bf N 11 5) (bt N 10), zf N 9 1) = _; rw [h2, h3, h4, h5, h6]
theorem RoundTrip.psjRepost (d : BitVec 5) (a : BitVec 5) (m : Bool) : RoundTrip.Statement (.psjRepost d a m) := by
  refine roundTrip_of fun wf N hN => ?_
  obtain ⟨hlt, h0, h1, h2, h3, h4, h5⟩ := shape6 (n := N) (q := 31) (k0 := 5) d a m hN rfl (by decide) (by decide)
  refine ⟨hlt, fun word hw => ?_⟩
  rw [decodeRaw, hw, h0]; show decMemx N = _; rw [decMemx, h1]; show some (Instr.psjRepost (bf N 21 5) (bf N 16 5) (bt N 10), zf N 9 1 + zf N 11 5) = _; rw [h2, h3, h4, h5]
theorem RoundTrip.psjDiscard (d : BitVec 5) (a : BitVec 5) (m : Bool) : RoundTrip.Statement (.psjDiscard d a m) := by
  refine roundTrip_of fun wf N hN => ?_
  obtain ⟨hlt, h0, h1, h2, h3, h4, h5⟩ := shape6 (n := N) (q := 31) (k0 := 6) d a m hN rfl (by decide) (by decide)
  refine ⟨hlt, fun word hw => ?_⟩
  rw [decodeRaw, hw, h0]; show decMemx N = _; rw [decMemx, h1]; show some (Instr.psjDiscard (bf N 21 5) (bf N 16 5) (bt N 10), zf N 9 1 + zf N 11 5) = _; rw [h2, h3, h4, h5]
theorem RoundTrip.vld (v : BitVec 5) (b : BitVec 5) (m : Bool) (c : BitVec 3) (o : BitVec 10) : RoundTrip.Statement (.vld v b m c o) := by
  refine roundTrip_of fun wf N hN => ?_
  obtain ⟨hlt, h0, h1, h2, h3, h4, h5, h6⟩ := shape23 (n := N) (q := 32) (k0 := 3) v b m c o hN rfl (by decide) (by decide)
  refine ⟨hlt, fun word hw => ?_⟩
  rw [decodeRaw, hw, h0]; show some (Instr.vld (bf N 21 5) (bf N 16 5) (bt N 15) (bf N 10 3) (bf N 0 10), (if N / 8192 % 4 = 3 then 0 else 24576)) = _; rw [if_pos h1, h2, h3, h4, h5, h6]
theorem RoundTrip.vst (v : BitVec 5) (b : BitVec 5) (m : Bool) (c : BitVec 3) (o : BitVec 10) : RoundTrip.Statement (.vst v b m c o) := by
  refine roundTrip_of fun wf N hN => ?_
  obtain ⟨hlt, h0, h1, h2, h3, h4, h5, h6⟩ := shape23 (n := N) (q := 33) (k0 := 3) v b m c o hN rfl (by decide) (by decide)
  refine ⟨hlt, fun word hw => ?_⟩
  rw [decodeRaw, hw, h0]; show some (Instr.vst (bf N 21 5) (bf N 16 5) (bt N 15) (bf N 10 3) (bf N 0 10), (if N / 8192 % 4 = 3 then 0 else 24576)) = _; rw [if_pos h1, h2, h3, h4, h5, h6]
theorem RoundTrip.vgx (v : BitVec 5) (a : BitVec 5) (x : BitVec 5) (p : BitVec 3) (t : BitVec 3) (s : BitVec 2) : RoundTrip.Statement (.vgx v a x p t s) := by
  refine roundTrip_of fun wf N hN => ?_
  obtain ⟨hlt, h0, h1, h2, h3, h4, h5, h6, h7⟩ := shape26 (n := N) (q := 34) v a x p t s hN rfl (by decide)
  refine ⟨hlt, fun word hw => ?_⟩
  rw [decodeRaw, hw, h0]; show some (Instr.vgx (bf N 21 5) (bf N 16 5) (bf N 11 5) (bf N 8 3) (bf N 5 3) (bf N 0 2), zf N 2 3) = _; rw [h1, h2, h3, h4, h5, h6, h7]
theorem RoundTrip.vsx (v : BitVec 5) (a : BitVec 5) (x : BitVec 5) (p : BitVec 3) (t : BitVec 3) (s : BitVec 2) : RoundTrip.Statement (.vsx v a x p t s) := by
  refine roundTrip_of fun wf N hN => ?_
  obtain ⟨hlt, h0, h1, h2, h3, h4, h5, h6, h7⟩ := shape26 (n := N) (q := 35) v a x p t s hN rfl (by decide)
  refine ⟨hlt, fun word hw => ?_⟩
  rw [decodeRaw, hw, h0]; show some (Instr.vsx (bf N 21 5) (bf N 16 5) (bf N 11 5) (bf N 8 3) (bf N 5 3) (bf N 0 2), zf N 2 3) = _; rw [h1, h2, h3, h4, h5, h6, h7]
theorem RoundTrip.vadd (d : BitVec 5) (a : BitVec 5) (b : BitVec 5) (p : BitVec 3) (t : BitVec 3) : RoundTrip.Statement (.vadd d a b p t) := by
  refine roundTrip_of fun wf N hN => ?_
  obtain ⟨hlt, h0, h1, h2, h3, h4, h5, h6⟩ := shape27 (n := N) (q := 36) (k0 := 0) d a b p t hN rfl (by decide) (by decide)
  refine ⟨hlt, fun word hw => ?_⟩
  rw [decodeRaw, hw, h0]; show decVa N = _; rw [decVa, h1]; show some (Instr.vadd (bf N 21 5) (bf N 16 5) (bf N 11 5) (bf N 8 3) (bf N 5 3), 0) = _; rw [h2, h3, h4, h5, h6]
theorem RoundTrip.vsub (d : BitVec 5) (a : BitVec 5) (b : BitVec 5) (p : BitVec 3) (t : BitVec 3) : RoundTrip.Statement (.vsub d a b p t) := by
  refine roundTrip_of fun wf N hN => ?_
  obtain ⟨hlt, h0, h1, h2, h3, h4, h5, h6⟩ := shape27 (n := N) (q := 36) (k0 := 1) d a b p t hN rfl (by decide) (by decide)
  refine ⟨hlt, fun word hw => ?_⟩
  rw [decodeRaw, hw, h0]; show decVa N = _; rw [decVa, h1]; show some (Instr.vsub (bf N 21 5) (bf N 16 5) (bf N 11 5) (bf N 8 3) (bf N 5 3), 0) = _; rw [h2, h3, h4, h5, h6]
theorem RoundTrip.vmul (d : BitVec 5) (a : BitVec 5) (b : BitVec 5) (p : BitVec 3) (t : BitVec 3) : RoundTrip.Statement (.vmul d a b p t) := by
  refine roundTrip_of fun wf N hN => ?_
  obtain ⟨hlt, h0, h1, h2, h3, h4, h5, h6⟩ := shape27 (n := N) (q := 36) (k0 := 2) d a b p t hN rfl (by decide) (by decide)
  refine ⟨hlt, fun word hw => ?_⟩
  rw [decodeRaw, hw, h0]; show decVa N = _; rw [decVa, h1]; show some (Instr.vmul (bf N 21 5) (bf N 16 5) (bf N 11 5) (bf N 8 3) (bf N 5 3), 0) = _; rw [h2, h3, h4, h5, h6]
theorem RoundTrip.vdiv (d : BitVec 5) (a : BitVec 5) (b : BitVec 5) (p : BitVec 3) (t : BitVec 3) : RoundTrip.Statement (.vdiv d a b p t) := by
  refine roundTrip_of fun wf N hN => ?_
  obtain ⟨hlt, h0, h1, h2, h3, h4, h5, h6⟩ := shape27 (n := N) (q := 36) (k0 := 3) d a b p t hN rfl (by decide) (by decide)
  refine ⟨hlt, fun word hw => ?_⟩
  rw [decodeRaw, hw, h0]; show decVa N = _; rw [decVa, h1]; show some (Instr.vdiv (bf N 21 5) (bf N 16 5) (bf N 11 5) (bf N 8 3) (bf N 5 3), 0) = _; rw [h2, h3, h4, h5, h6]
theorem RoundTrip.vsqrt (d : BitVec 5) (a : BitVec 5) (p : BitVec 3) (t : BitVec 3) : RoundTrip.Statement (.vsqrt d a p t) := by
  refine roundTrip_of fun wf N hN => ?_
  obtain ⟨hlt, h0, h1, h2, h3, h4, h5, h6⟩ := shape28 (n := N) (q := 36) (k0 := 4) d a p t hN rfl (by decide) (by decide)
  refine ⟨hlt, fun word hw => ?_⟩
  rw [decodeRaw, hw, h0]; show decVa N = _; rw [decVa, h1]; show some (Instr.vsqrt (bf N 21 5) (bf N 16 5) (bf N 8 3) (bf N 5 3), zf N 11 5) = _; rw [h2, h3, h4, h5, h6]
theorem RoundTrip.vmin (d : BitVec 5) (a : BitVec 5) (b : BitVec 5) (p : BitVec 3) (t : BitVec 3) : RoundTrip.Statement (.vmin d a b p t) := by
  refine roundTrip_of fun wf N hN => ?_
  obtain ⟨hlt, h0, h1, h2, h3, h4, h5, h6⟩ := shape27 (n := N) (q := 36) (k0 := 5) d a b p t hN rfl (by decide) (by decide)
  refine ⟨hlt, fun word hw => ?_⟩
  rw [decodeRaw, hw, h0]; show decVa N = _; rw [decVa, h1]; show some (Instr.vmin (bf N 21 5) (bf N 16 5) (bf N 11 5) (bf N 8 3) (bf N 5 3), 0) = _; rw [h2, h3, h4, h5, h6]
theorem RoundTrip.vmax (d : BitVec 5) (a : BitVec 5) (b : BitVec 5) (p : BitVec 3) (t : BitVec 3) : RoundTrip.Statement (.vmax d a b p t) := by
  refine roundTrip_of fun wf N hN => ?_
  obtain ⟨hlt, h0, h1, h2, h3, h4, h5, h6⟩ := shape27 (n := N) (q := 36) (k0 := 6) d a b p t hN rfl (by decide) (by decide)
  refine ⟨hlt, fun word hw => ?_⟩
  rw [decodeRaw, hw, h0]; show decVa N = _; rw [decVa, h1]; show some (Instr.vmax (bf N 21 5) (bf N 16 5) (bf N 11 5) (bf N 8 3) (bf N 5 3), 0) = _; rw [h2, h3, h4, h5, h6]
theorem RoundTrip.vabs (d : BitVec 5) (a : BitVec 5) (p : BitVec 3) (t : BitVec 3) : RoundTrip.Statement (.vabs d a p t) := by
  refine roundTrip_of fun wf N hN => ?_
  obtain ⟨hlt, h0, h1, h2, h3, h4, h5, h6⟩ := shape28 (n := N) (q := 36) (k0 := 7) d a p t hN rfl (by decide) (by decide)
  refine ⟨hlt, fun word hw => ?_⟩
  rw [decodeRaw, hw, h0]; show decVa N = _; rw [decVa, h1]; show some (Instr.vabs (bf N 21 5) (bf N 16 5) (bf N 8 3) (bf N 5 3), zf N 11 5) = _; rw [h2, h3, h4, h5, h6]
theorem RoundTrip.vneg (d : BitVec 5) (a : BitVec 5) (p : BitVec 3) (t : BitVec 3) : RoundTrip.Statement (.vneg d a p t) := by
  refine roundTrip_of fun wf N hN => ?_
  obtain ⟨hlt, h0, h1, h2, h3, h4, h5, h6⟩ := shape28 (n := N) (q := 36) (k0 := 8) d a p t hN rfl (by decide) (by decide)
  refine ⟨hlt, fun word hw => ?_⟩
  rw [decodeRaw, hw, h0]; show decVa N = _; rw [decVa, h1]; show some (Instr.vneg (bf N 21 5) (bf N 16 5) (bf N 8 3) (bf N 5 3), zf N 11 5) = _; rw [h2, h3, h4, h5, h6]
theorem RoundTrip.vand (d : BitVec 5) (a : BitVec 5) (b : BitVec 5) (p : BitVec 3) (t : BitVec 3) : RoundTrip.Statement (.vand d a b p t) := by
  refine roundTrip_of fun wf N hN => ?_
  obtain ⟨hlt, h0, h1, h2, h3, h4, h5, h6⟩ := shape27 (n := N) (q := 36) (k0 := 9) d a b p t hN rfl (by decide) (by decide)
  refine ⟨hlt, fun word hw => ?_⟩
  rw [decodeRaw, hw, h0]; show decVa N = _; rw [decVa, h1]; show some (Instr.vand (bf N 21 5) (bf N 16 5) (bf N 11 5) (bf N 8 3) (bf N 5 3), 0) = _; rw [h2, h3, h4, h5, h6]
theorem RoundTrip.vor (d : BitVec 5) (a : BitVec 5) (b : BitVec 5) (p : BitVec 3) (t : BitVec 3) : RoundTrip.Statement (.vor d a b p t) := by
  refine roundTrip_of fun wf N hN => ?_
  obtain ⟨hlt, h0, h1, h2, h3, h4, h5, h6⟩ := shape27 (n := N) (q := 36) (k0 := 10) d a b p t hN rfl (by decide) (by decide)
  refine ⟨hlt, fun word hw => ?_⟩
  rw [decodeRaw, hw, h0]; show decVa N = _; rw [decVa, h1]; show some (Instr.vor (bf N 21 5) (bf N 16 5) (bf N 11 5) (bf N 8 3) (bf N 5 3), 0) = _; rw [h2, h3, h4, h5, h6]
theorem RoundTrip.vxor (d : BitVec 5) (a : BitVec 5) (b : BitVec 5) (p : BitVec 3) (t : BitVec 3) : RoundTrip.Statement (.vxor d a b p t) := by
  refine roundTrip_of fun wf N hN => ?_
  obtain ⟨hlt, h0, h1, h2, h3, h4, h5, h6⟩ := shape27 (n := N) (q := 36) (k0 := 11) d a b p t hN rfl (by decide) (by decide)
  refine ⟨hlt, fun word hw => ?_⟩
  rw [decodeRaw, hw, h0]; show decVa N = _; rw [decVa, h1]; show some (Instr.vxor (bf N 21 5) (bf N 16 5) (bf N 11 5) (bf N 8 3) (bf N 5 3), 0) = _; rw [h2, h3, h4, h5, h6]
theorem RoundTrip.vshl (d : BitVec 5) (a : BitVec 5) (b : BitVec 5) (p : BitVec 3) (t : BitVec 3) : RoundTrip.Statement (.vshl d a b p t) := by
  refine roundTrip_of fun wf N hN => ?_
  obtain ⟨hlt, h0, h1, h2, h3, h4, h5, h6⟩ := shape27 (n := N) (q := 36) (k0 := 12) d a b p t hN rfl (by decide) (by decide)
  refine ⟨hlt, fun word hw => ?_⟩
  rw [decodeRaw, hw, h0]; show decVa N = _; rw [decVa, h1]; show some (Instr.vshl (bf N 21 5) (bf N 16 5) (bf N 11 5) (bf N 8 3) (bf N 5 3), 0) = _; rw [h2, h3, h4, h5, h6]
theorem RoundTrip.vshr (d : BitVec 5) (a : BitVec 5) (b : BitVec 5) (p : BitVec 3) (t : BitVec 3) : RoundTrip.Statement (.vshr d a b p t) := by
  refine roundTrip_of fun wf N hN => ?_
  obtain ⟨hlt, h0, h1, h2, h3, h4, h5, h6⟩ := shape27 (n := N) (q := 36) (k0 := 13) d a b p t hN rfl (by decide) (by decide)
  refine ⟨hlt, fun word hw => ?_⟩
  rw [decodeRaw, hw, h0]; show decVa N = _; rw [decVa, h1]; show some (Instr.vshr (bf N 21 5) (bf N 16 5) (bf N 11 5) (bf N 8 3) (bf N 5 3), 0) = _; rw [h2, h3, h4, h5, h6]
theorem RoundTrip.vcmp (c : BitVec 2) (q : BitVec 3) (a : BitVec 5) (b : BitVec 5) (p : BitVec 3) (t : BitVec 3) : RoundTrip.Statement (.vcmp c q a b p t) := by
  refine roundTrip_of fun wf N hN => ?_
  obtain ⟨hlt, h0, h1, h2, h3, h4, h5, h6, h7⟩ := shape29 (n := N) (q := 36) (k0 := 14) c q a b p t hN rfl (by decide) (by decide)
  refine ⟨hlt, fun word hw => ?_⟩
  rw [decodeRaw, hw, h0]; show decVa N = _; rw [decVa, h1]; show some (Instr.vcmp (bf N 24 2) (bf N 21 3) (bf N 16 5) (bf N 11 5) (bf N 8 3) (bf N 5 3), 0) = _; rw [h2, h3, h4, h5, h6, h7]
theorem RoundTrip.vsel (d : BitVec 5) (a : BitVec 5) (b : BitVec 5) (p : BitVec 3) (t : BitVec 3) : RoundTrip.Statement (.vsel d a b p t) := by
  refine roundTrip_of fun wf N hN => ?_
  obtain ⟨hlt, h0, h1, h2, h3, h4, h5, h6⟩ := shape27 (n := N) (q := 36) (k0 := 15) d a b p t hN rfl (by decide) (by decide)
  refine ⟨hlt, fun word hw => ?_⟩
  rw [decodeRaw, hw, h0]; show decVa N = _; rw [decVa, h1]; show some (Instr.vsel (bf N 21 5) (bf N 16 5) (bf N 11 5) (bf N 8 3) (bf N 5 3), 0) = _; rw [h2, h3, h4, h5, h6]
theorem RoundTrip.vmov (d : BitVec 5) (a : BitVec 5) (p : BitVec 3) (t : BitVec 3) : RoundTrip.Statement (.vmov d a p t) := by
  refine roundTrip_of fun wf N hN => ?_
  obtain ⟨hlt, h0, h1, h2, h3, h4, h5, h6⟩ := shape28 (n := N) (q := 36) (k0 := 16) d a p t hN rfl (by decide) (by decide)
  refine ⟨hlt, fun word hw => ?_⟩
  rw [decodeRaw, hw, h0]; show decVa N = _; rw [decVa, h1]; show some (Instr.vmov (bf N 21 5) (bf N 16 5) (bf N 8 3) (bf N 5 3), zf N 11 5) = _; rw [h2, h3, h4, h5, h6]
theorem RoundTrip.vbc (d : BitVec 5) (a : BitVec 5) (p : BitVec 3) (t : BitVec 3) : RoundTrip.Statement (.vbc d a p t) := by
  refine roundTrip_of fun wf N hN => ?_
  obtain ⟨hlt, h0, h1, h2, h3, h4, h5, h6⟩ := shape28 (n := N) (q := 36) (k0 := 17) d a p t hN rfl (by decide) (by decide)
  refine ⟨hlt, fun word hw => ?_⟩
  rw [decodeRaw, hw, h0]; show decVa N = _; rw [decVa, h1]; show some (Instr.vbc (bf N 21 5) (bf N 16 5) (bf N 8 3) (bf N 5 3), zf N 11 5) = _; rw [h2, h3, h4, h5, h6]
theorem RoundTrip.vex (d : BitVec 5) (a : BitVec 5) (b : BitVec 5) (t : BitVec 3) : RoundTrip.Statement (.vex d a b t) := by
  refine roundTrip_of fun wf N hN => ?_
  obtain ⟨hlt, h0, h1, h2, h3, h4, h5, h6⟩ := shape30 (n := N) (q := 36) (k0 := 18) d a b t hN rfl (by decide) (by decide)
  refine ⟨hlt, fun word hw => ?_⟩
  rw [decodeRaw, hw, h0]; show decVa N = _; rw [decVa, h1]; show some (Instr.vex (bf N 21 5) (bf N 16 5) (bf N 11 5) (bf N 5 3), zf N 8 3) = _; rw [h2, h3, h4, h5, h6]
theorem RoundTrip.vins (d : BitVec 5) (a : BitVec 5) (b : BitVec 5) (t : BitVec 3) : RoundTrip.Statement (.vins d a b t) := by
  refine roundTrip_of fun wf N hN => ?_
  obtain ⟨hlt, h0, h1, h2, h3, h4, h5, h6⟩ := shape30 (n := N) (q := 36) (k0 := 19) d a b t hN rfl (by decide) (by decide)
  refine ⟨hlt, fun word hw => ?_⟩
  rw [decodeRaw, hw, h0]; show decVa N = _; rw [decVa, h1]; show some (Instr.vins (bf N 21 5) (bf N 16 5) (bf N 11 5) (bf N 5 3), zf N 8 3) = _; rw [h2, h3, h4, h5, h6]
theorem RoundTrip.viota (d : BitVec 5) (p : BitVec 3) (t : BitVec 3) : RoundTrip.Statement (.viota d p t) := by
  refine roundTrip_of fun wf N hN => ?_
  obtain ⟨hlt, h0, h1, h2, h3, h4, h5⟩ := shape31 (n := N) (q := 36) (k0 := 20) d p t hN rfl (by decide) (by decide)
  refine ⟨hlt, fun word hw => ?_⟩
  rw [decodeRaw, hw, h0]; show decVa N = _; rw [decVa, h1]; show some (Instr.viota (bf N 21 5) (bf N 8 3) (bf N 5 3), zf N 11 10) = _; rw [h2, h3, h4, h5]
theorem RoundTrip.vperm (d : BitVec 5) (a : BitVec 5) (b : BitVec 5) (p : BitVec 3) (t : BitVec 3) : RoundTrip.Statement (.vperm d a b p t) := by
  refine roundTrip_of fun wf N hN => ?_
  obtain ⟨hlt, h0, h1, h2, h3, h4, h5, h6⟩ := shape27 (n := N) (q := 36) (k0 := 21) d a b p t hN rfl (by decide) (by decide)
  refine ⟨hlt, fun word hw => ?_⟩
  rw [decodeRaw, hw, h0]; show decVa N = _; rw [decVa, h1]; show some (Instr.vperm (bf N 21 5) (bf N 16 5) (bf N 11 5) (bf N 8 3) (bf N 5 3), 0) = _; rw [h2, h3, h4, h5, h6]
theorem RoundTrip.vred (d : BitVec 5) (a : BitVec 5) (o : BitVec 5) (p : BitVec 3) (t : BitVec 3) : RoundTrip.Statement (.vred d a o p t) := by
  refine roundTrip_of fun wf N hN => ?_
  obtain ⟨hlt, h0, h1, h2, h3, h4, h5, h6⟩ := shape27 (n := N) (q := 36) (k0 := 22) d a o p t hN rfl (by decide) (by decide)
  refine ⟨hlt, fun word hw => ?_⟩
  rw [decodeRaw, hw, h0]; show decVa N = _; rw [decVa, h1]; show some (Instr.vred (bf N 21 5) (bf N 16 5) (bf N 11 5) (bf N 8 3) (bf N 5 3), 0) = _; rw [h2, h3, h4, h5, h6]
theorem RoundTrip.vscn (d : BitVec 5) (a : BitVec 5) (o : BitVec 5) (p : BitVec 3) (t : BitVec 3) : RoundTrip.Statement (.vscn d a o p t) := by
  refine roundTrip_of fun wf N hN => ?_
  obtain ⟨hlt, h0, h1, h2, h3, h4, h5, h6⟩ := shape27 (n := N) (q := 36) (k0 := 23) d a o p t hN rfl (by decide) (by decide)
  refine ⟨hlt, fun word hw => ?_⟩
  rw [decodeRaw, hw, h0]; show decVa N = _; rw [decVa, h1]; show some (Instr.vscn (bf N 21 5) (bf N 16 5) (bf N 11 5) (bf N 8 3) (bf N 5 3), 0) = _; rw [h2, h3, h4, h5, h6]
theorem RoundTrip.vcvt (d : BitVec 5) (a : BitVec 5) (c : BitVec 5) (r : BitVec 3) (t : BitVec 3) : RoundTrip.Statement (.vcvt d a c r t) := by
  refine roundTrip_of fun wf N hN => ?_
  obtain ⟨hlt, h0, h1, h2, h3, h4, h5, h6⟩ := shape27 (n := N) (q := 36) (k0 := 24) d a c r t hN rfl (by decide) (by decide)
  refine ⟨hlt, fun word hw => ?_⟩
  rw [decodeRaw, hw, h0]; show decVa N = _; rw [decVa, h1]; show some (Instr.vcvt (bf N 21 5) (bf N 16 5) (bf N 11 5) (bf N 8 3) (bf N 5 3), 0) = _; rw [h2, h3, h4, h5, h6]
theorem RoundTrip.vminN (d : BitVec 5) (a : BitVec 5) (b : BitVec 5) (p : BitVec 3) (t : BitVec 3) : RoundTrip.Statement (.vminN d a b p t) := by
  refine roundTrip_of fun wf N hN => ?_
  obtain ⟨hlt, h0, h1, h2, h3, h4, h5, h6⟩ := shape27 (n := N) (q := 36) (k0 := 25) d a b p t hN rfl (by decide) (by decide)
  refine ⟨hlt, fun word hw => ?_⟩
  rw [decodeRaw, hw, h0]; show decVa N = _; rw [decVa, h1]; show some (Instr.vminN (bf N 21 5) (bf N 16 5) (bf N 11 5) (bf N 8 3) (bf N 5 3), 0) = _; rw [h2, h3, h4, h5, h6]
theorem RoundTrip.vmaxN (d : BitVec 5) (a : BitVec 5) (b : BitVec 5) (p : BitVec 3) (t : BitVec 3) : RoundTrip.Statement (.vmaxN d a b p t) := by
  refine roundTrip_of fun wf N hN => ?_
  obtain ⟨hlt, h0, h1, h2, h3, h4, h5, h6⟩ := shape27 (n := N) (q := 36) (k0 := 26) d a b p t hN rfl (by decide) (by decide)
  refine ⟨hlt, fun word hw => ?_⟩
  rw [decodeRaw, hw, h0]; show decVa N = _; rw [decVa, h1]; show some (Instr.vmaxN (bf N 21 5) (bf N 16 5) (bf N 11 5) (bf N 8 3) (bf N 5 3), 0) = _; rw [h2, h3, h4, h5, h6]
theorem RoundTrip.vcmpN (c : BitVec 2) (q : BitVec 3) (a : BitVec 5) (b : BitVec 5) (p : BitVec 3) (t : BitVec 3) : RoundTrip.Statement (.vcmpN c q a b p t) := by
  refine roundTrip_of fun wf N hN => ?_
  obtain ⟨hlt, h0, h1, h2, h3, h4, h5, h6, h7⟩ := shape29 (n := N) (q := 36) (k0 := 27) c q a b p t hN rfl (by decide) (by decide)
  refine ⟨hlt, fun word hw => ?_⟩
  rw [decodeRaw, hw, h0]; show decVa N = _; rw [decVa, h1]; show some (Instr.vcmpN (bf N 24 2) (bf N 21 3) (bf N 16 5) (bf N 11 5) (bf N 8 3) (bf N 5 3), 0) = _; rw [h2, h3, h4, h5, h6, h7]
theorem RoundTrip.vshrN (d : BitVec 5) (a : BitVec 5) (b : BitVec 5) (p : BitVec 3) (t : BitVec 3) : RoundTrip.Statement (.vshrN d a b p t) := by
  refine roundTrip_of fun wf N hN => ?_
  obtain ⟨hlt, h0, h1, h2, h3, h4, h5, h6⟩ := shape27 (n := N) (q := 36) (k0 := 28) d a b p t hN rfl (by decide) (by decide)
  refine ⟨hlt, fun word hw => ?_⟩
  rw [decodeRaw, hw, h0]; show decVa N = _; rw [decVa, h1]; show some (Instr.vshrN (bf N 21 5) (bf N 16 5) (bf N 11 5) (bf N 8 3) (bf N 5 3), 0) = _; rw [h2, h3, h4, h5, h6]
theorem RoundTrip.vfma (d : BitVec 5) (a : BitVec 5) (b : BitVec 5) (p : BitVec 3) (t : BitVec 3) (r : BitVec 3) : RoundTrip.Statement (.vfma d a b p t r) := by
  refine roundTrip_of fun wf N hN => ?_
  obtain ⟨hlt, h0, h1, h2, h3, h4, h5, h6, h7⟩ := shape32 (n := N) (q := 37) (k0 := 0) d a b p t r hN rfl (by decide) (by decide)
  refine ⟨hlt, fun word hw => ?_⟩
  rw [decodeRaw, hw, h0]; show decVfma N = _; rw [decVfma, h1]; show some (Instr.vfma (bf N 21 5) (bf N 16 5) (bf N 11 5) (bf N 8 3) (bf N 5 3) (bf N 2 3), 0) = _; rw [h2, h3, h4, h5, h6, h7]
theorem RoundTrip.vfms (d : BitVec 5) (a : BitVec 5) (b : BitVec 5) (p : BitVec 3) (t : BitVec 3) (r : BitVec 3) : RoundTrip.Statement (.vfms d a b p t r) := by
  refine roundTrip_of fun wf N hN => ?_
  obtain ⟨hlt, h0, h1, h2, h3, h4, h5, h6, h7⟩ := shape32 (n := N) (q := 37) (k0 := 1) d a b p t r hN rfl (by decide) (by decide)
  refine ⟨hlt, fun word hw => ?_⟩
  rw [decodeRaw, hw, h0]; show decVfma N = _; rw [decVfma, h1]; show some (Instr.vfms (bf N 21 5) (bf N 16 5) (bf N 11 5) (bf N 8 3) (bf N 5 3) (bf N 2 3), 0) = _; rw [h2, h3, h4, h5, h6, h7]
theorem RoundTrip.vfnma (d : BitVec 5) (a : BitVec 5) (b : BitVec 5) (p : BitVec 3) (t : BitVec 3) (r : BitVec 3) : RoundTrip.Statement (.vfnma d a b p t r) := by
  refine roundTrip_of fun wf N hN => ?_
  obtain ⟨hlt, h0, h1, h2, h3, h4, h5, h6, h7⟩ := shape32 (n := N) (q := 37) (k0 := 2) d a b p t r hN rfl (by decide) (by decide)
  refine ⟨hlt, fun word hw => ?_⟩
  rw [decodeRaw, hw, h0]; show decVfma N = _; rw [decVfma, h1]; show some (Instr.vfnma (bf N 21 5) (bf N 16 5) (bf N 11 5) (bf N 8 3) (bf N 5 3) (bf N 2 3), 0) = _; rw [h2, h3, h4, h5, h6, h7]
theorem RoundTrip.vfnms (d : BitVec 5) (a : BitVec 5) (b : BitVec 5) (p : BitVec 3) (t : BitVec 3) (r : BitVec 3) : RoundTrip.Statement (.vfnms d a b p t r) := by
  refine roundTrip_of fun wf N hN => ?_
  obtain ⟨hlt, h0, h1, h2, h3, h4, h5, h6, h7⟩ := shape32 (n := N) (q := 37) (k0 := 3) d a b p t r hN rfl (by decide) (by decide)
  refine ⟨hlt, fun word hw => ?_⟩
  rw [decodeRaw, hw, h0]; show decVfma N = _; rw [decVfma, h1]; show some (Instr.vfnms (bf N 21 5) (bf N 16 5) (bf N 11 5) (bf N 8 3) (bf N 5 3) (bf N 2 3), 0) = _; rw [h2, h3, h4, h5, h6, h7]
theorem RoundTrip.xmac2 (a : BitVec 5) (b : BitVec 5) (p : BitVec 3) (t : BitVec 3) : RoundTrip.Statement (.xmac2 a b p t) := by
  refine roundTrip_of fun wf N hN => ?_
  obtain ⟨hlt, h0, h1, h2, h3, h4, h5, h6⟩ := shape33 (n := N) (q := 38) (k0 := 1) a b p t hN rfl (by decide) (by decide)
  refine ⟨hlt, fun word hw => ?_⟩
  rw [decodeRaw, hw, h0]; show decXacc N = _; rw [decXacc, h1]; show some (Instr.xmac2 (bf N 16 5) (bf N 11 5) (bf N 8 3) (bf N 5 3), zf N 21 5) = _; rw [h2, h3, h4, h5, h6]
theorem RoundTrip.xmac3 (c : BitVec 5) (a : BitVec 5) (b : BitVec 5) (p : BitVec 3) (t : BitVec 3) : RoundTrip.Statement (.xmac3 c a b p t) := by
  refine roundTrip_of fun wf N hN => ?_
  obtain ⟨hlt, h0, h1, h2, h3, h4, h5, h6⟩ := shape27 (n := N) (q := 38) (k0 := 2) c a b p t hN rfl (by decide) (by decide)
  refine ⟨hlt, fun word hw => ?_⟩
  rw [decodeRaw, hw, h0]; show decXacc N = _; rw [decXacc, h1]; show some (Instr.xmac3 (bf N 21 5) (bf N 16 5) (bf N 11 5) (bf N 8 3) (bf N 5 3), 0) = _; rw [h2, h3, h4, h5, h6]
theorem RoundTrip.xadd (a : BitVec 5) (p : BitVec 3) (t : BitVec 3) : RoundTrip.Statement (.xadd a p t) := by
  refine roundTrip_of fun wf N hN => ?_
  obtain ⟨hlt, h0, h1, h2, h3, h4, h5⟩ := shape34 (n := N) (q := 38) (k0 := 3) a p t hN rfl (by decide) (by decide)
  refine ⟨hlt, fun word hw => ?_⟩
  rw [decodeRaw, hw, h0]; show decXacc N = _; rw [decXacc, h1]; show some (Instr.xadd (bf N 16 5) (bf N 8 3) (bf N 5 3), zf N 11 5 + zf N 21 5) = _; rw [h2, h3, h4, h5]
theorem RoundTrip.xsgn (d : BitVec 5) : RoundTrip.Statement (.xsgn d) := by
  refine roundTrip_of fun wf N hN => ?_
  obtain ⟨hlt, h0, h1, h2, h3⟩ := shape35 (n := N) (q := 38) (k0 := 4) d hN rfl (by decide) (by decide)
  refine ⟨hlt, fun word hw => ?_⟩
  rw [decodeRaw, hw, h0]; show decXacc N = _; rw [decXacc, h1]; show some (Instr.xsgn (bf N 21 5), zf N 5 16) = _; rw [h2, h3]
theorem RoundTrip.xrnd (d : BitVec 5) (r : BitVec 3) : RoundTrip.Statement (.xrnd d r) := by
  refine roundTrip_of fun wf N hN => ?_
  obtain ⟨hlt, h0, h1, h2, h3, h4⟩ := shape36 (n := N) (q := 38) (k0 := 5) d r hN rfl (by decide) (by decide)
  refine ⟨hlt, fun word hw => ?_⟩
  rw [decodeRaw, hw, h0]; show decXacc N = _; rw [decXacc, h1]; show some (Instr.xrnd (bf N 21 5) (bf N 11 3), zf N 5 6 + zf N 14 7) = _; rw [h2, h3, h4]
theorem RoundTrip.xspl (a : BitVec 5) : RoundTrip.Statement (.xspl a) := by
  refine roundTrip_of fun wf N hN => ?_
  obtain ⟨hlt, h0, h1, h2, h3⟩ := shape37 (n := N) (q := 38) (k0 := 6) a hN rfl (by decide) (by decide)
  refine ⟨hlt, fun word hw => ?_⟩
  rw [decodeRaw, hw, h0]; show decXacc N = _; rw [decXacc, h1]; show some (Instr.xspl (bf N 16 5), zf N 5 11 + zf N 21 5) = _; rw [h2, h3]
theorem RoundTrip.xfil (a : BitVec 5) : RoundTrip.Statement (.xfil a) := by
  refine roundTrip_of fun wf N hN => ?_
  obtain ⟨hlt, h0, h1, h2, h3⟩ := shape37 (n := N) (q := 38) (k0 := 7) a hN rfl (by decide) (by decide)
  refine ⟨hlt, fun word hw => ?_⟩
  rw [decodeRaw, hw, h0]; show decXacc N = _; rw [decXacc, h1]; show some (Instr.xfil (bf N 16 5), zf N 5 11 + zf N 21 5) = _; rw [h2, h3]
theorem RoundTrip.amoAdd (d : BitVec 5) (a : BitVec 5) (b : BitVec 5) (m : Bool) (n : Bool) (f : Bool) (c : BitVec 3) (z : Bool) : RoundTrip.Statement (.amoAdd d a b m n f c z) := by
  refine roundTrip_of fun wf N hN => ?_
  obtain ⟨hlt, h0, h1, h2, h3, h4, h5, h6, h7, h8, h9⟩ := shape38 (n := N) (q := 40) (k0 := 0) d a b m n f c z hN rfl (by decide) (by decide)
  refine ⟨hlt, fun word hw => ?_⟩
  rw [decodeRaw, hw, h0]; show decAmo N = _; rw [decAmo, h1]; show some (Instr.amoAdd (bf N 21 5) (bf N 16 5) (bf N 11 5) (bt N 10) (bt N 9) (bt N 8) (bf N 5 3) (bt N 4), 0) = _; rw [h2, h3, h4, h5, h6, h7, h8, h9]
theorem RoundTrip.amoAnd (d : BitVec 5) (a : BitVec 5) (b : BitVec 5) (m : Bool) (n : Bool) (f : Bool) (c : BitVec 3) (z : Bool) : RoundTrip.Statement (.amoAnd d a b m n f c z) := by
  refine roundTrip_of fun wf N hN => ?_
  obtain ⟨hlt, h0, h1, h2, h3, h4, h5, h6, h7, h8, h9⟩ := shape38 (n := N) (q := 40) (k0 := 1) d a b m n f c z hN rfl (by decide) (by decide)
  refine ⟨hlt, fun word hw => ?_⟩
  rw [decodeRaw, hw, h0]; show decAmo N = _; rw [decAmo, h1]; show some (Instr.amoAnd (bf N 21 5) (bf N 16 5) (bf N 11 5) (bt N 10) (bt N 9) (bt N 8) (bf N 5 3) (bt N 4), 0) = _; rw [h2, h3, h4, h5, h6, h7, h8, h9]
theorem RoundTrip.amoOr (d : BitVec 5) (a : BitVec 5) (b : BitVec 5) (m : Bool) (n : Bool) (f : Bool) (c : BitVec 3) (z : Bool) : RoundTrip.Statement (.amoOr d a b m n f c z) := by
  refine roundTrip_of fun wf N hN => ?_
  obtain ⟨hlt, h0, h1, h2, h3, h4, h5, h6, h7, h8, h9⟩ := shape38 (n := N) (q := 40) (k0 := 2) d a b m n f c z hN rfl (by decide) (by decide)
  refine ⟨hlt, fun word hw => ?_⟩
  rw [decodeRaw, hw, h0]; show decAmo N = _; rw [decAmo, h1]; show some (Instr.amoOr (bf N 21 5) (bf N 16 5) (bf N 11 5) (bt N 10) (bt N 9) (bt N 8) (bf N 5 3) (bt N 4), 0) = _; rw [h2, h3, h4, h5, h6, h7, h8, h9]
theorem RoundTrip.amoXor (d : BitVec 5) (a : BitVec 5) (b : BitVec 5) (m : Bool) (n : Bool) (f : Bool) (c : BitVec 3) (z : Bool) : RoundTrip.Statement (.amoXor d a b m n f c z) := by
  refine roundTrip_of fun wf N hN => ?_
  obtain ⟨hlt, h0, h1, h2, h3, h4, h5, h6, h7, h8, h9⟩ := shape38 (n := N) (q := 40) (k0 := 3) d a b m n f c z hN rfl (by decide) (by decide)
  refine ⟨hlt, fun word hw => ?_⟩
  rw [decodeRaw, hw, h0]; show decAmo N = _; rw [decAmo, h1]; show some (Instr.amoXor (bf N 21 5) (bf N 16 5) (bf N 11 5) (bt N 10) (bt N 9) (bt N 8) (bf N 5 3) (bt N 4), 0) = _; rw [h2, h3, h4, h5, h6, h7, h8, h9]
theorem RoundTrip.amoMin (d : BitVec 5) (a : BitVec 5) (b : BitVec 5) (m : Bool) (n : Bool) (f : Bool) (c : BitVec 3) (z : Bool) : RoundTrip.Statement (.amoMin d a b m n f c z) := by
  refine roundTrip_of fun wf N hN => ?_
  obtain ⟨hlt, h0, h1, h2, h3, h4, h5, h6, h7, h8, h9⟩ := shape38 (n := N) (q := 40) (k0 := 4) d a b m n f c z hN rfl (by decide) (by decide)
  refine ⟨hlt, fun word hw => ?_⟩
  rw [decodeRaw, hw, h0]; show decAmo N = _; rw [decAmo, h1]; show some (Instr.amoMin (bf N 21 5) (bf N 16 5) (bf N 11 5) (bt N 10) (bt N 9) (bt N 8) (bf N 5 3) (bt N 4), 0) = _; rw [h2, h3, h4, h5, h6, h7, h8, h9]
theorem RoundTrip.amoMax (d : BitVec 5) (a : BitVec 5) (b : BitVec 5) (m : Bool) (n : Bool) (f : Bool) (c : BitVec 3) (z : Bool) : RoundTrip.Statement (.amoMax d a b m n f c z) := by
  refine roundTrip_of fun wf N hN => ?_
  obtain ⟨hlt, h0, h1, h2, h3, h4, h5, h6, h7, h8, h9⟩ := shape38 (n := N) (q := 40) (k0 := 5) d a b m n f c z hN rfl (by decide) (by decide)
  refine ⟨hlt, fun word hw => ?_⟩
  rw [decodeRaw, hw, h0]; show decAmo N = _; rw [decAmo, h1]; show some (Instr.amoMax (bf N 21 5) (bf N 16 5) (bf N 11 5) (bt N 10) (bt N 9) (bt N 8) (bf N 5 3) (bt N 4), 0) = _; rw [h2, h3, h4, h5, h6, h7, h8, h9]
theorem RoundTrip.amoMinn (d : BitVec 5) (a : BitVec 5) (b : BitVec 5) (m : Bool) (n : Bool) (f : Bool) (c : BitVec 3) (z : Bool) : RoundTrip.Statement (.amoMinn d a b m n f c z) := by
  refine roundTrip_of fun wf N hN => ?_
  obtain ⟨hlt, h0, h1, h2, h3, h4, h5, h6, h7, h8, h9⟩ := shape38 (n := N) (q := 40) (k0 := 6) d a b m n f c z hN rfl (by decide) (by decide)
  refine ⟨hlt, fun word hw => ?_⟩
  rw [decodeRaw, hw, h0]; show decAmo N = _; rw [decAmo, h1]; show some (Instr.amoMinn (bf N 21 5) (bf N 16 5) (bf N 11 5) (bt N 10) (bt N 9) (bt N 8) (bf N 5 3) (bt N 4), 0) = _; rw [h2, h3, h4, h5, h6, h7, h8, h9]
theorem RoundTrip.amoMaxn (d : BitVec 5) (a : BitVec 5) (b : BitVec 5) (m : Bool) (n : Bool) (f : Bool) (c : BitVec 3) (z : Bool) : RoundTrip.Statement (.amoMaxn d a b m n f c z) := by
  refine roundTrip_of fun wf N hN => ?_
  obtain ⟨hlt, h0, h1, h2, h3, h4, h5, h6, h7, h8, h9⟩ := shape38 (n := N) (q := 40) (k0 := 7) d a b m n f c z hN rfl (by decide) (by decide)
  refine ⟨hlt, fun word hw => ?_⟩
  rw [decodeRaw, hw, h0]; show decAmo N = _; rw [decAmo, h1]; show some (Instr.amoMaxn (bf N 21 5) (bf N 16 5) (bf N 11 5) (bt N 10) (bt N 9) (bt N 8) (bf N 5 3) (bt N 4), 0) = _; rw [h2, h3, h4, h5, h6, h7, h8, h9]
theorem RoundTrip.amoSwp (d : BitVec 5) (a : BitVec 5) (b : BitVec 5) (m : Bool) (n : Bool) (f : Bool) (c : BitVec 3) (z : Bool) : RoundTrip.Statement (.amoSwp d a b m n f c z) := by
  refine roundTrip_of fun wf N hN => ?_
  obtain ⟨hlt, h0, h1, h2, h3, h4, h5, h6, h7, h8, h9⟩ := shape38 (n := N) (q := 40) (k0 := 8) d a b m n f c z hN rfl (by decide) (by decide)
  refine ⟨hlt, fun word hw => ?_⟩
  rw [decodeRaw, hw, h0]; show decAmo N = _; rw [decAmo, h1]; show some (Instr.amoSwp (bf N 21 5) (bf N 16 5) (bf N 11 5) (bt N 10) (bt N 9) (bt N 8) (bf N 5 3) (bt N 4), 0) = _; rw [h2, h3, h4, h5, h6, h7, h8, h9]
theorem RoundTrip.amoFadds (d : BitVec 5) (a : BitVec 5) (b : BitVec 5) (m : Bool) (n : Bool) (f : Bool) (c : BitVec 3) : RoundTrip.Statement (.amoFadds d a b m n f c) := by
  refine roundTrip_of fun wf N hN => ?_
  obtain ⟨hlt, h0, h1, h2, h3, h4, h5, h6, h7, h8, h9⟩ := shape39 (n := N) (q := 40) (k0 := 9) d a b m n f c hN rfl (by decide) (by decide)
  refine ⟨hlt, fun word hw => ?_⟩
  rw [decodeRaw, hw, h0]; show decAmo N = _; rw [decAmo, h1]; show some (Instr.amoFadds (bf N 21 5) (bf N 16 5) (bf N 11 5) (bt N 10) (bt N 9) (bt N 8) (bf N 5 3), zf N 4 1) = _; rw [h2, h3, h4, h5, h6, h7, h8, h9]
theorem RoundTrip.amoFaddd (d : BitVec 5) (a : BitVec 5) (b : BitVec 5) (m : Bool) (n : Bool) (f : Bool) (c : BitVec 3) : RoundTrip.Statement (.amoFaddd d a b m n f c) := by
  refine roundTrip_of fun wf N hN => ?_
  obtain ⟨hlt, h0, h1, h2, h3, h4, h5, h6, h7, h8, h9⟩ := shape40 (n := N) (q := 40) (k0 := 10) (k1 := 1) d a b m n f c hN rfl (by decide) (by decide) (by decide)
  refine ⟨hlt, fun word hw => ?_⟩
  rw [decodeRaw, hw, h0]; show decAmo N = _; rw [decAmo, h1]; show some (Instr.amoFaddd (bf N 21 5) (bf N 16 5) (bf N 11 5) (bt N 10) (bt N 9) (bt N 8) (bf N 5 3), (if bt N 4 then 0 else 16)) = _; rw [if_pos (show bt N 4 = true from decide_eq_true h2), h3, h4, h5, h6, h7, h8, h9]
theorem RoundTrip.cas (d : BitVec 5) (a : BitVec 5) (b : BitVec 5) (m : Bool) (n : Bool) (f : Bool) (c : BitVec 3) (z : BitVec 2) : RoundTrip.Statement (.cas d a b m n f c z) := by
  refine roundTrip_of fun wf N hN => ?_
  obtain ⟨hlt, h0, h1, h2, h3, h4, h5, h6, h7, h8, h9⟩ := shape41 (n := N) (q := 41) d a b m n f c z hN rfl (by decide)
  refine ⟨hlt, fun word hw => ?_⟩
  rw [decodeRaw, hw, h0]; show some (Instr.cas (bf N 21 5) (bf N 16 5) (bf N 11 5) (bt N 10) (bt N 9) (bt N 5) (bf N 2 3) (bf N 0 2), zf N 6 3) = _; rw [h1, h2, h3, h4, h5, h6, h7, h8, h9]
theorem RoundTrip.rsv (d : BitVec 5) (a : BitVec 5) (m : Bool) (c : BitVec 3) (z : Bool) : RoundTrip.Statement (.rsv d a m c z) := by
  refine roundTrip_of fun wf N hN => ?_
  obtain ⟨hlt, h0, h1, h2, h3, h4, h5, h6⟩ := shape42 (n := N) (q := 42) d a m c z hN rfl (by decide)
  refine ⟨hlt, fun word hw => ?_⟩
  rw [decodeRaw, hw, h0]; show some (Instr.rsv (bf N 21 5) (bf N 16 5) (bt N 10) (bf N 1 3) (bt N 0), zf N 4 6 + zf N 11 5) = _; rw [h1, h2, h3, h4, h5, h6]
theorem RoundTrip.scn (d : BitVec 5) (a : BitVec 5) (b : BitVec 5) (m : Bool) (n : Bool) (c : BitVec 3) (z : Bool) : RoundTrip.Statement (.scn d a b m n c z) := by
  refine roundTrip_of fun wf N hN => ?_
  obtain ⟨hlt, h0, h1, h2, h3, h4, h5, h6, h7, h8⟩ := shape43 (n := N) (q := 43) d a b m n c z hN rfl (by decide)
  refine ⟨hlt, fun word hw => ?_⟩
  rw [decodeRaw, hw, h0]; show some (Instr.scn (bf N 21 5) (bf N 16 5) (bf N 11 5) (bt N 10) (bt N 9) (bf N 1 3) (bt N 0), zf N 4 5) = _; rw [h1, h2, h3, h4, h5, h6, h7, h8]
theorem RoundTrip.wrs (d : BitVec 5) (a : BitVec 5) (m : Bool) (i : BitVec 15) : RoundTrip.Statement (.wrs d a m i) := by
  refine roundTrip_of fun wf N hN => ?_
  obtain ⟨hlt, h0, h1, h2, h3, h4⟩ := shape8 (n := N) (q := 44) d a m i hN rfl (by decide)
  refine ⟨hlt, fun word hw => ?_⟩
  rw [decodeRaw, hw, h0]; show some (Instr.wrs (bf N 21 5) (bf N 16 5) (bt N 15) (bf N 0 15), 0) = _; rw [h1, h2, h3, h4]
theorem RoundTrip.redAdd (a : BitVec 5) (b : BitVec 5) (m : Bool) (n : Bool) (c : BitVec 3) (z : Bool) : RoundTrip.Statement (.redAdd a b m n c z) := by
  refine roundTrip_of fun wf N hN => ?_
  obtain ⟨hlt, h0, h1, h2, h3, h4, h5, h6, h7, h8⟩ := shape44 (n := N) (q := 45) (k0 := 0) a b m n c z hN rfl (by decide) (by decide)
  refine ⟨hlt, fun word hw => ?_⟩
  rw [decodeRaw, hw, h0]; show decRed N = _; rw [decRed, h1]; show some (Instr.redAdd (bf N 16 5) (bf N 11 5) (bt N 10) (bt N 9) (bf N 5 3) (bt N 4), zf N 8 1 + zf N 21 5) = _; rw [h2, h3, h4, h5, h6, h7, h8]
theorem RoundTrip.redAnd (a : BitVec 5) (b : BitVec 5) (m : Bool) (n : Bool) (c : BitVec 3) (z : Bool) : RoundTrip.Statement (.redAnd a b m n c z) := by
  refine roundTrip_of fun wf N hN => ?_
  obtain ⟨hlt, h0, h1, h2, h3, h4, h5, h6, h7, h8⟩ := shape44 (n := N) (q := 45) (k0 := 1) a b m n c z hN rfl (by decide) (by decide)
  refine ⟨hlt, fun word hw => ?_⟩
  rw [decodeRaw, hw, h0]; show decRed N = _; rw [decRed, h1]; show some (Instr.redAnd (bf N 16 5) (bf N 11 5) (bt N 10) (bt N 9) (bf N 5 3) (bt N 4), zf N 8 1 + zf N 21 5) = _; rw [h2, h3, h4, h5, h6, h7, h8]
theorem RoundTrip.redOr (a : BitVec 5) (b : BitVec 5) (m : Bool) (n : Bool) (c : BitVec 3) (z : Bool) : RoundTrip.Statement (.redOr a b m n c z) := by
  refine roundTrip_of fun wf N hN => ?_
  obtain ⟨hlt, h0, h1, h2, h3, h4, h5, h6, h7, h8⟩ := shape44 (n := N) (q := 45) (k0 := 2) a b m n c z hN rfl (by decide) (by decide)
  refine ⟨hlt, fun word hw => ?_⟩
  rw [decodeRaw, hw, h0]; show decRed N = _; rw [decRed, h1]; show some (Instr.redOr (bf N 16 5) (bf N 11 5) (bt N 10) (bt N 9) (bf N 5 3) (bt N 4), zf N 8 1 + zf N 21 5) = _; rw [h2, h3, h4, h5, h6, h7, h8]
theorem RoundTrip.redXor (a : BitVec 5) (b : BitVec 5) (m : Bool) (n : Bool) (c : BitVec 3) (z : Bool) : RoundTrip.Statement (.redXor a b m n c z) := by
  refine roundTrip_of fun wf N hN => ?_
  obtain ⟨hlt, h0, h1, h2, h3, h4, h5, h6, h7, h8⟩ := shape44 (n := N) (q := 45) (k0 := 3) a b m n c z hN rfl (by decide) (by decide)
  refine ⟨hlt, fun word hw => ?_⟩
  rw [decodeRaw, hw, h0]; show decRed N = _; rw [decRed, h1]; show some (Instr.redXor (bf N 16 5) (bf N 11 5) (bt N 10) (bt N 9) (bf N 5 3) (bt N 4), zf N 8 1 + zf N 21 5) = _; rw [h2, h3, h4, h5, h6, h7, h8]
theorem RoundTrip.redMin (a : BitVec 5) (b : BitVec 5) (m : Bool) (n : Bool) (c : BitVec 3) (z : Bool) : RoundTrip.Statement (.redMin a b m n c z) := by
  refine roundTrip_of fun wf N hN => ?_
  obtain ⟨hlt, h0, h1, h2, h3, h4, h5, h6, h7, h8⟩ := shape44 (n := N) (q := 45) (k0 := 4) a b m n c z hN rfl (by decide) (by decide)
  refine ⟨hlt, fun word hw => ?_⟩
  rw [decodeRaw, hw, h0]; show decRed N = _; rw [decRed, h1]; show some (Instr.redMin (bf N 16 5) (bf N 11 5) (bt N 10) (bt N 9) (bf N 5 3) (bt N 4), zf N 8 1 + zf N 21 5) = _; rw [h2, h3, h4, h5, h6, h7, h8]
theorem RoundTrip.redMax (a : BitVec 5) (b : BitVec 5) (m : Bool) (n : Bool) (c : BitVec 3) (z : Bool) : RoundTrip.Statement (.redMax a b m n c z) := by
  refine roundTrip_of fun wf N hN => ?_
  obtain ⟨hlt, h0, h1, h2, h3, h4, h5, h6, h7, h8⟩ := shape44 (n := N) (q := 45) (k0 := 5) a b m n c z hN rfl (by decide) (by decide)
  refine ⟨hlt, fun word hw => ?_⟩
  rw [decodeRaw, hw, h0]; show decRed N = _; rw [decRed, h1]; show some (Instr.redMax (bf N 16 5) (bf N 11 5) (bt N 10) (bt N 9) (bf N 5 3) (bt N 4), zf N 8 1 + zf N 21 5) = _; rw [h2, h3, h4, h5, h6, h7, h8]
theorem RoundTrip.redMinn (a : BitVec 5) (b : BitVec 5) (m : Bool) (n : Bool) (c : BitVec 3) (z : Bool) : RoundTrip.Statement (.redMinn a b m n c z) := by
  refine roundTrip_of fun wf N hN => ?_
  obtain ⟨hlt, h0, h1, h2, h3, h4, h5, h6, h7, h8⟩ := shape44 (n := N) (q := 45) (k0 := 6) a b m n c z hN rfl (by decide) (by decide)
  refine ⟨hlt, fun word hw => ?_⟩
  rw [decodeRaw, hw, h0]; show decRed N = _; rw [decRed, h1]; show some (Instr.redMinn (bf N 16 5) (bf N 11 5) (bt N 10) (bt N 9) (bf N 5 3) (bt N 4), zf N 8 1 + zf N 21 5) = _; rw [h2, h3, h4, h5, h6, h7, h8]
theorem RoundTrip.redMaxn (a : BitVec 5) (b : BitVec 5) (m : Bool) (n : Bool) (c : BitVec 3) (z : Bool) : RoundTrip.Statement (.redMaxn a b m n c z) := by
  refine roundTrip_of fun wf N hN => ?_
  obtain ⟨hlt, h0, h1, h2, h3, h4, h5, h6, h7, h8⟩ := shape44 (n := N) (q := 45) (k0 := 7) a b m n c z hN rfl (by decide) (by decide)
  refine ⟨hlt, fun word hw => ?_⟩
  rw [decodeRaw, hw, h0]; show decRed N = _; rw [decRed, h1]; show some (Instr.redMaxn (bf N 16 5) (bf N 11 5) (bt N 10) (bt N 9) (bf N 5 3) (bt N 4), zf N 8 1 + zf N 21 5) = _; rw [h2, h3, h4, h5, h6, h7, h8]
theorem RoundTrip.redFadds (a : BitVec 5) (b : BitVec 5) (m : Bool) (n : Bool) (c : BitVec 3) : RoundTrip.Statement (.redFadds a b m n c) := by
  refine roundTrip_of fun wf N hN => ?_
  obtain ⟨hlt, h0, h1, h2, h3, h4, h5, h6, h7⟩ := shape45 (n := N) (q := 45) (k0 := 9) a b m n c hN rfl (by decide) (by decide)
  refine ⟨hlt, fun word hw => ?_⟩
  rw [decodeRaw, hw, h0]; show decRed N = _; rw [decRed, h1]; show some (Instr.redFadds (bf N 16 5) (bf N 11 5) (bt N 10) (bt N 9) (bf N 5 3), zf N 4 1 + zf N 8 1 + zf N 21 5) = _; rw [h2, h3, h4, h5, h6, h7]
theorem RoundTrip.redFaddd (a : BitVec 5) (b : BitVec 5) (m : Bool) (n : Bool) (c : BitVec 3) : RoundTrip.Statement (.redFaddd a b m n c) := by
  refine roundTrip_of fun wf N hN => ?_
  obtain ⟨hlt, h0, h1, h2, h3, h4, h5, h6, h7, h8⟩ := shape46 (n := N) (q := 45) (k0 := 10) (k1 := 1) a b m n c hN rfl (by decide) (by decide) (by decide)
  refine ⟨hlt, fun word hw => ?_⟩
  rw [decodeRaw, hw, h0]; show decRed N = _; rw [decRed, h1]; show some (Instr.redFaddd (bf N 16 5) (bf N 11 5) (bt N 10) (bt N 9) (bf N 5 3), zf N 8 1 + zf N 21 5 + (if bt N 4 then 0 else 16)) = _; rw [if_pos (show bt N 4 = true from decide_eq_true h2), h3, h4, h5, h6, h7, h8]
theorem RoundTrip.fncAcq (x : Bool) (c : BitVec 3) : RoundTrip.Statement (.fncAcq x c) := by
  refine roundTrip_of fun wf N hN => ?_
  obtain ⟨hlt, h0, h1, h2, h3, h4⟩ := shape47 (n := N) (q := 46) (k0 := 0) x c hN rfl (by decide) (by decide)
  refine ⟨hlt, fun word hw => ?_⟩
  rw [decodeRaw, hw, h0]; show decFnc N = _; rw [decFnc, h1]; show some (Instr.fncAcq (bt N 5) (bf N 2 3), zf N 6 20) = _; rw [h2, h3, h4]
theorem RoundTrip.fncRel (x : Bool) (c : BitVec 3) : RoundTrip.Statement (.fncRel x c) := by
  refine roundTrip_of fun wf N hN => ?_
  obtain ⟨hlt, h0, h1, h2, h3, h4⟩ := shape47 (n := N) (q := 46) (k0 := 1) x c hN rfl (by decide) (by decide)
  refine ⟨hlt, fun word hw => ?_⟩
  rw [decodeRaw, hw, h0]; show decFnc N = _; rw [decFnc, h1]; show some (Instr.fncRel (bt N 5) (bf N 2 3), zf N 6 20) = _; rw [h2, h3, h4]
theorem RoundTrip.fncFull (x : Bool) (c : BitVec 3) : RoundTrip.Statement (.fncFull x c) := by
  refine roundTrip_of fun wf N hN => ?_
  obtain ⟨hlt, h0, h1, h2, h3, h4⟩ := shape47 (n := N) (q := 46) (k0 := 2) x c hN rfl (by decide) (by decide)
  refine ⟨hlt, fun word hw => ?_⟩
  rw [decodeRaw, hw, h0]; show decFnc N = _; rw [decFnc, h1]; show some (Instr.fncFull (bt N 5) (bf N 2 3), zf N 6 20) = _; rw [h2, h3, h4]
theorem RoundTrip.migr (a : BitVec 5) (m : Bool) : RoundTrip.Statement (.migr a m) := by
  refine roundTrip_of fun wf N hN => ?_
  obtain ⟨hlt, h0, h1, h2, h3, h4⟩ := shape4 (n := N) (q := 47) (k0 := 0) a m hN rfl (by decide) (by decide)
  refine ⟨hlt, fun word hw => ?_⟩
  rw [decodeRaw, hw, h0]; show decSynx N = _; rw [decSynx, h1]; show some (Instr.migr (bf N 16 5) (bt N 10), zf N 9 1 + zf N 11 5 + zf N 21 5) = _; rw [h2, h3, h4]
theorem RoundTrip.breg (d : BitVec 5) (a : BitVec 5) (m : Bool) : RoundTrip.Statement (.breg d a m) := by
  refine roundTrip_of fun wf N hN => ?_
  obtain ⟨hlt, h0, h1, h2, h3, h4, h5⟩ := shape6 (n := N) (q := 47) (k0 := 2) d a m hN rfl (by decide) (by decide)
  refine ⟨hlt, fun word hw => ?_⟩
  rw [decodeRaw, hw, h0]; show decSynx N = _; rw [decSynx, h1]; show some (Instr.breg (bf N 21 5) (bf N 16 5) (bt N 10), zf N 9 1 + zf N 11 5) = _; rw [h2, h3, h4, h5]
theorem RoundTrip.bdrg (d : BitVec 5) (a : BitVec 5) (m : Bool) : RoundTrip.Statement (.bdrg d a m) := by
  refine roundTrip_of fun wf N hN => ?_
  obtain ⟨hlt, h0, h1, h2, h3, h4, h5⟩ := shape6 (n := N) (q := 47) (k0 := 3) d a m hN rfl (by decide) (by decide)
  refine ⟨hlt, fun word hw => ?_⟩
  rw [decodeRaw, hw, h0]; show decSynx N = _; rw [decSynx, h1]; show some (Instr.bdrg (bf N 21 5) (bf N 16 5) (bt N 10), zf N 9 1 + zf N 11 5) = _; rw [h2, h3, h4, h5]
theorem RoundTrip.barv (d : BitVec 5) (a : BitVec 5) (m : Bool) : RoundTrip.Statement (.barv d a m) := by
  refine roundTrip_of fun wf N hN => ?_
  obtain ⟨hlt, h0, h1, h2, h3, h4, h5⟩ := shape6 (n := N) (q := 47) (k0 := 4) d a m hN rfl (by decide) (by decide)
  refine ⟨hlt, fun word hw => ?_⟩
  rw [decodeRaw, hw, h0]; show decSynx N = _; rw [decSynx, h1]; show some (Instr.barv (bf N 21 5) (bf N 16 5) (bt N 10), zf N 9 1 + zf N 11 5) = _; rw [h2, h3, h4, h5]
theorem RoundTrip.barw (d : BitVec 5) (a : BitVec 5) (b : BitVec 5) (m : Bool) (n : Bool) : RoundTrip.Statement (.barw d a b m n) := by
  refine roundTrip_of fun wf N hN => ?_
  obtain ⟨hlt, h0, h1, h2, h3, h4, h5, h6⟩ := shape5 (n := N) (q := 47) (k0 := 5) d a b m n hN rfl (by decide) (by decide)
  refine ⟨hlt, fun word hw => ?_⟩
  rw [decodeRaw, hw, h0]; show decSynx N = _; rw [decSynx, h1]; show some (Instr.barw (bf N 21 5) (bf N 16 5) (bf N 11 5) (bt N 10) (bt N 9), 0) = _; rw [h2, h3, h4, h5, h6]
theorem RoundTrip.semp (d : BitVec 5) (a : BitVec 5) (b : BitVec 5) (m : Bool) (n : Bool) : RoundTrip.Statement (.semp d a b m n) := by
  refine roundTrip_of fun wf N hN => ?_
  obtain ⟨hlt, h0, h1, h2, h3, h4, h5, h6⟩ := shape5 (n := N) (q := 47) (k0 := 6) d a b m n hN rfl (by decide) (by decide)
  refine ⟨hlt, fun word hw => ?_⟩
  rw [decodeRaw, hw, h0]; show decSynx N = _; rw [decSynx, h1]; show some (Instr.semp (bf N 21 5) (bf N 16 5) (bf N 11 5) (bt N 10) (bt N 9), 0) = _; rw [h2, h3, h4, h5, h6]
theorem RoundTrip.semw (d : BitVec 5) (a : BitVec 5) (b : BitVec 5) (m : Bool) (n : Bool) : RoundTrip.Statement (.semw d a b m n) := by
  refine roundTrip_of fun wf N hN => ?_
  obtain ⟨hlt, h0, h1, h2, h3, h4, h5, h6⟩ := shape5 (n := N) (q := 47) (k0 := 7) d a b m n hN rfl (by decide) (by decide)
  refine ⟨hlt, fun word hw => ?_⟩
  rw [decodeRaw, hw, h0]; show decSynx N = _; rw [decSynx, h1]; show some (Instr.semw (bf N 21 5) (bf N 16 5) (bf N 11 5) (bt N 10) (bt N 9), 0) = _; rw [h2, h3, h4, h5, h6]
theorem RoundTrip.send (d : BitVec 5) (a : BitVec 5) (b : BitVec 5) (m : Bool) (n : Bool) : RoundTrip.Statement (.send d a b m n) := by
  refine roundTrip_of fun wf N hN => ?_
  obtain ⟨hlt, h0, h1, h2, h3, h4, h5, h6⟩ := shape5 (n := N) (q := 47) (k0 := 8) d a b m n hN rfl (by decide) (by decide)
  refine ⟨hlt, fun word hw => ?_⟩
  rw [decodeRaw, hw, h0]; show decSynx N = _; rw [decSynx, h1]; show some (Instr.send (bf N 21 5) (bf N 16 5) (bf N 11 5) (bt N 10) (bt N 9), 0) = _; rw [h2, h3, h4, h5, h6]
theorem RoundTrip.recv (d : BitVec 5) (a : BitVec 5) (b : BitVec 5) (m : Bool) (n : Bool) : RoundTrip.Statement (.recv d a b m n) := by
  refine roundTrip_of fun wf N hN => ?_
  obtain ⟨hlt, h0, h1, h2, h3, h4, h5, h6⟩ := shape5 (n := N) (q := 47) (k0 := 9) d a b m n hN rfl (by decide) (by decide)
  refine ⟨hlt, fun word hw => ?_⟩
  rw [decodeRaw, hw, h0]; show decSynx N = _; rw [decSynx, h1]; show some (Instr.recv (bf N 21 5) (bf N 16 5) (bf N 11 5) (bt N 10) (bt N 9), 0) = _; rw [h2, h3, h4, h5, h6]
theorem RoundTrip.qwt (a : BitVec 5) (b : BitVec 5) (m : Bool) (n : Bool) : RoundTrip.Statement (.qwt a b m n) := by
  refine roundTrip_of fun wf N hN => ?_
  obtain ⟨hlt, h0, h1, h2, h3, h4, h5, h6⟩ := shape48 (n := N) (q := 47) (k0 := 10) a b m n hN rfl (by decide) (by decide)
  refine ⟨hlt, fun word hw => ?_⟩
  rw [decodeRaw, hw, h0]; show decSynx N = _; rw [decSynx, h1]; show some (Instr.qwt (bf N 16 5) (bf N 11 5) (bt N 10) (bt N 9), zf N 21 5) = _; rw [h2, h3, h4, h5, h6]
theorem RoundTrip.qcfg (d : BitVec 5) (a : BitVec 5) (m : Bool) : RoundTrip.Statement (.qcfg d a m) := by
  refine roundTrip_of fun wf N hN => ?_
  obtain ⟨hlt, h0, h1, h2, h3, h4, h5⟩ := shape6 (n := N) (q := 47) (k0 := 11) d a m hN rfl (by decide) (by decide)
  refine ⟨hlt, fun word hw => ?_⟩
  rw [decodeRaw, hw, h0]; show decSynx N = _; rw [decSynx, h1]; show some (Instr.qcfg (bf N 21 5) (bf N 16 5) (bt N 10), zf N 9 1 + zf N 11 5) = _; rw [h2, h3, h4, h5]
theorem RoundTrip.nnew (d : BitVec 5) (a : BitVec 5) (b : BitVec 5) (m : Bool) (n : Bool) (f : Bool) : RoundTrip.Statement (.nnew d a b m n f) := by
  refine roundTrip_of fun wf N hN => ?_
  obtain ⟨hlt, h0, h1, h2, h3, h4, h5, h6, h7⟩ := shape49 (n := N) (q := 48) (k0 := 0) d a b m n f hN rfl (by decide) (by decide)
  refine ⟨hlt, fun word hw => ?_⟩
  rw [decodeRaw, hw, h0]; show decName N = _; rw [decName, h1]; show some (Instr.nnew (bf N 21 5) (bf N 16 5) (bf N 11 5) (bt N 10) (bt N 9) (bt N 8), 0) = _; rw [h2, h3, h4, h5, h6, h7]
theorem RoundTrip.nres (d : BitVec 5) (a : BitVec 5) (s : BitVec 5) (m : Bool) : RoundTrip.Statement (.nres d a s m) := by
  refine roundTrip_of fun wf N hN => ?_
  obtain ⟨hlt, h0, h1, h2, h3, h4, h5, h6⟩ := shape50 (n := N) (q := 48) (k0 := 1) d a s m hN rfl (by decide) (by decide)
  refine ⟨hlt, fun word hw => ?_⟩
  rw [decodeRaw, hw, h0]; show decName N = _; rw [decName, h1]; show some (Instr.nres (bf N 21 5) (bf N 16 5) (bf N 11 5) (bt N 10), zf N 8 2) = _; rw [h2, h3, h4, h5, h6]
theorem RoundTrip.nrst (d : BitVec 5) (a : BitVec 5) (s : BitVec 5) (m : Bool) : RoundTrip.Statement (.nrst d a s m) := by
  refine roundTrip_of fun wf N hN => ?_
  obtain ⟨hlt, h0, h1, h2, h3, h4, h5, h6⟩ := shape50 (n := N) (q := 48) (k0 := 2) d a s m hN rfl (by decide) (by decide)
  refine ⟨hlt, fun word hw => ?_⟩
  rw [decodeRaw, hw, h0]; show decName N = _; rw [decName, h1]; show some (Instr.nrst (bf N 21 5) (bf N 16 5) (bf N 11 5) (bt N 10), zf N 8 2) = _; rw [h2, h3, h4, h5, h6]
theorem RoundTrip.ncas (d : BitVec 5) (a : BitVec 5) (b : BitVec 5) (m : Bool) (n : Bool) : RoundTrip.Statement (.ncas d a b m n) := by
  refine roundTrip_of fun wf N hN => ?_
  obtain ⟨hlt, h0, h1, h2, h3, h4, h5, h6, h7⟩ := shape51 (n := N) (q := 48) (k0 := 3) d a b m n hN rfl (by decide) (by decide)
  refine ⟨hlt, fun word hw => ?_⟩
  rw [decodeRaw, hw, h0]; show decName N = _; rw [decName, h1]; show some (Instr.ncas (bf N 21 5) (bf N 16 5) (bf N 11 5) (bt N 10) (bt N 9), zf N 8 1) = _; rw [h2, h3, h4, h5, h6, h7]
theorem RoundTrip.nkil (d : BitVec 5) (a : BitVec 5) (m : Bool) : RoundTrip.Statement (.nkil d a m) := by
  refine roundTrip_of fun wf N hN => ?_
  obtain ⟨hlt, h0, h1, h2, h3, h4, h5⟩ := shape52 (n := N) (q := 48) (k0 := 4) d a m hN rfl (by decide) (by decide)
  refine ⟨hlt, fun word hw => ?_⟩
  rw [decodeRaw, hw, h0]; show decName N = _; rw [decName, h1]; show some (Instr.nkil (bf N 21 5) (bf N 16 5) (bt N 10), zf N 8 2 + zf N 11 5) = _; rw [h2, h3, h4, h5]
theorem RoundTrip.nqry (d : BitVec 5) (a : BitVec 5) (s : BitVec 5) (m : Bool) : RoundTrip.Statement (.nqry d a s m) := by
  refine roundTrip_of fun wf N hN => ?_
  obtain ⟨hlt, h0, h1, h2, h3, h4, h5, h6⟩ := shape50 (n := N) (q := 48) (k0 := 5) d a s m hN rfl (by decide) (by decide)
  refine ⟨hlt, fun word hw => ?_⟩
  rw [decodeRaw, hw, h0]; show decName N = _; rw [decName, h1]; show some (Instr.nqry (bf N 21 5) (bf N 16 5) (bf N 11 5) (bt N 10), zf N 8 2) = _; rw [h2, h3, h4, h5, h6]
theorem RoundTrip.nshd (d : BitVec 5) (a : BitVec 5) (m : Bool) : RoundTrip.Statement (.nshd d a m) := by
  refine roundTrip_of fun wf N hN => ?_
  obtain ⟨hlt, h0, h1, h2, h3, h4, h5⟩ := shape52 (n := N) (q := 48) (k0 := 6) d a m hN rfl (by decide) (by decide)
  refine ⟨hlt, fun word hw => ?_⟩
  rw [decodeRaw, hw, h0]; show decName N = _; rw [decName, h1]; show some (Instr.nshd (bf N 21 5) (bf N 16 5) (bt N 10), zf N 8 2 + zf N 11 5) = _; rw [h2, h3, h4, h5]
theorem RoundTrip.nslf (d : BitVec 5) : RoundTrip.Statement (.nslf d) := by
  refine roundTrip_of fun wf N hN => ?_
  obtain ⟨hlt, h0, h1, h2, h3⟩ := shape53 (n := N) (q := 48) (k0 := 7) d hN rfl (by decide) (by decide)
  refine ⟨hlt, fun word hw => ?_⟩
  rw [decodeRaw, hw, h0]; show decName N = _; rw [decName, h1]; show some (Instr.nslf (bf N 21 5), zf N 8 13) = _; rw [h2, h3]
theorem RoundTrip.gnew (d : BitVec 5) (a : BitVec 5) (b : BitVec 5) (m : Bool) (n : Bool) : RoundTrip.Statement (.gnew d a b m n) := by
  refine roundTrip_of fun wf N hN => ?_
  obtain ⟨hlt, h0, h1, h2, h3, h4, h5, h6, h7⟩ := shape54 (n := N) (q := 49) (k0 := 0) d a b m n hN rfl (by decide) (by decide)
  refine ⟨hlt, fun word hw => ?_⟩
  rw [decodeRaw, hw, h0]; show decGrm N = _; rw [decGrm, h1]; show some (Instr.gnew (bf N 21 5) (bf N 16 5) (bf N 11 5) (bt N 10) (bt N 9), zf N 4 5) = _; rw [h2, h3, h4, h5, h6, h7]
theorem RoundTrip.glen (d : BitVec 5) (a : BitVec 5) (m : Bool) : RoundTrip.Statement (.glen d a m) := by
  refine roundTrip_of fun wf N hN => ?_
  obtain ⟨hlt, h0, h1, h2, h3, h4, h5⟩ := shape55 (n := N) (q := 49) (k0 := 1) d a m hN rfl (by decide) (by decide)
  refine ⟨hlt, fun word hw => ?_⟩
  rw [decodeRaw, hw, h0]; show decGrm N = _; rw [decGrm, h1]; show some (Instr.glen (bf N 21 5) (bf N 16 5) (bt N 10), zf N 4 6 + zf N 11 5) = _; rw [h2, h3, h4, h5]
theorem RoundTrip.gev (d : BitVec 5) (a : BitVec 5) (b : BitVec 5) (m : Bool) (n : Bool) (l : BitVec 5) : RoundTrip.Statement (.gev d a b m n l) := by
  refine roundTrip_of fun wf N hN => ?_
  obtain ⟨hlt, h0, h1, h2, h3, h4, h5, h6, h7⟩ := shape56 (n := N) (q := 49) (k0 := 2) d a b m n l hN rfl (by decide) (by decide)
  refine ⟨hlt, fun word hw => ?_⟩
  rw [decodeRaw, hw, h0]; show decGrm N = _; rw [decGrm, h1]; show some (Instr.gev (bf N 21 5) (bf N 16 5) (bf N 11 5) (bt N 10) (bt N 9) (bf N 4 5), 0) = _; rw [h2, h3, h4, h5, h6, h7]
theorem RoundTrip.gcmb (d : BitVec 5) (a : BitVec 5) (b : BitVec 5) (l : BitVec 5) : RoundTrip.Statement (.gcmb d a b l) := by
  refine roundTrip_of fun wf N hN => ?_
  obtain ⟨hlt, h0, h1, h2, h3, h4, h5, h6⟩ := shape57 (n := N) (q := 49) (k0 := 3) d a b l hN rfl (by decide) (by decide)
  refine ⟨hlt, fun word hw => ?_⟩
  rw [decodeRaw, hw, h0]; show decGrm N = _; rw [decGrm, h1]; show some (Instr.gcmb (bf N 21 5) (bf N 16 5) (bf N 11 5) (bf N 4 5), zf N 9 2) = _; rw [h2, h3, h4, h5, h6]
theorem RoundTrip.gofs (d : BitVec 5) (a : BitVec 5) (b : BitVec 5) (m : Bool) (n : Bool) (l : BitVec 5) : RoundTrip.Statement (.gofs d a b m n l) := by
  refine roundTrip_of fun wf N hN => ?_
  obtain ⟨hlt, h0, h1, h2, h3, h4, h5, h6, h7⟩ := shape56 (n := N) (q := 49) (k0 := 4) d a b m n l hN rfl (by decide) (by decide)
  refine ⟨hlt, fun word hw => ?_⟩
  rw [decodeRaw, hw, h0]; show decGrm N = _; rw [decGrm, h1]; show some (Instr.gofs (bf N 21 5) (bf N 16 5) (bf N 11 5) (bt N 10) (bt N 9) (bf N 4 5), 0) = _; rw [h2, h3, h4, h5, h6, h7]
theorem RoundTrip.gidx (d : BitVec 5) (a : BitVec 5) (b : BitVec 5) (m : Bool) (n : Bool) : RoundTrip.Statement (.gidx d a b m n) := by
  refine roundTrip_of fun wf N hN => ?_
  obtain ⟨hlt, h0, h1, h2, h3, h4, h5, h6, h7⟩ := shape54 (n := N) (q := 49) (k0 := 5) d a b m n hN rfl (by decide) (by decide)
  refine ⟨hlt, fun word hw => ?_⟩
  rw [decodeRaw, hw, h0]; show decGrm N = _; rw [decGrm, h1]; show some (Instr.gidx (bf N 21 5) (bf N 16 5) (bf N 11 5) (bt N 10) (bt N 9), zf N 4 5) = _; rw [h2, h3, h4, h5, h6, h7]
theorem RoundTrip.gpfx (d : BitVec 5) (a : BitVec 5) (b : BitVec 5) (m : Bool) (n : Bool) : RoundTrip.Statement (.gpfx d a b m n) := by
  refine roundTrip_of fun wf N hN => ?_
  obtain ⟨hlt, h0, h1, h2, h3, h4, h5, h6, h7⟩ := shape54 (n := N) (q := 49) (k0 := 6) d a b m n hN rfl (by decide) (by decide)
  refine ⟨hlt, fun word hw => ?_⟩
  rw [decodeRaw, hw, h0]; show decGrm N = _; rw [decGrm, h1]; show some (Instr.gpfx (bf N 21 5) (bf N 16 5) (bf N 11 5) (bt N 10) (bt N 9), zf N 4 5) = _; rw [h2, h3, h4, h5, h6, h7]
theorem RoundTrip.gscn (d : BitVec 5) (a : BitVec 5) (b : BitVec 5) (m : Bool) (n : Bool) : RoundTrip.Statement (.gscn d a b m n) := by
  refine roundTrip_of fun wf N hN => ?_
  obtain ⟨hlt, h0, h1, h2, h3, h4, h5, h6, h7⟩ := shape54 (n := N) (q := 49) (k0 := 7) d a b m n hN rfl (by decide) (by decide)
  refine ⟨hlt, fun word hw => ?_⟩
  rw [decodeRaw, hw, h0]; show decGrm N = _; rw [decGrm, h1]; show some (Instr.gscn (bf N 21 5) (bf N 16 5) (bf N 11 5) (bt N 10) (bt N 9), zf N 4 5) = _; rw [h2, h3, h4, h5, h6, h7]
theorem RoundTrip.gmv (d : BitVec 5) (a : BitVec 5) (b : BitVec 5) (m : Bool) (n : Bool) : RoundTrip.Statement (.gmv d a b m n) := by
  refine roundTrip_of fun wf N hN => ?_
  obtain ⟨hlt, h0, h1, h2, h3, h4, h5, h6, h7⟩ := shape54 (n := N) (q := 49) (k0 := 8) d a b m n hN rfl (by decide) (by decide)
  refine ⟨hlt, fun word hw => ?_⟩
  rw [decodeRaw, hw, h0]; show decGrm N = _; rw [decGrm, h1]; show some (Instr.gmv (bf N 21 5) (bf N 16 5) (bf N 11 5) (bt N 10) (bt N 9), zf N 4 5) = _; rw [h2, h3, h4, h5, h6, h7]
theorem RoundTrip.grtiAll (d : BitVec 5) : RoundTrip.Statement (.grtiAll d) := by
  refine roundTrip_of fun wf N hN => ?_
  obtain ⟨hlt, h0, h1, h2, h3, h4⟩ := shape58 (n := N) (q := 49) (k0 := 9) (k1 := 0) d hN rfl (by decide) (by decide) (by decide)
  refine ⟨hlt, fun word hw => ?_⟩
  rw [decodeRaw, hw, h0]; show decGrm N = _; rw [decGrm, h1, h2]; show some (Instr.grtiAll (bf N 21 5), zf N 4 7 + zf N 16 5) = _; rw [h3, h4]
theorem RoundTrip.grtiRule (d : BitVec 5) (a : BitVec 5) (m : Bool) : RoundTrip.Statement (.grtiRule d a m) := by
  refine roundTrip_of fun wf N hN => ?_
  obtain ⟨hlt, h0, h1, h2, h3, h4, h5, h6⟩ := shape59 (n := N) (q := 49) (k0 := 9) (k1 := 1) d a m hN rfl (by decide) (by decide) (by decide)
  refine ⟨hlt, fun word hw => ?_⟩
  rw [decodeRaw, hw, h0]; show decGrm N = _; rw [decGrm, h1, h2]; show some (Instr.grtiRule (bf N 21 5) (bf N 16 5) (bt N 10), zf N 4 6) = _; rw [h3, h4, h5, h6]
theorem RoundTrip.grtiObj (d : BitVec 5) (a : BitVec 5) (m : Bool) : RoundTrip.Statement (.grtiObj d a m) := by
  refine roundTrip_of fun wf N hN => ?_
  obtain ⟨hlt, h0, h1, h2, h3, h4, h5, h6⟩ := shape59 (n := N) (q := 49) (k0 := 9) (k1 := 2) d a m hN rfl (by decide) (by decide) (by decide)
  refine ⟨hlt, fun word hw => ?_⟩
  rw [decodeRaw, hw, h0]; show decGrm N = _; rw [decGrm, h1, h2]; show some (Instr.grtiObj (bf N 21 5) (bf N 16 5) (bt N 10), zf N 4 6) = _; rw [h3, h4, h5, h6]
theorem RoundTrip.grtq (d : BitVec 5) (s : BitVec 3) : RoundTrip.Statement (.grtq d s) := by
  refine roundTrip_of fun wf N hN => ?_
  obtain ⟨hlt, h0, h1, h2, h3, h4⟩ := shape60 (n := N) (q := 49) (k0 := 10) d s hN rfl (by decide) (by decide)
  have hs := s.isLt
  have hr : N / 2048 % 32 < 8 := by have hE := (show N = 0xc400000a + d.toNat * 2097152 + s.toNat * 2048 from hN); omega
  refine ⟨hlt, fun word hw => ?_⟩
  rw [decodeRaw, hw, h0]; show decGrm N = _; rw [decGrm, h1]; show (if N / 2048 % 32 < 8 then some (Instr.grtq (bf N 21 5) (bf N 11 3), zf N 4 7 + zf N 16 5) else if N / 2048 % 32 < 10 then some (Instr.grtqClear (bf N 21 5) (bt N 11), zf N 4 7 + zf N 16 5) else some (Instr.grtq (bf N 21 5) (bf N 11 3), zf N 4 7 + zf N 16 5 + 63488)) = _; rw [if_pos hr, h2, h3, h4]
theorem RoundTrip.grtqClear (d : BitVec 5) (s : Bool) : RoundTrip.Statement (.grtqClear d s) := by
  refine roundTrip_of fun wf N hN => ?_
  obtain ⟨hlt, h0, h1, h2, h3, h4, h5⟩ := shape61 (n := N) (q := 49) (k0 := 10) (k1 := 4) d s hN rfl (by decide) (by decide) (by decide)
  have hs := s.toNat_le
  have hr : ¬ N / 2048 % 32 < 8 := by have hE := (show N = 0xc400400a + d.toNat * 2097152 + s.toNat * 2048 from hN); omega
  have hr2 : N / 2048 % 32 < 10 := by have hE := (show N = 0xc400400a + d.toNat * 2097152 + s.toNat * 2048 from hN); omega
  refine ⟨hlt, fun word hw => ?_⟩
  rw [decodeRaw, hw, h0]; show decGrm N = _; rw [decGrm, h1]; show (if N / 2048 % 32 < 8 then some (Instr.grtq (bf N 21 5) (bf N 11 3), zf N 4 7 + zf N 16 5) else if N / 2048 % 32 < 10 then some (Instr.grtqClear (bf N 21 5) (bt N 11), zf N 4 7 + zf N 16 5) else some (Instr.grtq (bf N 21 5) (bf N 11 3), zf N 4 7 + zf N 16 5 + 63488)) = _; rw [if_neg hr, if_pos hr2, h3, h4, h5]
theorem RoundTrip.spwn (d : BitVec 5) (a : BitVec 5) (b : BitVec 5) (m : Bool) (n : Bool) : RoundTrip.Statement (.spwn d a b m n) := by
  refine roundTrip_of fun wf N hN => ?_
  obtain ⟨hlt, h0, h1, h2, h3, h4, h5, h6⟩ := shape5 (n := N) (q := 50) (k0 := 0) d a b m n hN rfl (by decide) (by decide)
  refine ⟨hlt, fun word hw => ?_⟩
  rw [decodeRaw, hw, h0]; show decTask N = _; rw [decTask, h1]; show some (Instr.spwn (bf N 21 5) (bf N 16 5) (bf N 11 5) (bt N 10) (bt N 9), 0) = _; rw [h2, h3, h4, h5, h6]
theorem RoundTrip.reap (d : BitVec 5) (a : BitVec 5) (m : Bool) : RoundTrip.Statement (.reap d a m) := by
  refine roundTrip_of fun wf N hN => ?_
  obtain ⟨hlt, h0, h1, h2, h3, h4, h5⟩ := shape6 (n := N) (q := 50) (k0 := 1) d a m hN rfl (by decide) (by decide)
  refine ⟨hlt, fun word hw => ?_⟩
  rw [decodeRaw, hw, h0]; show decTask N = _; rw [decTask, h1]; show some (Instr.reap (bf N 21 5) (bf N 16 5) (bt N 10), zf N 9 1 + zf N 11 5) = _; rw [h2, h3, h4, h5]
theorem RoundTrip.slst (d : BitVec 5) (a : BitVec 5) (m : Bool) : RoundTrip.Statement (.slst d a m) := by
  refine roundTrip_of fun wf N hN => ?_
  obtain ⟨hlt, h0, h1, h2, h3, h4, h5⟩ := shape6 (n := N) (q := 50) (k0 := 2) d a m hN rfl (by decide) (by decide)
  refine ⟨hlt, fun word hw => ?_⟩
  rw [decodeRaw, hw, h0]; show decTask N = _; rw [decTask, h1]; show some (Instr.slst (bf N 21 5) (bf N 16 5) (bt N 10), zf N 9 1 + zf N 11 5) = _; rw [h2, h3, h4, h5]
theorem RoundTrip.lnch (d : BitVec 5) (a : BitVec 5) (m : Bool) : RoundTrip.Statement (.lnch d a m) := by
  refine roundTrip_of fun wf N hN => ?_
  obtain ⟨hlt, h0, h1, h2, h3, h4, h5⟩ := shape6 (n := N) (q := 50) (k0 := 3) d a m hN rfl (by decide) (by decide)
  refine ⟨hlt, fun word hw => ?_⟩
  rw [decodeRaw, hw, h0]; show decTask N = _; rw [decTask, h1]; show some (Instr.lnch (bf N 21 5) (bf N 16 5) (bt N 10), zf N 9 1 + zf N 11 5) = _; rw [h2, h3, h4, h5]
theorem RoundTrip.lwt (d : BitVec 5) (a : BitVec 5) (b : BitVec 5) (m : Bool) (n : Bool) : RoundTrip.Statement (.lwt d a b m n) := by
  refine roundTrip_of fun wf N hN => ?_
  obtain ⟨hlt, h0, h1, h2, h3, h4, h5, h6⟩ := shape5 (n := N) (q := 50) (k0 := 4) d a b m n hN rfl (by decide) (by decide)
  refine ⟨hlt, fun word hw => ?_⟩
  rw [decodeRaw, hw, h0]; show decTask N = _; rw [decTask, h1]; show some (Instr.lwt (bf N 21 5) (bf N 16 5) (bf N 11 5) (bt N 10) (bt N 9), 0) = _; rw [h2, h3, h4, h5, h6]
theorem RoundTrip.wdq (a : BitVec 5) (m : Bool) : RoundTrip.Statement (.wdq a m) := by
  refine roundTrip_of fun wf N hN => ?_
  obtain ⟨hlt, h0, h1, h2, h3, h4⟩ := shape4 (n := N) (q := 50) (k0 := 5) a m hN rfl (by decide) (by decide)
  refine ⟨hlt, fun word hw => ?_⟩
  rw [decodeRaw, hw, h0]; show decTask N = _; rw [decTask, h1]; show some (Instr.wdq (bf N 16 5) (bt N 10), zf N 9 1 + zf N 11 5 + zf N 21 5) = _; rw [h2, h3, h4]
theorem RoundTrip.amsg (d : BitVec 5) (a : BitVec 5) (b : BitVec 5) (m : Bool) (n : Bool) : RoundTrip.Statement (.amsg d a b m n) := by
  refine roundTrip_of fun wf N hN => ?_
  obtain ⟨hlt, h0, h1, h2, h3, h4, h5, h6⟩ := shape5 (n := N) (q := 50) (k0 := 6) d a b m n hN rfl (by decide) (by decide)
  refine ⟨hlt, fun word hw => ?_⟩
  rw [decodeRaw, hw, h0]; show decTask N = _; rw [decTask, h1]; show some (Instr.amsg (bf N 21 5) (bf N 16 5) (bf N 11 5) (bt N 10) (bt N 9), 0) = _; rw [h2, h3, h4, h5, h6]
theorem RoundTrip.tbnd (d : BitVec 5) : RoundTrip.Statement (.tbnd d) := by
  refine roundTrip_of fun wf N hN => ?_
  obtain ⟨hlt, h0, h1, h2, h3⟩ := shape62 (n := N) (q := 50) (k0 := 7) d hN rfl (by decide) (by decide)
  refine ⟨hlt, fun word hw => ?_⟩
  rw [decodeRaw, hw, h0]; show decTask N = _; rw [decTask, h1]; show some (Instr.tbnd (bf N 21 5), zf N 9 12) = _; rw [h2, h3]
theorem RoundTrip.encl (d : BitVec 5) (a : BitVec 5) (m : Bool) : RoundTrip.Statement (.encl d a m) := by
  refine roundTrip_of fun wf N hN => ?_
  obtain ⟨hlt, h0, h1, h2, h3, h4, h5⟩ := shape6 (n := N) (q := 50) (k0 := 8) d a m hN rfl (by decide) (by decide)
  refine ⟨hlt, fun word hw => ?_⟩
  rw [decodeRaw, hw, h0]; show decTask N = _; rw [decTask, h1]; show some (Instr.encl (bf N 21 5) (bf N 16 5) (bt N 10), zf N 9 1 + zf N 11 5) = _; rw [h2, h3, h4, h5]
theorem RoundTrip.mxl (a : BitVec 5) (m : Bool) (t : BitVec 8) : RoundTrip.Statement (.mxl a m t) := by
  refine roundTrip_of fun wf N hN => ?_
  obtain ⟨hlt, h0, h1, h2, h3, h4, h5⟩ := shape63 (n := N) (q := 52) (k0 := 0) a m t hN rfl (by decide) (by decide)
  refine ⟨hlt, fun word hw => ?_⟩
  rw [decodeRaw, hw, h0]; show decMx N = _; rw [decMx, h1]; show some (Instr.mxl (bf N 21 5) (bt N 15) (bf N 0 8), zf N 14 1 + zf N 16 5) = _; rw [h2, h3, h4, h5]
theorem RoundTrip.mxu (t : BitVec 8) : RoundTrip.Statement (.mxu t) := by
  refine roundTrip_of fun wf N hN => ?_
  obtain ⟨hlt, h0, h1, h2, h3⟩ := shape64 (n := N) (q := 52) (k0 := 1) t hN rfl (by decide) (by decide)
  refine ⟨hlt, fun word hw => ?_⟩
  rw [decodeRaw, hw, h0]; show decMx N = _; rw [decMx, h1]; show some (Instr.mxu (bf N 0 8), zf N 14 12) = _; rw [h2, h3]
theorem RoundTrip.mxw (t : BitVec 8) : RoundTrip.Statement (.mxw t) := by
  refine roundTrip_of fun wf N hN => ?_
  obtain ⟨hlt, h0, h1, h2, h3⟩ := shape64 (n := N) (q := 52) (k0 := 2) t hN rfl (by decide) (by decide)
  refine ⟨hlt, fun word hw => ?_⟩
  rw [decodeRaw, hw, h0]; show decMx N = _; rw [decMx, h1]; show some (Instr.mxw (bf N 0 8), zf N 14 12) = _; rw [h2, h3]
theorem RoundTrip.mxs (a : BitVec 5) (m : Bool) (t : BitVec 8) : RoundTrip.Statement (.mxs a m t) := by
  refine roundTrip_of fun wf N hN => ?_
  obtain ⟨hlt, h0, h1, h2, h3, h4, h5⟩ := shape63 (n := N) (q := 52) (k0 := 3) a m t hN rfl (by decide) (by decide)
  refine ⟨hlt, fun word hw => ?_⟩
  rw [decodeRaw, hw, h0]; show decMx N = _; rw [decMx, h1]; show some (Instr.mxs (bf N 21 5) (bt N 15) (bf N 0 8), zf N 14 1 + zf N 16 5) = _; rw [h2, h3, h4, h5]
theorem RoundTrip.mxb (t : BitVec 8) : RoundTrip.Statement (.mxb t) := by
  refine roundTrip_of fun wf N hN => ?_
  obtain ⟨hlt, h0, h1, h2, h3⟩ := shape64 (n := N) (q := 52) (k0 := 4) t hN rfl (by decide) (by decide)
  refine ⟨hlt, fun word hw => ?_⟩
  rw [decodeRaw, hw, h0]; show decMx N = _; rw [decMx, h1]; show some (Instr.mxb (bf N 0 8), zf N 14 12) = _; rw [h2, h3]
theorem RoundTrip.mxp (a : BitVec 5) (b : BitVec 5) (m : Bool) (n : Bool) (t : BitVec 8) : RoundTrip.Statement (.mxp a b m n t) := by
  refine roundTrip_of fun wf N hN => ?_
  obtain ⟨hlt, h0, h1, h2, h3, h4, h5, h6⟩ := shape65 (n := N) (q := 52) (k0 := 5) a b m n t hN rfl (by decide) (by decide)
  refine ⟨hlt, fun word hw => ?_⟩
  rw [decodeRaw, hw, h0]; show decMx N = _; rw [decMx, h1]; show some (Instr.mxp (bf N 21 5) (bf N 16 5) (bt N 15) (bt N 14) (bf N 0 8), 0) = _; rw [h2, h3, h4, h5, h6]
theorem RoundTrip.mxc (a : BitVec 5) (b : BitVec 5) (m : Bool) (n : Bool) (t : BitVec 8) : RoundTrip.Statement (.mxc a b m n t) := by
  refine roundTrip_of fun wf N hN => ?_
  obtain ⟨hlt, h0, h1, h2, h3, h4, h5, h6⟩ := shape65 (n := N) (q := 52) (k0 := 6) a b m n t hN rfl (by decide) (by decide)
  refine ⟨hlt, fun word hw => ?_⟩
  rw [decodeRaw, hw, h0]; show decMx N = _; rw [decMx, h1]; show some (Instr.mxc (bf N 21 5) (bf N 16 5) (bt N 15) (bt N 14) (bf N 0 8), 0) = _; rw [h2, h3, h4, h5, h6]
theorem RoundTrip.mxwb (a : BitVec 5) (m : Bool) (t : BitVec 8) : RoundTrip.Statement (.mxwb a m t) := by
  refine roundTrip_of fun wf N hN => ?_
  obtain ⟨hlt, h0, h1, h2, h3, h4, h5⟩ := shape63 (n := N) (q := 52) (k0 := 7) a m t hN rfl (by decide) (by decide)
  refine ⟨hlt, fun word hw => ?_⟩
  rw [decodeRaw, hw, h0]; show decMx N = _; rw [decMx, h1]; show some (Instr.mxwb (bf N 21 5) (bt N 15) (bf N 0 8), zf N 14 1 + zf N 16 5) = _; rw [h2, h3, h4, h5]
theorem RoundTrip.mxrd (a : BitVec 5) (m : Bool) (t : BitVec 8) : RoundTrip.Statement (.mxrd a m t) := by
  refine roundTrip_of fun wf N hN => ?_
  obtain ⟨hlt, h0, h1, h2, h3, h4, h5⟩ := shape63 (n := N) (q := 52) (k0 := 8) a m t hN rfl (by decide) (by decide)
  refine ⟨hlt, fun word hw => ?_⟩
  rw [decodeRaw, hw, h0]; show decMx N = _; rw [decMx, h1]; show some (Instr.mxrd (bf N 21 5) (bt N 15) (bf N 0 8), zf N 14 1 + zf N 16 5) = _; rw [h2, h3, h4, h5]
theorem RoundTrip.mxz (a : BitVec 5) (m : Bool) (t : BitVec 8) : RoundTrip.Statement (.mxz a m t) := by
  refine roundTrip_of fun wf N hN => ?_
  obtain ⟨hlt, h0, h1, h2, h3, h4, h5⟩ := shape63 (n := N) (q := 52) (k0 := 9) a m t hN rfl (by decide) (by decide)
  refine ⟨hlt, fun word hw => ?_⟩
  rw [decodeRaw, hw, h0]; show decMx N = _; rw [decMx, h1]; show some (Instr.mxz (bf N 21 5) (bt N 15) (bf N 0 8), zf N 14 1 + zf N 16 5) = _; rw [h2, h3, h4, h5]
theorem RoundTrip.cpy (a : BitVec 5) (b : BitVec 5) (m : Bool) (n : Bool) (t : BitVec 8) : RoundTrip.Statement (.cpy a b m n t) := by
  refine roundTrip_of fun wf N hN => ?_
  obtain ⟨hlt, h0, h1, h2, h3, h4, h5, h6⟩ := shape65 (n := N) (q := 53) (k0 := 0) a b m n t hN rfl (by decide) (by decide)
  refine ⟨hlt, fun word hw => ?_⟩
  rw [decodeRaw, hw, h0]; show decCp N = _; rw [decCp, h1]; show some (Instr.cpy (bf N 21 5) (bf N 16 5) (bt N 15) (bt N 14) (bf N 0 8), 0) = _; rw [h2, h3, h4, h5, h6]
theorem RoundTrip.cpr (a : BitVec 5) (b : BitVec 5) (m : Bool) (n : Bool) (t : BitVec 8) : RoundTrip.Statement (.cpr a b m n t) := by
  refine roundTrip_of fun wf N hN => ?_
  obtain ⟨hlt, h0, h1, h2, h3, h4, h5, h6⟩ := shape65 (n := N) (q := 53) (k0 := 1) a b m n t hN rfl (by decide) (by decide)
  refine ⟨hlt, fun word hw => ?_⟩
  rw [decodeRaw, hw, h0]; show decCp N = _; rw [decCp, h1]; show some (Instr.cpr (bf N 21 5) (bf N 16 5) (bt N 15) (bt N 14) (bf N 0 8), 0) = _; rw [h2, h3, h4, h5, h6]
theorem RoundTrip.cpz (a : BitVec 5) (b : BitVec 5) (m : Bool) (n : Bool) (t : BitVec 8) : RoundTrip.Statement (.cpz a b m n t) := by
  refine roundTrip_of fun wf N hN => ?_
  obtain ⟨hlt, h0, h1, h2, h3, h4, h5, h6⟩ := shape65 (n := N) (q := 53) (k0 := 2) a b m n t hN rfl (by decide) (by decide)
  refine ⟨hlt, fun word hw => ?_⟩
  rw [decodeRaw, hw, h0]; show decCp N = _; rw [decCp, h1]; show some (Instr.cpz (bf N 21 5) (bf N 16 5) (bt N 15) (bt N 14) (bf N 0 8), 0) = _; rw [h2, h3, h4, h5, h6]
theorem RoundTrip.cps (a : BitVec 5) (b : BitVec 5) (m : Bool) (n : Bool) (t : BitVec 8) : RoundTrip.Statement (.cps a b m n t) := by
  refine roundTrip_of fun wf N hN => ?_
  obtain ⟨hlt, h0, h1, h2, h3, h4, h5, h6⟩ := shape65 (n := N) (q := 53) (k0 := 3) a b m n t hN rfl (by decide) (by decide)
  refine ⟨hlt, fun word hw => ?_⟩
  rw [decodeRaw, hw, h0]; show decCp N = _; rw [decCp, h1]; show some (Instr.cps (bf N 21 5) (bf N 16 5) (bt N 15) (bt N 14) (bf N 0 8), 0) = _; rw [h2, h3, h4, h5, h6]
theorem RoundTrip.cpcCompress (a : BitVec 5) (b : BitVec 5) (m : Bool) (n : Bool) (t : BitVec 8) : RoundTrip.Statement (.cpcCompress a b m n t) := by
  refine roundTrip_of fun wf N hN => ?_
  obtain ⟨hlt, h0, h1, h2, h3, h4, h5, h6⟩ := shape65 (n := N) (q := 53) (k0 := 4) a b m n t hN rfl (by decide) (by decide)
  refine ⟨hlt, fun word hw => ?_⟩
  rw [decodeRaw, hw, h0]; show decCp N = _; rw [decCp, h1]; show some (Instr.cpcCompress (bf N 21 5) (bf N 16 5) (bt N 15) (bt N 14) (bf N 0 8), 0) = _; rw [h2, h3, h4, h5, h6]
theorem RoundTrip.cpcExpand (a : BitVec 5) (b : BitVec 5) (m : Bool) (n : Bool) (t : BitVec 8) : RoundTrip.Statement (.cpcExpand a b m n t) := roundTrip_none rfl
theorem RoundTrip.gexp (a : BitVec 5) (b : BitVec 5) (m : Bool) (n : Bool) (t : BitVec 8) : RoundTrip.Statement (.gexp a b m n t) := by
  refine roundTrip_of fun wf N hN => ?_
  obtain ⟨hlt, h0, h1, h2, h3, h4, h5, h6⟩ := shape65 (n := N) (q := 53) (k0 := 5) a b m n t hN rfl (by decide) (by decide)
  refine ⟨hlt, fun word hw => ?_⟩
  rw [decodeRaw, hw, h0]; show decCp N = _; rw [decCp, h1]; show some (Instr.gexp (bf N 21 5) (bf N 16 5) (bt N 15) (bt N 14) (bf N 0 8), 0) = _; rw [h2, h3, h4, h5, h6]
theorem RoundTrip.cvt (a : BitVec 5) (b : BitVec 5) (m : Bool) (n : Bool) (t : BitVec 8) : RoundTrip.Statement (.cvt a b m n t) := by
  refine roundTrip_of fun wf N hN => ?_
  obtain ⟨hlt, h0, h1, h2, h3, h4, h5, h6⟩ := shape65 (n := N) (q := 54) (k0 := 0) a b m n t hN rfl (by decide) (by decide)
  refine ⟨hlt, fun word hw => ?_⟩
  rw [decodeRaw, hw, h0]; show decCv N = _; rw [decCv, h1]; show some (Instr.cvt (bf N 21 5) (bf N 16 5) (bt N 15) (bt N 14) (bf N 0 8), 0) = _; rw [h2, h3, h4, h5, h6]
theorem RoundTrip.cvpAct (a : BitVec 5) (b : BitVec 5) (m : Bool) (n : Bool) (t : BitVec 8) : RoundTrip.Statement (.cvpAct a b m n t) := by
  refine roundTrip_of fun wf N hN => ?_
  obtain ⟨hlt, h0, h1, h2, h3, h4, h5, h6⟩ := shape65 (n := N) (q := 54) (k0 := 1) a b m n t hN rfl (by decide) (by decide)
  refine ⟨hlt, fun word hw => ?_⟩
  rw [decodeRaw, hw, h0]; show decCv N = _; rw [decCv, h1]; show some (Instr.cvpAct (bf N 21 5) (bf N 16 5) (bt N 15) (bt N 14) (bf N 0 8), 0) = _; rw [h2, h3, h4, h5, h6]
theorem RoundTrip.cvpWcol (a : BitVec 5) (b : BitVec 5) (m : Bool) (n : Bool) (t : BitVec 8) : RoundTrip.Statement (.cvpWcol a b m n t) := roundTrip_none rfl
theorem RoundTrip.cvq (a : BitVec 5) (b : BitVec 5) (m : Bool) (n : Bool) (t : BitVec 8) : RoundTrip.Statement (.cvq a b m n t) := by
  refine roundTrip_of fun wf N hN => ?_
  obtain ⟨hlt, h0, h1, h2, h3, h4, h5, h6⟩ := shape65 (n := N) (q := 54) (k0 := 2) a b m n t hN rfl (by decide) (by decide)
  refine ⟨hlt, fun word hw => ?_⟩
  rw [decodeRaw, hw, h0]; show decCv N = _; rw [decCv, h1]; show some (Instr.cvq (bf N 21 5) (bf N 16 5) (bt N 15) (bt N 14) (bf N 0 8), 0) = _; rw [h2, h3, h4, h5, h6]
theorem RoundTrip.engw (a : BitVec 5) (m : Bool) (e : BitVec 2) (r : BitVec 6) : RoundTrip.Statement (.engw a m e r) := by
  refine roundTrip_of fun wf N hN => ?_
  obtain ⟨hlt, h0, h1, h2, h3, h4, h5, h6⟩ := shape66 (n := N) (q := 55) (k0 := 0) a m e r hN rfl (by decide) (by decide)
  refine ⟨hlt, fun word hw => ?_⟩
  rw [decodeRaw, hw, h0]; show decEng N = _; rw [decEng, h1]; show some (Instr.engw (bf N 16 5) (bt N 10) (bf N 6 2) (bf N 0 6), zf N 9 1 + zf N 11 5 + zf N 21 5) = _; rw [h2, h3, h4, h5, h6]
theorem RoundTrip.engr (d : BitVec 5) (e : BitVec 2) (r : BitVec 6) : RoundTrip.Statement (.engr d e r) := by
  refine roundTrip_of fun wf N hN => ?_
  obtain ⟨hlt, h0, h1, h2, h3, h4, h5⟩ := shape67 (n := N) (q := 55) (k0 := 1) d e r hN rfl (by decide) (by decide)
  have hr : ¬ N % 256 = 216 := by
    intro h
    have := e.isLt
    have := r.isLt
    have hE := (show N = 0xdc000100 + d.toNat * 2097152 + e.toNat * 64 + r.toNat from hN)
    have e3 : e = 3#2 := BitVec.eq_of_toNat_eq (by simp; omega)
    have r24 : r = 24#6 := BitVec.eq_of_toNat_eq (by simp; omega)
    rw [e3, r24] at wf
    have hw : hasOwnWord (.engr d 3#2 24#6) = false := rfl
    simp [WellFormed, hw] at wf
  refine ⟨hlt, fun word hw => ?_⟩
  rw [decodeRaw, hw, h0]; show decEng N = _; rw [decEng, h1]; show (if N % 256 = 216 then some (Instr.engrBdat (bf N 21 5) (bf N 16 5) (bt N 10), zf N 9 1 + zf N 11 5) else some (Instr.engr (bf N 21 5) (bf N 6 2) (bf N 0 6), zf N 9 12)) = _; rw [if_neg hr, h2, h3, h4, h5]
theorem RoundTrip.engrBdat (d : BitVec 5) (a : BitVec 5) (m : Bool) : RoundTrip.Statement (.engrBdat d a m) := by
  refine roundTrip_of fun wf N hN => ?_
  obtain ⟨hlt, h0, h1, h2, h3, h4, h5⟩ := shape6 (n := N) (q := 55) (k0 := 472) d a m hN rfl (by decide) (by decide)
  have hr : N % 256 = 216 := by omega
  have hr1 : N / 256 % 2 = 1 := by omega
  refine ⟨hlt, fun word hw => ?_⟩
  rw [decodeRaw, hw, h0]; show decEng N = _; rw [decEng, hr1]; show (if N % 256 = 216 then some (Instr.engrBdat (bf N 21 5) (bf N 16 5) (bt N 10), zf N 9 1 + zf N 11 5) else some (Instr.engr (bf N 21 5) (bf N 6 2) (bf N 0 6), zf N 9 12)) = _; rw [if_pos hr, h2, h3, h4, h5]
theorem RoundTrip.prmt (d : BitVec 5) (a : BitVec 5) (b : BitVec 5) (m : Bool) (n : Bool) : RoundTrip.Statement (.prmt d a b m n) := by
  refine roundTrip_of fun wf N hN => ?_
  obtain ⟨hlt, h0, h1, h2, h3, h4, h5, h6⟩ := shape5 (n := N) (q := 56) (k0 := 0) d a b m n hN rfl (by decide) (by decide)
  refine ⟨hlt, fun word hw => ?_⟩
  rw [decodeRaw, hw, h0]; show decSys N = _; rw [decSys, h1]; show some (Instr.prmt (bf N 21 5) (bf N 16 5) (bf N 11 5) (bt N 10) (bt N 9), 0) = _; rw [h2, h3, h4, h5, h6]
theorem RoundTrip.prmtRow (d : BitVec 5) (a : BitVec 5) (b : BitVec 5) (m : Bool) (n : Bool) : RoundTrip.Statement (.prmtRow d a b m n) := roundTrip_none rfl
theorem RoundTrip.hgrp (d : BitVec 5) (a : BitVec 5) (b : BitVec 5) (m : Bool) (n : Bool) : RoundTrip.Statement (.hgrp d a b m n) := by
  refine roundTrip_of fun wf N hN => ?_
  obtain ⟨hlt, h0, h1, h2, h3, h4, h5, h6⟩ := shape5 (n := N) (q := 56) (k0 := 1) d a b m n hN rfl (by decide) (by decide)
  refine ⟨hlt, fun word hw => ?_⟩
  rw [decodeRaw, hw, h0]; show decSys N = _; rw [decSys, h1]; show some (Instr.hgrp (bf N 21 5) (bf N 16 5) (bf N 11 5) (bt N 10) (bt N 9), 0) = _; rw [h2, h3, h4, h5, h6]
theorem RoundTrip.halt (d : BitVec 5) (a : BitVec 5) (m : Bool) : RoundTrip.Statement (.halt d a m) := by
  refine roundTrip_of fun wf N hN => ?_
  obtain ⟨hlt, h0, h1, h2, h3, h4, h5⟩ := shape6 (n := N) (q := 56) (k0 := 2) d a m hN rfl (by decide) (by decide)
  refine ⟨hlt, fun word hw => ?_⟩
  rw [decodeRaw, hw, h0]; show decSys N = _; rw [decSys, h1]; show some (Instr.halt (bf N 21 5) (bf N 16 5) (bt N 10), zf N 9 1 + zf N 11 5) = _; rw [h2, h3, h4, h5]
theorem RoundTrip.resm (d : BitVec 5) (a : BitVec 5) (b : BitVec 5) (m : Bool) (n : Bool) : RoundTrip.Statement (.resm d a b m n) := by
  refine roundTrip_of fun wf N hN => ?_
  obtain ⟨hlt, h0, h1, h2, h3, h4, h5, h6⟩ := shape5 (n := N) (q := 56) (k0 := 3) d a b m n hN rfl (by decide) (by decide)
  refine ⟨hlt, fun word hw => ?_⟩
  rw [decodeRaw, hw, h0]; show decSys N = _; rw [decSys, h1]; show some (Instr.resm (bf N 21 5) (bf N 16 5) (bf N 11 5) (bt N 10) (bt N 9), 0) = _; rw [h2, h3, h4, h5, h6]
theorem RoundTrip.tccfIn (d : BitVec 5) (a : BitVec 5) (b : BitVec 5) (m : Bool) (n : Bool) : RoundTrip.Statement (.tccfIn d a b m n) := by
  refine roundTrip_of fun wf N hN => ?_
  obtain ⟨hlt, h0, h1, h2, h3, h4, h5, h6⟩ := shape5 (n := N) (q := 56) (k0 := 4) d a b m n hN rfl (by decide) (by decide)
  refine ⟨hlt, fun word hw => ?_⟩
  rw [decodeRaw, hw, h0]; show decSys N = _; rw [decSys, h1]; show some (Instr.tccfIn (bf N 21 5) (bf N 16 5) (bf N 11 5) (bt N 10) (bt N 9), 0) = _; rw [h2, h3, h4, h5, h6]
theorem RoundTrip.lrtb (d : BitVec 5) (a : BitVec 5) (b : BitVec 5) (m : Bool) (n : Bool) : RoundTrip.Statement (.lrtb d a b m n) := by
  refine roundTrip_of fun wf N hN => ?_
  obtain ⟨hlt, h0, h1, h2, h3, h4, h5, h6⟩ := shape5 (n := N) (q := 56) (k0 := 5) d a b m n hN rfl (by decide) (by decide)
  refine ⟨hlt, fun word hw => ?_⟩
  rw [decodeRaw, hw, h0]; show decSys N = _; rw [decSys, h1]; show some (Instr.lrtb (bf N 21 5) (bf N 16 5) (bf N 11 5) (bt N 10) (bt N 9), 0) = _; rw [h2, h3, h4, h5, h6]
theorem RoundTrip.nop : RoundTrip.Statement .nop := by
  refine roundTrip_of fun wf N hN => ?_
  obtain ⟨hlt, h0, h1, h2⟩ := shape68 (n := N) (q := 0) (k0 := 1) hN rfl (by decide) (by decide)
  refine ⟨hlt, fun word hw => ?_⟩
  rw [decodeRaw, hw, h0]; show decMisc N = _; rw [decMisc, h1]; show some (Instr.nop, zf N 9 17) = _; rw [h2]
theorem RoundTrip.uni : RoundTrip.Statement .uni := by
  refine roundTrip_of fun wf N hN => ?_
  obtain ⟨hlt, h0, h1, h2⟩ := shape68 (n := N) (q := 0) (k0 := 2) hN rfl (by decide) (by decide)
  refine ⟨hlt, fun word hw => ?_⟩
  rw [decodeRaw, hw, h0]; show decMisc N = _; rw [decMisc, h1]; show some (Instr.uni, zf N 9 17) = _; rw [h2]
theorem RoundTrip.brk : RoundTrip.Statement .brk := by
  refine roundTrip_of fun wf N hN => ?_
  obtain ⟨hlt, h0, h1, h2⟩ := shape68 (n := N) (q := 0) (k0 := 3) hN rfl (by decide) (by decide)
  refine ⟨hlt, fun word hw => ?_⟩
  rw [decodeRaw, hw, h0]; show decMisc N = _; rw [decMisc, h1]; show some (Instr.brk, zf N 9 17) = _; rw [h2]
theorem RoundTrip.ckpt : RoundTrip.Statement .ckpt := by
  refine roundTrip_of fun wf N hN => ?_
  obtain ⟨hlt, h0, h1, h2⟩ := shape68 (n := N) (q := 0) (k0 := 4) hN rfl (by decide) (by decide)
  refine ⟨hlt, fun word hw => ?_⟩
  rw [decodeRaw, hw, h0]; show decMisc N = _; rw [decMisc, h1]; show some (Instr.ckpt, zf N 9 17) = _; rw [h2]
theorem RoundTrip.eret : RoundTrip.Statement .eret := by
  refine roundTrip_of fun wf N hN => ?_
  obtain ⟨hlt, h0, h1, h2⟩ := shape68 (n := N) (q := 0) (k0 := 11) hN rfl (by decide) (by decide)
  refine ⟨hlt, fun word hw => ?_⟩
  rw [decodeRaw, hw, h0]; show decMisc N = _; rw [decMisc, h1]; show some (Instr.eret, zf N 9 17) = _; rw [h2]
theorem RoundTrip.uiret : RoundTrip.Statement .uiret := by
  refine roundTrip_of fun wf N hN => ?_
  obtain ⟨hlt, h0, h1, h2⟩ := shape68 (n := N) (q := 0) (k0 := 12) hN rfl (by decide) (by decide)
  refine ⟨hlt, fun word hw => ?_⟩
  rw [decodeRaw, hw, h0]; show decMisc N = _; rw [decMisc, h1]; show some (Instr.uiret, zf N 9 17) = _; rw [h2]
theorem RoundTrip.psd : RoundTrip.Statement .psd := by
  refine roundTrip_of fun wf N hN => ?_
  obtain ⟨hlt, h0, h1, h2⟩ := shape68 (n := N) (q := 31) (k0 := 7) hN rfl (by decide) (by decide)
  refine ⟨hlt, fun word hw => ?_⟩
  rw [decodeRaw, hw, h0]; show decMemx N = _; rw [decMemx, h1]; show some (Instr.psd, zf N 9 17) = _; rw [h2]
theorem RoundTrip.xclr : RoundTrip.Statement .xclr := by
  refine roundTrip_of fun wf N hN => ?_
  obtain ⟨hlt, h0, h1, h2⟩ := shape69 (n := N) (q := 38) (k0 := 0) hN rfl (by decide) (by decide)
  refine ⟨hlt, fun word hw => ?_⟩
  rw [decodeRaw, hw, h0]; show decXacc N = _; rw [decXacc, h1]; show some (Instr.xclr, zf N 5 21) = _; rw [h2]
theorem RoundTrip.mhom : RoundTrip.Statement .mhom := by
  refine roundTrip_of fun wf N hN => ?_
  obtain ⟨hlt, h0, h1, h2⟩ := shape68 (n := N) (q := 47) (k0 := 1) hN rfl (by decide) (by decide)
  refine ⟨hlt, fun word hw => ?_⟩
  rw [decodeRaw, hw, h0]; show decSynx N = _; rw [decSynx, h1]; show some (Instr.mhom, zf N 9 17) = _; rw [h2]
theorem RoundTrip.regionTableWrite : RoundTrip.Statement .regionTableWrite := roundTrip_none rfl
theorem RoundTrip.mflgWrite : RoundTrip.Statement .mflgWrite := roundTrip_none rfl
theorem RoundTrip.merrWrite : RoundTrip.Statement .merrWrite := roundTrip_none rfl
theorem RoundTrip.resmStep : RoundTrip.Statement .resmStep := roundTrip_none rfl
theorem RoundTrip.tccfLazy : RoundTrip.Statement .tccfLazy := roundTrip_none rfl
theorem RoundTrip.tccfLend : RoundTrip.Statement .tccfLend := roundTrip_none rfl
theorem RoundTrip.tccfOut : RoundTrip.Statement .tccfOut := roundTrip_none rfl
theorem RoundTrip.producerValueArrival : RoundTrip.Statement .producerValueArrival := roundTrip_none rfl
theorem RoundTrip.uniPostArrival : RoundTrip.Statement .uniPostArrival := roundTrip_none rfl
theorem RoundTrip.loadFaultArrival : RoundTrip.Statement .loadFaultArrival := roundTrip_none rfl
theorem RoundTrip.journalAck : RoundTrip.Statement .journalAck := roundTrip_none rfl
theorem RoundTrip.journalRefusal : RoundTrip.Statement .journalRefusal := roundTrip_none rfl
theorem RoundTrip.memoryRequestAtTarget : RoundTrip.Statement .memoryRequestAtTarget := roundTrip_none rfl
theorem RoundTrip.nonresidentRequestPerformed : RoundTrip.Statement .nonresidentRequestPerformed := roundTrip_none rfl
theorem RoundTrip.atomicAtHome : RoundTrip.Statement .atomicAtHome := roundTrip_none rfl
theorem RoundTrip.remoteUpdate : RoundTrip.Statement .remoteUpdate := roundTrip_none rfl
theorem RoundTrip.heldStorePerform : RoundTrip.Statement .heldStorePerform := roundTrip_none rfl
theorem RoundTrip.compChunkAccess : RoundTrip.Statement .compChunkAccess := roundTrip_none rfl
theorem RoundTrip.placementTlbShootdown : RoundTrip.Statement .placementTlbShootdown := roundTrip_none rfl
theorem RoundTrip.reservationHoldExpiry : RoundTrip.Statement .reservationHoldExpiry := roundTrip_none rfl
theorem RoundTrip.hostCompletionTimeout : RoundTrip.Statement .hostCompletionTimeout := roundTrip_none rfl
theorem RoundTrip.contextMigrationArrival : RoundTrip.Statement .contextMigrationArrival := roundTrip_none rfl
theorem RoundTrip.contextReturn : RoundTrip.Statement .contextReturn := roundTrip_none rfl
theorem RoundTrip.messagePlacement : RoundTrip.Statement .messagePlacement := roundTrip_none rfl
theorem RoundTrip.overflowReturn : RoundTrip.Statement .overflowReturn := roundTrip_none rfl
theorem RoundTrip.postedMessagePlacement : RoundTrip.Statement .postedMessagePlacement := roundTrip_none rfl
theorem RoundTrip.inboxFull : RoundTrip.Statement .inboxFull := roundTrip_none rfl
theorem RoundTrip.queueAppend : RoundTrip.Statement .queueAppend := roundTrip_none rfl
theorem RoundTrip.queueDequeue : RoundTrip.Statement .queueDequeue := roundTrip_none rfl
theorem RoundTrip.userInterrupt : RoundTrip.Statement .userInterrupt := roundTrip_none rfl
theorem RoundTrip.barrierUnitArrival : RoundTrip.Statement .barrierUnitArrival := roundTrip_none rfl
theorem RoundTrip.barrierRelease : RoundTrip.Statement .barrierRelease := roundTrip_none rfl
theorem RoundTrip.waitExpired : RoundTrip.Statement .waitExpired := roundTrip_none rfl
theorem RoundTrip.queueExpired : RoundTrip.Statement .queueExpired := roundTrip_none rfl
theorem RoundTrip.mintIssue : RoundTrip.Statement .mintIssue := roundTrip_none rfl
theorem RoundTrip.mintBlockRecord : RoundTrip.Statement .mintBlockRecord := roundTrip_none rfl
theorem RoundTrip.nameTableOperation : RoundTrip.Statement .nameTableOperation := roundTrip_none rfl
theorem RoundTrip.shootdownArrival : RoundTrip.Statement .shootdownArrival := roundTrip_none rfl
theorem RoundTrip.shootdownAcknowledge : RoundTrip.Statement .shootdownAcknowledge := roundTrip_none rfl
theorem RoundTrip.shootdownAckAtEntry : RoundTrip.Statement .shootdownAckAtEntry := roundTrip_none rfl
theorem RoundTrip.grammarWalk : RoundTrip.Statement .grammarWalk := roundTrip_none rfl
theorem RoundTrip.arrayWeightLoad : RoundTrip.Statement .arrayWeightLoad := roundTrip_none rfl
theorem RoundTrip.arrayStream : RoundTrip.Statement .arrayStream := roundTrip_none rfl
theorem RoundTrip.arrayBatchedStream : RoundTrip.Statement .arrayBatchedStream := roundTrip_none rfl
theorem RoundTrip.arrayBankPrepare : RoundTrip.Statement .arrayBankPrepare := roundTrip_none rfl
theorem RoundTrip.arrayBankReadout : RoundTrip.Statement .arrayBankReadout := roundTrip_none rfl
theorem RoundTrip.batchCompletion : RoundTrip.Statement .batchCompletion := roundTrip_none rfl
theorem RoundTrip.leaseRunEnd : RoundTrip.Statement .leaseRunEnd := roundTrip_none rfl
theorem RoundTrip.copyRun : RoundTrip.Statement .copyRun := roundTrip_none rfl
theorem RoundTrip.fillRun : RoundTrip.Statement .fillRun := roundTrip_none rfl
theorem RoundTrip.scrubRun : RoundTrip.Statement .scrubRun := roundTrip_none rfl
theorem RoundTrip.restripeRun : RoundTrip.Statement .restripeRun := roundTrip_none rfl
theorem RoundTrip.compressRun : RoundTrip.Statement .compressRun := roundTrip_none rfl
theorem RoundTrip.expandRun : RoundTrip.Statement .expandRun := roundTrip_none rfl
theorem RoundTrip.grammarExpandRun : RoundTrip.Statement .grammarExpandRun := roundTrip_none rfl
theorem RoundTrip.convertRun : RoundTrip.Statement .convertRun := roundTrip_none rfl
theorem RoundTrip.quantiseRun : RoundTrip.Statement .quantiseRun := roundTrip_none rfl
theorem RoundTrip.planeLayoutRun : RoundTrip.Statement .planeLayoutRun := roundTrip_none rfl
theorem RoundTrip.engineCompletion : RoundTrip.Statement .engineCompletion := roundTrip_none rfl
theorem RoundTrip.launchAccept : RoundTrip.Statement .launchAccept := roundTrip_none rfl
theorem RoundTrip.launchSelection : RoundTrip.Statement .launchSelection := roundTrip_none rfl
theorem RoundTrip.taskAging : RoundTrip.Statement .taskAging := roundTrip_none rfl
theorem RoundTrip.rowLoadDone : RoundTrip.Statement .rowLoadDone := roundTrip_none rfl
theorem RoundTrip.rowFree : RoundTrip.Statement .rowFree := roundTrip_none rfl
theorem RoundTrip.costartStart : RoundTrip.Statement .costartStart := roundTrip_none rfl
theorem RoundTrip.costartDeadline : RoundTrip.Statement .costartDeadline := roundTrip_none rfl
theorem RoundTrip.launchComplete : RoundTrip.Statement .launchComplete := roundTrip_none rfl
theorem RoundTrip.distributorQuery : RoundTrip.Statement .distributorQuery := roundTrip_none rfl
theorem RoundTrip.preemptDeadline : RoundTrip.Statement .preemptDeadline := roundTrip_none rfl
theorem RoundTrip.checkpointStreamWrite : RoundTrip.Statement .checkpointStreamWrite := roundTrip_none rfl
theorem RoundTrip.wakeMessage : RoundTrip.Statement .wakeMessage := roundTrip_none rfl
theorem RoundTrip.haltTriggerArrival : RoundTrip.Statement .haltTriggerArrival := roundTrip_none rfl
theorem RoundTrip.hwBreakpointMatch : RoundTrip.Statement .hwBreakpointMatch := roundTrip_none rfl
theorem RoundTrip.jtagHalt : RoundTrip.Statement .jtagHalt := roundTrip_none rfl
theorem RoundTrip.stepEnd : RoundTrip.Statement .stepEnd := roundTrip_none rfl
theorem RoundTrip.stewardStartPort : RoundTrip.Statement .stewardStartPort := roundTrip_none rfl
theorem RoundTrip.threadEndPort : RoundTrip.Statement .threadEndPort := roundTrip_none rfl
theorem RoundTrip.unfreezePort : RoundTrip.Statement .unfreezePort := roundTrip_none rfl
theorem RoundTrip.violationRecordFree : RoundTrip.Statement .violationRecordFree := roundTrip_none rfl
theorem RoundTrip.wakePort : RoundTrip.Statement .wakePort := roundTrip_none rfl
theorem RoundTrip.faultQueuePop : RoundTrip.Statement .faultQueuePop := roundTrip_none rfl
theorem RoundTrip.pageRequestPop : RoundTrip.Statement .pageRequestPop := roundTrip_none rfl
theorem RoundTrip.queueOvfClear : RoundTrip.Statement .queueOvfClear := roundTrip_none rfl
theorem RoundTrip.ctrlWrite : RoundTrip.Statement .ctrlWrite := roundTrip_none rfl
theorem RoundTrip.controlRegisterWrite : RoundTrip.Statement .controlRegisterWrite := roundTrip_none rfl
theorem RoundTrip.hostActiveMessagePort : RoundTrip.Statement .hostActiveMessagePort := roundTrip_none rfl
theorem RoundTrip.hostLaunchPort : RoundTrip.Statement .hostLaunchPort := roundTrip_none rfl
theorem RoundTrip.hostAcknowledgePort : RoundTrip.Statement .hostAcknowledgePort := roundTrip_none rfl
theorem RoundTrip.hostWindowAccess : RoundTrip.Statement .hostWindowAccess := roundTrip_none rfl
theorem RoundTrip.hostAtomicop : RoundTrip.Statement .hostAtomicop := roundTrip_none rfl
theorem RoundTrip.peerRequest : RoundTrip.Statement .peerRequest := roundTrip_none rfl
theorem RoundTrip.cxlLinkDown : RoundTrip.Statement .cxlLinkDown := roundTrip_none rfl
theorem RoundTrip.retrainRequest : RoundTrip.Statement .retrainRequest := roundTrip_none rfl
theorem RoundTrip.retrainEnd : RoundTrip.Statement .retrainEnd := roundTrip_none rfl
theorem RoundTrip.powerWindow : RoundTrip.Statement .powerWindow := roundTrip_none rfl
theorem RoundTrip.powerGood : RoundTrip.Statement .powerGood := roundTrip_none rfl
theorem RoundTrip.reset : RoundTrip.Statement .reset := roundTrip_none rfl
theorem RoundTrip.badPageAppend : RoundTrip.Statement .badPageAppend := roundTrip_none rfl
theorem RoundTrip.spdmRequest : RoundTrip.Statement .spdmRequest := roundTrip_none rfl
theorem RoundTrip.illegalOpcode : RoundTrip.Statement .illegalOpcode := roundTrip_none rfl
theorem RoundTrip.instructionStoreRefill : RoundTrip.Statement .instructionStoreRefill := roundTrip_none rfl
theorem RoundTrip.placementTlbWalk : RoundTrip.Statement .placementTlbWalk := roundTrip_none rfl
theorem RoundTrip.cxlLinkUp : RoundTrip.Statement .cxlLinkUp := roundTrip_none rfl
theorem RoundTrip.softError : RoundTrip.Statement .softError := roundTrip_none rfl

end Sys2Proof.Laws
end

