-- ==== Sys2Proof/Safety.lean ====
section
/-! DEFINITION. The words the statements use: what a safe run is, the thread whose turn it is, reading its operands, and what
an instruction leaves. -/
namespace Sys2Proof.Machine

/-- The step answers a next state. -/
def Goes (o : Out) : Prop := ∃ s, o = .next s

/-- What every step keeps: memory in canonical form, and no write waiting between steps. -/
abbrev State.Inv (s : State) : Prop := Memory.wf s.mem = true ∧ s.dev.wbuf = [] ∧ s.dev.wclear = []

/-! ## The thread whose turn it is -/

def Dev.me (d : Dev) : Thread := d.thread d.cur
def State.me (s : State) : Thread := s.dev.me
/-- The core the thread runs at. -/
def State.core (s : State) : Nat := s.me.at s.dev.cur
/-- A slot that holds a thread. -/
abbrev State.ready (s : State) : Prop := s.me.st ≠ .vacant
/-- R49: the length of the instruction, or of a UNI pair. -/
def Dev.len (d : Dev) : D := if d.inUni then 8 else 4
/-- The thread becomes `f` of itself. -/
def Dev.mine (d : Dev) (f : Thread → Thread) : Dev := d.updThread d.cur f
/-- The program counter moves to the next instruction. -/
def Dev.next (d : Dev) : Dev := d.mine fun t => { t with pc := t.pc + d.len }

/-! ## Operands (R35, R37, R180) -/

/-- A g source that is FULL, or a queue register whose queue holds an entry, which is taken. -/
def Dev.readG (d : Dev) (r : BitVec 5) : Option (D × Dev) :=
  if d.me.isQueue r then
    if ((d.core (coreOf d.cur)).queues.toArray.getD (r.toNat - 20) []).isEmpty then none
    else some (popQueue d (coreOf d.cur) (r.toNat - 20))
  else if d.me.gr r = .ofVal (d.me.gr r).val then some ((d.me.gr r).val, d) else none
/-- The sources of an instruction in field order. -/
def Dev.readGs : Dev → List (BitVec 5) → Option (List D × Dev)
  | d, [] => some ([], d)
  | d, r :: rs => match d.readG r with
    | none => none
    | some (x, d) => match d.readGs rs with
      | none => none
      | some (xs, d) => some (x :: xs, d)
/-- A destination that can be written: a queue register needs space in its queue, and is no destination of a UNI pair; an ABSENT
register is fetched first (R38). -/
abbrev Dev.space (d : Dev) (r : BitVec 5) : Prop :=
  (d.me.isQueue r = true → d.inUni = false ∧ ((d.core (coreOf d.cur)).queues.toArray.getD (r.toNat - 20) []).length < 16) ∧
  (d.me.isQueue r = false → (d.me.gr r).st ≠ .absent)
/-- A destination that a long-latency producer can claim: no queue register (R180), and not ABSENT (R38). -/
abbrev Dev.claim (d : Dev) (r : BitVec 5) : Prop := d.me.isQueue r = false ∧ (d.me.gr r).st ≠ .absent
/-- The same of a v and of a p destination. -/
abbrev Dev.claimV (d : Dev) (r : BitVec 5) : Prop := (d.me.vr r).st ≠ .absent
abbrev Dev.claimP (d : Dev) (r : BitVec 3) : Prop := (d.me.pr r).st ≠ .absent
/-- Write a g destination: FULL, with no producer; g0 discards; a queue register takes an entry. -/
def Dev.writeG (d : Dev) (r : BitVec 5) (x : D) : Dev :=
  if d.me.isQueue r then pushQueue d (coreOf d.cur) (r.toNat - 20) x else d.mine fun t => t.writeG r x

/-! ## What an instruction leaves -/

/-- The thread whose turn it is is `t` afterwards, memory and every other thread are as before, the turn was used. -/
structure OnlyMe (s t : State) (u : Thread) : Prop where
  used : t.dev.last = .issued
  cur : t.dev.cur = s.dev.cur
  mem : t.mem = s.mem
  threads : t.dev.threads = s.dev.threads.set s.dev.cur u

/-- The turn was lost: nothing of the machine changed. -/
def Lost (s t : State) : Prop := t = ⟨{ s.start with last := .lost }, s.mem⟩
/-- The turn was lost to a block-mode source that is EMPTY behind a producer (R37): nothing of the machine changed. -/
def Starved (s t : State) : Prop := t = ⟨{ s.start with last := .starved }, s.mem⟩

/-- A trap was taken (R301 to R303): the thread's record, the registers of the entry, and that nothing of other threads and no
byte of memory outside the trap block of its save area changed. -/
structure TrapRecord (s t : State) (code cls : Nat) (val aux tpc : D) : Prop where
  taken : t.dev.last = .trapped
  cause : t.me.tcause = mkTcause code cls s.me.priv true
  tpc : t.me.tpc = tpc
  tval : t.me.tval = val
  taux : t.me.taux = aux
  priv : t.me.priv = true
  pc : t.me.pc = s.me.tvec
  base : t.me.g[28] = .ofVal (ofN s.me.area)
  zeros : t.me.g[29] = .ofVal 0 ∧ t.me.g[30] = .ofVal 0 ∧ t.me.g[31] = .ofVal 0
  kept : t.me.v = s.me.v ∧ t.me.p = s.me.p ∧ t.me.xa = s.me.xa ∧ t.me.fpm = s.me.fpm ∧ t.me.rnc = s.me.rnc ∧
    t.me.uis = s.me.uis ∧ t.me.sh = s.me.sh ∧ ∀ r : Fin 28, t.me.g[r.1] = s.me.g[r.1]
  others : ∀ l, l ≠ s.dev.cur → t.dev.thread l = s.dev.thread l
  mem : Memory.wf s.mem = true → ∀ k, ¬(s.me.hasArea = true ∧ s.me.area + 0xA0 ≤ k ∧ k < s.me.area + 0xA0 + 40) →
    Mem.read t.mem k = Mem.read s.mem k
/-- An exact trap at the instruction. -/
def Trapped (s t : State) (code : Nat) (val aux : D) : Prop := TrapRecord s t code 0 val aux s.me.pc

/-- R301, R324: a thread for which a trap is an entry of its handler: it is in no wait, no level is open, the vector is aligned, and
a breakpoint would not halt its group. -/
abbrev State.canTrap (s : State) : Prop :=
  s.me.held = [] ∧ s.me.lvl = false ∧ fieldN s.me.tvec 1 0 = 0 ∧ (s.me.hgrp.map fun g => hgcBkh (s.dev.hgc.toArray.getD g 0)) ≠ some true

end Sys2Proof.Machine
end

