-- ==== Sys2Proof/Certificates/Slice0/Obligations.lean ====
section
/-! DEFINITION. The statements for the provers. -/
namespace Sys2Proof.Machine
open Sys2Proof

/-! ## Encoding -/

/-- A few words written out from R42 to R47, with the instruction each stands for. -/
def knownWords : List (Word × Instr) :=
  [-- NOP: MISC fn 1 (R50)
   (0b000000_00000_00000_00000_0_0_000000001#32, .nop),
   -- add g3, g1, g2: op 1, d 3, a 1, b 2, fn 0 (R83)
   (0b000001_00011_00001_00010_0_0_000000000#32, .add 3 1 2 false false),
   -- addi g1, g1, 4: op 2 (R87)
   (0b000010_00001_00001_0_000000000000100#32, .addi 1 1 false 4),
   -- li g6, 16: op 9 (R89)
   (0b001001_00110_000000000000000010000#32, .li 6 16),
   -- beq g10, g0, +3: op 0x0C (R92)
   (0b001100_01010_00000_0_000000000000011#32, .beq 10 0 false 3),
   -- jal -1: op 0x12 (R93)
   (0b010010_11111111111111111111111111#32, .jal 0x3FFFFFF#26),
   -- rdc g5, rnc is 0x00A0_0608 (R98)
   (0x00A00608#32, .rdc 5 3),
   -- UNI is the word 2 (R49), BRK the word 3 (R99)
   (2#32, .uni), (3#32, .brk),
   -- the lines of R54, and its hand-built load of a halfword
   (0x04611400#32, .add 3 1 2 true false), (0x60854002#32, .ld 4 5 false 2 0 2), (0x60C76BFE#32, .ld 6 7 false 3 2 0x3FE#10),
   (0x94811320#32, .vfma 4 1 2 3 1 0), (0xA0853050#32, .amoAdd 4 5 6 false false false 2 true), (0xC1060001#32, .nres 8 6 0 false),
   (0xD0400605#32, .mxc 2 0 false false 5), (0x34647FFA#32, .bne 3 4 false 0x7FFA#15), (0x60852002#32, .ld 4 5 false 1 0 2)]

/-! ## Short results: destination, sources in field order, and the value -/

/-- A truth value as a register holds it (R84). -/
def truth (b : Prop) [Decidable b] : D := if b then 1 else 0
/-- R84, R87 to R91: the integer instructions of one turn. Unused sources are 0 here. -/
def shortInt : Instr → Option (BitVec 5 × List (BitVec 5) × (D → D → D → D))
  | .add d a b _ _ => some (d, [a, b], fun x y _ => x + y)
  | .sub d a b _ _ => some (d, [a, b], fun x y _ => x - y)
  | .mul d a b _ _ => some (d, [a, b], fun x y _ => BitVec.ofInt 64 (x.toInt * y.toInt))
  | .mulh d a b _ _ => some (d, [a, b], fun x y _ => BitVec.ofInt 64 (x.toInt * y.toInt / 2 ^ 64))
  | .mulhn d a b _ _ => some (d, [a, b], fun x y _ => BitVec.ofNat 64 (x.toNat * y.toNat / 2 ^ 64))
  | .and d a b _ _ => some (d, [a, b], fun x y _ => x &&& y)
  | .or d a b _ _ => some (d, [a, b], fun x y _ => x ||| y)
  | .xor d a b _ _ => some (d, [a, b], fun x y _ => x ^^^ y)
  | .andn d a b _ _ => some (d, [a, b], fun x y _ => x &&& ~~~y)
  | .orn d a b _ _ => some (d, [a, b], fun x y _ => x ||| ~~~y)
  | .shl d a b _ _ => some (d, [a, b], fun x y _ => x <<< (y.toNat % 64))
  | .shrl d a b _ _ => some (d, [a, b], fun x y _ => x >>> (y.toNat % 64))
  | .shra d a b _ _ => some (d, [a, b], fun x y _ => x.sshiftRight (y.toNat % 64))
  | .rotl d a b _ _ => some (d, [a, b], fun x y _ => x.rotateLeft (y.toNat % 64))
  | .rotr d a b _ _ => some (d, [a, b], fun x y _ => x.rotateRight (y.toNat % 64))
  | .min d a b _ _ => some (d, [a, b], fun x y _ => if x.toInt < y.toInt then x else y)
  | .max d a b _ _ => some (d, [a, b], fun x y _ => if x.toInt < y.toInt then y else x)
  | .minn d a b _ _ => some (d, [a, b], fun x y _ => if x.toNat < y.toNat then x else y)
  | .maxn d a b _ _ => some (d, [a, b], fun x y _ => if x.toNat < y.toNat then y else x)
  | .slt d a b _ _ => some (d, [a, b], fun x y _ => truth (x.toInt < y.toInt))
  | .sltn d a b _ _ => some (d, [a, b], fun x y _ => truth (x.toNat < y.toNat))
  | .seq d a b _ _ => some (d, [a, b], fun x y _ => truth (x = y))
  | .sne d a b _ _ => some (d, [a, b], fun x y _ => truth (x ≠ y))
  | .sel d a b _ _ => some (d, [a, b, d], fun x y z => if z = 0 then y else x)
  | .shadd d a b _ _ k => some (d, [a, b], fun x y _ => x <<< k.toNat + y)
  | .clz d a _ => some (d, [a], fun x _ _ => clzD x)
  | .ctz d a _ => some (d, [a], fun x _ _ => ctzD x)
  | .popc d a _ => some (d, [a], fun x _ _ => popcD x)
  | .brev d a _ => some (d, [a], fun x _ _ => brevD x)
  | .bswp d a _ => some (d, [a], fun x _ _ => bswpD x)
  | .addi d a _ i => some (d, [a], fun x _ _ => x + i.signExtend 64)
  | .andi d a _ i => some (d, [a], fun x _ _ => x &&& i.signExtend 64)
  | .ori d a _ i => some (d, [a], fun x _ _ => x ||| i.signExtend 64)
  | .xori d a _ i => some (d, [a], fun x _ _ => x ^^^ i.signExtend 64)
  | .slti d a _ i => some (d, [a], fun x _ _ => truth (x.toInt < i.toInt))
  | .seqi d a _ i => some (d, [a], fun x _ _ => truth (x = i.signExtend 64))
  | .shli d a _ k => some (d, [a], fun x _ _ => x <<< k.toNat)
  | .shrli d a _ k => some (d, [a], fun x _ _ => x >>> k.toNat)
  | .shrai d a _ k => some (d, [a], fun x _ _ => x.sshiftRight k.toNat)
  | .rotli d a _ k => some (d, [a], fun x _ _ => x.rotateLeft k.toNat)
  | .li d i => some (d, [], fun _ _ _ => i.signExtend 64)
  | .lih d h v => some (d, [d], fun x _ _ => setField x (16 * h.toNat + 15) (16 * h.toNat) v.toNat)
  | .extz d a _ p w => some (d, [a], fun x _ _ => BitVec.ofNat 64 (x.toNat / 2 ^ p.toNat % 2 ^ (w.toNat + 1)))
  | .exts d a _ p w => some (d, [a], fun x _ _ => (BitVec.ofNat (w.toNat + 1) (x.toNat / 2 ^ p.toNat)).signExtend 64)
  | .ins d a _ p w => some (d, [a, d], fun x z _ => setField z (p.toNat + w.toNat) p.toNat x.toNat)
  | _ => none

/-- R105 to R110, R67: the scalar floating-point instructions of one turn: destination, sources, whether the instruction rounds
(and by which field), and the value with its flags for a mode and 32 random bits. -/
def shortFp : Instr → Option (BitVec 5 × List (BitVec 5) × Option (BitVec 3) × (Fp.Mode → Nat → D → D → D → D × Fp.Flags))
  | .fadd d a b _ _ r f => some (d, [a, b], some r, fun m u x y _ => let z := Fp.add (fmtOf f) m u (valIn f x) (valIn f y); (ofN z.1, z.2))
  | .fsub d a b _ _ r f => some (d, [a, b], some r, fun m u x y _ => let z := Fp.add (fmtOf f) m u (valIn f x) (valIn f y).neg; (ofN z.1, z.2))
  | .fmul d a b _ _ r f => some (d, [a, b], some r, fun m u x y _ => let z := Fp.fma (fmtOf f) m u (valIn f x) (valIn f y) none; (ofN z.1, z.2))
  | .fma d a b _ _ r f => some (d, [a, b, d], some r, fun m u x y z => let w := Fp.fma (fmtOf f) m u (valIn f x) (valIn f y) (some (valIn f z)); (ofN w.1, w.2))
  | .fms d a b _ _ r f => some (d, [a, b, d], some r, fun m u x y z => let w := Fp.fma (fmtOf f) m u (valIn f x) (valIn f y) (some (valIn f z).neg); (ofN w.1, w.2))
  | .fnma d a b _ _ r f => some (d, [a, b, d], some r, fun m u x y z => let w := Fp.fma (fmtOf f) m u (valIn f x).neg (valIn f y) (some (valIn f z)); (ofN w.1, w.2))
  | .fnms d a b _ _ r f => some (d, [a, b, d], some r, fun m u x y z => let w := Fp.fma (fmtOf f) m u (valIn f x).neg (valIn f y) (some (valIn f z).neg); (ofN w.1, w.2))
  | .fcvt d a c _ r f => some (d, [a], some r, fun m u x _ _ => fcvtOp c.toNat f m u x)
  | .fmin d a b _ _ f => some (d, [a, b], none, fun _ _ x y _ => let z := Fp.minmax (fmtOf f) false (codeIn f x) (codeIn f y); (ofN z.1, z.2))
  | .fmax d a b _ _ f => some (d, [a, b], none, fun _ _ x y _ => let z := Fp.minmax (fmtOf f) true (codeIn f x) (codeIn f y); (ofN z.1, z.2))
  | .feq d a b _ _ f => some (d, [a, b], none, fun _ _ x y _ => let z := Fp.feq (valIn f x) (valIn f y); (ofN (b2n z.1), z.2))
  | .flt d a b _ _ f => some (d, [a, b], none, fun _ _ x y _ => let z := Fp.flt (valIn f x) (valIn f y); (ofN (b2n z.1), z.2))
  | .fle d a b _ _ f => some (d, [a, b], none, fun _ _ x y _ => let z := Fp.fle (valIn f x) (valIn f y); (ofN (b2n z.1), z.2))
  | .fsgnCp d a b _ _ f => some (d, [a, b], none, fun _ _ x y _ => let z := sgnOp (fun _ t => t) (fmtOf f) (codeIn f x) (codeIn f y); (ofN z.1, z.2))
  | .fsgnNeg d a b _ _ f => some (d, [a, b], none, fun _ _ x y _ => let z := sgnOp (fun _ t => !t) (fmtOf f) (codeIn f x) (codeIn f y); (ofN z.1, z.2))
  | .fsgnXor d a b _ _ f => some (d, [a, b], none, fun _ _ x y _ => let z := sgnOp (fun s t => s != t) (fmtOf f) (codeIn f x) (codeIn f y); (ofN z.1, z.2))
  | _ => none
/-- R69: flags a short instruction raises, after its result. -/
def Dev.raise (d : Dev) (f : Fp.Flags) : Dev := d.mine fun t => (t.raise f).touch 2

/-- R81, R85, R106: the divide unit's instructions: destination, sources, whether they draw, latency, and the value with its
flags. -/
def divideOp : Instr → Option (BitVec 5 × List (BitVec 5) × Option (BitVec 3) × Nat × (Fp.Mode → Nat → D → D → D × Fp.Flags))
  | .div d a b _ _ => some (d, [a, b], none, 32, fun _ _ x y => (if y = 0 then BitVec.allOnes 64 else BitVec.ofInt 64 (x.toInt.tdiv y.toInt), 0))
  | .divn d a b _ _ => some (d, [a, b], none, 32, fun _ _ x y => (if y = 0 then BitVec.allOnes 64 else ofN (x.toNat / y.toNat), 0))
  | .rem d a b _ _ => some (d, [a, b], none, 32, fun _ _ x y => (if y = 0 then x else BitVec.ofInt 64 (x.toInt.tmod y.toInt), 0))
  | .remn d a b _ _ => some (d, [a, b], none, 32, fun _ _ x y => (if y = 0 then x else ofN (x.toNat % y.toNat), 0))
  | .fdiv d a b _ _ r f => some (d, [a, b], some r, if f then 32 else 48, fun m u x y => let z := Fp.div (fmtOf f) m u (valIn f x) (valIn f y); (ofN z.1, z.2))
  | .fsqrt d a _ r f => some (d, [a], some r, if f then 32 else 48, fun m u x _ => let z := Fp.sqrt (fmtOf f) m u (valIn f x); (ofN z.1, z.2))
  | _ => none
/-- R82: the divide unit of the thread's core can start. -/
def State.unitFree (s : State) : Prop := ∀ c, (s.dev.core s.core).divLast = some c → c + 8 ≤ s.dev.cycle

/-- R92: the branches: sources, condition, offset in words. -/
def branchOp : Instr → Option (BitVec 5 × BitVec 5 × BitVec 15 × (D → D → Bool))
  | .beq a b _ o => some (a, b, o, fun x y => x = y)
  | .bne a b _ o => some (a, b, o, fun x y => x ≠ y)
  | .blt a b _ o => some (a, b, o, fun x y => x.toInt < y.toInt)
  | .bge a b _ o => some (a, b, o, fun x y => y.toInt ≤ x.toInt)
  | .bltn a b _ o => some (a, b, o, fun x y => x.toNat < y.toNat)
  | .bgen a b _ o => some (a, b, o, fun x y => y.toNat ≤ x.toNat)
  | _ => none

end Sys2Proof.Machine

open Sys2Proof Sys2Proof.Machine

/-! # Encoding and the machine -/

/-- R39, R151: a step takes the step in flight that is due; with none due, and a thread of the offered slot at a boundary that
lets it go, in a row that is not in gang mode, it executes the instruction that the word at the program counter decodes to,
and then keeps the constrained sequence and the single step of the thread up to date. R17, R18: in a gang row the leader of a quad whose
members can all go executes it in its own turn, unless a member is starved or a deferred fault is due, and each other member executes
the same word in its turn, before it enters a user interrupt; the quad is in the instruction until the last has.
The model's own choices, no rules of the spec: log 1 (the order of steps). -/
def Obligations.StepRunsDecoded : Prop :=
  (∀ (s : State) (e : Event), dueEvent s.dev = some e →
    step s = exec e.step { s with dev := { s.dev with events := s.dev.events.erase e, args := e.args } }) ∧
  (∀ (s : State) (loc : Nat) (rest : List Nat) (w : Word) (i : Instr), dueEvent s.dev = none → s.dev.todo = loc :: rest →
    boundary { s.dev with todo := rest, cur := loc, wbuf := [] } loc = .go → isGang s.dev loc = false →
    fetch s.dev loc (s.dev.thread loc).pc = .word w → hbpMatch s.dev loc w = false → decode w = .ok i →
    step s = match exec i { s with dev := { s.dev with todo := rest, cur := loc, wbuf := [], args := [] } } with
      | .next t => .next (afterIssue loc w (s.dev.thread loc).pc t)
      | x => x) ∧
  (∀ (s t : State) (loc : Nat) (rest : List Nat) (w : Word) (i : Instr), dueEvent s.dev = none → s.dev.todo = loc :: rest → isGang s.dev loc = true → isFollower s.dev loc = false →
    s.dev.quads.get? loc = none → s.dev.mint.queue = [] → (∀ e ∈ s.dev.events, e.step ≠ .rowLoadDone) →
    let pc := (s.dev.thread loc).pc
    let d := (quad s.dev loc).foldl (fun d l => d.updThread l fun t => { t with pc := pc }) { s.dev with todo := rest, cur := loc, wbuf := [] }
    boundary { s.dev with todo := rest, cur := loc, wbuf := [] } loc = .go → (∀ l ∈ quad s.dev loc, boundary d l = .go) → (∃ l ∈ quad s.dev loc, l ≠ loc) →
    fetch d loc pc = .word w → hbpMatch d loc w = false → decode w = .ok i → i ≠ .uni →
    (∀ l ∈ quad s.dev loc, trial exec i [] { s with dev := d } l ≠ .deferred ∧ trial exec i [] { s with dev := d } l ≠ .starved) →
    exec i { s with dev := { d with args := [] } } = .next t → t.dev.last ≠ .lost → t.dev.last ≠ .starved → ¬(i = .brk ∧ (t.dev.thread loc).st = .halted) →
    let v := afterIssue loc w pc t
    ∃ u, step s = .next u ∧ u.mem = v.mem ∧ u.dev.threads = v.dev.threads ∧ (u.dev.quads.get? loc).map (fun q => (q.word, q.pc, q.todo)) = some (w, pc, (quad s.dev loc).filter (· != loc))) ∧
  (∀ (s t : State) (loc : Nat) (rest : List Nat) (q : QuadRun) (i : Instr), dueEvent s.dev = none → s.dev.todo = loc :: rest → isFollower s.dev loc = true →
    s.dev.quads.get? (leaderOf loc) = some q → loc ∈ q.todo → forwarded q loc (boundary { s.dev with todo := rest, cur := loc, wbuf := [] } loc) = .go → stillIn s.dev q loc = true → decode q.word = .ok i →
    exec i { s with dev := { s.dev with todo := rest, cur := loc, wbuf := [], args := [] } } = .next t →
    let v := afterIssue loc q.word q.pc t
    (q.todo.erase loc ≠ [] → ∃ u, step s = .next u ∧ u.mem = v.mem ∧ u.dev.threads = v.dev.threads ∧
      (u.dev.quads.get? (leaderOf loc)).map (fun q => (q.word, q.pc, q.todo)) = some (q.word, q.pc, q.todo.erase loc)) ∧
    (q.todo = [loc] → q.again = [] → q.trapped = [] → v.dev.last = .issued → (v.dev.thread loc).parks = false → Tbl.sorted v.dev.quads = true →
      ∃ u, step s = .next u ∧ u.mem = v.mem ∧ u.dev.quads.get? (leaderOf loc) = none))

/-- R40 to R47: decoding the word of a well-formed instruction gives it back, every operand at every value. -/
def Obligations.EncodeDecode : Prop :=
   ∀ i : Instr, WellFormed i = true → decode (encode i) = .ok i

/-- R42 to R50, R54, R83, R87, R89, R92, R93, R98, R99: some words and the instructions they stand for; 0x6085_2002 is an LD of a
halfword, and 0x6C85_2002, an LDT with sz 01, is refused with the mask of the sz field, 0x6000. -/
def Obligations.KnownWords : Prop :=
  (∀ x ∈ knownWords, decode x.1 = .ok x.2) ∧ (∀ i, decode 0x6C852002 ≠ .ok i) ∧
  (∃ i z, decodeRaw 0x6C852002 = some (i, z) ∧ z + refusedFields i = 0x6000)

/-- R43: a word that decoding refuses traps, nothing else of the thread's changing: ILLEGAL_OPCODE for checks 1 and 2, then on
a core without the class its cause, then PRIVILEGED, then RESERVED_FIELD with the refused bits in TAUX, a register that the core
does not have among them (R265).
The model's own choices, no rules of the spec: log 18 and log 120 (TAUX of several refused fields, RECV of the own inbox). -/
def Obligations.RefusedWords : Prop :=
  ∀ (s : State) (w : Word), s.ready → s.canTrap → s.dev.arg 0 = w.toNat → (∀ i, decode w ≠ .ok i) → ∃ t, exec .illegalOpcode s = .next t ∧
    (decodeRaw w = none → Trapped s t 0x01 (w.setWidth 64) 0) ∧
    (∀ i z, decodeRaw w = some (i, z) →
      (∀ c aux, gateStop (wordGate w).1 (kindOf s.core) s.me.mig.isSome = some (c, aux) → Trapped s t c (w.setWidth 64) (ofN aux)) ∧
      (gateStop (wordGate w).1 (kindOf s.core) s.me.mig.isSome = none →
        ((wordGate w).2 = true ∧ s.me.priv = false → Trapped s t 0x03 (w.setWidth 64) 0) ∧
        (¬((wordGate w).2 = true ∧ s.me.priv = false) → Trapped s t 0x02 (w.setWidth 64) (ofN (z + refusedHere s.dev.cur i)))))

/-- R5: every step keeps memory in canonical form and leaves no write waiting. -/
def Obligations.StepKeepsInv : Prop :=
   ∀ s t : State, s.Inv → step s = .next t → t.Inv

/-- R347: after reset every slot is VACANT, every row FREE, nothing is in flight, memory lists nothing; the mint's mark is above
0x0000_0000_FFFF_FFFF (R187), and the invariant holds.
The model's own choices, no rules of the spec: log 3 and log 7 (reset values and empty memory), the mint at block 0. -/
def Obligations.ResetState : Prop :=
  State.reset.Inv ∧ State.reset.mem = [] ∧ (∀ l, (State.reset.dev.thread l).st = .vacant) ∧ (∀ k, (State.reset.dev.row k).state = 0) ∧
  (∀ c, (State.reset.dev.core c).journal = [] ∧ (State.reset.dev.core c).inbox = [] ∧ (State.reset.dev.core c).frozen = false) ∧
  State.reset.dev.events = [] ∧ State.reset.dev.reqs = [] ∧ State.reset.dev.launches = [] ∧ State.reset.dev.mint.next = 2 ^ 32 ∧
  State.reset.dev.cycle = 0

/-- R12: every instruction, for a slot that holds a thread, ends in a next state, whatever the machine; the machine stops only
where an instruction is executed for a slot that holds none, and no step does that: every step of every state answers a next
state, and one that keeps the machine's invariant. -/
def Obligations.NoRefusal : Prop :=
  (∀ (i : Instr) (s : State), s.ready → ∃ t, exec i s = .next t) ∧
  (∀ (i : Instr) (s : State), (∀ t, exec i s ≠ .next t) → s.me.st = .vacant ∧ exec i s = .fault .noThread) ∧
  (∀ s : State, ∃ t, step s = .next t ∧ (s.Inv → t.Inv))

/-! # Registers and operands -/

/-- R30, R35, R182: g0 reads 0 and p0 all ones, and both discard what is written; a write of any other register is read back,
FULL with no producer, and leaves every other register of its file; in a user interrupt handler g26 to g31 are the shadow
registers, and the thread's own are kept; elsewhere, and in the handler of a trap taken there (R301), the shadow is kept.
R37: an instruction with an EMPTY source a: in block mode with a pending producer the turn is lost and nothing changes; in
block mode with none it traps EMPTY_READ with TAUX = 1; in trap mode with TAUX = 0; a trap where the other source b is such a
block-mode source with a pending producer gives way to the lost turn. Stated for the two-source integer instructions, a being the
first source. -/
def Obligations.RegisterFile : Prop :=
  (∀ (t : Thread) (r : BitVec 5) (q : BitVec 3) (x : D) (w : V),
     t.gr 0 = .ofVal 0 ∧ t.pr 0 = .ofVal (BitVec.allOnes 64) ∧ t.writeG 0 x = t ∧ t.setPr 0 (.ofVal x) = t ∧
     (r ≠ 0 → (t.writeG r x).gr r = .ofVal x) ∧ (∀ k, k ≠ r → (t.writeG r x).gr k = t.gr k) ∧
     (q ≠ 0 → (t.setPr q (.ofVal x)).pr q = .ofVal x) ∧ (∀ k, k ≠ q → (t.setPr q (.ofVal x)).pr k = t.pr k) ∧
     (t.setVr r (.ofVal w)).vr r = .ofVal w ∧ (∀ k, k ≠ r → (t.setVr r (.ofVal w)).vr k = t.vr k) ∧
     (bitN t.uis 1 = true → t.own = false → 26 ≤ r.toNat → (t.writeG r x).g = t.g) ∧
     (bitN t.uis 1 = false ∨ t.own = true → (t.writeG r x).sh = t.sh)) ∧
  (∀ (s : State) (d a b : BitVec 5) (m n : Bool) (v : D) (pr : Prod), s.ready → s.me.isQueue a = false → s.me.isQueue b = false →
     s.me.gr a = ⟨v, .empty, pr⟩ → (∀ id, pr ≠ .fault id) → (∀ id, (s.me.gr b).prod ≠ .fault id) →
     awaitsPage s.dev s.me (.g a m) = false → awaitsPage s.dev s.me (.g b n) = false → s.dev.inUni = false →
     let blocks := n = false ∧ (s.me.gr b).st = .empty ∧ ∃ id, (s.me.gr b).prod = .pend id
     ∀ i ∈ [Instr.add d a b m n, .sub d a b m n, .mul d a b m n, .and d a b m n, .or d a b m n, .xor d a b m n, .slt d a b m n],
       (m = false → (∃ id, pr = .pend id) → ∃ t, exec i s = .next t ∧ Starved s t) ∧
       (blocks → ∃ t, exec i s = .next t ∧ Starved s t) ∧
       (m = false → pr = .none → ¬ blocks → s.canTrap → ∃ t, exec i s = .next t ∧ Trapped s t 0x04 (ofN a.toNat) 1) ∧
       (m = true → ¬ blocks → s.canTrap → ∃ t, exec i s = .next t ∧ Trapped s t 0x04 (ofN a.toNat) 0))

/-! # Integer, floating point, branches -/

/-- R83, R84, R87 to R91, R180: a short integer instruction with FULL sources writes its value to d and moves to the next
instruction; nothing else changes but the queues its queue registers name.
R84: what CLZ, CTZ, POPC, BREV and BSWP compute. -/
def Obligations.ShortIntegerResult : Prop :=
  (∀ (i : Instr) (d : BitVec 5) (rs : List (BitVec 5)) (f : D → D → D → D) (s : State) (xs : List D) (v : Dev),
     shortInt i = some (d, rs, f) → s.ready → s.start.readGs rs = some (xs, v) → s.start.space d →
     exec i s = .next ⟨(v.writeG d (f (xs.getD 0 0) (xs.getD 1 0) (xs.getD 2 0))).next, s.mem⟩) ∧
  (∀ x : D, (clzD 0 = 64 ∧ ctzD 0 = 64) ∧
     (x ≠ 0 → (clzD x).toNat < 64 ∧ x.getLsbD (63 - (clzD x).toNat) = true ∧ ∀ j, j < (clzD x).toNat → x.getLsbD (63 - j) = false) ∧
     (x ≠ 0 → (ctzD x).toNat < 64 ∧ x.getLsbD (ctzD x).toNat = true ∧ ∀ j, j < (ctzD x).toNat → x.getLsbD j = false) ∧
     (popcD x).toNat = ((List.range 64).filter fun k => x.getLsbD k).length ∧
     (∀ k, k < 64 → (brevD x).getLsbD k = x.getLsbD (63 - k)) ∧
     (∀ k, k < 8 → (bswpD x).extractLsb' (8 * k) 8 = x.extractLsb' (8 * (7 - k)) 8))

/-- R105 to R110, R67, R69: a short scalar floating-point instruction writes its rounded value and raises its flags in FPM; an
instruction that rounds advances RNC by 1 exactly when its mode is SR; nothing else changes.
R70, R106, R107: FCLS writes the class of its operand as one bit, and raises NV on a signalling NaN alone. -/
def Obligations.ShortFloatResult : Prop :=
  (∀ (i : Instr) (d : BitVec 5) (rs : List (BitVec 5)) (r : Option (BitVec 3)) (f : Fp.Mode → Nat → D → D → D → D × Fp.Flags) (s : State) (xs : List D) (v : Dev),
     shortFp i = some (d, rs, r, f) → s.ready → s.start.readGs rs = some (xs, v) → s.start.space d →
     let mode := (r.map fun r => Fp.modeOf r.toNat s.me.fpm).getD .rne
     let y := f mode (s.me.srLane 0) (xs.getD 0 0) (xs.getD 1 0) (xs.getD 2 0)
     let v := if r.isSome then v.mine fun t => t.draw mode else v
     exec i s = .next ⟨((v.writeG d y.1).raise y.2).next, s.mem⟩) ∧
  (∀ (s : State) (d a : BitVec 5) (m f : Bool) (xs : List D) (v : Dev), s.ready → s.start.readGs [a] = some (xs, v) → s.start.space d →
     exec (.fcls d a m f) s = .next ⟨((v.writeG d (ofN (2 ^ Fp.fclass (fmtOf f) (codeIn f (xs.getD 0 0))))).raise (Fp.snv [valIn f (xs.getD 0 0)])).next, s.mem⟩ ∧
     (∀ k c, Fp.fclass k c < 10))

/-- R81, R82, R85, R106: an operation of a free divide unit: d is EMPTY behind a producer, an arrival with the value and the
flags is on its way for its latency, the unit is taken, RNC draws at issue under SR; a busy unit (less than 8 cycles since its
last start) loses the turn. Division truncates toward zero; by 0 the quotient is all ones and the remainder the dividend. -/
def Obligations.DivideUnit : Prop :=
  ∀ (i : Instr) (d : BitVec 5) (rs : List (BitVec 5)) (r : Option (BitVec 3)) (lat : Nat) (f : Fp.Mode → Nat → D → D → D × Fp.Flags) (s : State) (xs : List D) (v : Dev),
    divideOp i = some (d, rs, r, lat, f) → s.ready → s.start.readGs rs = some (xs, v) → s.start.claim d →
    let mode := (r.map fun r => Fp.modeOf r.toNat s.me.fpm).getD .rne
    let y := f mode (s.me.srLane 0) (xs.getD 0 0) (xs.getD 1 0)
    (s.unitFree → ∃ t, exec i s = .next t ∧ t.dev.last = .issued ∧ t.mem = s.mem ∧
      (t.dev.core s.core).divLast = some s.dev.cycle ∧
      t.me = { ((if r.isSome then s.me.draw mode else s.me).pendG d s.dev.nextId) with pc := s.me.pc + s.dev.len } ∧
      t.dev.arrs.get? s.dev.nextId = some ⟨s.dev.cur, [(.g d, y.1.setWidth 6400)], y.2, r.isSome, none, [], false⟩ ∧
      t.dev.events = s.dev.events ++ [⟨s.dev.cycle + lat, .producerValueArrival, [s.dev.nextId]⟩] ∧
      (∀ l, l ≠ s.dev.cur → t.dev.thread l = s.dev.thread l)) ∧
    (¬ s.unitFree → ∃ t, exec i s = .next t ∧ Lost s t)

/-- R85: division never traps: a divisor of 0 gives a quotient of all ones and the dividend as remainder, -2^63 by -1 gives -2^63
and 0, the table's values hold, and DIV, DIVN, REM and REMN issue or lose their turn, whatever their operands. -/
def Obligations.DivisionCorners : Prop :=
  (∀ x : D, divS x 0 = 0xFFFFFFFFFFFFFFFF#64 ∧ divU x 0 = 0xFFFFFFFFFFFFFFFF#64 ∧ remS x 0 = x ∧ remU x 0 = x) ∧
  (∀ r ∈ [((7 : D), (-2 : D), (-3 : D), (1 : D), (0 : D), (7 : D)), (-7, 2, -3, -1, 0x7FFFFFFFFFFFFFFC, 1),
      (45, 0, 0xFFFFFFFFFFFFFFFF, 45, 0xFFFFFFFFFFFFFFFF, 45),
      (0x8000000000000000, -1, 0x8000000000000000, 0, 0, 0x8000000000000000)],
    divS r.1 r.2.1 = r.2.2.1 ∧ remS r.1 r.2.1 = r.2.2.2.1 ∧ divU r.1 r.2.1 = r.2.2.2.2.1 ∧ remU r.1 r.2.1 = r.2.2.2.2.2) ∧
  (∀ (d a b : BitVec 5) (m n : Bool) (s : State) (xs : List D) (v : Dev), s.ready → s.start.readGs [a, b] = some (xs, v) → s.start.claim d →
    ∀ i ∈ [Instr.div d a b m n, .divn d a b m n, .rem d a b m n, .remn d a b m n], ∃ t, exec i s = .next t ∧ t.dev.last ≠ .trapped)

/-- R92: a taken branch sets PC to its address + 4 × the offset, another to its address + 4; no register changes.
R93: JAL sets g31 to its address + 4, claiming it, and jumps by its offset. -/
def Obligations.BranchesAndJumps : Prop :=
  (∀ (i : Instr) (a b : BitVec 5) (o : BitVec 15) (c : D → D → Bool) (s : State) (xs : List D) (v : Dev),
     branchOp i = some (a, b, o, c) → s.ready → s.start.readGs [a, b] = some (xs, v) →
     exec i s = .next ⟨v.mine fun t => { t with pc := s.me.pc + (if c (xs.getD 0 0) (xs.getD 1 0) then BitVec.ofInt 64 (4 * o.toInt) else 4) }, s.mem⟩) ∧
  (∀ (o : BitVec 26) (s : State), s.ready → s.start.space 31 → exec (.jal o) s = .next ⟨(s.start.writeG 31 (s.me.pc + 4)).mine fun t => { t with pc := s.me.pc + BitVec.ofInt 64 (4 * o.toInt) }, s.mem⟩)

/-- R94, R39: JALR computes its target before d is written, then writes the address + 4 to d and jumps; a target that is no multiple of 4
traps MISALIGNED with the target, d and PC unchanged. -/
def Obligations.JumpRegister : Prop :=
  ∀ (d a : BitVec 5) (m : Bool) (k : BitVec 15) (s : State) (xs : List D) (v : Dev), s.ready → s.start.readGs [a] = some (xs, v) → s.start.space d →
    let target := xs.getD 0 0 + k.signExtend 64
    (target.toNat % 4 = 0 → exec (.jalr d a m k) s = .next ⟨(v.writeG d (s.me.pc + 4)).mine fun t => { t with pc := target }, s.mem⟩) ∧
    (target.toNat % 4 ≠ 0 → s.canTrap → ∃ t, exec (.jalr d a m k) s = .next t ∧ Trapped s t 0x05 target 0)

/-! # Control, traps and privilege -/

/-- R50: NOP moves on by 4 and changes no register, memory word or flag; its word is 0x0000_0001, and a non-zero field other than op
and fn traps RESERVED_FIELD. -/
def Obligations.NopOnlyAdvances : Prop :=
  decode 0x00000001 = .ok .nop ∧
  (∀ s : State, s.ready → s.dev.inUni = false → exec .nop s = .next ⟨s.start.mine fun t => { t with pc := s.me.pc + 4 }, s.mem⟩) ∧
  (∀ (s : State) (w : Word), w &&& 0xFC0001FF = 1 → w ≠ 1 → (∀ i, decode w ≠ .ok i) ∧
    (s.ready → s.canTrap → s.dev.arg 0 = w.toNat → ∃ t aux, exec .illegalOpcode s = .next t ∧ Trapped s t 0x02 (w.setWidth 64) aux))

/-- R95, R96, R97: BEMP branches on a register's state and never blocks; SETF and SETE change a register's state and keep its
value; TFE reads the states of a file.
R100: CKPT adds 1 to CKQ, modulo 2^64, and where a pre-emption of its row waits for checkpoints the thread stops there (R315).
The model's own choices, no rules of the spec: log 141 (the v file on a core without one). -/
def Obligations.RegisterStatesAndCheckpoint : Prop :=
  (∀ (s : State) (d : BitVec 5) (f : BitVec 2), s.ready → f ≠ 3 → (f = 2 → d.toNat < 8) →
     (∀ (full : Bool) (o : BitVec 15), regState s.dev f d ≠ .absent →
       exec (.bemp d f full o) s = .next ⟨s.start.mine fun t => { t with pc := s.me.pc + (if regState s.dev f d = (if full then .full else .empty) then BitVec.ofInt 64 (4 * o.toInt) else 4) }, s.mem⟩) ∧
     (¬(f = 0 ∧ s.me.isQueue d = true) → regState s.dev f d ≠ .absent →
       exec (.setf d f) s = .next ⟨(s.start.mine fun t => t.setState f d .full).next, s.mem⟩ ∧
       exec (.sete d f) s = .next ⟨(s.start.mine fun t => t.setState f d .empty).next, s.mem⟩) ∧
     (f = 0 → s.me.isQueue d = true → s.canTrap → ∀ i ∈ [Instr.setf d f, .sete d f], ∃ t, exec i s = .next t ∧ Trapped s t 0x02 ((encode i).setWidth 64) 0x03E00000) ∧
     ((∀ r, regState s.dev f r ≠ .absent) → s.start.space d →
       exec (.tfe d f) s = .next ⟨(s.start.writeG d (fileStates s.dev f)).next, s.mem⟩)) ∧
  (∀ s : State, s.ready →
     ∃ t, exec .ckpt s = .next t ∧ t.mem = s.mem ∧ t.me.ckq = s.me.ckq + 1 ∧ t.me.pc = s.me.pc + s.dev.len ∧ t.me.g = s.me.g ∧ t.me.v = s.me.v ∧
       (∀ l, l ≠ s.dev.cur → t.dev.thread l = s.dev.thread l) ∧
       (t.me.stopped = (if isCompute (coreOf s.dev.cur) = true ∧ ((s.dev.row (rowKeyOf (coreOf s.dev.cur))).preempt.map fun p => p.2.2) = some true
         then some (some s.me.pc) else s.me.stopped)))

/-- R32, R98: RDC reads and WRC writes a listed control register, where the privilege allows it and no earlier divide has flags to
set; only the writable part of the register changes. UIS.EN newly set raises an interrupt for an entry that stands in the inbox
(R182).
R32, R33, R68, R134, R302: what a write of a control register changes: a read-only register or field not at all; FPM.RM not
by 000 or 111; TST only DIVG, by 0; UIS only EN; TCAUSE.CLASS is not 11; LPB and LPL only their fields. -/
def Obligations.ControlRegisters : Prop :=
  (∀ (s : State) (d a : BitVec 5) (c : BitVec 7) (xs : List D) (v : Dev), s.ready → ctlListed c = true →
     (c.toNat < 0x10 ∨ s.me.priv = true) → (c = 2 → fpPending s.dev s.dev.cur = false) →
     (s.start.space d → exec (.rdc d c) s = .next ⟨(s.start.writeG d (readCtl s.dev s.dev.cur c.toNat)).next, s.mem⟩) ∧
     (s.start.readGs [a] = some (xs, v) →
       let u := v.mine fun t => t.writeCtl c.toNat (xs.getD 0 0)
       exec (.wrc a c) s = .next ⟨(if c = 7 ∧ bitN s.me.uis 0 = false then raiseWaiting u u.cur else u).next, s.mem⟩)) ∧
  (∀ (t : Thread) (x : D),
     (∀ c ∈ [0x00, 0x04, 0x05, 0x08, 0x09, 0x0B], t.writeCtl c x = t) ∧
     (t.writeCtl 0x01 x).priv = t.priv ∧ (t.writeCtl 0x01 x).qm = t.qm ∧ (t.writeCtl 0x01 x).divg = (t.divg && bitN x 22) ∧
     fieldN (t.writeCtl 0x02 x).fpm 14 8 = fieldN x 14 8 ∧
     fieldN (t.writeCtl 0x02 x).fpm 2 0 = (if fieldN x 2 0 = 0 ∨ fieldN x 2 0 = 7 then fieldN t.fpm 2 0 else fieldN x 2 0) ∧
     fieldN (t.writeCtl 0x02 x).fpm 63 15 = 0 ∧ fieldN (t.writeCtl 0x02 x).fpm 7 3 = 0 ∧
     (t.writeCtl 0x03 x).rnc = x ∧ (t.writeCtl 0x06 x).uiv = x ∧
     bitN (t.writeCtl 0x07 x).uis 0 = bitN x 0 ∧ (t.writeCtl 0x07 x).uis.toNat / 2 = t.uis.toNat / 2 ∧
     (t.writeCtl 0x0A x).lrp = (if t.priv then x else t.lrp) ∧
     fieldN (t.writeCtl 0x10 x).tcause 9 0 = fieldN x 9 0 ∧
     fieldN (t.writeCtl 0x10 x).tcause 11 10 = (if fieldN x 11 10 = 3 then 0 else fieldN x 11 10) ∧ fieldN (t.writeCtl 0x10 x).tcause 63 12 = 0 ∧
     (t.writeCtl 0x11 x).tpc = x ∧ (t.writeCtl 0x12 x).tval = x ∧ (t.writeCtl 0x13 x).taux = x ∧ (t.writeCtl 0x14 x).tvec = x ∧
     (∀ k : Fin 8, ((t.writeCtl (0x20 + k.1) x).lpb[k]).toNat = x.toNat % 2 ^ 32 ∧
       ((t.writeCtl (0x28 + k.1) x).lpl[k]).toNat = x.toNat % 2 ^ 32 / 8 * 8))

/-- R101: SYSC issued in U enters S at TVEC with TCAUSE = 0x00, TPC = its address + 4, TVAL = the code and TAUX = 0; issued in S it
traps ILLEGAL_OPCODE with TAUX = 1; the code is bits [20:11] of its word, and d, ma and mb must be zero. -/
def Obligations.SystemCall : Prop :=
  (∀ w : Word, w &&& 0xFC0001FF = 0xA → (w &&& 0x03E00600 = 0 → decode w = .ok (.sysc (w.extractLsb' 11 10))) ∧ (w &&& 0x03E00600 ≠ 0 → ∀ i, decode w ≠ .ok i)) ∧
  ∀ (s : State) (c : BitVec 10), s.ready → s.canTrap → ∃ t, exec (.sysc c) s = .next t ∧
    (s.me.priv = false → TrapRecord s t 0x00 0 (c.setWidth 64) 0 (s.me.pc + 4)) ∧
    (s.me.priv = true → Trapped s t 0x01 ((encode (.sysc c)).setWidth 64) 1)

/-- R99: BRK traps BREAKPOINT exactly, with TPC its address and TVAL the word 3; R320, R321: where its thread's halt group has BKH
set, the group halts instead, and no trap is recorded.
R324: a trap that arrives while TCAUSE.LVL = 1 is not taken: a thread in no group halts alone, the records of the first trap
are kept, and the die's fault queue receives its place.
R301: with a misaligned TVEC the trap is recorded in full, and then the thread halts.
R301: g28 to g31 and their states are in the trap block of the save area after a trap.
The model's own choices, no rules of the spec: log 22 (g28) and log 31 (the halt of a thread in no group). -/
def Obligations.TrapsAndHalts : Prop :=
  (∀ s : State, s.ready → ∃ t, exec .brk s = .next t ∧ (s.canTrap → Trapped s t 0x1E 3 0) ∧
     (∀ g : Nat, g < 16 → s.me.hgrp = some g → hgcBkh (s.dev.hgc.toArray.getD g 0) = true → s.me.mig = none →
       t.me.st = .halted ∧ t.me.tcause = s.me.tcause ∧ t.me.pc = s.me.pc ∧ hgcHalted (t.dev.hgc.toArray.getD g 0) = true)) ∧
  (∀ s : State, s.ready → s.me.held = [] → s.me.lvl = true → s.me.hgrp = none → s.me.mig = none → (s.dev.die (dieOf (coreOf s.dev.cur))).faultQ.length < 256 →
     ∃ t, exec .brk s = .next t ∧ t.me.st = .halted ∧ t.me.tcause = s.me.tcause ∧ t.me.tpc = s.me.tpc ∧ t.me.tval = s.me.tval ∧
       t.me.taux = s.me.taux ∧ t.me.pc = s.me.pc ∧ t.me.g = s.me.g ∧ t.mem = s.mem ∧
       (t.dev.die (dieOf (coreOf s.dev.cur))).faultQ.length = (s.dev.die (dieOf (coreOf s.dev.cur))).faultQ.length + 1) ∧
  (∀ s : State, s.ready → s.me.lvl = false → s.me.hgrp = none → fieldN s.me.tvec 1 0 ≠ 0 →
     ∃ t, exec .brk s = .next t ∧ t.me.st = .halted ∧ t.me.tcause = mkTcause 0x1E 0 s.me.priv true ∧ t.me.tpc = s.me.pc ∧ t.me.tval = 3 ∧
       t.me.taux = 0 ∧ t.me.g[28] = .ofVal (ofN s.me.area) ∧ t.me.priv = true) ∧
  (∀ s : State, s.ready → s.canTrap → s.me.hasArea = true → Memory.wf s.mem = true →
     ∃ t, exec .brk s = .next t ∧ (∀ k, k < 4 → rd64 t.mem t.dev (s.me.area + 0xA0 + 8 * k) = (s.me.g.toArray.getD (28 + k) (.ofVal 0)).val) ∧
       (∀ k, k < 4 → (Mem.read t.mem (s.me.area + 0xC0)).toNat / 4 ^ k % 4 = (s.me.g.toArray.getD (28 + k) (.ofVal 0)).st.code))

/-- R102, R304: ERET in S closes the handler level, returns to U and continues at TPC; a TPC with bit 1 or 0 set traps MISALIGNED,
and the thread stays in S; in U it traps PRIVILEGED. R155, R344: where the trap block lies in a granule that is being copied, or in
a stack that retrains, the turn is lost. No byte of memory changes but the error marks of corrected code words (R342). -/
def Obligations.ExceptionReturn : Prop :=
  ∀ s : State, s.ready →
    (s.me.priv = true → s.me.tpc.toNat % 4 = 0 → blockHeld s.dev s.me = true → ∃ t, exec .eret s = .next t ∧ Lost s t) ∧
    (s.me.priv = true → s.me.tpc.toNat % 4 = 0 → blockHeld s.dev s.me = false → ∃ t, exec .eret s = .next t ∧ t.dev.last = .issued ∧
      ((s.me.hasArea = true → ∀ k ∈ [s.me.block, s.me.block + 32], Mem.read s.mem (errKey k) = 0) → t.mem = s.mem) ∧
      (Memory.wf s.mem = true → ∀ k, k < 2 ^ 73 → Mem.read t.mem k = Mem.read s.mem k) ∧ t.me.priv = false ∧
      t.me.pc = s.me.tpc ∧ t.me.lvl = false ∧ t.me.tpc = s.me.tpc ∧ t.me.tval = s.me.tval ∧ t.me.taux = s.me.taux ∧ t.me.tvec = s.me.tvec ∧
      t.me.v = s.me.v ∧ t.me.p = s.me.p ∧ (∀ r : Fin 28, t.me.g[r.1] = s.me.g[r.1]) ∧ (s.me.hasArea = false → t.me.g = s.me.g) ∧
      (∀ l, l ≠ s.dev.cur → t.dev.thread l = s.dev.thread l)) ∧
    (s.me.priv = true → s.me.tpc.toNat % 4 ≠ 0 → s.canTrap → ∃ t, exec .eret s = .next t ∧ Trapped s t 0x05 s.me.tpc 0) ∧
    (s.me.priv = false → s.canTrap → ∃ t, exec .eret s = .next t ∧ Trapped s t 0x03 0xB 0)

/-- R103, R182: an inbox entry raises a user interrupt where UIS.EN = 1 and ACTIVE = 0, and wakes a PARKED thread; in a handler, or
with an interrupt raised, it sets PEND, and its kind is kept; elsewhere it changes nothing of the thread. The interrupt is entered in
a turn of the thread: the shadow registers replace g26 to g31, shadow g31 holds the resume PC, PC becomes UIV; a misaligned UIV
traps MISALIGNED. UIRET returns to shadow g31 (one that is no multiple of 4
traps MISALIGNED) and clears ACTIVE, and with PEND set raises the interrupt of the kind kept; outside a
handler it traps ILLEGAL_OPCODE with TAUX = 1.
The model's own choices, no rules of the spec: log 33, log 123 and log 125 (user interrupts whatever the privilege, when one is entered, UIRET with an EMPTY register). -/
def Obligations.UserInterrupts : Prop :=
  (∀ (s : State) (loc kind : Nat), s.dev.args = [loc, kind] → kind < 16 → (s.dev.thread loc).st ≠ .vacant →
    let u := s.dev.thread loc
    ∃ t, exec .userInterrupt s = .next t ∧
      (bitN u.uis 1 = true ∨ u.uint.isSome = true → bitN (t.dev.thread loc).uis 2 = true ∧ (t.dev.thread loc).pc = u.pc ∧ (t.dev.thread loc).sh = u.sh ∧
        (t.dev.thread loc).uint = u.uint ∧ (t.dev.thread loc).st = u.st ∧ (t.dev.thread loc).pendKind = if bitN u.uis 2 then u.pendKind else kind) ∧
      (bitN u.uis 1 = false → u.uint = none → bitN u.uis 0 = true → u.held = [] →
        (t.dev.thread loc).uint = some kind ∧ (t.dev.thread loc).pc = u.pc ∧ (t.dev.thread loc).g = u.g ∧ (t.dev.thread loc).uis = u.uis ∧
        (u.parks = false → (t.dev.thread loc).st = u.st) ∧
        (u.st = .parked → u.mig = none → (s.dev.core (coreOf loc)).frozen = false → (t.dev.thread loc).st = u.running ∧ (t.dev.thread loc).wait = .context)) ∧
      (bitN u.uis 1 = false → u.uint = none → bitN u.uis 0 = false → t.dev.thread loc = u)) ∧
  (∀ (s : State) (loc kind : Nat) (rest : List Nat), s.Inv → dueEvent s.dev = none → s.dev.todo = loc :: rest → isGang s.dev loc = false →
    boundary { s.dev with todo := rest, cur := loc, wbuf := [] } loc = .user kind → kind < 16 →
    let u := s.dev.thread loc
    ∃ t, step s = .next t ∧ (∀ l, l ≠ loc → t.dev.thread l = s.dev.thread l) ∧
      (u.uiv.toNat % 4 = 0 → t.mem = s.mem ∧ (t.dev.thread loc).pc = u.uiv ∧ (u.own = false → (t.dev.thread loc).gr 31 = .ofVal u.pc) ∧
        bitN (t.dev.thread loc).uis 1 = true ∧ bitN (t.dev.thread loc).uis 2 = false ∧ fieldN (t.dev.thread loc).uis 15 12 = kind ∧
        (t.dev.thread loc).uint = none ∧ (t.dev.thread loc).g = u.g) ∧
      (u.uiv.toNat % 4 ≠ 0 → u.held = [] → u.lvl = false → fieldN u.tvec 1 0 = 0 →
        (t.dev.thread loc).tcause = mkTcause 0x05 0 u.priv true ∧ (t.dev.thread loc).tval = u.uiv ∧ (t.dev.thread loc).taux = 0 ∧
        (t.dev.thread loc).tpc = u.pc ∧ (t.dev.thread loc).pc = u.tvec ∧ (t.dev.thread loc).priv = true)) ∧
  (∀ s : State, s.ready →
    (bitN s.me.uis 1 = true → (s.me.sh[5].val).toNat % 4 = 0 → ∃ t, exec .uiret s = .next t ∧ t.mem = s.mem ∧
      t.me.pc = s.me.sh[5].val ∧ bitN t.me.uis 1 = false ∧ bitN t.me.uis 2 = false ∧ t.me.g = s.me.g ∧ t.dev.last = .issued ∧
      t.me.uint = (if bitN s.me.uis 2 then some s.me.pendKind else s.me.uint) ∧ ∀ r, t.me.gr r = (if r = 0 then .ofVal 0 else s.me.g[r.toNat]'r.isLt)) ∧
    (bitN s.me.uis 1 = true → (s.me.sh[5].val).toNat % 4 ≠ 0 → s.canTrap → ∃ t, exec .uiret s = .next t ∧ Trapped s t 0x05 s.me.sh[5].val 0) ∧
    (bitN s.me.uis 1 = false → s.canTrap → ∃ t, exec .uiret s = .next t ∧ Trapped s t 0x01 0xC 1))

/-! # Memory -/

namespace Sys2Proof.Machine

/-! ## Scalar accesses: what each asks for -/

/-- An instruction that accesses memory by one address: its g sources, the first of them the base, the offset, size and kind of
the access (R358), the destinations of its producer, the operation at the target, its scope, and the operands it carries. -/
structure Access where
  srcs : List (BitVec 5)
  off : Int
  size : Nat
  kind : Nat
  dsts : List (BitVec 5)
  op : ROp
  sc : BitVec 3
  opnds : List D → List D
/-- R166: a RED carries as much of the register as the word has. -/
def Access.r (srcs : List (BitVec 5)) (size : Nat) (op : Nat) (c : BitVec 3) : Access :=
  ⟨srcs, 0, size, 3, [], .red op, c, fun xs => [ofN ((xs.getD 1 0).toNat % 2 ^ (8 * size))]⟩
/-- R144, R147: an M-form access. -/
def Access.m (srcs : List (BitVec 5)) (o : BitVec 10) (size kind : Nat) (dsts : List (BitVec 5)) (op : ROp) (c : BitVec 3) : Access :=
  ⟨srcs, o.toInt * size, size, kind, dsts, op, c, fun _ => []⟩
/-- R158: an AMO. -/
def Access.a (srcs dsts : List (BitVec 5)) (size : Nat) (op : ROp) (c : BitVec 3) : Access :=
  ⟨srcs, 0, size, 3, dsts, op, c, fun xs => [xs.getD 1 0]⟩
/-- R161: a status form has two destinations. -/
def statusDsts (d : BitVec 5) (f : Bool) : List (BitVec 5) := if f then [d, d + 1] else [d]
def accessOf : Instr → Option Access
  | .ld t b _ z c o => some (.m [b] o (2 ^ z.toNat) 0 [t] (.ld true) c)
  | .ldz t b _ z c o => some (.m [b] o (2 ^ z.toNat) 0 [t] (.ld false) c)
  | .ldt t b _ c o => some (.m [b] o 8 3 [t] .ldt c)
  | .ldw t b _ c o => some (.m [b] o 8 3 [t] .ldw c)
  | .st t b _ z c o => some (.m [b, t] o (2 ^ z.toNat) 1 [] .st c)
  | .ste t b _ c o => some (.m [b, t] o 8 3 [] .ste c)
  | .stf t b _ c o => some (.m [b, t] o 8 3 [] .stf c)
  | .amoAdd d a b _ _ f c z => some (.a [a, b] (statusDsts d f) (wd z) (.amo 0) c)
  | .amoAnd d a b _ _ f c z => some (.a [a, b] (statusDsts d f) (wd z) (.amo 1) c)
  | .amoOr d a b _ _ f c z => some (.a [a, b] (statusDsts d f) (wd z) (.amo 2) c)
  | .amoXor d a b _ _ f c z => some (.a [a, b] (statusDsts d f) (wd z) (.amo 3) c)
  | .amoMin d a b _ _ f c z => some (.a [a, b] (statusDsts d f) (wd z) (.amo 4) c)
  | .amoMax d a b _ _ f c z => some (.a [a, b] (statusDsts d f) (wd z) (.amo 5) c)
  | .amoMinn d a b _ _ f c z => some (.a [a, b] (statusDsts d f) (wd z) (.amo 6) c)
  | .amoMaxn d a b _ _ f c z => some (.a [a, b] (statusDsts d f) (wd z) (.amo 7) c)
  | .amoSwp d a b _ _ f c z => some (.a [a, b] (statusDsts d f) (wd z) (.amo 8) c)
  | .amoFadds d a b _ _ f c => some (.a [a, b] (statusDsts d f) 4 (.amo 9) c)
  | .amoFaddd d a b _ _ f c => some (.a [a, b] (statusDsts d f) 8 (.amo 10) c)
  | .cas d a b _ _ f c z => some (if z = 2 then ⟨[a, b, b + 1, d, d + 1], 0, 16, 3, [d, d + 1], .cas, c, fun xs => [xs.getD 3 0, xs.getD 4 0, xs.getD 1 0, xs.getD 2 0]⟩
      else ⟨[a, b, d], 0, 4 * 2 ^ z.toNat, 3, statusDsts d f, .cas, c, fun xs => [xs.getD 2 0, 0, xs.getD 1 0, 0]⟩)
  | .rsv d a _ c z => some ⟨[a], 0, wd z, 3, [d], .rsv, c, fun _ => []⟩
  | .scn d a b _ _ c z => some (.a [a, b] [d] (wd z) .scn c)
  | .redAdd a b _ _ c z => some (.r [a, b] (wd z) 0 c)
  | .redAnd a b _ _ c z => some (.r [a, b] (wd z) 1 c)
  | .redOr a b _ _ c z => some (.r [a, b] (wd z) 2 c)
  | .redXor a b _ _ c z => some (.r [a, b] (wd z) 3 c)
  | .redMin a b _ _ c z => some (.r [a, b] (wd z) 4 c)
  | .redMax a b _ _ c z => some (.r [a, b] (wd z) 5 c)
  | .redMinn a b _ _ c z => some (.r [a, b] (wd z) 6 c)
  | .redMaxn a b _ _ c z => some (.r [a, b] (wd z) 7 c)
  | .redFadds a b _ _ c => some (.r [a, b] 4 9 c)
  | .redFaddd a b _ _ c => some (.r [a, b] 8 10 c)
  | _ => none
/-- The address. -/
def Access.va (a : Access) (xs : List D) : D := xs.getD 0 0 + BitVec.ofInt 64 a.off
/-- R146, R147, R159, R162: the tier of a page carries the access: a plain one moves the thread on a GO page; synchronising ones
need HBM or a vault, an atomic no COMP region, and on host memory only ADD, SWP and CAS. -/
def Access.carried (a : Access) (s : State) (va : D) (x : Reach) : Prop := match a.op with
  | .ld _ | .st => ∀ e, x = .page e → plGo e.place = false ∨ s.me.mig.isSome = true
  | .ldt | .ldw | .ste | .stf => x.comp s.dev s.dev.cur va = false ∧ x.tier ≠ 1 ∧ x.tier ≠ 3
  | .amo op => x.comp s.dev s.dev.cur va = false ∧ (x.tier = 3 → op = 0 ∨ op = 8)
  | .red op => x.comp s.dev s.dev.cur va = false ∧ (x.tier = 3 → op = 0)
  | .cas => x.comp s.dev s.dev.cur va = false
  | .rsv | .scn => x.comp s.dev s.dev.cur va = false ∧ x.tier ≠ 3
/-- The access is a load or an atomic; the others are stores, which take journal entries. -/
def Access.loads (a : Access) : Bool := match a.op with
  | .st | .ste | .stf | .red _ => false
  | _ => true
/-- The parts of a thread an access leaves: all but its destinations, the program counter and the constrained sequence. -/
def Sent (s t : State) (dsts : List (BitVec 5)) : Prop :=
  t.dev.last = .issued ∧ t.mem = s.mem ∧ (∀ l, l ≠ s.dev.cur → t.dev.thread l = s.dev.thread l) ∧
  t.me = { dsts.foldl (fun u r => u.pendG r s.dev.nextId) s.me with pc := s.me.pc + s.dev.len, cons := t.me.cons }
/-- Request `id` is on its way, for the one word at `va`. -/
def Asked (s t : State) (id : Nat) (a : Access) (va : D) (xs : List D) (x : Reach) (r : Req) : Prop :=
  t.dev.reqs.get? id = some r ∧ r.loc = s.dev.cur ∧ r.core = s.core ∧ r.pc = s.me.pc ∧ r.op = a.op ∧ r.sc = a.sc.toNat ∧
  r.opnds.take (a.opnds xs).length = a.opnds xs ∧ r.phase = .sent ∧ r.user = !s.me.priv ∧ r.posts = [] ∧ r.again = false ∧ r.query = none ∧
  r.acq = (a.loads && a.op != .scn && a.sc != 0) ∧
  r.rel = ((!a.loads || (match a.op with | .amo _ | .cas | .scn => true | _ => false)) && a.sc != 0) ∧
  (∃ data, r.parts = [⟨va, a.size, 0, data, x.place, x.pageSize, x.rights⟩]) ∧
  ∃ dt, t.dev.events = s.dev.events ++ [⟨s.dev.cycle + dt, .memoryRequestAtTarget, [id]⟩]

/-- A request about to be performed at the one vault word it names: found, not held back, granted, its word correct. -/
structure AtVault (s : State) (id : Nat) (r : Req) (p : Part) (key : Nat) : Prop where
  arg : s.dev.args = [id]
  found : s.dev.reqs.get? id = some r
  phase : r.phase = .sent
  free : blocked s.dev id r = false
  part : r.parts = [p]
  window : p.place = none
  place : ∃ tile off, vaultLoc r.core p.va = some (tile, off) ∧ key = vaultKey tile off ∧ tile < 64 ∧ compKey (tileAt r.regions s.dev) key = false ∧
    grants ((s.dev.tile tile).access.getD (masterOf r.core) 0) 0 (needsWrite r.op) = true ∧ matrixHeld s.dev tile off p.size (some (r.loc, r.ord id)) = false
  hold : heldForOther s.dev r.loc key p.size = false
  good : Mem.read s.mem (errKey key) = 0
  wf : Memory.wf s.mem = true
  size : p.size ∈ [1, 2, 4, 8, 16]
  waiters : s.dev.feWait = []
/-- The word of a request's part. -/
def wordAt (m : Mem) (key size : Nat) : Nat := match size with
  | 0 => 0
  | n + 1 => (Mem.read m key).toNat + 256 * wordAt m (key + 1) n
/-- After the step the word holds `x`, its full/empty bit is `fe`, and every other byte is as before. -/
def Wrote (s t : State) (key size x : Nat) (fe : Bool) : Prop :=
  wordAt t.mem key size = x % 256 ^ size ∧ (Mem.read t.mem (feKey key) != 0) = fe ∧
  ∀ k, ¬(key ≤ k ∧ k < key + size) → k ≠ feKey key → Mem.read t.mem k = Mem.read s.mem k
/-- The answer of request `id` is on its way with a value for its destination. -/
def Answered (s t : State) (id : Nat) (r : Req) (vals : List (Dst × BitVec 6400)) : Prop :=
  t.dev.arrs.get? id = some ⟨r.loc, vals, 0, false, none, r.posts, false⟩ ∧ (t.dev.reqs.get? id).map (·.phase) = some .performed ∧
  t.dev.events = s.dev.events ++ [⟨s.dev.cycle + r.back, .producerValueArrival, [id]⟩]
/-- A store is performed: its acknowledgement is on its way to its entry. -/
def Acknowledged (s t : State) (id : Nat) (r : Req) (e : Nat) : Prop :=
  (t.dev.reqs.get? id).map (·.phase) = some .performed ∧
  t.dev.events = s.dev.events ++ [⟨s.dev.cycle + r.back, .journalAck, [r.core, e]⟩]
/-- R158: the new value of an atomic, size in bits. -/
def amoValue (op n : Nat) (x y : Nat) : Option Nat := match op with
  | 0 => some ((x + y) % 2 ^ n)
  | 1 => some ((BitVec.ofNat n x &&& BitVec.ofNat n y).toNat)
  | 2 => some ((BitVec.ofNat n x ||| BitVec.ofNat n y).toNat)
  | 3 => some ((BitVec.ofNat n x ^^^ BitVec.ofNat n y).toNat)
  | 4 => some (if (BitVec.ofNat n y).toInt < (BitVec.ofNat n x).toInt then y else x)
  | 5 => some (if (BitVec.ofNat n x).toInt < (BitVec.ofNat n y).toInt then y else x)
  | 6 => some (if y < x then y else x)
  | 7 => some (if x < y then y else x)
  | 8 => some y
  | 9 => some (Fp.add Fp.f32 .rne 0 (Fp.f32.decode x) (Fp.f32.decode y)).1
  | 10 => some (Fp.add Fp.f64 .rne 0 (Fp.f64.decode x) (Fp.f64.decode y)).1
  | _ => none

end Sys2Proof.Machine

/-- R132, R134, R140, R141, R144, R358: the checks of a scalar access, in order: the window, the alignment, then protection in a
vault window and translation elsewhere; each trap is exact with the address in TVAL. A TLB miss loses the turn. A page whose frame
lies in a vault's rule-result table is protected as the window is (R130).
R134: protection: a vault word passes if some enabled pair of the thread covers all its bytes with the rights the kind needs,
and never in the vault's journal area.
R146, R147, R159, R162: what the target's kind refuses: a synchronising access to the second tier or the host traps NOFE_TIER
with TAUX = 0, in a COMP region with 1; an atomic in a COMP region with 2; an atomic PCIe has no AtomicOp for traps
HOST_ATOMIC_OP on a host page.
The model's own choices, no rules of the spec: log 28, log 74, log 128 and log 143 (reason codes, tiers, the rule-result tables). -/
def Obligations.AccessChecks : Prop :=
  (∀ (i : Instr) (a : Access) (s : State) (xs : List D) (v : Dev), accessOf i = some a → s.ready → s.start.readGs a.srcs = some (xs, v) →
     (∀ r ∈ a.dsts, s.start.claim r) → s.canTrap →
     let va := a.va xs
     let low := winCode va = 0 ∨ vaultLoc s.core va ≠ none
     (¬low → ∃ t, exec i s = .next t ∧ Trapped s t 0x06 va 0) ∧
     (low → va.toNat % a.size ≠ 0 → ∃ t, exec i s = .next t ∧ Trapped s t 0x05 va 0) ∧
     (∀ l, vaultLoc s.core va = some l → va.toNat % a.size = 0 → protOk s.me l a.size a.kind = false →
       ∃ t, exec i s = .next t ∧ Trapped s t 0x07 va (ofN a.kind)) ∧
     (winCode va = 0 → va.toNat % a.size = 0 →
       (∀ e, tlbFind (s.dev.tile (tlbTile s.dev.cur)) (rootOf (ctxOf s.dev s.dev.cur)) va.toNat = some e → rightsOk e.rights a.kind (!s.me.priv) = false →
         ∃ t, exec i s = .next t ∧ Trapped s t 0x09 va (refuseAux false (sizeLvl e.size) a.kind)) ∧
       (∀ e, tlbFind (s.dev.tile (tlbTile s.dev.cur)) (rootOf (ctxOf s.dev s.dev.cur)) va.toNat = some e → rightsOk e.rights a.kind (!s.me.priv) = true →
         ruleTable s.dev va e = true → ∃ t, exec i s = .next t ∧ Trapped s t 0x07 va (ofN a.kind)) ∧
       (tlbFind (s.dev.tile (tlbTile s.dev.cur)) (rootOf (ctxOf s.dev s.dev.cur)) va.toNat = none → s.me.refusal = none →
         ∃ t, exec i s = .next t ∧ t.dev.last = .lost ∧ t.me = s.me ∧ t.mem = s.mem))) ∧
  (∀ (t : Thread) (tile off size kind : Nat), protOk t (tile, off) size kind = true ↔
     off < 0x1E00000 ∧ ∃ k : Fin 8, t.lpb[k].getLsbD 2 = true ∧
       fieldN t.lpb[k] 31 3 * 8 ≤ tile % 16 * 0x2000000 + off ∧ tile % 16 * 0x2000000 + off + size ≤ fieldN t.lpl[k] 31 3 * 8 ∧
       (kind = 0 ∨ kind = 3 → t.lpb[k].getLsbD 0 = true) ∧ (kind = 1 ∨ kind = 3 → t.lpb[k].getLsbD 1 = true)) ∧
  (∀ (i : Instr) (a : Access) (s : State) (xs : List D) (v : Dev) (x : Reach), accessOf i = some a → s.ready → s.start.readGs a.srcs = some (xs, v) →
     (∀ r ∈ a.dsts, s.start.claim r) → s.canTrap → reach s.dev s.dev.cur (a.va xs) a.size a.size a.kind = .ok x →
     let sync := a.op ∈ [ROp.ldt, .ldw, .ste, .stf]
     let plain := a.op ∈ [ROp.ld true, .ld false, .st]
     (sync → x.comp s.dev s.dev.cur (a.va xs) = true → ∃ t, exec i s = .next t ∧ Trapped s t 0x1C (a.va xs) 1) ∧
     (sync → x.comp s.dev s.dev.cur (a.va xs) = false → x.tier = 1 ∨ x.tier = 3 → ∃ t, exec i s = .next t ∧ Trapped s t 0x1C (a.va xs) 0) ∧
     (¬sync → ¬plain → x.comp s.dev s.dev.cur (a.va xs) = true → ∃ t, exec i s = .next t ∧ Trapped s t 0x1C (a.va xs) 2) ∧
     (¬sync → ¬plain → x.comp s.dev s.dev.cur (a.va xs) = false → x.tier = 3 → ¬a.carried s (a.va xs) x → ∃ t, exec i s = .next t ∧ Trapped s t 0x1A (a.va xs) 0))

/-- R144, R147, R158, R160, R163: a load, an atomic, an RSV or an SCN that its checks let go is sent as a request: its
destinations are EMPTY behind it, nothing else of the thread changes but the pc; an RSV begins a constrained sequence.
The model's own choices, no rules of the spec: log 4 (latencies). -/
def Obligations.LoadsAreSent : Prop :=
  ∀ (i : Instr) (a : Access) (s : State) (xs : List D) (v : Dev) (x : Reach), accessOf i = some a → a.loads = true → s.ready →
    s.start.readGs a.srcs = some (xs, v) → (∀ r ∈ a.dsts, s.start.claim r) →
    reach s.dev s.dev.cur (a.va xs) a.size a.size a.kind = .ok x → a.carried s (a.va xs) x →
    ∃ t r, exec i s = .next t ∧ Sent s t a.dsts ∧ Asked s t s.dev.nextId a (a.va xs) xs x r ∧ r.ent = none ∧
      t.me.cons = (if a.op = .rsv then some (0, a.va xs) else s.me.cons) ∧
      (a.op = .rsv → (∀ q ∈ t.dev.resvs, q.loc ≠ s.dev.cur) ∨ ∃ q ∈ s.dev.reqs, q.2.loc = s.dev.cur ∧ q.2.op = .scn)

/-- R147, R148, R166: a store outside what is performed at issue, STE, STF and RED take the lowest free journal entry of the core
they issue from (R167) and go on; the entry and the request of ST, STE and STF hold the register's low bytes; with all 32 entries in
use the turn is lost.
The model's own choices, no rules of the spec: log 19 (the lowest free entry). -/
def Obligations.StoresAreJournaled : Prop :=
  ∀ (i : Instr) (a : Access) (s : State) (xs : List D) (v : Dev) (x : Reach), accessOf i = some a → a.loads = false → s.ready →
    s.start.readGs a.srcs = some (xs, v) → reach s.dev s.dev.cur (a.va xs) a.size a.size a.kind = .ok x → a.carried s (a.va xs) x →
    (a.op = .st → ∀ tile off, x = .vault tile off →
      storeNow s.mem v (newReq v .st a.sc.toNat [mkPart (a.va xs) a.size 0 (ofN ((xs.getD 1 0).toNat % 2 ^ (8 * a.size))) x] .none) tile off a.size = false) →
    (∀ e, freeEntry (s.dev.core s.core) = some e →
      ∃ t r j, exec i s = .next t ∧ Sent s t [] ∧ Asked s t s.dev.nextId a (a.va xs) xs x r ∧ r.ent = some e ∧ r.dst = .none ∧ t.me.cons = s.me.cons ∧
        (a.op ∈ [ROp.st, .ste, .stf] → r.parts.map (·.data) = [ofN ((xs.getD 1 0).toNat % 2 ^ (8 * a.size))]) ∧
        (t.dev.core s.core).journal.get? e = some j ∧ j.loc = s.dev.cur ∧ j.core = s.core ∧ j.addr = a.va xs ∧ j.size = a.size ∧ j.sc = a.sc.toNat ∧
        j.data = ofN ((xs.getD 1 0).toNat % 2 ^ (8 * a.size)) ∧ j.pc = s.me.pc ∧ j.req = s.dev.nextId ∧ j.refused = none ∧
        j.kind = (match a.op with | .st => .st | .ste => .ste | .stf => .stf | _ => .red) ∧
        (∀ k, k ≠ e → (t.dev.core s.core).journal.get? k = (s.dev.core s.core).journal.get? k)) ∧
    (freeEntry (s.dev.core s.core) = none → ∃ t, exec i s = .next t ∧ Lost s t)

/-- R148, R164: a plain store to the own tile's vault that nothing stands in the way of is performed at issue: its bytes hold the
register's low bytes, no other byte changes, no entry is taken, and other threads' reservations on the bytes are lost.
The model's own choices, no rules of the spec: log 27 (access tables also for the own vault). -/
def Obligations.OwnVaultStore : Prop :=
  ∀ (t b : BitVec 5) (m : Bool) (z : BitVec 2) (c : BitVec 3) (o : BitVec 10) (s : State) (xs : List D) (v : Dev) (tile off : Nat), s.ready →
    s.start.readGs [b, t] = some (xs, v) → Memory.wf s.mem = true →
    let size : Nat := 2 ^ z.toNat
    let va := xs.getD 0 0 + BitVec.ofInt 64 (o.toInt * size)
    let key := vaultKey tile off
    reach s.dev s.dev.cur va size size 1 = .ok (.vault tile off) →
    storeNow s.mem v (newReq v .st c.toNat [mkPart va size 0 (ofN ((xs.getD 1 0).toNat % 2 ^ (8 * size))) (.vault tile off)] .none) tile off size = true →
    ∃ u, exec (.st t b m z c o) s = .next u ∧ u.dev.last = .issued ∧ u.me = { s.me with pc := s.me.pc + s.dev.len } ∧
      wordAt u.mem key size = (xs.getD 1 0).toNat % 2 ^ (8 * size) ∧
      (∀ k, ¬(key ≤ k ∧ k < key + size) → k ≠ errKey key → Mem.read u.mem k = Mem.read s.mem k) ∧
      (∀ r ∈ u.dev.resvs, r ∈ s.dev.resvs ∧ (r.loc = s.dev.cur ∨ overlaps r.key r.size key size = false)) ∧
      (∀ ca, (u.dev.core ca).journal = (s.dev.core ca).journal) ∧ u.dev.reqs = s.dev.reqs ∧
      (∀ l, l ≠ s.dev.cur → (s.dev.thread l).awaits .reservation = false → u.dev.thread l = s.dev.thread l)

/-- R144, R145, R147: plain and synchronising accesses at a vault word. A load is answered with the extended value and changes
nothing; a store writes its bytes; LDT takes a FULL word and empties it, LDW leaves it; STF fills, STE fills an EMPTY word; one
that must wait changes no byte and waits in order of arrival.
R144, R147: the value a load delivers: a signed byte, half or word is sign-extended, an unsigned one zero-extended, eight bytes
are taken as they are.
The model's own choices, no rules of the spec: log 27 and log 36 (access tables, sibling stores). -/
def Obligations.VaultAccesses : Prop :=
  (∀ (s : State) (id : Nat) (r : Req) (p : Part) (key : Nat), AtVault s id r p key →
     let old := wordAt s.mem key p.size
     let fe := Mem.read s.mem (feKey key) != 0
     (∀ sg n, r.op = .ld sg → r.dst = .g n → (siblingStores s.dev r).1 = [] →
       ∃ t, exec .memoryRequestAtTarget s = .next t ∧ t.mem = s.mem ∧ Answered s t id r [(.g n, (loadValue sg p.size old).setWidth 6400)]) ∧
     (∀ e, r.op = .st → r.ent = some e → ∃ t, exec .memoryRequestAtTarget s = .next t ∧ Wrote s t key p.size p.data.toNat fe ∧ Acknowledged s t id r e) ∧
     (∀ op ∈ [ROp.ldt, .ldw], r.op = op → ∃ t, exec .memoryRequestAtTarget s = .next t ∧
       t.dev.events = s.dev.events ++ [⟨s.dev.cycle, .atomicAtHome, [id]⟩] ∧ t.mem = s.mem) ∧
     (∀ n, r.op = .ldt → r.dst = .g n → r.sf = false → fe = false →
       ∃ t, exec .atomicAtHome s = .next t ∧ t.mem = Mem.write s.mem (feKey key) 1 ∧ Answered s t id r [(.g n, BitVec.ofNat 6400 old)]) ∧
     (∀ n, r.op = .ldw → r.dst = .g n → r.sf = false → fe = false → ∃ t, exec .atomicAtHome s = .next t ∧ t.mem = s.mem ∧ Answered s t id r [(.g n, BitVec.ofNat 6400 old)]) ∧
     ((r.op = .ldt ∨ r.op = .ldw) → fe = true → ∃ t, exec .atomicAtHome s = .next t ∧ t.mem = s.mem ∧ t.dev.feWait = [id] ∧ t.dev.reqs.get? id = some { r with phase := .waiting }) ∧
     (∀ e, r.op = .stf ∨ (r.op = .ste ∧ fe = true) → r.ent = some e → p.size = 8 →
       ∃ t, exec .atomicAtHome s = .next t ∧ Wrote s t key 8 p.data.toNat false ∧ Acknowledged s t id r e) ∧
     (r.op = .ste → fe = false → ∃ t, exec .atomicAtHome s = .next t ∧ t.mem = s.mem ∧ t.dev.feWait = [id] ∧ t.dev.reqs.get? id = some { r with phase := .waiting })) ∧
  (∀ x : Nat, loadValue true 1 x = (BitVec.ofNat 8 x).signExtend 64 ∧ loadValue true 2 x = (BitVec.ofNat 16 x).signExtend 64 ∧
     loadValue true 4 x = (BitVec.ofNat 32 x).signExtend 64 ∧ loadValue true 8 x = BitVec.ofNat 64 x ∧
     (∀ n ∈ [1, 2, 4, 8], x < 256 ^ n → (loadValue false n x).toNat = x ∧
       (loadValue true n x).toInt = (if 2 * x < 256 ^ n then (x : Int) else (x : Int) - 256 ^ n)))

/-- R158, R160, R163, R164, R166: an atomic at a vault word: the old value is answered, the new one written, no other byte and no
full/empty bit changes; CAS writes where the word equals what the register held; SCN where the thread holds a reservation of the
word and size, and clears it in both cases; RSV places the one reservation of the thread; a RED acknowledges its entry.
The model's own choices, no rules of the spec: log 27, log 38 and log 39 (access tables, CAS.W, RSV and SCN). -/
def Obligations.VaultAtomics : Prop :=
  ∀ (s : State) (id : Nat) (r : Req) (p : Part) (key : Nat), AtVault s id r p key →
    let old := wordAt s.mem key p.size
    let fe := Mem.read s.mem (feKey key) != 0
    let x := (r.opnds.getD 0 0).toNat % 2 ^ (8 * p.size)
    (∀ op n y, r.op = .amo op → p.size = 4 ∨ p.size = 8 → amoValue op (8 * p.size) old x = some y → r.dst = .g n →
      ∃ t, exec .atomicAtHome s = .next t ∧ Wrote s t key p.size y fe ∧
        Answered s t id r (if r.sf then [(.g n, BitVec.ofNat 6400 old), (.g (n + 1), 0)] else [(.g n, BitVec.ofNat 6400 old)])) ∧
    (∀ op y e, r.op = .red op → p.size = 4 ∨ p.size = 8 → amoValue op (8 * p.size) old x = some y → r.ent = some e →
      ∃ t, exec .remoteUpdate s = .next t ∧ Wrote s t key p.size y fe ∧ Acknowledged s t id r e) ∧
    (∀ n, r.op = .cas → p.size = 4 ∨ p.size = 8 → r.dst = .g n → r.sf = false → r.opnds.length = 4 → (r.opnds.getD 1 0) = 0 →
      ∃ t, exec .atomicAtHome s = .next t ∧ Answered s t id r [(.g n, BitVec.ofNat 6400 old)] ∧
        Wrote s t key p.size (if old = (r.opnds.getD 0 0).toNat then (r.opnds.getD 2 0).toNat else old) fe) ∧
    (∀ n, r.op = .rsv → r.dst = .g n → r.sf = false → (s.dev.resvs.filter fun q => decide (q.home + 4 = key / 2 ^ 56 ∧ q.loc ≠ r.loc)).length < 64 →
      ((s.dev.owner r.loc id).scnFails < 2 ∨ (s.dev.owner r.loc id).scnAt ≠ p.va) → ∃ t, exec .atomicAtHome s = .next t ∧ t.mem = s.mem ∧ Answered s t id r [(.g n, BitVec.ofNat 6400 old)] ∧
        t.dev.resvs.filter (fun q => q.loc = r.loc) = [⟨r.loc, key, p.size, p.va, key / 2 ^ 56 - 4⟩]) ∧
    (∀ n, r.op = .scn → r.dst = .g n → r.sf = false → ∃ t, exec .atomicAtHome s = .next t ∧ (∀ q ∈ t.dev.resvs, q.loc ≠ r.loc) ∧
      ((∃ q ∈ s.dev.resvs, q.loc = r.loc ∧ q.key = key ∧ q.size = p.size) → Wrote s t key p.size x fe ∧ Answered s t id r [(.g n, 0)]) ∧
      ((∀ q ∈ s.dev.resvs, ¬(q.loc = r.loc ∧ q.key = key ∧ q.size = p.size)) → t.mem = s.mem ∧ Answered s t id r [(.g n, 1)]))

/-! # Journal, fences, migration -/

namespace Sys2Proof.Machine

/-- A g destination is EMPTY behind the step's producer, whose value `x` arrives from `lo` to `hi` cycles later (R35). -/
def Later (s t : State) (d : BitVec 5) (x : D) (lo hi : Nat) : Prop :=
  t.dev.last = .issued ∧ t.mem = s.mem ∧ t.me = { s.me.pendG d s.dev.nextId with pc := s.me.pc + s.dev.len } ∧
  t.dev.arrs.get? s.dev.nextId = some ⟨s.dev.cur, [(.g d, x.setWidth 6400)], 0, false, none, [], false⟩ ∧
  ∃ k, lo ≤ k ∧ k ≤ hi ∧ (⟨s.dev.cycle + k, .producerValueArrival, [s.dev.nextId]⟩ : Event) ∈ t.dev.events
/-- The thread parks at the instruction: what it waits for, its destinations, EMPTY from now (R13, R35) and kept as they stood, and
the limit, an event of its own (R14, R171). -/
def ParkedAs (s t : State) (id : Nat) (w : Wait) (turns : Nat) (ds : List (BitVec 5)) (step : Instr) : Prop :=
  t.mem = s.mem ∧ t.me = { ds.foldl (fun u r => u.pendG r id) s.me with
    st := .parked, wait := w, limit := some (s.dev.cycle + 16 * max turns 1), waitId := id, held := ds.map fun r => (r, s.me.gr r) } ∧
  (⟨s.dev.cycle + 16 * max turns 1, step, [s.dev.cur, s.dev.cycle + 16 * max turns 1]⟩ : Event) ∈ t.dev.events
abbrev Parked (s t : State) (w : Wait) (turns : Nat) (ds : List (BitVec 5)) (step : Instr) : Prop := ParkedAs s t s.dev.nextId w turns ds step
/-- Nothing of the thread's memory traffic is outstanding. -/
abbrev State.quiet (s : State) : Prop :=
  (∀ q ∈ s.dev.reqs, q.2.loc ≠ s.dev.cur) ∧ openLoads s.dev s.dev.cur = [] ∧ s.me.faults = [] ∧ ownEntries s.dev s.dev.cur = [] ∧
  ∀ f ∈ s.dev.fwd, f.1 ≠ s.dev.cur
/-- R152: what PSJ.INSP reads; nothing is said of the other words of a free entry. -/
def inspected (s : State) (x sel : Nat) : Option D :=
  if 32 ≤ x then some 0
  else match journalEntry s.dev s.dev.cur x with
    | none => if sel = 0 then some 0 else none
    | some e => if e.loc ≠ s.dev.cur ∧ s.me.priv = false then some 0
      else some (match sel with | 0 => entryStatus e | 1 => e.addr | 2 => e.data | 3 => e.pc | _ => e.addrHi)
/-- R152: the status of REPOST and DISCARD: 0 for a refused entry the thread may touch. -/
def pickStatus (s : State) (x : Nat) : Nat :=
  if 32 ≤ x then 3
  else match journalEntry s.dev s.dev.cur x with
    | none => 1
    | some e => if e.loc ≠ s.dev.cur ∧ s.me.priv = false then 2 else if e.refused = none then 1 else 0
/-- R143, R167: the least cost of a migration between a core and channel `ch`, a load there and 8 cycles, and what it may take more. -/
def migrateRange (ca ch : Nat) : Nat × Nat := if 96 ≤ ch then (608, 350) else if chanDie ch = dieOf ca then (188, 80) else (268, 120)
/-- The thread's loads on their way, which a fence waits for. -/
def State.loads (s : State) : List (Nat × Req) := s.dev.reqs.filter fun r => r.2.loc = s.dev.cur && mine s.dev s.dev.cur r.1 && r.2.ent.isNone

end Sys2Proof.Machine

/-- R152: PSJ.INSP reads an entry's status, address, data, pc or target; an index of 32 or more, and in U another slot's entry,
reads 0. An index names an entry of the thread's core; a refused one that the thread left at a channel core comes first.
R152: PSJ.DISCARD clears a refused entry, PSJ.REPOST sends it again, as the store, the reduction or the message it was, after
every access issued before it; both answer a status and change nothing when it is not 0.
The model's own choices, no rules of the spec: log 32 and log 45 (reposts, a free entry). -/
def Obligations.Journal : Prop :=
  (∀ (s : State) (d a k1 : BitVec 5) (m : Bool) (xs : List D) (v : Dev), s.ready → s.start.readGs [a] = some (xs, v) → s.start.space d →
     (∀ y, inspected s (xs.getD 0 0).toNat k1.toNat = some y → exec (.psjInsp d a k1 m) s = .next ⟨(v.writeG d y).next, s.mem⟩) ∧
     (inspected s (xs.getD 0 0).toNat k1.toNat = none → ∃ y, exec (.psjInsp d a k1 m) s = .next ⟨(({ v with free := v.free + 1 } : Dev).writeG d y).next, s.mem⟩) ∧
     (s.me.mig = none → Tbl.sorted (s.dev.core (coreOf s.dev.cur)).journal = true →
       (∀ c ∈ s.dev.cores, kindOf c.1 = 2 → c.1 ≠ coreOf s.dev.cur → ∀ e ∈ c.2.journal, e.2.loc ≠ s.dev.cur) →
       ∀ x, journalEntry s.dev s.dev.cur x = (s.dev.core (coreOf s.dev.cur)).journal.get? x) ∧
     (∀ e : JEntry, e.sc < 8 → e.size ∈ [1, 2, 4, 8] → e.refused.getD 0 < 256 →
       (entryStatus e).getLsbD 63 = true ∧ (entryStatus e).getLsbD 62 = e.refused.isSome ∧ fieldN (entryStatus e) 61 58 = slotOf e.loc ∧
       2 ^ fieldN (entryStatus e) 57 56 = e.size ∧ fieldN (entryStatus e) 55 53 = e.sc ∧ fieldN (entryStatus e) 47 16 = 0 ∧
       fieldN (entryStatus e) 15 8 = e.refused.getD 0 ∧ fieldN (entryStatus e) 7 0 = 0)) ∧
  (∀ (s : State) (d a : BitVec 5) (m : Bool) (xs : List D) (v : Dev), s.ready → s.start.readGs [a] = some (xs, v) → s.start.space d →
     let x := (xs.getD 0 0).toNat
     let st := pickStatus s x
     (st ≠ 0 → ∀ i ∈ [Instr.psjDiscard d a m, .psjRepost d a m], exec i s = .next ⟨(v.writeG d (ofN st)).next, s.mem⟩) ∧
     (st = 0 → ∀ e, journalEntry s.dev s.dev.cur x = some e → exec (.psjDiscard d a m) s =
       .next ⟨((v.writeG d 0).updCore e.core fun c => { c with journal := c.journal.erase x }).next, s.mem⟩) ∧
     (st = 0 → ∀ e, journalEntry s.dev s.dev.cur x = some e → (∀ r, e.orig = some r → r.dst = .none) →
       ∃ t, exec (.psjRepost d a m) s = .next t ∧ t.dev.last = .issued ∧ t.mem = s.mem ∧ t.me.pc = s.me.pc + s.dev.len ∧
         (s.me.isQueue d = false → d ≠ 0 → t.me.gr d = .ofVal 0) ∧
         (t.dev.core e.core).journal.get? x = some { e with refused := none, taken := false, req := s.dev.nextId, again := e.again || e.orig.isNone } ∧
         (∀ r, e.orig = some r → ∃ q, t.dev.reqs.get? s.dev.nextId = some q ∧ q.op = r.op ∧ q.parts = r.parts ∧ q.opnds = r.opnds ∧ q.sc = r.sc ∧ q.ent = some x ∧ q.again = true) ∧
         (e.orig = none → ∃ n b, (⟨n, .messagePlacement, [e.core, x, s.dev.nextId, b]⟩ : Event) ∈ t.dev.events)))

/-- R142, R150, R151, R153, R169, R240: PSD and every fence, of whatever scope, wait for the thread's loads, the reads of grammar
queries and of NCAS among them, and for its journal entries, and then only move on; where every load waits for a page that is not
resident the slot becomes FAULTED; an earlier load's fault is taken there, the earliest first, with the load's pc in TPC and the resume pc in TAUX.
R165: WRS parks a thread that holds a reservation for the address, up to its limit, and is a load of 64 bits for one that holds
none; the write that loses the reservation ends the wait with the word's value.
The model's own choices, no rules of the spec: log 29, log 37 and log 41 (limits, scopes, WRS). -/
def Obligations.Waits : Prop :=
  (∀ (s : State) (x : Bool) (c : BitVec 3), s.ready →
     (s.quiet → exec .psd s = .next ⟨s.start.next, s.mem⟩) ∧
     (∀ i ∈ [Instr.psd, .fncAcq x c, .fncRel x c, .fncFull x c],
       (false ∈ openLoads s.dev s.dev.cur → ∃ t, exec i s = .next t ∧ Lost s t) ∧
       (openLoads s.dev s.dev.cur ≠ [] → false ∉ openLoads s.dev s.dev.cur → ∃ t, exec i s = .next t ∧ t.me.st = .faulted ∧ t.me.pc = s.me.pc ∧ t.mem = s.mem)) ∧
     (∀ q ∈ s.loads, decide (q.2.phase = .nonresident) ∈ openLoads s.dev s.dev.cur) ∧
     (∀ q ∈ s.dev.gramQ, q.2.loc = s.dev.cur → mine s.dev s.dev.cur q.1 = true → q.2.away ∈ openLoads s.dev s.dev.cur) ∧
     (∀ q ∈ s.dev.nameQ, q.2.kind = .cas → q.2.loc = s.dev.cur → mine s.dev s.dev.cur q.1 = true → q.2.away ∈ openLoads s.dev s.dev.cur) ∧
     (∀ i ∈ [Instr.fncAcq x c, .fncRel x c, .fncFull x c],
       (s.quiet → (x = true → (s.dev.core s.core).journal = []) → exec i s = .next ⟨s.start.next, s.mem⟩) ∧
       (c ≠ 4 → openLoads s.dev s.dev.cur = [] → s.me.faults = [] → ownEntries s.dev s.dev.cur ≠ [] → ∃ t, exec i s = .next t ∧ Lost s t)) ∧
     (∀ i ∈ [Instr.psd, .fncAcq x c, .fncRel x c, .fncFull x c], ∀ id f,
       openLoads s.dev s.dev.cur = [] → s.canTrap → s.me.faults.get? id = some f → (∀ y ∈ s.me.faults, id ≤ y.1) →
       ∃ t, exec i s = .next t ∧ t.dev.last = .deferred ∧ t.me.tcause = mkTcause f.cause 1 s.me.priv true ∧ t.me.tpc = f.pc ∧ t.me.tval = f.tval ∧
         t.me.taux = setField s.me.pc 63 56 f.reason ∧ t.me.pc = s.me.tvec ∧ t.me.priv = true ∧ t.me.faults = s.me.faults.erase id)) ∧
  ((∀ (s : State) (d a : BitVec 5) (m : Bool) (i : BitVec 15) (xs : List D) (v : Dev) (x : Reach) (size : Nat), s.ready → s.start.readGs [a] = some (xs, v) →
     s.start.claim d → (∀ r ∈ s.dev.reqs, ¬(r.2.loc = s.dev.cur ∧ r.2.op = .rsv)) →
     size = ((s.dev.resvs.find? fun r => r.loc = s.dev.cur && r.va = xs.getD 0 0).map fun r => r.size).getD 8 →
     reach s.dev s.dev.cur (xs.getD 0 0) size size 3 = .ok x → x.comp s.dev s.dev.cur (xs.getD 0 0) = false → x.tier ≠ 3 →
     ((∃ r ∈ s.dev.resvs, r.loc = s.dev.cur ∧ r.va = xs.getD 0 0) → ∃ t, exec (.wrs d a m i) s = .next t ∧ Parked s t .reservation i.toNat [d] .waitExpired) ∧
     ((∀ r ∈ s.dev.resvs, ¬(r.loc = s.dev.cur ∧ r.va = xs.getD 0 0)) → ∃ t r, exec (.wrs d a m i) s = .next t ∧ Sent s t [d] ∧
       t.dev.reqs.get? s.dev.nextId = some r ∧ r.op = .ld false ∧ r.dst = .g d ∧ r.parts = [⟨xs.getD 0 0, 8, 0, 0, x.place, x.pageSize, x.rights⟩])) ∧
   (∀ (m : Mem) (d : Dev) (loc key size x : Nat) (r : Resv), d.resvs = [r] → r.loc ≠ loc → overlaps r.key r.size key size = true →
     (d.thread r.loc).st = .parked → (d.thread r.loc).wait = .reservation → (d.thread r.loc).mig = none → d.wbuf = [] → d.wclear = [] → rdB m d (errKey key) = 0 →
     let e := writeBytes m d loc key size x
     let t := d.thread r.loc
     e.resvs = [] ∧ (e.thread r.loc).st = (if (d.core (coreOf r.loc)).frozen then .parked else t.running) ∧ (e.thread r.loc).pc = t.pc + 4 ∧
       (e.thread r.loc).held = [] ∧
       (∀ y o, t.held = [(y, o)] → y ≠ 0 → (t.gr y).prod = .pend t.waitId → (e.thread r.loc).gr y = .ofVal (ofN (rdN m e r.key r.size)))))

/-- R167, R168: MIGR sends the scalar context to the channel core of the address's home, its slot PARKED meanwhile and the thread
going on after the MIGR; it waits for pending g registers; a thread in queue mode, and an address without such a home, trap. The
context runs in a free slot of the channel core. MHOM brings it back, and only moves on at the origin.
The model's own choices, no rules of the spec: log 42 and log 109. -/
def Obligations.Migration : Prop :=
  (∀ (s : State) (a : BitVec 5) (m : Bool) (xs : List D) (v : Dev), s.ready → s.start.readGs [a] = some (xs, v) →
    let va := xs.getD 0 0
    (s.me.qm = true → s.canTrap → ∃ t, exec (.migr a m) s = .next t ∧ Trapped s t 0x01 ((encode (.migr a m)).setWidth 64) 2) ∧
    (s.me.qm = false → winCode va ≠ 0 → s.canTrap → ∃ t, exec (.migr a m) s = .next t ∧ Trapped s t 0x06 va 0) ∧
    (∀ e ch, s.me.qm = false → winCode va = 0 → tlbFind (s.dev.tile (tlbTile s.dev.cur)) (rootOf (ctxOf s.dev s.dev.cur)) va.toNat = some e →
      rightsOk e.rights 0 (!s.me.priv) = true → homeOf s.dev s.dev.cur va e = some (some ch) →
      (gPending s.me = true → ∃ t, exec (.migr a m) s = .next t ∧ Lost s t) ∧
      (gPending s.me = false → ∃ t n, n ≤ (migrateRange s.core ch).2 ∧ exec (.migr a m) s = .next t ∧ t.mem = s.mem ∧
        t.me = { s.me with pc := s.me.pc + s.dev.len, mig := some (mkCore ch 0 2, none), st := .parked, wait := .context, limit := none } ∧
        t.dev.events = s.dev.events ++ [⟨s.dev.cycle + ((migrateRange s.core ch).1 + n), .contextMigrationArrival, [s.dev.cur]⟩] ∧ (∀ r ∈ t.dev.resvs, r.loc ≠ s.dev.cur)))) ∧
  (∀ (s : State) (loc ch : Nat), s.dev.args = [loc] → (s.dev.thread loc).mig = some (ch, none) → s.dev.chanQ = [] →
    (∀ k, chanFree s.dev ch = some k → ∃ t, exec .contextMigrationArrival s = .next t ∧ t.dev.thread loc = { s.dev.thread loc with mig := some (ch, some k) } ∧ t.mem = s.mem) ∧
    (chanFree s.dev ch = none → ∃ t, exec .contextMigrationArrival s = .next t ∧ t.dev.thread loc = s.dev.thread loc ∧ t.dev.chanQ = [(ch, loc, true)]) ∧
    ((s.dev.thread loc).st = .parked → ∃ t, exec .contextReturn s = .next t ∧ t.dev.thread loc = { s.dev.thread loc with mig := none, st := (if (s.dev.core (coreOf loc)).frozen then .parked else (s.dev.thread loc).running), wait := .context, limit := none } ∧ t.mem = s.mem)) ∧
  (∀ s : State, s.ready →
    (s.me.mig = none → exec .mhom s = .next ⟨s.start.next, s.mem⟩) ∧
    (∀ p, s.me.mig = some p → ∃ t n, n ≤ (migrateRange (coreOf s.dev.cur) (unitOf p.1)).2 ∧ exec .mhom s = .next t ∧ t.mem = s.mem ∧
      t.me = { s.me with pc := s.me.pc + s.dev.len, mig := some (p.1, none), st := .parked, wait := .context, limit := none } ∧
      t.dev.events = s.dev.events ++ [⟨s.dev.cycle + ((migrateRange (coreOf s.dev.cur) (unitOf p.1)).1 + n), .contextReturn, [s.dev.cur]⟩] ∧ (∀ r ∈ t.dev.resvs, r.loc ≠ s.dev.cur)))

/-- R132, R133: GTOA, ATOG and APQ compute from the address alone; on a core with a vault ATOG of an offset within a window and
GTOA of the address it gives are inverse, and APQ names the window. R137: the stack, channel and bank group of a granule of an
HBM page.
R139: PLQ answers one turn after issue on a TLB hit with the page's placement word, in a vault window with the own die's, and
elsewhere with 0; PLQ.CUR with the granule of a page under re-stripe, else all ones; on a miss the answer waits for a walk.
The model's own choices, no rules of the spec: log 44. -/
def Obligations.WindowsAndPlacement : Prop :=
  ((∀ (s : State) (d a w : BitVec 5) (m : Bool) (xs : List D) (v : Dev), s.ready → s.start.readGs [a] = some (xs, v) → s.start.space d →
     exec (.gtoa d a w m) s = .next ⟨(v.writeG d (gtoa s.core w.toNat (xs.getD 0 0))).next, s.mem⟩ ∧
     exec (.atog d a w m) s = .next ⟨(v.writeG d (atog w.toNat (xs.getD 0 0))).next, s.mem⟩ ∧
     exec (.apq d a m) s = .next ⟨(v.writeG d (ofN (winCode (xs.getD 0 0)))).next, s.mem⟩) ∧
   (∀ (ca : Nat) (x : D), kindOf ca ≠ 2 →
     (x.toNat < 0x80000 → winCode (atog 1 x) = 1 ∧ (isCompute ca = true → gtoa ca 1 (atog 1 x) = x)) ∧
     (x.toNat < 0x2000000 → winCode (atog 2 x) = 2 ∧ gtoa ca 2 (atog 2 x) = x) ∧
     (x.toNat < 0x20000000 → winCode (atog 3 x) = 3 ∧ gtoa ca 3 (atog 3 x) = x) ∧
     (x.toNat < 2 ^ 56 → winCode x = 0) ∧ (winCode x = 0 ∨ winCode x = 7 → gtoa ca 1 x = BitVec.allOnes 64 ∧ gtoa ca 2 x = BitVec.allOnes 64 ∧ gtoa ca 3 x = BitVec.allOnes 64)) ∧
   (∀ (w : D) (off : Nat), plTier w = 0 → plStacks w ≠ 0 → plChspr w ≤ 5 →
     let l := setBits (plStacks w) 12
     let g := off / 2 ^ (plGran w + 8) + plRot w
     l[g % l.length]? = some (plUnit w off) ∧ plChannel w off = (g / l.length % 2 ^ plChspr w * 2 ^ (5 - plChspr w) + plRot w) % 32 ∧
     plBankGroup w off = g / (l.length * 2 ^ plChspr w) % 2 ^ plBgspr w)) ∧
  (∀ (s : State) (d a : BitVec 5) (m : Bool) (xs : List D) (v : Dev), s.ready → s.start.readGs [a] = some (xs, v) → s.start.claim d →
     let va := xs.getD 0 0
     let hit := tlbFind (s.dev.tile (tlbTile s.dev.cur)) (rootOf (ctxOf s.dev s.dev.cur)) va.toNat
     (∀ e, winCode va = 0 → hit = some e → (∃ t, exec (.plq d a m) s = .next t ∧ Later s t d e.place 16 16) ∧
       (∃ t x, exec (.plqCur d a m) s = .next t ∧ Later s t d x 16 16 ∧ (plMig e.place = false → x = BitVec.allOnes 64) ∧
         (∀ k c, plMig e.place = true → k < 4 → plDies e.place = 2 ^ k → (s.dev.die k).cursors.get? (plCur e.place) = some c → x = ofN c.granule))) ∧
     (winCode va = 7 → (∃ t, exec (.plq d a m) s = .next t ∧ Later s t d 0 16 16) ∧
       ∃ t, exec (.plqCur d a m) s = .next t ∧ Later s t d (BitVec.allOnes 64) 16 16) ∧
     (winCode va ∈ [1, 2, 3] → dieOf s.core < 4 →
       (∃ t w, exec (.plq d a m) s = .next t ∧ Later s t d w 16 16 ∧ plTier w = 2 ∧ plDies w = 2 ^ dieOf s.core ∧ w.toNat % 2 ^ 58 = 0) ∧
       ∃ t, exec (.plqCur d a m) s = .next t ∧ Later s t d (BitVec.allOnes 64) 16 16) ∧
     (winCode va = 0 → hit = none → ∀ i ∈ [Instr.plq d a m, .plqCur d a m],
       ((s.dev.tile (tlbTile s.dev.cur)).walks.length < 4 → ∃ t, exec i s = .next t ∧ t.dev.last = .issued ∧ t.mem = s.mem ∧
         t.me = { s.me.pendG d s.dev.nextId with pc := s.me.pc + s.dev.len } ∧ ∃ n c, (⟨n, .placementTlbWalk, [s.dev.cur, va.toNat, 4, s.dev.nextId, c]⟩ : Event) ∈ t.dev.events) ∧
       (4 ≤ (s.dev.tile (tlbTile s.dev.cur)).walks.length → ∃ t, exec i s = .next t ∧ Lost s t)))

/-! # Vectors -/

namespace Sys2Proof.Machine

/-- A vector instruction of one turn: destination, v and g sources, mask, the width and number of the lanes it writes, its rounding
field (none when it does not round), and each lane's result with its flags, from the rounding mode, the random bits of each lane,
the sources, the mask and the old destination. -/
structure Lanes where
  d : BitVec 5
  vs : List (BitVec 5)
  gs : List (BitVec 5)
  p : BitVec 3
  w : Nat
  n : Nat
  rm : Option Nat
  f : Fp.Mode → (Nat → Nat) → List V → List D → D → V → Nat → Nat × Fp.Flags
/-- R113: an element-wise instruction: inactive lanes keep the old value, and the old destination is a source unless the mask is
p0. -/
def Lanes.el (d : BitVec 5) (vs : List (BitVec 5)) (p t : BitVec 3) (rm : Option Nat) (g : Fp.Mode → Nat → Nat → Nat → Nat × Fp.Flags) : Lanes :=
  ⟨d, vs ++ (if p = 0 then [] else [d]), [], p, laneW t, laneN t, rm, fun m u xs _ pm old i =>
    if pm.getLsbD i then g m (u i) (laneOf (laneW t) (xs.getD 0 0) i) (laneOf (laneW t) (xs.getD (vs.length - 1) 0) i) else (laneOf (laneW t) old i, 0)⟩
/-- R118: floats by one function, integers by another. -/
def ofType (t : BitVec 3) (g : Fp.Fmt → Fp.Mode → Nat → Fp.Val → Fp.Val → Nat × Fp.Flags) (h : BitVec (laneW t) → BitVec (laneW t) → BitVec (laneW t))
    (m : Fp.Mode) (u x y : Nat) : Nat × Fp.Flags :=
  if isFloat t then g (tyFmt t) m u ((tyFmt t).decode x) ((tyFmt t).decode y) else ((h (BitVec.ofNat _ x) (BitVec.ofNat _ y)).toNat, 0)
def onBits (t : BitVec 3) (h : BitVec (laneW t) → BitVec (laneW t) → BitVec (laneW t)) (_ : Fp.Mode) (_ x y : Nat) : Nat × Fp.Flags :=
  ((h (BitVec.ofNat _ x) (BitVec.ofNat _ y)).toNat, 0)
def fpRm (t : BitVec 3) : Option Nat := if isFloat t then some 0 else none
def signedLess {w} (x y : BitVec w) : Bool := decide (x.toInt < y.toInt)
/-- R118, R120, R122, R123: the instructions of one turn that write a vector. -/
def vecResult : Instr → Option Lanes
  | .vadd d a b p t => some (.el d [a, b] p t (fpRm t) (ofType t Fp.add (· + ·)))
  | .vsub d a b p t => some (.el d [a, b] p t (fpRm t) (ofType t (fun f m u x y => Fp.add f m u x y.neg) (· - ·)))
  | .vmul d a b p t => some (.el d [a, b] p t (fpRm t) (ofType t (fun f m u x y => Fp.fma f m u x y none) (· * ·)))
  | .vmin d a b p t => some (.el d [a, b] p t none fun m u x y => if isFloat t then Fp.minmax (tyFmt t) false x y else onBits t (fun x y => if signedLess x y then x else y) m u x y)
  | .vmax d a b p t => some (.el d [a, b] p t none fun m u x y => if isFloat t then Fp.minmax (tyFmt t) true x y else onBits t (fun x y => if signedLess x y then y else x) m u x y)
  | .vminN d a b p t => some (.el d [a, b] p t none (onBits t fun x y => if x.toNat < y.toNat then x else y))
  | .vmaxN d a b p t => some (.el d [a, b] p t none (onBits t fun x y => if x.toNat < y.toNat then y else x))
  | .vand d a b p t => some (.el d [a, b] p t none (onBits t (· &&& ·)))
  | .vor d a b p t => some (.el d [a, b] p t none (onBits t (· ||| ·)))
  | .vxor d a b p t => some (.el d [a, b] p t none (onBits t (· ^^^ ·)))
  | .vshl d a b p t => some (.el d [a, b] p t none (onBits t fun x y => x <<< (y.toNat % laneW t)))
  | .vshr d a b p t => some (.el d [a, b] p t none (onBits t fun x y => x.sshiftRight (y.toNat % laneW t)))
  | .vshrN d a b p t => some (.el d [a, b] p t none (onBits t fun x y => x >>> (y.toNat % laneW t)))
  | .vabs d a p t => some (.el d [a] p t none (onBits t fun x _ => if isFloat t then x.setWidth (laneW t - 1) |>.setWidth (laneW t) else BitVec.ofNat _ x.toInt.natAbs))
  | .vneg d a p t => some (.el d [a] p t none (onBits t fun x _ => if isFloat t then x ^^^ BitVec.twoPow (laneW t) (laneW t - 1) else -x))
  | .vmov d a p t => some (.el d [a] p t none (onBits t fun x _ => x))
  | .vsel d a b p t => some ⟨d, [a, b], [], p, laneW t, laneN t, none, fun _ _ xs _ pm _ i => (laneOf (laneW t) (xs.getD (if pm.getLsbD i then 0 else 1) 0) i, 0)⟩
  | .vbc d a p t => some ⟨d, if p = 0 then [] else [d], [a], p, laneW t, laneN t, none, fun _ _ _ gs pm old i => (if pm.getLsbD i then (gs.getD 0 0).toNat else laneOf (laneW t) old i, 0)⟩
  | .vins d a b t => some ⟨d, [d], [a, b], 0, laneW t, laneN t, none, fun _ _ _ gs _ old i => (if i = (gs.getD 1 0).toNat % laneN t then (gs.getD 0 0).toNat else laneOf (laneW t) old i, 0)⟩
  | .viota d p t => some { Lanes.el d [] p t none (fun _ _ _ _ => (0, 0)) with f := fun _ _ _ _ pm old i => (if pm.getLsbD i then (if isFloat t then (Fp.ofInt (tyFmt t) .rne 0 i).1 else i) else laneOf (laneW t) old i, 0) }
  | .vperm d a b p t => some { Lanes.el d [a, b] p t none (fun _ _ _ _ => (0, 0)) with f := fun _ _ xs _ pm old i => (if pm.getLsbD i then laneOf (laneW t) (xs.getD 0 0) (laneOf (laneW t) (xs.getD 1 0) i % laneN t) else laneOf (laneW t) old i, 0) }
  | .vfma d a b p t r => some ⟨d, [a, b, d], [], p, laneW t, laneN t, some r.toNat, fmaLanes t false false⟩
  | .vfms d a b p t r => some ⟨d, [a, b, d], [], p, laneW t, laneN t, some r.toNat, fmaLanes t false true⟩
  | .vfnma d a b p t r => some ⟨d, [a, b, d], [], p, laneW t, laneN t, some r.toNat, fmaLanes t true false⟩
  | .vfnms d a b p t r => some ⟨d, [a, b, d], [], p, laneW t, laneN t, some r.toNat, fmaLanes t true true⟩
  | .vcvt d a c r t => some ⟨d, [a] ++ (if 15 ≤ c.toNat ∧ c.toNat < 18 then [d] else []), [], 0, (cvtTarget c.toNat t).1, min (cvtTarget c.toNat t).2 (laneN t), some r.toNat,
      fun m u xs _ _ old i => cvtLane c.toNat t (Fp.f32.decode (old.toNat % 2 ^ 32)) m (u i) (laneOf (if 24 ≤ c.toNat then (narrowFmt c.toNat).width else laneW t) (xs.getD 0 0) i)⟩
  | _ => none
where fmaLanes (t : BitVec 3) (np nc : Bool) (m : Fp.Mode) (u : Nat → Nat) (xs : List V) (_ : List D) (pm : D) (old : V) (i : Nat) : Nat × Fp.Flags :=
  let x := (tyFmt t).decode (laneOf (laneW t) (xs.getD 0 0) i)
  let y := (tyFmt t).decode (laneOf (laneW t) (xs.getD 1 0) i)
  let z := (tyFmt t).decode (laneOf (laneW t) old i)
  if pm.getLsbD i then Fp.fma (tyFmt t) m (u i) (if np then x.neg else x) y (some (if nc then z.neg else z)) else (laneOf (laneW t) old i, 0)
/-- R118, R114: the vector divide unit's instructions. -/
def vecDivide : Instr → Option (BitVec 3 × Lanes)
  | .vdiv d a b p t => some (t, .el d [a, b] p t (fpRm t) (ofType t Fp.div fun x y => if y = 0 then BitVec.allOnes _ else BitVec.ofInt _ (x.toInt.tdiv y.toInt)))
  | .vsqrt d a p t => some (t, .el d [a] p t (fpRm t) (ofType t (fun f m u x _ => Fp.sqrt f m u x) fun x _ => x))
  | _ => none
/-- The lanes of a result: lanes 0 to n - 1 by the function, every bit above them 0. -/
def Lanes.holds (l : Lanes) (s : State) (xs : List V) (gs : List D) (pm : D) (y : V) : Prop :=
  y.toNat < 2 ^ (l.w * l.n) ∧ ∀ i, i < l.n →
    laneOf l.w y i = (l.f (Fp.modeOf (l.rm.getD 0) s.me.fpm) s.me.srLane xs gs pm (s.me.vr l.d).val i).1 % 2 ^ l.w
def Lanes.flags (l : Lanes) (s : State) (xs : List V) (gs : List D) (pm : D) : Fp.Flags :=
  (List.range l.n).foldl (fun acc i => acc ||| (l.f (Fp.modeOf (l.rm.getD 0) s.me.fpm) s.me.srLane xs gs pm (s.me.vr l.d).val i).2) 0
/-- R67: RNC after an instruction with a rounding field. -/
def drawn (s : State) (rm : Option Nat) : D := if rm.isSome ∧ Fp.modeOf (rm.getD 0) s.me.fpm = .sr then s.me.rnc + 1 else s.me.rnc
/-- A compute core's thread whose vector and predicate sources are FULL. -/
abbrev State.vectorReady (s : State) (vs : List (BitVec 5)) (xs : List V) (p : BitVec 3) (pm : D) : Prop :=
  s.ready ∧ kindOf s.core = 0 ∧ vs.map s.me.vr = xs.map .ofVal ∧ s.me.pr p = .ofVal pm
/-- R119: the condition of VCMP on two lanes. -/
def vecCondition (t : BitVec 3) (c : BitVec 2) (uns : Bool) (x y : Nat) : Bool × Fp.Flags :=
  if isFloat t then
    let a := (tyFmt t).decode x
    let b := (tyFmt t).decode y
    match c.toNat with
    | 0 => Fp.feq a b
    | 1 => Fp.flt a b
    | 2 => Fp.fle a b
    | _ => (!(Fp.feq a b).1, (Fp.feq a b).2)
  else
    let v : Nat → Int := fun z => if uns then z else (BitVec.ofNat (laneW t) z).toInt
    (match c.toNat with | 0 => v x = v y | 1 => v x < v y | 2 => v x ≤ v y | _ => v x ≠ v y, 0)
/-- R121: the integer operators with their identities. -/
def intFold (t : BitVec 3) (o : Nat) : Option ((Nat → Nat → Nat) × Nat) :=
  let w := laneW t
  match o with
  | 0 => some (fun x y => (x + y) % 2 ^ w, 0)
  | 3 => some (fun x y => x &&& y, 2 ^ w - 1)
  | 4 => some (fun x y => x ||| y, 0)
  | 5 => some (fun x y => x ^^^ y, 0)
  | 6 => some (fun x y => if x < y then x else y, 2 ^ w - 1)
  | 7 => some (fun x y => if x < y then y else x, 0)
  | _ => none
/-- R121: a combination of two lanes by an operator, with the flags it raises. -/
def foldOp (t : BitVec 3) (o : Nat) (m : Fp.Mode) (u x y : Nat) : Nat × Fp.Flags := match o with
  | 0 => ofType t Fp.add (· + ·) m u x y
  | 1 => if isFloat t then Fp.minmax (tyFmt t) false x y else onBits t (fun x y => if signedLess x y then x else y) m u x y
  | 2 => if isFloat t then Fp.minmax (tyFmt t) true x y else onBits t (fun x y => if signedLess x y then y else x) m u x y
  | 3 => (x &&& y, 0)
  | 4 => (x ||| y, 0)
  | 5 => (x ^^^ y, 0)
  | 6 => (if x < y then x else y, 0)
  | _ => (if x < y then y else x, 0)
/-- A combination with "none" passes the other side through. -/
def foldPair (f : Nat → Nat → Nat × Fp.Flags) : Option Nat → Option Nat → Option Nat × Fp.Flags
  | some x, some y => (some (f x y).1, (f x y).2)
  | x, none => (x, 0)
  | none, y => (y, 0)
/-- R121: the pairwise tree over 2^k lanes from lane i, the lower half on the left; a combination's result stands at its lower lane. -/
def treeAt (f : Nat → Nat → Nat → Nat × Fp.Flags) (l : Nat → Option Nat) : Nat → Nat → Option Nat × Fp.Flags
  | 0, i => (l i, 0)
  | k + 1, i =>
    let r := foldPair (f i) (treeAt f l k i).1 (treeAt f l k (i + 2 ^ k)).1
    (r.1, (treeAt f l k i).2 ||| (treeAt f l k (i + 2 ^ k)).2 ||| r.2)
/-- R121: lane i of the inclusive scan after k steps. -/
def scanAt (f : Nat → Nat → Nat → Nat × Fp.Flags) (l : Nat → Option Nat) : Nat → Nat → Option Nat
  | 0, i => l i
  | k + 1, i => if 2 ^ k ≤ i then (foldPair (f i) (scanAt f l k (i - 2 ^ k)) (scanAt f l k i)).1 else scanAt f l k i
/-- The flags of the first k steps of a scan of n lanes. -/
def scanFlags (f : Nat → Nat → Nat → Nat × Fp.Flags) (l : Nat → Option Nat) (n : Nat) : Nat → Fp.Flags
  | 0 => 0
  | k + 1 => (List.range n).foldl (fun acc i => acc ||| (if 2 ^ k ≤ i then (foldPair (f i) (scanAt f l k (i - 2 ^ k)) (scanAt f l k i)).2 else 0)) (scanFlags f l n k)
/-- The accumulator unit is free and nothing of the thread's xa is on its way. -/
abbrev State.xaReady (s : State) : Prop :=
  s.ready ∧ kindOf s.core = 0 ∧ (s.dev.core (coreOf s.dev.cur)).xaccFree ≤ s.dev.cycle ∧ (∀ r ∈ s.dev.reqs, r.2.loc = s.dev.cur → r.2.dst ≠ .xa) ∧
  (∀ a ∈ s.dev.arrs, a.2.loc = s.dev.cur → ∀ v ∈ a.2.vals, v.1 ≠ .xa) ∧ ∀ f ∈ s.me.faults, f.2.xacc = false
/-- R127: what a lane of XMAC2, XMAC3 or XADD adds to xa, in units of xa's last bit; none where a factor is no finite number. -/
def exactTerm : List Fp.Val → Option Int
  | l => if l.any (fun v => match v with | .fin .. => false | _ => true) then none
    else let p := l.foldl (fun (x : Int × Int) v => match v with
        | .fin s m e => (x.1 * (if s then -(m : Int) else m), x.2 + e)
        | _ => x) (1, 0)
      some (p.1 * 2 ^ (p.2 + 3264).toNat)
/-- The factors of a lane of the accumulating instructions, with their v sources, mask and type. -/
def xaccOf : Instr → Option (List (BitVec 5) × BitVec 3 × BitVec 3)
  | .xmac2 a b p t => some ([a, b], p, t)
  | .xmac3 c a b p t => some ([a, b, c], p, t)
  | .xadd a p t => some ([a], p, t)
  | _ => none
/-- The words of a vector access from `va`, each reached. -/
def wordsReached (s : State) (va : D) (n kind : Nat) : Prop := ∀ k, k < n → ∃ x, reach s.dev s.dev.cur (va + BitVec.ofNat 64 (8 * k)) 8 8 kind = .ok x
/-- The base of a vector access is in a window or global, and aligned. -/
abbrev baseGood (s : State) (va : D) (align : Nat) : Prop := (winCode va = 0 ∨ vaultLoc s.core va ≠ none) ∧ va.toNat % align = 0
/-- The part of an access that one address gives. -/
def partOf (s : State) (size kind lane : Nat) (va : D) (data : Nat) : Part := match reach s.dev s.dev.cur va size size kind with
  | .ok x => mkPart va size lane (ofN data) x
  | .error _ => ⟨va, size, lane, ofN data, none, 0, 0⟩
/-- R148: every part of a store may be performed at issue; `w` is the machine after the sources are read. -/
def atIssue (s : State) (w : Dev) (sc : Nat) (ps : List Part) : Prop := ∀ p ∈ ps, p.place = none ∧ ∃ l, vaultLoc s.core p.va = some l ∧
  storeNow s.mem w (newReq w .st sc ps .none) l.1 l.2 p.size = true
/-- The key of the vault byte an address names. -/
def keyOf (s : State) (va : D) : Nat := ((vaultLoc s.core va).map fun l => vaultKey l.1 l.2).getD 0
/-- The parts of a store have been performed: each byte of memory outside them is as before, and no journal has changed. -/
def StoredOnly (s t : State) (ps : List Part) : Prop :=
  (∀ k, k < 2 ^ 73 → (∀ p ∈ ps, ¬(keyOf s p.va ≤ k ∧ k < keyOf s p.va + p.size)) → Mem.read t.mem k = Mem.read s.mem k) ∧
  ∀ c, (t.dev.core c).journal = (s.dev.core c).journal
/-- R129: word k of the image of xa: its bits, then XO and XV. -/
def xaImage (t : Thread) (k : Nat) : Nat := if k < 100 then (t.xa.extractLsb' (64 * k) 64).toNat else b2n (bitN t.fpm 13) + 2 * b2n (bitN t.fpm 14)
/-- R125: the address of a lane. -/
def laneVa (t : BitVec 3) (k1 : BitVec 2) (base : D) (x : V) (i : Nat) : D :=
  base + BitVec.ofInt 64 ((BitVec.ofNat (laneW t) (laneOf (laneW t) x i)).toInt * 2 ^ k1.toNat)

end Sys2Proof.Machine

/-- R112, R113, R118, R120, R122, R123, R67: an element-wise vector instruction, a move, a fused multiply-add or a conversion
writes its lanes FULL, inactive lanes keeping the old value and the bits above them 0; it raises the active lanes' flags, and one
that rounds advances RNC by 1 under SR; no other register changes.
R114, R115, R118: VDIV and VSQRT leave d EMPTY until every lane is written, 4, 3 or 2 turns after issue; the unit starts one
every 16 cycles.
The model's own choices, no rules of the spec: log 140 (bitwise operations raise no flag). -/
def Obligations.VectorElements : Prop :=
  (∀ (i : Instr) (l : Lanes) (s : State) (xs : List V) (gs : List D) (v : Dev) (pm : D), vecResult i = some l → s.vectorReady l.vs xs l.p pm → s.start.claimV l.d → s.start.readGs l.gs = some (gs, v) →
     ∃ t y, exec i s = .next t ∧ t.dev.last = .issued ∧ t.mem = s.mem ∧ l.holds s xs gs pm y ∧ t.me.vr l.d = .ofVal y ∧ (∀ r, r ≠ l.d → t.me.vr r = s.me.vr r) ∧
       t.me.g = s.me.g ∧ t.me.p = s.me.p ∧ t.me.xa = s.me.xa ∧ t.me.pc = s.me.pc + s.dev.len ∧ t.me.rnc = drawn s l.rm ∧
       t.me.fpm = s.me.fpm ||| ((l.flags s xs gs pm).setWidth 64 <<< 8) ∧ ∀ k, k ≠ s.dev.cur → t.dev.thread k = s.dev.thread k) ∧
  (∀ (i : Instr) (t : BitVec 3) (l : Lanes) (s : State) (xs : List V) (pm : D), vecDivide i = some (t, l) → s.vectorReady l.vs xs l.p pm → s.start.claimV l.d →
     ((∀ c, (s.dev.core (coreOf s.dev.cur)).vdivLast = some c → c + 16 ≤ s.dev.cycle) →
       ∃ u y, exec i s = .next u ∧ u.dev.last = .issued ∧ u.mem = s.mem ∧ l.holds s xs [] pm y ∧ u.me.vr l.d = ⟨(s.me.vr l.d).val, .empty, .pend s.dev.nextId⟩ ∧
         (∀ r, r ≠ l.d → u.me.vr r = s.me.vr r) ∧ u.me.g = s.me.g ∧ u.me.p = s.me.p ∧ u.me.fpm = s.me.fpm ∧ u.me.rnc = drawn s l.rm ∧ u.me.pc = s.me.pc + s.dev.len ∧
         u.dev.arrs.get? s.dev.nextId = some ⟨s.dev.cur, [(.v l.d, y.setWidth 6400)], l.flags s xs [] pm, true, none, [], false⟩ ∧
         u.dev.events = s.dev.events ++ [⟨s.dev.cycle + (if laneW t = 64 then 64 else if laneW t = 32 then 48 else 32), .producerValueArrival, [s.dev.nextId]⟩] ∧
         (u.dev.core (coreOf s.dev.cur)).vdivLast = some s.dev.cycle) ∧
     (∀ c, (s.dev.core (coreOf s.dev.cur)).vdivLast = some c → s.dev.cycle < c + 16 → ∃ u, exec i s = .next u ∧ Lost s u))

/-- R119: VCMP and VCMP.N write a predicate: bit i where lane i is active and the condition holds, 0 elsewhere; p0 discards it.
R120: VEX writes the lane its index names, modulo n, sign-extended for integer types and zero-extended for floats. -/
def Obligations.VectorCompareAndExtract : Prop :=
  (∀ (uns : Bool) (c : BitVec 2) (q : BitVec 3) (a b : BitVec 5) (p t : BitVec 3) (s : State) (x y : V) (pm : D), s.vectorReady [a, b] [x, y] p pm → s.start.claimP q →
     let cond := fun i => vecCondition t c uns (laneOf (laneW t) x i) (laneOf (laneW t) y i)
     let live := fun i => decide (i < laneN t) && pm.getLsbD i
     ∃ u z, exec (if uns then .vcmpN c q a b p t else .vcmp c q a b p t) s = .next u ∧ u.dev.last = .issued ∧ u.mem = s.mem ∧
       (∀ i, i < 64 → z.getLsbD i = (live i && (cond i).1)) ∧ (q ≠ 0 → u.me.pr q = .ofVal z) ∧ (∀ r, r ≠ q → u.me.pr r = s.me.pr r) ∧
       u.me.g = s.me.g ∧ u.me.v = s.me.v ∧ u.me.rnc = s.me.rnc ∧ u.me.pc = s.me.pc + s.dev.len ∧
       u.me.fpm = s.me.fpm ||| (((List.range (laneN t)).foldl (fun acc i => acc ||| (if live i then (cond i).2 else 0)) (0 : Fp.Flags)).setWidth 64 <<< 8)) ∧
  (∀ (d a b : BitVec 5) (t : BitVec 3) (s : State) (x : V) (gs : List D) (v : Dev), s.vectorReady [a] [x] 0 (BitVec.allOnes 64) → s.start.readGs [b] = some (gs, v) → s.start.space d →
     let lane := BitVec.ofNat (laneW t) (laneOf (laneW t) x ((gs.getD 0 0).toNat % laneN t))
     exec (.vex d a b t) s = .next ⟨(v.writeG d (if isFloat t then lane.setWidth 64 else lane.signExtend 64)).next, s.mem⟩)

/-- R121: VRED and VSCN combine the active lanes in one fixed order, a pairwise tree and an inclusive scan, an inactive lane passing
the other side through, and raise the flags of every combination; for the integer operators lane 0 is the fold of all active
lanes, or lane i that of the lanes up to i; other lanes of VRED are 0. Floats round, and advance RNC under SR, only with ADD.
The model's own choices, no rules of the spec: log 140 (bitwise operations raise no flag). -/
def Obligations.VectorReductions : Prop :=
  ∀ (d a o : BitVec 5) (p t : BitVec 3) (s : State) (x : V) (pm : D), s.vectorReady [a] [x] p pm → s.start.claimV d →
    let l := fun i => if pm.getLsbD i then some (laneOf (laneW t) x i) else none
    let f := fun j => foldOp t o.toNat (Fp.modeOf 0 s.me.fpm) (s.me.srLane j)
    let k := Nat.log2 (laneN t)
    let lanes := fun k => ((List.range (laneN t)).filter fun i => decide (i ≤ k) && pm.getLsbD i).map (laneOf (laneW t) x)
    (∀ i ∈ [Instr.vred d a o p t, .vscn d a o p t], ∃ u y, exec i s = .next u ∧ u.dev.last = .issued ∧ u.mem = s.mem ∧ u.me.vr d = .ofVal y ∧
      (∀ r, r ≠ d → u.me.vr r = s.me.vr r) ∧ u.me.g = s.me.g ∧ u.me.p = s.me.p ∧ u.me.pc = s.me.pc + s.dev.len ∧
      u.me.rnc = drawn s (if isFloat t ∧ o = 0 then some 0 else none) ∧
      ((isFloat t = false ∨ o ≠ 0 ∧ o ≠ 1 ∧ o ≠ 2) → u.me.fpm = s.me.fpm) ∧
      (i = .vred d a o p t → laneOf (laneW t) y 0 = (treeAt f l k 0).1.getD (identLane t o.toNat) % 2 ^ laneW t ∧ (∀ j, 0 < j → laneOf (laneW t) y j = 0) ∧
        u.me.fpm = s.me.fpm ||| ((treeAt f l k 0).2.setWidth 64 <<< 8)) ∧
      (i = .vscn d a o p t → (∀ j, j < laneN t → laneOf (laneW t) y j = (scanAt f l k j).getD (identLane t o.toNat) % 2 ^ laneW t) ∧
        u.me.fpm = s.me.fpm ||| ((scanFlags f l (laneN t) k).setWidth 64 <<< 8)) ∧
      (∀ f e, intFold t o.toNat = some (f, e) → isFloat t = false →
        (i = .vred d a o p t → laneOf (laneW t) y 0 = (lanes (laneN t)).foldl f e ∧ ∀ k, 0 < k → laneOf (laneW t) y k = 0) ∧
        (i = .vscn d a o p t → ∀ k, k < laneN t → laneOf (laneW t) y k = (lanes k).foldl f e)) ∧
      (i = .vred d a o p t → (∀ k, k < laneN t → pm.getLsbD k = false) → laneOf (laneW t) y 0 = identLane t o.toNat % 2 ^ laneW t))

/-- R79, R80, R116, R126 to R128: the exact accumulator: XCLR clears it and its marks; XMAC2, XMAC3 and XADD add each active lane's
exact product, modulo 2^6400, and set XV where a factor is no finite number; XSGN writes its sign, or 2 with XV; XRND its value
rounded once, NaN with XV; a busy unit loses the turn.
The model's own choices, no rules of the spec: log 104 (the zero of XRND). -/
def Obligations.ExactAccumulator : Prop :=
  (∀ s : State, s.xaReady → ∃ t, exec .xclr s = .next t ∧ t.mem = s.mem ∧ t.me.xa = 0 ∧ bitN t.me.fpm 13 = false ∧ bitN t.me.fpm 14 = false ∧
    t.me.g = s.me.g ∧ t.me.v = s.me.v ∧ t.me.p = s.me.p ∧ t.me.pc = s.me.pc + s.dev.len ∧ (t.dev.core (coreOf s.dev.cur)).xaccFree = s.dev.cycle + 1) ∧
  (∀ (i : Instr) (vs : List (BitVec 5)) (p ty : BitVec 3) (s : State) (xs : List V) (pm : D), xaccOf i = some (vs, p, ty) → s.xaReady → s.vectorReady vs xs p pm →
    let term := fun k => exactTerm (xs.map fun x => laneVal ty x k)
    let live := (List.range (laneN ty)).filter fun k => pm.getLsbD k
    ∃ t, exec i s = .next t ∧ t.mem = s.mem ∧ t.me.xa = s.me.xa + BitVec.ofInt 6400 ((live.map fun k => (term k).getD 0).sum) ∧
      bitN t.me.fpm 14 = (bitN s.me.fpm 14 || live.any fun k => (term k).isNone) ∧ (bitN s.me.fpm 13 = true → bitN t.me.fpm 13 = true) ∧
      fieldN t.me.fpm 12 9 = fieldN s.me.fpm 12 9 ∧ t.me.rnc = s.me.rnc ∧
      t.me.g = s.me.g ∧ t.me.v = s.me.v ∧ t.me.p = s.me.p ∧ t.me.pc = s.me.pc + s.dev.len ∧ (t.dev.core (coreOf s.dev.cur)).xaccFree = s.dev.cycle + 4) ∧
  (∀ (d : BitVec 5) (s : State), s.xaReady → s.start.space d →
    let free := (s.start.updCore (coreOf s.dev.cur) fun c => { c with xaccFree := s.dev.cycle + 4 })
    exec (.xsgn d) s = .next ⟨(free.writeG d (if bitN s.me.fpm 14 then 2 else if s.me.xa.toInt < 0 then BitVec.allOnes 64 else if s.me.xa = 0 then 0 else 1)).next, s.mem⟩ ∧
    ∀ r : BitVec 3, let mode := Fp.modeOf r.toNat s.me.fpm
      let y := if bitN s.me.fpm 14 then (Fp.f64.nan, Fp.NV) else Fp.f64.roundInt mode (s.me.srLane 0) false s.me.xa.toInt (-3264)
      exec (.xrnd d r) s = .next ⟨(((free.mine fun t => t.draw mode).writeG d (ofN y.1)).raise y.2).next, s.mem⟩) ∧
  (∀ s : State, s.ready → kindOf s.core = 0 → (∀ f ∈ s.me.faults, f.2.xacc = false) → s.dev.cycle < (s.dev.core (coreOf s.dev.cur)).xaccFree → ∃ t, exec .xclr s = .next t ∧ Lost s t)

/-- R111, R124, R125, R129: VLD, XFIL and VGX with an active lane send one request of all their words or lanes, and their
destination waits for the last; a VGX without one completes at once; a misaligned base, and the lowest misaligned lane, trap.
The model's own choices, no rules of the spec: log 23 and log 24 (one moment, the grain of checks). -/
def Obligations.VectorLoads : Prop :=
  (∀ (v b : BitVec 5) (m : Bool) (c : BitVec 3) (o : BitVec 10) (s : State) (gs : List D) (w : Dev), s.ready → kindOf s.core = 0 → s.start.readGs [b] = some (gs, w) → s.start.claimV v →
    let va := gs.getD 0 0 + BitVec.ofInt 64 (o.toInt * 128)
    (baseGood s va 128 → wordsReached s va 16 0 → ∃ t r, exec (.vld v b m c o) s = .next t ∧ t.mem = s.mem ∧
      t.me = { s.me.pendV v s.dev.nextId with pc := s.me.pc + s.dev.len } ∧ t.dev.reqs.get? s.dev.nextId = some r ∧ r.dst = .v v ∧ r.op = .ld false ∧ r.acq = (c != 0) ∧
      r.parts.map (fun p => (p.va, p.size, p.lane)) = (List.range 16).map fun k => (va + BitVec.ofNat 64 (8 * k), 8, k)) ∧
    (winCode va = 0 ∨ vaultLoc s.core va ≠ none → va.toNat % 128 ≠ 0 → s.canTrap → ∃ t, exec (.vld v b m c o) s = .next t ∧ Trapped s t 0x05 va 0)) ∧
  (∀ (a : BitVec 5) (s : State) (gs : List D) (w : Dev), s.xaReady → s.start.readGs [a] = some (gs, w) → baseGood s (gs.getD 0 0) 8 → wordsReached s (gs.getD 0 0) 101 0 →
    ∃ t r, exec (.xfil a) s = .next t ∧ t.mem = s.mem ∧ t.me = { s.me with pc := s.me.pc + s.dev.len } ∧ t.dev.reqs.get? s.dev.nextId = some r ∧ r.dst = .xa ∧ r.op = .ld false ∧
      r.parts.map (fun p => (p.va, p.size, p.lane)) = (List.range 101).map (fun k => (gs.getD 0 0 + BitVec.ofNat 64 (8 * k), 8, k)) ∧
      (t.dev.core (coreOf s.dev.cur)).xaccFree = s.dev.cycle + 26) ∧
  (∀ (v a x : BitVec 5) (p t : BitVec 3) (k1 : BitVec 2) (s : State) (gs : List D) (w : Dev) (y : V) (ys : List V) (pm : D), s.vectorReady (x :: if p = 0 then [] else [v]) (y :: ys) p pm →
    s.start.readGs [a] = some (gs, w) → s.start.claimV v →
    let ls := (List.range (laneN t)).filter fun i => pm.getLsbD i
    let at_ := laneVa t k1 (gs.getD 0 0) y
    ((∀ i ∈ ls, ∃ z, reach s.dev s.dev.cur (at_ i) (laneW t / 8) (laneW t / 8) 0 = .ok z) → ls ≠ [] → ∃ u r, exec (.vgx v a x p t k1) s = .next u ∧ u.mem = s.mem ∧
      u.me = { s.me.pendV v s.dev.nextId with pc := s.me.pc + s.dev.len } ∧ u.dev.reqs.get? s.dev.nextId = some r ∧ r.dst = .v v ∧ r.op = .ld false ∧ r.acq = false ∧
      r.parts.map (fun p => (p.va, p.size, p.lane)) = ls.map fun i => (at_ i, laneW t / 8, i)) ∧
    (ls = [] → ∃ u z, exec (.vgx v a x p t k1) s = .next u ∧ u.mem = s.mem ∧ u.me.vr v = .ofVal z ∧ u.me.g = s.me.g ∧ u.me.pc = s.me.pc + s.dev.len ∧
      ∀ i, i < laneN t → laneOf (laneW t) z i = laneOf (laneW t) (s.me.vr v).val i) ∧
    (∀ i ∈ ls, (∀ j ∈ ls, j < i → baseGood s (at_ j) (laneW t / 8)) → (winCode (at_ i) = 0 ∨ vaultLoc s.core (at_ i) ≠ none) → (at_ i).toNat % (laneW t / 8) ≠ 0 → s.canTrap →
      ∃ u, exec (.vgx v a x p t k1) s = .next u ∧ Trapped s u 0x05 (at_ i) (ofN i)))

/-- R124, R125, R129, R148: VST, VSX and XSPL store at issue where every word may be performed then, and take no entry; else they
take one entry, XSPL seven, with too few free losing the turn; nothing of the thread changes but the pc. Of two lanes of a VSX that
name one word the higher is stored last.
The model's own choices, no rules of the spec: log 23 to log 25 (one moment, the grain of checks, the entry). -/
def Obligations.VectorStores : Prop :=
  (∀ (v b : BitVec 5) (m : Bool) (c : BitVec 3) (o : BitVec 10) (s : State) (gs : List D) (w : Dev) (y : V), s.vectorReady [v] [y] 0 (BitVec.allOnes 64) → s.start.readGs [b] = some (gs, w) →
    let va := gs.getD 0 0 + BitVec.ofInt 64 (o.toInt * 128)
    let ps := (List.range 16).map fun k => partOf s 8 1 k (va + BitVec.ofNat 64 (8 * k)) (laneOf 64 y k)
    let js := (s.dev.core s.core).journal
    baseGood s va 128 → wordsReached s va 16 1 →
    (Memory.wf s.mem = true → atIssue s w c.toNat ps → ∃ t, exec (.vst v b m c o) s = .next t ∧ t.dev.last = .issued ∧ t.me = { s.me with pc := s.me.pc + s.dev.len } ∧
      (∀ k, k < 16 → wordAt t.mem (keyOf s va + 8 * k) 8 = laneOf 64 y k) ∧ StoredOnly s t ps) ∧
    (¬atIssue s w c.toNat ps → ∀ e, freeEntry (s.dev.core s.core) = some e → js.length < 32 →
      ∃ t j r, exec (.vst v b m c o) s = .next t ∧ t.mem = s.mem ∧ t.me = { s.me with pc := s.me.pc + s.dev.len } ∧
        (t.dev.core s.core).journal.get? e = some j ∧ j.kind = .vst ∧ j.addr = va ∧ j.data.toNat = laneOf 64 y 0 ∧ j.sc = c.toNat ∧ j.refused = none ∧
        t.dev.reqs.get? s.dev.nextId = some r ∧ r.op = .st ∧ r.parts = ps) ∧
    (¬atIssue s w c.toNat ps → 32 ≤ js.length → ∃ t, exec (.vst v b m c o) s = .next t ∧ Lost s t)) ∧
  (∀ (v a x : BitVec 5) (p t : BitVec 3) (k1 : BitVec 2) (s : State) (gs : List D) (w : Dev) (y z : V) (pm : D), s.vectorReady [x, v] [y, z] p pm → s.start.readGs [a] = some (gs, w) →
    let ls := (List.range (laneN t)).filter fun i => pm.getLsbD i
    let at_ := laneVa t k1 (gs.getD 0 0) y
    let ps := ls.map fun k => partOf s (laneW t / 8) 1 k (at_ k) (laneOf (laneW t) z k)
    let js := (s.dev.core s.core).journal
    (∀ i ∈ ls, ∃ q, reach s.dev s.dev.cur (at_ i) (laneW t / 8) (laneW t / 8) 1 = .ok q) →
    (ls = [] → exec (.vsx v a x p t k1) s = .next ⟨w.next, s.mem⟩) ∧
    (ls ≠ [] → Memory.wf s.mem = true → atIssue s w 0 ps → ∃ u, exec (.vsx v a x p t k1) s = .next u ∧ u.dev.last = .issued ∧ u.me = { s.me with pc := s.me.pc + s.dev.len } ∧
      (∀ i ∈ ls, (∀ j ∈ ls, i < j → keyOf s (at_ j) ≠ keyOf s (at_ i)) → wordAt u.mem (keyOf s (at_ i)) (laneW t / 8) = laneOf (laneW t) z i) ∧ StoredOnly s u ps) ∧
    (¬atIssue s w 0 ps → ∀ i e, ls.head? = some i → freeEntry (s.dev.core s.core) = some e → js.length < 32 →
      ∃ u j r, exec (.vsx v a x p t k1) s = .next u ∧ u.mem = s.mem ∧ u.me = { s.me with pc := s.me.pc + s.dev.len } ∧
        (u.dev.core s.core).journal.get? e = some j ∧ j.kind = .vst ∧ j.addr = at_ i ∧ j.sc = 0 ∧ u.dev.reqs.get? s.dev.nextId = some r ∧ r.op = .st ∧ r.parts = ps) ∧
    (¬atIssue s w 0 ps → ls ≠ [] → 32 ≤ js.length → ∃ u, exec (.vsx v a x p t k1) s = .next u ∧ Lost s u)) ∧
  (∀ (a : BitVec 5) (s : State) (gs : List D) (w : Dev), s.xaReady → s.start.readGs [a] = some (gs, w) → baseGood s (gs.getD 0 0) 8 → wordsReached s (gs.getD 0 0) 101 1 →
    let va := gs.getD 0 0
    let ps := (List.range 101).map fun k => partOf s 8 1 k (va + BitVec.ofNat 64 (8 * k)) (xaImage s.me k)
    let js := (s.dev.core s.core).journal
    (Memory.wf s.mem = true → atIssue s w 0 ps → ∃ t, exec (.xspl a) s = .next t ∧ t.dev.last = .issued ∧ t.me = { s.me with pc := s.me.pc + s.dev.len } ∧
      (∀ k, k < 101 → wordAt t.mem (keyOf s va + 8 * k) 8 = xaImage s.me k) ∧ StoredOnly s t ps ∧ (t.dev.core (coreOf s.dev.cur)).xaccFree = s.dev.cycle + 26) ∧
    (¬atIssue s w 0 ps → js.length ≤ 25 → ∃ t, exec (.xspl a) s = .next t ∧ t.mem = s.mem ∧ t.me = { s.me with pc := s.me.pc + s.dev.len } ∧
      (t.dev.core (coreOf s.dev.cur)).xaccFree = s.dev.cycle + 26 ∧
      (js = [] → ∀ k, k < 7 → ∃ j, (t.dev.core s.core).journal.get? k = some j ∧ j.kind = .vst ∧ j.addr = va + BitVec.ofNat 64 (128 * k) ∧
        ∃ r, t.dev.reqs.get? (s.dev.nextId + k) = some r ∧ r.op = .st ∧ r.parts = (ps.drop (16 * k)).take 16)) ∧
    (¬atIssue s w 0 ps → 25 < js.length → ∃ t, exec (.xspl a) s = .next t ∧ Lost s t))

/-! # Pairs, barriers, semaphores, messages -/

namespace Sys2Proof.Machine

/-- As `Later`, for an arrival numbered `id`. -/
def LaterAs (s t : State) (id : Nat) (d : BitVec 5) (x : D) (lo hi : Nat) : Prop :=
  t.dev.last = .issued ∧ t.mem = s.mem ∧ t.me = { s.me.pendG d id with pc := s.me.pc + s.dev.len } ∧
  t.dev.arrs.get? id = some ⟨s.dev.cur, [(.g d, x.setWidth 6400)], 0, false, none, [], false⟩ ∧
  ∃ k, lo ≤ k ∧ k ≤ hi ∧ (⟨s.dev.cycle + k, .producerValueArrival, [id]⟩ : Event) ∈ t.dev.events
/-- A trap of another thread than the one whose turn it is (R301), which is not in a handler and has an aligned vector. -/
def TrapAt (s t : State) (l code : Nat) (val aux : D) : Prop :=
  let u := s.dev.thread l
  u.lvl = false → fieldN u.tvec 1 0 = 0 → u.mig = none →
    let w := t.dev.thread l
    w.tcause = mkTcause code 0 u.priv true ∧ w.tpc = u.pc ∧ w.tval = val ∧ w.taux = aux ∧ w.pc = u.tvec ∧ w.priv = true ∧ w.st = u.running ∧ w.limit = none
/-- What a parked slot that leaves its wait becomes: on a frozen core it stays PARKED (R156). -/
def wakesAs (s : State) (l : Nat) : SlotState := if (s.dev.core (coreOf l)).frozen then .parked else (s.dev.thread l).running
/-- The wait of a parked thread has ended: it runs on after the instruction. -/
def WaitOver (s t : State) (l : Nat) : Prop :=
  (t.dev.thread l).st = wakesAs s l ∧ (t.dev.thread l).pc = (s.dev.thread l).pc + 4
/-- Register queue `q` of the current thread's core. -/
def Dev.queue (d : Dev) (q : Nat) : List D := (d.core (coreOf d.cur)).queues.toArray.getD q []
/-- R173: the status the core gives by itself: 1 where the level has no such barrier here, 6 for an index above 3 of a row. -/
def barStatus (s : State) (level idx : Nat) : Option Nat :=
  if (level = 0 ∧ kindOf (coreOf s.dev.cur) ≠ 0) ∨ (2 ≤ level ∧ costarted s.dev s.dev.cur = false) then some 1
  else if level = 0 ∧ 3 < idx then some 6 else none

end Sys2Proof.Machine

/-- R21, R49, R111: a UNI pair is one instruction of eight bytes. In a row without gangs, and at a gang's leader, it is the second
word; at a follower the destination is EMPTY and waits for the leader's value, which is on its way, or is sent on once the leader
has it. A word UNI may not prefix traps ILLEGAL_OPCODE with that word, and a fetch of it outside the global addresses traps
APERTURE.
The model's own choices, no rules of the spec: log 56. -/
def Obligations.UniPair : Prop :=
  ∀ s : State, s.ready → s.dev.inUni = false →
    (∀ (w : Word) (i : Instr) (d : BitVec 5) (rs : List (BitVec 5)) (f : D → D → D → D) (xs : List D) (v : Dev), isFollower s.dev s.dev.cur = false →
      fetch s.dev s.dev.cur (s.me.pc + 4) = .word w → decode w = .ok i → shortInt i = some (d, rs, f) → s.start.readGs rs = some (xs, v) → s.start.claim d →
      exec .uni s = .next ⟨(v.writeG d (f (xs.getD 0 0) (xs.getD 1 0) (xs.getD 2 0))).mine fun u => { u with pc := s.me.pc + 8 }, s.mem⟩) ∧
    (∀ (w : Word) (i : Instr) (d : BitVec 5) (rs : List (BitVec 5)) (f : D → D → D → D), isFollower s.dev s.dev.cur = true →
      fetch s.dev s.dev.cur (s.me.pc + 4) = .word w → decode w = .ok i → shortInt i = some (d, rs, f) → (s.me.gr d).st ≠ .absent →
      ((s.dev.quads.get? (leaderOf s.dev.cur)).map fun q => q.trapped.contains (leaderOf s.dev.cur)) ≠ some true →
      let x := (s.dev.thread (leaderOf s.dev.cur)).gr d
      (d = 0 → exec .uni s = .next ⟨s.start.mine fun u => { u with pc := s.me.pc + 8 }, s.mem⟩) ∧
      (d ≠ 0 → x.prod = .none → ∃ t n, 1 ≤ n ∧ n ≤ 16 ∧ exec .uni s = .next t ∧ t.mem = s.mem ∧ t.dev.last = .issued ∧
        t.me = { s.me.pendG d s.dev.nextId with pc := s.me.pc + 8 } ∧ t.dev.arrs.get? s.dev.nextId = some ⟨s.dev.cur, [(.g d, x.val.setWidth 6400)], 0, false, none, [], false⟩ ∧
        t.dev.events = s.dev.events ++ [⟨s.dev.cycle + n, .uniPostArrival, [s.dev.nextId]⟩]) ∧
      (∀ q a, d ≠ 0 → x.prod = .pend q → q ≠ s.dev.nextId → s.dev.arrs.get? q = some a → ∃ t, exec .uni s = .next t ∧ t.mem = s.mem ∧ t.dev.last = .issued ∧
        t.me = { s.me.pendG d s.dev.nextId with pc := s.me.pc + 8 } ∧ t.dev.arrs.get? q = some { a with posts := a.posts ++ [(s.dev.cur, s.dev.nextId)] })) ∧
    (∀ (w : Word) (a b : BitVec 5) (m n : Bool) (o : BitVec 15) (c : BitVec 3) (k : BitVec 10), isFollower s.dev s.dev.cur = false →
      fetch s.dev s.dev.cur (s.me.pc + 4) = .word w → s.canTrap →
      (∃ i ∈ [Instr.nop, .uni, .brk, .ckpt, .eret, .uiret, .psd, .sysc k, .beq a b m o, .jalr a b m o, .st a b m 3 c k, .ldt a b m c k, .amoAdd a b a m n false c true,
        .migr a m, .breg a b m, .send a b a m n, .nslf a], decode w = .ok i) → ∃ t, exec .uni s = .next t ∧ Trapped s t 0x01 (w.setWidth 64) 0) ∧
    (isFollower s.dev s.dev.cur = false → winCode (s.me.pc + 4) ≠ 0 → s.canTrap → ∃ t, exec .uni s = .next t ∧ Trapped s t 0x06 (s.me.pc + 4) 0)

/-- R168, R171 to R173: registration, arrival and waiting at barriers, their statuses, the completion of a phase when every
participant has arrived, and its release, which ends the waits at each core. None in a migrated thread. The arrival of a thread that
has left after its BARV still counts, once what its BARV releases is performed.
The model's own choices, no rules of the spec: log 29 and log 50. -/
def Obligations.Barriers : Prop :=
  (∀ (s : State) (d a : BitVec 5) (m : Bool) (xs : List D) (v : Dev), s.ready → s.start.readGs [a] = some (xs, v) → s.start.claim d →
    let level := fieldN (xs.getD 0 0) 7 6
    let idx := fieldN (xs.getD 0 0) 5 0
    let k := barKey s.dev.cur level idx
    let b := s.dev.bar k
    let rt := releaseTime level
    (s.me.mig.isSome = true → s.canTrap → ∀ i ∈ [Instr.breg d a m, .bdrg d a m, .barv d a m], ∃ t, exec i s = .next t ∧ Trapped s t 0x01 ((encode i).setWidth 64) 2) ∧
    (s.me.mig = none → (∀ st, barStatus s level idx = some st → ∀ i ∈ [Instr.breg d a m, .bdrg d a m, .barv d a m],
        ∃ t, exec i s = .next t ∧ Later s t d (ofN st) 1 16 ∧ t.dev.bars = s.dev.bars) ∧
      (barStatus s level idx = none →
        (b.regs ≠ [] → b.launch ≠ s.me.launch → ∃ t, exec (.breg d a m) s = .next t ∧ Later s t d 3 rt rt ∧ t.dev.bars = s.dev.bars) ∧
        (b.regs = [] ∨ b.launch = s.me.launch →
          (s.dev.cur ∈ b.regs → ∃ t, exec (.breg d a m) s = .next t ∧ Later s t d 0 rt rt ∧ t.dev.bars = s.dev.bars) ∧
          (s.dev.cur ∉ b.regs → b.arrived ≠ [] ∨ b.owing ≠ [] → ∃ t, exec (.breg d a m) s = .next t ∧ Lost s t) ∧
          (s.dev.cur ∉ b.regs → b.arrived = [] → b.owing = [] → ∃ t, exec (.breg d a m) s = .next t ∧ Later s t d 0 rt rt ∧
            t.dev.bar k = { b with launch := s.me.launch, regs := b.regs ++ [s.dev.cur] })) ∧
        (s.dev.cur ∉ b.regs → ∀ i ∈ [Instr.bdrg d a m, .barv d a m], ∃ t, exec i s = .next t ∧ Later s t d 2 1 16 ∧ t.dev.bars = s.dev.bars) ∧
        (s.dev.cur ∈ b.regs → ∃ t, exec (.bdrg d a m) s = .next t ∧ Later s t d 0 rt rt ∧ (t.dev.bar k).regs = b.regs.erase s.dev.cur ∧
          (b.regs.erase s.dev.cur = [] → (t.dev.bar k).launch = none ∧ (t.dev.bar k).phase = b.phase + 1) ∧
          (∀ n id, b.regs.erase s.dev.cur ≠ [] → s.dev.cur ∈ b.arrived → s.dev.cur ∉ b.ready → (⟨n, .barrierUnitArrival, [k, s.dev.cur, id]⟩ : Event) ∈ s.dev.events →
            (∀ x ∈ b.owing, x.1 ≠ id) → (id, s.dev.cur) ∈ (t.dev.bar k).owing)) ∧
        (s.dev.cur ∈ b.regs → s.dev.cur ∈ b.arrived → ∃ t, exec (.barv d a m) s = .next t ∧ Later s t d 5 1 16 ∧ t.dev.bars = s.dev.bars) ∧
        (s.dev.cur ∈ b.regs → s.dev.cur ∉ b.arrived → ∃ t, exec (.barv d a m) s = .next t ∧ LaterAs s t (s.dev.nextId + 1) d 0 1 16 ∧
          t.dev.bar k = { b with arrived := b.arrived ++ [s.dev.cur], latest := b.latest.set s.dev.cur b.phase } ∧
          (⟨s.dev.cycle + 1, .barrierUnitArrival, [k, s.dev.cur, s.dev.nextId]⟩ : Event) ∈ t.dev.events)))) ∧
  (∀ (s : State) (d a c : BitVec 5) (m n : Bool) (xs : List D) (v : Dev), s.ready → s.start.readGs [a, c] = some (xs, v) → s.start.claim d → s.me.mig = none →
    let level := fieldN (xs.getD 0 0) 7 6
    let idx := fieldN (xs.getD 0 0) 5 0
    let k := barKey s.dev.cur level idx
    let b := s.dev.bar k
    (∀ st, barStatus s level idx = some st → ∃ t, exec (.barw d a c m n) s = .next t ∧ Later s t d (ofN st) 1 16) ∧
    (barStatus s level idx = none →
      (s.dev.cur ∉ b.regs → ∃ t, exec (.barw d a c m n) s = .next t ∧ Later s t d 2 1 16) ∧
      (s.dev.cur ∈ b.regs → b.latest.get? s.dev.cur = none → ∃ t, exec (.barw d a c m n) s = .next t ∧ Later s t d 4 1 16) ∧
      (∀ ph, s.dev.cur ∈ b.regs → b.latest.get? s.dev.cur = some ph →
        (ph < b.released.getD (coreOf s.dev.cur) 0 → ∃ t, exec (.barw d a c m n) s = .next t ∧ Later s t d 0 1 16) ∧
        (b.released.getD (coreOf s.dev.cur) 0 ≤ ph → ∃ t, exec (.barw d a c m n) s = .next t ∧ Parked s t (.barrier k) (xs.getD 1 0).toNat [d] .waitExpired)))) ∧
  (∀ (s : State) (k loc id : Nat), s.dev.args = [k, loc, id] →
    let b := s.dev.bar k
    let left := b.owing.any fun x => x.1 = id
    let ready := if left then b.ready else b.ready ++ [loc]
    let owing := b.owing.filter fun x => x.1 != id
    loc ∈ b.arrived ∨ left = true →
    (unreleased s.dev id loc (barScope (k / 2 ^ 20)) true = true → ∃ t, exec .barrierUnitArrival s = .next t ∧ t.mem = s.mem ∧ t.dev.bars = s.dev.bars ∧
      t.dev.events = s.dev.events ++ [⟨s.dev.cycle + 4, .barrierUnitArrival, [k, loc, id]⟩]) ∧
    (unreleased s.dev id loc (barScope (k / 2 ^ 20)) true = false → ∃ t, exec .barrierUnitArrival s = .next t ∧ t.mem = s.mem ∧
      (b.regs ≠ [] → (∀ l ∈ b.regs, l ∈ ready) → owing = [] → (t.dev.bar k).phase = b.phase + 1 ∧ (t.dev.bar k).arrived = [] ∧
        ∀ l ∈ b.regs, ∃ n, 1 ≤ n ∧ n ≤ releaseTime (k / 2 ^ 20) ∧ (⟨s.dev.cycle + n, .barrierRelease, [k, coreOf l, b.phase + 1]⟩ : Event) ∈ t.dev.events) ∧
      ((∃ l ∈ b.regs, l ∉ ready) ∨ owing ≠ [] → (t.dev.bar k).phase = b.phase ∧ (t.dev.bar k).arrived = b.arrived ∧ (t.dev.bar k).ready = ready ∧ (t.dev.bar k).owing = owing))) ∧
  (∀ (s : State) (k ca ph : Nat), s.dev.args = [k, ca, ph] →
    let b := s.dev.bar k
    ∃ t, exec .barrierRelease s = .next t ∧ t.mem = s.mem ∧ (t.dev.bar k).released.getD ca 0 = max ph (b.released.getD ca 0) ∧ (t.dev.bar k).phase = b.phase ∧
      ∀ l p, b.latest.get? l = some p → coreOf l = ca → p < ph → (s.dev.thread l).st = .parked → (s.dev.thread l).wait = .barrier k → (s.dev.thread l).mig = none →
        WaitOver s t l ∧ (∀ y o, (s.dev.thread l).held = [(y, o)] → y ≠ 0 → ((s.dev.thread l).gr y).prod = .pend (s.dev.thread l).waitId → (t.dev.thread l).gr y = .ofVal 0))

/-- R171, R174, R180, R181: SEMP adds units and serves the first waiter, SEMW takes one or waits; QCFG turns queue mode on and off
and reads it; QWT waits for an entry of a queue; a wait whose limit passes traps, on a frozen core once it is unfrozen (R156).
The model's own choices, no rules of the spec: log 29, log 49 and log 50. -/
def Obligations.SemaphoresAndQueues : Prop :=
  (∀ (s : State) (d a b : BitVec 5) (m n : Bool) (xs : List D) (v : Dev), s.ready → s.me.mig = none → s.start.readGs [a, b] = some (xs, v) → s.start.claim d →
    let tile := unitOf (coreOf s.dev.cur)
    let i := fieldN (xs.getD 0 0) 4 0
    let count := fun (t : State) => (t.dev.tile tile).sems.toArray.getD i 0
    let sum := count s + fieldN (xs.getD 1 0) 31 0
    (unreleased s.dev s.dev.nextId s.dev.cur 2 true = true → ∃ t, exec (.semp d a b m n) s = .next t ∧ Lost s t) ∧
    (unreleased s.dev s.dev.nextId s.dev.cur 2 true = false →
      ((∀ w ∈ (s.dev.tile tile).semWait, w.sem ≠ i) → ∃ t, exec (.semp d a b m n) s = .next t ∧ Later s t d (if 2 ^ 32 ≤ sum then 1 else 0) 14 14 ∧ count t = min sum (2 ^ 32 - 1)) ∧
      (∀ l y o rc, (s.dev.tile tile).semWait = [⟨i, l⟩] → l ≠ s.dev.cur → (s.dev.thread l).st = .parked → (s.dev.thread l).mig = none → 0 < sum →
        (s.dev.thread l).held = [(y, o)] → s.dev.arrs.get? (s.dev.thread l).waitId = some rc → (s.dev.thread l).waitId ≠ s.dev.nextId →
        ∃ t, exec (.semp d a b m n) s = .next t ∧ Later s t d (if 2 ^ 32 ≤ sum then 1 else 0) 14 14 ∧ count t = min sum (2 ^ 32 - 1) - 1 ∧ (t.dev.tile tile).semWait = [] ∧
          WaitOver s t l ∧ t.dev.arrs.get? (s.dev.thread l).waitId = some { rc with vals := [(.g y, (ofN (min sum (2 ^ 32 - 1) - 1)).setWidth 6400)] } ∧
          ((t.dev.thread l).gr y) = ((s.dev.thread l).gr y) ∧
          (⟨s.dev.cycle + 14, .producerValueArrival, [(s.dev.thread l).waitId]⟩ : Event) ∈ t.dev.events)) ∧
    (count s = 0 → ∃ t, exec (.semw d a b m n) s = .next t ∧ Parked s t (.semaphore i) (xs.getD 1 0).toNat [d] .waitExpired ∧
      (t.dev.tile tile).semWait = (s.dev.tile tile).semWait ++ [⟨i, s.dev.cur⟩] ∧ count t = 0) ∧
    (count s ≠ 0 → ∃ t, exec (.semw d a b m n) s = .next t ∧ Later s t d (ofN (count s - 1)) 14 14 ∧ count t = count s - 1)) ∧
  (∀ (s : State) (d a : BitVec 5) (m : Bool) (xs : List D) (v : Dev), s.ready → s.me.mig = none → s.start.readGs [a] = some (xs, v) → s.start.space d →
    exec (.qcfg d a m) s = .next ⟨((v.writeG d (if s.me.qm then 1 else 0)).mine fun t => { t with qm := bitN (xs.getD 0 0) 0 }.touch 1).next, s.mem⟩) ∧
  (∀ (s : State) (a b : BitVec 5) (m n : Bool) (xs : List D) (v : Dev), s.ready → s.me.mig = none → s.start.readGs [a, b] = some (xs, v) →
    let q := fieldN (xs.getD 0 0) 1 0
    (v.queue q ≠ [] → exec (.qwt a b m n) s = .next ⟨v.next, s.mem⟩) ∧
    (v.queue q = [] → ∃ t, exec (.qwt a b m n) s = .next t ∧ Parked s t (.queue q) (xs.getD 1 0).toNat [] .queueExpired)) ∧
  (∀ (s : State) (l due : Nat), s.dev.args = [l, due] →
    let u := s.dev.thread l
    (u.st ≠ .parked ∨ u.limit ≠ some due → ∀ i ∈ [Instr.queueExpired, .waitExpired], ∃ t, exec i s = .next t ∧ t.dev.threads = s.dev.threads ∧ t.mem = s.mem) ∧
    (u.st = .parked → u.limit = some due → u.stopped = none → batchOver s.dev l = false → (s.dev.core (coreOf l)).frozen = true →
      ∀ i ∈ [Instr.queueExpired, .waitExpired], ∃ t, exec i s = .next t ∧ t.dev.threads = s.dev.threads ∧ t.mem = s.mem ∧ t.dev.events = s.dev.events ++ [⟨s.dev.cycle + 16, i, [l, due]⟩]) ∧
    (u.st = .parked → u.limit = some due → u.stopped = none → (s.dev.core (coreOf l)).frozen = false →
      (∀ q, u.wait = .queue q → ∃ t, exec .queueExpired s = .next t ∧
        TrapAt s t l 0x16 (ofN q) (ofN ((s.dev.core (coreOf l)).qhead.toArray.getD q 0 + 256 * (s.dev.core (coreOf l)).qtail.toArray.getD q 0))) ∧
      (∀ i, u.wait = .semaphore i → ∃ t, exec .waitExpired s = .next t ∧ TrapAt s t l 0x15 (ofN i) 0) ∧
      (∀ n, u.wait = .launch n → ∃ t, exec .waitExpired s = .next t ∧ TrapAt s t l 0x15 (n.setWidth 64) 0) ∧
      (u.wait = .inbox → ∃ t, exec .waitExpired s = .next t ∧ TrapAt s t l 0x15 0 (insOf s.dev l))))

/-- R149, R152, R175 to R178: SEND takes an entry and sets out, to a core, a thread or a queue, or traps on another class; a
message for a core enters its inbox, or ends the RECV of a thread that waits there, whose registers are FULL before its next turn, or
goes on to the overflow area, which it reaches at the store latency of HBM (R359), and is acknowledged; one not placed within its limit is refused; an
acknowledged entry clears. RECV takes the oldest entry of its slot, or waits.
The model's own choices, no rules of the spec: log 29, log 47, log 48, log 100, log 116, log 133 and log 134. -/
def Obligations.Messages : Prop :=
  (∀ (s : State) (d a b : BitVec 5) (m n : Bool) (xs : List D) (v : Dev), s.ready → s.start.readGs [a, a + 1, b, b + 1, b + 2, b + 3, d] = some (xs, v) →
    let name : Q := xs.getD 1 0 ++ xs.getD 0 0
    let ca := s.core
    (nmClass name ≠ 0 → nmClass name ≠ 4 → nmClass name ≠ 5 → s.canTrap → ∃ t, exec (.send d a b m n) s = .next t ∧ Trapped s t 0x10 (xs.getD 0 0) (xs.getD 1 0)) ∧
    (nmClass name = 4 ∨ nmClass name = 5 → nmChip name ≠ Config.chipTag.toNat → s.canTrap → ∃ t, exec (.send d a b m n) s = .next t ∧ Trapped s t 0x20 (xs.getD 0 0) (xs.getD 1 0)) ∧
    (nmClass name = 0 ∨ ((nmClass name = 4 ∨ nmClass name = 5) ∧ nmChip name = Config.chipTag.toNat) →
      (freeEntry (s.dev.core ca) = none → ∃ t, exec (.send d a b m n) s = .next t ∧ Lost s t) ∧
      (∀ e, freeEntry (s.dev.core ca) = some e → ∃ t j k, exec (.send d a b m n) s = .next t ∧ t.mem = s.mem ∧ t.me = { s.me with pc := s.me.pc + s.dev.len } ∧
        (t.dev.core ca).journal.get? e = some j ∧ j.kind = .send ∧ j.loc = s.dev.cur ∧ j.addr = xs.getD 0 0 ∧ j.addrHi = xs.getD 1 0 ∧ j.data = xs.getD 2 0 ∧
        j.msg.take 4 = [xs.getD 2 0, xs.getD 3 0, xs.getD 4 0, xs.getD 5 0] ∧ j.pc = s.me.pc ∧ j.req = s.dev.nextId ∧ j.refused = none ∧ j.placed = false ∧
        (⟨s.dev.cycle + k, .messagePlacement, [ca, e, s.dev.nextId, k]⟩ : Event) ∈ t.dev.events ∧
        (⟨s.dev.cycle + 16 * max (xs.getD 6 0).toNat 1, .inboxFull, [ca, e, s.dev.nextId]⟩ : Event) ∈ t.dev.events))) ∧
  (∀ (s : State) (ca ent id back : Nat) (e : JEntry), s.dev.args = [ca, ent, id, back] → (s.dev.core ca).journal.get? ent = some e → e.req = id → e.placed = false → e.refused = none →
    e.kind = .send → e.orig = none → e.addrHi.toNat / 2 ^ 58 = 0 → unreleased s.dev id e.loc (if e.again then 5 else e.sc) (!e.again) = false →
    let c := e.addr.toNat % 2 ^ 15
    let x : Msg := ⟨e.msg.take 4, 0, 0, e.loc, none⟩
    let u := s.dev.thread (16 * c)
    let full := ((s.dev.core c).overflow ≠ [] ∨ (s.dev.core c).spill ≠ [] ∨ 32 ≤ (s.dev.core c).inbox.length)
    let waits := u.st = .parked ∧ u.wait = .inbox ∧ u.stopped = none ∧ u.mig = none ∧ ∀ y ∈ (s.dev.core c).inbox, y.slot ≠ 0
    (¬full → u.awaits .inbox = false → ∃ t, exec .messagePlacement s = .next t ∧ t.mem = s.mem ∧ (t.dev.core c).inbox = (s.dev.core c).inbox ++ [x] ∧
      (t.dev.core ca).journal.get? ent = some { e with placed := true } ∧ (⟨s.dev.cycle + back, .journalAck, [ca, ent]⟩ : Event) ∈ t.dev.events) ∧
    (∀ a, ¬full → waits → 16 * c ∉ s.dev.todo → s.dev.arrs.get? u.waitId = some a →
      ∃ t k, 1 ≤ k ∧ k ≤ 16 ∧ k ≤ beforeTurn s.dev (16 * c) ∧ exec .messagePlacement s = .next t ∧ t.mem = s.mem ∧ WaitOver s t (16 * c) ∧ (t.dev.core c).inbox = (s.dev.core c).inbox ∧
        t.dev.arrs.get? u.waitId = some { a with vals := (u.held.zip x.data).map fun p => (.g p.1.1, p.2.setWidth 6400) } ∧
        (⟨s.dev.cycle + k, .producerValueArrival, [u.waitId]⟩ : Event) ∈ t.dev.events ∧ (t.dev.core ca).journal.get? ent = some { e with placed := true }) ∧
    (¬full → waits → 16 * c ∈ s.dev.todo → (u.held.map Prod.fst).Nodup →
      ∃ t, exec .messagePlacement s = .next t ∧ t.mem = s.mem ∧ WaitOver s t (16 * c) ∧ (t.dev.core c).inbox = (s.dev.core c).inbox ∧
        (t.dev.core ca).journal.get? ent = some { e with placed := true } ∧
        ∀ (j : Nat) (y : BitVec 5) (o : Reg 64) (z : D), u.held[j]? = some (y, o) → x.data[j]? = some z → y ≠ 0 → (u.gr y).prod = .pend u.waitId → (t.dev.thread (16 * c)).gr y = .ofVal z) ∧
    (full → ∃ t l, (if dieOf ca = dieOf c then 180 ≤ l ∧ l ≤ 260 else 260 ≤ l ∧ l ≤ 380) ∧ exec .messagePlacement s = .next t ∧ t.mem = s.mem ∧
      (t.dev.core c).spill = (s.dev.core c).spill ++ [(ca, ent, id)] ∧ (t.dev.core c).overflow = (s.dev.core c).overflow ∧ (t.dev.core c).inbox = (s.dev.core c).inbox ∧
      (t.dev.core ca).journal.get? ent = some e ∧
      let n := l + (e.msg.getD 6 0).toNat
      t.dev.events = s.dev.events ++ [⟨s.dev.cycle + (n - back), .messagePlacement, [ca, ent, id, max back n, 1 + c]⟩]) ∧
    (∃ t, exec .inboxFull s = .next t ∧ t.mem = s.mem ∧ (t.dev.core ca).journal.get? ent = some { e with refused := some 0x17, taken := false })) ∧
  (∀ (s : State) (ca ent id back c : Nat) (e : JEntry), s.dev.args = [ca, ent, id, back, 1 + c] → (s.dev.core ca).journal.get? ent = some e → e.req = id → e.placed = false →
    e.refused = none → e.kind = .send → e.addrHi.toNat / 2 ^ 58 = 0 → e.addr.toNat % 2 ^ 15 = c → (s.dev.core c).spill.head? = some (ca, ent, id) → (s.dev.core c).overflow.length < 1024 →
    ∃ t, exec .messagePlacement s = .next t ∧ t.mem = s.mem ∧ (t.dev.core c).overflow = (s.dev.core c).overflow ++ [⟨e.msg.take 4, 0, 0, e.loc, none⟩] ∧
      (t.dev.core c).inbox = (s.dev.core c).inbox ∧ (t.dev.core c).spill = (s.dev.core c).spill.erase (ca, ent, id) ∧
      (t.dev.core ca).journal.get? ent = some { e with placed := true } ∧ (⟨s.dev.cycle + back, .journalAck, [ca, ent]⟩ : Event) ∈ t.dev.events) ∧
  (∀ (s : State) (ca ent r : Nat) (e : JEntry), s.dev.args = [ca, ent, r] → (s.dev.core ca).journal.get? ent = some e →
    (∃ t, exec .journalAck s = .next t ∧ t.mem = s.mem ∧ (t.dev.core ca).journal = (s.dev.core ca).journal.erase ent ∧ t.dev.reqs = s.dev.reqs.erase e.req ∧ t.dev.threads = s.dev.threads) ∧
    (∀ q o, e.orig = some o → o.query = some q → ∃ t, exec .journalRefusal s = .next t ∧ t.mem = s.mem ∧ (t.dev.core ca).journal = (s.dev.core ca).journal.erase ent) ∧
    (e.orig.bind Req.query = none → ∃ t, exec .journalRefusal s = .next t ∧ t.mem = s.mem ∧ (t.dev.core ca).journal.get? ent = some { e with refused := some r, taken := false } ∧
      t.dev.reqs = s.dev.reqs.erase e.req ∧ ((s.dev.thread e.loc).st = .parked → (s.dev.thread e.loc).mig = none → (t.dev.thread e.loc).st = wakesAs s e.loc ∧
        (t.dev.thread e.loc).pc = (s.dev.thread e.loc).pc))) ∧
  (∀ (s : State) (d b : BitVec 5) (m n : Bool) (xs : List D) (v : Dev), s.ready → s.start.readGs [b] = some (xs, v) → (∀ k, k < 4 → s.start.claim (d + BitVec.ofNat 5 k)) →
    let own := (s.dev.core (coreOf s.dev.cur)).inbox.filter fun x => x.slot = slotOf s.dev.cur
    (own = [] → ∃ t, exec (.recv d 0 b m n) s = .next t ∧ Parked s t .inbox (xs.getD 0 0).toNat [d, d + 1, d + 2, d + 3] .waitExpired) ∧
    (∀ x, own.head? = some x → ∃ t k, exec (.recv d 0 b m n) s = .next t ∧ t.mem = s.mem ∧ 1 ≤ k ∧ k ≤ 16 ∧ t.me.pc = s.me.pc + s.dev.len ∧ t.me.lsnd = x.sender ∧ t.me.lkind = x.kind ∧
      (t.dev.core (coreOf s.dev.cur)).inbox = (s.dev.core (coreOf s.dev.cur)).inbox.erase x ∧
      t.dev.arrs.get? s.dev.nextId = some ⟨s.dev.cur, (List.range 4).map fun j => (.g (d + BitVec.ofNat 5 j), (x.data.getD j 0).setWidth 6400), 0, false, none, [], false⟩ ∧
      (⟨s.dev.cycle + k, .producerValueArrival, [s.dev.nextId]⟩ : Event) ∈ t.dev.events ∧
      (∀ j, j < 4 → d + BitVec.ofNat 5 j ≠ 0 → (t.me.gr (d + BitVec.ofNat 5 j)).st = .empty ∧ (t.me.gr (d + BitVec.ofNat 5 j)).prod = .pend s.dev.nextId))) ∧
  (∀ (s : State) (d a b : BitVec 5) (m n : Bool) (xs : List D) (v : Dev), s.ready → a ≠ 0 → s.start.readGs [a, a + 1, b] = some (xs, v) →
    (∀ k, k < 4 → s.start.claim (d + BitVec.ofNat 5 k)) →
    let name : Q := xs.getD 1 0 ++ xs.getD 0 0
    (nmClass name = 0 ∨ 6 < nmClass name → s.canTrap → ∃ t, exec (.recv d a b m n) s = .next t ∧ Trapped s t 0x10 (xs.getD 0 0) (xs.getD 1 0)) ∧
    (¬(nmClass name = 0 ∨ 6 < nmClass name) → ∃ t k, exec (.recv d a b m n) s = .next t ∧ ParkedAs s t (s.dev.nextId + 1) (.namedQueue s.dev.nextId name) (xs.getD 2 0).toNat [d, d + 1, d + 2, d + 3] .waitExpired ∧
      (⟨s.dev.cycle + k, .queueDequeue, [s.dev.cur, s.dev.nextId]⟩ : Event) ∈ t.dev.events))

/-! # Names -/

namespace Sys2Proof.Machine

/-- A query is on its way to the name unit: its destinations are EMPTY behind it. -/
def Queried (s t : State) (kind : NKind) (dsts : List (BitVec 5)) (name : Q) (sel : Nat) : Prop :=
  t.dev.last = .issued ∧ t.mem = s.mem ∧ t.me = { dsts.foldl (fun u r => u.pendG r s.dev.nextId) s.me with pc := s.me.pc + s.dev.len } ∧
  t.dev.arrs.get? s.dev.nextId = some ⟨s.dev.cur, dsts.map fun r => (.g r, 0), 0, false, none, [], false⟩ ∧
  (∃ q, t.dev.nameQ.get? s.dev.nextId = some q ∧ q.kind = kind ∧ q.name = name ∧ q.sel = sel ∧ q.loc = s.dev.cur ∧ q.pc = s.me.pc ∧ q.user = !s.me.priv) ∧
  ∃ n k, (⟨n, .nameTableOperation, [s.dev.nextId, k]⟩ : Event) ∈ t.dev.events
/-- The destinations of arrival `id` receive values `dt` cycles later. -/
def Replied (s t : State) (id dt : Nat) (loc : Nat) (vals : List (BitVec 5 × D)) : Prop :=
  t.dev.arrs.get? id = some ⟨loc, vals.map fun v => (.g v.1, v.2.setWidth 6400), 0, false, none, [], false⟩ ∧
  (⟨s.dev.cycle + dt, .producerValueArrival, [id]⟩ : Event) ∈ t.dev.events
/-- The arrival brings a fault (R150). -/
def Failed (s t : State) (id dt : Nat) (f : DFault) : Prop :=
  (t.dev.arrs.get? id).map (·.fault) = some (some f) ∧ (⟨s.dev.cycle + dt, .loadFaultArrival, [id]⟩ : Event) ∈ t.dev.events
/-- A query of the name unit whose answer goes to the registers `ds`, about to be performed. -/
structure AtTable (s : State) (id back : Nat) (q : NQuery) (ds : List (BitVec 5)) : Prop where
  args : s.dev.args = [id, back]
  query : s.dev.nameQ.get? id = some q
  arr : s.dev.arrs.get? id = some ⟨q.loc, ds.map fun r => (.g r, 0), 0, false, none, [], false⟩
  clean : s.Inv
  /-- R155, R342: no entry of the name has to be waited for, and no code word has a soft error to correct -/
  free : tableHeld s.dev (dieOf ((s.dev.owner q.loc id).at q.loc)) q.name = false
  sound : ∀ k, Mem.read s.mem (errKey k) ≠ 1
  /-- R206: the thread has no older acquire under way -/
  after : q.kind.reads = true → acquiring s.dev q.loc id = false
  /-- R197: the time is not that of a name cache's hit, or the cache still holds the name -/
  time : back = 16 → ∃ tl, cacheTile ((s.dev.owner q.loc id).at q.loc) = some tl ∧ ncFind s.dev tl q.name ≠ none
/-- The die whose table a query uses. -/
def NQuery.die (q : NQuery) (s : State) (id : Nat) : Nat := dieOf ((s.dev.owner q.loc id).at q.loc)
/-- R204: the load of an NCAS block. -/
def NQuery.load (q : NQuery) (s : State) (id : Nat) : Req :=
  { newReq { s.dev with cur := q.loc } (.ld false) 0 q.parts .none with core := (s.dev.owner q.loc id).at q.loc, user := q.user, regions := q.regions }
/-- R148, R204: the word of a part lies in the own tile's vault, and nothing stands in the way of a store there. -/
structure BackNow (s : State) (id : Nat) (q : NQuery) (p : Part) (key : Nat) : Prop where
  size : p.size = 8
  window : p.place = none
  place : ∃ tile off, vaultLoc ((s.dev.owner q.loc id).at q.loc) p.va = some (tile, off) ∧ key = vaultKey tile off ∧ off % 8 = 0 ∧ tile = unitOf ((s.dev.owner q.loc id).at q.loc) ∧
    regionAttr (tileAt q.regions s.dev tile) off ≠ 2 ∧ grants ((s.dev.tile tile).access.getD (masterOf ((s.dev.owner q.loc id).at q.loc)) 0) 0 true = true ∧
    (s.dev.tile tile).holds = []
  good : Mem.read s.mem (errKey key) = 0
/-- The thread has nothing else in memory under way, and no core a word held for it. -/
structure OnlyQuery (s : State) (id loc : Nat) : Prop where
  reqs : ∀ r ∈ s.dev.reqs, r.2.loc ≠ loc
  names : ∀ r ∈ s.dev.nameQ, r.2.loc = loc → r.1 = id
  grams : ∀ r ∈ s.dev.gramQ, r.2.loc ≠ loc
  read : ∀ f ∈ s.dev.fwd, f.1 ≠ loc
  holds : s.dev.resvHold = []
  journal : ∀ e ∈ slotEntries s.dev loc, ∀ r, e.2.orig = some r → r.query ≠ some id
/-- Word `i` of a table entry. -/
def entryWord (s : State) (k i : Nat) : D := rd64 s.mem s.dev (k + 8 * i)
/-- R203: the status of a NKIL, NCAS or NSHD that changes nothing; `own` where only an owner may. -/
def nameStatus (s : State) (id : Nat) (q : NQuery) (own : Bool) : Option Nat :=
  match (lookup s.mem s.dev (q.die s id) q.name).2 with
  | none => some (if nmSeq q.name < s.dev.mint.next then 2 else 4)
  | some k =>
    if fieldN (entryWord s k 2) 63 62 ≠ 1 then some 2
    else if own = true ∧ q.user = true ∧ entryOwner s.mem s.dev k ≠ ownerOf q.launch then some 5
    else if own = true ∧ (nmClass q.name = 4 ∨ nmClass q.name = 6) then some 6 else none
/-- R202: the acknowledgement of `tile` is the last that the shoot-down waits for; its name's entry still stands, in memory that is
not held, and no other shoot-down is about the name. -/
structure Finishing (s : State) (sid tile : Nat) (x : Shoot) : Prop where
  held : physHeld s.dev x.key = false
  last : x.left.erase tile = []
  pages : x.tlb = 0
  here : x.here s.mem s.dev = true
  alone : ∀ y ∈ s.dev.shoots, y.1 ≠ sid → y.2.name ≠ x.name
  once : s.dev.shoots.keys.Nodup
/-- R202: the NAMEOP message of a shoot-down. -/
def nameOp (x : Shoot) : Msg := ⟨[x.name.setWidth 64, (x.name >>> 64).setWidth 64, ofN x.code, ofN (x.count + 1)], 4, slotOf x.loc, x.loc, some x.thread⟩
/-- The issuing thread lives, waits for no message, and its inbox has room. -/
structure Told (s : State) (x : Shoot) : Prop where
  live : (s.dev.thread x.loc).st ≠ .vacant
  name : (s.dev.thread x.loc).name = x.thread
  only : ∀ y ∈ s.dev.threads, y.2.live = true → y.2.name = x.thread → y.1 = x.loc
  quiet : (s.dev.thread x.loc).awaits .inbox = false
  room : outFull s.dev (nameOp x) = false ∧ (s.dev.core (coreOf x.loc)).held = [] ∧ (s.dev.core (coreOf x.loc)).overflow = [] ∧ (s.dev.core (coreOf x.loc)).spill = [] ∧
    (s.dev.core (coreOf x.loc)).inbox.length < 32
/-- The message has reached the issuer's inbox. -/
def NameOp (s t : State) (x : Shoot) : Prop := (t.dev.core (coreOf x.loc)).inbox = (s.dev.core (coreOf x.loc)).inbox ++ [nameOp x]
/-- A shoot-down of a name has begun (R202). -/
def Shooting (s t : State) (name : Q) (key loc code : Nat) (kill : Bool) : Prop :=
  ∃ x, t.dev.shoots.get? s.dev.nextId = some x ∧ x.name = name ∧ x.key = key ∧ x.loc = loc ∧ x.code = code ∧ x.kill = kill ∧ x.count = 0

end Sys2Proof.Machine

/-- R150, R195 to R203: NRES, NRST, NQRY, NKIL and NSHD send their query; a reserved class traps, and so does a foreign name where
the instruction says so; NCAS checks and translates its block at issue, for its reads and then for its write-back (R240, R358); NSLF writes the thread's name; NNEW asks the mint, or
answers BADREQ, as a status or as ALLOC_EXHAUSTED.
The model's own choices, no rules of the spec: log 52, log 55 and log 115. -/
def Obligations.NameQueries : Prop :=
  (∀ (s : State) (d a k1 : BitVec 5) (m : Bool) (xs : List D) (v : Dev), s.ready → s.start.readGs [a, a + 1] = some (xs, v) → s.start.claim d →
    let name : Q := xs.getD 1 0 ++ xs.getD 0 0
    let bad := nmClass name = 0 ∨ 6 < nmClass name
    let foreign := nmChip name ≠ Config.chipTag.toNat
    (bad → s.canTrap → ∀ i ∈ [Instr.nres d a k1 m, .nqry d a k1 m, .nkil d a m, .nshd d a m], ∃ t, exec i s = .next t ∧ Trapped s t 0x10 (xs.getD 0 0) (xs.getD 1 0)) ∧
    (¬bad → foreign → s.canTrap → ∀ i ∈ [Instr.nres d a k1 m, .nkil d a m, .nshd d a m], ∃ t, exec i s = .next t ∧ Trapped s t 0x20 (xs.getD 0 0) (xs.getD 1 0)) ∧
    (s.start.claim (d + 1) → (bad → s.canTrap → ∃ t, exec (.nrst d a k1 m) s = .next t ∧ Trapped s t 0x10 (xs.getD 0 0) (xs.getD 1 0)) ∧
      (¬bad → ∃ t, exec (.nrst d a k1 m) s = .next t ∧ Queried s t .rst [d, d + 1] name k1.toNat)) ∧
    (¬bad → ∃ t, exec (.nqry d a k1 m) s = .next t ∧ Queried s t .qry [d] name k1.toNat) ∧
    (¬bad → ¬foreign → (∃ t, exec (.nres d a k1 m) s = .next t ∧ Queried s t .res [d] name k1.toNat) ∧
      (∃ t, exec (.nkil d a m) s = .next t ∧ Queried s t .kil [d] name 0) ∧ ∃ t, exec (.nshd d a m) s = .next t ∧ Queried s t .shd [d] name 0)) ∧
  (∀ (s : State) (d a b : BitVec 5) (m n : Bool) (xs : List D) (v : Dev), s.ready → s.start.readGs [a, a + 1, b] = some (xs, v) → s.start.claim d →
    let name : Q := xs.getD 1 0 ++ xs.getD 0 0
    let va := xs.getD 2 0
    1 ≤ nmClass name → nmClass name ≤ 6 → nmChip name = Config.chipTag.toNat →
    ((winCode va = 0 ∨ vaultLoc s.core va ≠ none) → va.toNat % 64 ≠ 0 → s.canTrap → ∃ t, exec (.ncas d a b m n) s = .next t ∧ Trapped s t 0x05 va 0) ∧
    let word := fun k => va + BitVec.ofNat 64 (8 * k)
    ((winCode va = 0 ∨ vaultLoc s.core va ≠ none) → va.toNat % 64 = 0 → s.canTrap → ∀ k c y aux, k < 8 →
      ((∀ j, j < k → ∃ x, reach s.dev s.dev.cur (word j) 8 8 0 = .ok x) → reach s.dev s.dev.cur (word k) 8 8 0 = .error (.trap c 0 y aux none) →
        ∃ t, exec (.ncas d a b m n) s = .next t ∧ Trapped s t c y aux) ∧
      ((∀ j, j < 8 → ∃ x, reach s.dev s.dev.cur (word j) 8 8 0 = .ok x) → (∀ j, j < k → ∃ x, reach s.dev s.dev.cur (word j) 8 8 1 = .ok x) →
        reach s.dev s.dev.cur (word k) 8 8 1 = .error (.trap c 0 y aux none) → ∃ t, exec (.ncas d a b m n) s = .next t ∧ Trapped s t c y aux)) ∧
    ((winCode va = 0 ∨ vaultLoc s.core va ≠ none) → va.toNat % 64 = 0 → (∀ k, k < 8 → ∃ x, reach s.dev s.dev.cur (va + BitVec.ofNat 64 (8 * k)) 8 8 0 = .ok x) →
      (∀ k, k < 8 → ∃ x, reach s.dev s.dev.cur (word k) 8 8 1 = .ok x) → ∃ t, exec (.ncas d a b m n) s = .next t ∧ Queried s t .cas [d] name 0 ∧
        ((t.dev.nameQ.get? s.dev.nextId).map fun q => q.parts.map (·.va)) = some ((List.range 8).map fun k => va + BitVec.ofNat 64 (8 * k)))) ∧
  (∀ (s : State) (d : BitVec 5), s.ready → s.start.space d → s.start.space (d + 1) →
    exec (.nslf d) s = .next ⟨((s.start.writeG d (s.me.name.setWidth 64)).writeG (d + 1) ((s.me.name >>> 64).setWidth 64)).next, s.mem⟩) ∧
  (∀ (s : State) (d a b : BitVec 5) (m n f : Bool) (xs : List D) (v : Dev), s.ready → s.start.readGs [a, b, b + 1] = some (xs, v) → s.start.claim d → s.start.claim (d + 1) →
    ∃ t, exec (.nnew d a b m n f) s = .next t ∧ t.dev.last = .issued ∧ t.mem = s.mem ∧ t.me = { (s.me.pendG d s.dev.nextId).pendG (d + 1) s.dev.nextId with pc := s.me.pc + s.dev.len } ∧
      (badRequest (xs.getD 1 0) (xs.getD 2 0) (xs.getD 0 0) = true → t.dev.mint = s.dev.mint ∧
        (f = true → ∃ dt, Replied s t s.dev.nextId dt s.dev.cur [(d, 3), (d + 1, 0)]) ∧ (f = false → ∃ dt, Failed s t s.dev.nextId dt ⟨s.me.pc, 0x1B, xs.getD 0 0, 3, false⟩)) ∧
      (badRequest (xs.getD 1 0) (xs.getD 2 0) (xs.getD 0 0) = false → t.dev.mint.queue = s.dev.mint.queue ++ [(dieOf s.core, .nnew s.dev.nextId)] ∧
        t.dev.mint.next = s.dev.mint.next ∧ ∃ q, t.dev.nameQ.get? s.dev.nextId = some q ∧ q.req = xs.getD 1 0 ∧ q.tmpl = xs.getD 2 0 ∧ q.arg = xs.getD 0 0 ∧ q.launch = s.me.launch))

/-- R190 to R196, R201 to R204: at the table a LIVE name gives its word, a name that is not live status or fault 1 (GONE, fault 0x0E)
or 2 (NEVER, fault 0x0F), a foreign one status 3; NQRY reads any entry; NKIL makes the entry DYING and NSHD leaves it LIVE, both
with a shoot-down under SHD; NCAS writes words 2 to 5 where the block holds the current ones, else writes those back as the thread's
own plain stores, which it waits for: a refused one is the query's fault. A resolution that hits a name cache gives the cached words;
where the entry has left the cache since the issue it takes the time of a miss (R197). A resolution follows the thread's older acquires
(R206).
The model's own choices, no rules of the spec: log 54, log 55 and log 114. -/
def Obligations.NameTable : Prop :=
  (∀ (s : State) (id back : Nat) (q : NQuery) (ds : List (BitVec 5)), AtTable s id back q ds →
    let hit := (lookup s.mem s.dev (q.die s id) q.name).2
    let missed := ∀ tl, cacheTile ((s.dev.thread q.loc).at q.loc) = some tl → ncFind s.dev tl q.name = none
    let live := fun k => hit = some k ∧ fieldN (entryWord s k 2) 63 62 = 1
    let gone := (∃ k, hit = some k ∧ fieldN (entryWord s k 2) 63 62 ≠ 1) ∨ (hit = none ∧ nmSeq q.name < s.dev.mint.next)
    let never := hit = none ∧ s.dev.mint.next ≤ nmSeq q.name
    let word := fun k => match q.sel with | 0 => entryWord s k 4 | 1 => entryWord s k 5 | 2 => entryWord s k 3 | _ => entryWord s k 2
    let own := nmChip q.name = Config.chipTag.toNat
    (∀ d, q.kind = .res → ds = [d] → own → missed →
      (∀ k, live k → ∃ t, exec .nameTableOperation s = .next t ∧ Replied s t id back q.loc [(d, word k)]) ∧
      (gone → ∃ t, exec .nameTableOperation s = .next t ∧ Failed s t id back ⟨q.pc, 0x0E, q.name.setWidth 64, 0x0E, false⟩ ∧ t.mem = s.mem) ∧
      (never → ∃ t, exec .nameTableOperation s = .next t ∧ Failed s t id back ⟨q.pc, 0x0F, q.name.setWidth 64, 0x0F, false⟩ ∧ t.mem = s.mem)) ∧
    (∀ d, q.kind = .rst → ds = [d, d + 1] →
      (¬own → ∃ t, exec .nameTableOperation s = .next t ∧ Replied s t id back q.loc [(d, 0), (d + 1, 3)] ∧ t.mem = s.mem) ∧
      (own → missed → (∀ k, live k → ∃ t, exec .nameTableOperation s = .next t ∧ Replied s t id back q.loc [(d, word k), (d + 1, 0)]) ∧
        (gone → ∃ t, exec .nameTableOperation s = .next t ∧ Replied s t id back q.loc [(d, 0), (d + 1, 1)] ∧ t.mem = s.mem) ∧
        (never → ∃ t, exec .nameTableOperation s = .next t ∧ Replied s t id back q.loc [(d, 0), (d + 1, 2)] ∧ t.mem = s.mem))) ∧
    (∀ d, q.kind = .qry → ds = [d] → ∃ t, exec .nameTableOperation s = .next t ∧ t.mem = s.mem ∧
      (¬own ∨ hit = none → Replied s t id back q.loc [(d, 0)]) ∧
      (∀ k, own → hit = some k → Replied s t id back q.loc [(d, if q.sel = 4 then entryWord s k 6 else word k)])) ∧
    (∀ d, q.kind ∈ [NKind.kil, .shd, .cas] → q.sel = 0 → ds = [d] → ∀ st, nameStatus s id q (q.kind ≠ .shd) = some st →
      ∃ t, exec .nameTableOperation s = .next t ∧ Replied s t id back q.loc [(d, ofN st)] ∧ t.mem = s.mem ∧ t.dev.shoots = s.dev.shoots) ∧
    (∀ d k, q.kind = .kil → ds = [d] → nameStatus s id q true = none → hit = some k → (∀ b ∈ s.dev.blocks, b.name ≠ q.name) →
      ∃ t, exec .nameTableOperation s = .next t ∧ Replied s t id back q.loc [(d, 0)] ∧ Shooting s t q.name k q.loc 4 true ∧
        fieldN (entryWord t k 2) 63 62 = 2 ∧ bitN (entryWord t k 2) 55 = true ∧ ∀ i ∈ [0, 1, 3, 4, 5, 6, 7], entryWord t k i = entryWord s k i) ∧
    (∀ d k, q.kind = .shd → ds = [d] → nameStatus s id q false = none → hit = some k →
      ∃ t, exec .nameTableOperation s = .next t ∧ Replied s t id back q.loc [(d, 0)] ∧ Shooting s t q.name k q.loc 6 false ∧
        fieldN (entryWord t k 2) 63 62 = 1 ∧ bitN (entryWord t k 2) 55 = true ∧ ∀ i ∈ [0, 1, 3, 4, 5, 6, 7], entryWord t k i = entryWord s k i) ∧
    (∀ d k blk, q.kind = .cas → q.sel = 0 → ds = [d] → nameStatus s id q true = none → hit = some k → blocked s.dev id (q.load s id) = false →
      blockRead s.mem s.dev (q.load s id) = .ok blk → q.parts.length = 8 →
      let old := (List.range 4).map fun i => entryWord s k (2 + i)
      let ps := (q.parts.zip old).map fun x => { x.1 with data := x.2 }
      let ca := (s.dev.owner q.loc id).at q.loc
      (blk.take 4 = old → refusedDescriptor (nmClass q.name) old (blk.drop 4) = true → ∃ t, exec .nameTableOperation s = .next t ∧ Replied s t id back q.loc [(d, 3)] ∧ t.mem = s.mem) ∧
      (blk.take 4 = old → refusedDescriptor (nmClass q.name) old (blk.drop 4) = false → ∃ t, exec .nameTableOperation s = .next t ∧ Replied s t id back q.loc [(d, 0)] ∧
        Shooting s t q.name k q.loc 3 false ∧ entryWord t k 2 = setField (blk.getD 4 0) 55 55 1 ∧ ∀ i, i < 3 → entryWord t k (3 + i) = blk.getD (5 + i) 0) ∧
      (blk.take 4 ≠ old → (∀ p ∈ ps, p.place ≠ none) → (s.dev.core ca).journal.length ≤ 28 → ca = coreOf q.loc ∨ kindOf ca = 2 → ∃ t, exec .nameTableOperation s = .next t ∧ t.mem = s.mem ∧
        t.dev.nameQ.get? id = some { q with sel := 5, parts := ps } ∧ (⟨s.dev.cycle + 4, .nameTableOperation, [id, back]⟩ : Event) ∈ t.dev.events ∧
        ∀ i, i < 4 → ∃ e j r, (t.dev.core ca).journal.get? e = some j ∧ j.core = ca ∧ j.kind = .st ∧ j.size = (ps.getD i ⟨0, 0, 0, 0, none, 0, 0⟩).size ∧
          j.addr = (ps.getD i ⟨0, 0, 0, 0, none, 0, 0⟩).va ∧ j.data = old.getD i 0 ∧ j.orig = some r ∧ r.query = some id) ∧
      (∀ ks : List Nat, blk.take 4 ≠ old → kindOf ca ≠ 2 → OnlyQuery s id q.loc → ks.length = 4 → (∀ i, i < 4 → BackNow s id q (ps.getD i ⟨0, 0, 0, 0, none, 0, 0⟩) (ks.getD i 0)) →
        (∀ i j, i < j → j < 4 → ks.getD i 0 + 8 ≤ ks.getD j 0) → ∃ t, exec .nameTableOperation s = .next t ∧ Replied s t id back q.loc [(d, 1)] ∧
          ∀ i, i < 4 → rd64 t.mem t.dev (ks.getD i 0) = old.getD i 0)) ∧
    (∀ d, q.kind = .cas → q.sel = 5 → ds = [d] → q.parts.length = 4 → queryStoring s.dev id q.loc = false →
      ∃ t, exec .nameTableOperation s = .next t ∧ Replied s t id back q.loc [(d, 1)] ∧ t.mem = s.mem)) ∧
  (∀ (s : State) (id back : Nat) (q : NQuery) (tl : Nat) (e : NcEntry) (d : BitVec 5), AtTable s id back q [d] → q.kind = .res → nmChip q.name = Config.chipTag.toNat →
    cacheTile ((s.dev.owner q.loc id).at q.loc) = some tl → ncFind s.dev tl q.name = some e →
    ∃ t, exec .nameTableOperation s = .next t ∧ t.mem = s.mem ∧ Replied s t id back q.loc [(d, match q.sel with | 0 => e.w4 | 1 => e.w5 | 2 => e.w3 | _ => e.w2)]) ∧
  (∀ (s : State) (id back : Nat) (q : NQuery), s.dev.args = [id, back] → s.dev.nameQ.get? id = some q → s.Inv →
    let ca := (s.dev.owner q.loc id).at q.loc
    let waits := tableHeld s.dev (dieOf ca) q.name = true ∨ (q.kind ∈ [NKind.res, .rst, .qry] ∧ acquiring s.dev q.loc id = true)
    (waits → ∃ t, exec .nameTableOperation s = .next t ∧ t.mem = s.mem ∧ t.dev.nameQ = s.dev.nameQ ∧ t.dev.events = s.dev.events ++ [⟨s.dev.cycle + 16, .nameTableOperation, [id, back]⟩]) ∧
    (¬waits → back = 16 → (∀ tl, cacheTile ca = some tl → ncFind s.dev tl q.name = none) → ∃ t n, 204 ≤ n ∧ exec .nameTableOperation s = .next t ∧ t.mem = s.mem ∧ t.dev.nameQ = s.dev.nameQ ∧
      t.dev.events = s.dev.events ++ [⟨s.dev.cycle + (n / 2 - 16), .nameTableOperation, [id, n - n / 2]⟩]) ∧
    (∀ a f, ¬waits → back ≠ 16 → q.kind = .cas → q.sel ≠ 0 → s.dev.arrs.get? id = some a → a.fault = some f → queryStoring s.dev id q.loc = false → (∀ k, Mem.read s.mem (errKey k) ≠ 1) →
      ∃ t, exec .nameTableOperation s = .next t ∧ t.mem = s.mem ∧ t.dev.nameQ = s.dev.nameQ.erase id ∧ (⟨s.dev.cycle + back, .loadFaultArrival, [id]⟩ : Event) ∈ t.dev.events)) ∧
  (∀ (s : State) (id die k : Nat) (q : NQuery) (d : BitVec 5) (f : Bool), s.Inv → s.dev.mint.queue = [(die, .nnew id)] → die < 4 → s.dev.mint.writing = false → s.dev.mint.stopped = false →
    (s.dev.mint.next % 2 ^ 32 ≠ 0 ∨ s.dev.mint.next / 2 ^ 32 ≤ s.dev.mint.recorded) → s.dev.nameQ.get? id = some q → q.kind = .new f → fieldN q.req 5 0 ∈ [1, 2, 5] →
    s.dev.arrs.get? id = some ⟨q.loc, [(.g d, 0), (.g (d + 1), 0)], 0, false, none, [], false⟩ → freeEntryFor s.mem s.dev (dieOf ((s.dev.thread q.loc).at q.loc)) (fieldN q.req 5 0) s.dev.mint.next = some k →
    mintHeld s.mem s.dev die (.nnew id) = false → (∀ b ∈ s.dev.blocks, b.name ≠ mkName (fieldN q.req 5 0) s.dev.mint.next) →
    let name := mkName (fieldN q.req 5 0) s.dev.mint.next
    ∃ t dt, exec .mintIssue s = .next t ∧ t.dev.mint.next = s.dev.mint.next + 1 ∧ t.dev.mint.queue = [] ∧
      Replied s t id dt q.loc [(d, name.setWidth 64), (d + 1, (name >>> 64).setWidth 64)] ∧
      entryWord t k 0 = name.setWidth 64 ∧ entryWord t k 1 = (name >>> 64).setWidth 64 ∧ fieldN (entryWord t k 2) 63 62 = 1 ∧ entryWord t k 3 = q.tmpl ∧ entryWord t k 4 = q.arg ∧
      bitN (entryWord t k 2) 47 = bitN q.req 8 ∧ entryOwner t.mem t.dev k = ownerOf q.launch % 2 ^ 96)

/-- R154, R187 to R189, R202, R205, R222: a block's record is written before its first sequence is minted, and the mint stops when
it cannot be, or at the last block; a shoot-down drops the name at each tile of TMASK, which acknowledges once no walk is in
progress there and it is not halted; the acknowledgements return to the entry, which clears SHD and tells the issuer; a kill's last acknowledgement, when no other shoot-down of the entry is left, frees the entry, gives
an object's frames back and tells the issuer, and a launch's kill lets its completion go on; a placement TLB shoot-down drops the pages at every tile.
The model's own choices, no rules of the spec: log 52, log 53, log 76 and log 129. -/
def Obligations.MintAndShootdowns : Prop :=
  (∀ s : State, s.dev.mint.queue ≠ [] → s.dev.mint.writing = false → s.dev.mint.stopped = false → s.dev.mint.next % 2 ^ 32 = 0 → s.dev.mint.recorded < s.dev.mint.next / 2 ^ 32 →
    (s.dev.mint.next < 2 ^ 96 - 2 ^ 32 → ∃ t n, exec .mintIssue s = .next t ∧ t.mem = s.mem ∧ t.dev.mint = { s.dev.mint with writing := true } ∧ 1 ≤ n ∧ n ≤ 42000 ∧
      (⟨s.dev.cycle + n, .mintBlockRecord, []⟩ : Event) ∈ t.dev.events) ∧
    (2 ^ 96 - 2 ^ 32 ≤ s.dev.mint.next → ∃ t, exec .mintIssue s = .next t ∧ t.dev.mint.stopped = true ∧ t.dev.mint.next = s.dev.mint.next)) ∧
  (∀ s : State, ∃ t, exec .mintBlockRecord s = .next t ∧ t.mem = s.mem ∧ t.dev.mint.writing = false ∧ t.dev.mint.next = s.dev.mint.next ∧ t.dev.mint.queue = s.dev.mint.queue ∧
    ((t.dev.mint.recorded = s.dev.mint.next / 2 ^ 32 ∧ t.dev.mint.stopped = s.dev.mint.stopped) ∨ (t.dev.mint.recorded = s.dev.mint.recorded ∧ t.dev.mint.stopped = true)) ∧
    (⟨s.dev.cycle, .mintIssue, []⟩ : Event) ∈ t.dev.events) ∧
  (∀ (s : State) (sid tile : Nat) (x : Shoot), s.dev.args = [sid, tile] → s.dev.shoots.get? sid = some x →
    (∃ t n, exec .shootdownArrival s = .next t ∧ t.mem = s.mem ∧ (t.dev.tile tile).shooting = (s.dev.tile tile).shooting ++ [sid] ∧
      (∀ c ∈ (t.dev.tile tile).ncache, ∀ e ∈ c.2, e.name ≠ x.name) ∧ t.dev.shoots.get? sid = some { x with kept := x.kept.filter (· != tile) } ∧
      40 ≤ n ∧ n ≤ 740 ∧ (tileDie tile = x.key / 2 ^ 56 % 4 → n = 40) ∧ (⟨s.dev.cycle + n, .shootdownAcknowledge, [sid, tile]⟩ : Event) ∈ t.dev.events) ∧
    (gramWalking s.dev tile = 0 → tileHalted s.dev tile = false → ∃ t n, exec .shootdownAcknowledge s = .next t ∧ t.mem = s.mem ∧ (t.dev.tile tile).shooting = (s.dev.tile tile).shooting.erase sid ∧ 40 ≤ n ∧ n ≤ 740 ∧ (tileDie tile = x.key / 2 ^ 56 % 4 → n = 40) ∧
      (⟨s.dev.cycle + n, .shootdownAckAtEntry, [sid, tile]⟩ : Event) ∈ t.dev.events) ∧
    (gramWalking s.dev tile ≠ 0 ∨ tileHalted s.dev tile = true → ∃ t, exec .shootdownAcknowledge s = .next t ∧ t.mem = s.mem ∧ (t.dev.tile tile).shooting = (s.dev.tile tile).shooting ∧
      (⟨s.dev.cycle + 4, .shootdownAcknowledge, [sid, tile]⟩ : Event) ∈ t.dev.events)) ∧
  (∀ (s : State) (sid tile : Nat) (x : Shoot), s.Inv → s.dev.args = [sid, tile] → s.dev.shoots.get? sid = some x → tile < 64 →
    (physHeld s.dev x.key = true → ∃ t, exec .shootdownAckAtEntry s = .next t ∧ t.mem = s.mem ∧ t.dev.shoots = s.dev.shoots ∧
      (⟨s.dev.cycle + 16, .shootdownAckAtEntry, [sid, tile]⟩ : Event) ∈ t.dev.events) ∧
    (physHeld s.dev x.key = false → x.left.erase tile ≠ [] ∨ x.tlb ≠ 0 → ∃ t, exec .shootdownAckAtEntry s = .next t ∧
      t.dev.shoots.get? sid = some { x with left := x.left.erase tile, count := x.count + 1 } ∧
      (tile ∉ x.kept → x.here s.mem s.dev = true → entryWord t x.key 6 = BitVec.ofNat 64 ((entryWord s x.key 6).toNat - if (entryWord s x.key 6).getLsbD tile then 2 ^ tile else 0)) ∧
      (tile ∈ x.kept ∨ x.here s.mem s.dev = false → entryWord t x.key 6 = entryWord s x.key 6)) ∧
    (Finishing s sid tile x → x.kill = false → x.launch = none → Told s x →
      ∃ t, exec .shootdownAckAtEntry s = .next t ∧ t.dev.shoots = s.dev.shoots.erase sid ∧ bitN (entryWord t x.key 2) 55 = false ∧ NameOp s t x) ∧
    (Finishing s sid tile x → x.kill = true → x.launch = none → Told s x → (∀ b ∈ s.dev.blocks, b.name ≠ x.name) →
      ∃ t, exec .shootdownAckAtEntry s = .next t ∧ t.dev.shoots = s.dev.shoots.erase sid ∧ fieldN (entryWord t x.key 2) 63 62 = 0 ∧ bitN (entryWord t x.key 2) 55 = false ∧ NameOp s t x) ∧
    (∀ (b : Block) (pd pi f : Nat), Finishing s sid tile x → x.kill = true → x.launch = none → Told s x → s.dev.blocks = [b] → b.name = x.name → b.frames = [(pd, pi, f)] → f < 2 ^ 64 →
      let pk := poolKey s.dev pd pi
      let n := poolCount s.mem s.dev (pd, pi)
      let sk := poolStack s.mem s.dev (pd, pi) + 8 * n
      physHeld s.dev pk = false → physHeld s.dev sk = false → n + 1 < 2 ^ 64 → overlaps x.key 64 pk 16 = false → overlaps x.key 64 sk 8 = false → overlaps pk 16 sk 8 = false →
      ∃ t, exec .shootdownAckAtEntry s = .next t ∧ t.dev.shoots = s.dev.shoots.erase sid ∧ fieldN (entryWord t x.key 2) 63 62 = 0 ∧ NameOp s t x ∧ t.dev.blocks = [] ∧
        rd64 t.mem t.dev pk = ofN (n + 1) ∧ rd64 t.mem t.dev sk = ofN f) ∧
    (∀ l, Finishing s sid tile x → x.kill = true → x.launch = some l → (∀ b ∈ s.dev.blocks, b.name ≠ x.name) →
      ∃ t, exec .shootdownAckAtEntry s = .next t ∧ t.dev.shoots = s.dev.shoots.erase sid ∧ fieldN (entryWord t x.key 2) 63 62 = 0 ∧ bitN (entryWord t x.key 2) 55 = false ∧
        (∀ c, (t.dev.core c).inbox = (s.dev.core c).inbox) ∧ t.dev.launches = s.dev.launches.map (fun y => if y.name = l then { y with kills := y.kills.map (· - 1) } else y) ∧
        (⟨s.dev.cycle, .launchComplete, [l.toNat]⟩ : Event) ∈ t.dev.events) ∧
    (physHeld s.dev x.key = false → x.kill = true → (∃ y ∈ s.dev.shoots, y.1 ≠ sid ∧ y.2.name = x.name ∧ y.2.kill = false) → ∃ t, exec .shootdownAckAtEntry s = .next t ∧
      t.dev.shoots.get? sid = some { x with left := x.left.erase tile, count := x.count + 1 })) ∧
  (∀ (s : State) (id tile : Nat) (x : Tsd), s.dev.args = [id, tile] → s.dev.tsds.get? id = some x →
    ∃ t, exec .placementTlbShootdown s = .next t ∧ t.mem = s.mem ∧ (∀ e ∈ (t.dev.tile tile).tlb, e.ctx = x.ctx → overlaps e.base e.size x.base x.size = false) ∧
      (∀ e ∈ (s.dev.tile tile).tlb, ¬(e.ctx = x.ctx ∧ overlaps e.base e.size x.base x.size = true) → e ∈ (t.dev.tile tile).tlb) ∧
      (x.left.erase tile ≠ [] → t.dev.tsds.get? id = some { x with left := x.left.erase tile }) ∧
      (x.left.erase tile = [] → t.dev.tsds = s.dev.tsds.erase id ∧ ∃ n, 40 ≤ n ∧ n ≤ 1040 ∧ (⟨s.dev.cycle + n, x.step, x.args⟩ : Event) ∈ t.dev.events))

/-! # Grammars -/

namespace Sys2Proof.Machine

/-- R226, R229 to R238: what a grammar query asks: its g sources (a name first), the classes it takes, its kind and destinations,
and from the sources the bound name, parameter or index, column, and record area or block. -/
structure GAsk where
  srcs : List (BitVec 5)
  cls : List Nat
  kind : GKind
  dsts : List Dst
  bind : List D → Q := fun _ => 0
  par : List D → D := fun _ => 0
  off : List D → Nat := fun _ => 0
  area : List D → Option D := fun _ => none
def gramAsk : Instr → Option GAsk
  | .glen d a _ => some { srcs := [a, a + 1], cls := [1, 2], kind := .len, dsts := [.g d] }
  | .gidx d a b _ _ => some { srcs := [a, a + 1, b], cls := [1, 2], kind := .idx, dsts := [.g d], par := fun xs => xs.getD 2 0 }
  | .gpfx d a b _ _ => some { srcs := [a, a + 1, b], cls := [1, 2], kind := .pfx, dsts := [.g d], par := fun xs => xs.getD 2 0 }
  | .gnew d a b _ _ => some { srcs := [a, a + 1, b], cls := [1], kind := .new, dsts := [.g d, .g (d + 1)], area := fun xs => some (xs.getD 2 0) }
  | .gscn d a b _ _ => some { srcs := [a, a + 1, b], cls := [1, 2], kind := .scn, dsts := [.g d, .g (d + 1)], area := fun xs => some (xs.getD 2 0) }
  | .gmv d a b _ _ => some { srcs := [a, a + 1, b], cls := [3], kind := .mv, dsts := [.g d], bind := fun xs => xs.getD 1 0 ++ xs.getD 0 0, area := fun xs => some (xs.getD 2 0) }
  | .grtiRule d a _ => some { srcs := [a, a + 1], cls := [1], kind := .rti 1, dsts := [.g d] }
  | .grtiObj d a _ => some { srcs := [a, a + 1], cls := [3], kind := .rti 2, dsts := [.g d] }
  | .gev d a b _ _ l => some (
      if l = 7 ∨ l = 9 then { srcs := [a, a + 1, b], cls := [1, 2], kind := .ev l.toNat, dsts := [.v d], par := fun xs => xs.getD 2 0 }
      else if l = 10 then
        { srcs := [a, a + 1, b, b + 1, b + 2], cls := [1, 2], kind := .ev 10, dsts := [.v d], bind := fun xs => xs.getD 3 0 ++ xs.getD 2 0, off := fun xs => (xs.getD 4 0).toNat }
      else { srcs := [a, a + 1], cls := [1, 2], kind := .ev l.toNat, dsts := [.v d] })
  | _ => none
/-- The query is in the grammar unit: its destinations are EMPTY behind it. -/
def GAsked (s t : State) (a : GAsk) (name : Q) (xs : List D) : Prop :=
  t.dev.last = .issued ∧ t.mem = s.mem ∧ t.me = { a.dsts.foldl (fun u x => u.pend x s.dev.nextId) s.me with pc := s.me.pc + s.dev.len } ∧
  t.dev.arrs.get? s.dev.nextId = some ⟨s.dev.cur, a.dsts.map fun x => (x, 0), 0, false, none, [], true⟩ ∧
  ∃ q, t.dev.gramQ.get? s.dev.nextId = some q ∧ q.kind = a.kind ∧ q.name = name ∧ q.bind = a.bind xs ∧ q.par = a.par xs ∧ q.off = a.off xs ∧
    q.area = (a.area xs).getD 0 ∧ q.loc = s.dev.cur ∧ q.core = s.core ∧ q.pc = s.me.pc ∧ q.user = !s.me.priv
/-- The grammar unit of the core's tile has a place in its queue (R225). -/
abbrev State.gramRoom (s : State) : Prop := ((gramOf s.dev (unitOf s.core)).filter fun q => !q.2.walking).length < 64
/-- R213: a summary in a vector register. -/
def Summary (z : V) (l a b c : Nat) : Prop :=
  laneOf 64 z 0 = l ∧ laneOf 64 z 1 = a ∧ laneOf 64 z 2 = b ∧ laneOf 64 z 3 = c ∧ ∀ k, 4 ≤ k → k < 16 → laneOf 64 z k = 0
/-- R213: the element types an operator is defined on. -/
def LiftTakes (op et : Nat) : Prop := match op with
  | 0 | 4 | 5 | 6 | 8 => et ≤ 1
  | 1 => 2 ≤ et ∧ et ≤ 7
  | 2 | 3 | 7 | 9 => et ≤ 7
  | 10 => et = 8
  | _ => False
def signed64 (x : Nat) : Int := (BitVec.ofNat 64 x).toInt
def sum64 (x y : Nat) : Nat := (Fp.add Fp.f64 .rne 0 (Fp.f64.decode x) (Fp.f64.decode y)).1
/-- R214: lane 1 of MIN or MAX of two values: as VMIN and VMAX. -/
def Extreme (top : Bool) (ty x y z : Nat) : Prop :=
  if 2 ≤ ty ∧ ty ≤ 7 then z = (Fp.minmax Fp.f64 top x y).1
  else (z = x ∨ z = y) ∧ if top then signed64 x ≤ signed64 z ∧ signed64 y ≤ signed64 z else signed64 z ≤ signed64 x ∧ signed64 z ≤ signed64 y
/-- R214: z is comb(x, y). -/
def Combined (op : Nat) (x y z : GSum) : Prop :=
  z.len = (x.len + y.len) % 2 ^ 64 ∧
  match op with
  | 8 => z.s1 = (x.s1 + y.s1) % 2 ^ 64 ∧ z.s2 = (x.s2 + y.s2 + x.len * y.s1) % 2 ^ 64 ∧ z.s3 = 0
  | 9 => z.s1 = (x.s1 * y.s3 + y.s1) % (2 ^ 61 - 1) ∧ z.s2 = 0 ∧ z.s3 = x.s3 * y.s3 % (2 ^ 61 - 1)
  | op => z.s2 = x.s2 ∧ z.s3 = 0 ∧ match op with
    | 1 => z.s1 = sum64 x.s1 y.s1
    | 2 => Extreme false x.s2 x.s1 y.s1 z.s1
    | 3 => Extreme true x.s2 x.s1 y.s1 z.s1
    | 4 => ∀ i, z.s1.testBit i = (x.s1.testBit i && y.s1.testBit i)
    | 5 => ∀ i, z.s1.testBit i = (x.s1.testBit i || y.s1.testBit i)
    | 6 => ∀ i, z.s1.testBit i = (x.s1.testBit i != y.s1.testBit i)
    | 10 => z.s1 = if 2 ≤ x.s2 ∧ x.s2 ≤ 7 then sum64 x.s1 y.s1 else (x.s1 + y.s1) % 2 ^ 64
    | _ => z.s1 = (x.s1 + y.s1) % 2 ^ 64
/-- R214: z is the left fold of a and bs under comb. -/
def Folded (op : Nat) : GSum → List GSum → GSum → Prop
  | a, [], z => z = a
  | a, b :: bs, z => ∃ c, Combined op a b c ∧ Folded op c bs z
/-- R215: z is r after the steps of rep(s, n) below bit k. -/
def RepSteps (op n : Nat) (s : GSum) : Nat → GSum → GSum → Prop
  | 0, r, z => z = r
  | k + 1, r, z => ∃ a, Combined op r r a ∧ if n / 2 ^ k % 2 = 1 then ∃ b, Combined op a s b ∧ RepSteps op n s k b z else RepSteps op n s k a z
/-- R215: z is rep(s, n). -/
def Repeated (op n : Nat) (s z : GSum) : Prop := RepSteps op n s (Nat.log2 n) s z
/-- R209: the bytes of an element. -/
def elemBytes (et : Nat) : Nat := if et ∈ [0, 2] then 4 else if et ∈ [1, 3] then 8 else if et ∈ [4, 5] then 2 else 1
/-- R210: the 64-bit value of an element. -/
def elem64 (et x : Nat) : Nat := if et = 0 then (if x < 2 ^ 31 then x else x + 2 ^ 64 - 2 ^ 32) else if et = 1 then x else (Fp.convert Fp.f64 .rne 0 ((etFmt et).decode x)).1
def leftFold (f : Nat → Nat → Nat) : List Nat → Nat
  | [] => 0
  | v :: vs => vs.foldl f v
/-- R214, R217: z is the summary of a leaf of these values; for DOT beside the values of the columns, and et is RTYPE. -/
def LeafSum (op et par : Nat) (vs cols : List Nat) (z : GSum) : Prop :=
  z.len = vs.length ∧
  match op with
  | 8 => z.s1 = vs.sum % 2 ^ 64 ∧ z.s2 = (vs.zipIdx.map fun x => x.2 * x.1).sum % 2 ^ 64 ∧ z.s3 = 0
  | 9 => z.s1 = (vs.zipIdx.map fun x => x.1 * par ^ (vs.length - 1 - x.2)).sum % (2 ^ 61 - 1) ∧ z.s2 = 0 ∧ z.s3 = par ^ vs.length % (2 ^ 61 - 1)
  | op => z.s2 = et ∧ z.s3 = 0 ∧ match op with
    | 1 => z.s1 = leftFold sum64 vs
    | 2 => if et ≤ 1 then z.s1 ∈ vs ∧ ∀ v ∈ vs, signed64 z.s1 ≤ signed64 v else z.s1 = leftFold (fun x y => (Fp.minmax Fp.f64 false x y).1) vs
    | 3 => if et ≤ 1 then z.s1 ∈ vs ∧ ∀ v ∈ vs, signed64 v ≤ signed64 z.s1 else z.s1 = leftFold (fun x y => (Fp.minmax Fp.f64 true x y).1) vs
    | 4 => ∀ i, z.s1.testBit i = vs.all (·.testBit i)
    | 5 => ∀ i, z.s1.testBit i = vs.any (·.testBit i)
    | 6 => ∀ i, z.s1.testBit i = (vs.countP (·.testBit i) % 2 == 1)
    | 7 => z.s1 = vs.countP (· = par)
    | 10 => z.s1 = if et ≤ 1 then ((vs.zip cols).map fun x => x.1 * x.2).sum % 2 ^ 64
        else (vs.zip cols).foldl (fun acc x => (Fp.fma Fp.f64 .rne 0 (Fp.f64.decode x.1) (Fp.f64.decode x.2) (some (Fp.f64.decode acc))).1) 0
    | _ => z.s1 = vs.sum % 2 ^ 64
/-- A query whose walk is made with nothing else of the machine's memory traffic under way; a set of the name cache holds at most
four names (R194). -/
structure WalksAlone (s : State) (id : Nat) (q : GQuery) : Prop where
  args : s.dev.args = [id, 0]
  clean : s.Inv
  query : s.dev.gramQ = [(id, q)]
  reqs : s.dev.reqs = []
  names : s.dev.nameQ = []
  read : s.dev.fwd = []
  core : kindOf q.core ≠ 2
  sets : ∀ k, ((s.dev.tile (unitOf q.core)).ncache.getD k []).length ≤ 4
/-- R195, R197: the name cache of the serving tile holds a name of this chip, with the BASE and LEN of its entry. -/
def Cached (s : State) (q : GQuery) (n : Q) (base len : D) : Prop :=
  nmChip n = Config.chipTag.toNat ∧ ∃ e, ncFind s.dev (unitOf q.core) n = some e ∧ e.w4 = base ∧ e.w5 = len
/-- R208, R134: the unit's plain load of `size` bytes at a vault-window address finds x there. -/
def Plain (s : State) (id : Nat) (q : GQuery) (va : D) (size x : Nat) : Prop :=
  winCode va ≠ 1 ∧ ∃ tile off, vaultLoc q.core va = some (tile, off) ∧ protOk (s.dev.owner q.loc id) (tile, off) size 0 = true ∧
    granted (s.dev.tile tile).access 0 (gramMaster (unitOf q.core)) 0 false = true ∧ compKey (tileAt q.regions s.dev) (vaultKey tile off) = false ∧
    Mem.read s.mem (errKey (vaultKey tile off)) = 0 ∧ rdN s.mem s.dev (vaultKey tile off) size = x
def Words (s : State) (id : Nat) (q : GQuery) (base : D) (ws : List Nat) : Prop :=
  ∀ j, j < ws.length → Plain s id q (base + ofN (8 * j)) 8 (ws.getD j 0)
/-- R207: word 0 of a record. -/
def recordWord (kind et nch rt len : Nat) : Nat := kind * 2 ^ 60 + et * 2 ^ 56 + nch * 2 ^ 52 + rt * 2 ^ 48 + len
/-- R207, R208: what word 0 of a well-formed record may say. -/
def WordOk (kind et nch rt len : Nat) : Prop :=
  et ≤ 8 ∧ (if et = 8 then rt ≤ 7 else rt = 0) ∧ len < 2 ^ 48 ∧ ((kind = 0 ∧ nch = 0 ∧ 1 ≤ len ∧ len ≤ 256) ∨ (kind = 1 ∧ 2 ≤ nch ∧ nch ≤ 4) ∨ (kind = 2 ∧ nch = 1))
/-- R207, R208: a LIVE rule with its record. -/
def Rule (s : State) (id : Nat) (q : GQuery) (n : Q) (kind et rt len w1 : Nat) (kids : List Q) : Prop :=
  ∃ base l, Cached s q n base l ∧ base.toNat % 128 = 0 ∧ WordOk kind et kids.length rt len ∧
    Words s id q base (recordWord kind et kids.length rt len :: w1 :: kids.flatMap (fun c => [c.toNat % 2 ^ 64, c.toNat / 2 ^ 64]) ++ List.replicate (14 - 2 * kids.length) 0) ∧
    (∀ c ∈ kids, nmClass c = 1 ∧ nmChip c = Config.chipTag.toNat) ∧
    (kind = 0 → w1 < 2 ^ 64 ∧ w1 % elemBytes (if et = 8 then rt else et) = 0) ∧ (kind = 2 → 2 ≤ w1 ∧ w1 ≤ 2 ^ 32)
/-- R219, R220: the serving tile's table answers a key. -/
def TableHas (s : State) (q : GQuery) (rule op bind par : Nat) (e : GEntry) : Prop :=
  ((s.dev.tile (unitOf q.core)).rrt.getD (gramSet rule op bind par) []).find? (fun x => x.is rule op bind par) = some e
/-- R220: no entry answers the key. -/
def TableMisses (s : State) (q : GQuery) (rule op bind par : Nat) : Prop :=
  (∀ e, ¬TableHas s q rule op bind par e) ∧ (op = 0 → ∀ e, ¬TableHas s q rule 8 0 0 e)
/-- R234: every table entry of a rule says L, ETYPE and RTYPE; where the table holds none, its record does. -/
def Info (s : State) (id : Nat) (q : GQuery) (n : Q) (len et rt : Nat) : Prop :=
  nmChip n = Config.chipTag.toNat ∧
  (∀ x ∈ (s.dev.tile (unitOf q.core)).rrt, ∀ e ∈ x.2, e.rule = nmSeq n → e.sum.len = len ∧ e.et = et ∧ (et = 8 → e.sum.s2 = rt)) ∧
  ((∃ x ∈ (s.dev.tile (unitOf q.core)).rrt, ∃ e ∈ x.2, e.rule = nmSeq n) ∨ ∃ kind w1 kids, Rule s id q n kind et rt len w1 kids)
/-- R211: the root a query walks, and of a GRAM its view: scan, SOP, BIAS. -/
def Viewed (s : State) (id : Nat) (q : GQuery) (root : Q) (scan : Bool) (sop bias len et rt : Nat) : Prop :=
  (nmClass q.name = 1 ∧ root = q.name ∧ scan = false) ∨
  (nmClass q.name = 2 ∧ nmClass root = 1 ∧ Info s id q root len et rt ∧ len < 2 ^ 48 ∧ et ≤ 8 ∧ ∃ base l total, Cached s q q.name base l ∧ base.toNat % 64 = 0 ∧
    Words s id q base [root.toNat % 2 ^ 64, root.toNat / 2 ^ 64, (if scan then 2 ^ 60 else 0) + et * 2 ^ 56 + sop * 2 ^ 51 + len, bias, total, 0, 0, 0] ∧
    if scan then sop ≤ 1 else sop = 0 ∧ bias = 0 ∧ total = 0)
/-- The walk has been made: what it found stands until its time has passed. -/
def Walked (s t : State) (id : Nat) (q : GQuery) (o : GOut) : Prop :=
  t.mem = s.mem ∧ t.dev.gramQ.get? id = some { q with away := false, out := some o } ∧ ∃ n, 6 ≤ n ∧ (⟨s.dev.cycle + n, .grammarWalk, [id, 1]⟩ : Event) ∈ t.dev.events
/-- R219, R221: the summary of a rule has been inserted, as its set's most recently used. -/
def Kept (t : State) (q : GQuery) (rule op bind par et : Nat) (comp : Bool) (z : GSum) : Prop :=
  ∃ e rest, (t.dev.tile (unitOf q.core)).rrt.getD (gramSet rule op bind par) [] = e :: rest ∧ e.rule = rule ∧ e.op = op ∧ e.bind = bind ∧ e.par = par ∧ e.et = et ∧ e.comp = comp ∧ e.sum = z
/-- R218: the binding and the parameter of GEV's keys. -/
def GQuery.keyBind (q : GQuery) (op : Nat) : Nat := if op = 10 then nmSeq q.bind else 0
def GQuery.keyPar (q : GQuery) (op : Nat) : Nat := if op = 7 then q.par.toNat else if op = 9 then q.par.toNat % (2 ^ 61 - 1) else if op = 10 then q.off % 2 ^ 64 else 0
/-- R234, R235: the descent from rule n at index i to the leaf that holds it: BODY of the leaf, index there, and with `scan` the
totals of what it passes by; the first number is the rules still allowed on the path. -/
inductive Descent (s : State) (id : Nat) (q : GQuery) (op : Nat) (scan : Bool) (et rt : Nat) : Nat → List Q → Q → Nat → Nat → Nat → List Nat → Prop
  | leaf {f : Nat} {path : List Q} {n : Q} {i len body : Nat} : n ∉ path → Rule s id q n 0 et rt len body [] → i < len → Descent s id q op scan et rt (f + 1) path n i body i []
  | cat {f : Nat} {path : List Q} {n : Q} {i len w1 : Nat} {kids : List Q} {lens : List Nat} {j i' body k : Nat} {ts us : List Nat} : n ∉ path → Rule s id q n 1 et rt len w1 kids → lens.length = kids.length →
      (∀ m, m < kids.length → Info s id q (kids.getD m 0) (lens.getD m 0) et rt) → lens.sum = len → j < kids.length → i = (lens.take j).sum + i' → i' < lens.getD j 0 →
      (if scan then ts.length = j ∧ ∀ m, m < j → kids.getD m 0 ∉ path ++ [n] ∧ ∃ e, TableHas s q (nmSeq (kids.getD m 0)) op 0 0 e ∧ e.sum.s1 = ts.getD m 0 else ts = []) →
      Descent s id q op scan et rt f (path ++ [n]) (kids.getD j 0) i' body k us → Descent s id q op scan et rt (f + 1) path n i body k (ts ++ us)
  | rpt {f : Nat} {path : List Q} {n : Q} {i len cnt : Nat} {c : Q} {l body k : Nat} {ts us : List Nat} : n ∉ path → Rule s id q n 2 et rt len cnt [c] → Info s id q c l et rt → cnt * l = len → i < len →
      (if scan = true ∧ i / l ≠ 0 then c ∉ path ++ [n] ∧ ∃ e z, TableHas s q (nmSeq c) op 0 0 e ∧ Repeated op (i / l) e.sum z ∧ ts = [z.s1] else ts = []) →
      Descent s id q op scan et rt f (path ++ [n]) c (i % l) body k us → Descent s id q op scan et rt (f + 1) path n i body k (ts ++ us)
/-- A word of a record, of y or PROGRESS goes to memory as a plain store of the query's thread: it has a journal entry (R240). -/
def StoredBy (t : State) (id : Nat) (q : GQuery) (va x : D) : Prop :=
  ∃ e j r, (t.dev.core q.core).journal.get? e = some j ∧ j.kind = .st ∧ j.size = 8 ∧ j.addr = va ∧ j.data = x ∧ j.loc = q.loc ∧ j.pc = q.pc ∧ j.orig = some r ∧ r.query = some id

end Sys2Proof.Machine

/-- R195, R225 to R238: GLEN, GEV, GIDX, GPFX, GNEW, GSCN, GMV and GRTI join the grammar unit's queue, or lose the turn when it holds
64; a class the instruction does not take, a foreign name and a misaligned area trap.
The model's own choices, no rules of the spec: log 59, log 111, log 122, log 131 and log 132. -/
def Obligations.GrammarQueries : Prop :=
  (∀ (i : Instr) (a : GAsk) (s : State) (xs : List D) (v : Dev), gramAsk i = some a → s.ready → kindOf s.core = 0 ∨ (kindOf s.core = 1 ∧ ∀ op, a.kind ≠ .ev op) →
    s.start.readGs a.srcs = some (xs, v) → (∀ r, Dst.g r ∈ a.dsts → s.start.claim r) → (∀ r, Dst.v r ∈ a.dsts → s.start.claimV r) →
    let name : Q := xs.getD 1 0 ++ xs.getD 0 0
    (nmClass name ∉ a.cls → s.canTrap → ∃ t, exec i s = .next t ∧ Trapped s t 0x10 (xs.getD 0 0) (xs.getD 1 0)) ∧
    (nmClass name ∈ a.cls → nmChip name ≠ Config.chipTag.toNat → s.canTrap → ∃ t, exec i s = .next t ∧ Trapped s t 0x20 (xs.getD 0 0) (xs.getD 1 0)) ∧
    (nmClass name ∈ a.cls → nmChip name = Config.chipTag.toNat → (a.kind = .ev 10 → nmClass (a.bind xs) = 3 ∧ nmChip (a.bind xs) = Config.chipTag.toNat) →
      (∀ va, a.area xs = some va → (winCode va = 0 ∨ vaultLoc s.core va ≠ none) → va.toNat % 64 ≠ 0 → s.canTrap → ∃ t, exec i s = .next t ∧ Trapped s t 0x05 va 0) ∧
      ((∀ va, a.area xs = some va → baseGood s va 64 ∧ ∀ k, k < 8 → ∃ x, reach s.dev s.dev.cur (va + BitVec.ofNat 64 (8 * k)) 8 8 1 = .ok x) →
        (s.gramRoom → ∃ t, exec i s = .next t ∧ GAsked s t a name xs) ∧ (¬s.gramRoom → ∃ t, exec i s = .next t ∧ Lost s t)))) ∧
  (∀ (s : State) (d : BitVec 5), s.ready → kindOf s.core ≠ 2 → s.start.claim d →
    (s.gramRoom → ∃ t, exec (.grtiAll d) s = .next t ∧ GAsked s t { srcs := [], cls := [], kind := .rti 0, dsts := [.g d] } 0 []) ∧
    (¬s.gramRoom → ∃ t, exec (.grtiAll d) s = .next t ∧ Lost s t))

/-- R148: the address is a word of the own tile's vault, and nothing stands in the way of the query's store there. -/
structure StoreHere (s : State) (id : Nat) (q : GQuery) (va : D) (off : Nat) : Prop where
  place : kindOf q.core ≠ 2 ∧ vaultLoc q.core va = some (unitOf q.core, off) ∧ off % 8 = 0
  plain : regionAttr (tileAt q.regions s.dev (unitOf q.core)) off ≠ 2
  access : grants ((s.dev.tile (unitOf q.core)).access.getD (masterOf q.core) 0) 0 true = true
  holds : (s.dev.tile (unitOf q.core)).holds = [] ∧ s.dev.resvHold = []
  reqs : ∀ r ∈ s.dev.reqs, r.2.loc ≠ q.loc
  names : ∀ r ∈ s.dev.nameQ, r.2.loc ≠ q.loc
  grams : ∀ r ∈ s.dev.gramQ, r.2.loc = q.loc → r.1 = id
  read : ∀ f ∈ s.dev.fwd, f.1 ≠ q.loc
  good : Mem.read s.mem (errKey (vaultKey (unitOf q.core) off)) = 0
/-- R207 to R221, R227 to R237, R239: a walk that finds a rule in the table takes its summary and counts a hit; one that misses reads
the rule's record: a leaf's summary is that of its elements, a CAT's the fold of its children's, an RPT's their repetition (under DOT
their fold at the columns they stand at), and is inserted, or the walk is refused where the operator does not take the type or L is
not what the children make. GLEN answers L, GIDX the element and GPFX the prefix at an index, 0 from L on; GNEW and GSCN store a GRAM
record and mint its name; GMV stores y row by row, then PROGRESS, and answers the rows done. At a walk's end the answer or fault
reaches the destinations within 6 cycles. GCMB combines and GOFS places summaries, or trap NOT_LIFTABLE; GRTQ reads a counter, and
GRTQ.CLEAR clears one of the slot's.
The model's own choices, no rules of the spec: log 57, log 58, log 61, log 111, log 112 and log 130. -/
def Obligations.GrammarResults : Prop :=
  (∀ (s : State) (id op : Nat) (q : GQuery) (e : GEntry), s.dev.args = [id, 0] → s.dev.gramQ.get? id = some q → q.kind = .ev op → op ≤ 10 → nmClass q.name = 1 →
    nmChip q.name = Config.chipTag.toNat → TableHas s q (nmSeq q.name) op (q.keyBind op) (q.keyPar op) e →
    ∃ t, exec .grammarWalk s = .next t ∧ t.mem = s.mem ∧ t.dev.gramQ.get? id = some { q with away := false, out := some (.v e.sum) } ∧ (⟨s.dev.cycle + 26, .grammarWalk, [id, 1]⟩ : Event) ∈ t.dev.events ∧
      (t.dev.thread q.loc).hits = min ((s.dev.thread q.loc).hits + 1) (2 ^ 32 - 1) ∧ (t.dev.tile (unitOf q.core)).gcount[0] = ((s.dev.tile (unitOf q.core)).gcount[0] + 1) % 2 ^ 64) ∧
  (∀ (s : State) (id : Nat) (q : GQuery) (e : GEntry), WalksAlone s id q → q.kind = .ev 0 → nmClass q.name = 1 → nmChip q.name = Config.chipTag.toNat →
    (∀ x, ¬TableHas s q (nmSeq q.name) 0 0 0 x) → TableHas s q (nmSeq q.name) 8 0 0 e → ∃ t, exec .grammarWalk s = .next t ∧ Walked s t id q (.v ⟨e.sum.len, e.sum.s1, e.et, 0⟩)) ∧
  (∀ (s : State) (id op et rt len sop bias w1 kind : Nat) (q : GQuery) (root : Q) (kids : List Q) (xb xl : D), WalksAlone s id q → q.kind = .ev op → op ≤ 10 → nmChip root = Config.chipTag.toNat →
    Viewed s id q root false sop bias len et rt → Rule s id q root kind et rt len w1 kids → TableMisses s q (nmSeq root) op (q.keyBind op) (q.keyPar op) → (op = 10 → Cached s q q.bind xb xl) →
    let bind := q.keyBind op
    let par := q.keyPar op
    let found := fun (z : GSum) (comp : Bool) => ∃ t, exec .grammarWalk s = .next t ∧ Walked s t id q (.v z) ∧ Kept t q (nmSeq root) op bind par et comp z ∧
      (t.dev.thread q.loc).misses = min ((s.dev.thread q.loc).misses + 1) (2 ^ 32 - 1)
    let hit := fun (c : Q) (p : Nat) (e : GEntry) => c ≠ root ∧ TableHas s q (nmSeq c) op bind p e ∧ e.et = et ∧ (et = 8 → e.sum.s2 = rt)
    (¬LiftTakes op et → ∃ t, exec .grammarWalk s = .next t ∧ Walked s t id q (.bad ⟨0x11, loHalf root, if op = 10 ∨ et = 8 then 3 else 2, false⟩)) ∧
    (∀ raw cols : List Nat, LiftTakes op et → kind = 0 → raw.length = len → (∀ k, k < len → Plain s id q (ofN (w1 + elemBytes (if et = 8 then rt else et) * k)) (elemBytes (if et = 8 then rt else et)) (raw.getD k 0)) →
      (op = 10 → cols.length = len ∧ q.off + len ≤ xl.toNat / 8 ∧ ∀ k, k < len → Plain s id q (xb + ofN (8 * (q.off + k))) 8 (cols.getD k 0)) →
      ∃ z, LeafSum op (if et = 8 then rt else et) par (raw.map (elem64 (if et = 8 then rt else et))) cols z ∧ found z false) ∧
    (∀ (e : GEntry) (es : List GEntry), LiftTakes op et → kind = 1 → es.length + 1 = kids.length →
      (∀ j, j < kids.length → hit (kids.getD j 0) (if op = 10 then (q.off + (((e :: es).take j).map (·.sum.len)).sum) % 2 ^ 64 else par) ((e :: es).getD j e)) →
      (((e :: es).map (·.sum.len)).sum = len → ∃ z, Folded op e.sum (es.map (·.sum)) z ∧ found z true) ∧
      (((e :: es).map (·.sum.len)).sum % 2 ^ 64 ≠ len → (∀ x ∈ e :: es, x.sum.len < 2 ^ 64) → ∃ t, exec .grammarWalk s = .next t ∧ Walked s t id q (.bad ⟨0x12, loHalf root, 0x13, false⟩))) ∧
    (∀ (c : Q) (e : GEntry), LiftTakes op et → op ≠ 10 → kind = 2 → kids = [c] → hit c par e →
      (w1 * e.sum.len = len → ∃ z, Repeated op w1 e.sum z ∧ found z true) ∧
      (w1 * e.sum.len ≠ len → ∃ t, exec .grammarWalk s = .next t ∧ Walked s t id q (.bad ⟨0x12, loHalf root, 0x13, false⟩))) ∧
    (∀ (c : Q) (e : GEntry) (es : List GEntry), op = 10 → et = 8 → kind = 2 → kids = [c] → es.length + 1 = w1 → w1 * e.sum.len = len →
      (∀ k, k < w1 → hit c ((q.off + k * e.sum.len) % 2 ^ 64) ((e :: es).getD k e)) → ∃ z, Folded op e.sum (es.map (·.sum)) z ∧ found z true)) ∧
  (∀ (s : State) (id et rt len sop bias i : Nat) (q : GQuery) (root : Q) (scan : Bool), WalksAlone s id q → q.kind = .idx ∨ q.kind = .pfx → q.par.toNat = i → (q.kind = .pfx → scan = false) →
    Viewed s id q root scan sop bias len et rt → Info s id q root len et rt →
    let sum := if scan then sop else if 2 ≤ et then 1 else 0
    let add := fun x y => if sum = 1 then sum64 x y else (x + y) % 2 ^ 64
    let vt := if et = 8 then rt else et
    ((q.kind = .pfx ∨ scan = true) → et = 8 → ∃ t, exec .grammarWalk s = .next t ∧ Walked s t id q (.bad ⟨0x11, loHalf root, 3, false⟩)) ∧
    (et ≠ 8 ∨ (q.kind = .idx ∧ scan = false) → len ≤ i → ∃ t, exec .grammarWalk s = .next t ∧ Walked s t id q (.g 0)) ∧
    (∀ body k x, q.kind = .idx → scan = false → i < len → Descent s id q sum false et rt 64 [] root i body k [] → Plain s id q (ofN (body + k * elemBytes vt)) (elemBytes vt) x →
      ∃ t, exec .grammarWalk s = .next t ∧ Walked s t id q (.g (ofN (elem64 vt x)))) ∧
    (∀ body k ts (raw : List Nat), q.kind = .pfx ∨ scan = true → et ≠ 8 → i < len → Descent s id q sum true et rt 64 [] root i body k ts → raw.length = k + 1 →
      (∀ j, j ≤ k → Plain s id q (ofN (body + elemBytes et * j)) (elemBytes et) (raw.getD j 0)) →
      ∃ t, exec .grammarWalk s = .next t ∧ Walked s t id q (.g (ofN (leftFold add ((if scan then [bias] else []) ++ ts ++ raw.map (elem64 et))))))) ∧
  (∀ (s : State) (id kind et nch rt len : Nat) (q : GQuery) (base l : D), WalksAlone s id q → nmClass q.name = 1 → Cached s q q.name base l → base.toNat % 128 = 0 → WordOk kind et nch rt len →
    Plain s id q base 8 (recordWord kind et nch rt len) →
    (q.kind = .len → ∃ t, exec .grammarWalk s = .next t ∧ Walked s t id q (.g (ofN len))) ∧
    (q.kind = .new → ∃ t, exec .grammarWalk s = .next t ∧ Walked s t id q (.record [loHalf q.name, hiHalf q.name, ofN (et * 2 ^ 56 + len), 0, 0, 0, 0, 0]))) ∧
  (∀ (s : State) (id view et sop len : Nat) (q : GQuery) (base l : D), WalksAlone s id q → nmClass q.name = 2 → q.kind = .len → Cached s q q.name base l → base.toNat % 64 = 0 → view ≤ 1 → et ≤ 8 → sop ≤ view →
    len < 2 ^ 48 → Plain s id q (base + 16) 8 (view * 2 ^ 60 + et * 2 ^ 56 + sop * 2 ^ 51 + len) → ∃ t, exec .grammarWalk s = .next t ∧ Walked s t id q (.g (ofN len))) ∧
  (∀ (s : State) (id et rt len sop bias : Nat) (q : GQuery) (root : Q), WalksAlone s id q → q.kind = .scn → Viewed s id q root false sop bias len et rt → Info s id q root len et rt →
    let sum := if 2 ≤ et then 1 else 0
    (et = 8 → ∃ t, exec .grammarWalk s = .next t ∧ Walked s t id q (.bad ⟨0x11, loHalf root, 3, false⟩)) ∧
    (∀ e, et ≤ 7 → TableHas s q (nmSeq root) sum 0 0 e → ∃ t, exec .grammarWalk s = .next t ∧
      Walked s t id q (.record [loHalf root, hiHalf root, ofN (2 ^ 60 + et * 2 ^ 56 + sum * 2 ^ 51 + len), 0, ofN e.sum.s1, 0, 0, 0]))) ∧
  (∀ (s : State) (id rows cnt out col : Nat) (q : GQuery) (names : List Q) (es : List GEntry), WalksAlone s id q → q.kind = .mv → (∃ old, Words s id q q.area [rows, cnt, out, col, old, 0, 0, 0]) →
    1 ≤ cnt → cnt ≤ 65536 → col < 2 ^ 48 → rows % 16 = 0 → out % 8 = 0 → es.length ≤ cnt → names.length = min cnt (es.length + 1) →
    (∀ r, r < names.length → Words s id q (ofN (rows + 16 * r)) [(names.getD r 0).toNat % 2 ^ 64, (names.getD r 0).toNat / 2 ^ 64]) →
    (∀ r, r < es.length → nmClass (names.getD r 0) = 1 ∧ nmChip (names.getD r 0) = Config.chipTag.toNat ∧ ∃ e, es[r]? = some e ∧ TableHas s q (nmSeq (names.getD r 0)) 10 (nmSeq q.name) col e) →
    (es.length = cnt → ∃ t, exec .grammarWalk s = .next t ∧ Walked s t id q (.rows (ofN out) (es.map fun e => ofN e.sum.s1) 0 none)) ∧
    (es.length < cnt → nmClass (names.getD es.length 0) ≠ 1 → ∃ t, exec .grammarWalk s = .next t ∧
      Walked s t id q (.rows (ofN out) (es.map fun e => ofN e.sum.s1) 0 (some ⟨0x12, loHalf (names.getD es.length 0), 0x16, false⟩)))) ∧
  (∀ (s : State) (id : Nat) (q : GQuery) (ds : List Dst), s.dev.args = [id, 1] → s.dev.gramQ.get? id = some q → s.dev.arrs.get? id = some ⟨q.loc, ds.map fun x => (x, 0), 0, false, none, [], true⟩ →
    let free := if q.core = coreOf q.loc ∨ kindOf q.core = 2 then (List.range 32).countP fun e => ((s.dev.core q.core).journal.get? e).isNone else 0
    (∀ x, q.out = some (.g x) → ∃ t, exec .grammarWalk s = .next t ∧ t.mem = s.mem ∧ t.dev.arrs.get? id = some ⟨q.loc, ds.map fun r => (r, x.setWidth 6400), 0, false, none, [], true⟩ ∧
      (⟨s.dev.cycle + 6, .producerValueArrival, [id]⟩ : Event) ∈ t.dev.events) ∧
    (∀ x, q.out = some (.v x) → ∃ t, exec .grammarWalk s = .next t ∧ t.mem = s.mem ∧ t.dev.arrs.get? id = some ⟨q.loc, ds.map fun r => (r, (vecSum x).setWidth 6400), 0, false, none, [], true⟩ ∧
      (⟨s.dev.cycle + 6, .producerValueArrival, [id]⟩ : Event) ∈ t.dev.events) ∧
    (∀ f, q.out = some (.bad f) → f.mem = false → ∃ t, exec .grammarWalk s = .next t ∧ t.mem = s.mem ∧ Failed s t id 6 ⟨q.pc, f.cause, f.tval, f.reason, false⟩) ∧
    (queryStoring s.dev id q.loc = false →
      (∀ ws, q.out = some (.record ws) → ws ≠ [] → ws.length ≤ 8 → ws.length ≤ free → q.parts.length = 8 → (∀ p ∈ q.parts, p.place ≠ none ∧ p.size = 8) →
        ∃ t, exec .grammarWalk s = .next t ∧ t.mem = s.mem ∧ t.dev.gramQ.get? id = some { q with out := some (.record []) } ∧ (⟨s.dev.cycle + 4, .grammarWalk, [id, 1]⟩ : Event) ∈ t.dev.events ∧
          ∀ k, k < ws.length → StoredBy t id q (q.parts.getD (8 - ws.length + k) ⟨0, 0, 0, 0, none, 0, 0⟩).va (ws.getD k 0)) ∧
      (∀ (ws : List D) (offs : List Nat), q.out = some (.record ws) → ws.length ≤ 8 → q.parts.length = 8 → s.Inv →
        (∀ k, k < ws.length → let p := q.parts.getD (8 - ws.length + k) ⟨0, 0, 0, 0, none, 0, 0⟩
          p.place = none ∧ p.size = 8 ∧ StoreHere s id q p.va (offs.getD k 0)) → (∀ j k, j < k → k < ws.length → offs.getD j 0 + 8 ≤ offs.getD k 0) →
        ∃ t, exec .grammarWalk s = .next t ∧ t.dev.mint.queue = s.dev.mint.queue ++ [(dieOf q.core, .nnew id)] ∧
          ∀ k, k < ws.length → rd64 t.mem t.dev (vaultKey (unitOf q.core) (offs.getD k 0)) = ws.getD k 0) ∧
      (q.out = some (.record []) → ∃ t, exec .grammarWalk s = .next t ∧ t.mem = s.mem ∧ t.dev.mint.queue = s.dev.mint.queue ++ [(dieOf q.core, .nnew id)] ∧
        ∃ w, t.dev.nameQ.get? id = some w ∧ w.kind = .new false ∧ w.req = 2 ∧ w.arg = q.area ∧ w.loc = q.loc ∧ w.pc = q.pc ∧ w.user = q.user) ∧
      (∀ out y ys n err p, q.out = some (.rows out (y :: ys) n err) → rowPart s.mem { s.dev with wbuf := [], wclear := [] } id q (out + ofN (8 * n)) y = .ok p → p.place ≠ none → 1 ≤ free →
        ∃ t, exec .grammarWalk s = .next t ∧ t.mem = s.mem ∧ t.dev.gramQ.get? id = some { q with out := some (.rows out ys (n + 1) err) } ∧ StoredBy t id q (out + ofN (8 * n)) y) ∧
      (∀ out y ys n err p off, q.out = some (.rows out (y :: ys) n err) → rowPart s.mem { s.dev with wbuf := [], wclear := [] } id q (out + ofN (8 * n)) y = .ok p → p.place = none → s.Inv →
        StoreHere s id q (out + ofN (8 * n)) off → ∃ t, exec .grammarWalk s = .next t ∧ t.dev.gramQ.get? id = some { q with out := some (.rows out ys (n + 1) err) } ∧
          rd64 t.mem t.dev (vaultKey (unitOf q.core) off) = y) ∧
      (∀ out n err, q.out = some (.rows out [] n err) → ∃ t, exec .grammarWalk s = .next t ∧ t.mem = s.mem ∧ t.dev.gramQ.get? id = some { q with out := some (.tally n err) }) ∧
      (∀ n, q.out = some (.progress n none) → ∃ t, exec .grammarWalk s = .next t ∧ t.mem = s.mem ∧ t.dev.arrs.get? id = some ⟨q.loc, ds.map fun r => (r, BitVec.ofNat 6400 n), 0, false, none, [], true⟩ ∧
        (⟨s.dev.cycle + 6, .producerValueArrival, [id]⟩ : Event) ∈ t.dev.events) ∧
      (∀ n f, q.out = some (.progress n (some f)) → f.mem = false → ∃ t, exec .grammarWalk s = .next t ∧ t.mem = s.mem ∧ Failed s t id 6 ⟨q.pc, f.cause, f.tval, f.reason, false⟩)) ∧
    (∀ n err, q.out = some (.tally n err) → q.parts.length = 8 → (∀ p ∈ q.parts, p.place ≠ none ∧ p.size = 8) → 1 ≤ free → ∃ t, exec .grammarWalk s = .next t ∧ t.mem = s.mem ∧
      t.dev.gramQ.get? id = some { q with out := some (.progress n err) } ∧ StoredBy t id q (q.parts.getD 4 ⟨0, 0, 0, 0, none, 0, 0⟩).va (ofN n)) ∧
    (∀ n err off, q.out = some (.tally n err) → q.parts.length = 8 → (∀ p ∈ q.parts, p.place = none ∧ p.size = 8) → s.Inv → StoreHere s id q (q.parts.getD 4 ⟨0, 0, 0, 0, none, 0, 0⟩).va off →
      ∃ t, exec .grammarWalk s = .next t ∧ t.dev.gramQ.get? id = some { q with out := some (.progress n err) } ∧ rd64 t.mem t.dev (vaultKey (unitOf q.core) off) = ofN n)) ∧
  (∀ (s : State) (id : Nat) (q : GQuery) (a : Arr) (f : DFault) (out : D) (ys : List D) (n : Nat) (err : Option GFault), s.dev.args = [id, 1] → s.dev.gramQ.get? id = some q →
    s.dev.arrs.get? id = some a → a.fault = some f → queryStoring s.dev id q.loc = false → q.out = some (.rows out ys n err) →
    ∃ t, exec .grammarWalk s = .next t ∧ t.mem = s.mem ∧ t.dev.gramQ.get? id = some { q with out := some (.tally (n - 1) none) }) ∧
  (∀ (s : State) (d a b l : BitVec 5) (x y : V), s.vectorReady [a, b] [x, y] 0 (BitVec.allOnes 64) → s.start.claimV d →
    let n := fun k => laneOf 64 x k
    let k := fun k => laneOf 64 y k
    let takes := l = 8 ∨ l = 9 ∨ (n 2 = k 2 ∧ if l = 10 then n 2 ≤ 7 else LiftTakes l.toNat (n 2))
    (10 < l.toNat → s.canTrap → ∃ t, exec (.gcmb d a b l) s = .next t ∧ Trapped s t 0x11 (l.setWidth 64) 1) ∧
    (l.toNat ≤ 10 → ¬takes → s.canTrap → ∃ t, exec (.gcmb d a b l) s = .next t ∧ Trapped s t 0x11 (l.setWidth 64) (if n 2 = 8 ∧ k 2 = 8 ∧ l ≠ 10 then 3 else 2)) ∧
    (l.toNat ≤ 10 → takes → ∃ t z w, exec (.gcmb d a b l) s = .next t ∧ t.mem = s.mem ∧ t.me.vr d = .ofVal z ∧ (∀ r, r ≠ d → t.me.vr r = s.me.vr r) ∧
      t.me.g = s.me.g ∧ t.me.fpm = s.me.fpm ∧ t.me.pc = s.me.pc + s.dev.len ∧ Combined l.toNat ⟨n 0, n 1, n 2, n 3⟩ ⟨k 0, k 1, k 2, k 3⟩ w ∧ Summary z w.len w.s1 w.s2 w.s3)) ∧
  (∀ (s : State) (d a b l : BitVec 5) (m n : Bool) (x : V) (xs : List D) (v : Dev), s.vectorReady [d] [x] 0 (BitVec.allOnes 64) →
    s.start.readGs (a :: if l = 9 then [b] else []) = some (xs, v) →
    let o := (xs.getD 0 0).toNat
    let k := fun k => laneOf 64 x k
    (10 < l.toNat → s.canTrap → ∃ t, exec (.gofs d a b m n l) s = .next t ∧ Trapped s t 0x11 (l.setWidth 64) 1) ∧
    (l = 10 → s.canTrap → ∃ t, exec (.gofs d a b m n l) s = .next t ∧ Trapped s t 0x11 10 3) ∧
    (l.toNat < 10 → ∃ t z, exec (.gofs d a b m n l) s = .next t ∧ t.mem = s.mem ∧ t.me.vr d = .ofVal z ∧ (∀ r, r ≠ d → t.me.vr r = s.me.vr r) ∧ t.me.g = s.me.g ∧
      t.me.pc = s.me.pc + s.dev.len ∧
      (l.toNat < 8 → Summary z (k 0) (k 1) (k 2) (k 3)) ∧ (l = 8 → Summary z (k 0) (k 1) ((k 2 + o * k 1) % 2 ^ 64) (k 3)) ∧
      (l = 9 → Summary z (k 0) (k 1 * powMod (xs.getD 1 0).toNat o % (2 ^ 61 - 1)) (k 2) (k 3)))) ∧
  (∀ (s : State) (d : BitVec 5) (sel : BitVec 3) (c : Bool), s.ready → kindOf s.core ≠ 2 → s.start.claim d →
    let asked := ∃ a ∈ s.dev.arrs, a.2.loc = s.dev.cur ∧ mine s.dev s.dev.cur a.1 = true ∧ a.2.gram = true
    let tile := s.dev.tile (unitOf (coreOf s.dev.cur))
    (sel.toNat < 2 → asked → ∃ t, exec (.grtq d sel) s = .next t ∧ Lost s t) ∧
    (2 ≤ sel.toNat ∨ ¬asked → ∃ t, exec (.grtq d sel) s = .next t ∧
      Later s t d (match sel.toNat with | 0 => ofN s.me.hits | 1 => ofN s.me.misses | 7 => ofN (gramValid tile) | k => ofN (tile.gcount.toArray.getD (k - 2) 0)) 32 32) ∧
    (asked → ∃ t, exec (.grtqClear d c) s = .next t ∧ Lost s t) ∧
    (¬asked → ∃ t, exec (.grtqClear d c) s = .next t ∧ t.mem = s.mem ∧ t.dev.last = .issued ∧
      t.me = (if c then { s.me.pendG d s.dev.nextId with misses := 0, pc := s.me.pc + s.dev.len } else { s.me.pendG d s.dev.nextId with hits := 0, pc := s.me.pc + s.dev.len }) ∧
      t.dev.arrs.get? s.dev.nextId = some ⟨s.dev.cur, [(.g d, (ofN (if c then s.me.misses else s.me.hits)).setWidth 6400)], 0, false, none, [], false⟩))

/-! # Threads and launches -/

namespace Sys2Proof.Machine

/-- Slot 0 of a compute core (R16). -/
abbrev State.keeper (s : State) : Prop := kindOf s.core = 0 ∧ slotOf s.dev.cur = 0
/-- No trap, no channel core (R16, R43). -/
abbrev State.unitCore (s : State) : Prop := kindOf s.core ≠ 2
/-- The mint serves its only request, with a sequence to give, and no table entry it must wait for (R155, R187 to R189). -/
abbrev State.minting (s : State) (die : Nat) (r : MintReq) : Prop :=
  s.Inv ∧ s.dev.mint.queue = [(die, r)] ∧ die < 4 ∧ s.dev.mint.writing = false ∧ s.dev.mint.stopped = false ∧
    (s.dev.mint.next % 2 ^ 32 ≠ 0 ∨ s.dev.mint.next / 2 ^ 32 ≤ s.dev.mint.recorded) ∧ mintHeld s.mem s.dev die r = false
/-- The columns and rows of a launch's grid (R289). -/
def Launch.grid (l : Launch) : Nat × Nat := (fieldN (l.words.getD 4 0) 31 16, fieldN (l.words.getD 4 0) 47 32)
/-- R293: group `g` of a task is on its way into row `k`. -/
def Loading (t : State) (l : Launch) (task g k : Nat) : Prop :=
  (t.dev.row k).state = 1 ∧ (t.dev.row k).launch = some l.name ∧ (t.dev.row k).task = task ∧ (t.dev.row k).group = g ∧ (t.dev.row k).ctx = l.ctx ∧
    (t.dev.row k).gang = bitN l.w3 6 ∧ (t.dev.row k).det = dDet l.w3 ∧ ∃ n, (⟨n, .rowLoadDone, [k]⟩ : Event) ∈ t.dev.events

end Sys2Proof.Machine

/-- R16, R31, R104, R284 to R286, R305: SPWN asks the mint for a thread in the lowest free slot, or answers 1 or 5, and the mint's
grant starts it with the registers of R31; REAP takes an exit record and frees its name; SLST reads a slot's state word; elsewhere
than in slot 0 of a compute core they trap. TEND waits for what the thread has in flight, then vacates the slot and leaves a record
where SPWN started the thread; both wait where that entry cannot be reached.
The model's own choices, no rules of the spec: log 78 and log 82 (statuses, ends of threads). -/
def Obligations.Threads : Prop :=
  (∀ (s : State) (d a b : BitVec 5) (m n : Bool) (xs : List D) (v : Dev), s.ready → s.start.readGs [a, b, b + 1] = some (xs, v) → s.start.claim d → s.start.claim (d + 1) →
    let ca := coreOf s.dev.cur
    (¬s.keeper → s.canTrap → ∃ t, exec (.spwn d a b m n) s = .next t ∧ Trapped s t 0x1F ((encode (.spwn d a b m n)).setWidth 64) 0) ∧
    (s.keeper → (s.dev.row (rowKeyOf ca)).gang = false → (s.dev.row (rowKeyOf ca)).det = false →
      (canStart s.dev ca = false ∨ lowestFree s.dev ca = none → ∃ t dt, exec (.spwn d a b m n) s = .next t ∧ 24 ≤ dt ∧ dt ≤ 64 ∧ Replied s t s.dev.nextId dt s.dev.cur [(d, 1), (d + 1, 0)] ∧
        t.dev.mint = s.dev.mint) ∧
      (∀ k, canStart s.dev ca = true → lowestFree s.dev ca = some k →
        (s.dev.mint.stopped = true → ∃ t dt, exec (.spwn d a b m n) s = .next t ∧ 24 ≤ dt ∧ dt ≤ 64 ∧ Replied s t s.dev.nextId dt s.dev.cur [(d, 5), (d + 1, 0)] ∧ t.dev.mint = s.dev.mint) ∧
        (s.dev.mint.stopped = false → ∃ t r, exec (.spwn d a b m n) s = .next t ∧ t.mem = s.mem ∧ t.dev.last = .issued ∧
          t.me = { (s.me.pendG d s.dev.nextId).pendG (d + 1) s.dev.nextId with pc := s.me.pc + s.dev.len } ∧ t.dev.mint.queue = s.dev.mint.queue ++ [(dieOf ca, .start r)] ∧
          r.loc = ca * 16 + k ∧ r.how = .spwn ∧ r.pc = xs.getD 0 0 ∧ r.a1 = xs.getD 1 0 ∧ r.a2 = xs.getD 2 0 ∧ r.priv = false ∧ r.arr = some s.dev.nextId ∧ r.lpb = s.me.lpb ∧ r.lpl = s.me.lpl ∧
          r.rnc = launchSeed s.dev s.me.launch ∧ r.launch = s.me.launch ∧ r.hgrp = s.me.hgrp)))) ∧
  (∀ (s : State) (die k i : Nat) (r : StartReq), s.minting die (.start r) → (s.dev.thread r.loc).st = .vacant → bitN (s.dev.core (coreOf r.loc)).sab 0 = true →
    freeEntryFor s.mem s.dev (dieOf (coreOf r.loc)) 4 s.dev.mint.next = some k → freePool s.dev (coreOf r.loc) = some i →
    let name := mkName 4 s.dev.mint.next
    ∃ t, exec .mintIssue s = .next t ∧ t.dev.mint.next = s.dev.mint.next + 1 ∧ entryWord t k 0 = name.setWidth 64 ∧ entryWord t k 1 = (name >>> 64).setWidth 64 ∧
      fieldN (entryWord t k 2) 63 62 = 1 ∧ entryWord t k 4 = ofN r.loc ∧
      let u := t.dev.thread r.loc
      u.st = .run ∧ u.name = name ∧ u.pc = r.pc ∧ u.gr 1 = .ofVal r.a1 ∧ u.gr 2 = .ofVal r.a2 ∧ (∀ j : BitVec 5, j ≠ 1 → j ≠ 2 → u.gr j = .ofVal 0) ∧ u.fpm = 1 ∧ u.rnc = r.rnc ∧
        u.tvec = (s.dev.core (coreOf r.loc)).dtv ∧ u.lpb = r.lpb ∧ u.lpl = r.lpl ∧ u.priv = r.priv ∧ u.pool = some i ∧ u.area = areaOf (s.dev.core (coreOf r.loc)).sab i) ∧
  (∀ (s : State) (d a : BitVec 5) (m : Bool) (xs : List D) (v : Dev), s.ready → s.start.readGs [a] = some (xs, v) → s.start.space d →
    let ca := coreOf s.dev.cur
    let k := fieldN (xs.getD 0 0) 3 0
    (¬s.keeper → s.canTrap → ∀ i ∈ [Instr.reap d a m, .slst d a m], ∃ t, exec i s = .next t ∧ Trapped s t 0x1F ((encode i).setWidth 64) 0) ∧
    (s.keeper → s.start.space (d + 1) →
      (k = 0 → exec (.reap d a m) s = .next ⟨((v.writeG d 0).writeG (d + 1) 3).next, s.mem⟩) ∧
      (k ≠ 0 → (s.dev.core ca).exits.get? k = none →
        exec (.reap d a m) s = .next ⟨((v.writeG d 0).writeG (d + 1) (if (s.dev.thread (ca * 16 + k)).st = .vacant then 2 else 1)).next, s.mem⟩) ∧
      (∀ e, k ≠ 0 → (s.dev.core ca).exits.get? k = some e → tableHeld s.dev (dieOf ca) e.name = true → ∃ t, exec (.reap d a m) s = .next t ∧ Lost s t) ∧
      (∀ e, s.Inv → k ≠ 0 → (s.dev.core ca).exits.get? k = some e → tableHeld s.dev (dieOf ca) e.name = false → ∃ t, exec (.reap d a m) s = .next t ∧
        t.me = ((v.writeG d e.value).writeG (d + 1) (ofN (e.cause % 256 * 256))).next.me ∧ (t.dev.core ca).exits = (s.dev.core ca).exits.erase k ∧
        ∀ key, (lookup s.mem s.dev (dieOf ca) e.name).2 = some key → fieldN (entryWord t key 2) 63 62 = 0)) ∧
    (s.keeper → ∃ w, exec (.slst d a m) s = .next ⟨(v.writeG d w).next, s.mem⟩ ∧
      let u := s.dev.thread (ca * 16 + k)
      (∀ x ∈ [(SlotState.vacant, 0), (.run, 1), (.parked, 2), (.faulted, 3), (.lent, 4), (.halted, 5)], u.st = x.1 → fieldN w 3 0 = x.2) ∧
      (bitN w 5 = true ↔ (s.dev.core ca).exits.get? k ≠ none) ∧ (bitN w 4 = true → (s.dev.row (rowKeyOf ca)).det = true) ∧ (u.st ≠ .vacant → fieldN w 63 32 = nmSeq u.name % 2 ^ 32))) ∧
  (∀ (s : State) (a : BitVec 5) (m : Bool) (xs : List D) (v : Dev), s.ready → s.start.readGs [a] = some (xs, v) →
    let ca := coreOf s.dev.cur
    (waitsForPage s.dev s.dev.cur = false → (∃ x ∈ s.dev.arrs, x.2.loc = s.dev.cur ∧ mine s.dev s.dev.cur x.1 = true) → ∃ t, exec (.tend a m) s = .next t ∧ Lost s t) ∧
    (s.quiet → (∀ x ∈ s.dev.arrs, x.2.loc ≠ s.dev.cur) → (∀ x ∈ s.dev.nameQ, x.2.loc ≠ s.dev.cur) → endHeld s.dev s.dev.cur = true → ∃ t, exec (.tend a m) s = .next t ∧ Lost s t) ∧
    (s.Inv → s.quiet → (∀ x ∈ s.dev.arrs, x.2.loc ≠ s.dev.cur) → (∀ x ∈ s.dev.nameQ, x.2.loc ≠ s.dev.cur) → endHeld s.dev s.dev.cur = false → s.dev.lentOut.get? s.dev.cur = none →
      (s.dev.tile (unitOf ca)).array.holder ≠ some (lessee s.dev s.dev.cur) → ∃ t, exec (.tend a m) s = .next t ∧ t.dev.threads = s.dev.threads.erase s.dev.cur ∧
        (s.me.start = .spwn → (t.dev.core ca).exits.get? (slotOf s.dev.cur) = some ⟨xs.getD 0 0, s.me.name, 0⟩) ∧
        (s.me.start ≠ .spwn → (t.dev.core ca).exits = (s.dev.core ca).exits) ∧
        (kindOf ca = 0 → (t.dev.row (rowKeyOf ca)).live = (s.dev.row (rowKeyOf ca)).live - 1 ∧ (⟨s.dev.cycle, .rowFree, [rowKeyOf ca]⟩ : Event) ∈ t.dev.events) ∧
        ∀ key, (lookup s.mem s.dev (dieOf ca) s.me.name).2 = some key → fieldN (entryWord t key 2) 63 62 = if s.me.start = .spwn then 2 else 0))

/-- R28, R287, R288, R291, R292, R294, R295, R297: LNCH hands the launch unit its descriptor's address and rights; AMSG sends a
message that starts a thread; LWT reads a launch's status or waits for it; WDQ asks the distributor, whose answer is the next point
of the grid, or all ones; TBND reads the thread's lane; ENCL reads the energy class and lowers it, never raises it.
The model's own choices, no rules of the spec: log 80, log 81, log 83 and log 85. -/
def Obligations.TaskInstructions : Prop :=
  (∀ (s : State) (d a : BitVec 5) (m : Bool) (xs : List D) (v : Dev), s.ready → s.unitCore → s.start.readGs [a] = some (xs, v) → s.start.claim d → s.start.claim (d + 1) →
    let va := xs.getD 0 0
    ((winCode va = 0 ∨ vaultLoc s.core va ≠ none) → va.toNat % 64 ≠ 0 → s.canTrap → ∃ t, exec (.lnch d a m) s = .next t ∧ Trapped s t 0x05 va 0) ∧
    (∀ x, reach s.dev s.dev.cur va 64 64 0 = .ok x → ∃ t e, exec (.lnch d a m) s = .next t ∧ t.mem = s.mem ∧ t.dev.last = .issued ∧
      t.me = { (s.me.pendG d s.dev.nextId).pendG (d + 1) s.dev.nextId with pc := s.me.pc + s.dev.len } ∧ t.dev.entries.get? s.dev.nextId = some e ∧ e.die = dieOf (coreOf s.dev.cur) ∧
      e.loc = s.dev.cur ∧ e.arr = some s.dev.nextId ∧ e.addr = dieAddress (coreOf s.dev.cur) va ∧ e.parent = s.me.launch ∧ e.user = !s.me.priv ∧
      (⟨s.dev.cycle + 1, .launchAccept, [s.dev.nextId]⟩ : Event) ∈ t.dev.events)) ∧
  (∀ (s : State) (d a b : BitVec 5) (m n : Bool) (xs : List D) (v : Dev), s.ready → s.unitCore → s.me.mig = none → s.start.readGs [a, b, b + 1, b + 2, b + 3, d] = some (xs, v) →
    let ca := coreOf s.dev.cur
    let dst := fieldN (xs.getD 0 0) 14 0
    (freeEntry (s.dev.core ca) = none → ∃ t, exec (.amsg d a b m n) s = .next t ∧ Lost s t) ∧
    (∀ e, freeEntry (s.dev.core ca) = some e → ∃ t j k, exec (.amsg d a b m n) s = .next t ∧ t.mem = s.mem ∧ t.me = { s.me with pc := s.me.pc + s.dev.len } ∧
      (t.dev.core ca).journal.get? e = some j ∧ j.kind = .amsg ∧ j.loc = s.dev.cur ∧ j.addr = ofN dst ∧ j.data = xs.getD 1 0 ∧ j.req = s.dev.nextId ∧ j.refused = none ∧ j.placed = false ∧
      j.msg.take 4 = [xs.getD 1 0, xs.getD 2 0, xs.getD 3 0, setField (xs.getD 4 0) 63 63 0] ∧ (j.msg.getD 5 0 = 1 ↔ s.me.priv = false) ∧
      (⟨s.dev.cycle + k, .messagePlacement, [ca, e, s.dev.nextId, k]⟩ : Event) ∈ t.dev.events ∧
      (⟨s.dev.cycle + 16 * max (xs.getD 5 0).toNat 1, .inboxFull, [ca, e, s.dev.nextId]⟩ : Event) ∈ t.dev.events)) ∧
  (∀ (s : State) (ca ent id back : Nat) (e : JEntry), s.dev.args = [ca, ent, id, back] → (s.dev.core ca).journal.get? ent = some e → e.req = id → e.placed = false → e.refused = none →
    e.kind = .amsg → unreleased s.dev id e.loc e.order !e.again = false →
    let c := e.addr.toNat % 2 ^ 15
    let row := s.dev.row (rowKeyOf c)
    (¬(kindOf c = 0 ∧ unitOf c < 64 ∧ idxOf c < 48) ∨ (e.msg.getD 5 0 = 1 ∧ ((s.dev.owner e.loc id).launch = none ∨ row.launch ≠ (s.dev.owner e.loc id).launch)) →
      ∃ t, exec .messagePlacement s = .next t ∧ (t.dev.core ca).journal.get? ent = some { e with refused := some 0x09, taken := false }) ∧
    (kindOf c = 0 → unitOf c < 64 → idxOf c < 48 → (e.msg.getD 5 0 = 1 → (s.dev.owner e.loc id).launch ≠ none ∧ row.launch = (s.dev.owner e.loc id).launch) →
      (∀ k, row.state = 2 → row.gang = false → row.det = false → lowestFree s.dev c = some k → canStart s.dev c = true → s.dev.mint.stopped = false →
        ∃ t r, exec .messagePlacement s = .next t ∧ t.mem = s.mem ∧ t.dev.mint.queue = s.dev.mint.queue ++ [(dieOf c, .start r)] ∧ r.loc = c * 16 + k ∧ r.pc = e.msg.getD 0 0 ∧
          r.a1 = e.msg.getD 1 0 ∧ r.a2 = e.msg.getD 2 0 ∧ r.priv = false ∧ r.launch = row.launch ∧ (t.dev.core ca).journal.get? ent = some { e with placed := true }) ∧
      (row.state ≠ 2 ∨ row.gang = true ∨ row.det = true ∨ lowestFree s.dev c = none → (s.dev.core c).overflow = [] → (s.dev.core c).spill = [] → (s.dev.core c).inbox.length < 32 → (s.dev.thread (c * 16)).awaits .inbox = false →
        ∃ t, exec .messagePlacement s = .next t ∧ (t.dev.core c).inbox = (s.dev.core c).inbox ++ [⟨(List.range 4).map fun i => e.msg.getD i 0, 3, 0, e.loc, none⟩]))) ∧
  (∀ (s : State) (d a b : BitVec 5) (m n : Bool) (xs : List D) (v : Dev), s.ready → s.unitCore → s.start.readGs [a, a + 1, b] = some (xs, v) → s.start.claim d →
    let name : Q := xs.getD 1 0 ++ xs.getD 0 0
    let bad := nmClass name = 0 ∨ 6 < nmClass name
    let own := nmChip name = Config.chipTag.toNat
    let cached := ∃ tl, cacheTile (coreOf s.dev.cur) = some tl ∧ ncFind s.dev tl name ≠ none
    let hit := (lookup s.mem s.dev (dieOf (coreOf s.dev.cur)) name).2
    let live := cached ∨ ∃ k, hit = some k ∧ fieldN (entryWord s k 2) 63 62 = 1
    (bad ∨ (own ∧ nmClass name ≠ 6) → s.canTrap → ∃ t, exec (.lwt d a b m n) s = .next t ∧ Trapped s t 0x10 (xs.getD 0 0) (xs.getD 1 0)) ∧
    (¬bad → ¬own → s.canTrap → ∃ t, exec (.lwt d a b m n) s = .next t ∧ Trapped s t 0x20 (xs.getD 0 0) (xs.getD 1 0)) ∧
    (s.Inv → nmClass name = 6 → own →
      (∀ l, live → launchOf s.dev (some name) = some l →
        (l.done = true → ∃ t dt, exec (.lwt d a b m n) s = .next t ∧ Replied s t s.dev.nextId dt s.dev.cur [(d, l.status)]) ∧
        (l.done = false → ∃ t, exec (.lwt d a b m n) s = .next t ∧ Parked s t (.launch name) (xs.getD 2 0).toNat [d] .waitExpired)) ∧
      (¬cached → (∃ k, hit = some k ∧ fieldN (entryWord s k 2) 63 62 ≠ 1) ∨ (hit = none ∧ nmSeq name < s.dev.mint.next) →
        ∃ t, exec (.lwt d a b m n) s = .next t ∧ Later s t d (BitVec.allOnes 64) 204 3064) ∧
      (¬cached → hit = none → s.dev.mint.next ≤ nmSeq name →
        ∃ t dt, exec (.lwt d a b m n) s = .next t ∧ Failed s t s.dev.nextId dt ⟨s.me.pc, 0x0F, xs.getD 0 0, 0x0F, false⟩))) ∧
  (∀ (s : State) (a : BitVec 5) (m : Bool) (xs : List D) (v : Dev) (x : Reach), s.ready → s.unitCore → s.start.readGs [a] = some (xs, v) →
    let va := xs.getD 0 0
    let ca := coreOf s.dev.cur
    reach s.dev s.dev.cur va 8 8 3 = .ok x →
    (x.comp s.dev s.dev.cur va = true → s.canTrap → ∃ t, exec (.wdq a m) s = .next t ∧ Trapped s t 0x1C va 1) ∧
    (x.comp s.dev s.dev.cur va = false → x.tier ≠ 1 → x.tier ≠ 3 →
      (freeEntry (s.dev.core ca) = none → ∃ t, exec (.wdq a m) s = .next t ∧ Lost s t) ∧
      (∀ e, freeEntry (s.dev.core ca) = some e → ∃ t j k, exec (.wdq a m) s = .next t ∧ t.mem = s.mem ∧ t.me = { s.me with pc := s.me.pc + s.dev.len } ∧
        (t.dev.core ca).journal.get? e = some j ∧ j.kind = .wdq ∧ j.loc = s.dev.cur ∧ j.core = ca ∧ j.addr = dieAddress ca va ∧ 40 ≤ k ∧ k ≤ (if (s.dev.row (rowKeyOf ca)).det then 616 else 360) ∧
        (⟨s.dev.cycle + k, .distributorQuery, [s.dev.nextId]⟩ : Event) ∈ t.dev.events))) ∧
  (∀ (s : State) (id : Nat) (r : Req), s.dev.args = [id] → s.dev.reqs.get? id = some r →
    let told := fun (t : State) (x : D) => (t.dev.reqs.get? id).map (·.parts) = some (r.parts.map fun p => { p with data := x }) ∧ (⟨s.dev.cycle + r.back, .memoryRequestAtTarget, [id]⟩ : Event) ∈ t.dev.events
    let point := fun (l : Launch) (n : Nat) => if n < l.grid.1 * l.grid.2 then ofN (n % l.grid.1 + n / l.grid.1 * 2 ^ 32) else BitVec.allOnes 64
    let waits := answerBusy s.dev id r = true ∨ laneAsks s.dev id r.loc = true
    (waits → ∃ t, exec .distributorQuery s = .next t ∧ t.mem = s.mem ∧ t.dev.reqs = s.dev.reqs ∧ t.dev.launches = s.dev.launches ∧ t.dev.events = s.dev.events ++ [⟨s.dev.cycle + 16, .distributorQuery, [id]⟩]) ∧
    (¬waits → launchOf s.dev (s.dev.owner r.loc id).launch = none → ∃ t, exec .distributorQuery s = .next t ∧ told t (BitVec.allOnes 64)) ∧
    (∀ l, ¬waits → launchOf s.dev (s.dev.owner r.loc id).launch = some l →
      (l.grid.1 * l.grid.2 = 0 → ∃ t, exec .distributorQuery s = .next t ∧ told t (BitVec.allOnes 64)) ∧
      (l.grid.1 * l.grid.2 ≠ 0 → dDet l.w3 = false → ∃ t, exec .distributorQuery s = .next t ∧ told t (point l l.asked) ∧
        t.dev.launches = s.dev.launches.map fun y => if y.name = l.name then { y with asked := y.asked + 1 } else y) ∧
      (∀ k, l.grid.1 * l.grid.2 ≠ 0 → dDet l.w3 = true → l.lanes.findIdx? (· = r.loc) = some k →
        ∃ t, exec .distributorQuery s = .next t ∧ told t (point l (l.askedBy.getD k 0 * l.lanes.length + k))))) ∧
  (∀ (s : State) (d : BitVec 5), s.ready → s.unitCore → s.start.space d →
    let row := s.dev.row (rowKeyOf (coreOf s.dev.cur))
    let give := fun (x : D) => exec (.tbnd d) s = .next ⟨(({ s.start with free := s.dev.free + 1 } : Dev).writeG d x).next, s.mem⟩
    (kindOf (coreOf s.dev.cur) ≠ 0 ∨ row.det = false ∨ launchOf s.dev row.launch = none → give (BitVec.allOnes 64)) ∧
    (∀ l, kindOf (coreOf s.dev.cur) = 0 → row.det = true → launchOf s.dev row.launch = some l →
      (∀ k, l.lanes.findIdx? (· = s.dev.cur) = some k → give (ofN (k % 2 ^ 32 + l.lanes.length * 2 ^ 32))) ∧
      (s.dev.cur ∉ l.lanes → ∃ x, give x ∧ fieldN x 63 32 = l.lanes.length % 2 ^ 32))) ∧
  (∀ (s : State) (d a : BitVec 5) (m : Bool) (xs : List D) (v : Dev), s.ready → s.unitCore → s.start.readGs [a] = some (xs, v) → s.start.space d →
    let k := rowKeyOf (coreOf s.dev.cur)
    let old := if kindOf (coreOf s.dev.cur) = 0 then (s.dev.row k).ecls else 0
    let new := fieldN (xs.getD 0 0) 1 0
    (old ≤ new → exec (.encl d a m) s = .next ⟨(v.writeG d (ofN (old + if old < new then 2 ^ 63 else 0))).next, s.mem⟩) ∧
    (new < old → ∃ t, exec (.encl d a m) s = .next t ∧ t.mem = s.mem ∧ t.me = (v.writeG d (ofN old)).next.me ∧ (t.dev.row k).ecls = new ∧
      (t.dev.tile (unitOf (coreOf s.dev.cur))).used = (s.dev.tile (unitOf (coreOf s.dev.cur))).used + 2 ^ (new % 4) - 2 ^ (old % 4)))

/-- R22, R23, R187, R191, R289 to R293, R296, R298, R339, R356: the launch unit accepts a descriptor or answers a status; the mint
names it and queues its tasks; selection places a task's groups on rows, which load and then run with their keepers; a task that
waits too long rises a level; a drained row becomes FREE; a co-start starts all its rows together, or gives up at its deadline; a
launch completes when nothing of it is left.
The model's own choices, no rules of the spec: log 79, log 83, log 84, log 118 and log 119. -/
def Obligations.Launches : Prop :=
  (∀ (s : State) (k die lo hi : Nat), s.dev.args = [k, die, lo, hi] → die < 4 →
    ∃ t, exec .launchAccept s = .next t ∧ t.mem = s.mem ∧ (s.dev.launchPort.toArray.getD die 0 = k → t.dev.launchResult.toArray.getD die 0 = ofN hi ++ ofN lo) ∧
      (s.dev.launchPort.toArray.getD die 0 ≠ k → t.dev.launchResult = s.dev.launchResult)) ∧
  (∀ (s : State) (k id loc : Nat) (e : Entry) (d : BitVec 5), s.Inv → s.dev.args = [k] → s.dev.entries.get? k = some e → e.arr = some id →
    s.dev.arrs.get? id = some ⟨loc, [(.g d, 0), (.g (d + 1), 0)], 0, false, none, [], false⟩ → unreleased s.dev k e.loc 4 true = false →
    let depth := ((launchOf s.dev e.parent).map fun l => l.depth).getD 0 + 1
    let status := fun (st : D) => ∃ t dt, exec .launchAccept s = .next t ∧ 220 ≤ dt ∧ dt ≤ 300 ∧ Replied s t id dt loc [(d, st), (d + 1, 0)] ∧ t.dev.entries = s.dev.entries.erase k ∧ t.mem = s.mem
    (25 ≤ depth → ∃ t dt, exec .launchAccept s = .next t ∧ 220 ≤ dt ∧ dt ≤ 300 ∧ Failed s t id dt ⟨e.pc, 0x18, e.addr, 0x18, false⟩ ∧ t.dev.entries = s.dev.entries.erase k) ∧
    (depth < 25 → bitN (s.dev.die e.die).ctrl 1 = true →
      (e.addr.toNat % 64 ≠ 0 → status 3) ∧
      (e.addr.toNat % 64 = 0 → 256 ≤ poolHeld s.dev (fun x _ => x = e.die) → status 1) ∧
      (∀ st, acceptEntry s.mem { s.dev with free := s.dev.free + 1 } e = .error (.status st) → status (ofN st)) ∧
      (∀ e', (∀ k, Mem.read s.mem (errKey k) ≠ 1) → acceptEntry s.mem { s.dev with free := s.dev.free + 1 } e = .ok e' → ∃ t, exec .launchAccept s = .next t ∧ t.mem = s.mem ∧ t.dev.entries.get? k = some e' ∧
        t.dev.mint.queue = s.dev.mint.queue ++ [(e'.die, .launch k)]))) ∧
  (∀ (s : State) (die k key id loc : Nat) (e : Entry) (d : BitVec 5), s.minting die (.launch k) → s.dev.entries.get? k = some e → e.arr = some id →
    s.dev.arrs.get? id = some ⟨loc, [(.g d, 0), (.g (d + 1), 0)], 0, false, none, [], false⟩ → freeEntryFor s.mem s.dev e.die 6 s.dev.mint.next = some key →
    let name := mkName 6 s.dev.mint.next
    ∃ t dt l, exec .mintIssue s = .next t ∧ t.dev.mint.next = s.dev.mint.next + 1 ∧ Replied s t id dt loc [(d, name.setWidth 64), (d + 1, (name >>> 64).setWidth 64)] ∧
      t.dev.launches = s.dev.launches ++ [l] ∧ l.name = name ∧ l.words = e.words ∧ l.lanes = e.lanes ∧ l.deps = e.deps ∧ l.parent = e.parent ∧ l.ctx = e.ctx ∧ l.done = false ∧
      t.dev.tasks.length = s.dev.tasks.length + (fieldN (e.words.getD 4 0) 15 0 + 1) ∧ ∀ x ∈ t.dev.tasks.drop s.dev.tasks.length, x.launch = name ∧ x.entry = s.dev.cycle ∧ x.level = l.prio) ∧
  (∀ (s : State) (x : Task) (l : Launch), s.dev.args = [x.die] → s.dev.tasks = [x] → x.level < 8 → x.placed = 0 → launchOf s.dev (some x.launch) = some l →
    let free := pickRows s.dev x.die l.rows (2 ^ (fieldN (l.words.getD 3 0) 4 3 % 4)) false [] []
    ((∃ n ∈ l.deps, ∃ y, launchOf s.dev (some n) = some y ∧ y.done = false) → ∃ t, exec .launchSelection s = .next t ∧ t.dev.tasks = s.dev.tasks ∧ t.dev.rows = s.dev.rows) ∧
    ((∀ n ∈ l.deps, ∀ y, launchOf s.dev (some n) = some y → y.done = true) → dCost l.w3 = false → dDet l.w3 = false → dGroups l.w3 = 1 →
      (free = none → ∃ t, exec .launchSelection s = .next t ∧ t.dev.tasks = s.dev.tasks ∧ t.dev.rows = s.dev.rows) ∧
      (∀ ks, free = some ks → ∃ t, exec .launchSelection s = .next t ∧ t.dev.tasks = [] ∧ t.mem = s.mem ∧ ∀ k ∈ ks, Loading t l x.index 0 k))) ∧
  (∀ (s : State) (x : Task), s.dev.args = [x.launch.toNat, x.entry] → s.dev.tasks = [x] →
    let age := fieldN (s.dev.die x.die).age 31 0
    (s.dev.cycle ≤ x.entry + age ∨ 7 ≤ x.level → ∃ t, exec .taskAging s = .next t ∧ t.dev.tasks = s.dev.tasks) ∧
    (x.entry + age < s.dev.cycle → x.level < 7 → ∃ t, exec .taskAging s = .next t ∧ t.dev.tasks = [{ x with level := x.level + 1, entry := s.dev.cycle }])) ∧
  (∀ (s : State) (k : Nat) (l : Launch), s.dev.args = [k] → launchOf s.dev (s.dev.row k).launch = some l →
    ((s.dev.row k).state ≠ 1 → ∃ t, exec .rowLoadDone s = .next t ∧ t.dev.rows = s.dev.rows ∧ t.dev.mint = s.dev.mint) ∧
    ((s.dev.row k).state = 1 → (s.dev.mint.stopped = true ∨ ∃ p, p < 4 ∧ canStart s.dev (rowCore k p) = false) →
      ∃ t, exec .rowLoadDone s = .next t ∧ t.dev.rows = s.dev.rows ∧ (⟨s.dev.cycle + 16, .rowLoadDone, [k]⟩ : Event) ∈ t.dev.events) ∧
    ((s.dev.row k).state = 1 → s.dev.mint.stopped = false → (∀ p, p < 4 → canStart s.dev (rowCore k p) = true) → l.aux.getD 19 0 = 0 → imageWaits s.mem s.dev (launchU (rowCore k 0) l.ctx true) l = none →
      (∀ key, Mem.read s.mem (errKey key) ≠ 1) → (∀ c ∈ s.dev.costarts, c.launch ≠ l.name) →
      ∃ t, exec .rowLoadDone s = .next t ∧ t.mem = s.mem ∧ (t.dev.row k).state = 2 ∧ ∀ p, p < 4 →
        (∃ r, (dieOf (rowCore k p), MintReq.start r) ∈ t.dev.mint.queue ∧ r.loc = rowCore k p * 16 ∧ r.pc = l.words.getD 0 0 ∧ r.a1 = l.words.getD 1 0 ∧ r.a2 = l.words.getD 2 0 ∧
          r.rnc = l.aux.getD 16 0 ∧ r.launch = some l.name ∧ r.priv = false) ∧
        ((s.dev.core (rowCore k p)).held = [] → (s.dev.core (rowCore k p)).overflow = [] → (s.dev.core (rowCore k p)).spill = [] → (s.dev.core (rowCore k p)).inbox = [] → (s.dev.thread (rowCore k p * 16)).awaits .inbox = false → (t.dev.core (rowCore k p)).inbox =
          [⟨[l.words.getD 0 0, l.words.getD 1 0, l.words.getD 2 0, ofN (2 ^ 63 + (s.dev.row k).group % 2 ^ 16 * 2 ^ 32 + (s.dev.row k).task)], 3, 0, l.issuer, none⟩]))) ∧
  (∀ (s : State) (k : Nat), s.dev.args = [k] →
    let row := s.dev.row k
    (row.state ≠ 3 ∨ row.live ≠ 0 ∨ row.engc ≠ 0 → ∃ t, exec .rowFree s = .next t ∧ t.dev.rows = s.dev.rows ∧ t.dev.cores = s.dev.cores) ∧
    let held := ∃ p, p < 4 ∧ ∃ x ∈ (s.dev.core (rowCore k p)).exits, tableHeld s.dev (tileDie (k / 12)) x.2.name = true
    (row.state = 3 → row.live = 0 → row.engc = 0 → held → ∃ t, exec .rowFree s = .next t ∧ t.mem = s.mem ∧ t.dev.rows = s.dev.rows ∧ t.dev.cores = s.dev.cores ∧
      (⟨s.dev.cycle + 16, .rowFree, [k]⟩ : Event) ∈ t.dev.events) ∧
    (row.state = 3 → row.live = 0 → row.engc = 0 → ¬held → ∃ t, exec .rowFree s = .next t ∧ (t.dev.row k).state = 0 ∧ (t.dev.row k).launch = none ∧ (t.dev.row k).ctx = row.ctx ∧
      (t.dev.tile (k / 12)).used = (s.dev.tile (k / 12)).used - 2 ^ (row.ecls % 4) ∧
      (∀ p, p < 4 → let c := t.dev.core (rowCore k p); c.exits = [] ∧ c.inbox = [] ∧ c.overflow = []) ∧
      ∀ n, row.launch = some n → (⟨s.dev.cycle, .launchComplete, [n.toNat]⟩ : Event) ∈ t.dev.events)) ∧
  (∀ (s : State) (c : Costart) (l : Launch), s.dev.costarts = [c] → c.started = false → launchOf s.dev (some c.launch) = some l →
    (s.dev.args = [c.launch.toNat] → (∃ g ∈ c.groups, ∃ k ∈ g.2.2, (s.dev.row k).state ≠ 0) → ∃ t, exec .costartStart s = .next t ∧ t.dev.rows = s.dev.rows ∧ t.dev.costarts = [c]) ∧
    (s.dev.args = [c.launch.toNat] → (∀ g ∈ c.groups, ∀ k ∈ g.2.2, (s.dev.row k).state = 0) → (c.groups.flatMap fun g => g.2.2).Nodup →
      ∃ t, exec .costartStart s = .next t ∧ t.dev.costarts = [{ c with started := true }] ∧ ∀ g ∈ c.groups, ∀ k ∈ g.2.2, Loading t l g.1 g.2.1 k) ∧
    (s.dev.args = [c.launch.toNat, c.due] → ∃ t, exec .costartDeadline s = .next t ∧ t.dev.costarts = [] ∧ t.dev.rows = s.dev.rows ∧
      (launchOf t.dev (some c.launch)).map (·.late) = some (min 255 (l.late + 1)) ∧
      t.dev.tasks = s.dev.tasks ++ c.tasks.map fun x => { x with entry := s.dev.cycle }) ∧
    (∀ due, s.dev.args = [c.launch.toNat, due] → due ≠ c.due → ∃ t, exec .costartDeadline s = .next t ∧ t.dev.costarts = [c] ∧ t.dev.tasks = s.dev.tasks)) ∧
  (∀ (s : State) (n : Q) (l : Launch), s.Inv → s.dev.args = [n.toNat] → launchOf s.dev (some n) = some l → l.done = false →
    (l.kills = none → (∃ x ∈ s.dev.tasks, x.launch = n) ∨ (∃ r ∈ s.dev.rows, r.2.launch = some n) ∨ (∃ x ∈ s.dev.launches, x.parent = some n ∧ x.done = false) →
      ∃ t, exec .launchComplete s = .next t ∧ t.dev.launches = s.dev.launches ∧ t.mem = s.mem) ∧
    (l.kills = none → launchOver s.dev l = true → ownedNames s.mem s.dev l = [] → ∃ t, exec .launchComplete s = .next t ∧ t.mem = s.mem ∧
      (launchOf t.dev (some n)).map (·.kills) = some (some 0) ∧ (⟨s.dev.cycle, .launchComplete, [n.toNat]⟩ : Event) ∈ t.dev.events) ∧
    (∀ d', l.kills = some 0 → l.acked = false → l.parent ≠ some n →
      unitWrite s.mem s.dev (launchU (if l.issuer = 2 ^ 19 - 1 then 16 * l.die * 256 else coreOf l.issuer) l.ctx false) noThread (l.addr + 56) 8 (statusWord l).toNat = .ok d' →
      ∃ t, exec .launchComplete s = .next t ∧ t.mem = (commit s.mem d').mem ∧ (launchOf t.dev (some n)).map (fun x => (x.done, x.status)) = some (true, statusWord l) ∧
        (∀ p, l.parent = some p → (⟨s.dev.cycle, .launchComplete, [p.toNat]⟩ : Event) ∈ t.dev.events) ∧
        ∀ loc u r o a, s.dev.threads = [(loc, u)] → u.st = .parked → u.wait = .launch n → u.mig = none → u.held = [(r, o)] → s.dev.arrs.get? u.waitId = some a →
          WaitOver s t loc ∧ ∃ dt, 180 ≤ dt ∧ dt ≤ 260 ∧ t.dev.arrs.get? u.waitId = some { a with vals := [(.g r, (statusWord l).setWidth 6400)] } ∧
            (⟨s.dev.cycle + dt, .producerValueArrival, [u.waitId]⟩ : Event) ∈ t.dev.events) ∧
    (l.xcnt < 2 ^ 16 → l.late < 2 ^ 15 → fieldN (statusWord l) 63 63 = 1 ∧ fieldN (statusWord l) 0 0 = (if l.xcnt = 0 then 0 else 1) ∧ fieldN (statusWord l) 47 32 = l.xcnt ∧
      fieldN (statusWord l) 62 48 = l.late))

/-! # The matrix array and the engines' registers -/

namespace Sys2Proof.Machine

/-- R251: the queued commands: command number, sources, tag. -/
def mxOf : Instr → Option (Nat × List (BitVec 5) × BitVec 8)
  | .mxw t => some (2, [], t)
  | .mxs a _ t => some (3, [a], t)
  | .mxb t => some (4, [], t)
  | .mxp a b _ _ t => some (5, [a, b], t)
  | .mxc a b _ _ t => some (6, [a, b], t)
  | .mxrd a _ t => some (8, [a], t)
  | .mxz a _ t => some (9, [a], t)
  | _ => none
/-- The array of the current thread's tile. -/
def State.tile (s : State) : Nat := unitOf (coreOf s.dev.cur)
def State.array (s : State) (tile : Nat) : MArray := (s.dev.tile tile).array
/-- The steps that run a command. -/
def arraySteps : List Instr := [.arrayWeightLoad, .arrayStream, .arrayBatchedStream, .arrayBankPrepare, .arrayBankReadout]
/-- A command of the array at the phase `p` of its run. -/
structure Running (s : State) (tile : Nat) (c : MCmd) (p : Nat) : Prop where
  args : s.dev.args = [tile, c.id, p]
  cmd : (s.array tile).queue.find? (fun x => x.id = c.id) = some c
  real : tile < 64
  clean : s.Inv
/-- The command has left the queue. -/
def Left (s t : State) (tile : Nat) (c : MCmd) : Prop := (t.array tile).queue = (s.array tile).queue.filter fun x => x.id != c.id

end Sys2Proof.Machine

/-- R249 to R252, R258, R259: MXL takes the lease, waits for it by losing turns, and traps at its limit; MXU gives it up; a command
needs the lease, and joins the queue with the registers and pairs of its issue and its batch, which MXC closes; MXWB waits for a tag;
a run's end hands the lease on; a batch's completion frees its tag, ends waits and posts its message to the thread, which is kept for one that is saved. The lease, the open batch and the commands are
the thread's, not those of another that is lent its slot.
The model's own choices, no rules of the spec: log 63, log 64 and log 66. -/
def Obligations.MatrixCommands : Prop :=
  (∀ (s : State) (a : BitVec 5) (m : Bool) (t8 : BitVec 8) (xs : List D) (v : Dev), s.ready → s.unitCore → s.start.readGs [a] = some (xs, v) →
    let A := s.array s.tile
    let due := s.dev.cycle + 16 * max (xs.getD 0 0).toNat 1
    let who := lessee s.dev s.dev.cur
    (A.holder = some who → exec (.mxl a m t8) s = .next ⟨v.next, s.mem⟩) ∧
    (A.holder ≠ some who →
      (∀ w, A.waiters.find? (fun w => w.1 = s.dev.cur) = some w →
        (s.dev.cycle < w.2 → ∃ t, exec (.mxl a m t8) s = .next t ∧ Lost s t) ∧
        (w.2 ≤ s.dev.cycle → s.canTrap → ∃ t, exec (.mxl a m t8) s = .next t ∧ Trapped s t 0x15 (mstOf s.dev s.tile) 0)) ∧
      ((∀ w ∈ A.waiters, w.1 ≠ s.dev.cur) →
        (A.holder = none → (∀ w ∈ A.waiters, w.2 ≤ s.dev.cycle) → ∃ t, exec (.mxl a m t8) s = .next t ∧ t.mem = s.mem ∧ t.me = { s.me with pc := s.me.pc + s.dev.len } ∧
          (t.array s.tile).holder = some who ∧ (t.array s.tile).remc = 32 ∧ (t.array s.tile).run = A.run + 1 ∧ (⟨s.dev.cycle + 16384, .leaseRunEnd, [s.tile, A.run + 1]⟩ : Event) ∈ t.dev.events) ∧
        (A.holder ≠ none ∨ (∃ w ∈ A.waiters, s.dev.cycle < w.2) → ∃ t, exec (.mxl a m t8) s = .next t ∧ t.mem = s.mem ∧ t.dev.last = .lost ∧ t.dev.threads = s.dev.threads ∧
          t.dev.cores = s.dev.cores ∧ t.array s.tile = { A with waiters := A.waiters ++ [(s.dev.cur, due)] }))) ∧
    (∀ b, A.pending.get? t8.toNat = some b → ∃ t, exec (.mxwb a m t8) s = .next t ∧ Parked s t (.batch t8.toNat b) (xs.getD 0 0).toNat [] .waitExpired) ∧
    (A.pending.get? t8.toNat = none → exec (.mxwb a m t8) s = .next ⟨v.next, s.mem⟩)) ∧
  (∀ (s : State) (t8 : BitVec 8), s.ready → s.unitCore →
    let A := s.array s.tile
    let who := lessee s.dev s.dev.cur
    (A.holder ≠ some who → exec (.mxu t8) s = .next ⟨s.start.next, s.mem⟩) ∧
    (A.holder = some who → ∃ t, exec (.mxu t8) s = .next t ∧ t.mem = s.mem ∧ t.me = { s.me with pc := s.me.pc + s.dev.len } ∧ (t.array s.tile).opened = A.opened.erase who ∧
      (∀ b x, A.opened.get? who = some b → A.batches.get? b = some x → (t.array s.tile).batches.get? b = some { x with closed := true, order := s.dev.nextId }) ∧
      ((∀ w ∈ A.waiters, w.2 ≤ s.dev.cycle) → (t.array s.tile).holder = none) ∧
      (∀ l due, A.waiters = [(l, due)] → s.dev.cycle < due → (t.array s.tile).holder = some (lessee s.dev l) ∧ ∀ w ∈ (t.array s.tile).waiters, w.1 ≠ l))) ∧
  (∀ (s : State) (i : Instr) (n : Nat) (rs : List (BitVec 5)) (t8 : BitVec 8) (xs : List D) (v : Dev), s.ready → s.unitCore → mxOf i = some (n, rs, t8) → s.start.readGs rs = some (xs, v) →
    let A := s.array s.tile
    let who := lessee s.dev s.dev.cur
    (A.holder ≠ some who → s.canTrap → ∃ t, exec i s = .next t ∧ Trapped s t 0x14 (mstOf s.dev s.tile) 0) ∧
    (A.holder = some who → 16 ≤ A.queue.length → ∃ t, exec i s = .next t ∧ Lost s t) ∧
    (A.holder = some who → A.queue.length < 16 → ∃ t q b, exec i s = .next t ∧ t.mem = s.mem ∧ t.me = { s.me with pc := s.me.pc + s.dev.len } ∧
      let B := t.array s.tile
      B.queue = A.queue ++ [q] ∧ q.id = s.dev.nextId ∧ q.loc = s.dev.cur ∧ q.cmd = n ∧ q.tag = t8.toNat ∧ q.bank = fieldN (xs.getD 0 0) 3 0 ∧ q.fmt = fieldN (xs.getD 1 0) 1 0 ∧ q.regs = A.regs ∧
      q.lpb = s.me.lpb ∧ q.lpl = s.me.lpl ∧ B.remc = A.remc - 1 ∧ B.holder = A.holder ∧ B.banks = A.banks ∧ B.batches.get? q.batch = some b ∧
      (∀ k, A.opened.get? who = some k → q.batch = k) ∧
      (n ≠ 6 → B.opened.get? who = some q.batch ∧ B.pending = A.pending) ∧
      (n = 6 → B.pending.get? t8.toNat = some q.batch ∧ b.closed = true ∧ b.order = s.dev.nextId ∧ b.tag = some t8.toNat ∧ b.post = bitN (xs.getD 0 0) 0 ∧ b.cookie = xs.getD 1 0) ∧
      (A.queue = [] → A.busy = false → B.busy = true ∧ (⟨s.dev.cycle, mxStep n, [s.tile, q.id, 3]⟩ : Event) ∈ t.dev.events))) ∧
  (∀ (s : State) (tile n : Nat), s.dev.args = [tile, n] →
    let A := s.array tile
    (A.run ≠ n ∨ A.holder = none → ∃ t, exec .leaseRunEnd s = .next t ∧ t.array tile = A ∧ t.mem = s.mem) ∧
    (∀ h, A.run = n → A.holder = some h →
      ((∀ w ∈ A.waiters, w.2 ≤ s.dev.cycle) → ∃ t, exec .leaseRunEnd s = .next t ∧ t.array tile = { A with remc := 32, run := n + 1 } ∧
        (⟨s.dev.cycle + 16384, .leaseRunEnd, [tile, n + 1]⟩ : Event) ∈ t.dev.events) ∧
      (∀ l due, A.waiters = [(l, due)] → s.dev.cycle < due → ∃ t, exec .leaseRunEnd s = .next t ∧ t.array tile = { A with holder := some (lessee s.dev l), waiters := [], remc := 32, run := n + 1 }))) ∧
  (∀ (s : State) (tile id : Nat) (b : MBatch), (s.array tile).batches.get? id = some b →
    let A := s.array tile
    (s.dev.args = [tile, id, 0] → ∃ t k, exec .batchCompletion s = .next t ∧ t.mem = s.mem ∧ (t.array tile).batches.get? id = some { b with busy := 0 } ∧ k ≤ 12 ∧
      (∀ g, b.tag = some g → A.pending.get? g = some id → (t.array tile).pending = A.pending.erase g) ∧
      (⟨s.dev.cycle + k, .batchCompletion, [tile, id, 1]⟩ : Event) ∈ t.dev.events ∧ (⟨s.dev.cycle + 12, .batchCompletion, [tile, id, 2, A.mflg &&& bankFlags b.wrote]⟩ : Event) ∈ t.dev.events) ∧
    (∀ loc u g, s.dev.args = [tile, id, 1] → b.tag = some g → s.dev.threads = [(loc, u)] → u.st = .parked → u.wait = .batch g id → u.mig = none → unitOf (coreOf loc) = tile →
      ∃ t, exec .batchCompletion s = .next t ∧ WaitOver s t loc) ∧
    (∀ flags, s.dev.args = [tile, id, 2, flags] →
      (b.tag = none ∨ b.post = false → ∃ t, exec .batchCompletion s = .next t ∧ (t.array tile).batches = A.batches.erase id ∧ t.dev.cores = s.dev.cores) ∧
      (∀ g l, b.tag = some g → g < 256 → b.post = true → (s.dev.threads.find? fun x => x.2.live && x.2.name = b.thread).map Prod.fst = some l → (s.dev.thread l).st ≠ .vacant →
        (s.dev.thread l).name = b.thread → (s.dev.core (coreOf l)).held = [] → (s.dev.core (coreOf l)).overflow = [] → (s.dev.core (coreOf l)).spill = [] → (s.dev.core (coreOf l)).inbox.length < 32 →
        (s.dev.thread l).awaits .inbox = false → outFull s.dev ⟨batchMessage b flags, 2, slotOf b.loc, b.loc, some b.thread⟩ = false →
        ∃ t w0, exec .batchCompletion s = .next t ∧ (t.array tile).batches = A.batches.erase id ∧
          (t.dev.core (coreOf l)).inbox = (s.dev.core (coreOf l)).inbox ++ [⟨[w0, ofN flags, b.cookie, ofN b.wrote], 2, slotOf l, b.loc, some b.thread⟩] ∧
          fieldN w0 7 0 = g ∧ fieldN w0 15 8 = 3 ∧ fieldN w0 23 16 = min b.cmds 255 ∧ fieldN w0 31 24 = min b.refused 255) ∧
      (∀ g k, s.Inv → b.tag = some g → b.post = true → (∀ x ∈ s.dev.threads, x.2.live = false ∨ x.2.name ≠ b.thread) → (lookup s.mem s.dev 0 b.thread).2 = some k →
        outFull s.dev ⟨batchMessage b flags, 2, slotOf b.loc, b.loc, some b.thread⟩ = false →
        ∃ t, exec .batchCompletion s = .next t ∧ (t.array tile).batches = A.batches.erase id ∧ t.dev.cores = s.dev.cores ∧
          (fieldN (entryWord s k 2) 63 62 = 1 → t.dev.mail.map Prod.fst = s.dev.mail.map Prod.fst ++ [b.thread]) ∧ (fieldN (entryWord s k 2) 63 62 ≠ 1 → t.dev.mail = s.dev.mail))))

/-- R74, R252 to R257, R261: a command starts when its issuer's earlier accesses are done, is refused into MERR when a check fails,
and ends after its cycles: the weight block is latched, a stream promotes every element of its rows, a bank is cleared with a format
and flags of its own, a bank is read out; then it leaves the queue and its batch.
The model's own choices, no rules of the spec: log 63 and log 65. -/
def Obligations.MatrixRuns : Prop :=
  (∀ (s : State) (tile : Nat) (c : MCmd), Running s tile c 3 → c.cmd ≠ 6 → s.dev.frozenMs.contains (arrayMaster tile) = false → ∀ i ∈ arraySteps,
    (mxSent s.dev tile c = false → ∃ t, exec i s = .next t ∧ t.array tile = s.array tile ∧ (⟨s.dev.cycle + 1, mxStep c.cmd, [tile, c.id, 3]⟩ : Event) ∈ t.dev.events) ∧
    (mxSent s.dev tile c = true →
      (mxReason s.mem s.dev tile c = 0 → mxDenied s.dev tile c = none → ∃ t, exec i s = .next t ∧ t.array tile = s.array tile ∧ t.mem = s.mem ∧
        (⟨s.dev.cycle + mxCycles (s.array tile) c, mxStep c.cmd, [tile, c.id, 4]⟩ : Event) ∈ t.dev.events) ∧
      (mxReason s.mem s.dev tile c ≠ 0 → ∃ t, exec i s = .next t ∧ t.mem = s.mem ∧ (⟨s.dev.cycle + 4, mxStep c.cmd, [tile, c.id, 5]⟩ : Event) ∈ t.dev.events ∧ (t.array tile).queue = (s.array tile).queue ∧
        (t.array tile).merr = ofN (c.tag * 65536 + mxReason s.mem s.dev tile c * 256 + min (fieldN (s.array tile).merr 7 0 + 1) 255) ∧
        ∀ b, (s.array tile).batches.get? c.batch = some b → ((t.array tile).batches.get? c.batch).map (·.refused) = some (b.refused + 1)))) ∧
  (∀ (s : State) (tile : Nat) (c : MCmd), Running s tile c 4 →
    let A := s.array tile
    let bytes := fun off n => rdN s.mem s.dev (vaultKey tile off) n
    -- MXW (R254)
    (let w := c.f 2 21 18
      let k := c.f 2 8 0 + 1
      ∃ t b, exec .arrayWeightLoad s = .next t ∧ Left s t tile c ∧ (t.array tile).block = some b ∧ b.fmt = w ∧ b.k = k ∧ b.n = c.f 2 16 9 + 1 ∧ b.cols.length = b.n ∧
        (b.uns = true ↔ c.f 2 17 17 = 1) ∧ (∀ i, i < b.n → b.cols.getD i 0 = BitVec.ofNat 4096 (bytes (c.off 0 + 512 * i) (k * mxCell w))) ∧
        (mxScaled w = true → b.scales = (List.range 8).map fun i => bytes (c.off 1 + 4 * i) 4) ∧ (t.array tile).banks = A.banks) ∧
    -- MXS and MXB (R74, R255, R256)
    (∀ b, A.block = some b → Tbl.sorted A.banks = true → c.bank < 16 → b.n ≤ 256 → c.f 5 13 9 + c.f 5 8 4 + 1 ≤ 32 →
      let f := c.f 5 22 19
      let row := fun r => bytes (c.off 3 + r * mxPlanes f * 64) (mxPlanes f * 64)
      let act := fun r => actVal f (c.f 5 18 18 = 1) (c.f 5 17 14) (row r)
      let scale := fun r g => Fp.f32.decode (bytes (c.off 4 + 4 * (4 * r + g)) 4)
      let into := fun (q r n : Nat) (segs : List (Nat × Nat)) (col : Nat) =>
        ofN (segs.foldl (fun acc g => segStep b f (act r) (scale r) (A.bfmt.toArray.getD q 0) n g.1 g.2 acc) ((A.bank q (c.f 5 13 9 + r) col).toNat, 0)).1
      (c.cmd = 3 → ∃ t, exec .arrayStream s = .next t ∧ Left s t tile c ∧ (t.array tile).block = A.block ∧ (t.array tile).bfmt = A.bfmt ∧
        (∀ r n, r < c.f 5 8 4 + 1 → n < b.n → (t.array tile).bank c.bank (c.f 5 13 9 + r) n = into c.bank r n (segments f b.k) n) ∧
        ∀ q r n, q < 16 → r < 32 → n < 256 → (q ≠ c.bank ∨ r < c.f 5 13 9 ∨ c.f 5 13 9 + c.f 5 8 4 < r ∨ b.n ≤ n) → (t.array tile).bank q r n = A.bank q r n) ∧
      (c.cmd = 4 → ∃ t, exec .arrayBatchedStream s = .next t ∧ Left s t tile c ∧ (t.array tile).block = A.block ∧ (t.array tile).bfmt = A.bfmt ∧
        ∀ r j i, r < c.f 5 8 4 + 1 → j < 16 → i < 16 → 16 * j + i < b.n → (t.array tile).bank j (c.f 5 13 9 + r) i =
          into j r (16 * j + i) [(32 / mxCell f * j, max (32 / mxCell f * j) (min b.k (32 / mxCell f * j + 32 / mxCell f)))] i)) ∧
    -- MXP and MXZ (R257)
    (Tbl.sorted A.banks = true → c.bank < 16 → ∃ t, exec .arrayBankPrepare s = .next t ∧ Left s t tile c ∧
      (∀ r n, r < 32 → n < 256 → (t.array tile).bank c.bank r n = 0) ∧ (∀ q r n, q ≠ c.bank → q < 16 → r < 32 → n < 256 → (t.array tile).bank q r n = A.bank q r n) ∧
      (t.array tile).mflg / 16 ^ c.bank % 16 = 0 ∧ (c.cmd = 5 → (t.array tile).bfmt = A.bfmt.setIfInBounds c.bank c.fmt) ∧ (c.cmd ≠ 5 → (t.array tile).bfmt = A.bfmt)) ∧
    -- MXRD (R257)
    (let z := A.elemSize c.bank
      let at_ := fun r i => c.off 6 + r * c.f 7 43 28 + i * z
      (c.f 7 6 2 = 0 ∨ (c.f 7 19 12 + 1) * z ≤ c.f 7 43 28) → (∀ r i, r ≤ c.f 7 6 2 → i ≤ c.f 7 19 12 → at_ r i + z ≤ 2 ^ 25 ∧ uncorrectable s.mem s.dev (vaultKey tile (at_ r i)) = false) →
      ∃ t, exec .arrayBankReadout s = .next t ∧ Left s t tile c ∧ (t.array tile).banks = A.banks ∧
        ∀ r i, r ≤ c.f 7 6 2 → i ≤ c.f 7 19 12 → rdN t.mem t.dev (vaultKey tile (at_ r i)) z = (A.bank c.bank (c.f 7 11 7 + r) (c.f 7 27 20 + i)).toNat % 2 ^ (8 * z))) ∧
  (∀ (s : State) (tile : Nat) (c : MCmd), Running s tile c 5 → ∀ i ∈ arraySteps, ∃ t, exec i s = .next t ∧ Left s t tile c ∧ t.mem = s.mem ∧ (t.array tile).banks = (s.array tile).banks)

/-- R134, R247, R248, R259, R263 to R265: ENGW writes the thread's copy or conversion registers, the array's under the lease, and
the region table from the conversion steward; status registers ignore it; a register the core does not have traps. ENGR reads them,
and BDAT a bank element unless its bank is busy. The writes of MFLG, MERR and the region table are steps of their own.
The model's own choices, no rules of the spec: log 63 and log 68. -/
def Obligations.EngineRegisters : Prop :=
  (∀ (s : State) (a d : BitVec 5) (m : Bool) (e : BitVec 2) (r : BitVec 6), s.ready → s.unitCore → e = 2 → 0x20 ≤ r.toNat → ¬(kindOf (coreOf s.dev.cur) = 1 ∧ idxOf (coreOf s.dev.cur) = 49) →
    s.canTrap → (s.start.claim d → ∃ t, exec (.engr d e r) s = .next t ∧ Trapped s t 0x02 ((encode (.engr d e r)).setWidth 64) 0x3F) ∧
      ∃ t, exec (.engw a m e r) s = .next t ∧ Trapped s t 0x02 ((encode (.engw a m e r)).setWidth 64) 0x3F) ∧
  (∀ (s : State) (a : BitVec 5) (m : Bool) (e : BitVec 2) (r : BitVec 6) (xs : List D) (v : Dev), s.ready → s.unitCore → s.start.readGs [a] = some (xs, v) →
    let x := xs.getD 0 0
    let i := Instr.engw a m e r
    let wrote := fun (f : Thread → Thread) => exec i s = .next ⟨(v.mine f).next, s.mem⟩
    let posts := fun (step : Instr) (as : List Nat) => ∃ t, exec i s = .next t ∧ t.mem = s.mem ∧ t.me = { s.me with pc := s.me.pc + s.dev.len } ∧ (⟨s.dev.cycle, step, as⟩ : Event) ∈ t.dev.events
    (e ≠ 3 → r = 0x10 → exec i s = .next ⟨v.next, s.mem⟩) ∧
    (e.toNat < 2 → r ≠ 0x10 → wrote fun t => { t with cps := t.cps.setIfInBounds r.toNat (x &&& copyMask r.toNat) }.touch (24 + r.toNat)) ∧
    (e = 2 → r.toNat < 0x10 → wrote fun t => { t with cvs := t.cvs.setIfInBounds r.toNat (x &&& convMask r.toNat) }.touch (40 + r.toNat)) ∧
    (e = 2 → 0x20 ≤ r.toNat → kindOf (coreOf s.dev.cur) = 1 → idxOf (coreOf s.dev.cur) = 49 → posts .regionTableWrite [s.tile, r.toNat, x.toNat]) ∧
    (e = 3 → r = 0x10 ∨ r = 0x13 → exec i s = .next ⟨v.next, s.mem⟩) ∧
    (e = 3 → r ≠ 0x10 → r ≠ 0x13 → (s.array s.tile).holder ≠ some (lessee s.dev s.dev.cur) → s.canTrap → ∃ t, exec i s = .next t ∧ Trapped s t 0x14 (mstOf s.dev s.tile) 0) ∧
    (e = 3 → (s.array s.tile).holder = some (lessee s.dev s.dev.cur) → (r = 0x11 → posts .mflgWrite [s.tile, x.toNat]) ∧ (r = 0x12 → posts .merrWrite [s.tile]) ∧
      (r.toNat < 8 → ∃ t, exec i s = .next t ∧ t.mem = s.mem ∧ t.me = { s.me with pc := s.me.pc + s.dev.len } ∧
        t.array s.tile = { s.array s.tile with regs := (s.array s.tile).regs.setIfInBounds r.toNat (x &&& mxMask r.toNat) }))) ∧
  (∀ (s : State) (d : BitVec 5) (e : BitVec 2) (r : BitVec 6), s.ready → s.unitCore → s.start.claim d →
    (e = 2 → 0x20 ≤ r.toNat → kindOf (coreOf s.dev.cur) = 1 ∧ idxOf (coreOf s.dev.cur) = 49) → ∃ t y, exec (.engr d e r) s = .next t ∧ Later s t d y 24 24 ∧
      let tl := s.dev.tile s.tile
      (e.toNat < 2 → r ≠ 0x10 → y = s.me.cps.toArray.getD r.toNat 0) ∧ (e = 2 → r.toNat < 0x10 → y = s.me.cvs.toArray.getD r.toNat 0) ∧ (e = 3 → r.toNat < 8 → y = tl.array.regs.toArray.getD r.toNat 0) ∧
      (e = 3 → r = 0x10 → y = mstOf s.dev s.tile) ∧ (e = 3 → r = 0x11 → y = ofN tl.array.mflg) ∧ (e = 3 → r = 0x12 → y = tl.array.merr) ∧
      (e = 2 → 0x30 ≤ r.toNat → y = tl.rgb.toArray.getD (r.toNat - 0x30) 0) ∧ (e = 2 → 0x20 ≤ r.toNat → r.toNat < 0x30 → y = tl.rga.toArray.getD (r.toNat - 0x20) 0) ∧
      (e ≠ 3 → r = 0x10 → ∃ g, tl.engines.toArray[e.toNat]? = some g ∧ (∀ q, q = (if e = 2 then tl.convQ.length else tl.copyQ.length) → q < 2 ^ 15 → fieldN y 14 0 = q ∧
        (bitN y 15 = true ↔ g.cur ≠ none) ∧ fieldN y 47 16 = g.done % 2 ^ 32))) ∧
  (∀ (s : State) (d a : BitVec 5) (m : Bool) (xs : List D) (v : Dev), s.ready → s.unitCore → s.start.claim d → s.start.readGs [a] = some (xs, v) →
    let A := s.array s.tile
    let q := fieldN (xs.getD 0 0) 16 13
    ((∀ b ∈ A.batches, b.2.busy / 2 ^ q % 2 = 0) → ∃ t, exec (.engrBdat d a m) s = .next t ∧ Later s t d (A.bank q (fieldN (xs.getD 0 0) 12 8) (fieldN (xs.getD 0 0) 7 0)) 24 24) ∧
    (∀ k b, A.batches = [(k, b)] → b.busy / 2 ^ q % 2 = 1 → s.canTrap → ∃ t, exec (.engrBdat d a m) s = .next t ∧
      Trapped s t 0x13 (ofN q) (if b.closed = false then 0x100 else match b.tag with | some g => ofN g | none => 0x200))) ∧
  (∀ (s : State) (tile x : Nat), (s.dev.args = [tile, x] → ∃ t, exec .mflgWrite s = .next t ∧ t.mem = s.mem ∧ t.array tile = { s.array tile with mflg := (s.array tile).mflg &&& x }) ∧
    (s.dev.args = [tile] → ∃ t, exec .merrWrite s = .next t ∧ t.mem = s.mem ∧ t.array tile = { s.array tile with merr := 0 })) ∧
  (∀ (s : State) (tile r : Nat) (x : D), s.dev.args = [tile, r, x.toNat] →
    (0x20 ≤ r → r < 0x30 → ∃ t, exec .regionTableWrite s = .next t ∧ t.mem = s.mem ∧ (t.dev.tile tile).rga = (s.dev.tile tile).rga.setIfInBounds (r - 0x20) (x &&& 0x3FFF00001FFF)) ∧
    (0x30 ≤ r → r < 0x40 → ∃ t y, exec .regionTableWrite s = .next t ∧ t.mem = s.mem ∧ (t.dev.tile tile).rga.toArray.getD (r - 0x30) 0 = (s.dev.tile tile).rga.toArray.getD (r - 0x30) 0 ∧
      (t.dev.tile tile).rgb.toArray.getD (r - 0x30) 0 = y ∧ fieldN y 63 62 = (if fieldN x 63 62 = 3 then 0 else fieldN x 63 62) ∧ fieldN y 24 0 = fieldN x 24 0 ∧ fieldN y 56 32 = fieldN x 56 32 ∧
      (bitN y 61 = true → fieldN y 63 62 = 2) ∧ ∀ j, j ≠ r - 0x30 → (t.dev.tile tile).rgb.toArray.getD j 0 = (s.dev.tile tile).rgb.toArray.getD j 0))

/-! # The copy and conversion engines -/

namespace Sys2Proof.Machine

/-- R266: the engine commands: conversion engine or copy engines, command number, sources, tag. -/
def engOf : Instr → Option (Bool × Nat × List (BitVec 5) × BitVec 8)
  | .cpy a b _ _ t => some (false, 0, [a, b], t)
  | .cpr a b _ _ t => some (false, 1, [a, b], t)
  | .cpz a b _ _ t => some (false, 2, [a, b], t)
  | .cps a b _ _ t => some (false, 3, [a, b], t)
  | .cpcCompress a b _ _ t => some (false, 4, [a, b], t)
  | .cpcExpand a b _ _ t => some (false, 4, [a, b], t)
  | .gexp a b _ _ t => some (false, 5, [a, a + 1, b], t)
  | .cvt a b _ _ t => some (true, 0, [a, b], t)
  | .cvpAct a b _ _ t => some (true, 1, [a, b], t)
  | .cvpWcol a b _ _ t => some (true, 1, [a, b], t)
  | .cvq a b _ _ t => some (true, 2, [a, b], t)
  | _ => none
def engQueue (s : State) (tile : Nat) (conv : Bool) : List ECmd := if conv then (s.dev.tile tile).convQ else (s.dev.tile tile).copyQ
/-- The steps that perform a command, unit by unit, and what a unit is. -/
def unitsOf : Instr → Option (Mem → Dev → ECmd → ERes)
  | .copyRun => some copyUnit
  | .fillRun => some fillUnit
  | .scrubRun => some scrubUnit
  | .compressRun => some compressUnit
  | .expandRun => some expandUnit
  | .grammarExpandRun => some grammarUnit
  | .convertRun => some convertUnit
  | .quantiseRun => some quantiseUnit
  | .planeLayoutRun => some layoutUnit
  | _ => none
/-- Engine `e` of a tile runs command `c`, at phase `p`. -/
structure AtEngine (s : State) (tile e : Nat) (c : ECmd) (p : Nat) : Prop where
  args : s.dev.args = [tile, e, c.id, p]
  cur : (s.dev.engine tile e).cur = some c
  real : e < 3
  clean : s.Inv
  thawed : s.dev.frozenMs.contains (engMaster tile e) = false
/-- R269: the command has ended with a status and a reason: its engine is free, and its COMPLETION is posted 12 cycles later. -/
def Ended (t : State) (now tile e : Nat) (c : ECmd) (status reason : Nat) (w1 w2 w3 : D) : Prop :=
  (t.dev.engine tile e).cur = none ∧
  (⟨now + 12, .engineCompletion, [tile, e, c.loc, c.thread.toNat, c.tag + e * 256 + c.cmd * 65536 + status * 2 ^ 24 + reason * 2 ^ 32, w1.toNat, w2.toNat, w3.toNat]⟩ : Event) ∈ t.dev.events
/-- The unit may write `n` bytes at an address, at key `k`. -/
def Writable (s : State) (u : UCtx) (va : D) (n k : Nat) : Prop :=
  unitPlace s.mem s.dev u va true = .ok (.key k) ∧ uncorrectable s.mem s.dev k = false ∧ keyHeld s.dev k n = false ∧ heldForOther s.dev noThread k n = false ∧ k + n ≤ 2 ^ 72
/-- And read them, byte by byte, from key `k` on. -/
def Readable (s : State) (u : UCtx) (va : D) (n k : Nat) : Prop :=
  ∀ j, j < n → unitPlace s.mem s.dev u (va + BitVec.ofNat 64 j) false = .ok (.key (k + j)) ∧ uncorrectable s.mem s.dev (k + j) = false

/-- `n` bytes from a vault-window address stand at keys `k` on, in a region that is not COMP, where the engine is granted its accesses
and no matrix command holds a range. -/
def VaultRange (s : State) (c : ECmd) (va : D) (n k : Nat) : Prop :=
  ∃ tile off, k = vaultKey tile off ∧ off + n ≤ 2 ^ 25 ∧ (s.dev.tile tile).holds = [] ∧ (∀ wr, granted (s.dev.tile tile).access 0 (c.uctx s.dev).master 0 wr = true) ∧
    ∀ j, j < n → vaultLoc c.core (va + ofN j) = some (tile, off + j) ∧ compKey (tileAt c.regions s.dev) (k + j) = false
/-- And every code word there is good. -/
def InVault (s : State) (c : ECmd) (va : D) (n k : Nat) : Prop := VaultRange s c va n k ∧ ∀ j, j < n → Mem.read s.mem (errKey (k + j)) = 0
/-- Memory outside these ranges reads as before. -/
def Only (s t : State) (rs : List (Nat × Nat)) : Prop := ∀ a, (∀ r ∈ rs, a < r.1 ∨ r.1 + r.2 ≤ a) → Mem.read t.mem a = Mem.read s.mem a
/-- After `n` units the command has ended, or goes on `dt` cycles later. -/
def UnitsDone (s t : State) (tile e : Nat) (c c' : ECmd) (n dt : Nat) : Prop :=
  if c.units = c.prog + n then Ended t s.dev.cycle tile e c' c'.status c'.reason c'.w1 c'.w2 c'.w3
  else (t.dev.engine tile e).cur = some { c' with prog := c.prog + n } ∧ (⟨s.dev.cycle + dt, engStep c, [tile, e, c.id, 2]⟩ : Event) ∈ t.dev.events
/-- An engine performs units of a command, with no word held for another thread and nothing waiting on a full/empty bit. -/
def Performing (s : State) (tile e : Nat) (c : ECmd) (conv : Bool) (cmd : Nat) : Prop :=
  AtEngine s tile e c 2 ∧ c.conv = conv ∧ c.cmd = cmd ∧ s.dev.resvHold = [] ∧ s.dev.feWait = []
/-- R276: the bits of a plane of 64 bits: the shortest code, on equal length the lower tag. -/
def planeCode (q : List Bool) : List Bool :=
  let bits := fun n x => (List.range n).map fun i => x.testBit i
  let runs := q.splitBy fun x y => x == y
  if q.all (!·) then [false, false] else if q.all id then [true, false]
  else if runs.length ≤ 16 ∧ 7 + 6 * runs.length < 66 then [true, true] ++ q.take 1 ++ bits 4 (runs.length - 1) ++ runs.flatMap fun r => bits 6 (r.length - 1)
  else [false, true] ++ q
/-- R276: the stream of a chunk's words, least significant bit first. -/
def chunkStream (ws : List D) : List Bool :=
  let d := fun i => ws.getD i 0 - if i = 0 then 0 else ws.getD (i - 1) 0
  (List.range 8).flatMap fun g => (List.range 64).flatMap fun i => planeCode ((List.range 64).map fun k =>
    let x := d (64 * g + k)
    x.getLsbD (63 - i) != (i != 0 && x.getLsbD (64 - i)))
/-- R276: a chunk's header and what follows it: version, stream length, CRC. -/
def chunkHeader (h : D) (version len : Nat) (ws : List D) : Prop := fieldN h 63 56 = version ∧ fieldN h 55 48 = 0 ∧ fieldN h 47 32 = len ∧ fieldN h 31 0 = crc32c ws
/-- R276: xs codes the words ws, not all 0. -/
def ChunkCode (ws xs : List D) : Prop :=
  let bits := chunkStream ws
  let n := (bits.length + 63) / 64
  if 512 < n then xs.length = 513 ∧ chunkHeader (xs.getD 0 0) 2 4096 ws ∧ xs.drop 1 = ws
  else xs.length = n + 1 ∧ chunkHeader (xs.getD 0 0) 1 (8 * n) ws ∧ ∀ j b, j < n → b < 64 → (xs.getD (1 + j) 0).getLsbD b = bits.getD (64 * j + b) false
/-- R264: the width of an element of a conversion code; R279: element `i` of a row at an address, 4-bit ones packed two to a byte. -/
def elWidth (f : Nat) : Nat := if f ∈ [0, 7, 12] then 64 else if f ∈ [1, 8, 13] then 32 else if f ∈ [2, 3, 9, 14] then 16 else if f ∈ [6, 11] then 4 else 8
def ElemIn (s : State) (c : ECmd) (va : D) (bits i x : Nat) : Prop :=
  ∃ k, if bits = 4 then InVault s c (va + ofN (i / 2)) 1 k ∧ x = rdN s.mem s.dev k 1 / 16 ^ (i % 2) % 16
    else InVault s c (va + ofN (i * (bits / 8))) (bits / 8) k ∧ x = rdN s.mem s.dev k (bits / 8)
/-- R123, R279: element x of code sf becomes y of code df, with flags f; integers of fewer bits are extended by their sign unless the
result is an unsigned integer. -/
def Converted (sf df : Nat) (mode : Fp.Mode) (u : Nat) (scale : Option Nat) (x y : Nat) (f : Fp.Flags) : Prop :=
  let v := (cvFmt sf).decode x
  let signed : Int := if 2 ^ (elWidth sf - 1) ≤ x then (x : Int) - 2 ^ elWidth sf else x
  match scale with
  | some z => sf < 7 ∧ (y, f) = Fp.scaled (cvFmt df) mode u v (Fp.f32.decode z)
  | none =>
    if sf < 7 then (if df < 7 then (y, f) = Fp.convert (cvFmt df) mode u v else ∃ n, (n, f) = Fp.toIntR (elWidth df) (df < 12) mode u v ∧ (y : Int) = n % 2 ^ elWidth df)
    else if df < 7 then (y, f) = Fp.ofInt (cvFmt df) mode u (if sf < 12 then signed else x)
    else f = 0 ∧ (y : Int) = (if sf < 12 ∧ df < 12 then signed else x) % 2 ^ elWidth df
/-- R279: the random word of element `i` of row `r`. -/
def srOf (c : ECmd) (r i : Nat) : Nat := Fp.srWord (ofN (c.r 8 + r * ((c.r 0 + 63) / 64) + i / 64)) (c.stage.toArray.getD 6 0) (c.stage.toArray.getD 7 0) (i % 64)
/-- R279: w2 of a conversion with the flags NV, DZ, OF, UF and NX ORed in from bit 4 down. -/
def FlagsIn (w w' : D) (fs : List Fp.Flags) : Prop := ∀ j, j < 64 → w'.getLsbD j = (w.getLsbD j || (decide (j < 5) && fs.any fun f => f.getLsbD (4 - j)))
/-- R243: plane p of element x: the sign, the exponent from the top, the hidden bit and the fraction from the top; an integer's bits. -/
def planeOfElem (f x p : Nat) : Bool :=
  if mxInt f then x.testBit p
  else
    let ew := (mxFmt f).ew
    let mw := (mxFmt f).mw
    if p ≤ ew then x.testBit (mw + ew - p) else if p = ew + 1 then decide (x / 2 ^ mw % 2 ^ ew ≠ 0) else x.testBit (mw - (p - ew - 1))
/-- R275: the machine under a GEXP's protection pairs, as its walk sees it. -/
def gexpView (s : State) (c : ECmd) : State := { s with dev := s.dev.setThread c.loc { s.dev.thread c.loc with lpb := c.lpb, lpl := c.lpl } }

end Sys2Proof.Machine

/-- R104, R263, R266 to R269, R275: a command enters its engine's queue with the staging registers, rights and pairs of its issuer and
counts in ENGC; with the queue full the turn is lost; CPR is privileged.
The model's own choices, no rules of the spec: log 69, log 73 and log 121. -/
def Obligations.EngineCommands : Prop :=
  (∀ (s : State) (i : Instr) (conv : Bool) (n : Nat) (rs : List (BitVec 5)) (tag : BitVec 8) (xs : List D) (v : Dev), s.ready → s.unitCore → engOf i = some (conv, n, rs, tag) →
    s.start.readGs rs = some (xs, v) →
    let ca := coreOf s.dev.cur
    let last := xs.getD (rs.length - 1) 0
    (conv = false → n = 1 → s.me.priv = false → s.canTrap → ∃ t, exec i s = .next t ∧ Trapped s t 0x03 ((encode i).setWidth 64) 0) ∧
    (¬(conv = false ∧ n = 1 ∧ s.me.priv = false) →
      ((if conv then 16 else 32) ≤ (engQueue s s.tile conv).length → ∃ t, exec i s = .next t ∧ Lost s t) ∧
      ((engQueue s s.tile conv).length < (if conv then 16 else 32) → ∃ t c k, exec i s = .next t ∧ t.mem = s.mem ∧ t.dev.last = .issued ∧ t.me.pc = s.me.pc + s.dev.len ∧ t.me.g = s.me.g ∧
        engQueue t s.tile conv = engQueue s s.tile conv ++ [c] ∧ engQueue t s.tile (!conv) = engQueue s s.tile (!conv) ∧ c.id = s.dev.nextId ∧ c.loc = s.dev.cur ∧ c.core = ca ∧ c.thread = s.me.name ∧
        c.conv = conv ∧ c.cmd = n ∧ c.tag = tag.toNat ∧ c.b = last ∧ (n = 5 → c.name = (xs.getD 1 0 ++ xs.getD 0 0 : Q)) ∧ (n ≠ 5 → c.a = xs.getD 0 0) ∧ c.stage = (if conv then s.me.cvs else s.me.cps) ∧
        c.user = !s.me.priv ∧ c.lpb = s.me.lpb ∧ c.lpl = s.me.lpl ∧ c.prog = 0 ∧
        (kindOf ca = 0 → (t.dev.row (rowKeyOf ca)).engc = (s.dev.row (rowKeyOf ca)).engc + 1) ∧ (kindOf ca ≠ 0 → (t.dev.tile s.tile).sengc = (s.dev.tile s.tile).sengc + 1) ∧
        (engQueue s s.tile conv = [] → (⟨k, engStep c, [s.tile, b2n conv, s.dev.nextId, 0]⟩ : Event) ∈ t.dev.events)))) ∧
  (∀ (s : State) (tile e loc : Nat) (name : Q) (w0 w1 w2 w3 : Nat), s.dev.args = [tile, e, loc, name.toNat, w0, w1, w2, w3] → e < 3 →
    outFull s.dev ⟨[ofN w0, ofN w1, ofN w2, ofN w3], 2, slotOf loc, loc, none⟩ = false →
    ∃ t, exec .engineCompletion s = .next t ∧ (t.dev.engine tile e).done = (s.dev.engine tile e).done + 1 ∧
      (kindOf (coreOf loc) = 0 → (t.dev.row (rowKeyOf (coreOf loc))).engc = (s.dev.row (rowKeyOf (coreOf loc))).engc - 1 ∧ (⟨s.dev.cycle, .rowFree, [rowKeyOf (coreOf loc)]⟩ : Event) ∈ t.dev.events) ∧
      ∀ l u, s.dev.threads = [(l, u)] → u.st ≠ .vacant → u.name = name → u.awaits .inbox = false → (s.dev.core (coreOf l)).held = [] → (s.dev.core (coreOf l)).overflow = [] → (s.dev.core (coreOf l)).spill = [] → (s.dev.core (coreOf l)).inbox.length < 32 →
        (t.dev.core (coreOf l)).inbox = (s.dev.core (coreOf l)).inbox ++ [⟨[ofN w0, ofN w1, ofN w2, ofN w3], 2, slotOf l, loc, some name⟩])

/-- R154, R243, R267 to R282: the head of a queue is taken by a free engine once what its issuer did before is done; a refused command
ends with status 1 and its reason before it writes anything; units are performed until the last, which ends the command; one that
fails stops it with status 3. CPY moves the source's bytes, with FEC the full/empty bits; CPZ writes the fill word; CPS rewrites what
is corrected and writes two bits a chunk; CPC writes a chunk's code and table word, or the words a code stands for; GEXP writes
elements, CVT and CVQ converted ones and CVQ their scale, CVP planes or columns; CPR copies its page granule by granule, each word with
its full/empty bit. No other memory changes.
The model's own choices, no rules of the spec: log 62 and log 70 to log 72. -/
def Obligations.EngineRuns : Prop :=
  (∀ (s : State) (tile : Nat) (i : Instr) (conv : Bool) (c : ECmd) (rest : List ECmd), s.dev.args = [tile, b2n conv, c.id, 0] → engQueue s tile conv = c :: rest →
    (unitsOf i ≠ none ∨ (i = .restripeRun ∧ conv = false)) →
    (∀ e, (if conv then [2] else [0, 1]).find? (fun e => (s.dev.engine tile e).cur.isNone && (s.dev.engine tile e).kept.isNone && !s.dev.frozenMs.contains (engMaster tile e)) = some e →
      (unreleased s.dev c.id c.loc 0 true = true → ∃ t, exec i s = .next t ∧ engQueue t tile conv = c :: rest ∧ (⟨s.dev.cycle + 1, engStep c, [tile, b2n conv, c.id, 0]⟩ : Event) ∈ t.dev.events) ∧
      (unreleased s.dev c.id c.loc 0 true = false → ∃ t, exec i s = .next t ∧ t.mem = s.mem ∧ engQueue t tile conv = rest ∧ (t.dev.engine tile e).cur = some c ∧
        (⟨s.dev.cycle + 8, engStep c, [tile, e, c.id, 1]⟩ : Event) ∈ t.dev.events)) ∧
    ((∀ e ∈ (if conv then [2] else [0, 1]), (s.dev.engine tile e).cur ≠ none) → ∃ t, exec i s = .next t ∧ engQueue t tile conv = c :: rest)) ∧
  (∀ (s : State) (tile e : Nat) (i : Instr) (c : ECmd), AtEngine s tile e c 1 → unitsOf i ≠ none →
    (∀ r, c.refuse = some r → ∃ t, exec i s = .next t ∧ t.mem = s.mem ∧ Ended t s.dev.cycle tile e c 1 r c.w1 c.w2 c.w3) ∧
    (∀ r, c.refuse = none → startHeld s.mem s.dev c = false → startWaits s.mem s.dev c = none → startReason s.mem s.dev c = some r →
      ∃ t, exec i s = .next t ∧ t.mem = s.mem ∧ Ended t s.dev.cycle tile e c 1 r c.w1 c.w2 c.w3) ∧
    (c.refuse = none → startHeld s.mem s.dev c = false → startWaits s.mem s.dev c = none → startReason s.mem s.dev c = none → (c.conv = true ∨ c.cmd ≠ 5) →
      ∃ t n, exec i s = .next t ∧ t.mem = s.mem ∧ (t.dev.engine tile e).cur = some c ∧ (⟨n, engStep c, [tile, e, c.id, 2]⟩ : Event) ∈ t.dev.events)) ∧
  (∀ (s : State) (tile e : Nat) (i : Instr) (act : Mem → Dev → ECmd → ERes) (c : ECmd), AtEngine s tile e c 2 → unitsOf i = some act →
    (c.units ≤ c.prog → ∃ t, exec i s = .next t ∧ t.mem = s.mem ∧ Ended t s.dev.cycle tile e c c.status c.reason c.w1 c.w2 c.w3) ∧
    (c.units = c.prog + 1 → 0 < c.pace.1 →
      (∀ d' c', act s.mem s.dev c = .ok (d', c') → c.prog ≤ c'.prog → c'.units = c.units → (c.conv = true ∨ c.cmd ≠ 3 ∨ c'.slot = 0) → c'.conv = c.conv → c'.cmd = c.cmd →
        d'.frozenMs.contains (engMaster tile e) = false → d'.feWait = [] →
        ∃ t, exec i s = .next t ∧ t.mem = (commit s.mem d').mem ∧ Ended t d'.cycle tile e c' c'.status c'.reason c'.w1 c'.w2 c'.w3) ∧
      (∀ d' r w n bads, act s.mem s.dev c = .error (.stop d' r w n bads) → d'.frozenMs.contains (engMaster tile e) = false → d'.feWait = [] →
        ∃ t, exec i s = .next t ∧ t.mem = (commit s.mem d').mem ∧ Ended t d'.cycle tile e c 3 r (c.stopped r w n).w1 (if bads = [] then c.w2 else ofN bads.length) w) ∧
      (∀ d' f, act s.mem s.dev c = .error (.gram d' f) → d'.frozenMs.contains (engMaster tile e) = false → d'.feWait = [] →
        ∃ t, exec i s = .next t ∧ t.mem = (commit s.mem d').mem ∧ Ended t d'.cycle tile e c 3 f.cause c.w1 (ofN f.reason) f.tval))) ∧
  -- CPY and CPZ: any piece of a row, and whole words with their full/empty bits
  (∀ (s : State) (tile e row n kd : Nat) (c : ECmd) (va : D), AtEngine s tile e c 2 → s.dev.feWait = [] → c.conv = false → c.units = c.prog + 1 → Writable s (c.uctx s.dev) va n kd →
    (∀ ks, c.cmd = 0 → c.fec = false → pieceAt c c.dst c.prog = some (row, va, n) → Readable s (c.uctx s.dev) (c.src row + (va - c.dst row)) n ks →
      ∃ t, exec .copyRun s = .next t ∧ rdN t.mem t.dev kd n = rdN s.mem s.dev ks n ∧ Ended t s.dev.cycle tile e c c.status c.reason (c.w1 + ofN n) c.w2 c.w3) ∧
    (c.cmd = 2 → c.fez = 0 → pieceAt c (fun k => c.a + ofN (k * c.r 3)) c.prog = some (row, va, n) →
      ∃ t, exec .fillRun s = .next t ∧ rdN t.mem t.dev kd n = c.b.toNat % 2 ^ (8 * n) ∧ Ended t s.dev.cycle tile e c c.status c.reason (c.w1 + ofN n) c.w2 c.w3)) ∧
  (∀ (s : State) (tile e : Nat) (c : ECmd) (ks kd : Nat → Nat), c.prog < c.units → 8 ∣ c.r 0 → 8 ∣ c.r 3 → 8 ∣ c.a.toNat →
    let n := min 16 (c.units - c.prog)
    let row := fun i => (c.prog + i) / (c.r 0 / 8)
    let col := fun i => 8 * ((c.prog + i) % (c.r 0 / 8))
    (∀ i j, i < j → j < n → kd i + 8 ≤ kd j ∨ kd j + 8 ≤ kd i) → (∀ i, i < n → kd i % 8 = 0 ∧ ks i % 8 = 0) →
    (Performing s tile e c false 0 → 8 ∣ c.r 2 → 8 ∣ c.b.toNat → (∀ i, i < n → InVault s c (c.a + ofN (row i * c.r 2) + ofN (col i)) 8 (ks i) ∧ InVault s c (c.b + ofN (row i * c.r 3) + ofN (col i)) 8 (kd i)) →
      (∀ i j, i < n → j < n → ks i ≠ kd j) →
      ∃ t, exec .copyRun s = .next t ∧ UnitsDone s t tile e c { c with w1 := c.w1 + ofN (8 * n) } n 1 ∧ Only s t ((List.range n).flatMap fun i => [(kd i, 8), (feKey (kd i), 1)]) ∧
        ∀ i, i < n → rd64 t.mem t.dev (kd i) = rd64 s.mem s.dev (ks i) ∧ feEmpty t.mem t.dev (kd i) = feEmpty s.mem s.dev (if c.fec then ks i else kd i)) ∧
    (Performing s tile e c false 2 → c.fez ≠ 3 → (∀ i, i < n → InVault s c (c.a + ofN (row i * c.r 3) + ofN (col i)) 8 (kd i)) →
      ∃ t, exec .fillRun s = .next t ∧ UnitsDone s t tile e c { c with w1 := c.w1 + ofN (8 * n) } n 1 ∧ Only s t ((List.range n).flatMap fun i => [(kd i, 8), (feKey (kd i), 1)]) ∧
        ∀ i, i < n → rd64 t.mem t.dev (kd i) = c.b ∧ feEmpty t.mem t.dev (kd i) = if c.fez = 0 then feEmpty s.mem s.dev (kd i) else decide (c.fez = 2))) ∧
  -- CPS
  (∀ (s : State) (tile e k kb : Nat) (c : ECmd), Performing s tile e c false 3 → c.prog < c.units → VaultRange s c (c.a + ofN (4096 * c.prog)) 4096 k → k % 32 = 0 →
    InVault s c (c.b + ofN (c.prog / 32 * 8)) 8 kb → kb % 8 = 0 →
    let mark := fun i => (Mem.read s.mem (errKey (k + 32 * i))).toNat
    let good := (List.range 128).filter fun i => decide (mark i = 1)
    let bad := (List.range 128).filter fun i => decide (1 < mark i)
    let at_ := c.prog % 32
    ∃ t c', exec .scrubRun s = .next t ∧ Only s t ((kb, 8) :: (List.range 128).map fun i => (errKey (k + 32 * i), 1)) ∧
      (∀ i, i < 128 → (Mem.read t.mem (errKey (k + 32 * i))).toNat = if mark i = 1 then 0 else mark i) ∧
      (∀ j, j < 64 → (rd64 t.mem t.dev kb).getLsbD j = if j = 2 * at_ then good ≠ [] else if j = 2 * at_ + 1 then bad ≠ [] else (rd64 s.mem s.dev kb).getLsbD j) ∧
      c'.w1 = c.w1 + 4096 ∧ c'.w2 = c.w2 + ofN ((if good = [] then 0 else 1) + if bad = [] then 0 else 2 ^ 32) ∧ c'.w3 = c.w3 ∧ c'.reason = c.reason ∧ c'.status = (if bad = [] then c.status else 2) ∧
      ((s.dev.die (keyDie k)).faultQ.length ≤ 128 → (t.dev.die (keyDie k)).faultQ.map Prod.fst = (s.dev.die (keyDie k)).faultQ.map Prod.fst ++ bad.map fun i => ofN (keyPhys (k + 32 * i))) ∧
      if c.units = c.prog + 1 ∧ good = [] then Ended t s.dev.cycle tile e c c'.status c'.reason c'.w1 c'.w2 c'.w3
      else (t.dev.engine tile e).cur = some c' ∧ c'.prog = c.prog + 1 ∧ (⟨s.dev.cycle + (if c.units = c.prog + 1 then 0 else 16) + good.length, engStep c, [tile, e, c.id, 2]⟩ : Event) ∈ t.dev.events) ∧
  -- CPC
  (∀ (s : State) (tile e ka kb : Nat) (c : ECmd), Performing s tile e c false 4 → c.prog < c.units → c.xpnd = false → InVault s c (c.a + ofN (4096 * c.prog)) 4096 ka →
    let ws := (List.range 512).map fun i => rd64 s.mem s.dev (ka + 8 * i)
    let off := max c.base.toNat (8 * c.chunks)
    (ws.all (· = 0) = true → InVault s c (c.b + ofN (8 * c.prog)) 8 kb → ∃ t, exec .compressRun s = .next t ∧
      UnitsDone s t tile e c { c with base := ofN off, w1 := c.w1 + 8 } 1 64 ∧ Only s t [(kb, 8)] ∧ rd64 t.mem t.dev kb = 0) ∧
    (ws.all (· = 0) = false → ∃ xs, ChunkCode ws xs ∧
      (c.r 7 < off + 8 * xs.length → ∃ t, exec .compressRun s = .next t ∧ t.mem = s.mem ∧ Ended t s.dev.cycle tile e c 3 0x41 c.w1 c.w2 (c.b + ofN off)) ∧
      (off + 8 * xs.length ≤ c.r 7 → InVault s c c.b (off + 8 * xs.length) kb → ∃ t, exec .compressRun s = .next t ∧
        UnitsDone s t tile e c { c with base := ofN (off + 8 * xs.length), w1 := c.w1 + ofN (8 + 8 * xs.length) } 1 64 ∧ Only s t [(kb + 8 * c.prog, 8), (kb + off, 8 * xs.length)] ∧
        fieldN (rd64 t.mem t.dev (kb + 8 * c.prog)) 63 48 = 8 * xs.length ∧ fieldN (rd64 t.mem t.dev (kb + 8 * c.prog)) 47 0 = off ∧
        ∀ j, j < xs.length → rd64 t.mem t.dev (kb + off + 8 * j) = xs.getD j 0))) ∧
  (∀ (s : State) (tile e kt kd : Nat) (c : ECmd), Performing s tile e c false 4 → c.prog < c.units → c.xpnd = true → InVault s c (c.a + ofN (8 * c.prog)) 8 kt → InVault s c (c.b + ofN (4096 * c.prog)) 4096 kd →
    let len := fieldN (rd64 s.mem s.dev kt) 63 48
    let va := c.a + ofN (fieldN (rd64 s.mem s.dev kt) 47 0)
    let wrote := fun (c' : ECmd) (ws : List D) (rs : List (Nat × Nat)) => ∃ t, exec .expandRun s = .next t ∧ UnitsDone s t tile e c { c' with w1 := c.w1 + 4096 } 1 32 ∧
      Only s t ((kd, 4096) :: rs) ∧ (∀ i, i < 512 → rd64 t.mem t.dev (kd + 8 * i) = ws.getD i 0) ∧ ∀ r ∈ rs, rd64 t.mem t.dev r.1 = ofN c.prog
    (len = 0 → wrote c [] []) ∧
    (∀ kc, len ≠ 0 → 8 ∣ len → 8 ∣ va.toNat → noWindow c (va, len, 0) = false → unprotected c (va, len, 0) = false → InVault s c va len kc →
      let xs := (List.range (len / 8)).map fun i => rd64 s.mem s.dev (kc + 8 * i)
      (∀ ws, ws.length = 512 → (len = 4104 ∧ chunkHeader (xs.getD 0 0) 2 4096 ws ∧ xs.drop 1 = ws) ∨ decodeChunk len xs = some ws → wrote c ws []) ∧
      (decodeChunk len xs = none → c.prog ∉ c.bads →
        let c' := { c with bads := c.bads ++ [c.prog], w2 := ofN (c.bads.length + 1), status := 2 }
        let r : ERange := (ofN (c.r 5 + 8 * c.bads.length), 8, 1)
        (c.r 6 ≤ c.bads.length → wrote c' [] []) ∧
        (∀ kl, c.bads.length < c.r 6 → noWindow c r = false → unprotected c r = false → InVault s c r.1 8 kl → kl + 8 ≤ kd ∨ kd + 4096 ≤ kl → wrote c' [] [(kl, 8)])))) ∧
  -- GEXP
  (∀ (s : State) (tile e : Nat) (c : ECmd) (root : Q) (scan : Bool) (sop bias len et rt : Nat), Performing s tile e c false 5 → c.units = c.prog + 1 → tile = unitOf c.core → kindOf c.core ≠ 2 →
    s.dev.reqs = [] → s.dev.gramQ = [] → s.dev.nameQ = [] → s.dev.fwd = [] → (∀ k, ((s.dev.tile tile).ncache.getD k []).length ≤ 4) → (s.dev.tile tile).shooting = [] →
    s.dev.frozenMs.contains (gramMaster tile) = false → nmChip c.name = Config.chipTag.toNat →
    let i := c.r 8 + c.prog
    let u := gexpView s c
    let q := c.gquery i
    Viewed u c.id q root scan sop bias len et rt → Info u c.id q root len et rt → i < 2 ^ 48 →
    (et ≠ 8 ∨ scan = false → len ≤ i → ∃ t, exec .grammarExpandRun s = .next t ∧ t.mem = s.mem ∧ Ended t s.dev.cycle tile e c c.status c.reason c.w1 c.w2 c.w3) ∧
    (∀ body k x kd, scan = false → i < len →
      let vt := if et = 8 then rt else et
      Descent u c.id q 0 false et rt 64 [] root i body k [] → Plain u c.id q (ofN (body + k * elemBytes vt)) (elemBytes vt) x → InVault s c (c.b + ofN (elemBytes vt * c.prog)) (elemBytes vt) kd →
      ∃ t, exec .grammarExpandRun s = .next t ∧ rdN t.mem t.dev kd (elemBytes vt) = x ∧ Only s t [(kd, elemBytes vt)] ∧ Ended t s.dev.cycle tile e c c.status c.reason (c.w1 + 1) c.w2 c.w3) ∧
    (∀ body k ts (raw : List Nat) kd, scan = true → et ≠ 8 → i < len → Descent u c.id q sop true et rt 64 [] root i body k ts → raw.length = k + 1 →
      (∀ j, j ≤ k → Plain u c.id q (ofN (body + elemBytes et * j)) (elemBytes et) (raw.getD j 0)) →
      let n := if sop = 1 then 8 else elemBytes et
      let add := fun x y => if sop = 1 then sum64 x y else (x + y) % 2 ^ 64
      InVault s c (c.b + ofN (n * c.prog)) n kd → ∃ t, exec .grammarExpandRun s = .next t ∧ rdN t.mem t.dev kd n = leftFold add (bias :: ts ++ raw.map (elem64 et)) % 2 ^ (8 * n) ∧
        Only s t [(kd, n)] ∧ Ended t s.dev.cycle tile e c c.status c.reason (c.w1 + 1) c.w2 c.w3)) ∧
  -- CVT: an element, or two that share a byte
  (∀ (s : State) (tile e kd ksc : Nat) (c : ECmd) (xs ys : List Nat) (fs : List Fp.Flags), Performing s tile e c true 0 → c.units = c.prog + 1 → 1 ≤ c.r 0 →
    let w := elWidth c.dfmt
    let per := if w = 4 then 2 else 1
    let r := c.prog * per / c.r 0
    let i := c.prog * per % c.r 0
    let block := if c.sblk = 1 then 32 else if c.sblk = 2 then 128 else c.r 0
    let scale := if c.sblk = 0 then none else some (rdN s.mem s.dev ksc 4)
    (per = 2 → 2 ∣ c.r 0) → xs.length = per → ys.length = per → fs.length = per → (∀ j, j < per → ElemIn s c (c.a + ofN (r * c.r 2)) (elWidth c.sfmt) (i + j) (xs.getD j 0)) →
    (c.sblk ≠ 0 → InVault s c (ofN (c.r 5 + 4 * (r * ((c.r 0 + block - 1) / block) + i / block))) 4 ksc) →
    (∀ j, j < per → Converted c.sfmt c.dfmt (Fp.modeOf c.rnd 0) (srOf c r (i + j)) scale (xs.getD j 0) (ys.getD j 0) (fs.getD j 0)) →
    InVault s c (c.b + ofN (r * c.r 3) + ofN (i * w / 8)) (per * w / 8) kd →
    ∃ t w2, exec .convertRun s = .next t ∧ Only s t [(kd, per * w / 8)] ∧ (∀ j, j < per → rdN t.mem t.dev kd (per * w / 8) / 2 ^ (w * j) % 2 ^ w = ys.getD j 0 % 2 ^ w) ∧
      FlagsIn c.w2 w2 fs ∧ Ended t s.dev.cycle tile e c c.status c.reason (c.w1 + ofN per) w2 c.w3) ∧
  -- CVQ: a block of 128 elements, and its scale
  (∀ (s : State) (tile e kx kd ksc : Nat) (c : ECmd) (ys : List Nat) (fs : List Fp.Flags), Performing s tile e c true 2 → c.prog < c.units → c.sfmt ∈ [1, 2, 3] → c.dfmt ∈ [4, 5] → 128 ≤ c.r 0 → 128 ∣ c.r 0 →
    let nb := c.r 0 / 128
    let r := c.prog / nb
    let b := c.prog % nb
    let size := elWidth c.sfmt / 8
    let xs := (List.range 128).map fun j => rdN s.mem s.dev (kx + size * j) size
    let mag := fun x => (Fp.convert Fp.f32 .rne 0 ((cvFmt c.sfmt).decode x)).1 % 2 ^ 31
    let amax := xs.foldl (fun a x => max a (mag x)) 0
    let one := (Fp.ofInt Fp.f32 .rne 0 1).1
    let z := if 0x7F800000 ≤ amax then Fp.f32.nan else if amax = 0 then one
      else (Fp.div Fp.f32 .rtz 0 (Fp.f32.decode (Fp.ofInt Fp.f32 .rne 0 (if c.dfmt = 4 then 448 else 57344)).1) (Fp.f32.decode amax)).1
    ys.length = 128 → fs.length = 128 → InVault s c (c.a + ofN (r * c.r 2) + ofN (128 * b * size)) (128 * size) kx → ksc + 4 ≤ kx ∨ kx + 128 * size ≤ ksc →
    (∀ j, j < 128 → Converted c.sfmt c.dfmt (Fp.modeOf c.rnd 0) (srOf c r (128 * b + j)) (some z) (xs.getD j 0) (ys.getD j 0) (fs.getD j 0)) →
    InVault s c (ofN (c.r 5 + 4 * (r * nb + b))) 4 ksc → InVault s c (c.b + ofN (r * c.r 3) + ofN (128 * b)) 128 kd → ksc + 4 ≤ kd ∨ kd + 128 ≤ ksc →
    ∃ t w2, exec .quantiseRun s = .next t ∧ Only s t [(ksc, 4), (kd, 128)] ∧
      rdN t.mem t.dev ksc 4 = (if 0x7F800000 ≤ amax then Fp.f32.nan else (Fp.div Fp.f32 .rne 0 (Fp.f32.decode one) (Fp.f32.decode z)).1) % 2 ^ 32 ∧
      (∀ j, j < 128 → rdN t.mem t.dev (kd + j) 1 = ys.getD j 0 % 256) ∧ FlagsIn c.w2 w2 fs ∧ UnitsDone s t tile e c { c with w1 := c.w1 + 128, w2 := w2 } 1 4) ∧
  -- CVP: a row of planes, or a column
  (∀ (s : State) (tile e kd : Nat) (c : ECmd) (xs : List Nat), Performing s tile e c true 1 → c.prog < c.units → c.sfmt ≤ 6 →
    let bits := if c.sfmt = 0 ∨ c.sfmt = 3 then 4 else 8 * mxCell c.sfmt
    let n := 64 * mxPlanes c.sfmt
    (c.wcol = false → xs.length = c.r 0 → c.r 0 ≤ 512 → (∀ i, i < c.r 0 → ElemIn s c (c.a + ofN (c.prog * c.r 2)) bits i (xs.getD i 0)) → InVault s c (c.b + ofN (n * c.prog)) n kd →
      ∃ t, exec .planeLayoutRun s = .next t ∧ UnitsDone s t tile e c { c with w1 := c.w1 + ofN n } 1 ((n + 511) / 512) ∧ Only s t [(kd, n)] ∧
        ∀ p i, p < mxPlanes c.sfmt → i < 512 → (rdN t.mem t.dev kd n).testBit (512 * p + i) = (decide (i < c.r 0) && planeOfElem c.sfmt (xs.getD i 0) p)) ∧
    (c.wcol = true → xs.length = c.rows → c.rows * mxCell c.sfmt ≤ 512 → (∀ r, r < c.rows → ElemIn s c (c.a + ofN (r * c.r 2)) bits c.prog (xs.getD r 0)) → InVault s c (c.b + ofN (512 * c.prog)) 512 kd →
      ∃ t, exec .planeLayoutRun s = .next t ∧ UnitsDone s t tile e c { c with w1 := c.w1 + 512 } 1 1 ∧ Only s t [(kd, 512)] ∧
        (∀ r, r < c.rows → rdN t.mem t.dev (kd + mxCell c.sfmt * r) (mxCell c.sfmt) = xs.getD r 0) ∧ ∀ j, c.rows * mxCell c.sfmt ≤ j → j < 512 → rdN t.mem t.dev (kd + j) 1 = 0)) ∧
  -- CPR
  (∀ (s : State) (tile e : Nat) (c : ECmd),
    let n := granuleSize c.old
    (∀ r, AtEngine s tile e c 1 → restripeCheck s.mem s.dev c = .error r → ∃ t, exec .restripeRun s = .next t ∧ t.mem = s.mem ∧ Ended t s.dev.cycle tile e c 1 r c.w1 c.w2 c.w3) ∧
    (AtEngine s tile e c 2 → ∃ t, exec .restripeRun s = .next t ∧ t.mem = s.mem ∧ (⟨s.dev.cycle + 16 + (n + 127) / 128, .restripeRun, [tile, e, c.id, 3]⟩ : Event) ∈ t.dev.events) ∧
    (∀ ko kn : Nat → Nat, AtEngine s tile e c 3 → s.dev.feWait = [] → plGran c.old < 64 → (c.base.toNat + c.prog * n) % 32 = 0 → (c.prog + 1) * n < c.size →
      let va := fun w => c.base.toNat + c.prog * n + 8 * w
      (∀ w, w < n / 8 → (∃ h, placeTarget s.dev (c.uctx s.dev).master c.ctx 0 false false (va w) c.old c.size false = .byte (ko w) h) ∧
        ∃ h, placeTarget s.dev (c.uctx s.dev).master c.ctx 0 false true (va w) c.b c.size true = .byte (kn w) h) →
      (∀ w, w < n / 8 → kn w % 8 = 0 ∧ ko w % 8 = 0 ∧ kn w = kn (w / 4 * 4) + 8 * (w % 4) ∧ kn (w / 4 * 4) % 32 = 0 ∧ kn w < 2 ^ 72 ∧ ko w < 2 ^ 72) → (∀ v w, v < w → w < n / 8 → kn v ≠ kn w) → (∀ v w, v < n / 8 → w < n / 8 → kn v / 32 ≠ ko w / 32) →
      let lost := (List.range (n / 32)).filter fun g => decide ((Mem.read s.mem (errKey (ko (4 * g)))).toNat = 2)
      ∃ t, exec .restripeRun s = .next t ∧ Only s t ((List.range (n / 8)).flatMap fun w => [(kn w, 8), (feKey (kn w), 1), (errKey (kn w), 1)]) ∧
        (∀ w, w < n / 8 → rd64 t.mem t.dev (kn w) = rd64 s.mem s.dev (ko w) ∧ (plTier c.b ≠ 1 → feEmpty t.mem t.dev (kn w) = feEmpty s.mem s.dev (ko w)) ∧
          ((Mem.read t.mem (errKey (kn w))).toNat = if w / 4 ∈ lost then 2 else 0)) ∧
        (t.dev.engine tile e).cur = some { c with prog := c.prog + 1, w1 := ofN (c.prog + 1), status := if lost = [] then c.status else 2 } ∧
        (∀ k ∈ c.dies, (t.dev.die k).cursors.get? c.slot = some ⟨true, c.prog + 1, c.b, c.base, c.old, c.ctx, c.size⟩) ∧
        (⟨s.dev.cycle + 16 + (n + 127) / 128, .restripeRun, [tile, e, c.id, 3]⟩ : Event) ∈ t.dev.events) ∧
    (∀ d' r w n' bads, AtEngine s tile e c 3 → moveWords s.mem c (c.base.toNat + c.prog * n) (n / 8) s.dev false = .error (.stop d' r w n' bads) → d'.frozenMs.contains (engMaster tile e) = false →
      ∃ t, exec .restripeRun s = .next t ∧ Ended t d'.cycle tile e c 3 r c.w1 c.w2 w) ∧
    (AtEngine s tile e c 4 → ∃ t, exec .restripeRun s = .next t ∧ Ended t s.dev.cycle tile e c c.status c.reason c.w1 c.w2 c.w3 ∧ ∀ k ∈ c.dies, (t.dev.die k).cursors = (s.dev.die k).cursors.erase c.slot))

/-! # Pre-emption, restores, halt groups -/

namespace Sys2Proof.Machine

/-- A status is on its way to a SYS instruction's destination; its latency is not given (log 4). -/
def Status (s t : State) (d : BitVec 5) (st : Nat) : Prop :=
  t.dev.last = .issued ∧ t.me.pc = s.me.pc + s.dev.len ∧ (d ≠ 0 → (t.me.gr d).st = .empty ∧ (t.me.gr d).prod = .pend s.dev.nextId) ∧
    ∃ dt, 1 ≤ dt ∧ dt ≤ 400 ∧ Replied s t s.dev.nextId dt s.dev.cur [(d, ofN st)]
/-- The status of number `id` reaches its register. -/
def Answer (s t : State) (id dt loc : Nat) (d : BitVec 5) (st : Nat) : Prop := Replied s t id dt loc [(d, ofN st)]
/-- Halt group `g` is halted (R320). -/
abbrev State.isHalted (s : State) (g : Nat) : Prop := bitN (s.dev.hgc.toArray.getD g 0) 0 = true
/-- A thread of slot `l`, or one behind a LENT slot, saves to a retired area (R312, R342). -/
def State.retiredAt (s : State) (l : Nat) : Prop :=
  ((s.dev.thread l).st ≠ .vacant ∧ retired s.dev (s.dev.thread l).area = true) ∨ ∃ y, s.dev.lentOut.get? l = some y ∧ retired s.dev y.2.area = true
/-- What an operation of JTAG on a group does (R320, R348): nothing while it is locked, else it leaves what `f` says. -/
def State.byJtag (s : State) (g op : Nat) (as : List Nat) (f : State → Prop) : Prop := s.dev.args = g :: op :: as →
  (s.dev.jtagOpen = false → ∃ t, exec .jtagHalt s = .next t ∧ t.dev.hgc = s.dev.hgc ∧ t.dev.hbp = s.dev.hbp ∧ t.dev.threads = s.dev.threads) ∧
  (s.dev.jtagOpen = true → ∃ t, exec .jtagHalt s = .next t ∧ t.mem = s.mem ∧ f t)
/-- An arrival that waits for a status. -/
abbrev State.waits (s : State) (id loc : Nat) (d : BitVec 5) : Prop := s.dev.arrs.get? id = some ⟨loc, [(.g d, 0)], 0, false, none, [], false⟩

end Sys2Proof.Machine

/-- R308 to R318: PRMT refuses with its statuses or sets out; what is due stops a row's threads at the deadline; the save engine writes
dirty items and clears their bits; TCCF restores a context to a vacant slot or lends one, or copies a cached context out, with its
statuses; a wake frees a faulted thread, or waits until its core is unfrozen. All of them, and R317, R319 to R323, are privileged.
The model's own choices, no rules of the spec: log 4, log 86, log 88 and log 89. -/
def Obligations.Preemption : Prop :=
  (∀ (s : State) (d a b : BitVec 5) (m n : Bool) (xs : List D) (v : Dev), s.ready → s.unitCore → s.me.priv = false → s.canTrap → s.start.readGs [a, a + 1, b] = some (xs, v) →
    ∀ i ∈ [Instr.prmt d a b m n, .prmtRow d a b m n, .tccfIn d a b m n, .lrtb d a b m n, .hgrp d a b m n, .resm d a b m n, .halt d a m],
      ∃ t, exec i s = .next t ∧ Trapped s t 0x03 ((encode i).setWidth 64) 0) ∧
  (∀ (s : State) (d a b : BitVec 5) (m n : Bool) (xs : List D) (v : Dev), s.Inv → s.ready → s.unitCore → s.me.priv = true → s.start.claim d → s.start.readGs [a, b] = some (xs, v) →
    ∀ i ∈ [Instr.prmt d a b m n, .prmtRow d a b m n],
    let x := xs.getD 0 0
    let l := fieldN x 14 0 * 16 + fieldN x 19 16
    let k := rowKeyOf (fieldN x 14 0)
    let row := s.dev.row k
    let answers := fun st => ∃ t, exec i s = .next t ∧ Status s t d st ∧ t.dev.preempts = s.dev.preempts ∧ t.mem = s.mem
    (¬(kindOf (fieldN x 14 0) = 0 ∧ unitOf (fieldN x 14 0) < 64 ∧ idxOf (fieldN x 14 0) < 48) → answers 6) ∧
    (realCompute (fieldN x 14 0) = true → bitN x 20 = false →
      (fieldN x 19 16 = 0 ∨ row.det = true → answers 6) ∧
      (fieldN x 19 16 ≠ 0 → row.det = false →
        ((s.dev.thread l).st = .vacant → answers 2) ∧
        ((s.dev.thread l).st ≠ .vacant → row.gang = false →
          (row.preempt ≠ none ∨ (∃ p ∈ s.dev.preempts, l ∈ p.2.locs) → answers 7) ∧
          (row.preempt = none → (∀ p ∈ s.dev.preempts, l ∉ p.2.locs) →
            (bitN (s.dev.core (fieldN x 14 0)).sab 0 = false → answers 8) ∧
            (bitN (s.dev.core (fieldN x 14 0)).sab 0 = true → bitN x 21 = true → s.retiredAt l → answers 8) ∧
            (bitN (s.dev.core (fieldN x 14 0)).sab 0 = true → (bitN x 21 = true → ¬s.retiredAt l) →
              (bitN x 22 = false → (∃ y ∈ s.dev.bars, 2 ^ 20 ≤ y.1 ∧ l ∈ y.2.regs) → answers 5) ∧
              (bitN x 22 = true ∨ (∀ y ∈ s.dev.bars, y.1 < 2 ^ 20 ∨ l ∉ y.2.regs) →
                ((freeCache s.dev (fieldN x 14 0)).length < (if s.dev.lentOut.get? l = none then 1 else 2) → answers 3) ∧
                ((if s.dev.lentOut.get? l = none then 1 else 2) ≤ (freeCache s.dev (fieldN x 14 0)).length → ∃ t p j, exec i s = .next t ∧ t.mem = s.mem ∧ t.me.pc = s.me.pc + s.dev.len ∧
                  (d ≠ 0 → (t.me.gr d).st = .empty) ∧ t.dev.preempts.get? s.dev.nextId = some p ∧ p.locs = [l] ∧ p.row = none ∧ p.mem = bitN x 21 ∧ p.phase = 1 ∧ 1 ≤ j ∧ j ≤ 16 ∧
                  (⟨s.dev.cycle + j, .checkpointStreamWrite, [1, s.dev.nextId]⟩ : Event) ∈ t.dev.events))))))) ∧
    (realCompute (fieldN x 14 0) = true → bitN x 20 = true →
      (row.state ≠ 2 → answers 2) ∧ (row.state = 2 → row.preempt ≠ none → answers 7) ∧
      (row.state = 2 → row.preempt = none → (∀ p ∈ s.dev.preempts, ∀ y ∈ p.2.locs, y ∉ rowSlots k) →
        ((∃ p, p < 4 ∧ bitN (s.dev.core (rowCore k p)).sab 0 = false) ∨ (∃ y ∈ rowSlots k, s.retiredAt y) → answers 8) ∧
        ((∀ p, p < 4 → bitN (s.dev.core (rowCore k p)).sab 0 = true) → (∃ y, rowTable s.mem s.dev k = .ok (some y)) → (∀ y ∈ rowSlots k, ¬s.retiredAt y) →
          ∃ t p, exec i s = .next t ∧ t.mem = s.mem ∧ t.dev.preempts.get? s.dev.nextId = some p ∧ p.locs = rowSlots k ∧ p.row = some k ∧ p.phase = 0 ∧
            (∀ y ∈ rowSlots k, (s.dev.thread y).st ≠ .vacant → (s.dev.thread y).st ≠ .run → (t.dev.thread y).stopped ≠ none) ∧
            (⟨s.dev.cycle + fieldN (xs.getD 1 0) 31 0, .preemptDeadline, [s.dev.nextId]⟩ : Event) ∈ t.dev.events)))) ∧
  (∀ (s : State) (id : Nat) (p : Preempt), s.dev.preempts.get? id = some p →
    (s.dev.args = [id] → (p.phase = 0 → ∃ t, exec .preemptDeadline s = .next t ∧ t.mem = s.mem ∧ ∀ l ∈ p.locs, (s.dev.thread l).st ≠ .vacant → (t.dev.thread l).stopped ≠ none) ∧
      (p.phase ≠ 0 → ∃ t, exec .preemptDeadline s = .next t ∧ t.dev.threads = s.dev.threads)) ∧
    (∀ l d loc, s.dev.args = [1, id] → s.waits id loc d → p.phase = 1 → p.row = none → p.wake = false → p.locs = [l] →
      ((s.dev.thread l).st = .vacant → ∃ t, exec .checkpointStreamWrite s = .next t ∧ Answer s t id 1 loc d 2 ∧ t.dev.preempts = s.dev.preempts.erase id) ∧
      ((s.dev.thread l).st ≠ .vacant → journalState s.dev l = some false → ∃ t, exec .checkpointStreamWrite s = .next t ∧ Answer s t id 1 loc d 4 ∧ t.dev.preempts = s.dev.preempts.erase id ∧
        (t.dev.thread l).stopped = none ∧ (t.dev.thread l).st = (s.dev.thread l).st ∧ (t.dev.thread l).pc = (s.dev.thread l).pc))) ∧
  (∀ (s : State) (ca : Nat), s.Inv → s.dev.args = [0, ca] →
    (bitN (s.dev.core ca).sab 1 = false → ∃ t, exec .checkpointStreamWrite s = .next t ∧ t.mem = s.mem ∧ t.dev.threads = s.dev.threads) ∧
    (∀ l b i, bitN (s.dev.core ca).sab 1 = true → streamNext s.dev ca = some (l, b, i) → let u := threadAt s.dev l b
      areaFault s.mem s.dev u.area = none → u.area < 2 ^ 60 →
      ∃ t n, exec .checkpointStreamWrite s = .next t ∧ 1 ≤ n ∧ n ≤ 16 ∧ (⟨s.dev.cycle + n, .checkpointStreamWrite, [0, ca]⟩ : Event) ∈ t.dev.events ∧
        (threadAt t.dev l b).dirty = u.dirty &&& ~~~((1 : BitVec 160) <<< i) ∧
        (i < 32 → rd64 t.mem t.dev (u.area + 0x200 + 8 * i) = (u.g.toArray.getD i (.ofVal 0)).val))) ∧
  (∀ (s : State) (d a b : BitVec 5) (m n : Bool) (xs : List D) (v : Dev), s.Inv → s.ready → s.unitCore → s.me.priv = true → s.start.claim d → s.start.readGs [a, a + 1, b] = some (xs, v) →
    let name : Q := xs.getD 1 0 ++ xs.getD 0 0
    let x := xs.getD 2 0
    let mode := fieldN x 2 0
    (nmClass name = 0 ∨ 6 < nmClass name → s.canTrap → ∃ t, exec (.tccfIn d a b m n) s = .next t ∧ Trapped s t 0x10 (xs.getD 0 0) (xs.getD 1 0)) ∧
    (1 ≤ nmClass name → nmClass name ≤ 6 →
      (mode = 3 ∨ 4 < mode ∨ (mode = 0 ∧ fieldN x 63 22 ≠ 0) → ∃ t, exec (.tccfIn d a b m n) s = .next t ∧ Status s t d 6 ∧ t.mem = s.mem) ∧
      (∀ y ∈ [(1, Instr.tccfLazy), (2, .tccfLend), (4, .tccfOut)], mode = y.1 → ∃ t, exec (.tccfIn d a b m n) s = .next t ∧ t.mem = s.mem ∧ t.me = { s.me.pendG d s.dev.nextId with pc := s.me.pc + s.dev.len } ∧
        t.waits s.dev.nextId s.dev.cur d ∧ (⟨s.dev.cycle + 1, y.2, [s.dev.nextId, name.toNat, x.toNat]⟩ : Event) ∈ t.dev.events) ∧
      (mode = 0 → fieldN x 63 22 = 0 → realCompute (fieldN x 21 7) = true → tableHeld s.dev 0 name = false → liveThread s.mem s.dev name = true →
        let l := fieldN x 21 7 * 16 + fieldN x 6 3
        let row := s.dev.row (rowKeyOf (fieldN x 21 7))
        (findContext s.dev name = some .slot → ∃ t, exec (.tccfIn d a b m n) s = .next t ∧ Status s t d 2 ∧ t.mem = s.mem) ∧
        (∀ c e u, findContext s.dev name = some (.cache c e u) → canStart s.dev (fieldN x 21 7) = true → (∀ p ∈ s.dev.preempts, l ∉ p.2.locs) → (s.dev.thread l).st = .vacant → row.state = 2 →
          row.launch = u.launch → (u.qm = true → c = fieldN x 21 7) → u.hgrp = none → u.st = .run → u.records = [] →
          ∃ t, exec (.tccfIn d a b m n) s = .next t ∧ Replied s t s.dev.nextId 64 s.dev.cur [(d, 0)] ∧ t.me.pc = s.me.pc + s.dev.len ∧ (t.dev.thread l).name = u.name ∧ (t.dev.thread l).pc = u.pc ∧
            (t.dev.thread l).st = .run ∧ (t.dev.thread l).g = u.g ∧ (t.dev.core c).tcc = (s.dev.core c).tcc.erase e)))) ∧
  (∀ (s : State) (id loc : Nat) (d : BitVec 5) (name : Q) (x : D), s.Inv → s.dev.args = [id, name.toNat, x.toNat] → s.waits id loc d →
    let ca := fieldN x 21 7
    let l := ca * 16 + fieldN x 6 3
    let row := s.dev.row (rowKeyOf ca)
    let answers := fun (i : Instr) (st : Nat) => ∃ t dt, exec i s = .next t ∧ 1 ≤ dt ∧ dt ≤ 400 ∧ Answer s t id dt loc d st ∧ t.mem = s.mem ∧ t.dev.threads = s.dev.threads
    (fieldN x 63 22 = 0 → fieldN x 2 0 ≤ 2 → realCompute ca = true → ¬(fieldN x 2 0 = 2 ∧ (row.gang = true ∨ row.det = true)) → tableHeld s.dev 0 name = false → ∀ i ∈ [Instr.tccfLazy, .tccfLend],
      (liveThread s.mem s.dev name = false → answers i 1) ∧
      (liveThread s.mem s.dev name = true → findContext s.dev name = some .slot → answers i 2) ∧
      (∀ c e u, liveThread s.mem s.dev name = true → findContext s.dev name = some (.cache c e u) →
        ((if fieldN x 2 0 = 2 then (s.dev.thread l).st ≠ .faulted else (s.dev.thread l).st ≠ .vacant) → answers i 3) ∧
        (canStart s.dev ca = true → (∀ p ∈ s.dev.preempts, l ∉ p.2.locs) → (s.dev.thread l).st = (if fieldN x 2 0 = 2 then .faulted else .vacant) →
          (row.state ≠ 2 ∨ row.launch ≠ u.launch → answers i 5) ∧
          (row.state = 2 → row.launch = u.launch → (u.qm = true → c = ca) → u.hgrp = none → u.st = .run → u.records = [] →
            ∃ t, exec i s = .next t ∧ Answer s t id 64 loc d 0 ∧ (t.dev.thread l).name = u.name ∧ (t.dev.thread l).pc = u.pc ∧ (t.dev.thread l).startAt = s.dev.cycle + 64 ∧
              (t.dev.core c).tcc = (s.dev.core c).tcc.erase e ∧ (fieldN x 2 0 ≠ 2 → (t.dev.thread l).st = .run) ∧
              (fieldN x 2 0 = 2 → (t.dev.thread l).st = .lent ∧ (t.dev.thread l).lent = true ∧ (t.dev.lentOut.get? l).map (·.2.st) = some .faulted))))) ∧
    (fieldN x 2 0 = 4 → (fieldN x 10 3 ≠ 0 → answers .tccfOut 6) ∧
      (fieldN x 10 3 = 0 → tableHeld s.dev 0 name = false → areaHeld s.dev (fieldN x 12 11 * 2 ^ 56 + fieldN x 63 13 * 8192 % 2 ^ 56) = false →
        (liveThread s.mem s.dev name = false → answers .tccfOut 1) ∧
        (liveThread s.mem s.dev name = true → findContext s.dev name = some .slot → answers .tccfOut 2) ∧
        (∀ c e u dst d', liveThread s.mem s.dev name = true → findContext s.dev name = some (.cache c e u) → s.dev.preempts = [] → bitN (s.dev.core c).sab 0 = true →
          dst = fieldN x 12 11 * 2 ^ 56 + fieldN x 63 13 * 8192 % 2 ^ 56 → retired s.dev dst = false → saveArea s.mem s.dev u (savedTst s.dev u) dst true = .ok d' →
          ∃ t dt w, exec .tccfOut s = .next t ∧ Answer s t id dt loc d 0 ∧ (t.dev.core c).tcc = (s.dev.core c).tcc.erase e ∧ t.dev.away = s.dev.away ++ [w] ∧ w.name = u.name ∧ w.area = dst)))) ∧
  (∀ (s : State) (name : Q) (l : Nat) (u : Thread), s.dev.args = [name.toNat] → s.dev.threads = [(l, u)] → u.name = name → u.st ≠ .vacant →
    ((s.dev.core (coreOf l)).frozen = true → ∃ t, exec .wakeMessage s = .next t ∧ t.dev.threads = s.dev.threads ∧ (⟨s.dev.cycle + 16, .wakeMessage, [name.toNat]⟩ : Event) ∈ t.dev.events) ∧
    ((s.dev.core (coreOf l)).frozen = false →
    (u.st = .faulted → ∃ t, exec .wakeMessage s = .next t ∧ t.mem = s.mem ∧ t.dev.thread l = { u with st := .run }) ∧
    (u.st = .halted → u.preHalt = .faulted → ∃ t, exec .wakeMessage s = .next t ∧ t.dev.thread l = { u with wakeKept := true }) ∧
    (u.st ≠ .faulted → u.st ≠ .halted → ∃ t, exec .wakeMessage s = .next t ∧ t.dev.threads = s.dev.threads)))

/-- R316, R317, R319 to R324: LRTB binds a row's table; HGRP moves threads to a group and answers the old one; HALT halts a group with
those in its XMASK and its trigger sets out to every core; RESM resumes them, or lets each run one instruction and halts them again;
a hardware breakpoint and a JTAG request halt; JTAG also resumes, steps, and writes and reads the words of a group, once it is open
(which operations it has and in what form: log 135).
The model's own choices, no rules of the spec: log 4, log 87 and log 135. -/
def Obligations.HaltGroups : Prop :=
  (∀ (s : State) (d a b : BitVec 5) (m n : Bool) (xs : List D) (v : Dev), s.ready → s.unitCore → s.me.priv = true → s.me.st = .run → s.start.claim d → s.start.readGs [a, b] = some (xs, v) →
    let x := xs.getD 0 0
    let y := xs.getD 1 0
    (-- LRTB: g[a] the table's address, g[b] the target word
      let k := rowKeyOf (fieldN y 14 0)
      let answers := fun st => ∃ t, exec (.lrtb d a b m n) s = .next t ∧ Status s t d st ∧ t.dev.rows = s.dev.rows ∧ t.mem = s.mem
      (x.toNat % 64 ≠ 0 ∨ winCode x ≠ 0 → answers 1) ∧
      (x.toNat % 64 = 0 → winCode x = 0 → (realCompute (fieldN y 14 0) = false → answers 3) ∧
        (realCompute (fieldN y 14 0) = true → (s.dev.row k).state ≠ 2 → answers 2) ∧
        (realCompute (fieldN y 14 0) = true → (s.dev.row k).state = 2 → ∃ t, exec (.lrtb d a b m n) s = .next t ∧ Status s t d 0 ∧ t.mem = s.mem ∧ t.dev.row k = { s.dev.row k with lrp := x } ∧
          ∀ l ∈ rowSlots k, (s.dev.thread l).st ≠ .vacant → (t.dev.thread l).lrp = x))) ∧
    (-- HGRP: g[a] the target word, g[b] the group
      let g := fieldN y 4 0
      let l := fieldN x 14 0 * 16 + fieldN x 19 16
      (16 ≤ g → g ≠ 31 → ∃ t, exec (.hgrp d a b m n) s = .next t ∧ Status s t d 0xFF ∧ ∀ j, (t.dev.thread j).hgrp = (s.dev.thread j).hgrp) ∧
      (g < 16 ∨ g = 31 → (s.dev.thread l).hgrp.getD 31 < 32 → bitN x 20 = true → kindOf (fieldN x 14 0) = 0 → ∃ t, exec (.hgrp d a b m n) s = .next t ∧ t.dev.last = .issued ∧
        ∀ j ∈ rowSlots (rowKeyOf (fieldN x 14 0)), (s.dev.thread j).st ≠ .vacant → (t.dev.thread j).hgrp = if g = 31 then none else some g) ∧
      (g < 16 ∨ g = 31 → (s.dev.thread l).hgrp.getD 31 < 32 → bitN x 20 = false → isGang s.dev l = false → (s.dev.thread l).st ≠ .vacant → ∃ t, exec (.hgrp d a b m n) s = .next t ∧ Status s t d ((s.dev.thread l).hgrp.getD 31) ∧
        (t.dev.thread l).hgrp = (if g = 31 then none else some g) ∧ ∀ j, j ≠ l → (t.dev.thread j).hgrp = (s.dev.thread j).hgrp)) ∧
    (-- RESM: g[a] the group, g[b] bit 0 a single step
      let g := fieldN x 3 0
      (¬s.isHalted g → ∃ t, exec (.resm d a b m n) s = .next t ∧ Status s t d 1 ∧ t.dev.hgc = s.dev.hgc) ∧
      (s.isHalted g → bitN y 0 = true → ∃ t, exec (.resm d a b m n) s = .next t ∧ Status s t d 0 ∧ t.dev.hgc = s.dev.hgc ∧ (⟨s.dev.cycle, .resmStep, [g]⟩ : Event) ∈ t.dev.events) ∧
      (s.isHalted g → bitN y 0 = false → ∃ t, exec (.resm d a b m n) s = .next t ∧ Status s t d 0 ∧ (∀ k ∈ groupSet s.dev g, ¬t.isHalted k) ∧
        ∀ l u h, s.dev.threads.filter (fun z => z.2.st = .halted) = [(l, u)] → s.dev.thread l = u → u.hgrp = some h → h ∈ groupSet s.dev g → u.limit = none →
          (t.dev.thread l).st = (if u.preHalt = .faulted ∧ u.wakeKept = true then .run else u.preHalt) ∧ (t.dev.thread l).pc = u.pc))) ∧
  (∀ (s : State) (d a : BitVec 5) (m : Bool) (xs : List D) (v : Dev), s.ready → s.unitCore → s.me.priv = true → s.start.claim d → s.start.readGs [a] = some (xs, v) →
    let g := fieldN (xs.getD 0 0) 3 0
    (s.isHalted g → ∃ t, exec (.halt d a m) s = .next t ∧ Status s t d 1 ∧ t.dev.hgc = s.dev.hgc) ∧
    (¬s.isHalted g → ∃ t, exec (.halt d a m) s = .next t ∧ Status s t d 0 ∧ t.mem = s.mem ∧ ∀ k ∈ groupSet s.dev g, t.isHalted k ∧
      (¬s.isHalted k → let y := t.dev.hgc.toArray.getD k 0
        fieldN y 31 24 = 0 ∧ fieldN y 23 9 = coreOf s.dev.cur % 2 ^ 15 ∧ fieldN y 8 5 = slotOf s.dev.cur ∧
        ∀ l u, (l, u) ∈ s.dev.threads → u.st ≠ .vacant → ∃ j, j ≤ 96 ∧ (⟨s.dev.cycle + j, .haltTriggerArrival, [k, coreOf l]⟩ : Event) ∈ t.dev.events))) ∧
  (∀ (s : State) (g ca : Nat), s.dev.args = [g, ca] → g < 16 →
    (¬s.isHalted g → ∃ t, exec .haltTriggerArrival s = .next t ∧ t.dev.cores = s.dev.cores ∧ t.dev.threads = s.dev.threads) ∧
    (s.isHalted g → (s.dev.core ca).frozen = true → ∃ t, exec .haltTriggerArrival s = .next t ∧ t.dev.threads = s.dev.threads ∧ (⟨s.dev.cycle + 16, .haltTriggerArrival, [g, ca]⟩ : Event) ∈ t.dev.events) ∧
    (s.isHalted g → (s.dev.core ca).frozen = false → ∃ t, exec .haltTriggerArrival s = .next t ∧ t.mem = s.mem ∧ (t.dev.core ca).haltArr.getLsbD g = true ∧
      ∀ k, k < 16 → let u := s.dev.thread (ca * 16 + k)
        (u.st = .faulted → u.hgrp = some g → (t.dev.thread (ca * 16 + k)).st = .halted ∧ (t.dev.thread (ca * 16 + k)).preHalt = .faulted) ∧
        (u.st ≠ .faulted ∨ u.hgrp ≠ some g → t.dev.thread (ca * 16 + k) = u))) ∧
  (∀ (s : State) (g : Nat), s.dev.args = [g] → g < 16 →
    (¬s.isHalted g → ∃ t, exec .resmStep s = .next t ∧ t.dev.threads = s.dev.threads ∧ t.dev.events = s.dev.events) ∧
    (s.isHalted g → ∃ t, exec .resmStep s = .next t ∧ t.mem = s.mem ∧ (∀ k ∈ groupSet s.dev g, ¬t.isHalted k) ∧ (⟨s.dev.cycle + 1, .stepEnd, [g, s.dev.cycle + 1024]⟩ : Event) ∈ t.dev.events ∧
      ∀ l u h, s.dev.threads = [(l, u)] → u.st = .halted → u.preHalt = .run → u.hgrp = some h → h ∈ groupSet s.dev g → u.limit = none → (t.dev.thread l).stepping = true ∧ (t.dev.thread l).st = .run) ∧
    (s.dev.jtagOpen = true → ¬s.isHalted g → ∃ t, exec .jtagHalt s = .next t ∧ t.mem = s.mem ∧ ∀ k ∈ groupSet s.dev g, t.isHalted k) ∧
    (s.dev.jtagOpen = false ∨ s.isHalted g → ∃ t, exec .jtagHalt s = .next t ∧ t.dev.hgc = s.dev.hgc)) ∧
  (∀ (s : State) (g w x : Nat) (c : D), g < 16 → w < 5 → s.dev.hgc.toArray[g]? = some c →
    -- R320, R348: resume, one step, a write and a read of the group's words
    s.byJtag g 1 [] (fun t => (s.isHalted g → ∀ k ∈ groupSet s.dev g, ¬t.isHalted k) ∧ (¬s.isHalted g → t.dev.hgc = s.dev.hgc)) ∧
    s.byJtag g 2 [] (fun t => t.dev.hgc = s.dev.hgc ∧ (s.isHalted g → (⟨s.dev.cycle, .resmStep, [g]⟩ : Event) ∈ t.dev.events)) ∧
    s.byJtag g 3 [w, x] (fun t => (w = 0 → t.dev.hgc.toArray[g]? = some ((c &&& 0xFFFF0000FFFFFFF7) ||| (ofN x &&& 0x0000FFFF00000008))) ∧ (1 ≤ w → t.dev.hgc = s.dev.hgc ∧ (∀ y, s.dev.hbp.toArray[4 * g + (w - 1)]? = some y →
          t.dev.hbp.toArray[4 * g + (w - 1)]? = some (ofN x &&& 0x80FFFFFFFFFFFFFC)))) ∧
    s.byJtag g 4 [w] (fun t => t.dev.hgc = s.dev.hgc ∧ (w = 0 → t.dev.hostReply = .value c.toNat) ∧
      (1 ≤ w → ∀ y, s.dev.hbp.toArray[4 * g + (w - 1)]? = some y → t.dev.hostReply = .value y.toNat))) ∧
  (∀ (s : State) (g due : Nat), s.dev.args = [g, due] → g < 16 →
    (s.dev.cycle < due → (∃ z ∈ s.dev.threads, z.2.stepping = true ∧ (z.2.st = .run ∨ z.2.st = .lent) ∧ ∃ h, z.2.hgrp = some h ∧ h ∈ groupSet s.dev g) →
      ∃ t, exec .stepEnd s = .next t ∧ t.dev.threads = s.dev.threads ∧ (⟨s.dev.cycle + 1, .stepEnd, [g, due]⟩ : Event) ∈ t.dev.events) ∧
    (due ≤ s.dev.cycle ∨ (∀ z ∈ s.dev.threads, z.2.stepping = false) → ∃ t, exec .stepEnd s = .next t ∧ t.mem = s.mem ∧ (∀ k ∈ groupSet s.dev g, t.isHalted k) ∧
      ∀ z ∈ t.dev.threads, z.2.st ≠ .vacant → ∀ h, z.2.hgrp = some h → h ∈ groupSet s.dev g → z.2.st = .halted ∧ z.2.stepping = false)) ∧
  (∀ (s : State) (l : Nat), s.dev.args = [l] → (s.dev.thread l).st ≠ .halted → ∃ t, exec .hwBreakpointMatch s = .next t ∧ t.mem = s.mem ∧ t.dev.last = .lost ∧
    t.dev.thread l = { s.dev.thread l with preHalt := (s.dev.thread l).st, haltAt := s.dev.cycle, st := .halted } ∧
    ∀ g, g < 16 → (s.dev.thread l).hgrp = some g → ∀ k ∈ groupSet s.dev g, t.isHalted k)

/-! # Arrivals and queues -/

namespace Sys2Proof.Machine

/-- The state in which request `id` is about to be performed again. -/
def State.retry (s : State) (id : Nat) (r : Req) : State := { s with dev := { s.dev with reqs := s.dev.reqs.set id { r with phase := .sent } } }
/-- No code word of the nodes that a walk fetches has to be corrected (R342). -/
def State.nodesClean (s : State) (root : D) (va : Nat) : Prop := ∀ k ∈ walkKeys s.mem s.dev va 4 (root.toNat % 2 ^ 58), Mem.read s.mem (errKey k) ≠ 1
/-- `x` is the first of those that wait at queue `q`, or comes while none waits there. -/
def AtHead {α} (l : List (Nat × α)) (q : Nat) (x : α) : Prop := (∀ y ∈ l, y.2 = x → y.1 = q) ∧ ∀ y, l.find? (fun z => z.1 = q) = some y → y.2 = x
/-- The name of a queue is in the name cache of a core's tile, and no entry of it has to be waited for. -/
def cachedName (s : State) (ca : Nat) (n : Q) (x : NcEntry) : Prop := nmChip n = Config.chipTag.toNat ∧ tableHeld s.dev (dieOf ca) n = false ∧ ∃ tl, cacheTile ca = some tl ∧ ncFind s.dev tl n = some x

end Sys2Proof.Machine

/-- R24, R35, R36, R129, R141, R142, R150, R155, R161, R164, R260, R278: what arrives later. A producer's value makes its register FULL
unless another instruction has claimed it; a fault leaves it EMPTY behind the fault; a walk installs its entry or leaves its refusal, and
waits while one of its nodes lies in a granule that a copy has locked (with no node word to correct, R342); a line enters the instruction store; a request that waited for a
page, a hold or the conversion engine is performed; a hold for an RSV ends; a host completion that does not come is a status or a fault.
The model's own choices, no rules of the spec: log 10, log 30, log 46, log 76, log 100, log 127 and log 128. -/
def Obligations.Arrivals : Prop :=
  (∀ (s : State) (id l : Nat) (fl : Fp.Flags) (fp gm : Bool), s.dev.args = [id] → s.dev.lentOut.get? l = none → ∀ i ∈ [Instr.producerValueArrival, .uniPostArrival],
    (∀ r x, s.dev.arrs.get? id = some ⟨l, [(.g r, x)], fl, fp, none, [], gm⟩ → ∃ t, exec i s = .next t ∧ t.mem = s.mem ∧ t.dev.arrs = s.dev.arrs.erase id ∧
      (((s.dev.thread l).gr r).prod = .pend id → r ≠ 0 → (t.dev.thread l).gr r = .ofVal (x.setWidth 64)) ∧ (((s.dev.thread l).gr r).prod ≠ .pend id → (t.dev.thread l).gr r = (s.dev.thread l).gr r) ∧
      (∀ j, j ≠ r → (t.dev.thread l).gr j = (s.dev.thread l).gr j) ∧ (t.dev.thread l).pc = (s.dev.thread l).pc ∧
      (t.dev.thread l).fpm = if fp = true then (s.dev.thread l).fpm ||| (fl.setWidth 64 <<< 8) else (s.dev.thread l).fpm) ∧
    (∀ r x, s.dev.arrs.get? id = some ⟨l, [(.v r, x)], fl, fp, none, [], gm⟩ → ∃ t, exec i s = .next t ∧ t.dev.arrs = s.dev.arrs.erase id ∧
      (((s.dev.thread l).vr r).prod = .pend id → (t.dev.thread l).vr r = .ofVal (x.setWidth 1024)) ∧ (((s.dev.thread l).vr r).prod ≠ .pend id → (t.dev.thread l).vr r = (s.dev.thread l).vr r)) ∧
    (∀ x, s.dev.arrs.get? id = some ⟨l, [(.xa, x)], fl, fp, none, [], gm⟩ → ∃ t, exec i s = .next t ∧ (t.dev.thread l).xa = x)) ∧
  (∀ (s : State) (id l : Nat) (r : BitVec 5) (f : DFault) (gm : Bool), s.dev.args = [id] → s.dev.lentOut.get? l = none → s.dev.arrs.get? id = some ⟨l, [(.g r, 0)], 0, false, some f, [], gm⟩ →
    ∃ t, exec .loadFaultArrival s = .next t ∧ t.mem = s.mem ∧ (t.dev.thread l).faults.get? id = some f ∧ t.dev.arrs = s.dev.arrs.erase id ∧
      (((s.dev.thread l).gr r).prod = .pend id → r ≠ 0 → (t.dev.thread l).gr r = ⟨((s.dev.thread l).gr r).val, .empty, .fault id⟩) ∧ (∀ j, j ≠ r → (t.dev.thread l).gr j = (s.dev.thread l).gr j) ∧
      (f.xacc = true → (t.dev.thread l).xa = 0) ∧ (f.xacc = false → (t.dev.thread l).xa = (s.dev.thread l).xa)) ∧
  (∀ (s : State) (l kind : Nat) (va : D) (w : Walk), s.Inv → s.dev.args = [l, va.toNat, kind] → kind ≠ 4 → (s.dev.tile (tlbTile l)).walks = [w] → w.loc = l → w.va = va → w.kind = kind → s.nodesClean w.ctx va.toNat →
    (walkHeld s.mem s.dev w.ctx va.toNat = true → ∃ t, exec .placementTlbWalk s = .next t ∧ t.mem = s.mem ∧ t.dev.tiles = s.dev.tiles ∧ t.dev.threads = s.dev.threads ∧
      (⟨s.dev.cycle + 16, .placementTlbWalk, s.dev.args⟩ : Event) ∈ t.dev.events) ∧
    (∀ p r lv, walkHeld s.mem s.dev w.ctx va.toNat = false → (walk s.mem s.dev w.ctx va.toNat kind w.user).2 = .leaf p r lv → (s.dev.tile (tlbTile l)).tlb.length < 512 → ∃ t, exec .placementTlbWalk s = .next t ∧ t.mem = s.mem ∧
      (t.dev.tile (tlbTile l)).walks = [] ∧ (t.dev.tile (tlbTile l)).tlb = (s.dev.tile (tlbTile l)).tlb ++ [⟨w.ctx, va.toNat / leafSize lv * leafSize lv, leafSize lv, p, r⟩]) ∧
    (∀ c aux, walkHeld s.mem s.dev w.ctx va.toNat = false → (walk s.mem s.dev w.ctx va.toNat kind w.user).2 = .refused c aux → ∃ t, exec .placementTlbWalk s = .next t ∧ t.mem = s.mem ∧ (t.dev.tile (tlbTile l)).walks = [] ∧
      t.dev.thread l = { s.dev.thread l with refusal := some (va, kind, c, aux) })) ∧
  (∀ (s : State) (l ln : Nat), s.Inv → s.dev.args = [l, ln] → 256 * ln < 2 ^ 64 →
    let ctx := rootOf (ctxOf s.dev l)
    let user := !(s.dev.thread l).priv
    s.nodesClean ctx (256 * ln) →
    (∀ c aux, walkHeld s.mem s.dev ctx (256 * ln) = false → firstStage s.mem s.dev ctx (256 * ln) 2 user = .refused c aux → ∃ t, exec .instructionStoreRefill s = .next t ∧ t.mem = s.mem ∧
      t.dev.thread l = { s.dev.thread l with refusal := some (ofN (256 * ln), 2, c, aux) }) ∧
    (∀ p w lv k h, walkHeld s.mem s.dev ctx (256 * ln) = false → firstStage s.mem s.dev ctx (256 * ln) 2 user = .leaf p w lv →
      coreTarget (pageTarget s.dev (masterOf ((s.dev.thread l).at l)) ctx w true false (256 * ln) p (leafSize lv)) = .byte k h → (∀ i, i < 8 → Mem.read s.mem (errKey (k + 32 * i)) = 0) →
      ∃ t, exec .instructionStoreRefill s = .next t ∧ t.mem = s.mem ∧ (storeOf t.dev l).get? ln = some (BitVec.ofNat 2048 (rdN s.mem s.dev k 256)))) ∧
  (∀ (s : State) (id key : Nat) (r : Req) (p : Part), s.dev.reqs.get? id = some r → AtVault (s.retry id r) id { r with phase := .sent } p key →
    let old := wordAt s.mem key p.size
    let fe := Mem.read s.mem (feKey key) != 0
    ∀ i ∈ [Instr.heldStorePerform, .nonresidentRequestPerformed],
      (∀ e, r.op = .st → r.ent = some e → ∃ t, exec i s = .next t ∧ Wrote s t key p.size p.data.toNat fe ∧ Acknowledged s t id r e) ∧
      (∀ sg n, r.op = .ld sg → r.dst = .g n → (siblingStores (s.retry id r).dev { r with phase := .sent }).1 = [] → ∃ t, exec i s = .next t ∧ t.mem = s.mem ∧ Answered s t id r [(.g n, (loadValue sg p.size old).setWidth 6400)])) ∧
  (∀ (s : State) (id die : Nat) (r : Req) (p : Part), s.dev.args = [id] → s.dev.reqs.get? id = some r → r.parts = [p] → target s.dev r p = .nonresident die →
    ∃ t, exec .nonresidentRequestPerformed s = .next t ∧ t.mem = s.mem ∧ t.dev.reqs = s.dev.reqs ∧ (⟨s.dev.cycle + 16, .nonresidentRequestPerformed, [id]⟩ : Event) ∈ t.dev.events) ∧
  (∀ (s : State) (id : Nat) (r : Req), s.dev.args = [id] → s.dev.reqs.get? id = some r → (∀ p ∈ r.parts, ∀ die, target s.dev r p ≠ .nonresident die) →
    -- R157, R166: what is performed at its home, or as a remote-update thread, goes there
    ∀ j, ((∃ op, r.op = .red op) → j = Instr.remoteUpdate) → ((∀ op, r.op ≠ .red op) → (∀ sg, r.op ≠ .ld sg) → r.op ≠ .st → j = .atomicAtHome) → (∀ sg, r.op ≠ .ld sg) → r.op ≠ .st →
      ∃ t, exec .nonresidentRequestPerformed s = .next t ∧ t.mem = s.mem ∧ (t.dev.reqs.get? id).map (·.phase) = some .sent ∧ (⟨s.dev.cycle, j, [id]⟩ : Event) ∈ t.dev.events) ∧
  (∀ (s : State) (id k h : Nat) (r : Req) (p : Part), s.Inv → s.dev.args = [id] → s.dev.reqs.get? id = some r → r.parts = [p] → target s.dev r p = .byte k h →
    compKey (tileAt r.regions s.dev) k = true →
    let tile := k / 2 ^ 56 - 4
    let off := k % 2 ^ 56
    let tl := tileAt r.regions s.dev tile
    let back := max r.back (r.sentAt + 160 - s.dev.cycle)
    (∀ sg n, r.op = .ld sg → r.dst = .g n →
      (∀ x, compRead s.mem s.dev tl tile off p.size = some x → ∃ t, exec .compChunkAccess s = .next t ∧ t.mem = s.mem ∧
        t.dev.arrs.get? id = some ⟨r.loc, [(.g n, BitVec.ofNat 6400 (loadValue sg p.size x).toNat)], 0, false, none, r.posts, false⟩ ∧ (⟨s.dev.cycle + (r.back + 80), .producerValueArrival, [id]⟩ : Event) ∈ t.dev.events) ∧
      (compRead s.mem s.dev tl tile off p.size = none → r.ent = none → ∃ t, exec .compChunkAccess s = .next t ∧ t.mem = s.mem ∧
        (t.dev.arrs.get? id).map (·.fault) = some (some ⟨r.pc, 0x0D, faultTval r p.va, 0x0D, false⟩) ∧ (⟨s.dev.cycle + (r.back + 80), .loadFaultArrival, [id]⟩ : Event) ∈ t.dev.events)) ∧
    (∀ e, r.op = .st → r.ent = some e →
      (∀ d', compWrite s.mem s.dev tl tile off p.size p.data.toNat = some d' → ∃ t, exec .compChunkAccess s = .next t ∧ t.mem = (commit s.mem d').mem ∧
        (⟨d'.cycle + back, .journalAck, [r.core, e]⟩ : Event) ∈ t.dev.events) ∧
      (compWrite s.mem s.dev tl tile off p.size p.data.toNat = none → ∃ t, exec .compChunkAccess s = .next t ∧ t.mem = s.mem ∧
        (⟨s.dev.cycle + back, .journalRefusal, [r.core, e, 0x0B]⟩ : Event) ∈ t.dev.events))) ∧
  (∀ (s : State) (id : Nat), s.dev.args = [id] → ∃ t, exec .reservationHoldExpiry s = .next t ∧ t.mem = s.mem ∧ t.dev.resvHold = s.dev.resvHold.erase id ∧ t.dev.resvs = s.dev.resvs) ∧
  (∀ (s : State) (id : Nat) (r : Req) (p : Part) (n : BitVec 5), s.dev.args = [id] → s.dev.reqs.get? id = some r → r.parts = [p] → r.dst = .g n →
    (r.sf = true → ∃ t, exec .hostCompletionTimeout s = .next t ∧ Answered s t id r [(.g n, 0), (.g (n + 1), 3)]) ∧
    (r.sf = false → r.ent = none → ∃ t, exec .hostCompletionTimeout s = .next t ∧ (t.dev.arrs.get? id).map (·.fault) = some (some ⟨r.pc, 0x0C, faultTval r p.va, 0x19, false⟩) ∧
      (⟨s.dev.cycle + r.back, .loadFaultArrival, [id]⟩ : Event) ∈ t.dev.events) ∧
    (∀ e, r.sf = false → r.ent = some e → ∃ t, exec .hostCompletionTimeout s = .next t ∧ (⟨s.dev.cycle + r.back, .journalRefusal, [r.core, e, 0x0B]⟩ : Event) ∈ t.dev.events))

/-- R175 to R179: an overflow entry returns when the inbox has room, a posted message is placed when the ring has; a SEND to a queue is
written at TAIL, or waits for an entry to free; a RECV from a queue takes the entry at HEAD, or waits for one. Those that wait are served
in the order they came.
The model's own choices, no rules of the spec: log 47, log 51 and log 133. -/
def Obligations.Queues : Prop :=
  (∀ (s : State) (ca : Nat), s.dev.args = [ca] →
    let c := s.dev.core ca
    (∀ x rest, c.overflow = x :: rest → (s.dev.thread (ca * 16 + x.slot)).awaits .inbox = false → (c.inbox.length < 32 → ∃ t, exec .overflowReturn s = .next t ∧ t.mem = s.mem ∧ (t.dev.core ca).inbox = c.inbox ++ [x] ∧ (t.dev.core ca).overflow = rest) ∧
      (32 ≤ c.inbox.length → ∃ t, exec .overflowReturn s = .next t ∧ t.dev.cores = s.dev.cores)) ∧
    (∀ x, c.held = [x] → x.dest = none ∨ ((s.dev.thread (ca * 16 + x.slot)).st ≠ .vacant ∧ x.dest = some (s.dev.thread (ca * 16 + x.slot)).name) → (s.dev.thread (ca * 16 + x.slot)).awaits .inbox = false →
      (c.overflow = [] → c.spill = [] → c.inbox.length < 32 → ∃ t, exec .postedMessagePlacement s = .next t ∧ t.mem = s.mem ∧ (t.dev.core ca).inbox = c.inbox ++ [x] ∧ (t.dev.core ca).held = []) ∧
      (c.overflow ≠ [] ∨ c.spill ≠ [] ∨ 32 ≤ c.inbox.length → c.overflow.length < 1024 → ∃ t, exec .postedMessagePlacement s = .next t ∧ (t.dev.core ca).overflow = c.overflow ++ [x] ∧ (t.dev.core ca).held = []) ∧
      (1024 ≤ c.overflow.length → coreHalted s.dev ca = false → ∃ t, exec .postedMessagePlacement s = .next t ∧ t.dev.cores = s.dev.cores))) ∧
  (∀ (s : State) (ca ent back : Nat) (e : JEntry) (x : NcEntry), s.Inv → s.dev.args = [ca, ent, back] → (s.dev.core ca).journal.get? ent = some e → e.placed = false → e.refused = none → 4 ≤ e.msg.length →
    cachedName s ca (e.addrHi ++ e.addr) x → (∀ z ∈ s.dev.sendQ, z.2 = (ca, ent) → z.1 = (e.addrHi ++ e.addr : Q).toNat) →
    let first := AtHead s.dev.sendQ (e.addrHi ++ e.addr : Q).toNat (ca, ent)
    (¬first → ∃ t, exec .queueAppend s = .next t ∧ t.mem = s.mem ∧ (t.dev.core ca).journal = (s.dev.core ca).journal ∧ (((e.addrHi ++ e.addr : Q).toNat, ca, ent) : Nat × Nat × Nat) ∈ t.dev.sendQ) ∧
    (∀ h, first → readHeader s.mem s.dev e.loc x.w4 = .ok h →
      (h.cap ≤ h.tail - h.head → ∃ t, exec .queueAppend s = .next t ∧ t.mem = s.mem ∧ (t.dev.core ca).journal = (s.dev.core ca).journal ∧
        (((e.addrHi ++ e.addr : Q).toNat, ca, ent) : Nat × Nat × Nat) ∈ t.dev.sendQ) ∧
      (∀ k, h.tail - h.head < h.cap → keyOfVa s.mem s.dev e.loc (h.ring + ofN (64 * (h.tail % h.cap))) true = .ok k → (h.key + 32 ≤ k ∨ k + 64 ≤ h.key + 24) → k < 2 ^ 71 → h.key < 2 ^ 71 →
        ∃ t, exec .queueAppend s = .next t ∧ (∀ j, j < 4 → rd64 t.mem t.dev (k + 8 * j) = e.msg.getD j 0) ∧
          fieldN (rd64 t.mem t.dev (k + 32)) 52 34 = e.loc % 2 ^ 19 ∧ fieldN (rd64 t.mem t.dev (k + 32)) 63 60 = 0 ∧ rd64 t.mem t.dev (h.key + 24) = ofN (h.tail + 1) ∧
          (t.dev.core ca).journal.get? ent = some { e with placed := true } ∧ (⟨s.dev.cycle + back, .journalAck, [ca, ent]⟩ : Event) ∈ t.dev.events ∧
          (∀ z ∈ t.dev.sendQ, z.2 ≠ (ca, ent)) ∧
          (∀ y, s.dev.recvQ.find? (fun z => z.1 = (e.addrHi ++ e.addr : Q).toNat) = some y → (⟨s.dev.cycle, .queueDequeue, [y.2]⟩ : Event) ∈ t.dev.events) ∧
          ∀ y, t.dev.sendQ.find? (fun z => z.1 = (e.addrHi ++ e.addr : Q).toNat) = some y → ∃ n, (⟨s.dev.cycle, .queueAppend, [y.2.1, y.2.2, n]⟩ : Event) ∈ t.dev.events)) ∧
    (∀ r, first → readHeader s.mem s.dev e.loc x.w4 = .error (some r) → ∃ t, exec .queueAppend s = .next t ∧ (t.dev.core ca).journal.get? ent = some { e with refused := some r, taken := false })) ∧
  (∀ (s : State) (l id : Nat) (name : Q), s.Inv → s.dev.args = [l, id] → (s.dev.thread l).st = .parked → (s.dev.thread l).mig = none → (s.dev.thread l).wait = .namedQueue id name →
    (∀ a, nmClass name ≠ 5 → s.dev.arrs.get? (s.dev.thread l).waitId = some a → ∃ t, exec .queueDequeue s = .next t ∧ t.mem = s.mem ∧ WaitOver s t l ∧
      Failed s t (s.dev.thread l).waitId 0 ⟨(s.dev.thread l).pc, 0x10, name.setWidth 64, 0x10, false⟩) ∧
    (∀ x, nmClass name = 5 → cachedName s (coreOf l) name x → (∀ z ∈ s.dev.recvQ, z.2 = l → z.1 = name.toNat) → ¬AtHead s.dev.recvQ name.toNat l →
      ∃ t, exec .queueDequeue s = .next t ∧ t.mem = s.mem ∧ t.dev.threads = s.dev.threads ∧ ((name.toNat, l) : Nat × Nat) ∈ t.dev.recvQ) ∧
    (∀ x h, nmClass name = 5 → cachedName s (coreOf l) name x → AtHead s.dev.recvQ name.toNat l → readHeader s.mem s.dev l x.w4 = .ok h →
      (h.tail ≤ h.head → ∃ t, exec .queueDequeue s = .next t ∧ t.mem = s.mem ∧ t.dev.threads = s.dev.threads ∧ ((name.toNat, l) : Nat × Nat) ∈ t.dev.recvQ) ∧
      (∀ k a, h.head < h.tail → s.dev.arrs.get? (s.dev.thread l).waitId = some a → keyOfVa s.mem s.dev l (h.ring + ofN (64 * (h.head % h.cap))) true = .ok k → (h.key + 24 ≤ k ∨ k + 64 ≤ h.key + 16) → k < 2 ^ 71 → h.key < 2 ^ 71 →
        ∃ t dt, exec .queueDequeue s = .next t ∧ WaitOver s t l ∧ rd64 t.mem t.dev (h.key + 16) = ofN (h.head + 1) ∧ 90 ≤ dt ∧
          t.dev.arrs.get? (s.dev.thread l).waitId = some { a with vals := ((s.dev.thread l).held.zip ((List.range 4).map fun j => rd64 s.mem s.dev (k + 8 * j))).map fun z => (.g z.1.1, z.2.setWidth 6400) } ∧
          (⟨s.dev.cycle + dt, .producerValueArrival, [(s.dev.thread l).waitId]⟩ : Event) ∈ t.dev.events ∧
          (∀ y, t.dev.recvQ.find? (fun z => z.1 = name.toNat) = some y → (⟨s.dev.cycle, .queueDequeue, [y.2]⟩ : Event) ∈ t.dev.events) ∧
          (∀ y, s.dev.sendQ.find? (fun z => z.1 = name.toNat) = some y → ∃ n, (⟨s.dev.cycle, .queueAppend, [y.2.1, y.2.2, n]⟩ : Event) ∈ t.dev.events) ∧
          (t.dev.thread l).lsnd = fieldN (rd64 s.mem s.dev (k + 32)) 52 34 ∧ (t.dev.thread l).lkind = fieldN (rd64 s.mem s.dev (k + 32)) 63 60)))

/-! # Ports, the host, the platform -/

namespace Sys2Proof.Machine

/-- Bits [hi:lo] of `x` were kept, every other bit is 0. -/
def Keeps (new x : D) (hi lo : Nat) : Prop := ∀ i, i < 64 → bitN new i = (bitN x i && decide (lo ≤ i ∧ i ≤ hi))
/-- The host's access through BAR0 is one that is performed: the part has booted, the host function is not frozen, and the table of the
die's interface, once READY is set (log 90), has the right (R334, R337). -/
structure State.byBar (s : State) (die : Nat) (wr : Bool) : Prop where
  booted : s.dev.stuck = false
  thawed : s.dev.frozenMs.contains hostMaster = false
  may : bitN (s.dev.die die).ctrl 1 = false ∨ grants ((s.dev.die die).access.getD 4352 0) 0 wr = true
/-- A write of 8 bytes by the host: die, offset in its control span, value (R334, R338). -/
abbrev State.spanWrites (s : State) (die off : Nat) (x : D) : Prop := s.byBar die true ∧ die < 4 ∧ s.dev.args = [die, off, x.toNat]
/-- The bytes the host's access of a kind names: it may be performed on them now. -/
structure HostAt (s : State) (va : D) (kind size key : Nat) : Prop where
  clean : s.Inv
  booted : s.dev.stuck = false
  thawed : s.dev.frozenMs.contains hostMaster = false
  place : ∀ i, i < size → placeFor s.mem s.dev (hostU s.dev) (va + ofN i) kind = .ok (.key (key + i))
  sound : ∀ i, i < size → uncorrectable s.mem s.dev (key + i) = false
  free : ∀ i n, i + n ≤ size → keyHeld s.dev (key + i) n = false ∧ heldForOther s.dev noThread (key + i) n = false
  alone : s.dev.feWait = []
  low : key + size ≤ 2 ^ 71
/-- The bytes at a key hold `x`; every other byte is as before, but for the marks of corrected errors. -/
def Stored (s t : State) (key size x : Nat) : Prop :=
  wordAt t.mem key size = x % 256 ^ size ∧ ∀ k, ¬(key ≤ k ∧ k < key + size) → (∀ i, i < size → k ≠ errKey (key + i)) → Mem.read t.mem k = Mem.read s.mem k

end Sys2Proof.Machine

/-- R22, R156, R294, R305, R334 to R337: the control spans. A register takes the bits the spec lets be written, a read gives what it holds; the
ports start and end threads, unfreeze masters, free records, wake threads, pop queues, and drop what is not a write of their size. The
host's accesses wait while it is frozen, and freeze it where its table has not the right.
The model's own choices, no rules of the spec: log 15, log 82, log 90, log 101 and log 117. -/
def Obligations.ControlSpans : Prop :=
  (∀ (s : State) (die tl : Nat) (x : D), tl < 16 →
    let T := die * 16 + tl
    let base := tl * 0x100000
    let writes := fun (off : Nat) (P : State → Prop) => s.spanWrites die (base + off) x → ∃ t, exec .controlRegisterWrite s = .next t ∧ t.mem = s.mem ∧ P t
    writes 0x100 (fun t => (t.dev.tile T).budget = fieldN x 39 32 ∧ (t.dev.tile T).used = (s.dev.tile T).used) ∧
    (∀ n w, n < 12 → w < 4 → writes (0x200 + 32 * n + 8 * w) fun t =>
      let y := (t.dev.row (T * 12 + n)).ctx.toArray.getD w 0
      (w = 0 → Keeps y x 57 12) ∧ (w = 1 ∨ w = 2 → Keeps y x 55 16) ∧ (w = 3 → y = 0)) ∧
    (∀ w, w < 4 → writes (0x380 + 8 * w) fun t =>
      let y := (t.dev.tile T).sctx.toArray.getD w 0
      (w = 0 → Keeps y x 57 12) ∧ (w = 1 ∨ w = 2 → Keeps y x 55 16) ∧ (w = 3 → y = 0)) ∧
    (∀ c, c < 51 → writes (0x1000 + 8 * c) (fun t => ∀ i, i < 64 → bitN (t.dev.core (tileCore T c)).sab i = (bitN x i && decide (i ≤ 1 ∨ (18 ≤ i ∧ i ≤ 57)))) ∧
      writes (0x1800 + 8 * c) fun t => (t.dev.core (tileCore T c)).dtv = x) ∧
    (∀ i, i < 8 → x = 0 → writes (0x3200 + 32 * i) fun t => (t.dev.tile T).viols.toArray.getD i .free = .free) ∧
    (∀ m, m < 8192 → (fieldN x 32 0 ≠ 0 → writes (0x10000 + 8 * m) fun t => Keeps ((t.dev.tile T).access.getD m 0) x 32 0) ∧
      (fieldN x 32 0 = 0 → writes (0x10000 + 8 * m) fun t => (t.dev.tile T).access = (s.dev.tile T).access.erase m)) ∧
    (∀ o, (0x2000 ≤ o ∧ o < 0x20C0) ∨ (o % 8 ≠ 0 ∧ ((0x2FF8 < o ∧ o < 0x3008) ∨ (0x30F8 < o ∧ o < 0x3108))) → writes o fun t => (t.dev.die (tileDie T)).errcnt = (s.dev.die (tileDie T)).errcnt + 1 ∧ t.dev.threads = s.dev.threads)) ∧
  (∀ (s : State) (die : Nat) (x : D),
    let writes := fun (off : Nat) (P : Die → Die → Prop) => s.spanWrites die (0x1000000 + off) x → ∃ t, exec .controlRegisterWrite s = .next t ∧ t.mem = s.mem ∧ P (s.dev.die die) (t.dev.die die)
    writes 0x000 (fun _ y => Keeps (setField y.ntcfg 5 0 0) x 57 12 ∧ (16 ≤ fieldN x 5 0 ∧ fieldN x 5 0 ≤ 30 → fieldN y.ntcfg 5 0 = fieldN x 5 0)) ∧
    writes 0x008 (fun _ y => Keeps y.age x 31 0) ∧
    writes 0x010 (fun _ y => Keeps y.alloc x 57 0) ∧
    (∀ w, w < 4 → writes (0x040 + 8 * w) fun _ y => (w = 0 → Keeps (y.hostCtx.toArray.getD w 0) x 57 12) ∧ (w = 1 ∨ w = 2 → Keeps (y.hostCtx.toArray.getD w 0) x 55 16)) ∧
    (∀ w, w < 4 → die = 0 → writes (0x060 + 8 * w) fun _ y => (w = 0 → Keeps (y.winCtx.toArray.getD w 0) x 57 12) ∧ (w = 1 ∨ w = 2 → Keeps (y.winCtx.toArray.getD w 0) x 55 16)) ∧
    writes 0x108 (fun _ y => Keeps y.ctrl x 1 1) ∧
    writes 0x1000 (fun y z => z.faultOvf = (y.faultOvf && bitN x 63) ∧ z.faultQ = y.faultQ) ∧
    writes 0x2000 (fun y z => z.pageOvf = (y.pageOvf && bitN x 63) ∧ z.pageQ = y.pageQ) ∧
    (∀ m, m < 8192 → fieldN x 32 0 ≠ 0 → writes (0x8000 + 8 * m) fun _ y => Keeps (y.access.getD m 0) x 32 0)) ∧
  (∀ (s : State) (die : Nat) (x : D), die < 4 →
    -- a unit that may reach the span through a page of its own writes it too (R334)
    (s.dev.args = [die, 0x1000008, x.toNat, 8] → ∃ t, exec .controlRegisterWrite s = .next t ∧ t.mem = s.mem ∧ Keeps (t.dev.die die).age x 31 0) ∧
    (∀ tl c, tl < 16 → c < 51 → s.dev.args = [die, tl * 0x100000 + 0x1800 + 8 * c, x.toNat, 8] → ∃ t, exec .controlRegisterWrite s = .next t ∧ t.mem = s.mem ∧
      (t.dev.core (tileCore (die * 16 + tl) c)).dtv = x)) ∧
  (∀ (s : State) (y : Instr × Nat × Nat × Bool) (a : List Nat), s.dev.stuck = false → s.dev.args = a →
    -- the host's steps at a die's span, with the die and whether each writes: it is frozen, or its table has not the right (R156, R337)
    let die := a.getD 0 0
    let which := a.getD 1 0
    y ∈ [(Instr.controlRegisterWrite, 3, die % 4, true), (.stewardStartPort, 10, tileDie die, true), (.threadEndPort, 2, tileDie die, true), (.unfreezePort, 1, 0, true),
      (.violationRecordFree, 3, if die = 0 then tileDie which else which, true), (.wakePort, 3, die, true), (.faultQueuePop, 1, die, false), (.pageRequestPop, 1, die, false),
      (.queueOvfClear, 2, die, true), (.ctrlWrite, 2, die, true)] → a.length = y.2.1 →
    (hostMaster ∈ s.dev.frozenMs → ∃ t, exec y.1 s = .next t ∧ t.mem = s.mem ∧ t.dev.dies = s.dev.dies ∧ t.dev.threads = s.dev.threads ∧ (⟨s.dev.cycle + 16, y.1, a⟩ : Event) ∈ t.dev.events) ∧
    (hostMaster ∉ s.dev.frozenMs → bitN (s.dev.die y.2.2.1).ctrl 1 = true → grants ((s.dev.die y.2.2.1).access.getD 4352 0) 0 y.2.2.2 = false →
      ∃ t, exec y.1 s = .next t ∧ t.mem = s.mem ∧ t.dev.frozenMs = s.dev.frozenMs ++ [hostMaster] ∧ t.dev.threads = s.dev.threads ∧ t.dev.cores = s.dev.cores ∧
        (y.2.2.2 = false → t.dev.hostReply = .completerAbort))) ∧
  (∀ (s : State) (die off : Nat), die < 4 → off < 2 ^ 28 → s.byBar die false →
    -- reads through BAR0: words of a span, an entry of a queue
    (off % 8 = 0 → s.dev.args = [die * 2 ^ 28 + off, 8, 0, 0, 1] → ∃ t y, exec .hostWindowAccess s = .next t ∧ t.mem = s.mem ∧ t.dev.hostReply = .value y ∧ t.dev.dies = s.dev.dies ∧
      (off = 0x1000000 → y = (s.dev.die die).ntcfg.toNat) ∧ (off = 0x1000108 → y = (s.dev.die die).ctrl.toNat) ∧ (off = 0x2000110 → y = (s.dev.die die).errcnt.toNat)) ∧
    (s.dev.args = [die * 2 ^ 28 + 0x1001010, 16, 0, 0, 1] → ∃ t, exec .hostWindowAccess s = .next t ∧ t.mem = s.mem ∧ (t.dev.die die).faultQ = (s.dev.die die).faultQ.drop 1 ∧
      t.dev.hostReply = .value ((((s.dev.die die).faultQ.head?.map fun e => e.1.toNat + e.2.toNat * 2 ^ 64)).getD 0))) ∧
  (∀ (s : State) (id : Nat) (r : Req) (p : Part) (sg : Bool) (n : BitVec 5) (die off : Nat), s.Inv → s.dev.args = [id] → s.dev.reqs.get? id = some r → r.parts = [p] → r.op = .ld sg → r.dst = .g n →
    target s.dev r p = .span die off → off % 8 = 0 → p.size = 8 → ∃ t, exec .controlRegisterWrite s = .next t ∧ t.mem = s.mem ∧ ∃ x, Answered s t id r [(.g n, x)] ∧
      let y : D := x.setWidth 64
      let z := s.dev.die die
      (∀ tl k, tl < 16 → k < 12 → off = tl * 0x100000 + 8 * k → fieldN y 60 60 = b2n (s.dev.row ((die * 16 + tl) * 12 + k)).det ∧ fieldN y 61 61 = b2n (s.dev.row ((die * 16 + tl) * 12 + k)).gang ∧
        fieldN y 54 48 = (s.dev.row ((die * 16 + tl) * 12 + k)).live % 128 ∧ fieldN y 31 0 = (s.dev.row ((die * 16 + tl) * 12 + k)).ltag % 2 ^ 32) ∧
      (∀ tl c, tl < 16 → c < 51 → off = tl * 0x100000 + 0x1000 + 8 * c → y = (s.dev.core (tileCore (die * 16 + tl) c)).sab) ∧
      (∀ tl, tl < 16 → off = tl * 0x100000 + 0x100 → (s.dev.tile (die * 16 + tl)).used < 256 → fieldN y 39 32 = (s.dev.tile (die * 16 + tl)).budget % 256 ∧ fieldN y 23 16 = (s.dev.tile (die * 16 + tl)).used) ∧
      (off = 0x1000000 → y = z.ntcfg) ∧ (off = 0x1000008 → y = z.age) ∧ (off = 0x1000010 → y = z.alloc) ∧ (off = 0x1000108 → y = z.ctrl) ∧
      (off = 0x1001000 → z.faultQ.length ≤ 256 → fieldN y 8 0 = z.faultQ.length ∧ fieldN y 63 63 = b2n z.faultOvf) ∧
      (off = 0x1002000 → z.pageQ.length ≤ 256 → fieldN y 8 0 = z.pageQ.length ∧ fieldN y 63 63 = b2n z.pageOvf) ∧ (off = 0x2000110 → y = z.errcnt)) ∧
  (∀ (s : State) (tile k : Nat) (w0 w1 w2 w3 w4 w5 : D), s.byBar (tileDie tile) true → k < 3 → s.dev.args = [tile, k, w0.toNat, w1.toNat, w2.toNat, w3.toNat, w4.toNat, w5.toNat, 0, 0] →
    let ca := mkCore tile (48 + k) 1
    let loc := ca * 16 + fieldN w3 3 0
    ((s.dev.thread loc).st ≠ .vacant ∨ s.dev.mint.stopped = true → ∃ t, exec .stewardStartPort s = .next t ∧ t.mem = s.mem ∧ t.dev.mint = s.dev.mint ∧
      (t.dev.die (tileDie tile)).errcnt = (s.dev.die (tileDie tile)).errcnt + 1) ∧
    ((s.dev.thread loc).st = .vacant → s.dev.mint.stopped = false → pendingStarts s.dev ca = [] → canStart s.dev ca = true → ∃ t r, exec .stewardStartPort s = .next t ∧ t.mem = s.mem ∧
      t.dev.mint.queue = s.dev.mint.queue ++ [(tileDie tile, .start r)] ∧ r.loc = loc ∧ r.how = .steward ∧ r.pc = w0 ∧ r.a1 = w1 ∧ r.a2 = w2 ∧ r.priv = bitN w3 8 ∧ r.launch = none)) ∧
  (∀ (s : State) (tile : Nat) (w : D), s.byBar (tileDie tile) true → s.dev.args = [tile, w.toNat] →
    let ca := tileCore tile (fieldN w 5 0)
    let loc := ca * 16 + fieldN w 11 8
    (51 ≤ fieldN w 5 0 ∨ (s.dev.thread loc).st = .vacant → ∃ t, exec .threadEndPort s = .next t ∧ t.mem = s.mem ∧ t.dev.threads = s.dev.threads ∧ (t.dev.tile tile).endStatus = 1) ∧
    (fieldN w 5 0 < 51 → (s.dev.thread loc).st ≠ .vacant → s.dev.reqs = [] → (s.dev.thread loc).mig = none →
      ((∀ e ∈ (s.dev.core ca).journal, e.2.loc ≠ loc) → (∀ c ∈ s.dev.cores, ∀ e ∈ c.2.journal, e.2.loc ≠ loc) → endHeld s.dev loc = false → s.dev.lentOut.get? loc = none → Tbl.sorted s.dev.threads = true → ∃ t, exec .threadEndPort s = .next t ∧ (t.dev.thread loc).st = .vacant ∧ (t.dev.tile tile).endStatus = 0 ∧
        ((s.dev.thread loc).start = .spwn → ((t.dev.core ca).exits.get? (fieldN w 11 8)).map (fun x => (x.value, x.cause)) = some (0, fieldN w 23 16))) ∧
      (∀ e j, s.dev.lentOut.get? loc = none → (s.dev.core ca).journal = [(e, j)] → j.loc = loc → j.refused = none → ∃ t, exec .threadEndPort s = .next t ∧ (t.dev.tile tile).endStatus = 2 ∧ (t.dev.thread loc).stopped = some none ∧
        (t.dev.core ca).journal = [(e, j)]))) ∧
  (∀ (s : State) (n : Nat), s.byBar 0 true → s.dev.args = [n] → n < 8192 →
    (n < 4096 → n % 64 < 51 → ∃ t, exec .unfreezePort s = .next t ∧ t.mem = s.mem ∧ (t.dev.core (tileCore (n / 64) (n % 64))).frozen = false ∧ t.dev.frozenMs = s.dev.frozenMs.filter (· != n) ∧
      -- a slot whose wait ended while its core was frozen goes on (R156); every other keeps its state
      (∀ k, k < 16 → let l := tileCore (n / 64) (n % 64) * 16 + k
        (s.dev.thread l).st = .parked → (s.dev.thread l).wait = .context → (s.dev.thread l).mig = none → t.dev.thread l = { s.dev.thread l with st := if (s.dev.thread l).lent = true then .lent else .run, limit := none }) ∧
      ∀ l, coreOf l ≠ tileCore (n / 64) (n % 64) ∨ (s.dev.thread l).wait ≠ .context ∨ ((s.dev.thread l).st ≠ .parked ∧ (s.dev.thread l).st ≠ .halted) → t.dev.thread l = s.dev.thread l) ∧
    (n < 4096 → 55 ≤ n % 64 → ∃ t, exec .unfreezePort s = .next t ∧ t.mem = s.mem ∧ t.dev.frozenMs = s.dev.frozenMs.filter (· != n)) ∧
    (∀ e, n < 4096 → n % 64 = 52 + e → e < 3 → (s.dev.engine (n / 64) e).kept = none → ∃ t, exec .unfreezePort s = .next t ∧ t.mem = s.mem ∧ t.dev.frozenMs = s.dev.frozenMs.filter (· != n)) ∧
    (4096 ≤ n → n < 4224 → ∃ t, exec .unfreezePort s = .next t ∧ (t.dev.core (mkCore (n - 4096) 0 2)).frozen = false) ∧
    (4224 ≤ n → ∃ t, exec .unfreezePort s = .next t ∧ t.dev.frozenMs = s.dev.frozenMs.filter (· != n))) ∧
  (∀ (s : State) (unit i : Nat),
    (s.byBar (tileDie unit) true → s.dev.args = [0, unit, i] → i < 8 → ∃ t, exec .violationRecordFree s = .next t ∧ t.mem = s.mem ∧ (t.dev.tile unit).viols = (s.dev.tile unit).viols.setIfInBounds i .free) ∧
    (s.byBar unit true → s.dev.args = [1, unit, i] → i < 8 → ∃ t, exec .violationRecordFree s = .next t ∧ (t.dev.die unit).viols = (s.dev.die unit).viols.setIfInBounds i .free) ∧
    (s.byBar unit true → s.dev.args = [2, unit, i] → i < 24 → ∃ t, exec .violationRecordFree s = .next t ∧ (t.dev.die unit).baseViols = (s.dev.die unit).baseViols.setIfInBounds i .free)) ∧
  (∀ (s : State) (die : Nat) (name : Q), s.byBar die true → s.dev.args = [die, name.toNat % 2 ^ 64, name.toNat / 2 ^ 64] →
    ∃ t n, exec .wakePort s = .next t ∧ t.mem = s.mem ∧ t.dev.threads = s.dev.threads ∧ (⟨n, .wakeMessage, [name.toNat]⟩ : Event) ∈ t.dev.events) ∧
  (∀ (s : State) (die k : Nat), die < 4 →
    -- an empty queue reads zeros (R336)
    (s.byBar die false → s.dev.args = [die] → (∃ t, exec .faultQueuePop s = .next t ∧ t.mem = s.mem ∧ (t.dev.die die).faultQ = (s.dev.die die).faultQ.drop 1 ∧ (t.dev.die die).pageQ = (s.dev.die die).pageQ ∧
        t.dev.hostReply = .value (((s.dev.die die).faultQ.head?.map fun e => e.1.toNat + e.2.toNat * 2 ^ 64).getD 0)) ∧
      ∃ t, exec .pageRequestPop s = .next t ∧ t.mem = s.mem ∧ (t.dev.die die).pageQ = (s.dev.die die).pageQ.drop 1 ∧ (t.dev.die die).faultQ = (s.dev.die die).faultQ ∧
        t.dev.hostReply = .value (((s.dev.die die).pageQ.head?.map fun e => e.1.toNat + e.2.1.toNat * 2 ^ 64).getD 0)) ∧
    (s.byBar die true → s.dev.args = [die, k] → k < 2 → ∃ t, exec .queueOvfClear s = .next t ∧ t.mem = s.mem ∧ (k = 0 → (t.dev.die die).faultOvf = false ∧ (t.dev.die die).pageOvf = (s.dev.die die).pageOvf) ∧
      (k = 1 → (t.dev.die die).pageOvf = false ∧ (t.dev.die die).faultOvf = (s.dev.die die).faultOvf)) ∧
    (∀ x : D, s.byBar die true → s.dev.args = [die, x.toNat] → ∃ t, exec .ctrlWrite s = .next t ∧ t.mem = s.mem ∧ Keeps (t.dev.die die).ctrl x 1 1))

/-- R156, R188, R296, R338 to R348: the host's messages, launches, acknowledgements, accesses and atomics; a peer's request; links, errors, bad
pages, retraining; the controller's window; and what RESET and POWER_GOOD leave.
The model's own choices, no rules of the spec: log 4, log 17, log 34, log 91, log 93 to log 95, log 105, log 107, log 110 and log 136. -/
def Obligations.HostAndPlatform : Prop :=
  (∀ (s : State) (die : Nat) (w0 w1 w2 w3 w4 : D), s.dev.stuck = false → die < 4 → s.dev.args = [die, w0.toNat, w1.toNat, w2.toNat, w3.toNat, w4.toNat, 0, 0, 0] →
    let ca := fieldN w4 14 0
    let row := s.dev.row (rowKeyOf ca)
    (realCompute ca = false ∨ dieOf ca ≠ die → ∃ t, exec .hostActiveMessagePort s = .next t ∧ t.mem = s.mem ∧ (t.dev.die die).errcnt = (s.dev.die die).errcnt + 1 ∧ t.dev.mint = s.dev.mint) ∧
    (realCompute ca = true → dieOf ca = die → portWaits s.dev die s.dev.nextId = false →
      (∀ k, row.state = 2 → row.gang = false → row.det = false → lowestFree s.dev ca = some k → canStart s.dev ca = true → s.dev.mint.stopped = false →
        ∃ t r, exec .hostActiveMessagePort s = .next t ∧ t.mem = s.mem ∧ t.dev.mint.queue = s.dev.mint.queue ++ [(die, .start r)] ∧ r.loc = ca * 16 + k ∧ r.pc = w0 ∧ r.a1 = w1 ∧ r.a2 = w2 ∧ r.w3 = w3 ∧
          r.sender = 2 ^ 19 - 1 ∧ r.priv = false ∧ r.how = .message) ∧
      (row.state ≠ 2 ∨ row.gang = true ∨ row.det = true ∨ lowestFree s.dev ca = none → (s.dev.core ca).overflow = [] → (s.dev.core ca).spill = [] → (s.dev.core ca).inbox.length < 32 → (s.dev.thread (ca * 16)).awaits .inbox = false →
        ∃ t, exec .hostActiveMessagePort s = .next t ∧ t.mem = s.mem ∧ t.dev.mint = s.dev.mint ∧ (t.dev.core ca).inbox = (s.dev.core ca).inbox ++ [⟨[w0, w1, w2, w3], 3, 0, 2 ^ 19 - 1, none⟩]))) ∧
  (∀ (s : State) (die : Nat) (va : D), s.dev.stuck = false → die < 4 → s.dev.args = [die, va.toNat] → ∃ t e, exec .hostLaunchPort s = .next t ∧ t.mem = s.mem ∧ t.dev.entries.get? s.dev.nextId = some e ∧
    e.die = die ∧ e.addr = va ∧ e.ctx = (s.dev.die die).hostCtx ∧ e.parent = none ∧ t.dev.launchResult.toArray.getD die 0 = BitVec.allOnes 128 ∧
    (⟨s.dev.cycle + 1, .launchAccept, [s.dev.nextId]⟩ : Event) ∈ t.dev.events) ∧
  (∀ (s : State) (name : Q), s.Inv → s.dev.stuck = false → s.dev.args = [name.toNat % 2 ^ 64, name.toNat / 2 ^ 64] →
    ((∀ l ∈ s.dev.launches, l.name = name → l.host = false ∨ l.acked = true) → ∃ t, exec .hostAcknowledgePort s = .next t ∧ t.mem = s.mem ∧ t.dev.launches = s.dev.launches ∧ (t.dev.die 0).errcnt = (s.dev.die 0).errcnt + 1) ∧
    (∀ l, s.dev.launches = [l] → l.name = name → l.host = true → l.acked = false →
      (l.done = false → ∃ t, exec .hostAcknowledgePort s = .next t ∧ t.mem = s.mem ∧ t.dev.launches = [{ l with acked := true }]) ∧
      (l.done = true → tableHeld s.dev l.die name = true → ∃ t, exec .hostAcknowledgePort s = .next t ∧ t.mem = s.mem ∧ t.dev.launches = [l] ∧ (⟨s.dev.cycle + 16, .hostAcknowledgePort, s.dev.args⟩ : Event) ∈ t.dev.events) ∧
      (l.done = true → tableHeld s.dev l.die name = false → ∃ t, exec .hostAcknowledgePort s = .next t ∧ t.dev.launches = [] ∧ ∀ key, (lookup s.mem s.dev l.die name).2 = some key → fieldN (entryWord t key 2) 63 62 = 0))) ∧
  (∀ (s : State) (va : D) (size data key : Nat), va.toNat < 2 ^ 36 → size = 1 ∨ size = 2 ∨ size = 4 ∨ size = 8 →
    (s.dev.args = [va.toNat, size, 1, data] → HostAt s va 1 size key → ∃ t, exec .hostWindowAccess s = .next t ∧ Stored s t key size data) ∧
    (∀ k, s.dev.args = [va.toNat, size, 0, data] → s.Inv → s.dev.stuck = false → s.dev.frozenMs.contains hostMaster = false →
      (∀ i, i < size → unitPlace s.mem s.dev (hostU s.dev) (va + ofN i) false = .ok (.key (k + i))) →
      ∃ t, exec .hostWindowAccess s = .next t ∧ ((∀ i, i < size → uncorrectable s.mem s.dev (k + i) = false) → t.dev.hostReply = .value (wordAt s.mem k size)) ∧
        ∀ j, (∀ i, j ≠ errKey i) → Mem.read t.mem j = Mem.read s.mem j) ∧
    (∀ r, s.dev.args = [va.toNat, size, 0, data] → s.Inv → s.dev.stuck = false → s.dev.frozenMs.contains hostMaster = false → unitPlace s.mem s.dev (hostU s.dev) va false = .error (.fail r) →
      ∃ t, exec .hostWindowAccess s = .next t ∧ t.mem = s.mem ∧ t.dev.hostReply = .completerAbort) ∧
    (∀ d, (s.dev.args = [va.toNat, size, d, data] → s.dev.stuck = false → s.dev.frozenMs.contains hostMaster = true → ∃ t, exec .hostWindowAccess s = .next t ∧ t.mem = s.mem ∧
      (⟨s.dev.cycle + 16, .hostWindowAccess, s.dev.args⟩ : Event) ∈ t.dev.events))) ∧
  (∀ (s : State) (va : D) (size op x y key : Nat), va.toNat < 2 ^ 36 → va.toNat % size = 0 → size = 4 ∨ size = 8 ∨ (size = 16 ∧ op = 2) → HostAt s va 3 size key → s.dev.args = [va.toNat, size, op, x, y] →
    let old := wordAt s.mem key size
    (op = 0 → ∃ t, exec .hostAtomicop s = .next t ∧ t.dev.hostReply = .value old ∧ Stored s t key size (old + x)) ∧
    (op = 1 → ∃ t, exec .hostAtomicop s = .next t ∧ t.dev.hostReply = .value old ∧ Stored s t key size x) ∧
    (op = 2 → ∃ t, exec .hostAtomicop s = .next t ∧ t.dev.hostReply = .value old ∧ Stored s t key size (if old = y then x else old))) ∧
  (∀ (s : State) (va : D) (size op x y : Nat), s.dev.args = [va.toNat, size, op, x, y] → ¬(size = 4 ∨ size = 8 ∨ (size = 16 ∧ op = 2)) → ∃ t, exec .hostAtomicop s = .next t ∧ t.mem = s.mem ∧ t.dev.events = s.dev.events ∧
    (s.dev.stuck = false → t.dev.hostReply = .unsupportedRequest)) ∧
  (∀ (s : State) (k a prot wr at' : Nat) (ws : List Nat), s.Inv → s.dev.stuck = false → k < 12 → s.dev.args = [k, a, prot, wr, at'] ++ ws → ws.length = 8 → prot < 16 →
    let master := 4224 + k
    let key := k / 3 * 2 ^ 56 + (Config.stackBase k).toNat + a / 64 * 64
    let grant := grants ((s.dev.die (k / 3)).baseAccess.getD (8192 * k + master) 0) prot
    (at' = 1 ∨ stackBytes ≤ a → ∃ t, exec .peerRequest s = .next t ∧ t.mem = s.mem ∧ t.dev.frozenMs = s.dev.frozenMs) ∧
    (at' = 0 → a < stackBytes → k ∈ s.dev.retraining → ∃ t, exec .peerRequest s = .next t ∧ t.mem = s.mem ∧ (⟨s.dev.cycle + 16, .peerRequest, s.dev.args⟩ : Event) ∈ t.dev.events) ∧
    (at' = 0 → a < stackBytes → k ∉ s.dev.retraining → master ∉ s.dev.frozenMs →
      (grant (wr = 1) = false → ∃ t, exec .peerRequest s = .next t ∧ t.mem = s.mem ∧ master ∈ t.dev.frozenMs) ∧
      (wr = 1 → grant true = true → uncorrectable s.mem s.dev key = false → uncorrectable s.mem s.dev (key + 32) = false → heldForOther s.dev noThread key 64 = true →
        ∃ t, exec .peerRequest s = .next t ∧ t.mem = s.mem ∧ (⟨s.dev.cycle + 16, .peerRequest, s.dev.args⟩ : Event) ∈ t.dev.events) ∧
      (wr = 1 → grant true = true → uncorrectable s.mem s.dev key = false → uncorrectable s.mem s.dev (key + 32) = false → heldForOther s.dev noThread key 64 = false → s.dev.feWait = [] → key < 2 ^ 71 →
        ∃ t, exec .peerRequest s = .next t ∧ (∀ i, i < 8 → wordAt t.mem (key + 8 * i) 8 = ws.getD i 0 % 2 ^ 64) ∧
          ∀ j, ¬(key ≤ j ∧ j < key + 64) → (∀ i, i < 8 → j ≠ errKey (key + 8 * i)) → Mem.read t.mem j = Mem.read s.mem j) ∧
      (wr = 0 → grant false = true → uncorrectable s.mem s.dev key = false → uncorrectable s.mem s.dev (key + 32) = false → ∃ t, exec .peerRequest s = .next t ∧
        ∀ j, j ≠ errKey key → j ≠ errKey (key + 32) → Mem.read t.mem j = Mem.read s.mem j))) ∧
  (∀ (s : State) (k : Nat), s.dev.args = [k] →
    (∃ t, exec .cxlLinkDown s = .next t ∧ t.mem = s.mem ∧ k ∈ t.dev.cxlDown ∧ ∀ j, j ≠ k → (j ∈ t.dev.cxlDown ↔ j ∈ s.dev.cxlDown)) ∧
    (∃ t, exec .cxlLinkUp s = .next t ∧ t.mem = s.mem ∧ k ∉ t.dev.cxlDown ∧ ∀ j, j ≠ k → (j ∈ t.dev.cxlDown ↔ j ∈ s.dev.cxlDown)) ∧
    (k < 12 → s.dev.preempts = [] → k ∉ s.dev.retraining → ∃ t n, exec .retrainRequest s = .next t ∧ t.mem = s.mem ∧ k ∈ t.dev.retraining ∧ n ≤ 4200000 ∧ (⟨s.dev.cycle + n, .retrainEnd, [k]⟩ : Event) ∈ t.dev.events) ∧
    (∀ id p, k < 12 → s.dev.preempts = [(id, p)] → p.row.isSome →
      (s.dev.cycle < p.due → savesTo s.mem s.dev k p = true → ∃ t, exec .retrainRequest s = .next t ∧ t.mem = s.mem ∧ t.dev.retraining = s.dev.retraining ∧
        (⟨s.dev.cycle + 64, .retrainRequest, [k]⟩ : Event) ∈ t.dev.events) ∧
      (p.due ≤ s.dev.cycle ∨ savesTo s.mem s.dev k p = false → ∃ t, exec .retrainRequest s = .next t ∧ t.mem = s.mem ∧ k ∈ t.dev.retraining)) ∧
    (k < 12 → ∃ t, exec .retrainEnd s = .next t ∧ t.mem = s.mem ∧ k ∉ t.dev.retraining)) ∧
  (∀ (s : State) (die f : Nat), s.dev.args = [die, f] → die < 4 →
    ((s.dev.die die).badPages.length < 4096 → f ∉ (s.dev.die die).badPages → ∃ t, exec .badPageAppend s = .next t ∧ t.mem = s.mem ∧ (t.dev.die die).badPages = (s.dev.die die).badPages ++ [f]) ∧
    (4096 ≤ (s.dev.die die).badPages.length ∨ f ∈ (s.dev.die die).badPages → ∃ t, exec .badPageAppend s = .next t ∧ (t.dev.die die).badPages = (s.dev.die die).badPages)) ∧
  (∀ (s : State) (k n : Nat), s.Inv → s.dev.args = [k, n] → k < 68 * 2 ^ 56 → n = 1 ∨ n = 2 → ∃ t, exec .softError s = .next t ∧
    (Mem.read t.mem (errKey k)).toNat = min 2 ((Mem.read s.mem (errKey k)).toNat + n) ∧ ∀ j, j ≠ errKey k → Mem.read t.mem j = Mem.read s.mem j) ∧
  (∀ (s : State) (k : Nat), s.Inv → s.dev.args = [k, 2] → 68 * 2 ^ 56 ≤ k → k < 76 * 2 ^ 56 → ∃ t, exec .softError s = .next t ∧
    (Mem.read t.mem (errKey (k / 64 * 64))).toNat = 2 ∧ (Mem.read t.mem (errKey (k / 64 * 64 + 32))).toNat = 2 ∧
    ∀ j, j ≠ errKey (k / 64 * 64) → j ≠ errKey (k / 64 * 64 + 32) → Mem.read t.mem j = Mem.read s.mem j) ∧
  (∀ s : State, ∃ t, exec .spdmRequest s = .next t ∧ t.mem = s.mem ∧ (s.dev.jtagOpen = true → t.dev.jtagOpen = true) ∧
    t.dev = { s.dev with free := s.dev.free + 1, jtagOpen := t.dev.jtagOpen, wbuf := [], wclear := [] }) ∧
  (∀ s : State, ∃ t p, p ≤ 3000000 ∧ exec .powerWindow s = .next t ∧ t.mem = s.mem ∧ t.dev.threads = s.dev.threads ∧
    let step := fieldN (s.dev.die 0).clk 3 0
    let step' := fieldN (t.dev.die 0).clk 3 0
    (∀ k, k < 4 → fieldN (t.dev.die k).clk 3 0 = step' ∧ ((t.dev.die k).telemetry.getD 0x100 0) = ofN p) ∧ (step' = step ∨ step' = step - 1 ∨ step' = min 9 (step + 1)) ∧
    (detResident s.dev = true → ∀ k, k < 4 → fieldN (t.dev.die k).clk 31 16 = 0) ∧
    ((⟨s.dev.cycle + 1000 * (2100 - 100 * step'), .powerWindow, []⟩ : Event) ∈ t.dev.events)) ∧
  (∀ s : State, ∃ t, exec .reset s = .next t ∧ t.mem = s.mem ∧ t.dev = { Dev.reset with
      free := s.dev.free, nextId := s.dev.nextId, hostAtomics := s.dev.hostAtomics, stuck := s.dev.stuck, dies := t.dev.dies, mint := t.dev.mint } ∧
    t.dev.mint.next = (s.dev.mint.recorded + 1) * 2 ^ 32 ∧ t.dev.mint.recorded = s.dev.mint.recorded ∧ t.dev.mint.stopped = false ∧ ∀ k, k < 4 → t.dev.die k = { Die.reset with badPages := (s.dev.die k).badPages }) ∧
  (∀ s : State, ∃ t, exec .powerGood s = .next t ∧ t.dev.threads = [] ∧ t.dev.cores = [] ∧ t.dev.rows = [] ∧ t.dev.tiles = [] ∧ t.dev.mint.next = (s.dev.mint.recorded + 1) * 2 ^ 32 ∧
    (s.Inv → (∀ k, k < 76 * 2 ^ 56 → Mem.read t.mem k = 0) ∧ ∀ k, 76 * 2 ^ 56 ≤ k → k < 2 ^ 72 → Mem.read t.mem k = Mem.read s.mem k))
end

