-- ==== Sys2Proof/Laws/State.lean ====
section
/-! SUPPORT. What each named update of the state changes and leaves: one lemma for each field. -/
namespace Sys2Proof.Machine

/-! `Dev.setThread` -/
@[simp] theorem setThread_refills (d : Dev) (loc : Nat) (t : Thread) : (d.setThread loc t).refills = d.refills := rfl
@[simp] theorem setThread_cycle (d : Dev) (loc : Nat) (t : Thread) : (d.setThread loc t).cycle = d.cycle := rfl
@[simp] theorem setThread_todo (d : Dev) (loc : Nat) (t : Thread) : (d.setThread loc t).todo = d.todo := rfl
@[simp] theorem setThread_events (d : Dev) (loc : Nat) (t : Thread) : (d.setThread loc t).events = d.events := rfl
@[simp] theorem setThread_free (d : Dev) (loc : Nat) (t : Thread) : (d.setThread loc t).free = d.free := rfl
@[simp] theorem setThread_nextId (d : Dev) (loc : Nat) (t : Thread) : (d.setThread loc t).nextId = d.nextId := rfl
@[simp] theorem setThread_cur (d : Dev) (loc : Nat) (t : Thread) : (d.setThread loc t).cur = d.cur := rfl
@[simp] theorem setThread_args (d : Dev) (loc : Nat) (t : Thread) : (d.setThread loc t).args = d.args := rfl
@[simp] theorem setThread_inUni (d : Dev) (loc : Nat) (t : Thread) : (d.setThread loc t).inUni = d.inUni := rfl
@[simp] theorem setThread_last (d : Dev) (loc : Nat) (t : Thread) : (d.setThread loc t).last = d.last := rfl
@[simp] theorem setThread_wbuf (d : Dev) (loc : Nat) (t : Thread) : (d.setThread loc t).wbuf = d.wbuf := rfl
@[simp] theorem setThread_threads (d : Dev) (loc : Nat) (t : Thread) : (d.setThread loc t).threads = d.threads.set loc t := rfl
@[simp] theorem setThread_quads (d : Dev) (loc : Nat) (t : Thread) : (d.setThread loc t).quads = d.quads := rfl
@[simp] theorem setThread_cores (d : Dev) (loc : Nat) (t : Thread) : (d.setThread loc t).cores = d.cores := rfl
@[simp] theorem setThread_rows (d : Dev) (loc : Nat) (t : Thread) : (d.setThread loc t).rows = d.rows := rfl
@[simp] theorem setThread_bars (d : Dev) (loc : Nat) (t : Thread) : (d.setThread loc t).bars = d.bars := rfl
@[simp] theorem setThread_reqs (d : Dev) (loc : Nat) (t : Thread) : (d.setThread loc t).reqs = d.reqs := rfl
@[simp] theorem setThread_arrs (d : Dev) (loc : Nat) (t : Thread) : (d.setThread loc t).arrs = d.arrs := rfl
@[simp] theorem setThread_tiles (d : Dev) (loc : Nat) (t : Thread) : (d.setThread loc t).tiles = d.tiles := rfl
@[simp] theorem setThread_dies (d : Dev) (loc : Nat) (t : Thread) : (d.setThread loc t).dies = d.dies := rfl
@[simp] theorem setThread_hgc (d : Dev) (loc : Nat) (t : Thread) : (d.setThread loc t).hgc = d.hgc := rfl
@[simp] theorem setThread_hbp (d : Dev) (loc : Nat) (t : Thread) : (d.setThread loc t).hbp = d.hbp := rfl
@[simp] theorem setThread_stage2 (d : Dev) (loc : Nat) (t : Thread) : (d.setThread loc t).stage2 = d.stage2 := rfl
@[simp] theorem setThread_feWait (d : Dev) (loc : Nat) (t : Thread) : (d.setThread loc t).feWait = d.feWait := rfl
@[simp] theorem setThread_lockWait (d : Dev) (loc : Nat) (t : Thread) : (d.setThread loc t).lockWait = d.lockWait := rfl
@[simp] theorem setThread_resvs (d : Dev) (loc : Nat) (t : Thread) : (d.setThread loc t).resvs = d.resvs := rfl
@[simp] theorem setThread_resvHold (d : Dev) (loc : Nat) (t : Thread) : (d.setThread loc t).resvHold = d.resvHold := rfl
@[simp] theorem setThread_hostAtomics (d : Dev) (loc : Nat) (t : Thread) : (d.setThread loc t).hostAtomics = d.hostAtomics := rfl
@[simp] theorem setThread_cxlDown (d : Dev) (loc : Nat) (t : Thread) : (d.setThread loc t).cxlDown = d.cxlDown := rfl
@[simp] theorem setThread_retraining (d : Dev) (loc : Nat) (t : Thread) : (d.setThread loc t).retraining = d.retraining := rfl
@[simp] theorem setThread_fwd (d : Dev) (loc : Nat) (t : Thread) : (d.setThread loc t).fwd = d.fwd := rfl
@[simp] theorem setThread_chanQ (d : Dev) (loc : Nat) (t : Thread) : (d.setThread loc t).chanQ = d.chanQ := rfl
@[simp] theorem setThread_chanRun (d : Dev) (loc : Nat) (t : Thread) : (d.setThread loc t).chanRun = d.chanRun := rfl
@[simp] theorem setThread_recvQ (d : Dev) (loc : Nat) (t : Thread) : (d.setThread loc t).recvQ = d.recvQ := rfl
@[simp] theorem setThread_sendQ (d : Dev) (loc : Nat) (t : Thread) : (d.setThread loc t).sendQ = d.sendQ := rfl
@[simp] theorem setThread_mint (d : Dev) (loc : Nat) (t : Thread) : (d.setThread loc t).mint = d.mint := rfl
@[simp] theorem setThread_nameQ (d : Dev) (loc : Nat) (t : Thread) : (d.setThread loc t).nameQ = d.nameQ := rfl
@[simp] theorem setThread_shoots (d : Dev) (loc : Nat) (t : Thread) : (d.setThread loc t).shoots = d.shoots := rfl
@[simp] theorem setThread_tsds (d : Dev) (loc : Nat) (t : Thread) : (d.setThread loc t).tsds = d.tsds := rfl
@[simp] theorem setThread_blocks (d : Dev) (loc : Nat) (t : Thread) : (d.setThread loc t).blocks = d.blocks := rfl
@[simp] theorem setThread_launches (d : Dev) (loc : Nat) (t : Thread) : (d.setThread loc t).launches = d.launches := rfl
@[simp] theorem setThread_tasks (d : Dev) (loc : Nat) (t : Thread) : (d.setThread loc t).tasks = d.tasks := rfl
@[simp] theorem setThread_entries (d : Dev) (loc : Nat) (t : Thread) : (d.setThread loc t).entries = d.entries := rfl
@[simp] theorem setThread_costarts (d : Dev) (loc : Nat) (t : Thread) : (d.setThread loc t).costarts = d.costarts := rfl
@[simp] theorem setThread_launchResult (d : Dev) (loc : Nat) (t : Thread) : (d.setThread loc t).launchResult = d.launchResult := rfl
@[simp] theorem setThread_launchPort (d : Dev) (loc : Nat) (t : Thread) : (d.setThread loc t).launchPort = d.launchPort := rfl
@[simp] theorem setThread_wclear (d : Dev) (loc : Nat) (t : Thread) : (d.setThread loc t).wclear = d.wclear := rfl
@[simp] theorem setThread_gramQ (d : Dev) (loc : Nat) (t : Thread) : (d.setThread loc t).gramQ = d.gramQ := rfl
@[simp] theorem setThread_frozenMs (d : Dev) (loc : Nat) (t : Thread) : (d.setThread loc t).frozenMs = d.frozenMs := rfl
@[simp] theorem setThread_mail (d : Dev) (loc : Nat) (t : Thread) : (d.setThread loc t).mail = d.mail := rfl
@[simp] theorem setThread_lentOut (d : Dev) (loc : Nat) (t : Thread) : (d.setThread loc t).lentOut = d.lentOut := rfl
@[simp] theorem setThread_preempts (d : Dev) (loc : Nat) (t : Thread) : (d.setThread loc t).preempts = d.preempts := rfl
@[simp] theorem setThread_away (d : Dev) (loc : Nat) (t : Thread) : (d.setThread loc t).away = d.away := rfl
@[simp] theorem setThread_stuck (d : Dev) (loc : Nat) (t : Thread) : (d.setThread loc t).stuck = d.stuck := rfl
@[simp] theorem setThread_jtagOpen (d : Dev) (loc : Nat) (t : Thread) : (d.setThread loc t).jtagOpen = d.jtagOpen := rfl
@[simp] theorem setThread_hostReply (d : Dev) (loc : Nat) (t : Thread) : (d.setThread loc t).hostReply = d.hostReply := rfl

/-! `Dev.updThread` -/
@[simp] theorem updThread_refills (d : Dev) (loc : Nat) (f : Thread → Thread) : (d.updThread loc f).refills = d.refills := rfl
@[simp] theorem updThread_cycle (d : Dev) (loc : Nat) (f : Thread → Thread) : (d.updThread loc f).cycle = d.cycle := rfl
@[simp] theorem updThread_todo (d : Dev) (loc : Nat) (f : Thread → Thread) : (d.updThread loc f).todo = d.todo := rfl
@[simp] theorem updThread_events (d : Dev) (loc : Nat) (f : Thread → Thread) : (d.updThread loc f).events = d.events := rfl
@[simp] theorem updThread_free (d : Dev) (loc : Nat) (f : Thread → Thread) : (d.updThread loc f).free = d.free := rfl
@[simp] theorem updThread_nextId (d : Dev) (loc : Nat) (f : Thread → Thread) : (d.updThread loc f).nextId = d.nextId := rfl
@[simp] theorem updThread_cur (d : Dev) (loc : Nat) (f : Thread → Thread) : (d.updThread loc f).cur = d.cur := rfl
@[simp] theorem updThread_args (d : Dev) (loc : Nat) (f : Thread → Thread) : (d.updThread loc f).args = d.args := rfl
@[simp] theorem updThread_inUni (d : Dev) (loc : Nat) (f : Thread → Thread) : (d.updThread loc f).inUni = d.inUni := rfl
@[simp] theorem updThread_last (d : Dev) (loc : Nat) (f : Thread → Thread) : (d.updThread loc f).last = d.last := rfl
@[simp] theorem updThread_wbuf (d : Dev) (loc : Nat) (f : Thread → Thread) : (d.updThread loc f).wbuf = d.wbuf := rfl
@[simp] theorem updThread_threads (d : Dev) (loc : Nat) (f : Thread → Thread) : (d.updThread loc f).threads = d.threads.set loc (f (d.thread loc)) := rfl
@[simp] theorem updThread_quads (d : Dev) (loc : Nat) (f : Thread → Thread) : (d.updThread loc f).quads = d.quads := rfl
@[simp] theorem updThread_cores (d : Dev) (loc : Nat) (f : Thread → Thread) : (d.updThread loc f).cores = d.cores := rfl
@[simp] theorem updThread_rows (d : Dev) (loc : Nat) (f : Thread → Thread) : (d.updThread loc f).rows = d.rows := rfl
@[simp] theorem updThread_bars (d : Dev) (loc : Nat) (f : Thread → Thread) : (d.updThread loc f).bars = d.bars := rfl
@[simp] theorem updThread_reqs (d : Dev) (loc : Nat) (f : Thread → Thread) : (d.updThread loc f).reqs = d.reqs := rfl
@[simp] theorem updThread_arrs (d : Dev) (loc : Nat) (f : Thread → Thread) : (d.updThread loc f).arrs = d.arrs := rfl
@[simp] theorem updThread_tiles (d : Dev) (loc : Nat) (f : Thread → Thread) : (d.updThread loc f).tiles = d.tiles := rfl
@[simp] theorem updThread_dies (d : Dev) (loc : Nat) (f : Thread → Thread) : (d.updThread loc f).dies = d.dies := rfl
@[simp] theorem updThread_hgc (d : Dev) (loc : Nat) (f : Thread → Thread) : (d.updThread loc f).hgc = d.hgc := rfl
@[simp] theorem updThread_hbp (d : Dev) (loc : Nat) (f : Thread → Thread) : (d.updThread loc f).hbp = d.hbp := rfl
@[simp] theorem updThread_stage2 (d : Dev) (loc : Nat) (f : Thread → Thread) : (d.updThread loc f).stage2 = d.stage2 := rfl
@[simp] theorem updThread_feWait (d : Dev) (loc : Nat) (f : Thread → Thread) : (d.updThread loc f).feWait = d.feWait := rfl
@[simp] theorem updThread_lockWait (d : Dev) (loc : Nat) (f : Thread → Thread) : (d.updThread loc f).lockWait = d.lockWait := rfl
@[simp] theorem updThread_resvs (d : Dev) (loc : Nat) (f : Thread → Thread) : (d.updThread loc f).resvs = d.resvs := rfl
@[simp] theorem updThread_resvHold (d : Dev) (loc : Nat) (f : Thread → Thread) : (d.updThread loc f).resvHold = d.resvHold := rfl
@[simp] theorem updThread_hostAtomics (d : Dev) (loc : Nat) (f : Thread → Thread) : (d.updThread loc f).hostAtomics = d.hostAtomics := rfl
@[simp] theorem updThread_cxlDown (d : Dev) (loc : Nat) (f : Thread → Thread) : (d.updThread loc f).cxlDown = d.cxlDown := rfl
@[simp] theorem updThread_retraining (d : Dev) (loc : Nat) (f : Thread → Thread) : (d.updThread loc f).retraining = d.retraining := rfl
@[simp] theorem updThread_fwd (d : Dev) (loc : Nat) (f : Thread → Thread) : (d.updThread loc f).fwd = d.fwd := rfl
@[simp] theorem updThread_chanQ (d : Dev) (loc : Nat) (f : Thread → Thread) : (d.updThread loc f).chanQ = d.chanQ := rfl
@[simp] theorem updThread_chanRun (d : Dev) (loc : Nat) (f : Thread → Thread) : (d.updThread loc f).chanRun = d.chanRun := rfl
@[simp] theorem updThread_recvQ (d : Dev) (loc : Nat) (f : Thread → Thread) : (d.updThread loc f).recvQ = d.recvQ := rfl
@[simp] theorem updThread_sendQ (d : Dev) (loc : Nat) (f : Thread → Thread) : (d.updThread loc f).sendQ = d.sendQ := rfl
@[simp] theorem updThread_mint (d : Dev) (loc : Nat) (f : Thread → Thread) : (d.updThread loc f).mint = d.mint := rfl
@[simp] theorem updThread_nameQ (d : Dev) (loc : Nat) (f : Thread → Thread) : (d.updThread loc f).nameQ = d.nameQ := rfl
@[simp] theorem updThread_shoots (d : Dev) (loc : Nat) (f : Thread → Thread) : (d.updThread loc f).shoots = d.shoots := rfl
@[simp] theorem updThread_tsds (d : Dev) (loc : Nat) (f : Thread → Thread) : (d.updThread loc f).tsds = d.tsds := rfl
@[simp] theorem updThread_blocks (d : Dev) (loc : Nat) (f : Thread → Thread) : (d.updThread loc f).blocks = d.blocks := rfl
@[simp] theorem updThread_launches (d : Dev) (loc : Nat) (f : Thread → Thread) : (d.updThread loc f).launches = d.launches := rfl
@[simp] theorem updThread_tasks (d : Dev) (loc : Nat) (f : Thread → Thread) : (d.updThread loc f).tasks = d.tasks := rfl
@[simp] theorem updThread_entries (d : Dev) (loc : Nat) (f : Thread → Thread) : (d.updThread loc f).entries = d.entries := rfl
@[simp] theorem updThread_costarts (d : Dev) (loc : Nat) (f : Thread → Thread) : (d.updThread loc f).costarts = d.costarts := rfl
@[simp] theorem updThread_launchResult (d : Dev) (loc : Nat) (f : Thread → Thread) : (d.updThread loc f).launchResult = d.launchResult := rfl
@[simp] theorem updThread_launchPort (d : Dev) (loc : Nat) (f : Thread → Thread) : (d.updThread loc f).launchPort = d.launchPort := rfl
@[simp] theorem updThread_wclear (d : Dev) (loc : Nat) (f : Thread → Thread) : (d.updThread loc f).wclear = d.wclear := rfl
@[simp] theorem updThread_gramQ (d : Dev) (loc : Nat) (f : Thread → Thread) : (d.updThread loc f).gramQ = d.gramQ := rfl
@[simp] theorem updThread_frozenMs (d : Dev) (loc : Nat) (f : Thread → Thread) : (d.updThread loc f).frozenMs = d.frozenMs := rfl
@[simp] theorem updThread_mail (d : Dev) (loc : Nat) (f : Thread → Thread) : (d.updThread loc f).mail = d.mail := rfl
@[simp] theorem updThread_lentOut (d : Dev) (loc : Nat) (f : Thread → Thread) : (d.updThread loc f).lentOut = d.lentOut := rfl
@[simp] theorem updThread_preempts (d : Dev) (loc : Nat) (f : Thread → Thread) : (d.updThread loc f).preempts = d.preempts := rfl
@[simp] theorem updThread_away (d : Dev) (loc : Nat) (f : Thread → Thread) : (d.updThread loc f).away = d.away := rfl
@[simp] theorem updThread_stuck (d : Dev) (loc : Nat) (f : Thread → Thread) : (d.updThread loc f).stuck = d.stuck := rfl
@[simp] theorem updThread_jtagOpen (d : Dev) (loc : Nat) (f : Thread → Thread) : (d.updThread loc f).jtagOpen = d.jtagOpen := rfl
@[simp] theorem updThread_hostReply (d : Dev) (loc : Nat) (f : Thread → Thread) : (d.updThread loc f).hostReply = d.hostReply := rfl

/-! `Dev.updCore` -/
@[simp] theorem updCore_refills (d : Dev) (ca : Nat) (f : Core → Core) : (d.updCore ca f).refills = d.refills := rfl
@[simp] theorem updCore_cycle (d : Dev) (ca : Nat) (f : Core → Core) : (d.updCore ca f).cycle = d.cycle := rfl
@[simp] theorem updCore_todo (d : Dev) (ca : Nat) (f : Core → Core) : (d.updCore ca f).todo = d.todo := rfl
@[simp] theorem updCore_events (d : Dev) (ca : Nat) (f : Core → Core) : (d.updCore ca f).events = d.events := rfl
@[simp] theorem updCore_free (d : Dev) (ca : Nat) (f : Core → Core) : (d.updCore ca f).free = d.free := rfl
@[simp] theorem updCore_nextId (d : Dev) (ca : Nat) (f : Core → Core) : (d.updCore ca f).nextId = d.nextId := rfl
@[simp] theorem updCore_cur (d : Dev) (ca : Nat) (f : Core → Core) : (d.updCore ca f).cur = d.cur := rfl
@[simp] theorem updCore_args (d : Dev) (ca : Nat) (f : Core → Core) : (d.updCore ca f).args = d.args := rfl
@[simp] theorem updCore_inUni (d : Dev) (ca : Nat) (f : Core → Core) : (d.updCore ca f).inUni = d.inUni := rfl
@[simp] theorem updCore_last (d : Dev) (ca : Nat) (f : Core → Core) : (d.updCore ca f).last = d.last := rfl
@[simp] theorem updCore_wbuf (d : Dev) (ca : Nat) (f : Core → Core) : (d.updCore ca f).wbuf = d.wbuf := rfl
@[simp] theorem updCore_threads (d : Dev) (ca : Nat) (f : Core → Core) : (d.updCore ca f).threads = d.threads := rfl
@[simp] theorem updCore_quads (d : Dev) (ca : Nat) (f : Core → Core) : (d.updCore ca f).quads = d.quads := rfl
@[simp] theorem updCore_cores (d : Dev) (ca : Nat) (f : Core → Core) : (d.updCore ca f).cores = d.cores.set ca (f (d.core ca)) := rfl
@[simp] theorem updCore_rows (d : Dev) (ca : Nat) (f : Core → Core) : (d.updCore ca f).rows = d.rows := rfl
@[simp] theorem updCore_bars (d : Dev) (ca : Nat) (f : Core → Core) : (d.updCore ca f).bars = d.bars := rfl
@[simp] theorem updCore_reqs (d : Dev) (ca : Nat) (f : Core → Core) : (d.updCore ca f).reqs = d.reqs := rfl
@[simp] theorem updCore_arrs (d : Dev) (ca : Nat) (f : Core → Core) : (d.updCore ca f).arrs = d.arrs := rfl
@[simp] theorem updCore_tiles (d : Dev) (ca : Nat) (f : Core → Core) : (d.updCore ca f).tiles = d.tiles := rfl
@[simp] theorem updCore_dies (d : Dev) (ca : Nat) (f : Core → Core) : (d.updCore ca f).dies = d.dies := rfl
@[simp] theorem updCore_hgc (d : Dev) (ca : Nat) (f : Core → Core) : (d.updCore ca f).hgc = d.hgc := rfl
@[simp] theorem updCore_hbp (d : Dev) (ca : Nat) (f : Core → Core) : (d.updCore ca f).hbp = d.hbp := rfl
@[simp] theorem updCore_stage2 (d : Dev) (ca : Nat) (f : Core → Core) : (d.updCore ca f).stage2 = d.stage2 := rfl
@[simp] theorem updCore_feWait (d : Dev) (ca : Nat) (f : Core → Core) : (d.updCore ca f).feWait = d.feWait := rfl
@[simp] theorem updCore_lockWait (d : Dev) (ca : Nat) (f : Core → Core) : (d.updCore ca f).lockWait = d.lockWait := rfl
@[simp] theorem updCore_resvs (d : Dev) (ca : Nat) (f : Core → Core) : (d.updCore ca f).resvs = d.resvs := rfl
@[simp] theorem updCore_resvHold (d : Dev) (ca : Nat) (f : Core → Core) : (d.updCore ca f).resvHold = d.resvHold := rfl
@[simp] theorem updCore_hostAtomics (d : Dev) (ca : Nat) (f : Core → Core) : (d.updCore ca f).hostAtomics = d.hostAtomics := rfl
@[simp] theorem updCore_cxlDown (d : Dev) (ca : Nat) (f : Core → Core) : (d.updCore ca f).cxlDown = d.cxlDown := rfl
@[simp] theorem updCore_retraining (d : Dev) (ca : Nat) (f : Core → Core) : (d.updCore ca f).retraining = d.retraining := rfl
@[simp] theorem updCore_fwd (d : Dev) (ca : Nat) (f : Core → Core) : (d.updCore ca f).fwd = d.fwd := rfl
@[simp] theorem updCore_chanQ (d : Dev) (ca : Nat) (f : Core → Core) : (d.updCore ca f).chanQ = d.chanQ := rfl
@[simp] theorem updCore_chanRun (d : Dev) (ca : Nat) (f : Core → Core) : (d.updCore ca f).chanRun = d.chanRun := rfl
@[simp] theorem updCore_recvQ (d : Dev) (ca : Nat) (f : Core → Core) : (d.updCore ca f).recvQ = d.recvQ := rfl
@[simp] theorem updCore_sendQ (d : Dev) (ca : Nat) (f : Core → Core) : (d.updCore ca f).sendQ = d.sendQ := rfl
@[simp] theorem updCore_mint (d : Dev) (ca : Nat) (f : Core → Core) : (d.updCore ca f).mint = d.mint := rfl
@[simp] theorem updCore_nameQ (d : Dev) (ca : Nat) (f : Core → Core) : (d.updCore ca f).nameQ = d.nameQ := rfl
@[simp] theorem updCore_shoots (d : Dev) (ca : Nat) (f : Core → Core) : (d.updCore ca f).shoots = d.shoots := rfl
@[simp] theorem updCore_tsds (d : Dev) (ca : Nat) (f : Core → Core) : (d.updCore ca f).tsds = d.tsds := rfl
@[simp] theorem updCore_blocks (d : Dev) (ca : Nat) (f : Core → Core) : (d.updCore ca f).blocks = d.blocks := rfl
@[simp] theorem updCore_launches (d : Dev) (ca : Nat) (f : Core → Core) : (d.updCore ca f).launches = d.launches := rfl
@[simp] theorem updCore_tasks (d : Dev) (ca : Nat) (f : Core → Core) : (d.updCore ca f).tasks = d.tasks := rfl
@[simp] theorem updCore_entries (d : Dev) (ca : Nat) (f : Core → Core) : (d.updCore ca f).entries = d.entries := rfl
@[simp] theorem updCore_costarts (d : Dev) (ca : Nat) (f : Core → Core) : (d.updCore ca f).costarts = d.costarts := rfl
@[simp] theorem updCore_launchResult (d : Dev) (ca : Nat) (f : Core → Core) : (d.updCore ca f).launchResult = d.launchResult := rfl
@[simp] theorem updCore_launchPort (d : Dev) (ca : Nat) (f : Core → Core) : (d.updCore ca f).launchPort = d.launchPort := rfl
@[simp] theorem updCore_wclear (d : Dev) (ca : Nat) (f : Core → Core) : (d.updCore ca f).wclear = d.wclear := rfl
@[simp] theorem updCore_gramQ (d : Dev) (ca : Nat) (f : Core → Core) : (d.updCore ca f).gramQ = d.gramQ := rfl
@[simp] theorem updCore_frozenMs (d : Dev) (ca : Nat) (f : Core → Core) : (d.updCore ca f).frozenMs = d.frozenMs := rfl
@[simp] theorem updCore_mail (d : Dev) (ca : Nat) (f : Core → Core) : (d.updCore ca f).mail = d.mail := rfl
@[simp] theorem updCore_lentOut (d : Dev) (ca : Nat) (f : Core → Core) : (d.updCore ca f).lentOut = d.lentOut := rfl
@[simp] theorem updCore_preempts (d : Dev) (ca : Nat) (f : Core → Core) : (d.updCore ca f).preempts = d.preempts := rfl
@[simp] theorem updCore_away (d : Dev) (ca : Nat) (f : Core → Core) : (d.updCore ca f).away = d.away := rfl
@[simp] theorem updCore_stuck (d : Dev) (ca : Nat) (f : Core → Core) : (d.updCore ca f).stuck = d.stuck := rfl
@[simp] theorem updCore_jtagOpen (d : Dev) (ca : Nat) (f : Core → Core) : (d.updCore ca f).jtagOpen = d.jtagOpen := rfl
@[simp] theorem updCore_hostReply (d : Dev) (ca : Nat) (f : Core → Core) : (d.updCore ca f).hostReply = d.hostReply := rfl

/-! `Dev.updRow` -/
@[simp] theorem updRow_refills (d : Dev) (k : Nat) (f : Row → Row) : (d.updRow k f).refills = d.refills := rfl
@[simp] theorem updRow_cycle (d : Dev) (k : Nat) (f : Row → Row) : (d.updRow k f).cycle = d.cycle := rfl
@[simp] theorem updRow_todo (d : Dev) (k : Nat) (f : Row → Row) : (d.updRow k f).todo = d.todo := rfl
@[simp] theorem updRow_events (d : Dev) (k : Nat) (f : Row → Row) : (d.updRow k f).events = d.events := rfl
@[simp] theorem updRow_free (d : Dev) (k : Nat) (f : Row → Row) : (d.updRow k f).free = d.free := rfl
@[simp] theorem updRow_nextId (d : Dev) (k : Nat) (f : Row → Row) : (d.updRow k f).nextId = d.nextId := rfl
@[simp] theorem updRow_cur (d : Dev) (k : Nat) (f : Row → Row) : (d.updRow k f).cur = d.cur := rfl
@[simp] theorem updRow_args (d : Dev) (k : Nat) (f : Row → Row) : (d.updRow k f).args = d.args := rfl
@[simp] theorem updRow_inUni (d : Dev) (k : Nat) (f : Row → Row) : (d.updRow k f).inUni = d.inUni := rfl
@[simp] theorem updRow_last (d : Dev) (k : Nat) (f : Row → Row) : (d.updRow k f).last = d.last := rfl
@[simp] theorem updRow_wbuf (d : Dev) (k : Nat) (f : Row → Row) : (d.updRow k f).wbuf = d.wbuf := rfl
@[simp] theorem updRow_threads (d : Dev) (k : Nat) (f : Row → Row) : (d.updRow k f).threads = d.threads := rfl
@[simp] theorem updRow_quads (d : Dev) (k : Nat) (f : Row → Row) : (d.updRow k f).quads = d.quads := rfl
@[simp] theorem updRow_cores (d : Dev) (k : Nat) (f : Row → Row) : (d.updRow k f).cores = d.cores := rfl
@[simp] theorem updRow_rows (d : Dev) (k : Nat) (f : Row → Row) : (d.updRow k f).rows = d.rows.set k (f (d.row k)) := rfl
@[simp] theorem updRow_bars (d : Dev) (k : Nat) (f : Row → Row) : (d.updRow k f).bars = d.bars := rfl
@[simp] theorem updRow_reqs (d : Dev) (k : Nat) (f : Row → Row) : (d.updRow k f).reqs = d.reqs := rfl
@[simp] theorem updRow_arrs (d : Dev) (k : Nat) (f : Row → Row) : (d.updRow k f).arrs = d.arrs := rfl
@[simp] theorem updRow_tiles (d : Dev) (k : Nat) (f : Row → Row) : (d.updRow k f).tiles = d.tiles := rfl
@[simp] theorem updRow_dies (d : Dev) (k : Nat) (f : Row → Row) : (d.updRow k f).dies = d.dies := rfl
@[simp] theorem updRow_hgc (d : Dev) (k : Nat) (f : Row → Row) : (d.updRow k f).hgc = d.hgc := rfl
@[simp] theorem updRow_hbp (d : Dev) (k : Nat) (f : Row → Row) : (d.updRow k f).hbp = d.hbp := rfl
@[simp] theorem updRow_stage2 (d : Dev) (k : Nat) (f : Row → Row) : (d.updRow k f).stage2 = d.stage2 := rfl
@[simp] theorem updRow_feWait (d : Dev) (k : Nat) (f : Row → Row) : (d.updRow k f).feWait = d.feWait := rfl
@[simp] theorem updRow_lockWait (d : Dev) (k : Nat) (f : Row → Row) : (d.updRow k f).lockWait = d.lockWait := rfl
@[simp] theorem updRow_resvs (d : Dev) (k : Nat) (f : Row → Row) : (d.updRow k f).resvs = d.resvs := rfl
@[simp] theorem updRow_resvHold (d : Dev) (k : Nat) (f : Row → Row) : (d.updRow k f).resvHold = d.resvHold := rfl
@[simp] theorem updRow_hostAtomics (d : Dev) (k : Nat) (f : Row → Row) : (d.updRow k f).hostAtomics = d.hostAtomics := rfl
@[simp] theorem updRow_cxlDown (d : Dev) (k : Nat) (f : Row → Row) : (d.updRow k f).cxlDown = d.cxlDown := rfl
@[simp] theorem updRow_retraining (d : Dev) (k : Nat) (f : Row → Row) : (d.updRow k f).retraining = d.retraining := rfl
@[simp] theorem updRow_fwd (d : Dev) (k : Nat) (f : Row → Row) : (d.updRow k f).fwd = d.fwd := rfl
@[simp] theorem updRow_chanQ (d : Dev) (k : Nat) (f : Row → Row) : (d.updRow k f).chanQ = d.chanQ := rfl
@[simp] theorem updRow_chanRun (d : Dev) (k : Nat) (f : Row → Row) : (d.updRow k f).chanRun = d.chanRun := rfl
@[simp] theorem updRow_recvQ (d : Dev) (k : Nat) (f : Row → Row) : (d.updRow k f).recvQ = d.recvQ := rfl
@[simp] theorem updRow_sendQ (d : Dev) (k : Nat) (f : Row → Row) : (d.updRow k f).sendQ = d.sendQ := rfl
@[simp] theorem updRow_mint (d : Dev) (k : Nat) (f : Row → Row) : (d.updRow k f).mint = d.mint := rfl
@[simp] theorem updRow_nameQ (d : Dev) (k : Nat) (f : Row → Row) : (d.updRow k f).nameQ = d.nameQ := rfl
@[simp] theorem updRow_shoots (d : Dev) (k : Nat) (f : Row → Row) : (d.updRow k f).shoots = d.shoots := rfl
@[simp] theorem updRow_tsds (d : Dev) (k : Nat) (f : Row → Row) : (d.updRow k f).tsds = d.tsds := rfl
@[simp] theorem updRow_blocks (d : Dev) (k : Nat) (f : Row → Row) : (d.updRow k f).blocks = d.blocks := rfl
@[simp] theorem updRow_launches (d : Dev) (k : Nat) (f : Row → Row) : (d.updRow k f).launches = d.launches := rfl
@[simp] theorem updRow_tasks (d : Dev) (k : Nat) (f : Row → Row) : (d.updRow k f).tasks = d.tasks := rfl
@[simp] theorem updRow_entries (d : Dev) (k : Nat) (f : Row → Row) : (d.updRow k f).entries = d.entries := rfl
@[simp] theorem updRow_costarts (d : Dev) (k : Nat) (f : Row → Row) : (d.updRow k f).costarts = d.costarts := rfl
@[simp] theorem updRow_launchResult (d : Dev) (k : Nat) (f : Row → Row) : (d.updRow k f).launchResult = d.launchResult := rfl
@[simp] theorem updRow_launchPort (d : Dev) (k : Nat) (f : Row → Row) : (d.updRow k f).launchPort = d.launchPort := rfl
@[simp] theorem updRow_wclear (d : Dev) (k : Nat) (f : Row → Row) : (d.updRow k f).wclear = d.wclear := rfl
@[simp] theorem updRow_gramQ (d : Dev) (k : Nat) (f : Row → Row) : (d.updRow k f).gramQ = d.gramQ := rfl
@[simp] theorem updRow_frozenMs (d : Dev) (k : Nat) (f : Row → Row) : (d.updRow k f).frozenMs = d.frozenMs := rfl
@[simp] theorem updRow_mail (d : Dev) (k : Nat) (f : Row → Row) : (d.updRow k f).mail = d.mail := rfl
@[simp] theorem updRow_lentOut (d : Dev) (k : Nat) (f : Row → Row) : (d.updRow k f).lentOut = d.lentOut := rfl
@[simp] theorem updRow_preempts (d : Dev) (k : Nat) (f : Row → Row) : (d.updRow k f).preempts = d.preempts := rfl
@[simp] theorem updRow_away (d : Dev) (k : Nat) (f : Row → Row) : (d.updRow k f).away = d.away := rfl
@[simp] theorem updRow_stuck (d : Dev) (k : Nat) (f : Row → Row) : (d.updRow k f).stuck = d.stuck := rfl
@[simp] theorem updRow_jtagOpen (d : Dev) (k : Nat) (f : Row → Row) : (d.updRow k f).jtagOpen = d.jtagOpen := rfl
@[simp] theorem updRow_hostReply (d : Dev) (k : Nat) (f : Row → Row) : (d.updRow k f).hostReply = d.hostReply := rfl

/-! `Dev.updTile` -/
@[simp] theorem updTile_refills (d : Dev) (k : Nat) (f : Tile → Tile) : (d.updTile k f).refills = d.refills := rfl
@[simp] theorem updTile_cycle (d : Dev) (k : Nat) (f : Tile → Tile) : (d.updTile k f).cycle = d.cycle := rfl
@[simp] theorem updTile_todo (d : Dev) (k : Nat) (f : Tile → Tile) : (d.updTile k f).todo = d.todo := rfl
@[simp] theorem updTile_events (d : Dev) (k : Nat) (f : Tile → Tile) : (d.updTile k f).events = d.events := rfl
@[simp] theorem updTile_free (d : Dev) (k : Nat) (f : Tile → Tile) : (d.updTile k f).free = d.free := rfl
@[simp] theorem updTile_nextId (d : Dev) (k : Nat) (f : Tile → Tile) : (d.updTile k f).nextId = d.nextId := rfl
@[simp] theorem updTile_cur (d : Dev) (k : Nat) (f : Tile → Tile) : (d.updTile k f).cur = d.cur := rfl
@[simp] theorem updTile_args (d : Dev) (k : Nat) (f : Tile → Tile) : (d.updTile k f).args = d.args := rfl
@[simp] theorem updTile_inUni (d : Dev) (k : Nat) (f : Tile → Tile) : (d.updTile k f).inUni = d.inUni := rfl
@[simp] theorem updTile_last (d : Dev) (k : Nat) (f : Tile → Tile) : (d.updTile k f).last = d.last := rfl
@[simp] theorem updTile_wbuf (d : Dev) (k : Nat) (f : Tile → Tile) : (d.updTile k f).wbuf = d.wbuf := rfl
@[simp] theorem updTile_threads (d : Dev) (k : Nat) (f : Tile → Tile) : (d.updTile k f).threads = d.threads := rfl
@[simp] theorem updTile_quads (d : Dev) (k : Nat) (f : Tile → Tile) : (d.updTile k f).quads = d.quads := rfl
@[simp] theorem updTile_cores (d : Dev) (k : Nat) (f : Tile → Tile) : (d.updTile k f).cores = d.cores := rfl
@[simp] theorem updTile_rows (d : Dev) (k : Nat) (f : Tile → Tile) : (d.updTile k f).rows = d.rows := rfl
@[simp] theorem updTile_bars (d : Dev) (k : Nat) (f : Tile → Tile) : (d.updTile k f).bars = d.bars := rfl
@[simp] theorem updTile_reqs (d : Dev) (k : Nat) (f : Tile → Tile) : (d.updTile k f).reqs = d.reqs := rfl
@[simp] theorem updTile_arrs (d : Dev) (k : Nat) (f : Tile → Tile) : (d.updTile k f).arrs = d.arrs := rfl
@[simp] theorem updTile_tiles (d : Dev) (k : Nat) (f : Tile → Tile) : (d.updTile k f).tiles = d.tiles.set k (f (d.tile k)) := rfl
@[simp] theorem updTile_dies (d : Dev) (k : Nat) (f : Tile → Tile) : (d.updTile k f).dies = d.dies := rfl
@[simp] theorem updTile_hgc (d : Dev) (k : Nat) (f : Tile → Tile) : (d.updTile k f).hgc = d.hgc := rfl
@[simp] theorem updTile_hbp (d : Dev) (k : Nat) (f : Tile → Tile) : (d.updTile k f).hbp = d.hbp := rfl
@[simp] theorem updTile_stage2 (d : Dev) (k : Nat) (f : Tile → Tile) : (d.updTile k f).stage2 = d.stage2 := rfl
@[simp] theorem updTile_feWait (d : Dev) (k : Nat) (f : Tile → Tile) : (d.updTile k f).feWait = d.feWait := rfl
@[simp] theorem updTile_lockWait (d : Dev) (k : Nat) (f : Tile → Tile) : (d.updTile k f).lockWait = d.lockWait := rfl
@[simp] theorem updTile_resvs (d : Dev) (k : Nat) (f : Tile → Tile) : (d.updTile k f).resvs = d.resvs := rfl
@[simp] theorem updTile_resvHold (d : Dev) (k : Nat) (f : Tile → Tile) : (d.updTile k f).resvHold = d.resvHold := rfl
@[simp] theorem updTile_hostAtomics (d : Dev) (k : Nat) (f : Tile → Tile) : (d.updTile k f).hostAtomics = d.hostAtomics := rfl
@[simp] theorem updTile_cxlDown (d : Dev) (k : Nat) (f : Tile → Tile) : (d.updTile k f).cxlDown = d.cxlDown := rfl
@[simp] theorem updTile_retraining (d : Dev) (k : Nat) (f : Tile → Tile) : (d.updTile k f).retraining = d.retraining := rfl
@[simp] theorem updTile_fwd (d : Dev) (k : Nat) (f : Tile → Tile) : (d.updTile k f).fwd = d.fwd := rfl
@[simp] theorem updTile_chanQ (d : Dev) (k : Nat) (f : Tile → Tile) : (d.updTile k f).chanQ = d.chanQ := rfl
@[simp] theorem updTile_chanRun (d : Dev) (k : Nat) (f : Tile → Tile) : (d.updTile k f).chanRun = d.chanRun := rfl
@[simp] theorem updTile_recvQ (d : Dev) (k : Nat) (f : Tile → Tile) : (d.updTile k f).recvQ = d.recvQ := rfl
@[simp] theorem updTile_sendQ (d : Dev) (k : Nat) (f : Tile → Tile) : (d.updTile k f).sendQ = d.sendQ := rfl
@[simp] theorem updTile_mint (d : Dev) (k : Nat) (f : Tile → Tile) : (d.updTile k f).mint = d.mint := rfl
@[simp] theorem updTile_nameQ (d : Dev) (k : Nat) (f : Tile → Tile) : (d.updTile k f).nameQ = d.nameQ := rfl
@[simp] theorem updTile_shoots (d : Dev) (k : Nat) (f : Tile → Tile) : (d.updTile k f).shoots = d.shoots := rfl
@[simp] theorem updTile_tsds (d : Dev) (k : Nat) (f : Tile → Tile) : (d.updTile k f).tsds = d.tsds := rfl
@[simp] theorem updTile_blocks (d : Dev) (k : Nat) (f : Tile → Tile) : (d.updTile k f).blocks = d.blocks := rfl
@[simp] theorem updTile_launches (d : Dev) (k : Nat) (f : Tile → Tile) : (d.updTile k f).launches = d.launches := rfl
@[simp] theorem updTile_tasks (d : Dev) (k : Nat) (f : Tile → Tile) : (d.updTile k f).tasks = d.tasks := rfl
@[simp] theorem updTile_entries (d : Dev) (k : Nat) (f : Tile → Tile) : (d.updTile k f).entries = d.entries := rfl
@[simp] theorem updTile_costarts (d : Dev) (k : Nat) (f : Tile → Tile) : (d.updTile k f).costarts = d.costarts := rfl
@[simp] theorem updTile_launchResult (d : Dev) (k : Nat) (f : Tile → Tile) : (d.updTile k f).launchResult = d.launchResult := rfl
@[simp] theorem updTile_launchPort (d : Dev) (k : Nat) (f : Tile → Tile) : (d.updTile k f).launchPort = d.launchPort := rfl
@[simp] theorem updTile_wclear (d : Dev) (k : Nat) (f : Tile → Tile) : (d.updTile k f).wclear = d.wclear := rfl
@[simp] theorem updTile_gramQ (d : Dev) (k : Nat) (f : Tile → Tile) : (d.updTile k f).gramQ = d.gramQ := rfl
@[simp] theorem updTile_frozenMs (d : Dev) (k : Nat) (f : Tile → Tile) : (d.updTile k f).frozenMs = d.frozenMs := rfl
@[simp] theorem updTile_mail (d : Dev) (k : Nat) (f : Tile → Tile) : (d.updTile k f).mail = d.mail := rfl
@[simp] theorem updTile_lentOut (d : Dev) (k : Nat) (f : Tile → Tile) : (d.updTile k f).lentOut = d.lentOut := rfl
@[simp] theorem updTile_preempts (d : Dev) (k : Nat) (f : Tile → Tile) : (d.updTile k f).preempts = d.preempts := rfl
@[simp] theorem updTile_away (d : Dev) (k : Nat) (f : Tile → Tile) : (d.updTile k f).away = d.away := rfl
@[simp] theorem updTile_stuck (d : Dev) (k : Nat) (f : Tile → Tile) : (d.updTile k f).stuck = d.stuck := rfl
@[simp] theorem updTile_jtagOpen (d : Dev) (k : Nat) (f : Tile → Tile) : (d.updTile k f).jtagOpen = d.jtagOpen := rfl
@[simp] theorem updTile_hostReply (d : Dev) (k : Nat) (f : Tile → Tile) : (d.updTile k f).hostReply = d.hostReply := rfl

/-! `Dev.updDie` -/
@[simp] theorem updDie_refills (d : Dev) (k : Nat) (f : Die → Die) : (d.updDie k f).refills = d.refills := rfl
@[simp] theorem updDie_cycle (d : Dev) (k : Nat) (f : Die → Die) : (d.updDie k f).cycle = d.cycle := rfl
@[simp] theorem updDie_todo (d : Dev) (k : Nat) (f : Die → Die) : (d.updDie k f).todo = d.todo := rfl
@[simp] theorem updDie_events (d : Dev) (k : Nat) (f : Die → Die) : (d.updDie k f).events = d.events := rfl
@[simp] theorem updDie_free (d : Dev) (k : Nat) (f : Die → Die) : (d.updDie k f).free = d.free := rfl
@[simp] theorem updDie_nextId (d : Dev) (k : Nat) (f : Die → Die) : (d.updDie k f).nextId = d.nextId := rfl
@[simp] theorem updDie_cur (d : Dev) (k : Nat) (f : Die → Die) : (d.updDie k f).cur = d.cur := rfl
@[simp] theorem updDie_args (d : Dev) (k : Nat) (f : Die → Die) : (d.updDie k f).args = d.args := rfl
@[simp] theorem updDie_inUni (d : Dev) (k : Nat) (f : Die → Die) : (d.updDie k f).inUni = d.inUni := rfl
@[simp] theorem updDie_last (d : Dev) (k : Nat) (f : Die → Die) : (d.updDie k f).last = d.last := rfl
@[simp] theorem updDie_wbuf (d : Dev) (k : Nat) (f : Die → Die) : (d.updDie k f).wbuf = d.wbuf := rfl
@[simp] theorem updDie_threads (d : Dev) (k : Nat) (f : Die → Die) : (d.updDie k f).threads = d.threads := rfl
@[simp] theorem updDie_quads (d : Dev) (k : Nat) (f : Die → Die) : (d.updDie k f).quads = d.quads := rfl
@[simp] theorem updDie_cores (d : Dev) (k : Nat) (f : Die → Die) : (d.updDie k f).cores = d.cores := rfl
@[simp] theorem updDie_rows (d : Dev) (k : Nat) (f : Die → Die) : (d.updDie k f).rows = d.rows := rfl
@[simp] theorem updDie_bars (d : Dev) (k : Nat) (f : Die → Die) : (d.updDie k f).bars = d.bars := rfl
@[simp] theorem updDie_reqs (d : Dev) (k : Nat) (f : Die → Die) : (d.updDie k f).reqs = d.reqs := rfl
@[simp] theorem updDie_arrs (d : Dev) (k : Nat) (f : Die → Die) : (d.updDie k f).arrs = d.arrs := rfl
@[simp] theorem updDie_tiles (d : Dev) (k : Nat) (f : Die → Die) : (d.updDie k f).tiles = d.tiles := rfl
@[simp] theorem updDie_dies (d : Dev) (k : Nat) (f : Die → Die) : (d.updDie k f).dies = d.dies.set k (f (d.die k)) := rfl
@[simp] theorem updDie_hgc (d : Dev) (k : Nat) (f : Die → Die) : (d.updDie k f).hgc = d.hgc := rfl
@[simp] theorem updDie_hbp (d : Dev) (k : Nat) (f : Die → Die) : (d.updDie k f).hbp = d.hbp := rfl
@[simp] theorem updDie_stage2 (d : Dev) (k : Nat) (f : Die → Die) : (d.updDie k f).stage2 = d.stage2 := rfl
@[simp] theorem updDie_feWait (d : Dev) (k : Nat) (f : Die → Die) : (d.updDie k f).feWait = d.feWait := rfl
@[simp] theorem updDie_lockWait (d : Dev) (k : Nat) (f : Die → Die) : (d.updDie k f).lockWait = d.lockWait := rfl
@[simp] theorem updDie_resvs (d : Dev) (k : Nat) (f : Die → Die) : (d.updDie k f).resvs = d.resvs := rfl
@[simp] theorem updDie_resvHold (d : Dev) (k : Nat) (f : Die → Die) : (d.updDie k f).resvHold = d.resvHold := rfl
@[simp] theorem updDie_hostAtomics (d : Dev) (k : Nat) (f : Die → Die) : (d.updDie k f).hostAtomics = d.hostAtomics := rfl
@[simp] theorem updDie_cxlDown (d : Dev) (k : Nat) (f : Die → Die) : (d.updDie k f).cxlDown = d.cxlDown := rfl
@[simp] theorem updDie_retraining (d : Dev) (k : Nat) (f : Die → Die) : (d.updDie k f).retraining = d.retraining := rfl
@[simp] theorem updDie_fwd (d : Dev) (k : Nat) (f : Die → Die) : (d.updDie k f).fwd = d.fwd := rfl
@[simp] theorem updDie_chanQ (d : Dev) (k : Nat) (f : Die → Die) : (d.updDie k f).chanQ = d.chanQ := rfl
@[simp] theorem updDie_chanRun (d : Dev) (k : Nat) (f : Die → Die) : (d.updDie k f).chanRun = d.chanRun := rfl
@[simp] theorem updDie_recvQ (d : Dev) (k : Nat) (f : Die → Die) : (d.updDie k f).recvQ = d.recvQ := rfl
@[simp] theorem updDie_sendQ (d : Dev) (k : Nat) (f : Die → Die) : (d.updDie k f).sendQ = d.sendQ := rfl
@[simp] theorem updDie_mint (d : Dev) (k : Nat) (f : Die → Die) : (d.updDie k f).mint = d.mint := rfl
@[simp] theorem updDie_nameQ (d : Dev) (k : Nat) (f : Die → Die) : (d.updDie k f).nameQ = d.nameQ := rfl
@[simp] theorem updDie_shoots (d : Dev) (k : Nat) (f : Die → Die) : (d.updDie k f).shoots = d.shoots := rfl
@[simp] theorem updDie_tsds (d : Dev) (k : Nat) (f : Die → Die) : (d.updDie k f).tsds = d.tsds := rfl
@[simp] theorem updDie_blocks (d : Dev) (k : Nat) (f : Die → Die) : (d.updDie k f).blocks = d.blocks := rfl
@[simp] theorem updDie_launches (d : Dev) (k : Nat) (f : Die → Die) : (d.updDie k f).launches = d.launches := rfl
@[simp] theorem updDie_tasks (d : Dev) (k : Nat) (f : Die → Die) : (d.updDie k f).tasks = d.tasks := rfl
@[simp] theorem updDie_entries (d : Dev) (k : Nat) (f : Die → Die) : (d.updDie k f).entries = d.entries := rfl
@[simp] theorem updDie_costarts (d : Dev) (k : Nat) (f : Die → Die) : (d.updDie k f).costarts = d.costarts := rfl
@[simp] theorem updDie_launchResult (d : Dev) (k : Nat) (f : Die → Die) : (d.updDie k f).launchResult = d.launchResult := rfl
@[simp] theorem updDie_launchPort (d : Dev) (k : Nat) (f : Die → Die) : (d.updDie k f).launchPort = d.launchPort := rfl
@[simp] theorem updDie_wclear (d : Dev) (k : Nat) (f : Die → Die) : (d.updDie k f).wclear = d.wclear := rfl
@[simp] theorem updDie_gramQ (d : Dev) (k : Nat) (f : Die → Die) : (d.updDie k f).gramQ = d.gramQ := rfl
@[simp] theorem updDie_frozenMs (d : Dev) (k : Nat) (f : Die → Die) : (d.updDie k f).frozenMs = d.frozenMs := rfl
@[simp] theorem updDie_mail (d : Dev) (k : Nat) (f : Die → Die) : (d.updDie k f).mail = d.mail := rfl
@[simp] theorem updDie_lentOut (d : Dev) (k : Nat) (f : Die → Die) : (d.updDie k f).lentOut = d.lentOut := rfl
@[simp] theorem updDie_preempts (d : Dev) (k : Nat) (f : Die → Die) : (d.updDie k f).preempts = d.preempts := rfl
@[simp] theorem updDie_away (d : Dev) (k : Nat) (f : Die → Die) : (d.updDie k f).away = d.away := rfl
@[simp] theorem updDie_stuck (d : Dev) (k : Nat) (f : Die → Die) : (d.updDie k f).stuck = d.stuck := rfl
@[simp] theorem updDie_jtagOpen (d : Dev) (k : Nat) (f : Die → Die) : (d.updDie k f).jtagOpen = d.jtagOpen := rfl
@[simp] theorem updDie_hostReply (d : Dev) (k : Nat) (f : Die → Die) : (d.updDie k f).hostReply = d.hostReply := rfl

/-! `Dev.post` -/
@[simp] theorem post_refills (d : Dev) (dt : Nat) (i : Instr) (args : List Nat) : (d.post dt i args).refills = d.refills := rfl
@[simp] theorem post_cycle (d : Dev) (dt : Nat) (i : Instr) (args : List Nat) : (d.post dt i args).cycle = d.cycle := rfl
@[simp] theorem post_todo (d : Dev) (dt : Nat) (i : Instr) (args : List Nat) : (d.post dt i args).todo = d.todo := rfl
@[simp] theorem post_events (d : Dev) (dt : Nat) (i : Instr) (args : List Nat) : (d.post dt i args).events = d.events ++ [Event.mk (d.cycle + dt) i args] := rfl
@[simp] theorem post_free (d : Dev) (dt : Nat) (i : Instr) (args : List Nat) : (d.post dt i args).free = d.free := rfl
@[simp] theorem post_nextId (d : Dev) (dt : Nat) (i : Instr) (args : List Nat) : (d.post dt i args).nextId = d.nextId := rfl
@[simp] theorem post_cur (d : Dev) (dt : Nat) (i : Instr) (args : List Nat) : (d.post dt i args).cur = d.cur := rfl
@[simp] theorem post_args (d : Dev) (dt : Nat) (i : Instr) (args : List Nat) : (d.post dt i args).args = d.args := rfl
@[simp] theorem post_inUni (d : Dev) (dt : Nat) (i : Instr) (args : List Nat) : (d.post dt i args).inUni = d.inUni := rfl
@[simp] theorem post_last (d : Dev) (dt : Nat) (i : Instr) (args : List Nat) : (d.post dt i args).last = d.last := rfl
@[simp] theorem post_wbuf (d : Dev) (dt : Nat) (i : Instr) (args : List Nat) : (d.post dt i args).wbuf = d.wbuf := rfl
@[simp] theorem post_threads (d : Dev) (dt : Nat) (i : Instr) (args : List Nat) : (d.post dt i args).threads = d.threads := rfl
@[simp] theorem post_quads (d : Dev) (dt : Nat) (i : Instr) (args : List Nat) : (d.post dt i args).quads = d.quads := rfl
@[simp] theorem post_cores (d : Dev) (dt : Nat) (i : Instr) (args : List Nat) : (d.post dt i args).cores = d.cores := rfl
@[simp] theorem post_rows (d : Dev) (dt : Nat) (i : Instr) (args : List Nat) : (d.post dt i args).rows = d.rows := rfl
@[simp] theorem post_bars (d : Dev) (dt : Nat) (i : Instr) (args : List Nat) : (d.post dt i args).bars = d.bars := rfl
@[simp] theorem post_reqs (d : Dev) (dt : Nat) (i : Instr) (args : List Nat) : (d.post dt i args).reqs = d.reqs := rfl
@[simp] theorem post_arrs (d : Dev) (dt : Nat) (i : Instr) (args : List Nat) : (d.post dt i args).arrs = d.arrs := rfl
@[simp] theorem post_tiles (d : Dev) (dt : Nat) (i : Instr) (args : List Nat) : (d.post dt i args).tiles = d.tiles := rfl
@[simp] theorem post_dies (d : Dev) (dt : Nat) (i : Instr) (args : List Nat) : (d.post dt i args).dies = d.dies := rfl
@[simp] theorem post_hgc (d : Dev) (dt : Nat) (i : Instr) (args : List Nat) : (d.post dt i args).hgc = d.hgc := rfl
@[simp] theorem post_hbp (d : Dev) (dt : Nat) (i : Instr) (args : List Nat) : (d.post dt i args).hbp = d.hbp := rfl
@[simp] theorem post_stage2 (d : Dev) (dt : Nat) (i : Instr) (args : List Nat) : (d.post dt i args).stage2 = d.stage2 := rfl
@[simp] theorem post_feWait (d : Dev) (dt : Nat) (i : Instr) (args : List Nat) : (d.post dt i args).feWait = d.feWait := rfl
@[simp] theorem post_lockWait (d : Dev) (dt : Nat) (i : Instr) (args : List Nat) : (d.post dt i args).lockWait = d.lockWait := rfl
@[simp] theorem post_resvs (d : Dev) (dt : Nat) (i : Instr) (args : List Nat) : (d.post dt i args).resvs = d.resvs := rfl
@[simp] theorem post_resvHold (d : Dev) (dt : Nat) (i : Instr) (args : List Nat) : (d.post dt i args).resvHold = d.resvHold := rfl
@[simp] theorem post_hostAtomics (d : Dev) (dt : Nat) (i : Instr) (args : List Nat) : (d.post dt i args).hostAtomics = d.hostAtomics := rfl
@[simp] theorem post_cxlDown (d : Dev) (dt : Nat) (i : Instr) (args : List Nat) : (d.post dt i args).cxlDown = d.cxlDown := rfl
@[simp] theorem post_retraining (d : Dev) (dt : Nat) (i : Instr) (args : List Nat) : (d.post dt i args).retraining = d.retraining := rfl
@[simp] theorem post_fwd (d : Dev) (dt : Nat) (i : Instr) (args : List Nat) : (d.post dt i args).fwd = d.fwd := rfl
@[simp] theorem post_chanQ (d : Dev) (dt : Nat) (i : Instr) (args : List Nat) : (d.post dt i args).chanQ = d.chanQ := rfl
@[simp] theorem post_chanRun (d : Dev) (dt : Nat) (i : Instr) (args : List Nat) : (d.post dt i args).chanRun = d.chanRun := rfl
@[simp] theorem post_recvQ (d : Dev) (dt : Nat) (i : Instr) (args : List Nat) : (d.post dt i args).recvQ = d.recvQ := rfl
@[simp] theorem post_sendQ (d : Dev) (dt : Nat) (i : Instr) (args : List Nat) : (d.post dt i args).sendQ = d.sendQ := rfl
@[simp] theorem post_mint (d : Dev) (dt : Nat) (i : Instr) (args : List Nat) : (d.post dt i args).mint = d.mint := rfl
@[simp] theorem post_nameQ (d : Dev) (dt : Nat) (i : Instr) (args : List Nat) : (d.post dt i args).nameQ = d.nameQ := rfl
@[simp] theorem post_shoots (d : Dev) (dt : Nat) (i : Instr) (args : List Nat) : (d.post dt i args).shoots = d.shoots := rfl
@[simp] theorem post_tsds (d : Dev) (dt : Nat) (i : Instr) (args : List Nat) : (d.post dt i args).tsds = d.tsds := rfl
@[simp] theorem post_blocks (d : Dev) (dt : Nat) (i : Instr) (args : List Nat) : (d.post dt i args).blocks = d.blocks := rfl
@[simp] theorem post_launches (d : Dev) (dt : Nat) (i : Instr) (args : List Nat) : (d.post dt i args).launches = d.launches := rfl
@[simp] theorem post_tasks (d : Dev) (dt : Nat) (i : Instr) (args : List Nat) : (d.post dt i args).tasks = d.tasks := rfl
@[simp] theorem post_entries (d : Dev) (dt : Nat) (i : Instr) (args : List Nat) : (d.post dt i args).entries = d.entries := rfl
@[simp] theorem post_costarts (d : Dev) (dt : Nat) (i : Instr) (args : List Nat) : (d.post dt i args).costarts = d.costarts := rfl
@[simp] theorem post_launchResult (d : Dev) (dt : Nat) (i : Instr) (args : List Nat) : (d.post dt i args).launchResult = d.launchResult := rfl
@[simp] theorem post_launchPort (d : Dev) (dt : Nat) (i : Instr) (args : List Nat) : (d.post dt i args).launchPort = d.launchPort := rfl
@[simp] theorem post_wclear (d : Dev) (dt : Nat) (i : Instr) (args : List Nat) : (d.post dt i args).wclear = d.wclear := rfl
@[simp] theorem post_gramQ (d : Dev) (dt : Nat) (i : Instr) (args : List Nat) : (d.post dt i args).gramQ = d.gramQ := rfl
@[simp] theorem post_frozenMs (d : Dev) (dt : Nat) (i : Instr) (args : List Nat) : (d.post dt i args).frozenMs = d.frozenMs := rfl
@[simp] theorem post_mail (d : Dev) (dt : Nat) (i : Instr) (args : List Nat) : (d.post dt i args).mail = d.mail := rfl
@[simp] theorem post_lentOut (d : Dev) (dt : Nat) (i : Instr) (args : List Nat) : (d.post dt i args).lentOut = d.lentOut := rfl
@[simp] theorem post_preempts (d : Dev) (dt : Nat) (i : Instr) (args : List Nat) : (d.post dt i args).preempts = d.preempts := rfl
@[simp] theorem post_away (d : Dev) (dt : Nat) (i : Instr) (args : List Nat) : (d.post dt i args).away = d.away := rfl
@[simp] theorem post_stuck (d : Dev) (dt : Nat) (i : Instr) (args : List Nat) : (d.post dt i args).stuck = d.stuck := rfl
@[simp] theorem post_jtagOpen (d : Dev) (dt : Nat) (i : Instr) (args : List Nat) : (d.post dt i args).jtagOpen = d.jtagOpen := rfl
@[simp] theorem post_hostReply (d : Dev) (dt : Nat) (i : Instr) (args : List Nat) : (d.post dt i args).hostReply = d.hostReply := rfl

/-! `Dev.clear` -/
@[simp] theorem clear_refills (d : Dev) (k n : Nat) : (d.clear k n).refills = d.refills := rfl
@[simp] theorem clear_cycle (d : Dev) (k n : Nat) : (d.clear k n).cycle = d.cycle := rfl
@[simp] theorem clear_todo (d : Dev) (k n : Nat) : (d.clear k n).todo = d.todo := rfl
@[simp] theorem clear_events (d : Dev) (k n : Nat) : (d.clear k n).events = d.events := rfl
@[simp] theorem clear_free (d : Dev) (k n : Nat) : (d.clear k n).free = d.free := rfl
@[simp] theorem clear_nextId (d : Dev) (k n : Nat) : (d.clear k n).nextId = d.nextId := rfl
@[simp] theorem clear_cur (d : Dev) (k n : Nat) : (d.clear k n).cur = d.cur := rfl
@[simp] theorem clear_args (d : Dev) (k n : Nat) : (d.clear k n).args = d.args := rfl
@[simp] theorem clear_inUni (d : Dev) (k n : Nat) : (d.clear k n).inUni = d.inUni := rfl
@[simp] theorem clear_last (d : Dev) (k n : Nat) : (d.clear k n).last = d.last := rfl
@[simp] theorem clear_wbuf (d : Dev) (k n : Nat) : (d.clear k n).wbuf = d.wbuf.filter fun x => !(k ≤ x.1 && x.1 < k + n) := rfl
@[simp] theorem clear_threads (d : Dev) (k n : Nat) : (d.clear k n).threads = d.threads := rfl
@[simp] theorem clear_quads (d : Dev) (k n : Nat) : (d.clear k n).quads = d.quads := rfl
@[simp] theorem clear_cores (d : Dev) (k n : Nat) : (d.clear k n).cores = d.cores := rfl
@[simp] theorem clear_rows (d : Dev) (k n : Nat) : (d.clear k n).rows = d.rows := rfl
@[simp] theorem clear_bars (d : Dev) (k n : Nat) : (d.clear k n).bars = d.bars := rfl
@[simp] theorem clear_reqs (d : Dev) (k n : Nat) : (d.clear k n).reqs = d.reqs := rfl
@[simp] theorem clear_arrs (d : Dev) (k n : Nat) : (d.clear k n).arrs = d.arrs := rfl
@[simp] theorem clear_tiles (d : Dev) (k n : Nat) : (d.clear k n).tiles = d.tiles := rfl
@[simp] theorem clear_dies (d : Dev) (k n : Nat) : (d.clear k n).dies = d.dies := rfl
@[simp] theorem clear_hgc (d : Dev) (k n : Nat) : (d.clear k n).hgc = d.hgc := rfl
@[simp] theorem clear_hbp (d : Dev) (k n : Nat) : (d.clear k n).hbp = d.hbp := rfl
@[simp] theorem clear_stage2 (d : Dev) (k n : Nat) : (d.clear k n).stage2 = d.stage2 := rfl
@[simp] theorem clear_feWait (d : Dev) (k n : Nat) : (d.clear k n).feWait = d.feWait := rfl
@[simp] theorem clear_lockWait (d : Dev) (k n : Nat) : (d.clear k n).lockWait = d.lockWait := rfl
@[simp] theorem clear_resvs (d : Dev) (k n : Nat) : (d.clear k n).resvs = d.resvs := rfl
@[simp] theorem clear_resvHold (d : Dev) (k n : Nat) : (d.clear k n).resvHold = d.resvHold := rfl
@[simp] theorem clear_hostAtomics (d : Dev) (k n : Nat) : (d.clear k n).hostAtomics = d.hostAtomics := rfl
@[simp] theorem clear_cxlDown (d : Dev) (k n : Nat) : (d.clear k n).cxlDown = d.cxlDown := rfl
@[simp] theorem clear_retraining (d : Dev) (k n : Nat) : (d.clear k n).retraining = d.retraining := rfl
@[simp] theorem clear_fwd (d : Dev) (k n : Nat) : (d.clear k n).fwd = d.fwd := rfl
@[simp] theorem clear_chanQ (d : Dev) (k n : Nat) : (d.clear k n).chanQ = d.chanQ := rfl
@[simp] theorem clear_chanRun (d : Dev) (k n : Nat) : (d.clear k n).chanRun = d.chanRun := rfl
@[simp] theorem clear_recvQ (d : Dev) (k n : Nat) : (d.clear k n).recvQ = d.recvQ := rfl
@[simp] theorem clear_sendQ (d : Dev) (k n : Nat) : (d.clear k n).sendQ = d.sendQ := rfl
@[simp] theorem clear_mint (d : Dev) (k n : Nat) : (d.clear k n).mint = d.mint := rfl
@[simp] theorem clear_nameQ (d : Dev) (k n : Nat) : (d.clear k n).nameQ = d.nameQ := rfl
@[simp] theorem clear_shoots (d : Dev) (k n : Nat) : (d.clear k n).shoots = d.shoots := rfl
@[simp] theorem clear_tsds (d : Dev) (k n : Nat) : (d.clear k n).tsds = d.tsds := rfl
@[simp] theorem clear_blocks (d : Dev) (k n : Nat) : (d.clear k n).blocks = d.blocks := rfl
@[simp] theorem clear_launches (d : Dev) (k n : Nat) : (d.clear k n).launches = d.launches := rfl
@[simp] theorem clear_tasks (d : Dev) (k n : Nat) : (d.clear k n).tasks = d.tasks := rfl
@[simp] theorem clear_entries (d : Dev) (k n : Nat) : (d.clear k n).entries = d.entries := rfl
@[simp] theorem clear_costarts (d : Dev) (k n : Nat) : (d.clear k n).costarts = d.costarts := rfl
@[simp] theorem clear_launchResult (d : Dev) (k n : Nat) : (d.clear k n).launchResult = d.launchResult := rfl
@[simp] theorem clear_launchPort (d : Dev) (k n : Nat) : (d.clear k n).launchPort = d.launchPort := rfl
@[simp] theorem clear_wclear (d : Dev) (k n : Nat) : (d.clear k n).wclear = (k, n) :: d.wclear := rfl
@[simp] theorem clear_gramQ (d : Dev) (k n : Nat) : (d.clear k n).gramQ = d.gramQ := rfl
@[simp] theorem clear_frozenMs (d : Dev) (k n : Nat) : (d.clear k n).frozenMs = d.frozenMs := rfl
@[simp] theorem clear_mail (d : Dev) (k n : Nat) : (d.clear k n).mail = d.mail := rfl
@[simp] theorem clear_lentOut (d : Dev) (k n : Nat) : (d.clear k n).lentOut = d.lentOut := rfl
@[simp] theorem clear_preempts (d : Dev) (k n : Nat) : (d.clear k n).preempts = d.preempts := rfl
@[simp] theorem clear_away (d : Dev) (k n : Nat) : (d.clear k n).away = d.away := rfl
@[simp] theorem clear_stuck (d : Dev) (k n : Nat) : (d.clear k n).stuck = d.stuck := rfl
@[simp] theorem clear_jtagOpen (d : Dev) (k n : Nat) : (d.clear k n).jtagOpen = d.jtagOpen := rfl
@[simp] theorem clear_hostReply (d : Dev) (k n : Nat) : (d.clear k n).hostReply = d.hostReply := rfl

/-! `wrB`: one byte waits to be written. -/
@[simp] theorem wrB_refills (d : Dev) (k : Nat) (b : Byte) : (wrB d k b).refills = d.refills := rfl
@[simp] theorem wrB_cycle (d : Dev) (k : Nat) (b : Byte) : (wrB d k b).cycle = d.cycle := rfl
@[simp] theorem wrB_todo (d : Dev) (k : Nat) (b : Byte) : (wrB d k b).todo = d.todo := rfl
@[simp] theorem wrB_events (d : Dev) (k : Nat) (b : Byte) : (wrB d k b).events = d.events := rfl
@[simp] theorem wrB_free (d : Dev) (k : Nat) (b : Byte) : (wrB d k b).free = d.free := rfl
@[simp] theorem wrB_nextId (d : Dev) (k : Nat) (b : Byte) : (wrB d k b).nextId = d.nextId := rfl
@[simp] theorem wrB_cur (d : Dev) (k : Nat) (b : Byte) : (wrB d k b).cur = d.cur := rfl
@[simp] theorem wrB_args (d : Dev) (k : Nat) (b : Byte) : (wrB d k b).args = d.args := rfl
@[simp] theorem wrB_inUni (d : Dev) (k : Nat) (b : Byte) : (wrB d k b).inUni = d.inUni := rfl
@[simp] theorem wrB_last (d : Dev) (k : Nat) (b : Byte) : (wrB d k b).last = d.last := rfl
@[simp] theorem wrB_wbuf (d : Dev) (k : Nat) (b : Byte) : (wrB d k b).wbuf = (k, b) :: d.wbuf := rfl
@[simp] theorem wrB_threads (d : Dev) (k : Nat) (b : Byte) : (wrB d k b).threads = d.threads := rfl
@[simp] theorem wrB_quads (d : Dev) (k : Nat) (b : Byte) : (wrB d k b).quads = d.quads := rfl
@[simp] theorem wrB_cores (d : Dev) (k : Nat) (b : Byte) : (wrB d k b).cores = d.cores := rfl
@[simp] theorem wrB_rows (d : Dev) (k : Nat) (b : Byte) : (wrB d k b).rows = d.rows := rfl
@[simp] theorem wrB_bars (d : Dev) (k : Nat) (b : Byte) : (wrB d k b).bars = d.bars := rfl
@[simp] theorem wrB_reqs (d : Dev) (k : Nat) (b : Byte) : (wrB d k b).reqs = d.reqs := rfl
@[simp] theorem wrB_arrs (d : Dev) (k : Nat) (b : Byte) : (wrB d k b).arrs = d.arrs := rfl
@[simp] theorem wrB_tiles (d : Dev) (k : Nat) (b : Byte) : (wrB d k b).tiles = d.tiles := rfl
@[simp] theorem wrB_dies (d : Dev) (k : Nat) (b : Byte) : (wrB d k b).dies = d.dies := rfl
@[simp] theorem wrB_hgc (d : Dev) (k : Nat) (b : Byte) : (wrB d k b).hgc = d.hgc := rfl
@[simp] theorem wrB_hbp (d : Dev) (k : Nat) (b : Byte) : (wrB d k b).hbp = d.hbp := rfl
@[simp] theorem wrB_stage2 (d : Dev) (k : Nat) (b : Byte) : (wrB d k b).stage2 = d.stage2 := rfl
@[simp] theorem wrB_feWait (d : Dev) (k : Nat) (b : Byte) : (wrB d k b).feWait = d.feWait := rfl
@[simp] theorem wrB_lockWait (d : Dev) (k : Nat) (b : Byte) : (wrB d k b).lockWait = d.lockWait := rfl
@[simp] theorem wrB_resvs (d : Dev) (k : Nat) (b : Byte) : (wrB d k b).resvs = d.resvs := rfl
@[simp] theorem wrB_resvHold (d : Dev) (k : Nat) (b : Byte) : (wrB d k b).resvHold = d.resvHold := rfl
@[simp] theorem wrB_hostAtomics (d : Dev) (k : Nat) (b : Byte) : (wrB d k b).hostAtomics = d.hostAtomics := rfl
@[simp] theorem wrB_cxlDown (d : Dev) (k : Nat) (b : Byte) : (wrB d k b).cxlDown = d.cxlDown := rfl
@[simp] theorem wrB_retraining (d : Dev) (k : Nat) (b : Byte) : (wrB d k b).retraining = d.retraining := rfl
@[simp] theorem wrB_fwd (d : Dev) (k : Nat) (b : Byte) : (wrB d k b).fwd = d.fwd := rfl
@[simp] theorem wrB_chanQ (d : Dev) (k : Nat) (b : Byte) : (wrB d k b).chanQ = d.chanQ := rfl
@[simp] theorem wrB_chanRun (d : Dev) (k : Nat) (b : Byte) : (wrB d k b).chanRun = d.chanRun := rfl
@[simp] theorem wrB_recvQ (d : Dev) (k : Nat) (b : Byte) : (wrB d k b).recvQ = d.recvQ := rfl
@[simp] theorem wrB_sendQ (d : Dev) (k : Nat) (b : Byte) : (wrB d k b).sendQ = d.sendQ := rfl
@[simp] theorem wrB_mint (d : Dev) (k : Nat) (b : Byte) : (wrB d k b).mint = d.mint := rfl
@[simp] theorem wrB_nameQ (d : Dev) (k : Nat) (b : Byte) : (wrB d k b).nameQ = d.nameQ := rfl
@[simp] theorem wrB_shoots (d : Dev) (k : Nat) (b : Byte) : (wrB d k b).shoots = d.shoots := rfl
@[simp] theorem wrB_tsds (d : Dev) (k : Nat) (b : Byte) : (wrB d k b).tsds = d.tsds := rfl
@[simp] theorem wrB_blocks (d : Dev) (k : Nat) (b : Byte) : (wrB d k b).blocks = d.blocks := rfl
@[simp] theorem wrB_launches (d : Dev) (k : Nat) (b : Byte) : (wrB d k b).launches = d.launches := rfl
@[simp] theorem wrB_tasks (d : Dev) (k : Nat) (b : Byte) : (wrB d k b).tasks = d.tasks := rfl
@[simp] theorem wrB_entries (d : Dev) (k : Nat) (b : Byte) : (wrB d k b).entries = d.entries := rfl
@[simp] theorem wrB_costarts (d : Dev) (k : Nat) (b : Byte) : (wrB d k b).costarts = d.costarts := rfl
@[simp] theorem wrB_launchResult (d : Dev) (k : Nat) (b : Byte) : (wrB d k b).launchResult = d.launchResult := rfl
@[simp] theorem wrB_launchPort (d : Dev) (k : Nat) (b : Byte) : (wrB d k b).launchPort = d.launchPort := rfl
@[simp] theorem wrB_wclear (d : Dev) (k : Nat) (b : Byte) : (wrB d k b).wclear = d.wclear := rfl
@[simp] theorem wrB_gramQ (d : Dev) (k : Nat) (b : Byte) : (wrB d k b).gramQ = d.gramQ := rfl
@[simp] theorem wrB_frozenMs (d : Dev) (k : Nat) (b : Byte) : (wrB d k b).frozenMs = d.frozenMs := rfl
@[simp] theorem wrB_mail (d : Dev) (k : Nat) (b : Byte) : (wrB d k b).mail = d.mail := rfl
@[simp] theorem wrB_lentOut (d : Dev) (k : Nat) (b : Byte) : (wrB d k b).lentOut = d.lentOut := rfl
@[simp] theorem wrB_preempts (d : Dev) (k : Nat) (b : Byte) : (wrB d k b).preempts = d.preempts := rfl
@[simp] theorem wrB_away (d : Dev) (k : Nat) (b : Byte) : (wrB d k b).away = d.away := rfl
@[simp] theorem wrB_stuck (d : Dev) (k : Nat) (b : Byte) : (wrB d k b).stuck = d.stuck := rfl
@[simp] theorem wrB_jtagOpen (d : Dev) (k : Nat) (b : Byte) : (wrB d k b).jtagOpen = d.jtagOpen := rfl
@[simp] theorem wrB_hostReply (d : Dev) (k : Nat) (b : Byte) : (wrB d k b).hostReply = d.hostReply := rfl

/-! `commit` and `State.start` -/
@[simp] theorem commit_refills (m : Mem) (d : Dev) : (commit m d).dev.refills = d.refills := rfl
@[simp] theorem commit_cycle (m : Mem) (d : Dev) : (commit m d).dev.cycle = d.cycle := rfl
@[simp] theorem commit_todo (m : Mem) (d : Dev) : (commit m d).dev.todo = d.todo := rfl
@[simp] theorem commit_events (m : Mem) (d : Dev) : (commit m d).dev.events = d.events := rfl
@[simp] theorem commit_free (m : Mem) (d : Dev) : (commit m d).dev.free = d.free := rfl
@[simp] theorem commit_nextId (m : Mem) (d : Dev) : (commit m d).dev.nextId = d.nextId := rfl
@[simp] theorem commit_cur (m : Mem) (d : Dev) : (commit m d).dev.cur = d.cur := rfl
@[simp] theorem commit_args (m : Mem) (d : Dev) : (commit m d).dev.args = d.args := rfl
@[simp] theorem commit_inUni (m : Mem) (d : Dev) : (commit m d).dev.inUni = d.inUni := rfl
@[simp] theorem commit_last (m : Mem) (d : Dev) : (commit m d).dev.last = d.last := rfl
@[simp] theorem commit_wbuf (m : Mem) (d : Dev) : (commit m d).dev.wbuf = [] := rfl
@[simp] theorem commit_threads (m : Mem) (d : Dev) : (commit m d).dev.threads = d.threads := rfl
@[simp] theorem commit_quads (m : Mem) (d : Dev) : (commit m d).dev.quads = d.quads := rfl
@[simp] theorem commit_cores (m : Mem) (d : Dev) : (commit m d).dev.cores = d.cores := rfl
@[simp] theorem commit_rows (m : Mem) (d : Dev) : (commit m d).dev.rows = d.rows := rfl
@[simp] theorem commit_bars (m : Mem) (d : Dev) : (commit m d).dev.bars = d.bars := rfl
@[simp] theorem commit_reqs (m : Mem) (d : Dev) : (commit m d).dev.reqs = d.reqs := rfl
@[simp] theorem commit_arrs (m : Mem) (d : Dev) : (commit m d).dev.arrs = d.arrs := rfl
@[simp] theorem commit_tiles (m : Mem) (d : Dev) : (commit m d).dev.tiles = d.tiles := rfl
@[simp] theorem commit_dies (m : Mem) (d : Dev) : (commit m d).dev.dies = d.dies := rfl
@[simp] theorem commit_hgc (m : Mem) (d : Dev) : (commit m d).dev.hgc = d.hgc := rfl
@[simp] theorem commit_hbp (m : Mem) (d : Dev) : (commit m d).dev.hbp = d.hbp := rfl
@[simp] theorem commit_stage2 (m : Mem) (d : Dev) : (commit m d).dev.stage2 = d.stage2 := rfl
@[simp] theorem commit_feWait (m : Mem) (d : Dev) : (commit m d).dev.feWait = d.feWait := rfl
@[simp] theorem commit_lockWait (m : Mem) (d : Dev) : (commit m d).dev.lockWait = d.lockWait := rfl
@[simp] theorem commit_resvs (m : Mem) (d : Dev) : (commit m d).dev.resvs = d.resvs := rfl
@[simp] theorem commit_resvHold (m : Mem) (d : Dev) : (commit m d).dev.resvHold = d.resvHold := rfl
@[simp] theorem commit_hostAtomics (m : Mem) (d : Dev) : (commit m d).dev.hostAtomics = d.hostAtomics := rfl
@[simp] theorem commit_cxlDown (m : Mem) (d : Dev) : (commit m d).dev.cxlDown = d.cxlDown := rfl
@[simp] theorem commit_retraining (m : Mem) (d : Dev) : (commit m d).dev.retraining = d.retraining := rfl
@[simp] theorem commit_fwd (m : Mem) (d : Dev) : (commit m d).dev.fwd = d.fwd := rfl
@[simp] theorem commit_chanQ (m : Mem) (d : Dev) : (commit m d).dev.chanQ = d.chanQ := rfl
@[simp] theorem commit_chanRun (m : Mem) (d : Dev) : (commit m d).dev.chanRun = d.chanRun := rfl
@[simp] theorem commit_recvQ (m : Mem) (d : Dev) : (commit m d).dev.recvQ = d.recvQ := rfl
@[simp] theorem commit_sendQ (m : Mem) (d : Dev) : (commit m d).dev.sendQ = d.sendQ := rfl
@[simp] theorem commit_mint (m : Mem) (d : Dev) : (commit m d).dev.mint = d.mint := rfl
@[simp] theorem commit_nameQ (m : Mem) (d : Dev) : (commit m d).dev.nameQ = d.nameQ := rfl
@[simp] theorem commit_shoots (m : Mem) (d : Dev) : (commit m d).dev.shoots = d.shoots := rfl
@[simp] theorem commit_tsds (m : Mem) (d : Dev) : (commit m d).dev.tsds = d.tsds := rfl
@[simp] theorem commit_blocks (m : Mem) (d : Dev) : (commit m d).dev.blocks = d.blocks := rfl
@[simp] theorem commit_launches (m : Mem) (d : Dev) : (commit m d).dev.launches = d.launches := rfl
@[simp] theorem commit_tasks (m : Mem) (d : Dev) : (commit m d).dev.tasks = d.tasks := rfl
@[simp] theorem commit_entries (m : Mem) (d : Dev) : (commit m d).dev.entries = d.entries := rfl
@[simp] theorem commit_costarts (m : Mem) (d : Dev) : (commit m d).dev.costarts = d.costarts := rfl
@[simp] theorem commit_launchResult (m : Mem) (d : Dev) : (commit m d).dev.launchResult = d.launchResult := rfl
@[simp] theorem commit_launchPort (m : Mem) (d : Dev) : (commit m d).dev.launchPort = d.launchPort := rfl
@[simp] theorem commit_wclear (m : Mem) (d : Dev) : (commit m d).dev.wclear = [] := rfl
@[simp] theorem commit_gramQ (m : Mem) (d : Dev) : (commit m d).dev.gramQ = d.gramQ := rfl
@[simp] theorem commit_frozenMs (m : Mem) (d : Dev) : (commit m d).dev.frozenMs = d.frozenMs := rfl
@[simp] theorem commit_mail (m : Mem) (d : Dev) : (commit m d).dev.mail = d.mail := rfl
@[simp] theorem commit_lentOut (m : Mem) (d : Dev) : (commit m d).dev.lentOut = d.lentOut := rfl
@[simp] theorem commit_preempts (m : Mem) (d : Dev) : (commit m d).dev.preempts = d.preempts := rfl
@[simp] theorem commit_away (m : Mem) (d : Dev) : (commit m d).dev.away = d.away := rfl
@[simp] theorem commit_stuck (m : Mem) (d : Dev) : (commit m d).dev.stuck = d.stuck := rfl
@[simp] theorem commit_jtagOpen (m : Mem) (d : Dev) : (commit m d).dev.jtagOpen = d.jtagOpen := rfl
@[simp] theorem commit_hostReply (m : Mem) (d : Dev) : (commit m d).dev.hostReply = d.hostReply := rfl
@[simp] theorem start_refills (s : State) : s.start.refills = s.dev.refills := rfl
@[simp] theorem start_cycle (s : State) : s.start.cycle = s.dev.cycle := rfl
@[simp] theorem start_todo (s : State) : s.start.todo = s.dev.todo := rfl
@[simp] theorem start_events (s : State) : s.start.events = s.dev.events := rfl
@[simp] theorem start_free (s : State) : s.start.free = s.dev.free := rfl
@[simp] theorem start_nextId (s : State) : s.start.nextId = s.dev.nextId := rfl
@[simp] theorem start_cur (s : State) : s.start.cur = s.dev.cur := rfl
@[simp] theorem start_args (s : State) : s.start.args = s.dev.args := rfl
@[simp] theorem start_inUni (s : State) : s.start.inUni = s.dev.inUni := rfl
@[simp] theorem start_last (s : State) : s.start.last = .issued := rfl
@[simp] theorem start_wbuf (s : State) : s.start.wbuf = [] := rfl
@[simp] theorem start_threads (s : State) : s.start.threads = s.dev.threads := rfl
@[simp] theorem start_quads (s : State) : s.start.quads = s.dev.quads := rfl
@[simp] theorem start_cores (s : State) : s.start.cores = s.dev.cores := rfl
@[simp] theorem start_rows (s : State) : s.start.rows = s.dev.rows := rfl
@[simp] theorem start_bars (s : State) : s.start.bars = s.dev.bars := rfl
@[simp] theorem start_reqs (s : State) : s.start.reqs = s.dev.reqs := rfl
@[simp] theorem start_arrs (s : State) : s.start.arrs = s.dev.arrs := rfl
@[simp] theorem start_tiles (s : State) : s.start.tiles = s.dev.tiles := rfl
@[simp] theorem start_dies (s : State) : s.start.dies = s.dev.dies := rfl
@[simp] theorem start_hgc (s : State) : s.start.hgc = s.dev.hgc := rfl
@[simp] theorem start_hbp (s : State) : s.start.hbp = s.dev.hbp := rfl
@[simp] theorem start_stage2 (s : State) : s.start.stage2 = s.dev.stage2 := rfl
@[simp] theorem start_feWait (s : State) : s.start.feWait = s.dev.feWait := rfl
@[simp] theorem start_lockWait (s : State) : s.start.lockWait = s.dev.lockWait := rfl
@[simp] theorem start_resvs (s : State) : s.start.resvs = s.dev.resvs := rfl
@[simp] theorem start_resvHold (s : State) : s.start.resvHold = s.dev.resvHold := rfl
@[simp] theorem start_hostAtomics (s : State) : s.start.hostAtomics = s.dev.hostAtomics := rfl
@[simp] theorem start_cxlDown (s : State) : s.start.cxlDown = s.dev.cxlDown := rfl
@[simp] theorem start_retraining (s : State) : s.start.retraining = s.dev.retraining := rfl
@[simp] theorem start_fwd (s : State) : s.start.fwd = s.dev.fwd := rfl
@[simp] theorem start_chanQ (s : State) : s.start.chanQ = s.dev.chanQ := rfl
@[simp] theorem start_chanRun (s : State) : s.start.chanRun = s.dev.chanRun := rfl
@[simp] theorem start_recvQ (s : State) : s.start.recvQ = s.dev.recvQ := rfl
@[simp] theorem start_sendQ (s : State) : s.start.sendQ = s.dev.sendQ := rfl
@[simp] theorem start_mint (s : State) : s.start.mint = s.dev.mint := rfl
@[simp] theorem start_nameQ (s : State) : s.start.nameQ = s.dev.nameQ := rfl
@[simp] theorem start_shoots (s : State) : s.start.shoots = s.dev.shoots := rfl
@[simp] theorem start_tsds (s : State) : s.start.tsds = s.dev.tsds := rfl
@[simp] theorem start_blocks (s : State) : s.start.blocks = s.dev.blocks := rfl
@[simp] theorem start_launches (s : State) : s.start.launches = s.dev.launches := rfl
@[simp] theorem start_tasks (s : State) : s.start.tasks = s.dev.tasks := rfl
@[simp] theorem start_entries (s : State) : s.start.entries = s.dev.entries := rfl
@[simp] theorem start_costarts (s : State) : s.start.costarts = s.dev.costarts := rfl
@[simp] theorem start_launchResult (s : State) : s.start.launchResult = s.dev.launchResult := rfl
@[simp] theorem start_launchPort (s : State) : s.start.launchPort = s.dev.launchPort := rfl
@[simp] theorem start_wclear (s : State) : s.start.wclear = [] := rfl
@[simp] theorem start_gramQ (s : State) : s.start.gramQ = s.dev.gramQ := rfl
@[simp] theorem start_frozenMs (s : State) : s.start.frozenMs = s.dev.frozenMs := rfl
@[simp] theorem start_mail (s : State) : s.start.mail = s.dev.mail := rfl
@[simp] theorem start_lentOut (s : State) : s.start.lentOut = s.dev.lentOut := rfl
@[simp] theorem start_preempts (s : State) : s.start.preempts = s.dev.preempts := rfl
@[simp] theorem start_away (s : State) : s.start.away = s.dev.away := rfl
@[simp] theorem start_stuck (s : State) : s.start.stuck = s.dev.stuck := rfl
@[simp] theorem start_jtagOpen (s : State) : s.start.jtagOpen = s.dev.jtagOpen := rfl
@[simp] theorem start_hostReply (s : State) : s.start.hostReply = s.dev.hostReply := rfl

/-! A thread's registers: what a write of one file leaves. -/

@[simp] theorem setGr_st (t : Thread) (r : BitVec 5) (x : Reg 64) : (t.setGr r x).st = t.st := by unfold Thread.setGr; split <;> [rfl; split <;> rfl]
@[simp] theorem setGr_name (t : Thread) (r : BitVec 5) (x : Reg 64) : (t.setGr r x).name = t.name := by unfold Thread.setGr; split <;> [rfl; split <;> rfl]
@[simp] theorem setGr_pc (t : Thread) (r : BitVec 5) (x : Reg 64) : (t.setGr r x).pc = t.pc := by unfold Thread.setGr; split <;> [rfl; split <;> rfl]
@[simp] theorem setGr_v (t : Thread) (r : BitVec 5) (x : Reg 64) : (t.setGr r x).v = t.v := by unfold Thread.setGr; split <;> [rfl; split <;> rfl]
@[simp] theorem setGr_p (t : Thread) (r : BitVec 5) (x : Reg 64) : (t.setGr r x).p = t.p := by unfold Thread.setGr; split <;> [rfl; split <;> rfl]
@[simp] theorem setGr_own (t : Thread) (r : BitVec 5) (x : Reg 64) : (t.setGr r x).own = t.own := by unfold Thread.setGr; split <;> [rfl; split <;> rfl]
@[simp] theorem setGr_pendKind (t : Thread) (r : BitVec 5) (x : Reg 64) : (t.setGr r x).pendKind = t.pendKind := by unfold Thread.setGr; split <;> [rfl; split <;> rfl]
@[simp] theorem setGr_uint (t : Thread) (r : BitVec 5) (x : Reg 64) : (t.setGr r x).uint = t.uint := by unfold Thread.setGr; split <;> [rfl; split <;> rfl]
@[simp] theorem setGr_xa (t : Thread) (r : BitVec 5) (x : Reg 64) : (t.setGr r x).xa = t.xa := by unfold Thread.setGr; split <;> [rfl; split <;> rfl]
@[simp] theorem setGr_fpm (t : Thread) (r : BitVec 5) (x : Reg 64) : (t.setGr r x).fpm = t.fpm := by unfold Thread.setGr; split <;> [rfl; split <;> rfl]
@[simp] theorem setGr_rnc (t : Thread) (r : BitVec 5) (x : Reg 64) : (t.setGr r x).rnc = t.rnc := by unfold Thread.setGr; split <;> [rfl; split <;> rfl]
@[simp] theorem setGr_uiv (t : Thread) (r : BitVec 5) (x : Reg 64) : (t.setGr r x).uiv = t.uiv := by unfold Thread.setGr; split <;> [rfl; split <;> rfl]
@[simp] theorem setGr_uis (t : Thread) (r : BitVec 5) (x : Reg 64) : (t.setGr r x).uis = t.uis := by unfold Thread.setGr; split <;> [rfl; split <;> rfl]
@[simp] theorem setGr_lrp (t : Thread) (r : BitVec 5) (x : Reg 64) : (t.setGr r x).lrp = t.lrp := by unfold Thread.setGr; split <;> [rfl; split <;> rfl]
@[simp] theorem setGr_ckq (t : Thread) (r : BitVec 5) (x : Reg 64) : (t.setGr r x).ckq = t.ckq := by unfold Thread.setGr; split <;> [rfl; split <;> rfl]
@[simp] theorem setGr_tcause (t : Thread) (r : BitVec 5) (x : Reg 64) : (t.setGr r x).tcause = t.tcause := by unfold Thread.setGr; split <;> [rfl; split <;> rfl]
@[simp] theorem setGr_tpc (t : Thread) (r : BitVec 5) (x : Reg 64) : (t.setGr r x).tpc = t.tpc := by unfold Thread.setGr; split <;> [rfl; split <;> rfl]
@[simp] theorem setGr_tval (t : Thread) (r : BitVec 5) (x : Reg 64) : (t.setGr r x).tval = t.tval := by unfold Thread.setGr; split <;> [rfl; split <;> rfl]
@[simp] theorem setGr_taux (t : Thread) (r : BitVec 5) (x : Reg 64) : (t.setGr r x).taux = t.taux := by unfold Thread.setGr; split <;> [rfl; split <;> rfl]
@[simp] theorem setGr_tvec (t : Thread) (r : BitVec 5) (x : Reg 64) : (t.setGr r x).tvec = t.tvec := by unfold Thread.setGr; split <;> [rfl; split <;> rfl]
@[simp] theorem setGr_lpb (t : Thread) (r : BitVec 5) (x : Reg 64) : (t.setGr r x).lpb = t.lpb := by unfold Thread.setGr; split <;> [rfl; split <;> rfl]
@[simp] theorem setGr_lpl (t : Thread) (r : BitVec 5) (x : Reg 64) : (t.setGr r x).lpl = t.lpl := by unfold Thread.setGr; split <;> [rfl; split <;> rfl]
@[simp] theorem setGr_priv (t : Thread) (r : BitVec 5) (x : Reg 64) : (t.setGr r x).priv = t.priv := by unfold Thread.setGr; split <;> [rfl; split <;> rfl]
@[simp] theorem setGr_qm (t : Thread) (r : BitVec 5) (x : Reg 64) : (t.setGr r x).qm = t.qm := by unfold Thread.setGr; split <;> [rfl; split <;> rfl]
@[simp] theorem setGr_divg (t : Thread) (r : BitVec 5) (x : Reg 64) : (t.setGr r x).divg = t.divg := by unfold Thread.setGr; split <;> [rfl; split <;> rfl]
@[simp] theorem setGr_lent (t : Thread) (r : BitVec 5) (x : Reg 64) : (t.setGr r x).lent = t.lent := by unfold Thread.setGr; split <;> [rfl; split <;> rfl]
@[simp] theorem setGr_mig (t : Thread) (r : BitVec 5) (x : Reg 64) : (t.setGr r x).mig = t.mig := by unfold Thread.setGr; split <;> [rfl; split <;> rfl]
@[simp] theorem setGr_wait (t : Thread) (r : BitVec 5) (x : Reg 64) : (t.setGr r x).wait = t.wait := by unfold Thread.setGr; split <;> [rfl; split <;> rfl]
@[simp] theorem setGr_limit (t : Thread) (r : BitVec 5) (x : Reg 64) : (t.setGr r x).limit = t.limit := by unfold Thread.setGr; split <;> [rfl; split <;> rfl]
@[simp] theorem setGr_waitId (t : Thread) (r : BitVec 5) (x : Reg 64) : (t.setGr r x).waitId = t.waitId := by unfold Thread.setGr; split <;> [rfl; split <;> rfl]
@[simp] theorem setGr_held (t : Thread) (r : BitVec 5) (x : Reg 64) : (t.setGr r x).held = t.held := by unfold Thread.setGr; split <;> [rfl; split <;> rfl]
@[simp] theorem setGr_preHalt (t : Thread) (r : BitVec 5) (x : Reg 64) : (t.setGr r x).preHalt = t.preHalt := by unfold Thread.setGr; split <;> [rfl; split <;> rfl]
@[simp] theorem setGr_haltAt (t : Thread) (r : BitVec 5) (x : Reg 64) : (t.setGr r x).haltAt = t.haltAt := by unfold Thread.setGr; split <;> [rfl; split <;> rfl]
@[simp] theorem setGr_wakeKept (t : Thread) (r : BitVec 5) (x : Reg 64) : (t.setGr r x).wakeKept = t.wakeKept := by unfold Thread.setGr; split <;> [rfl; split <;> rfl]
@[simp] theorem setGr_stepping (t : Thread) (r : BitVec 5) (x : Reg 64) : (t.setGr r x).stepping = t.stepping := by unfold Thread.setGr; split <;> [rfl; split <;> rfl]
@[simp] theorem setGr_faults (t : Thread) (r : BitVec 5) (x : Reg 64) : (t.setGr r x).faults = t.faults := by unfold Thread.setGr; split <;> [rfl; split <;> rfl]
@[simp] theorem setGr_records (t : Thread) (r : BitVec 5) (x : Reg 64) : (t.setGr r x).records = t.records := by unfold Thread.setGr; split <;> [rfl; split <;> rfl]
@[simp] theorem setGr_cons (t : Thread) (r : BitVec 5) (x : Reg 64) : (t.setGr r x).cons = t.cons := by unfold Thread.setGr; split <;> [rfl; split <;> rfl]
@[simp] theorem setGr_scnFails (t : Thread) (r : BitVec 5) (x : Reg 64) : (t.setGr r x).scnFails = t.scnFails := by unfold Thread.setGr; split <;> [rfl; split <;> rfl]
@[simp] theorem setGr_scnAt (t : Thread) (r : BitVec 5) (x : Reg 64) : (t.setGr r x).scnAt = t.scnAt := by unfold Thread.setGr; split <;> [rfl; split <;> rfl]
@[simp] theorem setGr_hgrp (t : Thread) (r : BitVec 5) (x : Reg 64) : (t.setGr r x).hgrp = t.hgrp := by unfold Thread.setGr; split <;> [rfl; split <;> rfl]
@[simp] theorem setGr_pool (t : Thread) (r : BitVec 5) (x : Reg 64) : (t.setGr r x).pool = t.pool := by unfold Thread.setGr; split <;> [rfl; split <;> rfl]
@[simp] theorem setGr_area (t : Thread) (r : BitVec 5) (x : Reg 64) : (t.setGr r x).area = t.area := by unfold Thread.setGr; split <;> [rfl; split <;> rfl]
@[simp] theorem setGr_sfltGen (t : Thread) (r : BitVec 5) (x : Reg 64) : (t.setGr r x).sfltGen = t.sfltGen := by unfold Thread.setGr; split <;> [rfl; split <;> rfl]
@[simp] theorem setGr_cps (t : Thread) (r : BitVec 5) (x : Reg 64) : (t.setGr r x).cps = t.cps := by unfold Thread.setGr; split <;> [rfl; split <;> rfl]
@[simp] theorem setGr_cvs (t : Thread) (r : BitVec 5) (x : Reg 64) : (t.setGr r x).cvs = t.cvs := by unfold Thread.setGr; split <;> [rfl; split <;> rfl]
@[simp] theorem setGr_launch (t : Thread) (r : BitVec 5) (x : Reg 64) : (t.setGr r x).launch = t.launch := by unfold Thread.setGr; split <;> [rfl; split <;> rfl]
@[simp] theorem setGr_start (t : Thread) (r : BitVec 5) (x : Reg 64) : (t.setGr r x).start = t.start := by unfold Thread.setGr; split <;> [rfl; split <;> rfl]
@[simp] theorem setGr_lsnd (t : Thread) (r : BitVec 5) (x : Reg 64) : (t.setGr r x).lsnd = t.lsnd := by unfold Thread.setGr; split <;> [rfl; split <;> rfl]
@[simp] theorem setGr_lkind (t : Thread) (r : BitVec 5) (x : Reg 64) : (t.setGr r x).lkind = t.lkind := by unfold Thread.setGr; split <;> [rfl; split <;> rfl]
@[simp] theorem setGr_hits (t : Thread) (r : BitVec 5) (x : Reg 64) : (t.setGr r x).hits = t.hits := by unfold Thread.setGr; split <;> [rfl; split <;> rfl]
@[simp] theorem setGr_misses (t : Thread) (r : BitVec 5) (x : Reg 64) : (t.setGr r x).misses = t.misses := by unfold Thread.setGr; split <;> [rfl; split <;> rfl]
@[simp] theorem setGr_refusal (t : Thread) (r : BitVec 5) (x : Reg 64) : (t.setGr r x).refusal = t.refusal := by unfold Thread.setGr; split <;> [rfl; split <;> rfl]
@[simp] theorem setGr_stopped (t : Thread) (r : BitVec 5) (x : Reg 64) : (t.setGr r x).stopped = t.stopped := by unfold Thread.setGr; split <;> [rfl; split <;> rfl]
@[simp] theorem setGr_startAt (t : Thread) (r : BitVec 5) (x : Reg 64) : (t.setGr r x).startAt = t.startAt := by unfold Thread.setGr; split <;> [rfl; split <;> rfl]
@[simp] theorem setGr_after (t : Thread) (r : BitVec 5) (x : Reg 64) : (t.setGr r x).after = t.after := by unfold Thread.setGr; split <;> [rfl; split <;> rfl]
@[simp] theorem setGr_src (t : Thread) (r : BitVec 5) (x : Reg 64) : (t.setGr r x).src = t.src := by unfold Thread.setGr; split <;> [rfl; split <;> rfl]
@[simp] theorem setGr_ghost (t : Thread) (r : BitVec 5) (x : Reg 64) : (t.setGr r x).ghost = t.ghost := by unfold Thread.setGr; split <;> [rfl; split <;> rfl]
@[simp] theorem setGr_quadIn (t : Thread) (r : BitVec 5) (x : Reg 64) : (t.setGr r x).quadIn = t.quadIn := by unfold Thread.setGr; split <;> [rfl; split <;> rfl]
@[simp] theorem setPr_st (t : Thread) (r : BitVec 3) (x : Reg 64) : (t.setPr r x).st = t.st := by unfold Thread.setPr; split <;> rfl
@[simp] theorem setPr_name (t : Thread) (r : BitVec 3) (x : Reg 64) : (t.setPr r x).name = t.name := by unfold Thread.setPr; split <;> rfl
@[simp] theorem setPr_pc (t : Thread) (r : BitVec 3) (x : Reg 64) : (t.setPr r x).pc = t.pc := by unfold Thread.setPr; split <;> rfl
@[simp] theorem setPr_g (t : Thread) (r : BitVec 3) (x : Reg 64) : (t.setPr r x).g = t.g := by unfold Thread.setPr; split <;> rfl
@[simp] theorem setPr_v (t : Thread) (r : BitVec 3) (x : Reg 64) : (t.setPr r x).v = t.v := by unfold Thread.setPr; split <;> rfl
@[simp] theorem setPr_sh (t : Thread) (r : BitVec 3) (x : Reg 64) : (t.setPr r x).sh = t.sh := by unfold Thread.setPr; split <;> rfl
@[simp] theorem setPr_own (t : Thread) (r : BitVec 3) (x : Reg 64) : (t.setPr r x).own = t.own := by unfold Thread.setPr; split <;> rfl
@[simp] theorem setPr_pendKind (t : Thread) (r : BitVec 3) (x : Reg 64) : (t.setPr r x).pendKind = t.pendKind := by unfold Thread.setPr; split <;> rfl
@[simp] theorem setPr_uint (t : Thread) (r : BitVec 3) (x : Reg 64) : (t.setPr r x).uint = t.uint := by unfold Thread.setPr; split <;> rfl
@[simp] theorem setPr_xa (t : Thread) (r : BitVec 3) (x : Reg 64) : (t.setPr r x).xa = t.xa := by unfold Thread.setPr; split <;> rfl
@[simp] theorem setPr_fpm (t : Thread) (r : BitVec 3) (x : Reg 64) : (t.setPr r x).fpm = t.fpm := by unfold Thread.setPr; split <;> rfl
@[simp] theorem setPr_rnc (t : Thread) (r : BitVec 3) (x : Reg 64) : (t.setPr r x).rnc = t.rnc := by unfold Thread.setPr; split <;> rfl
@[simp] theorem setPr_uiv (t : Thread) (r : BitVec 3) (x : Reg 64) : (t.setPr r x).uiv = t.uiv := by unfold Thread.setPr; split <;> rfl
@[simp] theorem setPr_uis (t : Thread) (r : BitVec 3) (x : Reg 64) : (t.setPr r x).uis = t.uis := by unfold Thread.setPr; split <;> rfl
@[simp] theorem setPr_lrp (t : Thread) (r : BitVec 3) (x : Reg 64) : (t.setPr r x).lrp = t.lrp := by unfold Thread.setPr; split <;> rfl
@[simp] theorem setPr_ckq (t : Thread) (r : BitVec 3) (x : Reg 64) : (t.setPr r x).ckq = t.ckq := by unfold Thread.setPr; split <;> rfl
@[simp] theorem setPr_tcause (t : Thread) (r : BitVec 3) (x : Reg 64) : (t.setPr r x).tcause = t.tcause := by unfold Thread.setPr; split <;> rfl
@[simp] theorem setPr_tpc (t : Thread) (r : BitVec 3) (x : Reg 64) : (t.setPr r x).tpc = t.tpc := by unfold Thread.setPr; split <;> rfl
@[simp] theorem setPr_tval (t : Thread) (r : BitVec 3) (x : Reg 64) : (t.setPr r x).tval = t.tval := by unfold Thread.setPr; split <;> rfl
@[simp] theorem setPr_taux (t : Thread) (r : BitVec 3) (x : Reg 64) : (t.setPr r x).taux = t.taux := by unfold Thread.setPr; split <;> rfl
@[simp] theorem setPr_tvec (t : Thread) (r : BitVec 3) (x : Reg 64) : (t.setPr r x).tvec = t.tvec := by unfold Thread.setPr; split <;> rfl
@[simp] theorem setPr_lpb (t : Thread) (r : BitVec 3) (x : Reg 64) : (t.setPr r x).lpb = t.lpb := by unfold Thread.setPr; split <;> rfl
@[simp] theorem setPr_lpl (t : Thread) (r : BitVec 3) (x : Reg 64) : (t.setPr r x).lpl = t.lpl := by unfold Thread.setPr; split <;> rfl
@[simp] theorem setPr_priv (t : Thread) (r : BitVec 3) (x : Reg 64) : (t.setPr r x).priv = t.priv := by unfold Thread.setPr; split <;> rfl
@[simp] theorem setPr_qm (t : Thread) (r : BitVec 3) (x : Reg 64) : (t.setPr r x).qm = t.qm := by unfold Thread.setPr; split <;> rfl
@[simp] theorem setPr_divg (t : Thread) (r : BitVec 3) (x : Reg 64) : (t.setPr r x).divg = t.divg := by unfold Thread.setPr; split <;> rfl
@[simp] theorem setPr_lent (t : Thread) (r : BitVec 3) (x : Reg 64) : (t.setPr r x).lent = t.lent := by unfold Thread.setPr; split <;> rfl
@[simp] theorem setPr_mig (t : Thread) (r : BitVec 3) (x : Reg 64) : (t.setPr r x).mig = t.mig := by unfold Thread.setPr; split <;> rfl
@[simp] theorem setPr_wait (t : Thread) (r : BitVec 3) (x : Reg 64) : (t.setPr r x).wait = t.wait := by unfold Thread.setPr; split <;> rfl
@[simp] theorem setPr_limit (t : Thread) (r : BitVec 3) (x : Reg 64) : (t.setPr r x).limit = t.limit := by unfold Thread.setPr; split <;> rfl
@[simp] theorem setPr_waitId (t : Thread) (r : BitVec 3) (x : Reg 64) : (t.setPr r x).waitId = t.waitId := by unfold Thread.setPr; split <;> rfl
@[simp] theorem setPr_held (t : Thread) (r : BitVec 3) (x : Reg 64) : (t.setPr r x).held = t.held := by unfold Thread.setPr; split <;> rfl
@[simp] theorem setPr_preHalt (t : Thread) (r : BitVec 3) (x : Reg 64) : (t.setPr r x).preHalt = t.preHalt := by unfold Thread.setPr; split <;> rfl
@[simp] theorem setPr_haltAt (t : Thread) (r : BitVec 3) (x : Reg 64) : (t.setPr r x).haltAt = t.haltAt := by unfold Thread.setPr; split <;> rfl
@[simp] theorem setPr_wakeKept (t : Thread) (r : BitVec 3) (x : Reg 64) : (t.setPr r x).wakeKept = t.wakeKept := by unfold Thread.setPr; split <;> rfl
@[simp] theorem setPr_stepping (t : Thread) (r : BitVec 3) (x : Reg 64) : (t.setPr r x).stepping = t.stepping := by unfold Thread.setPr; split <;> rfl
@[simp] theorem setPr_faults (t : Thread) (r : BitVec 3) (x : Reg 64) : (t.setPr r x).faults = t.faults := by unfold Thread.setPr; split <;> rfl
@[simp] theorem setPr_records (t : Thread) (r : BitVec 3) (x : Reg 64) : (t.setPr r x).records = t.records := by unfold Thread.setPr; split <;> rfl
@[simp] theorem setPr_cons (t : Thread) (r : BitVec 3) (x : Reg 64) : (t.setPr r x).cons = t.cons := by unfold Thread.setPr; split <;> rfl
@[simp] theorem setPr_scnFails (t : Thread) (r : BitVec 3) (x : Reg 64) : (t.setPr r x).scnFails = t.scnFails := by unfold Thread.setPr; split <;> rfl
@[simp] theorem setPr_scnAt (t : Thread) (r : BitVec 3) (x : Reg 64) : (t.setPr r x).scnAt = t.scnAt := by unfold Thread.setPr; split <;> rfl
@[simp] theorem setPr_hgrp (t : Thread) (r : BitVec 3) (x : Reg 64) : (t.setPr r x).hgrp = t.hgrp := by unfold Thread.setPr; split <;> rfl
@[simp] theorem setPr_pool (t : Thread) (r : BitVec 3) (x : Reg 64) : (t.setPr r x).pool = t.pool := by unfold Thread.setPr; split <;> rfl
@[simp] theorem setPr_area (t : Thread) (r : BitVec 3) (x : Reg 64) : (t.setPr r x).area = t.area := by unfold Thread.setPr; split <;> rfl
@[simp] theorem setPr_sfltGen (t : Thread) (r : BitVec 3) (x : Reg 64) : (t.setPr r x).sfltGen = t.sfltGen := by unfold Thread.setPr; split <;> rfl
@[simp] theorem setPr_cps (t : Thread) (r : BitVec 3) (x : Reg 64) : (t.setPr r x).cps = t.cps := by unfold Thread.setPr; split <;> rfl
@[simp] theorem setPr_cvs (t : Thread) (r : BitVec 3) (x : Reg 64) : (t.setPr r x).cvs = t.cvs := by unfold Thread.setPr; split <;> rfl
@[simp] theorem setPr_launch (t : Thread) (r : BitVec 3) (x : Reg 64) : (t.setPr r x).launch = t.launch := by unfold Thread.setPr; split <;> rfl
@[simp] theorem setPr_start (t : Thread) (r : BitVec 3) (x : Reg 64) : (t.setPr r x).start = t.start := by unfold Thread.setPr; split <;> rfl
@[simp] theorem setPr_lsnd (t : Thread) (r : BitVec 3) (x : Reg 64) : (t.setPr r x).lsnd = t.lsnd := by unfold Thread.setPr; split <;> rfl
@[simp] theorem setPr_lkind (t : Thread) (r : BitVec 3) (x : Reg 64) : (t.setPr r x).lkind = t.lkind := by unfold Thread.setPr; split <;> rfl
@[simp] theorem setPr_hits (t : Thread) (r : BitVec 3) (x : Reg 64) : (t.setPr r x).hits = t.hits := by unfold Thread.setPr; split <;> rfl
@[simp] theorem setPr_misses (t : Thread) (r : BitVec 3) (x : Reg 64) : (t.setPr r x).misses = t.misses := by unfold Thread.setPr; split <;> rfl
@[simp] theorem setPr_refusal (t : Thread) (r : BitVec 3) (x : Reg 64) : (t.setPr r x).refusal = t.refusal := by unfold Thread.setPr; split <;> rfl
@[simp] theorem setPr_stopped (t : Thread) (r : BitVec 3) (x : Reg 64) : (t.setPr r x).stopped = t.stopped := by unfold Thread.setPr; split <;> rfl
@[simp] theorem setPr_startAt (t : Thread) (r : BitVec 3) (x : Reg 64) : (t.setPr r x).startAt = t.startAt := by unfold Thread.setPr; split <;> rfl
@[simp] theorem setPr_after (t : Thread) (r : BitVec 3) (x : Reg 64) : (t.setPr r x).after = t.after := by unfold Thread.setPr; split <;> rfl
@[simp] theorem setPr_src (t : Thread) (r : BitVec 3) (x : Reg 64) : (t.setPr r x).src = t.src := by unfold Thread.setPr; split <;> rfl
@[simp] theorem setPr_ghost (t : Thread) (r : BitVec 3) (x : Reg 64) : (t.setPr r x).ghost = t.ghost := by unfold Thread.setPr; split <;> rfl
@[simp] theorem setPr_quadIn (t : Thread) (r : BitVec 3) (x : Reg 64) : (t.setPr r x).quadIn = t.quadIn := by unfold Thread.setPr; split <;> rfl
@[simp] theorem setVr_st (t : Thread) (r : BitVec 5) (x : Reg 1024) : (t.setVr r x).st = t.st := rfl
@[simp] theorem setVr_name (t : Thread) (r : BitVec 5) (x : Reg 1024) : (t.setVr r x).name = t.name := rfl
@[simp] theorem setVr_pc (t : Thread) (r : BitVec 5) (x : Reg 1024) : (t.setVr r x).pc = t.pc := rfl
@[simp] theorem setVr_g (t : Thread) (r : BitVec 5) (x : Reg 1024) : (t.setVr r x).g = t.g := rfl
@[simp] theorem setVr_p (t : Thread) (r : BitVec 5) (x : Reg 1024) : (t.setVr r x).p = t.p := rfl
@[simp] theorem setVr_sh (t : Thread) (r : BitVec 5) (x : Reg 1024) : (t.setVr r x).sh = t.sh := rfl
@[simp] theorem setVr_own (t : Thread) (r : BitVec 5) (x : Reg 1024) : (t.setVr r x).own = t.own := rfl
@[simp] theorem setVr_pendKind (t : Thread) (r : BitVec 5) (x : Reg 1024) : (t.setVr r x).pendKind = t.pendKind := rfl
@[simp] theorem setVr_uint (t : Thread) (r : BitVec 5) (x : Reg 1024) : (t.setVr r x).uint = t.uint := rfl
@[simp] theorem setVr_xa (t : Thread) (r : BitVec 5) (x : Reg 1024) : (t.setVr r x).xa = t.xa := rfl
@[simp] theorem setVr_fpm (t : Thread) (r : BitVec 5) (x : Reg 1024) : (t.setVr r x).fpm = t.fpm := rfl
@[simp] theorem setVr_rnc (t : Thread) (r : BitVec 5) (x : Reg 1024) : (t.setVr r x).rnc = t.rnc := rfl
@[simp] theorem setVr_uiv (t : Thread) (r : BitVec 5) (x : Reg 1024) : (t.setVr r x).uiv = t.uiv := rfl
@[simp] theorem setVr_uis (t : Thread) (r : BitVec 5) (x : Reg 1024) : (t.setVr r x).uis = t.uis := rfl
@[simp] theorem setVr_lrp (t : Thread) (r : BitVec 5) (x : Reg 1024) : (t.setVr r x).lrp = t.lrp := rfl
@[simp] theorem setVr_ckq (t : Thread) (r : BitVec 5) (x : Reg 1024) : (t.setVr r x).ckq = t.ckq := rfl
@[simp] theorem setVr_tcause (t : Thread) (r : BitVec 5) (x : Reg 1024) : (t.setVr r x).tcause = t.tcause := rfl
@[simp] theorem setVr_tpc (t : Thread) (r : BitVec 5) (x : Reg 1024) : (t.setVr r x).tpc = t.tpc := rfl
@[simp] theorem setVr_tval (t : Thread) (r : BitVec 5) (x : Reg 1024) : (t.setVr r x).tval = t.tval := rfl
@[simp] theorem setVr_taux (t : Thread) (r : BitVec 5) (x : Reg 1024) : (t.setVr r x).taux = t.taux := rfl
@[simp] theorem setVr_tvec (t : Thread) (r : BitVec 5) (x : Reg 1024) : (t.setVr r x).tvec = t.tvec := rfl
@[simp] theorem setVr_lpb (t : Thread) (r : BitVec 5) (x : Reg 1024) : (t.setVr r x).lpb = t.lpb := rfl
@[simp] theorem setVr_lpl (t : Thread) (r : BitVec 5) (x : Reg 1024) : (t.setVr r x).lpl = t.lpl := rfl
@[simp] theorem setVr_priv (t : Thread) (r : BitVec 5) (x : Reg 1024) : (t.setVr r x).priv = t.priv := rfl
@[simp] theorem setVr_qm (t : Thread) (r : BitVec 5) (x : Reg 1024) : (t.setVr r x).qm = t.qm := rfl
@[simp] theorem setVr_divg (t : Thread) (r : BitVec 5) (x : Reg 1024) : (t.setVr r x).divg = t.divg := rfl
@[simp] theorem setVr_lent (t : Thread) (r : BitVec 5) (x : Reg 1024) : (t.setVr r x).lent = t.lent := rfl
@[simp] theorem setVr_mig (t : Thread) (r : BitVec 5) (x : Reg 1024) : (t.setVr r x).mig = t.mig := rfl
@[simp] theorem setVr_wait (t : Thread) (r : BitVec 5) (x : Reg 1024) : (t.setVr r x).wait = t.wait := rfl
@[simp] theorem setVr_limit (t : Thread) (r : BitVec 5) (x : Reg 1024) : (t.setVr r x).limit = t.limit := rfl
@[simp] theorem setVr_waitId (t : Thread) (r : BitVec 5) (x : Reg 1024) : (t.setVr r x).waitId = t.waitId := rfl
@[simp] theorem setVr_held (t : Thread) (r : BitVec 5) (x : Reg 1024) : (t.setVr r x).held = t.held := rfl
@[simp] theorem setVr_preHalt (t : Thread) (r : BitVec 5) (x : Reg 1024) : (t.setVr r x).preHalt = t.preHalt := rfl
@[simp] theorem setVr_haltAt (t : Thread) (r : BitVec 5) (x : Reg 1024) : (t.setVr r x).haltAt = t.haltAt := rfl
@[simp] theorem setVr_wakeKept (t : Thread) (r : BitVec 5) (x : Reg 1024) : (t.setVr r x).wakeKept = t.wakeKept := rfl
@[simp] theorem setVr_stepping (t : Thread) (r : BitVec 5) (x : Reg 1024) : (t.setVr r x).stepping = t.stepping := rfl
@[simp] theorem setVr_faults (t : Thread) (r : BitVec 5) (x : Reg 1024) : (t.setVr r x).faults = t.faults := rfl
@[simp] theorem setVr_records (t : Thread) (r : BitVec 5) (x : Reg 1024) : (t.setVr r x).records = t.records := rfl
@[simp] theorem setVr_cons (t : Thread) (r : BitVec 5) (x : Reg 1024) : (t.setVr r x).cons = t.cons := rfl
@[simp] theorem setVr_scnFails (t : Thread) (r : BitVec 5) (x : Reg 1024) : (t.setVr r x).scnFails = t.scnFails := rfl
@[simp] theorem setVr_scnAt (t : Thread) (r : BitVec 5) (x : Reg 1024) : (t.setVr r x).scnAt = t.scnAt := rfl
@[simp] theorem setVr_hgrp (t : Thread) (r : BitVec 5) (x : Reg 1024) : (t.setVr r x).hgrp = t.hgrp := rfl
@[simp] theorem setVr_pool (t : Thread) (r : BitVec 5) (x : Reg 1024) : (t.setVr r x).pool = t.pool := rfl
@[simp] theorem setVr_area (t : Thread) (r : BitVec 5) (x : Reg 1024) : (t.setVr r x).area = t.area := rfl
@[simp] theorem setVr_sfltGen (t : Thread) (r : BitVec 5) (x : Reg 1024) : (t.setVr r x).sfltGen = t.sfltGen := rfl
@[simp] theorem setVr_cps (t : Thread) (r : BitVec 5) (x : Reg 1024) : (t.setVr r x).cps = t.cps := rfl
@[simp] theorem setVr_cvs (t : Thread) (r : BitVec 5) (x : Reg 1024) : (t.setVr r x).cvs = t.cvs := rfl
@[simp] theorem setVr_launch (t : Thread) (r : BitVec 5) (x : Reg 1024) : (t.setVr r x).launch = t.launch := rfl
@[simp] theorem setVr_start (t : Thread) (r : BitVec 5) (x : Reg 1024) : (t.setVr r x).start = t.start := rfl
@[simp] theorem setVr_lsnd (t : Thread) (r : BitVec 5) (x : Reg 1024) : (t.setVr r x).lsnd = t.lsnd := rfl
@[simp] theorem setVr_lkind (t : Thread) (r : BitVec 5) (x : Reg 1024) : (t.setVr r x).lkind = t.lkind := rfl
@[simp] theorem setVr_hits (t : Thread) (r : BitVec 5) (x : Reg 1024) : (t.setVr r x).hits = t.hits := rfl
@[simp] theorem setVr_misses (t : Thread) (r : BitVec 5) (x : Reg 1024) : (t.setVr r x).misses = t.misses := rfl
@[simp] theorem setVr_refusal (t : Thread) (r : BitVec 5) (x : Reg 1024) : (t.setVr r x).refusal = t.refusal := rfl
@[simp] theorem setVr_stopped (t : Thread) (r : BitVec 5) (x : Reg 1024) : (t.setVr r x).stopped = t.stopped := rfl
@[simp] theorem setVr_startAt (t : Thread) (r : BitVec 5) (x : Reg 1024) : (t.setVr r x).startAt = t.startAt := rfl
@[simp] theorem setVr_after (t : Thread) (r : BitVec 5) (x : Reg 1024) : (t.setVr r x).after = t.after := rfl
@[simp] theorem setVr_src (t : Thread) (r : BitVec 5) (x : Reg 1024) : (t.setVr r x).src = t.src := rfl
@[simp] theorem setVr_ghost (t : Thread) (r : BitVec 5) (x : Reg 1024) : (t.setVr r x).ghost = t.ghost := rfl
@[simp] theorem setVr_quadIn (t : Thread) (r : BitVec 5) (x : Reg 1024) : (t.setVr r x).quadIn = t.quadIn := rfl
@[simp] theorem writeG_st (t : Thread) (r : BitVec 5) (x : D) : (t.writeG r x).st = t.st := setGr_st ..
@[simp] theorem writeG_name (t : Thread) (r : BitVec 5) (x : D) : (t.writeG r x).name = t.name := setGr_name ..
@[simp] theorem writeG_pc (t : Thread) (r : BitVec 5) (x : D) : (t.writeG r x).pc = t.pc := setGr_pc ..
@[simp] theorem writeG_v (t : Thread) (r : BitVec 5) (x : D) : (t.writeG r x).v = t.v := setGr_v ..
@[simp] theorem writeG_p (t : Thread) (r : BitVec 5) (x : D) : (t.writeG r x).p = t.p := setGr_p ..
@[simp] theorem writeG_own (t : Thread) (r : BitVec 5) (x : D) : (t.writeG r x).own = t.own := setGr_own ..
@[simp] theorem writeG_pendKind (t : Thread) (r : BitVec 5) (x : D) : (t.writeG r x).pendKind = t.pendKind := setGr_pendKind ..
@[simp] theorem writeG_uint (t : Thread) (r : BitVec 5) (x : D) : (t.writeG r x).uint = t.uint := setGr_uint ..
@[simp] theorem writeG_xa (t : Thread) (r : BitVec 5) (x : D) : (t.writeG r x).xa = t.xa := setGr_xa ..
@[simp] theorem writeG_fpm (t : Thread) (r : BitVec 5) (x : D) : (t.writeG r x).fpm = t.fpm := setGr_fpm ..
@[simp] theorem writeG_rnc (t : Thread) (r : BitVec 5) (x : D) : (t.writeG r x).rnc = t.rnc := setGr_rnc ..
@[simp] theorem writeG_uiv (t : Thread) (r : BitVec 5) (x : D) : (t.writeG r x).uiv = t.uiv := setGr_uiv ..
@[simp] theorem writeG_uis (t : Thread) (r : BitVec 5) (x : D) : (t.writeG r x).uis = t.uis := setGr_uis ..
@[simp] theorem writeG_lrp (t : Thread) (r : BitVec 5) (x : D) : (t.writeG r x).lrp = t.lrp := setGr_lrp ..
@[simp] theorem writeG_ckq (t : Thread) (r : BitVec 5) (x : D) : (t.writeG r x).ckq = t.ckq := setGr_ckq ..
@[simp] theorem writeG_tcause (t : Thread) (r : BitVec 5) (x : D) : (t.writeG r x).tcause = t.tcause := setGr_tcause ..
@[simp] theorem writeG_tpc (t : Thread) (r : BitVec 5) (x : D) : (t.writeG r x).tpc = t.tpc := setGr_tpc ..
@[simp] theorem writeG_tval (t : Thread) (r : BitVec 5) (x : D) : (t.writeG r x).tval = t.tval := setGr_tval ..
@[simp] theorem writeG_taux (t : Thread) (r : BitVec 5) (x : D) : (t.writeG r x).taux = t.taux := setGr_taux ..
@[simp] theorem writeG_tvec (t : Thread) (r : BitVec 5) (x : D) : (t.writeG r x).tvec = t.tvec := setGr_tvec ..
@[simp] theorem writeG_lpb (t : Thread) (r : BitVec 5) (x : D) : (t.writeG r x).lpb = t.lpb := setGr_lpb ..
@[simp] theorem writeG_lpl (t : Thread) (r : BitVec 5) (x : D) : (t.writeG r x).lpl = t.lpl := setGr_lpl ..
@[simp] theorem writeG_priv (t : Thread) (r : BitVec 5) (x : D) : (t.writeG r x).priv = t.priv := setGr_priv ..
@[simp] theorem writeG_qm (t : Thread) (r : BitVec 5) (x : D) : (t.writeG r x).qm = t.qm := setGr_qm ..
@[simp] theorem writeG_divg (t : Thread) (r : BitVec 5) (x : D) : (t.writeG r x).divg = t.divg := setGr_divg ..
@[simp] theorem writeG_lent (t : Thread) (r : BitVec 5) (x : D) : (t.writeG r x).lent = t.lent := setGr_lent ..
@[simp] theorem writeG_mig (t : Thread) (r : BitVec 5) (x : D) : (t.writeG r x).mig = t.mig := setGr_mig ..
@[simp] theorem writeG_wait (t : Thread) (r : BitVec 5) (x : D) : (t.writeG r x).wait = t.wait := setGr_wait ..
@[simp] theorem writeG_limit (t : Thread) (r : BitVec 5) (x : D) : (t.writeG r x).limit = t.limit := setGr_limit ..
@[simp] theorem writeG_waitId (t : Thread) (r : BitVec 5) (x : D) : (t.writeG r x).waitId = t.waitId := setGr_waitId ..
@[simp] theorem writeG_held (t : Thread) (r : BitVec 5) (x : D) : (t.writeG r x).held = t.held := setGr_held ..
@[simp] theorem writeG_preHalt (t : Thread) (r : BitVec 5) (x : D) : (t.writeG r x).preHalt = t.preHalt := setGr_preHalt ..
@[simp] theorem writeG_haltAt (t : Thread) (r : BitVec 5) (x : D) : (t.writeG r x).haltAt = t.haltAt := setGr_haltAt ..
@[simp] theorem writeG_wakeKept (t : Thread) (r : BitVec 5) (x : D) : (t.writeG r x).wakeKept = t.wakeKept := setGr_wakeKept ..
@[simp] theorem writeG_stepping (t : Thread) (r : BitVec 5) (x : D) : (t.writeG r x).stepping = t.stepping := setGr_stepping ..
@[simp] theorem writeG_faults (t : Thread) (r : BitVec 5) (x : D) : (t.writeG r x).faults = t.faults := setGr_faults ..
@[simp] theorem writeG_records (t : Thread) (r : BitVec 5) (x : D) : (t.writeG r x).records = t.records := setGr_records ..
@[simp] theorem writeG_cons (t : Thread) (r : BitVec 5) (x : D) : (t.writeG r x).cons = t.cons := setGr_cons ..
@[simp] theorem writeG_scnFails (t : Thread) (r : BitVec 5) (x : D) : (t.writeG r x).scnFails = t.scnFails := setGr_scnFails ..
@[simp] theorem writeG_scnAt (t : Thread) (r : BitVec 5) (x : D) : (t.writeG r x).scnAt = t.scnAt := setGr_scnAt ..
@[simp] theorem writeG_hgrp (t : Thread) (r : BitVec 5) (x : D) : (t.writeG r x).hgrp = t.hgrp := setGr_hgrp ..
@[simp] theorem writeG_pool (t : Thread) (r : BitVec 5) (x : D) : (t.writeG r x).pool = t.pool := setGr_pool ..
@[simp] theorem writeG_area (t : Thread) (r : BitVec 5) (x : D) : (t.writeG r x).area = t.area := setGr_area ..
@[simp] theorem writeG_sfltGen (t : Thread) (r : BitVec 5) (x : D) : (t.writeG r x).sfltGen = t.sfltGen := setGr_sfltGen ..
@[simp] theorem writeG_cps (t : Thread) (r : BitVec 5) (x : D) : (t.writeG r x).cps = t.cps := setGr_cps ..
@[simp] theorem writeG_cvs (t : Thread) (r : BitVec 5) (x : D) : (t.writeG r x).cvs = t.cvs := setGr_cvs ..
@[simp] theorem writeG_launch (t : Thread) (r : BitVec 5) (x : D) : (t.writeG r x).launch = t.launch := setGr_launch ..
@[simp] theorem writeG_start (t : Thread) (r : BitVec 5) (x : D) : (t.writeG r x).start = t.start := setGr_start ..
@[simp] theorem writeG_lsnd (t : Thread) (r : BitVec 5) (x : D) : (t.writeG r x).lsnd = t.lsnd := setGr_lsnd ..
@[simp] theorem writeG_lkind (t : Thread) (r : BitVec 5) (x : D) : (t.writeG r x).lkind = t.lkind := setGr_lkind ..
@[simp] theorem writeG_hits (t : Thread) (r : BitVec 5) (x : D) : (t.writeG r x).hits = t.hits := setGr_hits ..
@[simp] theorem writeG_misses (t : Thread) (r : BitVec 5) (x : D) : (t.writeG r x).misses = t.misses := setGr_misses ..
@[simp] theorem writeG_refusal (t : Thread) (r : BitVec 5) (x : D) : (t.writeG r x).refusal = t.refusal := setGr_refusal ..
@[simp] theorem writeG_stopped (t : Thread) (r : BitVec 5) (x : D) : (t.writeG r x).stopped = t.stopped := setGr_stopped ..
@[simp] theorem writeG_startAt (t : Thread) (r : BitVec 5) (x : D) : (t.writeG r x).startAt = t.startAt := setGr_startAt ..
@[simp] theorem writeG_after (t : Thread) (r : BitVec 5) (x : D) : (t.writeG r x).after = t.after := setGr_after ..
@[simp] theorem writeG_src (t : Thread) (r : BitVec 5) (x : D) : (t.writeG r x).src = t.src := setGr_src ..
@[simp] theorem writeG_ghost (t : Thread) (r : BitVec 5) (x : D) : (t.writeG r x).ghost = t.ghost := setGr_ghost ..
@[simp] theorem writeG_quadIn (t : Thread) (r : BitVec 5) (x : D) : (t.writeG r x).quadIn = t.quadIn := setGr_quadIn ..
@[simp] theorem pendG_st (t : Thread) (r : BitVec 5) (id : Nat) : (t.pendG r id).st = t.st := setGr_st ..
@[simp] theorem pendG_name (t : Thread) (r : BitVec 5) (id : Nat) : (t.pendG r id).name = t.name := setGr_name ..
@[simp] theorem pendG_pc (t : Thread) (r : BitVec 5) (id : Nat) : (t.pendG r id).pc = t.pc := setGr_pc ..
@[simp] theorem pendG_v (t : Thread) (r : BitVec 5) (id : Nat) : (t.pendG r id).v = t.v := setGr_v ..
@[simp] theorem pendG_p (t : Thread) (r : BitVec 5) (id : Nat) : (t.pendG r id).p = t.p := setGr_p ..
@[simp] theorem pendG_own (t : Thread) (r : BitVec 5) (id : Nat) : (t.pendG r id).own = t.own := setGr_own ..
@[simp] theorem pendG_pendKind (t : Thread) (r : BitVec 5) (id : Nat) : (t.pendG r id).pendKind = t.pendKind := setGr_pendKind ..
@[simp] theorem pendG_uint (t : Thread) (r : BitVec 5) (id : Nat) : (t.pendG r id).uint = t.uint := setGr_uint ..
@[simp] theorem pendG_xa (t : Thread) (r : BitVec 5) (id : Nat) : (t.pendG r id).xa = t.xa := setGr_xa ..
@[simp] theorem pendG_fpm (t : Thread) (r : BitVec 5) (id : Nat) : (t.pendG r id).fpm = t.fpm := setGr_fpm ..
@[simp] theorem pendG_rnc (t : Thread) (r : BitVec 5) (id : Nat) : (t.pendG r id).rnc = t.rnc := setGr_rnc ..
@[simp] theorem pendG_uiv (t : Thread) (r : BitVec 5) (id : Nat) : (t.pendG r id).uiv = t.uiv := setGr_uiv ..
@[simp] theorem pendG_uis (t : Thread) (r : BitVec 5) (id : Nat) : (t.pendG r id).uis = t.uis := setGr_uis ..
@[simp] theorem pendG_lrp (t : Thread) (r : BitVec 5) (id : Nat) : (t.pendG r id).lrp = t.lrp := setGr_lrp ..
@[simp] theorem pendG_ckq (t : Thread) (r : BitVec 5) (id : Nat) : (t.pendG r id).ckq = t.ckq := setGr_ckq ..
@[simp] theorem pendG_tcause (t : Thread) (r : BitVec 5) (id : Nat) : (t.pendG r id).tcause = t.tcause := setGr_tcause ..
@[simp] theorem pendG_tpc (t : Thread) (r : BitVec 5) (id : Nat) : (t.pendG r id).tpc = t.tpc := setGr_tpc ..
@[simp] theorem pendG_tval (t : Thread) (r : BitVec 5) (id : Nat) : (t.pendG r id).tval = t.tval := setGr_tval ..
@[simp] theorem pendG_taux (t : Thread) (r : BitVec 5) (id : Nat) : (t.pendG r id).taux = t.taux := setGr_taux ..
@[simp] theorem pendG_tvec (t : Thread) (r : BitVec 5) (id : Nat) : (t.pendG r id).tvec = t.tvec := setGr_tvec ..
@[simp] theorem pendG_lpb (t : Thread) (r : BitVec 5) (id : Nat) : (t.pendG r id).lpb = t.lpb := setGr_lpb ..
@[simp] theorem pendG_lpl (t : Thread) (r : BitVec 5) (id : Nat) : (t.pendG r id).lpl = t.lpl := setGr_lpl ..
@[simp] theorem pendG_priv (t : Thread) (r : BitVec 5) (id : Nat) : (t.pendG r id).priv = t.priv := setGr_priv ..
@[simp] theorem pendG_qm (t : Thread) (r : BitVec 5) (id : Nat) : (t.pendG r id).qm = t.qm := setGr_qm ..
@[simp] theorem pendG_divg (t : Thread) (r : BitVec 5) (id : Nat) : (t.pendG r id).divg = t.divg := setGr_divg ..
@[simp] theorem pendG_lent (t : Thread) (r : BitVec 5) (id : Nat) : (t.pendG r id).lent = t.lent := setGr_lent ..
@[simp] theorem pendG_mig (t : Thread) (r : BitVec 5) (id : Nat) : (t.pendG r id).mig = t.mig := setGr_mig ..
@[simp] theorem pendG_wait (t : Thread) (r : BitVec 5) (id : Nat) : (t.pendG r id).wait = t.wait := setGr_wait ..
@[simp] theorem pendG_limit (t : Thread) (r : BitVec 5) (id : Nat) : (t.pendG r id).limit = t.limit := setGr_limit ..
@[simp] theorem pendG_waitId (t : Thread) (r : BitVec 5) (id : Nat) : (t.pendG r id).waitId = t.waitId := setGr_waitId ..
@[simp] theorem pendG_held (t : Thread) (r : BitVec 5) (id : Nat) : (t.pendG r id).held = t.held := setGr_held ..
@[simp] theorem pendG_preHalt (t : Thread) (r : BitVec 5) (id : Nat) : (t.pendG r id).preHalt = t.preHalt := setGr_preHalt ..
@[simp] theorem pendG_haltAt (t : Thread) (r : BitVec 5) (id : Nat) : (t.pendG r id).haltAt = t.haltAt := setGr_haltAt ..
@[simp] theorem pendG_wakeKept (t : Thread) (r : BitVec 5) (id : Nat) : (t.pendG r id).wakeKept = t.wakeKept := setGr_wakeKept ..
@[simp] theorem pendG_stepping (t : Thread) (r : BitVec 5) (id : Nat) : (t.pendG r id).stepping = t.stepping := setGr_stepping ..
@[simp] theorem pendG_faults (t : Thread) (r : BitVec 5) (id : Nat) : (t.pendG r id).faults = t.faults := setGr_faults ..
@[simp] theorem pendG_records (t : Thread) (r : BitVec 5) (id : Nat) : (t.pendG r id).records = t.records := setGr_records ..
@[simp] theorem pendG_cons (t : Thread) (r : BitVec 5) (id : Nat) : (t.pendG r id).cons = t.cons := setGr_cons ..
@[simp] theorem pendG_scnFails (t : Thread) (r : BitVec 5) (id : Nat) : (t.pendG r id).scnFails = t.scnFails := setGr_scnFails ..
@[simp] theorem pendG_scnAt (t : Thread) (r : BitVec 5) (id : Nat) : (t.pendG r id).scnAt = t.scnAt := setGr_scnAt ..
@[simp] theorem pendG_hgrp (t : Thread) (r : BitVec 5) (id : Nat) : (t.pendG r id).hgrp = t.hgrp := setGr_hgrp ..
@[simp] theorem pendG_pool (t : Thread) (r : BitVec 5) (id : Nat) : (t.pendG r id).pool = t.pool := setGr_pool ..
@[simp] theorem pendG_area (t : Thread) (r : BitVec 5) (id : Nat) : (t.pendG r id).area = t.area := setGr_area ..
@[simp] theorem pendG_sfltGen (t : Thread) (r : BitVec 5) (id : Nat) : (t.pendG r id).sfltGen = t.sfltGen := setGr_sfltGen ..
@[simp] theorem pendG_cps (t : Thread) (r : BitVec 5) (id : Nat) : (t.pendG r id).cps = t.cps := setGr_cps ..
@[simp] theorem pendG_cvs (t : Thread) (r : BitVec 5) (id : Nat) : (t.pendG r id).cvs = t.cvs := setGr_cvs ..
@[simp] theorem pendG_launch (t : Thread) (r : BitVec 5) (id : Nat) : (t.pendG r id).launch = t.launch := setGr_launch ..
@[simp] theorem pendG_start (t : Thread) (r : BitVec 5) (id : Nat) : (t.pendG r id).start = t.start := setGr_start ..
@[simp] theorem pendG_lsnd (t : Thread) (r : BitVec 5) (id : Nat) : (t.pendG r id).lsnd = t.lsnd := setGr_lsnd ..
@[simp] theorem pendG_lkind (t : Thread) (r : BitVec 5) (id : Nat) : (t.pendG r id).lkind = t.lkind := setGr_lkind ..
@[simp] theorem pendG_hits (t : Thread) (r : BitVec 5) (id : Nat) : (t.pendG r id).hits = t.hits := setGr_hits ..
@[simp] theorem pendG_misses (t : Thread) (r : BitVec 5) (id : Nat) : (t.pendG r id).misses = t.misses := setGr_misses ..
@[simp] theorem pendG_refusal (t : Thread) (r : BitVec 5) (id : Nat) : (t.pendG r id).refusal = t.refusal := setGr_refusal ..
@[simp] theorem pendG_stopped (t : Thread) (r : BitVec 5) (id : Nat) : (t.pendG r id).stopped = t.stopped := setGr_stopped ..
@[simp] theorem pendG_startAt (t : Thread) (r : BitVec 5) (id : Nat) : (t.pendG r id).startAt = t.startAt := setGr_startAt ..
@[simp] theorem pendG_after (t : Thread) (r : BitVec 5) (id : Nat) : (t.pendG r id).after = t.after := setGr_after ..
@[simp] theorem pendG_src (t : Thread) (r : BitVec 5) (id : Nat) : (t.pendG r id).src = t.src := setGr_src ..
@[simp] theorem pendG_ghost (t : Thread) (r : BitVec 5) (id : Nat) : (t.pendG r id).ghost = t.ghost := setGr_ghost ..
@[simp] theorem pendG_quadIn (t : Thread) (r : BitVec 5) (id : Nat) : (t.pendG r id).quadIn = t.quadIn := setGr_quadIn ..
@[simp] theorem touch_st (t : Thread) (k : Nat) : (t.touch k).st = t.st := rfl
@[simp] theorem touch_name (t : Thread) (k : Nat) : (t.touch k).name = t.name := rfl
@[simp] theorem touch_pc (t : Thread) (k : Nat) : (t.touch k).pc = t.pc := rfl
@[simp] theorem touch_g (t : Thread) (k : Nat) : (t.touch k).g = t.g := rfl
@[simp] theorem touch_v (t : Thread) (k : Nat) : (t.touch k).v = t.v := rfl
@[simp] theorem touch_p (t : Thread) (k : Nat) : (t.touch k).p = t.p := rfl
@[simp] theorem touch_sh (t : Thread) (k : Nat) : (t.touch k).sh = t.sh := rfl
@[simp] theorem touch_own (t : Thread) (k : Nat) : (t.touch k).own = t.own := rfl
@[simp] theorem touch_pendKind (t : Thread) (k : Nat) : (t.touch k).pendKind = t.pendKind := rfl
@[simp] theorem touch_uint (t : Thread) (k : Nat) : (t.touch k).uint = t.uint := rfl
@[simp] theorem touch_xa (t : Thread) (k : Nat) : (t.touch k).xa = t.xa := rfl
@[simp] theorem touch_fpm (t : Thread) (k : Nat) : (t.touch k).fpm = t.fpm := rfl
@[simp] theorem touch_rnc (t : Thread) (k : Nat) : (t.touch k).rnc = t.rnc := rfl
@[simp] theorem touch_uiv (t : Thread) (k : Nat) : (t.touch k).uiv = t.uiv := rfl
@[simp] theorem touch_uis (t : Thread) (k : Nat) : (t.touch k).uis = t.uis := rfl
@[simp] theorem touch_lrp (t : Thread) (k : Nat) : (t.touch k).lrp = t.lrp := rfl
@[simp] theorem touch_ckq (t : Thread) (k : Nat) : (t.touch k).ckq = t.ckq := rfl
@[simp] theorem touch_tcause (t : Thread) (k : Nat) : (t.touch k).tcause = t.tcause := rfl
@[simp] theorem touch_tpc (t : Thread) (k : Nat) : (t.touch k).tpc = t.tpc := rfl
@[simp] theorem touch_tval (t : Thread) (k : Nat) : (t.touch k).tval = t.tval := rfl
@[simp] theorem touch_taux (t : Thread) (k : Nat) : (t.touch k).taux = t.taux := rfl
@[simp] theorem touch_tvec (t : Thread) (k : Nat) : (t.touch k).tvec = t.tvec := rfl
@[simp] theorem touch_lpb (t : Thread) (k : Nat) : (t.touch k).lpb = t.lpb := rfl
@[simp] theorem touch_lpl (t : Thread) (k : Nat) : (t.touch k).lpl = t.lpl := rfl
@[simp] theorem touch_priv (t : Thread) (k : Nat) : (t.touch k).priv = t.priv := rfl
@[simp] theorem touch_qm (t : Thread) (k : Nat) : (t.touch k).qm = t.qm := rfl
@[simp] theorem touch_divg (t : Thread) (k : Nat) : (t.touch k).divg = t.divg := rfl
@[simp] theorem touch_lent (t : Thread) (k : Nat) : (t.touch k).lent = t.lent := rfl
@[simp] theorem touch_mig (t : Thread) (k : Nat) : (t.touch k).mig = t.mig := rfl
@[simp] theorem touch_wait (t : Thread) (k : Nat) : (t.touch k).wait = t.wait := rfl
@[simp] theorem touch_limit (t : Thread) (k : Nat) : (t.touch k).limit = t.limit := rfl
@[simp] theorem touch_waitId (t : Thread) (k : Nat) : (t.touch k).waitId = t.waitId := rfl
@[simp] theorem touch_held (t : Thread) (k : Nat) : (t.touch k).held = t.held := rfl
@[simp] theorem touch_preHalt (t : Thread) (k : Nat) : (t.touch k).preHalt = t.preHalt := rfl
@[simp] theorem touch_haltAt (t : Thread) (k : Nat) : (t.touch k).haltAt = t.haltAt := rfl
@[simp] theorem touch_wakeKept (t : Thread) (k : Nat) : (t.touch k).wakeKept = t.wakeKept := rfl
@[simp] theorem touch_stepping (t : Thread) (k : Nat) : (t.touch k).stepping = t.stepping := rfl
@[simp] theorem touch_faults (t : Thread) (k : Nat) : (t.touch k).faults = t.faults := rfl
@[simp] theorem touch_records (t : Thread) (k : Nat) : (t.touch k).records = t.records := rfl
@[simp] theorem touch_cons (t : Thread) (k : Nat) : (t.touch k).cons = t.cons := rfl
@[simp] theorem touch_scnFails (t : Thread) (k : Nat) : (t.touch k).scnFails = t.scnFails := rfl
@[simp] theorem touch_scnAt (t : Thread) (k : Nat) : (t.touch k).scnAt = t.scnAt := rfl
@[simp] theorem touch_hgrp (t : Thread) (k : Nat) : (t.touch k).hgrp = t.hgrp := rfl
@[simp] theorem touch_pool (t : Thread) (k : Nat) : (t.touch k).pool = t.pool := rfl
@[simp] theorem touch_area (t : Thread) (k : Nat) : (t.touch k).area = t.area := rfl
@[simp] theorem touch_sfltGen (t : Thread) (k : Nat) : (t.touch k).sfltGen = t.sfltGen := rfl
@[simp] theorem touch_cps (t : Thread) (k : Nat) : (t.touch k).cps = t.cps := rfl
@[simp] theorem touch_cvs (t : Thread) (k : Nat) : (t.touch k).cvs = t.cvs := rfl
@[simp] theorem touch_launch (t : Thread) (k : Nat) : (t.touch k).launch = t.launch := rfl
@[simp] theorem touch_start (t : Thread) (k : Nat) : (t.touch k).start = t.start := rfl
@[simp] theorem touch_lsnd (t : Thread) (k : Nat) : (t.touch k).lsnd = t.lsnd := rfl
@[simp] theorem touch_lkind (t : Thread) (k : Nat) : (t.touch k).lkind = t.lkind := rfl
@[simp] theorem touch_hits (t : Thread) (k : Nat) : (t.touch k).hits = t.hits := rfl
@[simp] theorem touch_misses (t : Thread) (k : Nat) : (t.touch k).misses = t.misses := rfl
@[simp] theorem touch_dirty (t : Thread) (k : Nat) : (t.touch k).dirty = t.dirty ||| (1 <<< (80 + k)) := rfl
@[simp] theorem touch_refusal (t : Thread) (k : Nat) : (t.touch k).refusal = t.refusal := rfl
@[simp] theorem touch_stopped (t : Thread) (k : Nat) : (t.touch k).stopped = t.stopped := rfl
@[simp] theorem touch_startAt (t : Thread) (k : Nat) : (t.touch k).startAt = t.startAt := rfl
@[simp] theorem touch_after (t : Thread) (k : Nat) : (t.touch k).after = t.after := rfl
@[simp] theorem touch_src (t : Thread) (k : Nat) : (t.touch k).src = t.src := rfl
@[simp] theorem touch_ghost (t : Thread) (k : Nat) : (t.touch k).ghost = t.ghost := rfl
@[simp] theorem touch_quadIn (t : Thread) (k : Nat) : (t.touch k).quadIn = t.quadIn := rfl
@[simp] theorem raise_st (t : Thread) (x : Fp.Flags) : (t.raise x).st = t.st := rfl
@[simp] theorem raise_name (t : Thread) (x : Fp.Flags) : (t.raise x).name = t.name := rfl
@[simp] theorem raise_pc (t : Thread) (x : Fp.Flags) : (t.raise x).pc = t.pc := rfl
@[simp] theorem raise_g (t : Thread) (x : Fp.Flags) : (t.raise x).g = t.g := rfl
@[simp] theorem raise_v (t : Thread) (x : Fp.Flags) : (t.raise x).v = t.v := rfl
@[simp] theorem raise_p (t : Thread) (x : Fp.Flags) : (t.raise x).p = t.p := rfl
@[simp] theorem raise_sh (t : Thread) (x : Fp.Flags) : (t.raise x).sh = t.sh := rfl
@[simp] theorem raise_own (t : Thread) (x : Fp.Flags) : (t.raise x).own = t.own := rfl
@[simp] theorem raise_pendKind (t : Thread) (x : Fp.Flags) : (t.raise x).pendKind = t.pendKind := rfl
@[simp] theorem raise_uint (t : Thread) (x : Fp.Flags) : (t.raise x).uint = t.uint := rfl
@[simp] theorem raise_xa (t : Thread) (x : Fp.Flags) : (t.raise x).xa = t.xa := rfl
@[simp] theorem raise_fpm (t : Thread) (x : Fp.Flags) : (t.raise x).fpm = t.fpm ||| ((x.setWidth 64) <<< 8) := rfl
@[simp] theorem raise_rnc (t : Thread) (x : Fp.Flags) : (t.raise x).rnc = t.rnc := rfl
@[simp] theorem raise_uiv (t : Thread) (x : Fp.Flags) : (t.raise x).uiv = t.uiv := rfl
@[simp] theorem raise_uis (t : Thread) (x : Fp.Flags) : (t.raise x).uis = t.uis := rfl
@[simp] theorem raise_lrp (t : Thread) (x : Fp.Flags) : (t.raise x).lrp = t.lrp := rfl
@[simp] theorem raise_ckq (t : Thread) (x : Fp.Flags) : (t.raise x).ckq = t.ckq := rfl
@[simp] theorem raise_tcause (t : Thread) (x : Fp.Flags) : (t.raise x).tcause = t.tcause := rfl
@[simp] theorem raise_tpc (t : Thread) (x : Fp.Flags) : (t.raise x).tpc = t.tpc := rfl
@[simp] theorem raise_tval (t : Thread) (x : Fp.Flags) : (t.raise x).tval = t.tval := rfl
@[simp] theorem raise_taux (t : Thread) (x : Fp.Flags) : (t.raise x).taux = t.taux := rfl
@[simp] theorem raise_tvec (t : Thread) (x : Fp.Flags) : (t.raise x).tvec = t.tvec := rfl
@[simp] theorem raise_lpb (t : Thread) (x : Fp.Flags) : (t.raise x).lpb = t.lpb := rfl
@[simp] theorem raise_lpl (t : Thread) (x : Fp.Flags) : (t.raise x).lpl = t.lpl := rfl
@[simp] theorem raise_priv (t : Thread) (x : Fp.Flags) : (t.raise x).priv = t.priv := rfl
@[simp] theorem raise_qm (t : Thread) (x : Fp.Flags) : (t.raise x).qm = t.qm := rfl
@[simp] theorem raise_divg (t : Thread) (x : Fp.Flags) : (t.raise x).divg = t.divg := rfl
@[simp] theorem raise_lent (t : Thread) (x : Fp.Flags) : (t.raise x).lent = t.lent := rfl
@[simp] theorem raise_mig (t : Thread) (x : Fp.Flags) : (t.raise x).mig = t.mig := rfl
@[simp] theorem raise_wait (t : Thread) (x : Fp.Flags) : (t.raise x).wait = t.wait := rfl
@[simp] theorem raise_limit (t : Thread) (x : Fp.Flags) : (t.raise x).limit = t.limit := rfl
@[simp] theorem raise_waitId (t : Thread) (x : Fp.Flags) : (t.raise x).waitId = t.waitId := rfl
@[simp] theorem raise_held (t : Thread) (x : Fp.Flags) : (t.raise x).held = t.held := rfl
@[simp] theorem raise_preHalt (t : Thread) (x : Fp.Flags) : (t.raise x).preHalt = t.preHalt := rfl
@[simp] theorem raise_haltAt (t : Thread) (x : Fp.Flags) : (t.raise x).haltAt = t.haltAt := rfl
@[simp] theorem raise_wakeKept (t : Thread) (x : Fp.Flags) : (t.raise x).wakeKept = t.wakeKept := rfl
@[simp] theorem raise_stepping (t : Thread) (x : Fp.Flags) : (t.raise x).stepping = t.stepping := rfl
@[simp] theorem raise_faults (t : Thread) (x : Fp.Flags) : (t.raise x).faults = t.faults := rfl
@[simp] theorem raise_records (t : Thread) (x : Fp.Flags) : (t.raise x).records = t.records := rfl
@[simp] theorem raise_cons (t : Thread) (x : Fp.Flags) : (t.raise x).cons = t.cons := rfl
@[simp] theorem raise_scnFails (t : Thread) (x : Fp.Flags) : (t.raise x).scnFails = t.scnFails := rfl
@[simp] theorem raise_scnAt (t : Thread) (x : Fp.Flags) : (t.raise x).scnAt = t.scnAt := rfl
@[simp] theorem raise_hgrp (t : Thread) (x : Fp.Flags) : (t.raise x).hgrp = t.hgrp := rfl
@[simp] theorem raise_pool (t : Thread) (x : Fp.Flags) : (t.raise x).pool = t.pool := rfl
@[simp] theorem raise_area (t : Thread) (x : Fp.Flags) : (t.raise x).area = t.area := rfl
@[simp] theorem raise_sfltGen (t : Thread) (x : Fp.Flags) : (t.raise x).sfltGen = t.sfltGen := rfl
@[simp] theorem raise_cps (t : Thread) (x : Fp.Flags) : (t.raise x).cps = t.cps := rfl
@[simp] theorem raise_cvs (t : Thread) (x : Fp.Flags) : (t.raise x).cvs = t.cvs := rfl
@[simp] theorem raise_launch (t : Thread) (x : Fp.Flags) : (t.raise x).launch = t.launch := rfl
@[simp] theorem raise_start (t : Thread) (x : Fp.Flags) : (t.raise x).start = t.start := rfl
@[simp] theorem raise_lsnd (t : Thread) (x : Fp.Flags) : (t.raise x).lsnd = t.lsnd := rfl
@[simp] theorem raise_lkind (t : Thread) (x : Fp.Flags) : (t.raise x).lkind = t.lkind := rfl
@[simp] theorem raise_hits (t : Thread) (x : Fp.Flags) : (t.raise x).hits = t.hits := rfl
@[simp] theorem raise_misses (t : Thread) (x : Fp.Flags) : (t.raise x).misses = t.misses := rfl
@[simp] theorem raise_dirty (t : Thread) (x : Fp.Flags) : (t.raise x).dirty = t.dirty := rfl
@[simp] theorem raise_refusal (t : Thread) (x : Fp.Flags) : (t.raise x).refusal = t.refusal := rfl
@[simp] theorem raise_stopped (t : Thread) (x : Fp.Flags) : (t.raise x).stopped = t.stopped := rfl
@[simp] theorem raise_startAt (t : Thread) (x : Fp.Flags) : (t.raise x).startAt = t.startAt := rfl
@[simp] theorem raise_after (t : Thread) (x : Fp.Flags) : (t.raise x).after = t.after := rfl
@[simp] theorem raise_src (t : Thread) (x : Fp.Flags) : (t.raise x).src = t.src := rfl
@[simp] theorem raise_ghost (t : Thread) (x : Fp.Flags) : (t.raise x).ghost = t.ghost := rfl
@[simp] theorem raise_quadIn (t : Thread) (x : Fp.Flags) : (t.raise x).quadIn = t.quadIn := rfl

end Sys2Proof.Machine
end

