-- ==== Sys2Proof/Laws/Table.lean ====
section
/-! SUPPORT. Tables: what a stored or removed key changes, and that both keep the canonical form. -/
namespace Sys2Proof

variable {α : Type}

@[simp] theorem Tbl.get?_set_self (t : Tbl α) (k : Nat) (v : α) : (t.set k v).get? k = some v := by
  induction t with
  | nil => simp [Tbl.set, Tbl.get?]
  | cons x t ih =>
    obtain ⟨j, a⟩ := x
    simp only [Tbl.set]
    split
    · simp [Tbl.get?]
    · split
      · simp [Tbl.get?]
      · simp [Tbl.get?, *]

theorem Tbl.get?_set_ne (t : Tbl α) {k j : Nat} (v : α) (h : j ≠ k) : (t.set k v).get? j = t.get? j := by
  induction t with
  | nil => simp [Tbl.set, Tbl.get?, h]
  | cons x t ih =>
    obtain ⟨i, a⟩ := x
    simp only [Tbl.set]
    split
    · simp only [Tbl.get?, if_neg h]
      split
      · rw [if_neg (by omega), if_pos (by omega)]
      · rfl
    · split
      · next e => subst e; simp [Tbl.get?, h]
      · simp only [Tbl.get?, ih]

@[simp] theorem Tbl.getD_set_self (t : Tbl α) (k : Nat) (v d : α) : (t.set k v).getD k d = v := by simp [Tbl.getD]
theorem Tbl.getD_set_ne (t : Tbl α) {k j : Nat} (v d : α) (h : j ≠ k) : (t.set k v).getD j d = t.getD j d := by
  simp [Tbl.getD, Tbl.get?_set_ne t v h]
theorem Tbl.getD_set (t : Tbl α) (k j : Nat) (v d : α) : (t.set k v).getD j d = if j = k then v else t.getD j d := by
  split
  · next e => subst e; simp
  · next e => exact Tbl.getD_set_ne t v d e

@[simp] theorem Tbl.set_set (t : Tbl α) (k : Nat) (u v : α) : (t.set k u).set k v = t.set k v := by
  induction t with
  | nil => simp [Tbl.set]
  | cons x t ih =>
    obtain ⟨i, a⟩ := x
    simp only [Tbl.set]
    split
    · simp [Tbl.set]
    · split
      · simp [Tbl.set]
      · simp [Tbl.set, *]

theorem Tbl.above_mono {t : Tbl α} {a b : Nat} (h : a ≤ b) (hb : t.above b = true) : t.above a = true := by
  cases t with
  | nil => rfl
  | cons x t =>
    obtain ⟨j, v⟩ := x
    simp only [Tbl.above, Bool.and_eq_true, decide_eq_true_eq] at *
    exact ⟨by omega, hb.2⟩
theorem Tbl.sorted_of_above {t : Tbl α} {a : Nat} (h : t.above a = true) : t.sorted = true := by
  cases t with
  | nil => rfl
  | cons x t => simp only [Tbl.above, Bool.and_eq_true, Tbl.sorted] at *; exact h.2

theorem Tbl.above_set {t : Tbl α} {a k : Nat} (v : α) (ha : a < k) (h : t.above a = true) : (t.set k v).above a = true := by
  induction t generalizing a with
  | nil => simp [Tbl.set, Tbl.above, ha]
  | cons x t ih =>
    obtain ⟨j, w⟩ := x
    simp only [Tbl.above, Bool.and_eq_true, decide_eq_true_eq] at h
    simp only [Tbl.set]
    split
    · simp [Tbl.above, *]
    · split
      · next e => subst e; simp [Tbl.above, h]
      · simp only [Tbl.above, Bool.and_eq_true, decide_eq_true_eq]
        exact ⟨h.1, ih (by omega) h.2⟩
/-- Storing keeps the keys strictly rising. -/
theorem Tbl.sorted_set {t : Tbl α} (k : Nat) (v : α) (h : t.sorted = true) : (t.set k v).sorted = true := by
  cases t with
  | nil => simp [Tbl.set, Tbl.sorted, Tbl.above]
  | cons x t =>
    obtain ⟨j, w⟩ := x
    simp only [Tbl.sorted] at h
    simp only [Tbl.set]
    split
    · simp [Tbl.sorted, Tbl.above, *]
    · split
      · next e => subst e; simpa [Tbl.sorted] using h
      · simp only [Tbl.sorted]; exact Tbl.above_set v (by omega) h

theorem Tbl.above_erase {t : Tbl α} {a : Nat} (k : Nat) (h : t.above a = true) : (t.erase k).above a = true := by
  induction t generalizing a with
  | nil => rfl
  | cons x t ih =>
    obtain ⟨j, w⟩ := x
    have h' := h
    simp only [Tbl.above, Bool.and_eq_true, decide_eq_true_eq] at h'
    simp only [Tbl.erase]
    split
    · exact h
    · split
      · exact Tbl.above_mono (by omega) h'.2
      · simp only [Tbl.above, Bool.and_eq_true, decide_eq_true_eq]; exact ⟨h'.1, ih h'.2⟩
/-- Removing keeps the keys strictly rising. -/
theorem Tbl.sorted_erase {t : Tbl α} (k : Nat) (h : t.sorted = true) : (t.erase k).sorted = true := by
  cases t with
  | nil => rfl
  | cons x t =>
    obtain ⟨j, w⟩ := x
    simp only [Tbl.sorted] at h
    simp only [Tbl.erase]
    split
    · simpa [Tbl.sorted] using h
    · split
      · exact Tbl.sorted_of_above h
      · simp only [Tbl.sorted]; exact Tbl.above_erase k h

theorem Tbl.get?_none_of_above {t : Tbl α} {a k : Nat} (h : t.above a = true) (hk : k ≤ a) : t.get? k = none := by
  cases t with
  | nil => rfl
  | cons x t =>
    obtain ⟨j, w⟩ := x
    simp only [Tbl.above, Bool.and_eq_true, decide_eq_true_eq] at h
    simp only [Tbl.get?]
    rw [if_neg (by omega), if_pos (by omega)]

theorem Tbl.get?_erase_above {t : Tbl α} {a : Nat} (k j : Nat) (h : t.above a = true) :
    (t.erase k).get? j = if j = k then none else t.get? j := by
  induction t generalizing a with
  | nil => simp [Tbl.erase, Tbl.get?]
  | cons x t ih =>
    obtain ⟨i, w⟩ := x
    simp only [Tbl.above, Bool.and_eq_true, decide_eq_true_eq] at h
    simp only [Tbl.erase]
    split
    · simp only [Tbl.get?]
      by_cases e : j = k
      · subst e; rw [if_neg (by omega), if_pos (by omega)]; simp
      · simp [e]
    · split
      · next e =>
        subst e
        by_cases e : j = k
        · subst e; simp [Tbl.get?_none_of_above h.2 (Nat.le_refl _)]
        · simp only [Tbl.get?, if_neg e]
          split
          · exact Tbl.get?_none_of_above h.2 (by omega)
          · rfl
      · simp only [Tbl.get?, ih h.2]
        by_cases e : j = k
        · subst e; rw [if_neg (by omega), if_neg (by omega)]; simp
        · simp [e]
/-- In canonical form, a removed key is gone and every other stays. -/
theorem Tbl.get?_erase {t : Tbl α} (k j : Nat) (h : t.sorted = true) :
    (t.erase k).get? j = if j = k then none else t.get? j := by
  cases t with
  | nil => simp [Tbl.erase, Tbl.get?]
  | cons x t =>
    obtain ⟨i, w⟩ := x
    simp only [Tbl.sorted] at h
    simp only [Tbl.erase]
    split
    · simp only [Tbl.get?]
      by_cases e : j = k
      · subst e; rw [if_neg (by omega), if_pos (by omega)]; simp
      · simp [e]
    · split
      · next e =>
        subst e
        by_cases e : j = k
        · subst e; simp [Tbl.get?_none_of_above h (Nat.le_refl _)]
        · simp only [Tbl.get?, if_neg e]
          split
          · exact Tbl.get?_none_of_above h (by omega)
          · rfl
      · simp only [Tbl.get?, Tbl.get?_erase_above k j h]
        by_cases e : j = k
        · subst e; rw [if_neg (by omega), if_neg (by omega)]; simp
        · simp [e]

theorem Tbl.all_set {t : Tbl α} {p : Nat × α → Bool} (k : Nat) (v : α) (hv : p (k, v) = true) (h : t.all p = true) :
    (t.set k v).all p = true := by
  induction t with
  | nil => simp [Tbl.set, hv]
  | cons x t ih =>
    obtain ⟨j, w⟩ := x
    simp only [List.all_cons, Bool.and_eq_true] at h
    simp only [Tbl.set]
    split
    · simp [hv, h.1]; simpa using h.2
    · split
      · simp [hv]; simpa using h.2
      · simp only [List.all_cons, Bool.and_eq_true]; exact ⟨h.1, ih h.2⟩
theorem Tbl.all_erase {t : Tbl α} {p : Nat × α → Bool} (k : Nat) (h : t.all p = true) : (t.erase k).all p = true := by
  induction t with
  | nil => rfl
  | cons x t ih =>
    obtain ⟨j, w⟩ := x
    have h' := h
    simp only [List.all_cons, Bool.and_eq_true] at h'
    simp only [Tbl.erase]
    split
    · exact h
    · split
      · exact h'.2
      · simp only [List.all_cons, Bool.and_eq_true]; exact ⟨h'.1, ih h'.2⟩

theorem Tbl.above_filter {t : Tbl α} {a : Nat} (p : Nat × α → Bool) (h : t.above a = true) :
    Tbl.above a (t.filter p) = true := by
  induction t generalizing a with
  | nil => rfl
  | cons x t ih =>
    obtain ⟨j, w⟩ := x
    simp only [Tbl.above, Bool.and_eq_true, decide_eq_true_eq] at h
    simp only [List.filter]
    split
    · simp only [Tbl.above, Bool.and_eq_true, decide_eq_true_eq]; exact ⟨h.1, ih h.2⟩
    · exact ih (Tbl.above_mono (by omega) h.2)
/-- A part of a table in canonical form is in canonical form. -/
theorem Tbl.sorted_filter {t : Tbl α} (p : Nat × α → Bool) (h : t.sorted = true) : Tbl.sorted (t.filter p) = true := by
  cases t with
  | nil => rfl
  | cons x t =>
    obtain ⟨j, w⟩ := x
    simp only [Tbl.sorted] at h
    simp only [List.filter]
    split
    · simp only [Tbl.sorted]; exact Tbl.above_filter p h
    · exact Tbl.sorted_of_above (Tbl.above_filter p h)

end Sys2Proof
end

