-- ==== Sys2Proof/Laws/Mem.lean ====
section
/-! SUPPORT. Memory: reading after a write, and that every memory operation keeps the canonical form. -/
namespace Sys2Proof.Machine

/-- The canonical form in its two parts. -/
theorem Memory.wf_iff (m : Mem) : Memory.wf m = true ↔ Tbl.sorted m = true ∧ m.all (fun x => x.2 != 0) = true := by
  simp [Memory.wf]
@[simp] theorem Memory.wf_nil : Memory.wf [] = true := rfl

theorem Mem.wf_write {m : Mem} (k : Nat) (b : Byte) (h : Memory.wf m = true) : Memory.wf (m.write k b) = true := by
  rw [Memory.wf_iff] at *
  unfold Mem.write
  split
  · exact ⟨Tbl.sorted_erase k h.1, Tbl.all_erase k h.2⟩
  · next hb => exact ⟨Tbl.sorted_set k b h.1, Tbl.all_set k b (by simpa using hb) h.2⟩
theorem Mem.wf_flush {m : Mem} (w : List (Nat × Byte)) (h : Memory.wf m = true) : Memory.wf (m.flush w) = true := by
  unfold Mem.flush
  induction w with
  | nil => exact h
  | cons x w ih => exact Mem.wf_write _ _ ih
theorem Mem.wf_zero {m : Mem} (l : List (Nat × Nat)) (h : Memory.wf m = true) : Memory.wf (m.zero l) = true := by
  unfold Mem.zero
  split
  · exact h
  · rw [Memory.wf_iff] at *
    refine ⟨Tbl.sorted_filter _ h.1, ?_⟩
    simp only [List.all_eq_true, List.mem_filter] at *
    exact fun x hx => h.2 x hx.1

/-- A byte written is read back, and no other byte changes. -/
theorem Mem.read_write {m : Mem} (k j : Nat) (b : Byte) (h : Memory.wf m = true) :
    (m.write k b).read j = if j = k then b else m.read j := by
  rw [Memory.wf_iff] at h
  unfold Mem.write Mem.read
  split
  · next hb =>
    subst hb
    simp only [Tbl.getD, Tbl.get?_erase k j h.1]
    split <;> simp
  · exact Tbl.getD_set m k j b 0

/-- The memory a step leaves: what it zeroed, then its writes, over the memory it found. -/
theorem commit_mem (m : Mem) (d : Dev) : (commit m d).mem = (m.zero d.wclear).flush d.wbuf := rfl
theorem commit_wf {m : Mem} (d : Dev) (h : Memory.wf m = true) : Memory.wf (commit m d).mem = true :=
  Mem.wf_flush _ (Mem.wf_zero _ h)
/-- A step that writes nothing leaves memory as it was. -/
theorem commit_quiet (m : Mem) (d : Dev) (hw : d.wbuf = []) (hc : d.wclear = []) : commit m d = ⟨d, m⟩ := by
  cases d; simp_all [commit, Mem.flush, Mem.zero]

/-! A thread after an update -/

@[simp] theorem thread_setThread_self (d : Dev) (l : Nat) (t : Thread) : (d.setThread l t).thread l = t := by
  simp [Dev.thread]
theorem thread_setThread_ne (d : Dev) {l k : Nat} (t : Thread) (h : k ≠ l) : (d.setThread l t).thread k = d.thread k := by
  simp [Dev.thread, Tbl.getD_set_ne _ _ _ h]
@[simp] theorem thread_updThread_self (d : Dev) (l : Nat) (f : Thread → Thread) : (d.updThread l f).thread l = f (d.thread l) := by
  simp [Dev.updThread]
theorem thread_updThread_ne (d : Dev) {l k : Nat} (f : Thread → Thread) (h : k ≠ l) :
    (d.updThread l f).thread k = d.thread k := thread_setThread_ne d _ h
/-- Two updates of one thread are one. -/
@[simp] theorem setThread_setThread (d : Dev) (l : Nat) (t u : Thread) : (d.setThread l t).setThread l u = d.setThread l u := by
  simp [Dev.setThread]
@[simp] theorem updThread_setThread (d : Dev) (l : Nat) (t : Thread) (f : Thread → Thread) :
    (d.setThread l t).updThread l f = d.setThread l (f t) := by
  rw [Dev.updThread, thread_setThread_self, setThread_setThread]
@[simp] theorem updThread_updThread (d : Dev) (l : Nat) (f g : Thread → Thread) :
    (d.updThread l f).updThread l g = d.setThread l (g (f (d.thread l))) := by
  rw [Dev.updThread, thread_updThread_self, Dev.updThread, setThread_setThread]
theorem updThread_eq (d : Dev) (l : Nat) (f : Thread → Thread) : d.updThread l f = d.setThread l (f (d.thread l)) := rfl

end Sys2Proof.Machine
end

