-- ==== Sys2Proof/Laws/Run.lean ====
section
/-! SUPPORT. What running an instruction and taking a step of the machine can do, each said once. -/
namespace Sys2Proof.Machine

/-- An instruction passes its checks and its effect succeeds. -/
theorem run_ok {i : Instr} {sh : Shape} {body : M Unit} {s : State} {d : Dev} (hv : s.ready)
    (hc : checkStop s.start i sh = none) (hb : body s.mem s.start = .ok ((), d)) : s.run i sh body = .next (commit s.mem d) := by
  have h : (check i sh >>= fun _ => body) s.mem s.start = .ok ((), d) := by
    show (check i sh s.mem s.start >>= fun x => body s.mem x.2) = _
    rw [show check i sh s.mem s.start = .ok ((), s.start) by unfold check; rw [hc]]
    exact hb
  have hv' : (s.dev.thread s.dev.cur).st ≠ .vacant := hv
  unfold State.run
  rw [if_neg hv', h]
  rfl
/-- A check stops it. -/
theorem run_stop {i : Instr} {sh : Shape} {body : M Unit} {s : State} {x : Stop} (hv : s.ready)
    (hc : checkStop s.start i sh = some x) : s.run i sh body = .next (finish s.mem s.start (.error x)) := by
  have h : (check i sh >>= fun _ => body) s.mem s.start = .error x := by
    show (check i sh s.mem s.start >>= fun x => body s.mem x.2) = _
    rw [show check i sh s.mem s.start = .error x by unfold check; rw [hc]]
    rfl
  have hv' : (s.dev.thread s.dev.cur).st ≠ .vacant := hv
  unfold State.run
  rw [if_neg hv', h]
/-- Its own effect stops it. -/
theorem run_error {i : Instr} {sh : Shape} {body : M Unit} {s : State} {x : Stop} (hv : s.ready)
    (hc : checkStop s.start i sh = none) (hb : body s.mem s.start = .error x) :
    s.run i sh body = .next (finish s.mem s.start (.error x)) := by
  have h : (check i sh >>= fun _ => body) s.mem s.start = .error x := by
    show (check i sh s.mem s.start >>= fun x => body s.mem x.2) = _
    rw [show check i sh s.mem s.start = .ok ((), s.start) by unfold check; rw [hc]]
    exact hb
  have hv' : (s.dev.thread s.dev.cur).st ≠ .vacant := hv
  unfold State.run
  rw [if_neg hv', h]
/-- An instruction stops only for a slot that holds no thread. -/
theorem run_cases (i : Instr) (sh : Shape) (body : M Unit) (s : State) :
    (s.me.st = .vacant ∧ s.run i sh body = .fault .noThread) ∨ (s.ready ∧ ∃ t, s.run i sh body = .next t) := by
  unfold State.run State.ready State.me Dev.me
  split
  · next h => exact .inl ⟨h, rfl⟩
  · next h => exact .inr ⟨h, _, rfl⟩
/-- A step of the machine always completes. -/
theorem event_next (f : Mem → Dev → Dev) (s : State) :
    s.event f = .next (commit s.mem (f s.mem { s.dev with wbuf := [], wclear := [] })) := rfl

/-- However an instruction ends, its writes reach memory through `commit`. -/
theorem finish_commit (m : Mem) (d0 : Dev) (r : Except Stop (Unit × Dev)) : ∃ d, finish m d0 r = commit m d := by
  unfold finish
  split <;> exact ⟨_, rfl⟩
theorem commit_inv {m : Mem} (d : Dev) (h : Memory.wf m = true) : (commit m d).Inv := ⟨commit_wf d h, rfl, rfl⟩
/-- R5: an instruction leaves memory in canonical form and no write waiting. -/
theorem run_inv {i : Instr} {sh : Shape} {body : M Unit} {s t : State} (h : Memory.wf s.mem = true)
    (e : s.run i sh body = .next t) : t.Inv := by
  unfold State.run at e
  split at e
  · cases e
  · obtain ⟨d, hd⟩ := finish_commit s.mem s.start ((check i sh >>= fun _ => body) s.mem s.start)
    rw [hd] at e
    cases e
    exact commit_inv d h
theorem event_inv {f : Mem → Dev → Dev} {s t : State} (h : Memory.wf s.mem = true) (e : s.event f = .next t) : t.Inv := by
  rw [event_next] at e
  cases e
  exact commit_inv _ h

/-! The checks of an instruction that names no queue, is not privileged, and whose class every core has. -/

@[simp] theorem gateStop_any (k : Nat) (m : Bool) : gateStop .any k m = none := rfl
@[simp] theorem gateStop_keeper (k : Nat) (m : Bool) : gateStop .keeper k m = none := rfl

@[simp] theorem shadowed_setGr (t : Thread) (a r : BitVec 5) (x : Reg 64) : (t.setGr a x).shadowed r = t.shadowed r := by
  simp [Thread.shadowed]
/-- R35: what a thread reads after a write of a g register: g0 reads 0, the register written reads the value, FULL. -/
theorem gr_setGr_self (t : Thread) (r : BitVec 5) (x : Reg 64) (h : r ≠ 0) : (t.setGr r x).gr r = x := by
  have e := shadowed_setGr t r r x
  unfold Thread.gr
  rw [if_neg h, e]
  unfold Thread.setGr
  rw [if_neg h]
  split <;> simp
theorem gr_writeG_self (t : Thread) (r : BitVec 5) (x : D) : (t.writeG r x).gr r = .ofVal (if r = 0 then 0 else x) := by
  by_cases h : r = 0
  · simp [h, Thread.gr]
  · rw [if_neg h]; exact gr_setGr_self t r _ h
@[simp] theorem isQueue_writeG (t : Thread) (a r : BitVec 5) (x : D) : (t.writeG a x).isQueue r = t.isQueue r := by
  simp [Thread.isQueue]

end Sys2Proof.Machine
end

