-- ==== Sys2Proof/Tests/Slice0.lean ====
section
/-! SUPPORT. The model's own tests: ill-formed terms, words of the encoding tables, one witness per statement with hypotheses, small
steps with results from the spec's tables and examples. -/
namespace Sys2Proof.Tests.Slice0
open Sys2Proof Sys2Proof.Machine
set_option Elab.async false

/-- A thread in RUN at 0x1_0000. -/
def th : Thread := { Thread.vacant with st := .run, pc := 0x10000 }
/-- The machine with thread `t` in slot 1 of core 0.0.0, whose turn it is. -/
def mk (t : Thread) : State := { State.reset with dev := { Dev.reset with threads := [(1, t)], cur := 1 } }
/-- A thread with values in its g registers. -/
def setG (t : Thread) (l : List (BitVec 5 × D)) : Thread := l.foldl (fun t x => t.writeG x.1 x.2) t
/-- A step with operands. -/
def ev (d : Dev) (args : List Nat) : State := ⟨{ d with args := args }, []⟩
/-- What a step leaves, where it is next. -/
def after (o : Out) (f : State → α) : Option α := match o with
  | .next t => some (f t)
  | _ => none

def s0 : State := mk (setG th [(1, 5), (2, 7), (3, 0)])


/-! ## Witnesses: encoding, registers, short instructions -/

theorem not_ok {w : Word} (h : (match decode w with | .ok _ => true | _ => false) = false) : ∀ i, decode w ≠ .ok i := by
  intro i e; rw [e] at h; cases h

/-- The bits of `add g3, g1, g2` written out (op 1, d 3, a 1, b 2, fn 0; R83). -/
def addW : Word := 0b000001_00011_00001_00010_0_0_000000000#32
theorem test_wit_StepRunsDecoded :
    (dueEvent { Dev.reset with events := [⟨0, .nop, []⟩] }).isSome ∧
    (let s := State.reset.withFetchWord 32 addW.toNat
     dueEvent s.dev = none ∧ s.dev.todo = [0] ∧ boundary { s.dev with todo := [], cur := 0, wbuf := [] } 0 = .go ∧ isGang s.dev 0 = false ∧
       fetch s.dev 0 (s.dev.thread 0).pc = .word addW ∧ hbpMatch s.dev 0 addW = false ∧ decode addW = .ok (.add 3 1 2 false false)) := by decide +kernel
/-- A gang row with threads in slot 0 of its first two cores, the quad being in `q`. -/
def gangS (q : List QuadRun) (todo : List Nat) (pc : D) : State :=
  let s := State.reset.withFetchWord 32 addW.toNat
  let t := s.dev.thread 0
  ⟨{ (s.dev.updRow 0 fun r => { r with gang := true }) with threads := [(0, t), (64, { t with pc := pc })], todo := todo, quads := q.map fun x => (0, x) }, s.mem⟩
theorem test_wit_StepRunsDecoded_gang :
    (let s := gangS [] [0] 0
     let d := (quad s.dev 0).foldl (fun d l => d.updThread l fun t => { t with pc := (s.dev.thread 0).pc }) { s.dev with todo := [], cur := 0, wbuf := [] }
     dueEvent s.dev = none ∧ s.dev.todo = [0] ∧ isGang s.dev 0 = true ∧ isFollower s.dev 0 = false ∧ s.dev.quads.get? 0 = none ∧ s.dev.mint.queue = [] ∧ s.dev.events = [] ∧ quad s.dev 0 = [0, 64] ∧
       boundary { s.dev with todo := [], cur := 0, wbuf := [] } 0 = .go ∧ (∀ l ∈ quad s.dev 0, boundary d l = .go) ∧ fetch d 0 (s.dev.thread 0).pc = .word addW ∧ hbpMatch d 0 addW = false ∧
       (∀ l ∈ quad s.dev 0, trial exec (.add 3 1 2 false false) [] { s with dev := d } l = .issued) ∧
       after (exec (.add 3 1 2 false false) { s with dev := { d with args := [] } }) (fun t => t.dev.last) = some .issued) ∧
    (∀ l ∈ [[64], [64, 128]],
     let q : QuadRun := ⟨addW, 0x10000, l, [], [], none, []⟩
     let s := gangS [q] [64] 0x10000
     dueEvent s.dev = none ∧ s.dev.todo = [64] ∧ isFollower s.dev 64 = true ∧ s.dev.quads.get? (leaderOf 64) = some q ∧ 64 ∈ q.todo ∧ forwarded q 64 (boundary { s.dev with todo := [], cur := 64, wbuf := [] } 64) = .go ∧
       stillIn s.dev q 64 = true ∧ decode q.word = .ok (.add 3 1 2 false false) ∧
       after (exec (.add 3 1 2 false false) { s with dev := { s.dev with todo := [], cur := 64, wbuf := [], args := [] } }) (fun t =>
         let v := afterIssue 64 addW 0x10000 t
         (v.dev.last, (v.dev.thread 64).parks, Tbl.sorted v.dev.quads)) = some (.issued, false, true)) := by decide +kernel
theorem test_wit_EncodeDecode : WellFormed (.add 31 0 31 true false) = true := by decide
theorem test_wit_RefusedWords : s0.ready ∧ s0.canTrap ∧ (∀ i, decode 0xFC000000 ≠ .ok i) ∧ (∀ i, decode 0x00000201 ≠ .ok i) ∧
    decodeRaw 0xFC000000 = none ∧ (decodeRaw 0x00000201).isSome ∧ gateStop (wordGate 0x00000201).1 (kindOf s0.core) s0.me.mig.isSome = none ∧
    (ev s0.dev [0x201]).dev.arg 0 = 0x201 ∧ engAbsent s0.dev.cur 2 0x20 = true ∧ engAbsent (tileCore 0 49 * 16) 2 0x20 = false :=
  ⟨by decide, by decide, not_ok (by decide), not_ok (by decide), by decide, by decide, by decide, by decide, by decide, by decide⟩
/-- A slot that holds a thread, and the one case in which no next state is answered. -/
theorem test_wit_NoRefusal : s0.ready ∧ (match exec .nop State.reset with | .fault .noThread => true | _ => false) = true ∧ State.reset.me.st = .vacant ∧ State.reset.Inv := by decide
theorem test_wit_StepKeepsInv : State.reset.Inv ∧ (after (step State.reset) fun _ => ()) = some () := by decide
theorem test_wit_RegisterFile :
    (let s := mk (th.pendG 1 7)
     s.ready ∧ s.me.isQueue 1 = false ∧ (s.me.gr 1).st = .empty ∧ (s.me.gr 1).prod = .pend 7 ∧ (s.me.gr 2).prod = .none ∧
       awaitsPage s.dev s.me (.g 1 false) = false ∧ awaitsPage s.dev s.me (.g 2 false) = false ∧ s.dev.inUni = false ∧ s.canTrap ∧ (s.me.gr 2).st = .full) ∧
    (let u := (th.pendG 1 7).pendG 2 8
     (u.gr 2).st = .empty ∧ (u.gr 2).prod = .pend 8) ∧
    ((th.setState 0 1 .empty).gr 1 = ⟨0, .empty, .none⟩) ∧ (bitN (({ th with uis := 2 } : Thread)).uis 1 = true ∧ th.own = false) ∧ ({ th with own := true } : Thread).own = true := by decide
theorem test_wit_ShortIntegerResult : s0.ready ∧ (s0.start.readGs [1, 2]).isSome ∧ s0.start.space 3 ∧ (shortInt (.add 3 1 2 false false)).isSome := by decide
theorem test_wit_ShortIntegerResult_queue :
    (let s := mk { setG th [(1, 5)] with qm := true }
     s.ready ∧ s.me.isQueue 20 = true ∧ s.start.space 20 ∧ (s.start.readGs [1]).isSome) := by decide
theorem test_wit_ShortFloatResult : s0.ready ∧ (s0.start.readGs [1, 2]).isSome ∧ s0.start.space 3 ∧ (shortFp (.fadd 3 1 2 false false 1 false)).isSome ∧ (s0.start.readGs [1]).isSome := by decide
theorem test_wit_DivideUnit : s0.ready ∧ (s0.start.readGs [1, 2]).isSome ∧ s0.start.claim 3 ∧ (divideOp (.div 3 1 2 false false)).isSome ∧
    (s0.dev.core s0.core).divLast = none ∧ ((s0.dev.updCore 0 fun c => { c with divLast := some 0 }).core 0).divLast = some 0 := by decide
theorem test_wit_DivisionCorners : s0.ready ∧ (s0.start.readGs [1, 3]).isSome ∧ s0.start.claim 4 := by decide
theorem test_wit_BranchesAndJumps : s0.ready ∧ (s0.start.readGs [1, 2]).isSome ∧ (branchOp (.bge 1 2 false 0x7FFF)).isSome ∧ s0.start.space 31 := by decide
theorem test_wit_JumpRegister : s0.ready ∧ s0.canTrap ∧ (s0.start.readGs [1]).isSome ∧ s0.start.space 3 ∧
    ((5 : D) + (3 : BitVec 15).signExtend 64).toNat % 4 = 0 ∧ ((5 : D) + (0x7FFF : BitVec 15).signExtend 64).toNat % 4 = 0 ∧ ((5 : D) + (0 : BitVec 15).signExtend 64).toNat % 4 ≠ 0 := by decide
theorem test_wit_NopOnlyAdvances : s0.ready ∧ s0.dev.inUni = false ∧ s0.canTrap ∧ (0x00000201#32 &&& 0xFC0001FF = 1 ∧ 0x00000201#32 ≠ 1) ∧ (ev s0.dev [0x201]).dev.arg 0 = (0x201#32).toNat := by decide
theorem test_wit_RegisterStatesAndCheckpoint : s0.ready ∧ regState s0.dev 0 31 ≠ .absent ∧ regState s0.dev 1 31 ≠ .absent ∧ regState s0.dev 2 7 ≠ .absent ∧ s0.start.space 4 ∧ s0.canTrap ∧
    (mk { th with qm := true }).me.isQueue 23 = true := by decide
theorem test_wit_ControlRegisters : s0.ready ∧ ctlListed 0x0B = true ∧ ctlListed 0x2F = true ∧ (mk { th with priv := true }).me.priv = true ∧ fpPending s0.dev s0.dev.cur = false ∧
    s0.start.space 4 ∧ (s0.start.readGs [1]).isSome := by decide
theorem test_wit_SystemCall : s0.ready ∧ s0.canTrap ∧ s0.me.priv = false ∧ (mk { th with priv := true }).canTrap ∧ (0x0001100A#32 &&& 0xFC0001FF = 0xA) ∧ (0x0021100A#32 &&& 0x03E00600 ≠ 0) := by decide
theorem test_wit_TrapsAndHalts : s0.ready ∧ s0.canTrap ∧
    (let s : State := ⟨{ (mk { th with hgrp := some 15 }).dev with hgc := Dev.reset.hgc.set 15 8 }, []⟩
     s.ready ∧ s.me.hgrp = some 15 ∧ hgcBkh (s.dev.hgc.toArray.getD 15 0) = true ∧ s.me.mig = none) ∧
    (let s := mk { th with tcause := mkTcause 0x1E 0 false true }
     s.ready ∧ s.me.held = [] ∧ s.me.lvl = true ∧ s.me.hgrp = none ∧ s.me.mig = none ∧ (s.dev.die (dieOf (coreOf s.dev.cur))).faultQ.length < 256) ∧
    (let s := mk { th with tvec := 2 }
     s.ready ∧ s.me.lvl = false ∧ s.me.hgrp = none ∧ fieldN s.me.tvec 1 0 ≠ 0) ∧
    (let s := mk { th with pool := some 0, area := 0x40000 }
     s.ready ∧ s.canTrap ∧ s.me.hasArea = true ∧ Memory.wf s.mem = true) := by decide
/-- A page in HBM of die 0, whose first granule, of 256 bytes, is being copied; its frame lies at `f`. -/
def copying (f : Nat) (d : Dev) : Dev :=
  let p := setField (setField 0 61 58 1) 57 46 1
  { d.updDie 0 fun x => { x with cursors := [(0, ⟨true, 0, p, 0, p, 9, 65536⟩)] } with stage2 := [⟨0, 9, 0, 65536, true, true, true, none, f, false, none⟩] }
theorem test_wit_ExceptionReturn : (mk { th with priv := true, tpc := 0x20000 }).ready ∧ (mk { th with priv := true, tpc := 0x20002 }).canTrap ∧ blockHeld s0.dev s0.me = false ∧
    (let s := mk { th with priv := true, tpc := 0x20000, pool := some 0, area := 0x30000 }
     s.ready ∧ s.me.hasArea = true ∧ blockHeld s.dev s.me = false ∧ blockHeld (copying 0x30000 s.dev) s.me = true ∧
       ∀ k ∈ [s.me.block, s.me.block + 32], Mem.read s.mem (errKey k) = 0) ∧ s0.me.priv = false ∧ s0.canTrap := by decide +kernel
theorem test_wit_UserInterrupts :
    (let s : State := ev (mk { th with uis := 1, uiv := 0x30000 }).dev [1, 15]
     (s.dev.thread 1).st = .run ∧ bitN (s.dev.thread 1).uis 0 = true ∧ bitN (s.dev.thread 1).uis 1 = false ∧ (s.dev.thread 1).uint = none ∧ (s.dev.thread 1).held = []) ∧
    (let u := (mk { th with uis := 1, st := .parked }).me
     u.st = .parked ∧ u.mig = none ∧ u.uint = none ∧ bitN u.uis 0 = true ∧ bitN u.uis 1 = false) ∧ bitN th.uis 0 = false ∧
    (∀ v ∈ [0x30000, 0x30002], let s : State := ⟨{ (mk { th with uis := 1, uiv := ofN v, uint := some 15 }).dev with todo := [1] }, []⟩
     s.Inv ∧ dueEvent s.dev = none ∧ s.dev.todo = [1] ∧ isGang s.dev 1 = false ∧ boundary { s.dev with todo := [], cur := 1, wbuf := [] } 1 = .user 15 ∧
       (s.dev.thread 1).held = [] ∧ (s.dev.thread 1).own = false ∧ (s.dev.thread 1).lvl = false ∧ fieldN (s.dev.thread 1).tvec 1 0 = 0) ∧
    bitN (mk { th with uis := 7 }).me.uis 2 = true ∧ bitN ({ th with uis := 3, sh := th.sh.set 5 (.ofVal 2) } : Thread).uis 1 = true ∧ ({ th with uis := 3, sh := th.sh.set 5 (.ofVal 2) } : Thread).sh[5].val.toNat % 4 ≠ 0 ∧
    bitN (mk { th with uis := 3 }).me.uis 1 = true ∧ bitN (mk { th with uis := 3 }).me.uis 2 = false ∧ (mk { th with uis := 3 }).me.sh[5].val.toNat % 4 = 0 ∧ s0.canTrap := by decide +kernel

/-! ## Witnesses: memory -/

/-- Offset `o` of the core's slice. -/
def slice (o : Nat) : D := ofN (sliceBase + o)
/-- A thread whose pair 0 covers all vaults of the die, g1 naming an address. -/
def pth (va : D) : Thread := { setG th [(1, va), (2, 9)] with lpb := Thread.vacant.lpb.set 0 7, lpl := Thread.vacant.lpl.set 0 0x20000000 }
/-- A page of 64 KiB at 0x10_0000 with every right, its placement word as given. -/
def page (w : D) : TlbEntry := ⟨0, 0x100000, 65536, w, 0x3F⟩
def withPage (w : D) (t : Thread) : State := ⟨(mk t).dev.updTile 0 fun tl => { tl with tlb := [page w] }, []⟩
def isVault : Except Stop Reach → Bool
  | .ok (.vault ..) => true
  | _ => false
def isPage : Except Stop Reach → Bool
  | .ok (.page _) => true
  | _ => false
def hbmPage : D := setField (setField 0 61 58 1) 57 46 1

theorem test_wit_AccessChecks :
    (accessOf (.ld 4 1 false 3 0 0)).isSome ∧ s0.ready ∧ s0.canTrap ∧ s0.start.claim 4 ∧ ((mk (pth (slice 0))).start.readGs [1]).isSome ∧
    (winCode (slice 0x80000) ≠ 0 ∧ vaultLoc 0 (slice 0x80000) = none) ∧ vaultLoc 0 (slice 0x7FFF8) = some (0, 0x7FFF8) ∧
    (slice 1).toNat % 8 ≠ 0 ∧ protOk th (0, 0) 8 0 = false ∧ protOk (pth 0) (0, 0x1DFFFF8) 8 3 = true ∧
    (tlbFind ((withPage hbmPage (pth 0)).dev.tile (tlbTile 1)) (rootOf (ctxOf s0.dev 1)) 0x10FFFF).isSome ∧ rightsOk 0x3B 0 true = false ∧
    (let d := (withPage (setField 0 63 62 2) (pth 0)).dev
     rightsOk 0x3F 0 true = true ∧ (∀ f ∈ [0x1E00000, 0x1DF0000], ruleTable { d with stage2 := [⟨0, 0, 0x100000, 65536, true, true, true, none, f, false, none⟩] } 0x100000 (page (setField 0 63 62 2)) = decide (f = 0x1E00000))) ∧
    tlbFind (s0.dev.tile (tlbTile 1)) (rootOf (ctxOf s0.dev 1)) 0x100000 = none ∧ s0.me.refusal = none := by decide
/-- Pages of the second tier and of the host, a region of the own tile that is COMP. -/
theorem test_wit_TierRefusals : isPage (reach (withPage (setField 0 63 62 1) (pth 0)).dev 1 0x100000 8 8 3) = true ∧
    plTier (setField 0 63 62 1) = 1 ∧ plTier (setField 0 63 62 3) = 3 ∧
    (let s : State := ⟨(mk (pth (ofN tileBase))).dev.updTile 0 fun tl => { tl with rga := tl.rga.set 0 (setField 0 45 32 1), rgb := tl.rgb.set 0 (setField 0 63 62 2) }, []⟩
     isVault (reach s.dev 1 (ofN tileBase) 8 8 3) = true ∧ regionAttr (s.dev.tile 0) 0 = 2) := by decide
theorem test_wit_LoadsAreSent : isVault (reach (mk (pth (slice 8))).dev 1 (slice 8) 8 8 3) = true ∧ isPage (reach (withPage hbmPage (pth 0x100008)).dev 1 0x100008 8 8 3) = true ∧
    plGo hbmPage = false ∧ ((Access.m [1] 0 8 0 [4] (.ld true) 0).loads = true) ∧ (mk (pth (slice 8))).start.claim 4 ∧ (accessOf (.rsv 4 1 false 0 0)).isSome := by decide
theorem test_wit_LoadsAreSent_carried : (Access.m [1] 0 8 0 [4] (.ld true) 0).carried s0 (slice 8) (.vault 0 8) := by intro e h; cases h
/-- A store of 9 at offset 8 of the slice. -/
def je0 : JEntry := { loc := 1, core := 0, kind := .st, size := 8, sc := 0, addr := slice 8, addrHi := 0, data := 9, pc := 0x10000, req := 3, refused := none, taken := false, placed := false, orig := none, msg := [], again := false }
theorem test_wit_StoresAreJournaled : (accessOf (.stf 4 1 false 0 0)).isSome ∧ ((mk (pth (slice 8))).start.readGs [1, 2]).isSome ∧ isVault (reach (mk (pth (slice 8))).dev 1 (slice 8) 8 8 3) = true ∧
    freeEntry (s0.dev.core 0) = some 0 ∧
    freeEntry { Core.reset with journal := (List.range 32).map fun k => (k, je0) } = none := by decide
theorem test_wit_OwnVaultStore :
    (let s : State := ⟨(mk (pth (slice 8))).dev.updTile 0 fun tl => { tl with access := [(0, 0x100000003)] }, []⟩
     s.ready ∧ (s.start.readGs [1, 2]).isSome ∧ isVault (reach s.dev 1 (slice 8) 8 8 1) = true ∧
       storeNow s.mem s.start (newReq s.start .st 0 [mkPart (slice 8) 8 0 9 (.vault 0 8)] .none) 0 8 8 = true) := by decide

def pt : Part := ⟨ofN (sliceBase + 0x100), 8, 0, 77, none, 0, 0⟩
def rq (op : ROp) : Req :=
  { loc := 1, core := 0, pc := 0x10000, op := op, sc := 0, acq := false, rel := false, parts := [pt], dst := .g 4, sf := false, opnds := [3, 0, 4, 0], ent := some 0,
    user := true, phase := .sent, back := 5, posts := [], again := false, query := none, regions := [], sentAt := 0 }
def atState (op : ROp) : State :=
  ev (({ (mk (pth 0)).dev with reqs := [(5, rq op)] }).updTile 0 fun tl => { tl with access := [(0, 0x100000003)] }) [5]
theorem at_vault (op : ROp) (h : op ∈ [ROp.ld true, .st, .ldt, .ldw, .ste, .stf, .amo 0, .amo 10, .red 0, .cas, .rsv, .scn]) :
    AtVault (atState op) 5 (rq op) pt (vaultKey 0 0x100) := by
  simp only [List.mem_cons, List.not_mem_nil, or_false] at h
  rcases h with rfl | rfl | rfl | rfl | rfl | rfl | rfl | rfl | rfl | rfl | rfl | rfl <;>
    exact ⟨rfl, by decide, rfl, by decide, rfl, rfl, ⟨0, 0x100, by decide, rfl, by decide, by decide, by decide, by decide⟩, by decide, by decide, by decide, by decide, rfl⟩
theorem test_wit_VaultAccesses : (siblingStores (atState (.ld true)).dev (rq (.ld true))).1 = [] ∧ AtVault (atState (.ld true)) 5 (rq (.ld true)) pt (vaultKey 0 0x100) ∧
    AtVault (atState .ste) 5 (rq .ste) pt (vaultKey 0 0x100) := ⟨by decide, at_vault _ (by decide), at_vault _ (by decide)⟩
theorem test_wit_VaultAtomics : (amoValue 10 64 0 0x3FF0000000000000).isSome ∧ ((atState .rsv).dev.owner 1 5).scnFails < 2 ∧
    AtVault (atState (.amo 10)) 5 (rq (.amo 10)) pt (vaultKey 0 0x100) ∧ AtVault (atState (.red 0)) 5 (rq (.red 0)) pt (vaultKey 0 0x100) ∧ AtVault (atState .scn) 5 (rq .scn) pt (vaultKey 0 0x100) :=
  ⟨by decide, by decide, at_vault _ (by decide), at_vault _ (by decide), at_vault _ (by decide)⟩

def je : JEntry := { je0 with refused := some 0x0B, taken := true, orig := some { rq .st with dst := .none } }
def withEntry (e : JEntry) (t : Thread) : State := ⟨(mk t).dev.updCore 0 fun c => { c with journal := [(31, e)] }, []⟩
theorem test_wit_Journal :
    (let s := withEntry je (setG th [(1, 31), (2, 32)])
     s.ready ∧ (s.start.readGs [1]).isSome ∧ (s.start.readGs [2]).isSome ∧ s.start.space 3 ∧ (inspected s 31 4).isSome ∧ inspected s 0 1 = none ∧ (inspected s 32 1).isSome ∧
       pickStatus s 31 = 0 ∧ pickStatus s 32 = 3 ∧ pickStatus s 0 = 1 ∧ pickStatus (withEntry { je with loc := 2 } th) 31 = 2 ∧ journalEntry s.dev s.dev.cur 31 = some je ∧
       s.me.mig = none ∧ Tbl.sorted (s.dev.core 0).journal = true ∧ (∀ c ∈ s.dev.cores, kindOf c.1 ≠ 2) ∧ (∀ r, je.orig = some r → r.dst = .none)) ∧
    je.sc < 8 ∧ je.size ∈ [1, 2, 4, 8] ∧ je.refused.getD 0 < 256 := by decide
theorem test_wit_Waits : s0.ready ∧ s0.quiet ∧ s0.canTrap ∧
    (let s := mk { th with faults := [(3, ⟨0x10000, 0x0C, 0, 8, false⟩)] }
     s.canTrap ∧ s.me.faults.get? 3 = some ⟨0x10000, 0x0C, 0, 8, false⟩ ∧ openLoads s.dev s.dev.cur = []) ∧
    (let s : State := ⟨{ (atState (.ld true)).dev with reqs := [(5, { rq (.ld true) with ent := none })] }, []⟩
     s.ready ∧ openLoads s.dev s.dev.cur = [false]) ∧
    (let s : State := ⟨{ (atState (.ld true)).dev with reqs := [(5, { rq (.ld true) with ent := none, phase := .nonresident })] }, []⟩
     s.ready ∧ openLoads s.dev s.dev.cur = [true]) ∧
    (let s := withEntry je th
     s.ready ∧ openLoads s.dev s.dev.cur = [] ∧ s.me.faults = [] ∧ ownEntries s.dev s.dev.cur ≠ []) ∧
    (let s : State := ⟨{ (mk (pth (slice 8))).dev with resvs := [⟨1, vaultKey 0 8, 8, slice 8, 0⟩] }, []⟩
     s.ready ∧ (s.start.readGs [1]).isSome ∧ s.start.claim 3 ∧ (∀ r ∈ s.dev.reqs, ¬(r.2.loc = s.dev.cur ∧ r.2.op = .rsv)) ∧ isVault (reach s.dev 1 (slice 8) 8 8 3) = true ∧
       (Reach.vault 0 8).comp s.dev 1 (slice 8) = false ∧ (Reach.vault 0 8).tier ≠ 3 ∧ (∃ r ∈ s.dev.resvs, r.loc = s.dev.cur ∧ r.va = slice 8) ∧ (mk th).dev.resvs = []) ∧
    (let d : Dev := { (mk { th.pendG 5 7 with st := .parked, wait := .reservation, waitId := 7, held := [(5, th.gr 5)] }).dev with resvs := [⟨1, 8, 8, 0, 0⟩] }
     (d.thread 1).st = .parked ∧ (d.thread 1).wait = .reservation ∧ (d.thread 1).mig = none ∧ d.wbuf = [] ∧ d.wclear = [] ∧ (d.thread 1).held = [(5, th.gr 5)] ∧
       ((d.thread 1).gr 5).prod = .pend (d.thread 1).waitId) ∧
    overlaps 8 8 15 1 = true ∧ rdB [] Dev.reset (errKey 8) = 0 := by decide
theorem test_wit_Migration :
    (mk { setG th [(1, 0)] with qm := true }).me.qm = true ∧ winCode (slice 0) ≠ 0 ∧
    (let s := withPage (setField hbmPage 27 27 1) (pth 0x100008)
     s.ready ∧ (s.start.readGs [1]).isSome ∧ (tlbFind (s.dev.tile (tlbTile 1)) (rootOf (ctxOf s.dev 1)) 0x100008).isSome ∧ rightsOk 0x3F 0 true = true ∧ homeOf s.dev 1 0x100008 (page (setField hbmPage 27 27 1)) = some (some 0) ∧
       gPending s.me = false) ∧ gPending (th.pendG 3 9) = true ∧
    (let s : State := ev (mk { th with mig := some (mkCore 0 0 2, none), st := .parked }).dev [1]
     (s.dev.thread 1).mig = some (mkCore 0 0 2, none) ∧ s.dev.chanQ = [] ∧ (chanFree s.dev (mkCore 0 0 2)).isSome ∧ (s.dev.thread 1).st = .parked) ∧
    (let s : State := ev (mk { th with mig := some (mkCore 0 0 2, none), st := .parked }).dev [1]
     chanFree { s.dev with threads := s.dev.threads ++ (List.range 16).map fun k => (100 + k, { th with mig := some (mkCore 0 0 2, some k) }) } (mkCore 0 0 2) = none) ∧
    (let d := s0.dev.updCore 0 fun c => { c with frozen := true }
     (d.core 0).frozen = true ∧ (s0.dev.core 0).frozen = false) ∧
    s0.me.mig = none ∧ (mk { th with mig := some (mkCore 0 0 2, some 3) }).ready := by decide
theorem test_wit_WindowsAndPlacement : s0.ready ∧ (s0.start.readGs [1]).isSome ∧ s0.start.space 3 ∧ kindOf 0 ≠ 2 ∧ (0x7FFFF : D).toNat < 0x80000 ∧ (0x1FFFFFF : D).toNat < 0x2000000 ∧
    (0x1FFFFFFF : D).toNat < 0x20000000 ∧ winCode (BitVec.allOnes 64) = 7 ∧ winCode (slice 0) ∈ [1, 2, 3] ∧ dieOf s0.core < 4 ∧ s0.start.claim 3 ∧ plTier hbmPage = 0 ∧ plStacks hbmPage ≠ 0 ∧ plChspr hbmPage ≤ 5 ∧
    (tlbFind ((withPage hbmPage th).dev.tile (tlbTile 1)) (rootOf (ctxOf s0.dev 1)) 0x100000).isSome ∧ plMig hbmPage = false ∧
    (plMig (setField hbmPage 29 29 1) = true ∧ plDies (setField hbmPage 29 29 1) = 2 ^ 0 ∧
      ((Dev.reset.updDie 0 fun x => { x with cursors := [(0, ⟨false, 7, 0, 0, 0, 0, 0⟩)] }).die 0).cursors.get? (plCur (setField hbmPage 29 29 1)) = some ⟨false, 7, 0, 0, 0, 0, 0⟩) ∧
    (winCode 5 = 0 ∧ tlbFind (s0.dev.tile (tlbTile 1)) (rootOf (ctxOf s0.dev 1)) 5 = none ∧ (s0.dev.tile (tlbTile 1)).walks.length < 4) ∧
    4 ≤ ((s0.dev.updTile 0 fun t => { t with walks := List.replicate 4 ⟨2, 0, 0, 0, true⟩ }).tile (tlbTile 1)).walks.length := by decide

/-! ## Witnesses: vectors, pairs, barriers, semaphores, messages -/

theorem ex_ok {ε α : Type} {e : Except ε α} (h : (match e with | .ok _ => true | .error _ => false) = true) : ∃ x, e = .ok x := by
  cases e with
  | ok x => exact ⟨x, rfl⟩
  | error => cases h
/-- Words reached, as a check. -/
def reached (s : State) (va : D) (n kind : Nat) : Bool := (List.range n).all fun k => isVault (reach s.dev s.dev.cur (va + BitVec.ofNat 64 (8 * k)) 8 8 kind) || isPage (reach s.dev s.dev.cur (va + BitVec.ofNat 64 (8 * k)) 8 8 kind)
theorem words_reached {s : State} {va : D} {n kind : Nat} (h : reached s va n kind = true) : wordsReached s va n kind := by
  intro k hk
  have := List.all_eq_true.mp h k (List.mem_range.mpr hk)
  cases e : reach s.dev s.dev.cur (va + BitVec.ofNat 64 (8 * k)) 8 8 kind with
  | ok x => exact ⟨x, rfl⟩
  | error => rw [e] at this; cases this
/-- 64-bit lanes 2, 0, 4 and 3, 0, 1. -/
def vx : V := 0x0000000000000004_0000000000000000_0000000000000002
def vy : V := 0x0000000000000001_0000000000000000_0000000000000003
/-- A thread whose v1 and v2 hold small lanes, p1 the mask 5. -/
def vth : Thread := { setG th [(1, slice 0), (2, 3)] with v := (Thread.vacant.v.set 1 (.ofVal vx)).set 2 (.ofVal vy), p := Thread.vacant.p.set 1 (.ofVal 5) }
theorem test_wit_VectorElements :
    (vecResult (.vadd 3 1 2 1 4)).isSome ∧ (mk vth).vectorReady [1, 2, 3] [vx, vy, 0] 1 5 ∧ ((mk vth).start.readGs []).isSome ∧
    (vecDivide (.vdiv 3 1 2 0 4)).isSome ∧ (mk vth).vectorReady [1, 2] [vx, vy] 0 (BitVec.allOnes 64) ∧
    (mk vth).start.claimV 3 ∧ ((mk vth).dev.core 0).vdivLast = none ∧ (((mk vth).dev.updCore 0 fun c => { c with vdivLast := some 0 }).core 0).vdivLast = some 0 := by decide +kernel
theorem test_wit_VectorCompareAndExtract : (mk vth).start.claimP 7 ∧ (mk vth).vectorReady [1, 2] [vx, vy] 1 5 ∧
    (mk vth).vectorReady [1] [vx] 0 (BitVec.allOnes 64) ∧ ((mk vth).start.readGs [2]).isSome ∧ (mk vth).start.space 3 := by decide +kernel
theorem test_wit_VectorReductions : (mk vth).start.claimV 3 ∧ (mk vth).vectorReady [1] [vx] 1 5 ∧ (intFold 4 0).isSome ∧ isFloat 4 = false ∧
    (mk { vth with p := Thread.vacant.p.set 1 (.ofVal 0) }).vectorReady [1] [vx] 1 0 := by decide +kernel
theorem test_wit_ExactAccumulator : (mk vth).xaReady ∧ (xaccOf (.xmac2 1 2 1 0)).isSome ∧ (mk vth).vectorReady [1, 2] [vx, vy] 1 5 ∧ (mk vth).start.space 3 ∧
    (let s : State := ⟨(mk vth).dev.updCore 0 fun c => { c with xaccFree := 1 }, []⟩
     s.ready ∧ kindOf s.core = 0 ∧ (∀ f ∈ s.me.faults, f.2.xacc = false) ∧ s.dev.cycle < (s.dev.core (coreOf s.dev.cur)).xaccFree) := by decide +kernel
def vpth : Thread := { pth (slice 0x80) with v := vth.v, p := vth.p }
theorem test_wit_VectorLoads :
    (mk vpth).ready ∧ kindOf (mk vpth).core = 0 ∧ (mk vpth).start.claimV 3 ∧ ((mk vpth).start.readGs [1]).isSome ∧ baseGood (mk vpth) (slice 0x80) 128 ∧ wordsReached (mk vpth) (slice 0x80) 16 0 ∧
    (vaultLoc (mk vpth).core (slice 0x81) ≠ none ∧ (slice 0x81).toNat % 128 ≠ 0 ∧ (mk vpth).canTrap) ∧ (mk vpth).xaReady ∧ baseGood (mk vpth) (slice 0x80) 8 ∧
    wordsReached (mk vpth) (slice 0x80) 101 0 :=
  ⟨by decide +kernel, by decide +kernel, by decide +kernel, by decide +kernel, by decide +kernel, words_reached (by decide +kernel), by decide +kernel, by decide +kernel, by decide +kernel, words_reached (by decide +kernel)⟩
theorem test_wit_VectorLoads_gather :
    (mk vpth).vectorReady [1, 3] [vx, 0] 1 5 ∧ ((List.range (laneN 4)).filter fun i => (5 : D).getLsbD i) = [0, 2] ∧
    (∀ i ∈ [0, 2], (match reach (mk vpth).dev 1 (laneVa 4 2 (slice 0x80) vx i) 8 8 0 with | .ok _ => true | .error _ => false) = true) ∧
    (mk { vpth with p := Thread.vacant.p.set 1 (.ofVal 0) }).vectorReady [1, 3] [vx, 0] 1 0 ∧
    ((laneVa 4 0 (slice 0x80) vx 0).toNat % 8 ≠ 0 ∧ vaultLoc (mk vpth).core (laneVa 4 0 (slice 0x80) vx 0) ≠ none) := by decide +kernel
/-- A page holds the words, and the journal is empty, or full. -/
def vpage (j : Tbl JEntry) : State := ⟨(withPage hbmPage { vpth with g := Thread.vacant.g.set 1 (.ofVal 0x100000) }).dev.updCore 0 fun c => { c with journal := j }, []⟩
def full : Tbl JEntry := (List.range 32).map fun k => (k, je)
/-- The stores may be performed at issue, as a check; and one that may not be is in a page. -/
def issueOk (s : State) (sc : Nat) (ps : List Part) : Bool := ps.all fun p => p.place.isNone && match vaultLoc s.core p.va with
  | some l => storeNow s.mem s.start (newReq s.start .st sc ps .none) l.1 l.2 p.size
  | none => false
theorem at_issue {s : State} {sc : Nat} {ps : List Part} (h : issueOk s sc ps = true) : atIssue s s.start sc ps := by
  intro p hp
  have h := List.all_eq_true.mp h p hp
  cases e : vaultLoc s.core p.va with
  | none => simp [e] at h
  | some l => rw [e] at h; simp only [Bool.and_eq_true, Option.isNone_iff_eq_none] at h; exact ⟨h.1, l, rfl, h.2⟩
theorem not_at_issue {s : State} {sc : Nat} {ps : List Part} (h : (ps.any fun p => p.place.isSome) = true) : ¬atIssue s s.start sc ps := by
  intro a
  obtain ⟨p, hp, e⟩ := List.any_eq_true.mp h
  rw [(a p hp).1] at e; cases e
/-- The words of a vector store in the slice, of a core whose die's table grants the tile. -/
def vstore : State := ⟨(mk { vpth with g := Thread.vacant.g.set 1 (.ofVal (slice 0x80)) }).dev.updTile 0 fun tl => { tl with access := [(0, 0x100000003)] }, []⟩
def vparts (s : State) (va : D) (n : Nat) : List Part := (List.range n).map fun k => partOf s 8 1 k (va + BitVec.ofNat 64 (8 * k)) k
theorem test_wit_VectorStores :
    vstore.vectorReady [1] [vx] 0 (BitVec.allOnes 64) ∧ Memory.wf vstore.mem = true ∧ vstore.start.readGs [1] = some ([slice 0x80], vstore.start) ∧ baseGood vstore (slice 0x80) 128 ∧
    wordsReached vstore (slice 0x80) 16 1 ∧ atIssue vstore vstore.start 0 (vparts vstore (slice 0x80) 16) ∧
    (vpage []).vectorReady [1] [vx] 0 (BitVec.allOnes 64) ∧ (vpage []).start.readGs [1] = some ([0x100000], (vpage []).start) ∧ baseGood (vpage []) 0x100000 128 ∧ wordsReached (vpage []) 0x100000 16 1 ∧
    ¬atIssue (vpage []) (vpage []).start 0 (vparts (vpage []) 0x100000 16) ∧ ¬atIssue (vpage full) (vpage full).start 0 (vparts (vpage full) 0x100000 16) ∧
    freeEntry ((vpage []).dev.core 0) = some 0 ∧ 32 ≤ ((vpage full).dev.core 0).journal.length ∧ wordsReached (vpage full) 0x100000 16 1 :=
  ⟨by decide +kernel, by decide +kernel, by with_unfolding_all rfl, by decide +kernel, words_reached (by decide +kernel), at_issue (by decide +kernel), by decide +kernel, by with_unfolding_all rfl, by decide +kernel,
    words_reached (by decide +kernel), not_at_issue (by decide +kernel), not_at_issue (by decide +kernel), by decide +kernel, by decide +kernel, words_reached (by decide +kernel)⟩
theorem test_wit_VectorStores_spill :
    vstore.xaReady ∧ wordsReached vstore (slice 0x80) 101 1 ∧ atIssue vstore vstore.start 0 (vparts vstore (slice 0x80) 101) ∧
    (vpage []).xaReady ∧ wordsReached (vpage []) 0x100000 101 1 ∧ ¬atIssue (vpage []) (vpage []).start 0 (vparts (vpage []) 0x100000 101) ∧ ((vpage []).dev.core 0).journal = [] ∧
    (vpage full).xaReady ∧ 25 < ((vpage full).dev.core 0).journal.length ∧ ¬atIssue (vpage full) (vpage full).start 0 (vparts (vpage full) 0x100000 101) :=
  ⟨by decide +kernel, words_reached (by decide +kernel), at_issue (by decide +kernel), by decide +kernel, words_reached (by decide +kernel), not_at_issue (by decide +kernel), by decide +kernel, by decide +kernel, by decide +kernel,
    not_at_issue (by decide +kernel)⟩
/-- The parts of lanes 0 and 2. -/
def sparts (s : State) (va : D) : List Part := [0, 2].map fun k => partOf s 8 1 k (laneVa 4 2 va vx k) (laneOf 64 vy k)
theorem test_wit_VectorStores_scatter :
    (vpage []).vectorReady [1, 2] [vx, vy] 1 5 ∧ ((List.range (laneN 4)).filter fun i => (5 : D).getLsbD i) = [0, 2] ∧
    (∀ i ∈ [0, 2], (match reach (vpage []).dev 1 (laneVa 4 2 0x100000 vx i) 8 8 1 with | .ok _ => true | .error _ => false) = true) ∧
    ¬atIssue (vpage []) (vpage []).start 0 (sparts (vpage []) 0x100000) ∧ ¬atIssue (vpage full) (vpage full).start 0 (sparts (vpage full) 0x100000) ∧ (vpage full).vectorReady [1, 2] [vx, vy] 1 5 ∧
    vstore.vectorReady [1, 2] [vx, vy] 1 5 ∧ atIssue vstore vstore.start 0 (sparts vstore (slice 0x80)) ∧
    (∀ i ∈ [0, 2], (match reach vstore.dev 1 (laneVa 4 2 (slice 0x80) vx i) 8 8 1 with | .ok _ => true | .error _ => false) = true) ∧
    keyOf vstore (laneVa 4 2 (slice 0x80) vx 0) ≠ keyOf vstore (laneVa 4 2 (slice 0x80) vx 2) ∧ ((List.range (laneN 4)).filter fun i => (0 : D).getLsbD i) = [] :=
  ⟨by decide +kernel, by decide +kernel, by decide +kernel, not_at_issue (by decide +kernel), not_at_issue (by decide +kernel), by decide +kernel, by decide +kernel, at_issue (by decide +kernel), by decide +kernel, by decide +kernel, by decide +kernel⟩

/-- The word `w` four bytes after the pc of the thread, whose row is in gang mode or not. -/
def pairAt (w : Word) (gang : Bool) : State :=
  let s := mk { setG th [(1, 5), (2, 7)] with pc := 0x10004 }
  let s : State := ⟨putWord s.dev 1 0x10004 w, s.mem⟩
  ⟨(s.dev.mine fun t => { t with pc := 0x10000 }).updRow (rowKeyOf 0) fun r => { r with gang := gang }, []⟩
/-- The same pair at a follower, in slot 1 of core 0.0.1; its leader's g3 as given. -/
def pairBehind (lead : Thread) : State :=
  let d := (pairAt addW true).dev
  ⟨{ d with threads := [(1, lead), (65, (pairAt addW true).me)], cur := 65, arrs := [(7, ⟨1, [(.g 3, 12)], 0, false, none, [], false⟩)], nextId := 9 }, []⟩
theorem test_wit_UniPair :
    ((pairAt addW false).ready ∧ (pairAt addW false).dev.inUni = false ∧ isFollower (pairAt addW false).dev 1 = false ∧ fetch (pairAt addW false).dev 1 (0x10000 + 4) = .word addW ∧ decode addW = .ok (.add 3 1 2 false false) ∧
      (shortInt (.add 3 1 2 false false)).isSome ∧ ((pairAt addW false).start.readGs [1, 2]).isSome ∧ (pairAt addW false).start.claim 3) ∧
    ((pairAt 2 false).canTrap ∧ fetch (pairAt 2 false).dev 1 (0x10000 + 4) = .word 2 ∧ decode 2 = .ok .uni) ∧
    (let s := mk { th with pc := 0x00FFFFFFFFFFFFFC }
     s.ready ∧ s.dev.inUni = false ∧ isFollower s.dev 1 = false ∧ winCode (s.me.pc + 4) ≠ 0 ∧ s.canTrap) := by decide +kernel
theorem test_wit_UniPair_follower :
    (let s := pairBehind th
     s.ready ∧ s.dev.inUni = false ∧ isFollower s.dev s.dev.cur = true ∧ fetch s.dev s.dev.cur (s.me.pc + 4) = .word addW ∧ (s.me.gr 3).st ≠ .absent ∧ leaderOf s.dev.cur = 1 ∧ s.dev.quads.get? 1 = none ∧
       ((s.dev.thread 1).gr 3).prod = .none) ∧
    (let s := pairBehind (th.pendG 3 7)
     isFollower s.dev s.dev.cur = true ∧ ((s.dev.thread (leaderOf s.dev.cur)).gr 3).prod = .pend 7 ∧ 7 ≠ s.dev.nextId ∧ (s.dev.arrs.get? 7).isSome) := by decide +kernel

/-- A barrier word of the thread's row or tile. -/
def barS (b : Bar) (arg : D) : State := ⟨{ (mk (setG th [(1, arg), (2, 1)])).dev with bars := [(barKey 1 (fieldN arg 7 6) (fieldN arg 5 0), b)] }, []⟩
theorem test_wit_Barriers_row : (barS .empty 0).ready ∧ ((barS .empty 0).start.readGs [1]).isSome ∧ ((barS .empty 0).start.readGs [1, 2]).isSome ∧ (barS .empty 0).start.claim 3 ∧ (barS .empty 0).me.mig = none ∧
    barStatus (barS .empty 3) 0 3 = none ∧ barStatus (barS .empty 4) 0 4 = some 6 ∧ barStatus (barS .empty 4) 2 0 = some 1 ∧ barStatus (barS .empty 4) 1 63 = none ∧
    (mk { th with mig := some (mkCore 0 0 2, none) }).canTrap := by decide
theorem test_wit_Barriers_states :
    (let b : Bar := { Bar.empty with regs := [2], launch := some 1 }
     b.regs ≠ [] ∧ b.launch ≠ (barS b 64).me.launch ∧ 1 ∉ b.regs) ∧
    (let b : Bar := { Bar.empty with regs := [2], arrived := [2] }
     ((barS b 64).dev.bar (barKey 1 1 0) = b) ∧ b.launch = (barS b 64).me.launch ∧ 1 ∉ b.regs ∧ b.arrived ≠ []) ∧
    (let b : Bar := { Bar.empty with regs := [1], phase := 2, latest := [(1, 1)] }
     (barS b 64).dev.cur ∈ b.regs ∧ b.regs.erase 1 = [] ∧ 1 ∉ b.arrived ∧ b.latest.get? 1 = some 1 ∧ b.released.getD 0 0 ≤ 1 ∧ (1 < ({ b with released := [(0, 2)] } : Bar).released.getD 0 0) ∧ Bar.empty.latest.get? 1 = none) ∧
    (let b : Bar := { Bar.empty with regs := [1], arrived := [1], latest := [(1, 0)] }
     let s := ev (barS b 64).dev [barKey 1 1 0, 1, 5]
     s.dev.bar (barKey 1 1 0) = b ∧ 1 ∈ b.arrived ∧ unreleased s.dev 5 1 (barScope (barKey 1 1 0 / 2 ^ 20)) true = false ∧ (∀ l ∈ b.regs, l ∈ b.ready ++ [1]) ∧
       ∃ l ∈ ({ b with regs := [1, 2] } : Bar).regs, l ∉ b.ready ++ [1]) ∧
    (let s := ev { (barS { Bar.empty with regs := [1], latest := [(1, 0)], phase := 1 } 64).dev with threads := [(1, { th.pendG 3 7 with st := .parked, wait := .barrier (barKey 1 1 0), waitId := 7, held := [(3, th.gr 3)] })] } [barKey 1 1 0, 0, 1]
     s.dev.args = [barKey 1 1 0, 0, 1] ∧ (s.dev.bar (barKey 1 1 0)).latest.get? 1 = some 0 ∧ coreOf 1 = 0 ∧ (s.dev.thread 1).st = .parked ∧ (s.dev.thread 1).wait = .barrier (barKey 1 1 0) ∧
       (s.dev.thread 1).mig = none ∧ (s.dev.thread 1).held = [(3, th.gr 3)] ∧ ((s.dev.thread 1).gr 3).prod = .pend (s.dev.thread 1).waitId) := by decide

/-- Semaphore 31 with a count, and its waiters; g1 names it, g2 holds units. -/
def semS (count : Nat) (w : List SemWait) (units : D) : State :=
  ⟨({ (mk (setG th [(1, 31), (2, units)])).dev with threads := [(1, setG th [(1, 31), (2, units)]), (2, { th.pendG 5 7 with st := .parked, wait := .semaphore 31, waitId := 7, held := [(5, th.gr 5)], limit := some 9 })], arrs := [(7, ⟨2, [(.g 5, 0)], 0, false, none, [], false⟩)] }).updTile 0
    fun tl => { tl with sems := tl.sems.set 31 count, semWait := w }, []⟩
theorem test_wit_SemaphoresAndQueues :
    ((semS 0 [] 1).ready ∧ (semS 0 [] 1).me.mig = none ∧ ((semS 0 [] 1).start.readGs [1, 2]).isSome ∧ ((semS 0 [] 1).start.readGs [1]).isSome ∧ (semS 0 [] 1).start.claim 3 ∧ (semS 0 [] 1).start.space 3 ∧
      unreleased (semS 0 [] 1).dev 1 1 2 true = false ∧ unreleased (atState .st).dev 6 1 2 true = true) ∧
    (((semS 0 [] 1).dev.tile 0).sems.toArray.getD 31 0 = 0 ∧ ((semS 0xFFFFFFFF [] 1).dev.tile 0).sems.toArray.getD 31 0 = 2 ^ 32 - 1 ∧ ((semS 0 [⟨31, 2⟩] 1).dev.tile 0).semWait = [⟨31, 2⟩] ∧
      ((semS 0 [⟨31, 2⟩] 1).dev.thread 2).st = .parked ∧ ((semS 0 [⟨31, 2⟩] 1).dev.thread 2).mig = none ∧ (∀ w ∈ ((semS 0 [⟨31, 2⟩] 1).dev.tile 0).semWait, w.sem ≠ 30) ∧
      (let s := semS 0 [⟨31, 2⟩] 1
       (s.dev.thread 2).held = [(5, th.gr 5)] ∧ (s.dev.arrs.get? (s.dev.thread 2).waitId).isSome ∧ (s.dev.thread 2).waitId ≠ s.dev.nextId)) ∧
    ((semS 0 [] 1).start.queue 3 = [] ∧ ((semS 0 [] 1).start.updCore 0 fun c => { c with queues := c.queues.set 3 [7] }).queue 3 ≠ []) ∧
    (let s := ev (semS 0 [⟨31, 2⟩] 1).dev [2, 9]
     s.dev.args = [2, 9] ∧ (s.dev.thread 2).st = .parked ∧ (s.dev.thread 2).limit = some 9 ∧ (s.dev.thread 2).stopped = none ∧ (s.dev.thread 2).wait = .semaphore 31 ∧ (s.dev.thread 1).st ≠ .parked ∧ (s.dev.thread 2).lvl = false ∧ fieldN (s.dev.thread 2).tvec 1 0 = 0) ∧
    (let f := fun (w : Wait) => ev (mk { th with st := .parked, wait := w, limit := some 9 }).dev [1, 9]
     ((f (.queue 3)).dev.thread 1).wait = .queue 3 ∧ ((f (.launch 7)).dev.thread 1).wait = .launch 7 ∧ ((f .inbox).dev.thread 1).wait = .inbox ∧ ((f .inbox).dev.thread 1).limit = some 9) := by decide

/-- A name of class `c` with chip tag `chip`, as its two halves. -/
def nameOf (c chip seq : Nat) : Q := BitVec.ofNat 128 (c * 2 ^ 122 + chip * 2 ^ 96 + seq)
theorem nameOf_fields {c chip seq : Nat} (hc : c < 64) (hk : chip < 2 ^ 26) (hs : seq < 2 ^ 96) :
    nmClass (nameOf c chip seq) = c ∧ nmChip (nameOf c chip seq) = chip ∧ nmSeq (nameOf c chip seq) = seq := by
  have : (nameOf c chip seq).toNat = c * 2 ^ 122 + chip * 2 ^ 96 + seq := by rw [nameOf, BitVec.toNat_ofNat]; omega
  simp only [nmClass, nmChip, nmSeq, this]; omega
/-- The other chips' tag used in these tests. -/
def otherTag : Nat := (Config.chipTag.toNat + 1) % 2 ^ 26
theorem own_fields {c seq : Nat} (hc : c < 64) (hs : seq < 2 ^ 96) : nmClass (nameOf c Config.chipTag.toNat seq) = c ∧ nmChip (nameOf c Config.chipTag.toNat seq) = Config.chipTag.toNat :=
  have h := nameOf_fields hc Config.chipTag.isLt hs; ⟨h.1, h.2.1⟩
theorem other_fields {c seq : Nat} (hc : c < 64) (hs : seq < 2 ^ 96) : nmClass (nameOf c otherTag seq) = c ∧ nmChip (nameOf c otherTag seq) ≠ Config.chipTag.toNat := by
  have h := nameOf_fields hc (Nat.mod_lt _ (by decide) : otherTag < 2 ^ 26) hs
  have hk := Config.chipTag.isLt
  refine ⟨h.1, ?_⟩
  intro e
  have := h.2.1
  unfold otherTag at e
  rw [e] at this
  omega
theorem halves (n : Q) : (n >>> 64).setWidth 64 ++ n.setWidth 64 = n := by
  apply BitVec.eq_of_toNat_eq
  have h := n.isLt
  rw [BitVec.toNat_append, BitVec.toNat_setWidth, BitVec.toNat_setWidth, BitVec.toNat_ushiftRight, Nat.shiftRight_eq_div_pow, ← Nat.shiftLeft_add_eq_or_of_lt (Nat.mod_lt _ (by decide)), Nat.shiftLeft_eq]
  omega
/-- FULL sources of the thread are read. -/
theorem readGs_full {d : Dev} : ∀ {rs : List (BitVec 5)} {xs : List D}, (∀ r ∈ rs, d.me.isQueue r = false) → rs.map d.me.gr = xs.map .ofVal → d.readGs rs = some (xs, d)
  | [], [], _, _ => rfl
  | r :: rs, x :: xs, hq, h => by
    have hr : d.me.gr r = .ofVal x := (List.cons.inj h).1
    have ih := readGs_full (fun q m => hq q (List.mem_cons_of_mem _ m)) (List.cons.inj h).2
    simp only [Dev.readGs, Dev.readG, hq r (List.mem_cons_self ..), hr, ih, Reg.ofVal, if_true, Bool.false_eq_true, if_false]
/-- A thread with a name in g1 and g2, and values in g4 to g7 and g8. -/
def nth (n : Q) : Thread := { th with g := (((Thread.vacant.g.set 1 (.ofVal (n.setWidth 64))).set 2 (.ofVal ((n >>> 64).setWidth 64))).set 4 (.ofVal 0x100040)).set 8 (.ofVal 10) }
theorem nth_ready (n : Q) : (mk (nth n)).ready := by show (nth n).st ≠ .vacant; rw [show (nth n).st = .run from by with_unfolding_all rfl]; decide
theorem nth_canTrap (n : Q) : (mk (nth n)).canTrap := by
  refine ⟨by with_unfolding_all rfl, by with_unfolding_all rfl, by with_unfolding_all rfl, ?_⟩
  rw [show (mk (nth n)).me.hgrp = none from by with_unfolding_all rfl]; nofun
theorem nth_queue (n : Q) (r : BitVec 5) : (mk (nth n)).me.isQueue r = false := by
  show (nth n).isQueue r = false
  simp only [Thread.isQueue, show (nth n).qm = false from by with_unfolding_all rfl, Bool.false_and]
theorem nth_reads (n : Q) {rs : List (BitVec 5)} {xs : List D} (h : rs.map (nth n).gr = xs.map .ofVal) : (mk (nth n)).start.readGs rs = some (xs, (mk (nth n)).start) :=
  readGs_full (fun r _ => nth_queue n r) h
def msgS (dst : D) (inbox more : List Msg) : State :=
  ⟨({ (mk th).dev with args := [0, 31, 5, 20] }).updCore 0 fun c => { c with journal := [(31, { je with kind := .send, req := 5, refused := none, addr := dst, addrHi := 0, msg := [1, 2, 3, 4], orig := none })], inbox := inbox, overflow := more }, []⟩
theorem test_wit_Messages_send :
    (∀ n, (mk (nth n)).ready ∧ (mk (nth n)).start.readGs [1, 1 + 1, 4, 4 + 1, 4 + 2, 4 + 3, 8] = some ([n.setWidth 64, (n >>> 64).setWidth 64, 0x100040, 0, 0, 0, 10], (mk (nth n)).start) ∧ (mk (nth n)).canTrap ∧
      freeEntry ((mk (nth n)).dev.core 0) = some 0) ∧
    (nmClass (nameOf 3 0 1) = 3 ∧ nmClass (nameOf 5 otherTag 1) = 5 ∧ nmChip (nameOf 5 otherTag 1) ≠ Config.chipTag.toNat ∧ nmClass (nameOf 4 Config.chipTag.toNat 1) = 4 ∧ nmChip (nameOf 4 Config.chipTag.toNat 1) = Config.chipTag.toNat) ∧
    freeEntry ({ Core.reset with journal := full }) = none :=
  ⟨fun n => ⟨nth_ready n, nth_reads n (by with_unfolding_all rfl), nth_canTrap n, rfl⟩, ⟨by decide, (other_fields (by decide) (by decide)).1, (other_fields (by decide) (by decide)).2, (own_fields (by decide) (by decide)).1, (own_fields (by decide) (by decide)).2⟩, by decide⟩
theorem test_wit_Messages_place :
    (let s := msgS 0 [] []
     s.dev.args = [0, 31, 5, 20] ∧ (∃ e, (s.dev.core 0).journal.get? 31 = some e ∧ e.req = 5 ∧ e.placed = false ∧ e.refused = none ∧ e.kind = .send ∧ e.orig = none ∧ e.addrHi.toNat / 2 ^ 58 = 0 ∧
         unreleased s.dev 5 e.loc e.sc true = false) ∧
       (s.dev.core 0).overflow = [] ∧ (s.dev.core 0).inbox.length < 32 ∧ (s.dev.thread 0).awaits .inbox = false) ∧
    (32 ≤ ((msgS 0 (List.replicate 32 ⟨[], 0, 0, 1, none⟩) []).dev.core 0).inbox.length ∧ ((msgS 0 [] [⟨[], 0, 0, 1, none⟩]).dev.core 0).overflow.length < 1024) ∧
    (let s := ev (msgS 0 [] []).dev [0, 31, 3]
     s.dev.args = [0, 31, 3] ∧ ((s.dev.core 0).journal.get? 31).isSome) := by
  refine ⟨⟨rfl, ⟨_, rfl, by decide, by decide, by decide, by decide, by decide, by decide, by decide⟩, by decide, by decide, by decide⟩, by decide, rfl, by decide⟩
/-- A thread in slot 0 waits in RECV for the message. -/
theorem test_wit_Messages_waiting :
    (let s := msgS 0 [⟨[], 0, 1, 1, none⟩] []
     let s : State := ⟨{ s.dev with threads := s.dev.threads.set 0 { th.pendG 5 7 with st := .parked, wait := .inbox, waitId := 7, held := [(5, th.gr 5)] }, arrs := [(7, ⟨0, [(.g 5, 0)], 0, false, none, [], false⟩)] }, []⟩
     let u := s.dev.thread 0
     ¬((s.dev.core 0).overflow ≠ [] ∨ 32 ≤ (s.dev.core 0).inbox.length) ∧ u.st = .parked ∧ u.wait = .inbox ∧ u.stopped = none ∧ u.mig = none ∧ (∀ y ∈ (s.dev.core 0).inbox, y.slot ≠ 0) ∧
       (s.dev.arrs.get? u.waitId).isSome) := by decide
/-- A query's store that is refused, and a store of the thread itself. -/
theorem test_wit_Messages_refused :
    (let s := ev (withEntry { je with orig := some { rq .st with query := some 3 } } th).dev [0, 31, 0x0B]
     s.dev.args = [0, 31, 0x0B] ∧ ∃ e o, (s.dev.core 0).journal.get? 31 = some e ∧ e.orig = some o ∧ o.query = some 3) ∧
    (let s := ev (withEntry je { th with st := .parked }).dev [0, 31, 0x0B]
     ∃ e, (s.dev.core 0).journal.get? 31 = some e ∧ e.orig.bind Req.query = none ∧ (s.dev.thread e.loc).st = .parked ∧ (s.dev.thread e.loc).mig = none) :=
  ⟨⟨rfl, _, _, rfl, rfl, rfl⟩, _, rfl, rfl, rfl, rfl⟩
theorem test_wit_Messages_recv :
    ((mk (nth 0)).start.readGs [8]).isSome ∧ (∀ k, k < 4 → (mk (nth 0)).start.claim (10 + BitVec.ofNat 5 k)) ∧ ((mk (nth 0)).dev.core 0).inbox.filter (fun x => x.slot = slotOf 1) = [] ∧
    (((msgS 0 [⟨[1, 2, 3, 4], 0, 1, 1, none⟩] []).dev.core 0).inbox.filter fun x => x.slot = slotOf 1).head?.isSome ∧
    (∀ n, (mk (nth n)).start.readGs [1, 1 + 1, 8] = some ([n.setWidth 64, (n >>> 64).setWidth 64, 10], (mk (nth n)).start)) ∧ (∀ n, (mk (nth n)).canTrap ∧ ∀ k, k < 4 → (mk (nth n)).start.claim (10 + BitVec.ofNat 5 k)) ∧
    nmClass (nameOf 0 0 1) = 0 ∧ 6 < nmClass (nameOf 7 0 1) ∧ ¬(nmClass (nameOf 5 0 1) = 0 ∨ 6 < nmClass (nameOf 5 0 1)) := by
  refine ⟨by decide, by decide, by decide, by decide, fun n => nth_reads n (by with_unfolding_all rfl), fun n => ⟨nth_canTrap n, fun k h => ⟨nth_queue n _, ?_⟩⟩, by decide, by decide, by decide⟩
  match k, h with
  | 0, _ | 1, _ | 2, _ | 3, _ => rw [show ((mk (nth n)).start.me.gr _).st = .full from by with_unfolding_all rfl]; decide
/-- A participant has left after its BARV, whose accesses are not performed yet; another's still wait for an older load. -/
theorem test_wit_Barriers_left :
    (let b : Bar := { Bar.empty with regs := [1, 2], arrived := [1], owing := [(5, 1)] }
     let d := { (barS b 64).dev with events := [⟨4, .barrierUnitArrival, [barKey 1 1 0, 1, 6]⟩] }
     b.regs.erase d.cur ≠ [] ∧ d.cur ∈ b.arrived ∧ d.cur ∉ b.ready ∧ (⟨4, .barrierUnitArrival, [barKey 1 1 0, 1, 6]⟩ : Event) ∈ d.events ∧ (∀ x ∈ b.owing, x.1 ≠ 6) ∧ 3 ∉ b.regs ∧ b.owing ≠ []) ∧
    (let b : Bar := { Bar.empty with regs := [2], arrived := [2], ready := [2], owing := [(5, 1)] }
     let s := ev (barS b 64).dev [barKey 1 1 0, 1, 5]
     (s.dev.bar (barKey 1 1 0)).owing.any (fun x => x.1 = 5) = true ∧ unreleased s.dev 5 1 (barScope (barKey 1 1 0 / 2 ^ 20)) true = false ∧ (∀ l ∈ b.regs, l ∈ b.ready) ∧ (b.owing.filter fun x => x.1 != 5) = [] ∧
       ({ b with owing := [(5, 1), (6, 3)] } : Bar).owing.filter (fun x => x.1 != 5) ≠ []) ∧
    (let b : Bar := { Bar.empty with regs := [1], arrived := [1] }
     let s := ev ({ (atState .st).dev with bars := [(barKey 1 2 0, b)] }) [barKey 1 2 0, 1, 6]
     1 ∈ (s.dev.bar (barKey 1 2 0)).arrived ∧ unreleased s.dev 6 1 (barScope (barKey 1 2 0 / 2 ^ 20)) true = true) := by decide
/-- A wait that expires on a frozen core. -/
theorem test_wit_SemaphoresAndQueues_frozen :
    (let s := ev ((mk { th with st := .parked, wait := .queue 3, limit := some 9 }).dev.updCore 0 fun c => { c with frozen := true }) [1, 9]
     s.dev.args = [1, 9] ∧ (s.dev.thread 1).st = .parked ∧ (s.dev.thread 1).limit = some 9 ∧ (s.dev.thread 1).stopped = none ∧ batchOver s.dev 1 = false ∧ (s.dev.core (coreOf 1)).frozen = true) ∧
    ((mk th).dev.core (coreOf 1)).frozen = false := by decide
/-- The waiting thread's turn of this cycle is still to come; and a message on its way to the overflow area, oldest of its core. -/
theorem test_wit_Messages_overflow :
    (let s := msgS 0 [] []
     let s : State := ⟨{ s.dev with todo := [0], threads := s.dev.threads.set 0 { th.pendG 5 7 with st := .parked, wait := .inbox, waitId := 7, held := [(5, th.gr 5)] } }, []⟩
     let u := s.dev.thread 0
     u.st = .parked ∧ u.wait = .inbox ∧ u.stopped = none ∧ u.mig = none ∧ (∀ y ∈ (s.dev.core 0).inbox, y.slot ≠ 0) ∧ 16 * 0 ∈ s.dev.todo ∧ (u.held.map Prod.fst).Nodup ∧
       u.held[0]? = some (5, th.gr 5) ∧ (u.gr 5).prod = .pend u.waitId) ∧
    (let s : State := ⟨{ (msgS 0 [] []).dev with args := [0, 31, 5, 20, 1 + 0] }.updCore 0 fun c => { c with spill := [(0, 31, 5)] }, []⟩
     s.dev.args = [0, 31, 5, 20, 1 + 0] ∧ (s.dev.core 0).spill.head? = some (0, 31, 5) ∧ (s.dev.core 0).overflow.length < 1024 ∧ (s.dev.core 0).spill ≠ [] ∧
       ∃ e, (s.dev.core 0).journal.get? 31 = some e ∧ e.req = 5 ∧ e.placed = false ∧ e.refused = none ∧ e.kind = .send ∧ e.addrHi.toNat / 2 ^ 58 = 0 ∧ e.addr.toNat % 2 ^ 15 = 0 ∧
         unreleased s.dev 5 e.loc (if e.again then 5 else e.sc) (!e.again) = false) := by
  refine ⟨by decide, rfl, by decide, by decide, by decide, _, rfl, by decide, by decide, by decide, by decide, by decide, by decide, by decide⟩

/-! ## Witnesses: names -/

theorem nth_claim (n : Q) {r : BitVec 5} (h : ((nth n).gr r).st = .full := by with_unfolding_all rfl) : (mk (nth n)).start.claim r :=
  ⟨nth_queue n r, by show ((nth n).gr r).st ≠ .absent; rw [h]; decide⟩
theorem test_wit_NameQueries :
    (∀ n, (mk (nth n)).ready ∧ (mk (nth n)).start.readGs [1, 1 + 1] = some ([n.setWidth 64, (n >>> 64).setWidth 64], (mk (nth n)).start) ∧
      (mk (nth n)).start.readGs [1, 1 + 1, 4] = some ([n.setWidth 64, (n >>> 64).setWidth 64, 0x100040], (mk (nth n)).start) ∧
      (n >>> 64).setWidth 64 ++ n.setWidth 64 = n ∧ (mk (nth n)).start.claim 3 ∧ (mk (nth n)).start.claim (3 + 1) ∧ (mk (nth n)).canTrap) ∧
    (nmClass (nameOf 0 0 1) = 0 ∧ 6 < nmClass (nameOf 7 0 1) ∧ nmClass (nameOf 6 otherTag 1) = 6 ∧ nmChip (nameOf 6 otherTag 1) ≠ Config.chipTag.toNat ∧
      nmClass (nameOf 1 Config.chipTag.toNat 1) = 1 ∧ nmChip (nameOf 1 Config.chipTag.toNat 1) = Config.chipTag.toNat) ∧
    ((0x100044 : D).toNat % 64 ≠ 0 ∧ winCode 0x100044 = 0 ∧ (0x100040 : D).toNat % 64 = 0 ∧
      ∀ k ∈ List.range 8, isPage (reach (withPage hbmPage (nth 0)).dev 1 ((0x100040 : D) + BitVec.ofNat 64 (8 * k)) 8 8 0) = true) ∧
    ((mk th).start.space 3 ∧ (mk th).start.space (3 + 1) ∧ (mk th).start.claim 3 ∧ (mk th).start.claim (3 + 1) ∧ ((mk th).start.readGs [4, 5, 5 + 1]).isSome ∧ badRequest 5 0 0x100044 = true ∧ badRequest 5 0 0x100040 = false ∧ badRequest 6 0 0 = true) :=
  ⟨fun n => ⟨nth_ready n, nth_reads n (by with_unfolding_all rfl), nth_reads n (by with_unfolding_all rfl), halves n, nth_claim n, nth_claim n, nth_canTrap n⟩,
    ⟨by decide, by decide, (other_fields (by decide) (by decide)).1, (other_fields (by decide) (by decide)).2, (own_fields (by decide) (by decide)).1, (own_fields (by decide) (by decide)).2⟩,
    by decide, by decide⟩

theorem read_flush {m : Mem} (h : Memory.wf m = true) (j : Nat) : ∀ w : List (Nat × Byte), (m.flush w).read j = ((w.find? fun x => x.1 = j).map Prod.snd).getD (m.read j)
  | [] => rfl
  | x :: w => by
    have ih := read_flush h j w
    show ((m.flush w).write x.1 x.2).read j = _
    rw [Mem.read_write _ _ _ (Mem.wf_flush w h), ih, List.find?_cons]
    by_cases e : j = x.1
    · simp [e]
    · simp [e, Ne.symm e]
/-- Memory with one entry of a one-bucket name table: the name, with STATE as given. -/
def nameBytes (n : Q) (st : Nat) : List (Nat × Byte) := (23, BitVec.ofNat 8 (64 * st + 5)) :: (List.range 16).map fun i => (i, BitVec.ofNat 8 (n.toNat / 256 ^ i))
def nameMem (n : Q) (st : Nat) : Mem := Mem.flush [] (nameBytes n st)
theorem nameMem_wf (n : Q) (st : Nat) : Memory.wf (nameMem n st) = true := Mem.wf_flush _ rfl
theorem nameMem_read (n : Q) (st j : Nat) : (nameMem n st).read j = if j = 23 then BitVec.ofNat 8 (64 * st + 5) else if j < 16 then BitVec.ofNat 8 (n.toNat / 256 ^ j) else 0 := by
  rw [nameMem, read_flush rfl]
  simp only [nameBytes, List.find?_cons]
  by_cases e : j = 23
  · simp [e]
  · simp only [Ne.symm e, decide_false, if_neg e]
    by_cases l : j < 16
    · rw [if_pos l]
      have : (List.map (fun i => (i, BitVec.ofNat 8 (n.toNat / 256 ^ i))) (List.range 16)).find? (fun x => decide (x.1 = j)) = some (j, BitVec.ofNat 8 (n.toNat / 256 ^ j)) := by
        rw [List.find?_map]
        have hf : (List.range 16).find? ((fun x : Nat × Byte => decide (x.1 = j)) ∘ fun i => (i, BitVec.ofNat 8 (n.toNat / 256 ^ i))) = some j := by
          rw [List.find?_range_eq_some]
          exact ⟨by simp, List.mem_range.mpr l, fun i hi => by simp; omega⟩
        rw [hf]; rfl
      rw [this]; rfl
    · rw [if_neg l]
      have : (List.map (fun i => (i, BitVec.ofNat 8 (n.toNat / 256 ^ i))) (List.range 16)).find? (fun x => decide (x.1 = j)) = none := by
        rw [List.find?_eq_none]; intro x hx; simp only [List.mem_map, List.mem_range] at hx; obtain ⟨i, hi, rfl⟩ := hx; simp; omega
      rw [this]; rfl
theorem rdB_quiet {m : Mem} {d : Dev} (h : d.wbuf = []) (c : d.wclear = []) (k : Nat) : rdB m d k = m.read k := by simp [rdB, h, c]
theorem name_stands (n : Q) {st : Nat} {d : Dev} (h : d.wbuf = []) (c : d.wclear = []) : entryName (nameMem n st) d 0 = n := by
  have hi : rd64 (nameMem n st) d (0 + 8) = (n >>> 64).setWidth 64 := by
    apply BitVec.eq_of_toNat_eq
    simp only [rd64, rdN, rdB_quiet h c, nameMem_read]
    have := n.isLt
    simp
    omega
  have lo : rd64 (nameMem n st) d 0 = n.setWidth 64 := by
    apply BitVec.eq_of_toNat_eq
    simp only [rd64, rdN, rdB_quiet h c, nameMem_read]
    simp
    omega
  rw [entryName, hi, lo, halves]
theorem state_stands (n : Q) {st : Nat} {d : Dev} (h : d.wbuf = []) (c : d.wclear = []) (hs : st < 4) : entryState (nameMem n st) d 0 = st := by
  simp only [entryState, rd64, rdN, rdB_quiet h c, nameMem_read, fieldN]
  simp
  omega
theorem empty_state (d : Dev) (h : d.wbuf = []) (c : d.wclear = []) (k : Nat) : entryState [] d k = 0 := by
  simp [entryState, rd64, rdN, rdB_quiet h c, Mem.read, Tbl.getD, Tbl.get?, fieldN]
theorem empty_lookup (d : Dev) (h : d.wbuf = []) (c : d.wclear = []) (die : Nat) (n : Q) : (lookup [] d die n).2 = none := by
  have : ∀ bs k, (lookupIn [] d die n bs k).2 = none := by
    intro bs; induction bs with
    | nil => intro k; rfl
    | cons b bs ih => intro k; simp [lookupIn, empty_state d h c, show ∀ l : List Nat, l.find? (fun _ => false) = none from fun l => by induction l <;> simp_all, ih]
  exact this _ _
theorem name_lookup (n : Q) {st : Nat} {d : Dev} (h : d.wbuf = []) (c : d.wclear = []) (hs : st < 4) (h0 : st ≠ 0) (ht : tableKey d 0 = 0) (hb : tableBuckets d 0 = 1) :
    (lookup (nameMem n st) d 0 n).2 = some 0 := by
  simp [lookup, bucketsOf, List.range_succ_eq_map, lookupIn, entryKeys, ht, hb, homeBucket, name_stands n h c, state_stands n h c hs, h0, Nat.mod_one]

theorem one_bucket {d : Dev} (h : (d.die 0).ntcfg = 2) : tableKey d 0 = 0 ∧ tableBuckets d 0 = 1 := by simp [tableKey, tableBuckets, h, fieldN]
def nq (k : NKind) (n : Q) : NQuery := { loc := 1, kind := k, name := n, sel := 0, req := 5, tmpl := 0, arg := 0, parts := (List.range 8).map fun k => mkPart (slice (0x100 + 8 * k)) 8 k 0 (.vault 0 (0x100 + 8 * k)), pc := 0x10000, user := false, launch := none, away := false, regions := [] }
/-- A query at the table of die 0, which has one bucket at 0. -/
def tabS (m : Mem) (next : Nat) (q : NQuery) (ds : List (BitVec 5)) : State :=
  ⟨(({ (mk (pth 0)).dev with args := [7, 20], nameQ := [(7, q)], arrs := [(7, ⟨q.loc, ds.map fun r => (.g r, 0), 0, false, none, [], false⟩)], mint := { Dev.reset.mint with next := next } }).updDie 0 fun x => { x with ntcfg := 2 }).updTile 0
    fun tl => { tl with access := [(0, 0x100000003)] }, m⟩
/-- Nothing has to be waited for where no granule is locked and no stack retrains. -/
theorem phys_free {d : Dev} (h : ∀ x ∈ List.range 4, (d.die x).cursors = []) (r : d.retraining = []) (k : Nat) : physHeld d k = false := by
  have : inLocked d k = false := List.any_eq_false.mpr fun x hx => by simp [h x hx]
  simp [physHeld, this, r]
theorem not_held {d : Dev} (h : ∀ x ∈ List.range 4, (d.die x).cursors = []) (r : d.retraining = []) (die : Nat) (n : Q) : tableHeld d die n = false := by
  simp [tableHeld, phys_free h r]
theorem at_table {m : Mem} {next : Nat} {q : NQuery} {ds : List (BitVec 5)} (h : Memory.wf m = true) (g : ∀ k, m.read (errKey k) ≠ 1) : AtTable (tabS m next q ds) 7 20 q ds :=
  ⟨rfl, rfl, rfl, ⟨h, rfl, rfl⟩, not_held (by intro x hx; fin_cases hx <;> rfl) rfl _ _, g, fun _ => rfl, by intro e; cases e⟩
theorem name_sound (n : Q) (st k : Nat) : (nameMem n st).read (errKey k) ≠ 1 := by
  rw [nameMem_read, if_neg (by unfold errKey; omega), if_neg (by unfold errKey; omega)]; decide
theorem get_none {α : Type} {k : Nat} : ∀ {m : Tbl α}, (∀ x ∈ m, x.1 ≠ k) → m.get? k = none
  | [], _ => rfl
  | (j, a) :: t, h => by
    have n := h (j, a) (List.mem_cons_self ..)
    rw [Tbl.get?, if_neg (Ne.symm n)]
    split
    · rfl
    · exact get_none fun x hx => h x (List.mem_cons_of_mem _ hx)
theorem read_big {m : Mem} (h : ∀ x ∈ m, x.1 < 2 ^ 73) (k : Nat) : m.read (errKey k) ≠ 1 := by
  have : m.read (errKey k) = 0 := by
    show (Tbl.get? m (errKey k)).getD 0 = 0
    rw [get_none fun x hx => by have := h x hx; unfold errKey; omega]; rfl
  rw [this]; decide
def own1 : Q := nameOf 5 Config.chipTag.toNat 3
/-- NRES and NRST: a live name, a gone one and one that never was, none in the cache; a foreign one. -/
theorem test_wit_NameTable_resolve (k : NKind) :
    (AtTable (tabS (nameMem own1 1) 9 (nq k own1) [3]) 7 20 (nq k own1) [3] ∧ AtTable (tabS [] 4 (nq k own1) [3, 3 + 1]) 7 20 (nq k own1) [3, 3 + 1]) ∧ nmChip own1 = Config.chipTag.toNat ∧
    (∀ m next ds tl, ncFind (tabS m next (nq k own1) ds).dev tl own1 = none) ∧
    (∀ ds, (lookup (nameMem own1 1) (tabS (nameMem own1 1) 9 (nq k own1) ds).dev ((nq k own1).die (tabS (nameMem own1 1) 9 (nq k own1) ds) 7) own1).2 = some 0 ∧
      entryState (nameMem own1 1) (tabS (nameMem own1 1) 9 (nq k own1) ds).dev 0 = 1) ∧
    (∀ next ds, (lookup [] (tabS [] next (nq k own1) ds).dev ((nq k own1).die (tabS [] next (nq k own1) ds) 7) own1).2 = none) ∧ nmSeq own1 < 4 ∧ 3 ≤ nmSeq own1 ∧
    nmChip (nameOf 5 otherTag 3) ≠ Config.chipTag.toNat := by
  have hd : ∀ m next ds, (nq k own1).die (tabS m next (nq k own1) ds) 7 = 0 := fun _ _ _ => by show dieOf ((pth 0).at 1) = 0; decide
  have hs : nmSeq own1 = 3 := (nameOf_fields (by decide) Config.chipTag.isLt (by decide)).2.2
  refine ⟨⟨at_table (nameMem_wf ..) (name_sound _ _), at_table rfl (fun k => read_big (by simp) k)⟩, (own_fields (by decide) (by decide)).2, fun m next ds tl => ?_, fun ds => ⟨by rw [hd]; exact name_lookup _ rfl rfl (by decide) (by decide) (one_bucket rfl).1 (one_bucket rfl).2, state_stands _ rfl rfl (by decide)⟩,
    fun next ds => empty_lookup _ rfl rfl _ _, by omega, by omega, (other_fields (by decide) (by decide)).2⟩
  have : ((tabS m next (nq k own1) ds).dev.tile tl).ncache = [] := by
    by_cases e : tl = 0
    · subst e; rfl
    · show (((Tbl.set [] 0 _).get? tl).getD Tile.reset).ncache = []
      simp [Tbl.set, Tbl.get?, e, Tile.reset]
  simp [ncFind, this, Tbl.getD, Tbl.get?]
/-- A query whose time is a cache's: tile 0 holds the name, or has lost it since the issue (R197). -/
def hitE : NcEntry := ⟨own1, 0, 0, 9, 0⟩
def hitS (cache : Tbl (List NcEntry)) (d : BitVec 5) : State :=
  ⟨{ (tabS [] 4 (nq .res own1) [d]).dev.updTile 0 fun tl => { tl with ncache := cache } with args := [7, 16] }, []⟩
theorem hit_find (c : List NcEntry) (d : BitVec 5) : ncFind (hitS [(0, c)] d).dev 0 own1 = c.find? fun e => e.name = own1 := by
  have : ncSet (hitS [(0, c)] d).dev (tileDie 0) own1 = 0 := by
    simp [ncSet, homeBucket, show tileDie 0 = 0 from rfl, (one_bucket (d := (hitS [(0, c)] d).dev) rfl).2, Nat.mod_one]
  rw [ncFind, this]; rfl
theorem hit_free (c : Tbl (List NcEntry)) (d : BitVec 5) : tableHeld (hitS c d).dev 0 own1 = false := not_held (by intro x hx; fin_cases hx <;> rfl) rfl _ _
theorem test_wit_NameTable_cached (d : BitVec 5) :
    AtTable (hitS [(0, [hitE])] d) 7 16 (nq .res own1) [d] ∧ ncFind (hitS [(0, [hitE])] d).dev 0 own1 = some hitE ∧ cacheTile ((pth 0).at 1) = some 0 ∧
    (hitS [(0, [])] d).Inv ∧ tableHeld (hitS [(0, [])] d).dev 0 own1 = false ∧ acquiring (hitS [(0, [])] d).dev 1 7 = false ∧ ncFind (hitS [(0, [])] d).dev 0 own1 = none :=
  ⟨⟨rfl, rfl, rfl, ⟨rfl, rfl, rfl⟩, not_held (by intro x hx; fin_cases hx <;> rfl) rfl _ _, fun k => read_big (by simp [hitS, tabS]) k, fun _ => rfl, fun _ => ⟨0, by show cacheTile ((pth 0).at 1) = some 0; decide, by
      show ncFind _ 0 own1 ≠ none; rw [hit_find]; simp [hitE]⟩⟩, by rw [hit_find]; simp [hitE], rfl, ⟨rfl, rfl, rfl⟩, hit_free _ d, rfl, by rw [hit_find]; rfl⟩
def n5 : Q := nameOf 5 0 3
/-- The block at offset 0x100 of the slice: words 2 and 6 of the entry as its words 0 and 4. -/
def casMem (old new : Byte) : Mem := Mem.flush (nameMem n5 1) [(vaultKey 0 0x107, old), (vaultKey 0 0x127, new)]
/-- NCAS: the block's words and the entry's. -/
def casBlk (a b : Byte) : List D := (List.range 8).map fun k => rd64 (casMem a b) Dev.reset (vaultKey 0 (0x100 + 8 * k))
def casOld : List D := (List.range 4).map fun i => rd64 (casMem 0x45 0x45) Dev.reset (8 * (2 + i))
def casS (a b : Byte) : State := tabS (casMem a b) 9 (nq .cas n5) [3]
theorem cas_table (a b : Byte) (h : Memory.wf (casMem a b) = true) (g : ∀ x ∈ casMem a b, x.1 < 2 ^ 73) : AtTable (casS a b) 7 20 (nq .cas n5) [3] := at_table h fun k => read_big g k
abbrev casGood (a b : Byte) : Prop :=
  let s := casS a b
  Memory.wf (casMem a b) = true ∧ (∀ x ∈ casMem a b, x.1 < 2 ^ 73) ∧ nameStatus s 7 (nq .cas n5) true = none ∧ (lookup s.mem s.dev ((nq .cas n5).die s 7) n5).2 = some 0 ∧ blocked s.dev 7 ((nq .cas n5).load s 7) = false ∧
    (match blockRead s.mem s.dev ((nq .cas n5).load s 7) with | .ok b' => decide (b' = casBlk a b) | .error _ => false) = true
theorem test_wit_NameTable_cas : casGood 0x45 0x45 ∧ casGood 0x45 0 ∧ casGood 0 0 ∧
    (casBlk 0x45 0x45).take 4 = casOld ∧ refusedDescriptor 5 casOld ((casBlk 0x45 0x45).drop 4) = false ∧ (casBlk 0x45 0).take 4 = casOld ∧ refusedDescriptor 5 casOld ((casBlk 0x45 0).drop 4) = true ∧
    (casBlk 0 0).take 4 ≠ casOld := by decide +kernel
/-- The words go back to the own vault. -/
theorem test_wit_NameTable_back :
    (∀ i, i < 4 → BackNow (casS 0 0) 7 (nq .cas n5) ((((nq .cas n5).parts.zip casOld).map fun x => { x.1 with data := x.2 }).getD i ⟨0, 0, 0, 0, none, 0, 0⟩) (vaultKey 0 (0x100 + 8 * i))) ∧
    OnlyQuery (casS 0 0) 7 1 ∧ kindOf (((casS 0 0).dev.owner 1 7).at 1) ≠ 2 := by
  refine ⟨fun i hi => ?_, ⟨by decide, by decide, by decide, by decide, by decide, by decide⟩, by decide⟩
  match i, hi with
  | 0, _ => exact ⟨by decide +kernel, by decide +kernel, ⟨0, 0x100, by decide +kernel⟩, by decide +kernel⟩
  | 1, _ => exact ⟨by decide +kernel, by decide +kernel, ⟨0, 0x108, by decide +kernel⟩, by decide +kernel⟩
  | 2, _ => exact ⟨by decide +kernel, by decide +kernel, ⟨0, 0x110, by decide +kernel⟩, by decide +kernel⟩
  | 3, _ => exact ⟨by decide +kernel, by decide +kernel, ⟨0, 0x118, by decide +kernel⟩, by decide +kernel⟩
/-- A query whose stores are out, or one of them refused; a right that the read or the write of a block lacks. -/
theorem test_wit_NameTable_refused :
    (let q := { nq .cas n5 with sel := 5, parts := (nq .cas n5).parts.take 4 }
     q.parts.length = 4 ∧ queryStoring (tabS [] 9 q [3]).dev 7 1 = false ∧
       (let d := { (tabS [] 9 q [3]).dev with arrs := [(7, ⟨1, [(.g 3, 0)], 0, false, some ⟨0x10000, 0x0C, 0, 9, false⟩, [], false⟩)] }
        (d.arrs.get? 7).isSome ∧ queryStoring d 7 1 = false)) ∧
    (∀ r ∈ [0x3B, 0x37], let d := (mk (pth 0)).dev.updTile 0 fun tl => { tl with tlb := [{ page hbmPage with rights := ofN r }] }
     ∀ kind ∈ [0, 1], isPage (reach d 1 0x100040 8 8 kind) = decide ((r = 0x3B) = (kind = 1)) ∨
       (match reach d 1 0x100040 8 8 kind with | .error (.trap 9 0 0x100040 _ none) => true | _ => false) = true) := by decide +kernel
/-- The block in a page of HBM. -/
def pq : NQuery := { nq .cas n5 with parts := (List.range 8).map fun k => ⟨0x100040 + ofN (8 * k), 8, k, 0, some hbmPage, 65536, 0x3F⟩ }
theorem test_wit_NameTable_page :
    (let s : State := ⟨{ (tabS (nameMem n5 1) 9 pq [3]).dev.updDie 0 fun x => { x with access := [(0, 0x100000003)], baseAccess := [(0, 0x100000003)] } with
       stage2 := [⟨0, 0, 0x100000, 65536, true, true, true, none, 0, false, none⟩] }, nameMem n5 1⟩
     nameStatus s 7 pq true = none ∧ blocked s.dev 7 (pq.load s 7) = false ∧ (∀ p ∈ pq.parts, p.place ≠ none) ∧ coreOf pq.loc = 0 ∧ (s.dev.core 0).journal.length ≤ 28 ∧
       (match blockRead s.mem s.dev (pq.load s 7) with | .ok b' => decide (b'.take 4 ≠ casOld) | .error _ => false) = true) := by decide +kernel
theorem test_wit_NameTable_change :
    nameStatus (tabS [] 4 (nq .kil n5) [3]) 7 (nq .kil n5) true = some 2 ∧ nameStatus (tabS [] 3 (nq .kil n5) [3]) 7 (nq .kil n5) true = some 4 ∧
    nameStatus (tabS (nameMem (nameOf 6 0 3) 1) 9 (nq .shd (nameOf 6 0 3)) [3]) 7 (nq .shd (nameOf 6 0 3)) false = none ∧
    (let s := tabS (nameMem n5 1) 9 (nq .kil n5) [3]
     s.Inv ∧ nameStatus s 7 (nq .kil n5) true = none ∧ (lookup s.mem s.dev ((nq .kil n5).die s 7) n5).2 = some 0 ∧ (∀ b ∈ s.dev.blocks, b.name ≠ n5)) ∧
    (let s : State := ⟨{ (tabS [] 4 (nq (.new true) 0) [3, 3 + 1]).dev with mint := { Dev.reset.mint with queue := [(0, .nnew 7)], next := 4 } }, []⟩
     s.Inv ∧ s.dev.mint.next % 2 ^ 32 ≠ 0 ∧ s.dev.mint.writing = false ∧ s.dev.mint.stopped = false ∧ (s.dev.nameQ.get? 7).isSome ∧ (s.dev.arrs.get? 7).isSome ∧ fieldN (nq (.new true) 0).req 5 0 = 5 ∧
       freeEntryFor s.mem s.dev 0 5 4 = some 0 ∧ s.dev.blocks = []) := by decide +kernel
theorem test_wit_NameTable_mint : (let s : State := ⟨{ (tabS [] 4 (nq (.new true) 0) [3, 3 + 1]).dev with mint := { Dev.reset.mint with queue := [(0, .nnew 7)], next := 4 } }, []⟩
    mintHeld s.mem s.dev 0 (.nnew 7) = false) := by
  simp only [mintHeld, Bool.or_eq_false_iff]
  exact ⟨not_held (by intro x hx; fin_cases hx <;> rfl) rfl _ _, by decide⟩

def shoot0 (left : List Nat) : Shoot := ⟨n5, 0, 1, 5, 4, false, 2, left, 0, none, []⟩
/-- A shoot-down of a name of thread 5, whose entry stands at 0. -/
def shootAs (x : Shoot) : State := ⟨{ (mk { th with name := 5 }).dev with args := [9, 3], shoots := [(9, x)] }, nameMem n5 1⟩
def shootS (sid : Nat) (left : List Nat) : State := ⟨{ (shootAs (shoot0 left)).dev with args := [sid, 3], shoots := [(sid, shoot0 left)] }, nameMem n5 1⟩
def lastAck (x : Shoot) : Prop := Finishing (shootAs x) 9 3 x ∧ Told (shootAs x) x ∧ (shootAs x).Inv ∧ ∀ b ∈ (shootAs x).dev.blocks, b.name ≠ x.name
/-- The last acknowledgement of NSHD, of a kill, of a launch's kill, and of a kill that gives a frame back. -/
theorem test_wit_MintAndShootdowns_last : lastAck (shoot0 [3]) ∧ lastAck { shoot0 [3] with kill := true } ∧ lastAck { shoot0 [3] with kill := true, launch := some 3 } ∧
    (let x := { shoot0 [3] with kill := true }
     let b : Block := ⟨n5, 0, 0, 65536, 65536, 0, [(0, 1, 7)]⟩
     let s : State := ⟨{ ((shootAs x).dev.updDie 0 fun y => { y with alloc := 0x10000 }) with blocks := [b] }, Mem.flush (nameMem n5 1) [(0x10049, 2)]⟩
     let sk := poolStack s.mem s.dev (0, 1) + 8 * poolCount s.mem s.dev (0, 1)
     s.Inv ∧ Finishing s 9 3 x ∧ Told s x ∧ s.dev.blocks = [b] ∧ physHeld s.dev (poolKey s.dev 0 1) = false ∧ physHeld s.dev sk = false ∧ poolCount s.mem s.dev (0, 1) + 1 < 2 ^ 64 ∧
       overlaps 0 64 (poolKey s.dev 0 1) 16 = false ∧ overlaps 0 64 sk 8 = false ∧ overlaps (poolKey s.dev 0 1) 16 sk 8 = false) := by
  refine ⟨?_, ?_, ?_, ?_⟩
  iterate 3 exact ⟨⟨by decide, by decide, rfl, by decide +kernel, by intro y h; rcases h with _ | ⟨_, ⟨⟩⟩; intro h; exact absurd rfl h, by decide⟩, ⟨by decide, by decide, by decide, by decide, by decide +kernel⟩, ⟨by decide +kernel, rfl, rfl⟩, by intro b h; cases h⟩
  exact ⟨⟨by decide +kernel, rfl, rfl⟩, ⟨by decide +kernel, by decide, rfl, by decide +kernel, by intro y h; rcases h with _ | ⟨_, ⟨⟩⟩; intro h; exact absurd rfl h, by decide⟩, ⟨by decide, by decide, by decide, by decide, by decide +kernel⟩,
    rfl, by decide +kernel, by decide +kernel, by decide +kernel, by decide +kernel, by decide +kernel, by decide +kernel⟩
theorem test_wit_MintAndShootdowns :
    (let s : State := ⟨{ Dev.reset with mint := { Dev.reset.mint with queue := [(0, .nnew 7)], next := 2 ^ 32, recorded := 0 } }, []⟩
     s.dev.mint.queue ≠ [] ∧ s.dev.mint.writing = false ∧ s.dev.mint.stopped = false ∧ s.dev.mint.next % 2 ^ 32 = 0 ∧ s.dev.mint.recorded < s.dev.mint.next / 2 ^ 32 ∧ s.dev.mint.next < 2 ^ 96 - 2 ^ 32) ∧
    ((2 ^ 96 - 2 ^ 32) % 2 ^ 32 = 0) ∧ gramWalking (shootS 9 [3]).dev 3 = 0 ∧ tileHalted (shootS 9 [3]).dev 3 = false ∧ tileHalted ((mk { th with st := .halted }).dev) 0 = true ∧ 3 ∈ ({ (⟨n5, 0, 1, 5, 4, false, 2, [3], 0, none, [3]⟩ : Shoot) with tlb := 1 }).kept ∧
    ((shootS 9 [3]).Inv ∧ ([3, 63] : List Nat).erase 3 ≠ [] ∧ physHeld (shootS 9 [3]).dev 0 = false ∧ physHeld (copying 0 (shootS 9 [3]).dev) 0 = true ∧
      (shoot0 [3]).here (nameMem n5 1) (shootS 9 [3]).dev = true ∧ (shoot0 [3]).here [] (shootS 9 [3]).dev = false) ∧
    (let s : State := ⟨{ (shootS 9 [3]).dev with shoots := [(9, { shoot0 [3] with kill := true }), (10, shoot0 [])] }, nameMem n5 1⟩
     physHeld s.dev 0 = false ∧ (∃ y ∈ s.dev.shoots, y.1 ≠ 9 ∧ y.2.name = n5 ∧ y.2.kill = false)) ∧
    (let s : State := ⟨{ (withPage hbmPage th).dev with args := [2, 0], tsds := [(2, ⟨0, 0x100000, 65536, [0], .nop, []⟩)] }, []⟩
     s.dev.args = [2, 0] ∧ (s.dev.tsds.get? 2).isSome ∧ ((s.dev.tile 0).tlb.any fun e => e.ctx = 0 ∧ overlaps e.base e.size 0x100000 65536 = true)) := by decide +kernel

/-! ## Witnesses: grammars, threads, launches -/

def gq (k : GKind) (n : Q) (o : Option GOut) : GQuery := { loc := 1, core := 0, kind := k, name := n, bind := 0, par := 0, off := 0, area := 0, parts := [], dst := .v 3, pc := 0x10000, user := true, launch := none, walking := true, away := false, regions := [], out := o }
theorem test_wit_GrammarQueries :
    (∀ n, (mk (nth n)).ready ∧ kindOf (mk (nth n)).core = 0 ∧ (mk (nth n)).start.readGs [1, 1 + 1] = some ([n.setWidth 64, (n >>> 64).setWidth 64], (mk (nth n)).start) ∧ (mk (nth n)).canTrap ∧ (mk (nth n)).gramRoom) ∧
    (gramAsk (.glen 3 1 false)).isSome ∧ (gramAsk (.gev 3 1 2 false false 0)).isSome ∧ (mk (nth 0)).start.claim 3 ∧ (mk (nth 0)).start.claimV 3 ∧ (nmClass (nameOf 3 0 1) ∉ [1, 2]) ∧ (nmClass (nameOf 1 otherTag 1) = 1 ∧ nmChip (nameOf 1 otherTag 1) ≠ Config.chipTag.toNat) ∧
    (nmClass (nameOf 1 Config.chipTag.toNat 1) = 1 ∧ nmChip (nameOf 1 Config.chipTag.toNat 1) = Config.chipTag.toNat) ∧
    ¬State.gramRoom ⟨{ (mk th).dev with gramQ := (List.range 64).map fun k => (k, { gq .len 0 none with walking := false }) }, []⟩ ∧
    (gramAsk (.gscn 3 1 4 false false)).isSome ∧ (0x100044 : D).toNat % 64 ≠ 0 ∧ baseGood (withPage hbmPage th) 0x100040 64 ∧ reached (withPage hbmPage th) 0x100040 8 1 = true :=
  ⟨fun n => ⟨nth_ready n, by rw [show (mk (nth n)).core = 0 from by with_unfolding_all rfl]; decide, nth_reads n (by with_unfolding_all rfl), nth_canTrap n, by show ([] : List (Nat × GQuery)).length < 64; decide⟩, by decide, by decide, by decide, by decide, by decide,
    other_fields (by decide) (by decide), own_fields (by decide) (by decide), by decide +kernel, by decide, by decide, by decide, by decide⟩
/-- A vector register's four words. -/
def sum4 (a b c d : Nat) : V := BitVec.ofNat 1024 (a + 2 ^ 64 * b + 2 ^ 128 * c + 2 ^ 192 * d)
def gth (x y : V) : Thread := { setG th [(1, 4), (2, 6)] with v := (Thread.vacant.v.set 1 (.ofVal x)).set 2 (.ofVal y), hits := 2 ^ 32 - 1 }
theorem test_wit_GrammarResults :
    (nmClass (nameOf 1 Config.chipTag.toNat 7) = 1 ∧ nmChip (nameOf 1 Config.chipTag.toNat 7) = Config.chipTag.toNat ∧ nmSeq (nameOf 1 Config.chipTag.toNat 7) = 7) ∧
    (let e : GEntry := ⟨0, 7, 8, 0, 0, 0, false, ⟨3, 1, 2, 0⟩⟩
     let s : State := ⟨(mk (gth 0 0)).dev.updTile 0 fun tl => { tl with rrt := [(gramSet 7 8 0 0, [e])] }, []⟩
     ((s.dev.tile 0).rrt.getD (gramSet 7 8 0 0) []).find? (fun e => e.is 7 8 0 0) = some e) ∧
    (let s : State := ⟨{ (mk (gth 0 0)).dev with args := [4, 1], gramQ := [(4, gq .len 0 (some (.g 12)))], arrs := [(4, ⟨1, [(.g 3, 0)], 0, false, none, [], true⟩)] }, []⟩
     s.dev.args = [4, 1] ∧ (s.dev.gramQ.get? 4).isSome ∧ (s.dev.arrs.get? 4).isSome ∧ (∃ a ∈ s.dev.arrs, a.2.loc = s.dev.cur ∧ mine s.dev s.dev.cur a.1 = true ∧ a.2.gram = true) ∧ (mk th).dev.arrs = []) ∧
    (mk (gth (sum4 1 2 1 0) (sum4 3 4 1 0))).vectorReady [1, 2] [sum4 1 2 1 0, sum4 3 4 1 0] 0 (BitVec.allOnes 64) ∧
    (laneOf 64 (sum4 1 2 1 0) 2 = laneOf 64 (sum4 3 4 1 0) 2 ∧ laneOf 64 (sum4 1 2 1 0) 2 ≤ 1 ∧ laneOf 64 (sum4 1 2 0 0) 2 ≠ laneOf 64 (sum4 3 4 1 0) 2) ∧
    (mk (gth (sum4 1 2 1 0) 0)).vectorReady [1] [sum4 1 2 1 0] 0 (BitVec.allOnes 64) ∧ ((mk (gth 0 0)).start.readGs [1]).isSome ∧ ((mk (gth 0 0)).start.readGs [1, 2]).isSome ∧ (mk (gth 0 0)).canTrap ∧
    (mk (gth 0 0)).ready ∧ kindOf (mk (gth 0 0)).core ≠ 2 ∧ (mk (gth 0 0)).start.claim 3 ∧ (mk (gth 0 0)).start.claimV 3 :=
  ⟨nameOf_fields (by decide) Config.chipTag.isLt (by decide), by decide, by decide, by decide +kernel, by decide +kernel, by decide +kernel, by decide, by decide, by decide, by decide, by decide, by decide, by decide⟩

/-- The machine with thread `t` in slot 0 of core 0.0.0, save areas present, its row in RUN. -/
def mk0 (t : Thread) : State :=
  ⟨({ Dev.reset with threads := [(0, t)], cur := 0 }.updCore 0 fun c => { c with sab := 1 }).updRow (rowKeyOf 0) fun r => { r with state := 2, live := 1, ecls := 1 }, []⟩
def sreq : StartReq := { loc := 2, how := .spwn, pc := 0x20000, a1 := 5, a2 := 6, priv := false, arr := none, lpb := Vector.replicate 8 0, lpl := Vector.replicate 8 0, rnc := 0, launch := none, hgrp := none, sender := 0, w3 := 0, asked := 0, earliest := 0, after := none }
def threadArgs : Thread := setG th [(1, 3), (2, 7), (3, 8)]
theorem test_wit_Threads_spawn :
    ((mk0 threadArgs).ready ∧ (mk0 threadArgs).keeper ∧ ((mk0 threadArgs).start.readGs [1, 2, 2 + 1]).isSome ∧ (mk0 threadArgs).start.claim 4 ∧ (mk0 threadArgs).start.claim (4 + 1) ∧ ((mk0 threadArgs).dev.row (rowKeyOf 0)).gang = false ∧
      ((mk0 threadArgs).dev.row (rowKeyOf 0)).det = false ∧ canStart (mk0 threadArgs).dev 0 = true ∧ lowestFree (mk0 threadArgs).dev 0 = some 1 ∧ (mk0 threadArgs).dev.mint.stopped = false) ∧
    (canStart (mk th).dev 0 = false ∧ ¬(mk th).keeper ∧ (mk th).canTrap) ∧
    (let s : State := ⟨{ (mk0 th).dev with mint := { Dev.reset.mint with queue := [(0, .start sreq)], next := 4 } }.updDie 0 fun x => { x with ntcfg := 2 }, []⟩
     s.Inv ∧ s.dev.mint.queue = [(0, .start sreq)] ∧ s.dev.mint.writing = false ∧ s.dev.mint.stopped = false ∧ s.dev.mint.next % 2 ^ 32 ≠ 0 ∧ (s.dev.thread 2).st = .vacant ∧ bitN (s.dev.core 0).sab 0 = true ∧ freeEntryFor s.mem s.dev 0 4 4 = some 0 ∧ (freePool s.dev 0).isSome) := by decide +kernel
theorem test_wit_minting {d : Dev} {r : MintReq} (h : ∀ x ∈ List.range 4, (d.die x).cursors = []) (c : d.retraining = []) (hr : ∀ id, r ≠ .nnew id) : mintHeld [] d 0 r = false := by
  simp only [mintHeld, not_held h c, Bool.false_or]
theorem test_wit_Threads_reap :
    ((mk0 threadArgs).start.readGs [1]).isSome ∧ (mk0 threadArgs).start.space 4 ∧ (mk0 threadArgs).start.space (4 + 1) ∧
    (let s : State := ⟨(mk0 threadArgs).dev.updCore 0 fun c => { c with exits := [(3, ⟨9, 5, 0x20⟩)] }, []⟩
     s.Inv ∧ s.keeper ∧ fieldN (3 : D) 3 0 = 3 ∧ ((s.dev.core 0).exits.get? 3).isSome ∧ (s.dev.core 0).exits.get? 4 = none ∧ (s.dev.thread 4).st = .vacant) ∧
    ((∀ q ∈ (mk th).dev.reqs, q.2.phase ≠ .nonresident) ∧ ∃ x ∈ (⟨{ (mk th).dev with arrs := [(4, ⟨1, [(.g 3, 0)], 0, false, none, [], false⟩)] }, []⟩ : State).dev.arrs, x.2.loc = 1 ∧ mine (mk th).dev 1 x.1 = true) ∧
    (let s := mk0 { threadArgs with start := .spwn }
     s.Inv ∧ s.quiet ∧ (∀ x ∈ s.dev.arrs, x.2.loc ≠ 0) ∧ (∀ x ∈ s.dev.nameQ, x.2.loc ≠ 0) ∧ s.dev.lentOut.get? 0 = none ∧ (s.dev.tile 0).array.holder ≠ some 0 ∧ s.me.start = .spwn) := by decide +kernel

/-- A launch of one group of one row, its grid 3 by 2. -/
def la (name : Q) : Launch :=
  { name := name, die := 0, addr := slice 0x200, words := [0x20000, 1, 2, 0, 3 * 2 ^ 16 + 2 * 2 ^ 32, 0, 0], aux := [], deps := [], lanes := [0], ctx := Vector.replicate 4 0, parent := none, issuer := 0, depth := 1, prio := 2, host := false,
    done := false, status := 0, acked := false, late := 0, xcnt := 0, cause := 0, kills := none, asked := 5, askedBy := [], laneNext := [] }
def withLaunch (l : Launch) (t : Thread) : State := ⟨{ (mk0 { t with launch := some l.name }).dev with launches := [l] }.updRow (rowKeyOf 0) fun r => { r with launch := some l.name }, []⟩
/-- The own tile's access tables let every unit read and write. -/
def openTile (s : State) : State := ⟨s.dev.updTile 0 fun tl => { tl with access := [0, engMaster 0 0].map fun k => (k, 0x100000003) }, s.mem⟩
theorem test_wit_TaskInstructions_lnch :
    ((mk (pth (slice 0x200))).ready ∧ (mk (pth (slice 0x200))).unitCore ∧ ((mk (pth (slice 0x200))).start.readGs [1]).isSome ∧ (slice 0x208).toNat % 64 ≠ 0 ∧ vaultLoc 0 (slice 0x208) ≠ none ∧ (mk (pth 0)).canTrap ∧
      isVault (reach (mk (pth (slice 0x200))).dev 1 (slice 0x200) 64 64 0) = true) ∧
    (let s := mk (setG th [(1, 0xFF), (2, 1), (3, 2), (4, 3), (5, 4), (6, 0)])
     (s.start.readGs [1, 2, 2 + 1, 2 + 2, 2 + 3, 6]).isSome ∧ s.me.mig = none ∧ freeEntry (s.dev.core 0) = some 0 ∧ freeEntry { Core.reset with journal := full } = none) ∧
    (∀ x ∈ [(0, 0), (16 * 256 * 64, 0), (0, 1)], let e : JEntry := { je with kind := .amsg, req := 5, refused := none, addr := ofN x.1, msg := [1, 2, 3, 4, 0, x.2], orig := none }
     let s : State := ⟨{ (withLaunch (la 7) th).dev with args := [0, 31, 5, 20] }.updCore 0 fun c => { c with journal := [(31, e)] }, []⟩
     s.dev.args = [0, 31, 5, 20] ∧ (s.dev.core 0).journal.get? 31 = some e ∧ e.placed = false ∧ unreleased s.dev 5 e.loc e.sc true = false ∧ (s.dev.row (rowKeyOf 0)).state = 2 ∧ lowestFree s.dev 0 = some 1 ∧
       canStart s.dev 0 = true ∧ (s.dev.core 0).inbox.length < 32 ∧ (s.dev.row (rowKeyOf 0)).launch ≠ (s.dev.owner e.loc 5).launch ∧
       (s.dev.row (rowKeyOf 0)).launch = (s.dev.owner 0 5).launch ∧ (s.dev.owner 0 5).launch ≠ none ∧ (s.dev.thread 0).awaits .inbox = false ∧ (s.dev.core 0).overflow = []) := by decide +kernel
theorem test_wit_TaskInstructions_lwt :
    (∀ n, (mk (nth n)).ready ∧ (mk (nth n)).start.readGs [1, 1 + 1, 8] = some ([n.setWidth 64, (n >>> 64).setWidth 64, 10], (mk (nth n)).start) ∧ (mk (nth n)).Inv) ∧
    (let n := nameOf 6 Config.chipTag.toNat (2 ^ 40)
     nmClass n = 6 ∧ nmChip n = Config.chipTag.toNat ∧ nmSeq n = 2 ^ 40 ∧ (lookup [] (mk (nth n)).dev 0 n).2 = none) ∧ (mk th).dev.mint.next ≤ 2 ^ 40 ∧
    (∀ n : Q, ∃ s : State, launchOf s.dev (some n) = some (la n) ∧ (la n).done = false ∧ entryName (nameMem n 1) s.dev 0 = n ∧ entryState (nameMem n 1) s.dev 0 = 1) ∧
    ((withPage hbmPage (pth 0x100008)).unitCore ∧ isPage (reach (withPage hbmPage (pth 0x100008)).dev 1 0x100008 8 8 3) = true ∧ (Reach.page (page hbmPage)).comp (withPage hbmPage (pth 0x100008)).dev 1 0x100008 = false) ∧ (Reach.page (page hbmPage)).tier = 0 ∧
    (let s := withLaunch (la 7) th
     answerBusy s.dev 5 (rq (.ld false)) = false ∧ launchOf s.dev (s.dev.owner 0 5).launch = some (la 7) ∧ (la 7).grid = (3, 2) ∧ dDet (la 7).w3 = false ∧ dDet { la 7 with words := [0, 0, 0, 32, 0, 0, 0] }.w3 = true ∧
       (la 7).lanes.findIdx? (· = 0) = some 0 ∧ launchOf s.dev (s.dev.row (rowKeyOf 0)).launch = some (la 7) ∧ s.start.space 3 ∧ (s.dev.row (rowKeyOf 0)).ecls = 1 ∧ fieldN (0 : D) 1 0 < 1 ∧ 1 ≤ fieldN (1 : D) 1 0) :=
  ⟨fun n => ⟨nth_ready n, nth_reads n (by with_unfolding_all rfl), rfl, rfl, rfl⟩,
    have h := nameOf_fields (c := 6) (seq := 2 ^ 40) (by decide) Config.chipTag.isLt (by decide); ⟨h.1, h.2.1, h.2.2, empty_lookup _ rfl rfl _ _⟩, by decide,
    fun n => ⟨⟨{ Dev.reset with launches := [la n] }, []⟩, by simp [launchOf, la], rfl, name_stands n rfl rfl, state_stands n rfl rfl (by decide)⟩, by decide, by decide, by decide +kernel⟩
theorem test_wit_Launches_accept :
    (let e : Entry := { die := 0, loc := 1, arr := some 4, addr := slice 0x200, pc := 0x10000, ctx := Vector.replicate 4 0, parent := none, user := true, words := [], aux := [], deps := [], lanes := [] }
     let s : State := openTile ⟨{ (mk th).dev with args := [9], entries := [(9, e)], arrs := [(4, ⟨1, [(.g 3, 0), (.g (3 + 1), 0)], 0, false, none, [], false⟩)] }.updDie 0 fun x => { x with ctrl := 2 }, []⟩
     s.Inv ∧ s.dev.args = [9] ∧ s.dev.entries.get? 9 = some e ∧ unreleased s.dev 9 1 4 true = false ∧ bitN (s.dev.die 0).ctrl 1 = true ∧ (slice 0x200).toNat % 64 = 0 ∧ (slice 0x208).toNat % 64 ≠ 0 ∧
       (match acceptEntry s.mem { s.dev with free := s.dev.free + 1 } e with | .ok _ => true | .error _ => false) = true ∧
       (match acceptEntry s.mem { s.dev with free := s.dev.free + 1 } { e with addr := 0x7000 } with | .error (.status st) => decide (st = 3) | _ => false) = true ∧
       (let deep : Launch := { la 7 with depth := 24 }
        ((launchOf { s.dev with launches := [deep] } (some 7)).map fun l => l.depth).getD 0 + 1 = 25) ∧
       (let m : State := ⟨{ s.dev with mint := { Dev.reset.mint with queue := [(0, .launch 9)], next := 4 } }.updDie 0 fun x => { x with ntcfg := 2 }, []⟩
        m.Inv ∧ m.dev.mint.next % 2 ^ 32 ≠ 0 ∧ m.dev.entries.get? 9 = some e ∧ freeEntryFor m.mem m.dev 0 6 4 = some 0)) := by decide +kernel
theorem test_wit_Launches_place :
    (let x : Task := ⟨0, 7, 0, 2, 0, 0⟩
     let s : State := ⟨{ Dev.reset with args := [0], tasks := [x], launches := [la 7] }, []⟩
     s.dev.tasks = [x] ∧ launchOf s.dev (some 7) = some (la 7) ∧ (pickRows s.dev 0 (la 7).rows (2 ^ (fieldN (((la 7).words.getD 3 0) : D) 4 3 % 4)) false [] []).isSome ∧ dCost (la 7).w3 = false ∧ dDet (la 7).w3 = false ∧ dGroups (la 7).w3 = 1 ∧
       s.dev.cycle ≤ x.entry + fieldN (s.dev.die 0).age 31 0 ∧
       (let late : State := ⟨{ s.dev with cycle := 2 ^ 40 }, []⟩; x.entry + fieldN (late.dev.die 0).age 31 0 < late.dev.cycle)) ∧
    (let s : State := ⟨{ (withLaunch (la 7) th).dev with args := [rowKeyOf 0] }.updRow (rowKeyOf 0) fun r => { r with state := 1 }, []⟩
     launchOf s.dev (s.dev.row (rowKeyOf 0)).launch = some (la 7) ∧ (s.dev.row (rowKeyOf 0)).state = 1 ∧ canStart s.dev (rowCore (rowKeyOf 0) 3) = false ∧ (la 7).aux.getD 19 0 = 0 ∧
       (let t : State := ⟨((s.dev.updCore (rowCore (rowKeyOf 0) 1) fun c => { c with sab := 1 }).updCore (rowCore (rowKeyOf 0) 2) fun c => { c with sab := 1 }).updCore (rowCore (rowKeyOf 0) 3) fun c => { c with sab := 1 }, []⟩
        (∀ p, p < 4 → canStart t.dev (rowCore (rowKeyOf 0) p) = true) ∧ imageWaits t.mem t.dev (launchU (rowCore (rowKeyOf 0) 0) (la 7).ctx true) (la 7) = none ∧ t.dev.mint.stopped = false ∧ t.dev.costarts = [] ∧
          ∀ p, p < 4 → (t.dev.thread (rowCore (rowKeyOf 0) p * 16)).awaits .inbox = false)) ∧
    (let s : State := ⟨{ Dev.reset with args := [0] }.updRow 0 fun r => { r with state := 3, launch := some 7 }, []⟩
     (s.dev.row 0).state = 3 ∧ (s.dev.row 0).live = 0 ∧ (s.dev.row 0).engc = 0) ∧
    (let c : Costart := ⟨7, [(0, 0, [0]), (0, 1, [1])], 50, false, [], [], [⟨0, 7, 0, 2, 0, 0⟩]⟩
     let s : State := ⟨{ Dev.reset with args := [7], costarts := [c], launches := [la 7] }, []⟩
     s.dev.costarts = [c] ∧ launchOf s.dev (some c.launch) = some (la 7) ∧ s.dev.args = [c.launch.toNat] ∧ (∀ g ∈ c.groups, ∀ k ∈ g.2.2, (s.dev.row k).state = 0) ∧ (c.groups.flatMap fun g => g.2.2).Nodup) := by decide +kernel
theorem test_wit_Launches_complete :
    (let s : State := openTile ⟨{ Dev.reset with args := [7], launches := [{ la 7 with kills := some 0 }], threads := [(1, { th with st := .parked, wait := .launch 7, waitId := 4, held := [(3, th.gr 3)] })], arrs := [(4, ⟨1, [(.g 3, 0)], 0, false, none, [], false⟩)] }, []⟩
     s.Inv ∧ s.dev.args = [(7 : Q).toNat] ∧ launchOf s.dev (some 7) = some { la 7 with kills := some 0 } ∧ (la 7).acked = false ∧ (la 7).parent ≠ some 7 ∧ launchOver s.dev (la 7) = true ∧ ownedNames s.mem s.dev (la 7) = [] ∧
       (match unitWrite s.mem s.dev (launchU 0 (la 7).ctx false) noThread ((la 7).addr + 56) 8 (statusWord (la 7)).toNat with | .ok _ => true | .error _ => false) = true ∧
       (∃ r ∈ (withLaunch (la 7) th).dev.rows, r.2.launch = some 7) ∧ (la 7).xcnt < 2 ^ 16 ∧ (la 7).late < 2 ^ 15) := by decide +kernel

/-! ## Witnesses: grammar walks -/

/-- Offset `o` of the core's tile. -/
def tw (o : Nat) : D := ofN (tileBase + o)
def putW (m : Mem) (k x : Nat) : Mem := m.flush ((List.range 8).map fun i => (k + i, BitVec.ofNat 8 (x / 256 ^ i)))
/-- Vault 0.0 with words at tile offsets. -/
def gmem : List (Nat × Nat) → Mem
  | [] => []
  | x :: l => putW (gmem l) (vaultKey 0 x.1) x.2
theorem gmem_wf : ∀ l, Memory.wf (gmem l) = true
  | [] => rfl
  | _ :: l => Mem.wf_flush _ (gmem_wf l)
theorem gmem_byte (l : List (Nat × Nat)) (j : Nat) : (gmem l).read j =
    ((l.find? fun x => vaultKey 0 x.1 ≤ j ∧ j < vaultKey 0 x.1 + 8).map fun x => BitVec.ofNat 8 (x.2 / 256 ^ (j - vaultKey 0 x.1))).getD 0 := by
  induction l with
  | nil => rfl
  | cons x l ih =>
    rw [gmem, putW, read_flush (gmem_wf l), ih, List.find?_cons]
    by_cases h : vaultKey 0 x.1 ≤ j ∧ j < vaultKey 0 x.1 + 8
    · have : (List.range 8).find? ((fun y : Nat × Byte => decide (y.1 = j)) ∘ fun i => (vaultKey 0 x.1 + i, BitVec.ofNat 8 (x.2 / 256 ^ i))) = some (j - vaultKey 0 x.1) := by
        rw [List.find?_range_eq_some]
        exact ⟨by simp; omega, List.mem_range.mpr (by omega), fun i hi => by simp; omega⟩
      rw [List.find?_map, this]; simp [h]
    · have : (List.map (fun i => (vaultKey 0 x.1 + i, BitVec.ofNat 8 (x.2 / 256 ^ i))) (List.range 8)).find? (fun y : Nat × Byte => decide (y.1 = j)) = none := by
        rw [List.find?_eq_none]; intro y hy; simp only [List.mem_map, List.mem_range] at hy; obtain ⟨i, hi, rfl⟩ := hy; simp; omega
      rw [this]; simp [h]
/-- The words by the list alone. -/
def gByte (l : List (Nat × Nat)) (o : Nat) : Nat := ((l.find? fun x => x.1 ≤ o ∧ o < x.1 + 8).map fun x => x.2 / 256 ^ (o - x.1) % 256).getD 0
def gRead (l : List (Nat × Nat)) (o : Nat) : Nat → Nat
  | 0 => 0
  | n + 1 => gByte l o + 256 * gRead l (o + 1) n
theorem gmem_rdN {d : Dev} (h : d.wbuf = []) (c : d.wclear = []) (l : List (Nat × Nat)) : ∀ n o, rdN (gmem l) d (vaultKey 0 o) n = gRead l o n
  | 0, _ => rfl
  | n + 1, o => by
    have e : ∀ x : Nat × Nat, (vaultKey 0 x.1 ≤ vaultKey 0 o ∧ vaultKey 0 o < vaultKey 0 x.1 + 8) ↔ (x.1 ≤ o ∧ o < x.1 + 8) := by intro x; unfold vaultKey; omega
    have i := gmem_rdN h c l n (o + 1)
    rw [rdN, gRead, rdB_quiet h c, gmem_byte, show vaultKey 0 o + 1 = vaultKey 0 (o + 1) from by unfold vaultKey; omega, i]
    simp only [e, gByte]
    cases l.find? fun y => decide (y.1 ≤ o ∧ o < y.1 + 8) with
    | none => rfl
    | some x => simp [show vaultKey 0 o - vaultKey 0 x.1 = o - x.1 from by unfold vaultKey; omega]
theorem gmem_word {d : Dev} (h : d.wbuf = []) (c : d.wclear = []) {l : List (Nat × Nat)} {o x : Nat} (f : ∀ i, i < 8 → l.find? (fun y => y.1 ≤ o + i ∧ o + i < y.1 + 8) = some (o, x)) (hx : x < 2 ^ 64) :
    rdN (gmem l) d (vaultKey 0 o) 8 = x := by
  rw [gmem_rdN h c]
  simp only [gRead, gByte]
  rw [f 1 (by omega), f 2 (by omega), f 3 (by omega), f 4 (by omega), f 5 (by omega), f 6 (by omega), f 7 (by omega), show l.find? (fun y => y.1 ≤ o ∧ o < y.1 + 8) = some (o, x) from f 0 (by omega)]
  simp
  simp only [show o + 1 + 1 - o = 2 from by omega, show o + 1 + 1 + 1 - o = 3 from by omega, show o + 1 + 1 + 1 + 1 - o = 4 from by omega, show o + 1 + 1 + 1 + 1 + 1 - o = 5 from by omega,
    show o + 1 + 1 + 1 + 1 + 1 + 1 - o = 6 from by omega, show o + 1 + 1 + 1 + 1 + 1 + 1 + 1 - o = 7 from by omega]
  omega
theorem gmem_sound {l : List (Nat × Nat)} (h : ∀ x ∈ l, x.1 < 2 ^ 25) (k : Nat) : (gmem l).read (errKey k) = 0 := by
  rw [gmem_byte, List.find?_eq_none.mpr]
  · rfl
  · intro x hx; have := h x hx; simp; unfold vaultKey errKey; omega
def gtab (es : List GEntry) : Tbl (List GEntry) := es.foldr (fun e t => t.upd (gramSet e.rule e.op e.bind e.par) [] (e :: ·)) []
/-- A query of thread 1 at its walk: the words of tile 0.0, the entries of its table, the names its cache holds, and the command of
its first engine. -/
def gS (l : List (Nat × Nat)) (es : List GEntry) (names : List NcEntry) (q : GQuery) (cmd : Option ECmd := none) : State :=
  ⟨({ (mk { pth 0 with misses := 7 }).dev with args := [4, 0], gramQ := [(4, q)] }.updDie 0 fun x => { x with ntcfg := 2 }).updTile 0 fun tl =>
    { tl with ncache := [(0, names)], rrt := gtab es, access := [(52, 0x100000003), (56, 0x100000003)], engines := tl.engines.set! 0 ⟨0, cmd, none⟩ }, gmem l⟩
def gE (rule op bind par et : Nat) (z : GSum) : GEntry := ⟨0, rule, op, bind, par, et, false, z⟩
def gname (c seq : Nat) : Q := nameOf c Config.chipTag.toNat seq
def gN (n : Q) (o len : Nat) : NcEntry := ⟨n, 0, 0, tw o, ofN len⟩
def wordsAt (o : Nat) : List Nat → List (Nat × Nat)
  | [] => []
  | w :: ws => (o, w) :: wordsAt (o + 8) ws
def halvesOf (c : Q) : List Nat := [c.toNat % 2 ^ 64, c.toNat / 2 ^ 64]
/-- A record's 16 words. -/
def recAt (o kind et nch rt len w1 : Nat) (kids : List Q) : List (Nat × Nat) := wordsAt o (recordWord kind et nch rt len :: w1 :: kids.flatMap halvesOf ++ List.replicate (14 - 2 * kids.length) 0)
def gqq (k : GKind) (n : Q) : GQuery := gq k n none
theorem gS_alone {cmd : Option ECmd} (l : List (Nat × Nat)) (es : List GEntry) {names : List NcEntry} {q : GQuery} (c : q.core = 0) (h : names.length ≤ 4) : WalksAlone (gS l es names q cmd) 4 q := by
  refine ⟨rfl, ⟨gmem_wf l, rfl, rfl⟩, rfl, rfl, rfl, rfl, by rw [c]; decide, fun k => ?_⟩
  rw [c]
  show (Tbl.getD [(0, names)] k []).length ≤ 4
  simp only [Tbl.getD, Tbl.get?]
  split <;> simp_all
theorem gS_find {cmd : Option ECmd} (l : List (Nat × Nat)) (es : List GEntry) (names : List NcEntry) (q : GQuery) (n : Q) : ncFind (gS l es names q cmd).dev 0 n = names.find? fun e => e.name = n := by
  have : ncSet (gS l es names q cmd).dev (tileDie 0) n = 0 := by
    simp [ncSet, homeBucket, show tileDie 0 = 0 from rfl, (one_bucket (d := (gS l es names q cmd).dev) rfl).2, Nat.mod_one]
  rw [ncFind, this]; rfl
theorem gname_fields {c seq : Nat} (h : c < 64) (s : seq < 2 ^ 96) : nmClass (gname c seq) = c ∧ nmChip (gname c seq) = Config.chipTag.toNat ∧ nmSeq (gname c seq) = seq := nameOf_fields h Config.chipTag.isLt s
theorem gname_ne {a b c d : Nat} (h : a < 64 ∧ c < 64) (s : b < 2 ^ 96 ∧ d < 2 ^ 96) (n : b ≠ d) : gname a b ≠ gname c d := fun e =>
  n (by rw [← (gname_fields h.1 s.1).2.2, e, (gname_fields h.2 s.2).2.2])
/-- A tile without regions. -/
theorem no_region {t : Tile} (h : t.rga = Tile.reset.rga) (k : Nat) : regionAttr t k ≠ 2 := by
  have : regionEntry t k = none := by
    unfold regionEntry
    rw [List.find?_eq_none]
    intro e _
    simp only []
    have : (Tile.reset.rga).toArray.getD e 0 = 0 := by
      by_cases h : e < 16
      · interval_cases e <;> rfl
      · rw [Array.getD_eq_getD_getElem?, Array.getElem?_eq_none (by simpa using h)]; rfl
    rw [h, this, show fieldN (0 : D) 45 32 = 0 from by decide]; simp
  unfold regionAttr; rw [this]; simp
/-- A name of the cache, the first of the list. -/
theorem gS_cached {cmd : Option ECmd} {l : List (Nat × Nat)} {es : List GEntry} {names : List NcEntry} {q : GQuery} {n : Q} {o len : Nat} (c : q.core = 0) (k : nmChip n = Config.chipTag.toNat)
    (f : names.find? (fun e => e.name = n) = some (gN n o len)) : Cached (gS l es names q cmd) q n (tw o) (ofN len) :=
  ⟨k, gN n o len, by rw [c]; show ncFind _ 0 n = _; rw [gS_find, f], rfl, rfl⟩
theorem gS_plain {cmd : Option ECmd} {l : List (Nat × Nat)} {es : List GEntry} {names : List NcEntry} {q : GQuery} {o size x : Nat} (c : q.core = 0) (g : q.regions = []) (u : q.loc = 1) (b : ∀ x ∈ l, x.1 < 2 ^ 25) (h : o + size ≤ 0x1E00000) (hs : 1 ≤ size ∧ size ≤ 8) (r : gRead l o size = x) :
    Plain (gS l es names q cmd) 4 q (tw o) size x := by
  have n : (tw o).toNat = tileBase + o := by rw [tw, ofN, BitVec.toNat_ofNat]; unfold tileBase; omega
  have w : winCode (tw o) = 2 := by unfold winCode; rw [n]; unfold tileBase sliceBase dieBase; simp only []; rw [if_neg (by omega), if_neg (by omega), if_pos (by omega)]
  refine ⟨by rw [w]; decide, 0, o, ?_, ?_, ?_, ?_, gmem_sound b _, by rw [← r]; exact gmem_rdN rfl rfl l size o⟩
  · unfold vaultLoc; rw [c, w, n]; simp [show kindOf 0 ≠ 2 from by decide, show unitOf 0 = 0 from by decide]
  · rw [u]
    show protOk { pth 0 with misses := 7 } (0, o) size 0 = true
    have : pairPasses (Vector.toArray (pth 0).lpb |>.getD 0 0) (Vector.toArray (pth 0).lpl |>.getD 0 0) o size 0 = true := by
      rw [show Array.getD (Vector.toArray (pth 0).lpb) 0 0 = 7 from by decide, show Array.getD (Vector.toArray (pth 0).lpl) 0 0 = 0x20000000 from by decide]
      unfold pairPasses
      rw [show fieldN (0x20000000 : D) 31 3 = 0x4000000 from by decide, show fieldN (7 : D) 31 3 = 0 from by decide]
      simp [needsRd, needsWr]
      exact ⟨⟨by decide, by omega⟩, by decide⟩
    unfold protOk dieOff
    simp only [List.any_eq_true, Bool.and_eq_true, decide_eq_true_eq]
    exact ⟨by show o < 0x1E00000; omega, 0, by simp, by simpa using this⟩
  · rw [c, show ((gS l es names q cmd).dev.tile 0).access = [(52, 0x100000003), (56, 0x100000003)] from rfl]; decide
  · rw [g]; unfold compKey; rw [show vaultKey 0 o / 2 ^ 56 = 4 from by unfold vaultKey; omega]
    have : ∀ k, regionAttr ((gS l es names q cmd).dev.tile 0) k ≠ 2 := no_region (t := (gS l es names q cmd).dev.tile 0) rfl
    simp [tileAt, this]

/-- The list's words from `o` on are `ws`. -/
def Holds (l : List (Nat × Nat)) (o : Nat) (ws : List Nat) : Prop :=
  ∀ j i, j < ws.length → i < 8 → l.find? (fun y => y.1 ≤ o + 8 * j + i ∧ o + 8 * j + i < y.1 + 8) = some (o + 8 * j, ws.getD j 0)
theorem holds_here (r : List (Nat × Nat)) : ∀ (ws : List Nat) (o : Nat), Holds (wordsAt o ws ++ r) o ws
  | [], _ => fun _ _ h => absurd h (by simp)
  | w :: ws, o => by
    intro j i hj hi
    rw [wordsAt, List.cons_append, List.find?_cons]
    match j with
    | 0 => rw [show decide ((o, w).1 ≤ o + 8 * 0 + i ∧ o + 8 * 0 + i < (o, w).1 + 8) = true from by simp; omega]; rfl
    | j + 1 =>
      rw [show decide ((o, w).1 ≤ o + 8 * (j + 1) + i ∧ o + 8 * (j + 1) + i < (o, w).1 + 8) = false from by simp; omega]
      have := holds_here r ws (o + 8) j i (by simpa using hj) hi
      rw [show o + 8 * (j + 1) = o + 8 + 8 * j from by omega]
      exact this
theorem holds_skip {r : List (Nat × Nat)} {o : Nat} {ws : List Nat} (h : Holds r o ws) : ∀ (vs : List Nat) (p : Nat), o + 8 * ws.length ≤ p ∨ p + 8 * vs.length ≤ o → Holds (wordsAt p vs ++ r) o ws
  | [], _, _ => h
  | v :: vs, p, d => by
    intro j i hj hi
    simp only [List.length_cons] at d
    rw [wordsAt, List.cons_append, List.find?_cons, show decide ((p, v).1 ≤ o + 8 * j + i ∧ o + 8 * j + i < (p, v).1 + 8) = false from by simp; omega]
    exact holds_skip h vs (p + 8) (by omega) j i hj hi
theorem tw_add (o k : Nat) : tw o + ofN k = tw (o + k) := by unfold tw ofN; rw [← BitVec.ofNat_add, Nat.add_assoc]
theorem tw_nat {o : Nat} (h : o < 2 ^ 25) : (tw o).toNat = tileBase + o := by rw [tw, ofN, BitVec.toNat_ofNat]; unfold tileBase; omega
theorem win_tw {o : Nat} (h : o < 2 ^ 25) : winCode (tw o) = 2 := by
  unfold winCode; rw [tw_nat h]; unfold tileBase sliceBase dieBase; simp only []; rw [if_neg (by omega), if_neg (by omega), if_pos (by omega)]
theorem gRead_word {l : List (Nat × Nat)} {o x : Nat} (f : ∀ i, i < 8 → l.find? (fun y => y.1 ≤ o + i ∧ o + i < y.1 + 8) = some (o, x)) (hx : x < 2 ^ 64) : gRead l o 8 = x := by
  rw [← gmem_rdN (d := Dev.reset) rfl rfl]; exact gmem_word rfl rfl f hx
theorem gS_words {cmd : Option ECmd} {l : List (Nat × Nat)} {es : List GEntry} {names : List NcEntry} {q : GQuery} {o : Nat} {ws : List Nat} (c : q.core = 0) (g : q.regions = []) (u : q.loc = 1) (b : ∀ x ∈ l, x.1 < 2 ^ 25)
    (h : o + 8 * ws.length ≤ 0x1E00000) (H : Holds l o ws) (lt : ∀ x ∈ ws, x < 2 ^ 64) : Words (gS l es names q cmd) 4 q (tw o) ws := by
  intro j hj
  rw [tw_add]
  refine gS_plain c g u b (by omega) (by omega) (gRead_word (fun i hi => H j i hj hi) ?_)
  rw [List.getD_eq_getElem _ _ hj]; exact lt _ (List.getElem_mem hj)
/-- A rule of the cache whose record stands at `o`. -/
theorem gS_rule {cmd : Option ECmd} {l : List (Nat × Nat)} {es : List GEntry} {names : List NcEntry} {q : GQuery} {n : Q} {o x kind et rt len w1 : Nat} {kids : List Q} (c : q.core = 0) (g : q.regions = []) (u : q.loc = 1) (b : ∀ x ∈ l, x.1 < 2 ^ 25)
    (k : nmChip n = Config.chipTag.toNat) (f : names.find? (fun e => e.name = n) = some (gN n o x)) (a : o % 128 = 0) (h : o + 128 ≤ 0x1E00000) (hk : kids.length ≤ 7)
    (H : Holds l o (recordWord kind et kids.length rt len :: w1 :: kids.flatMap halvesOf ++ List.replicate (14 - 2 * kids.length) 0))
    (ok : WordOk kind et kids.length rt len) (w : w1 < 2 ^ 64) (rw0 : recordWord kind et kids.length rt len < 2 ^ 64) (ck : ∀ c ∈ kids, nmClass c = 1 ∧ nmChip c = Config.chipTag.toNat)
    (k0 : kind = 0 → w1 % elemBytes (if et = 8 then rt else et) = 0) (k2 : kind = 2 → 2 ≤ w1 ∧ w1 ≤ 2 ^ 32) : Rule (gS l es names q cmd) 4 q n kind et rt len w1 kids := by
  refine ⟨tw o, ofN x, gS_cached c k f, ?_, ok, gS_words c g u b (by simp; omega) H ?_, ck, fun e => ⟨w, k0 e⟩, k2⟩
  · rw [tw_nat (by omega)]; unfold tileBase; omega
  · intro y hy
    simp only [List.cons_append, List.mem_cons, List.mem_append, List.mem_flatMap, List.mem_replicate] at hy
    rcases hy with rfl | rfl | ⟨z, hz, hy⟩ | ⟨_, rfl⟩
    · exact rw0
    · exact w
    · have := z.isLt
      rcases hy with rfl | rfl | ⟨⟨⟩⟩ <;> omega
    · decide
theorem gS_has {cmd : Option ECmd} {l : List (Nat × Nat)} {es : List GEntry} {names : List NcEntry} {q : GQuery} (c : q.core = 0) {r op b p : Nat} {e : GEntry} :
    TableHas (gS l es names q cmd) q r op b p e ↔ ((gtab es).getD (gramSet r op b p) []).find? (fun x => x.is r op b p) = some e := by unfold TableHas; rw [c]; exact Iff.rfl
theorem gS_misses {cmd : Option ECmd} {l : List (Nat × Nat)} {es : List GEntry} {names : List NcEntry} {q : GQuery} (c : q.core = 0) {r op b p : Nat} (h : ((gtab es).getD (gramSet r op b p) []).find? (fun x => x.is r op b p) = none)
    (h0 : op = 0 → ((gtab es).getD (gramSet r 8 0 0) []).find? (fun x => x.is r 8 0 0) = none) : TableMisses (gS l es names q cmd) q r op b p :=
  ⟨fun _ he => (nomatch h.symm.trans ((gS_has c).mp he)), fun o _ he => (nomatch (h0 o).symm.trans ((gS_has c).mp he))⟩

abbrev r1 : Q := gname 1 10
abbrev k1 : Q := gname 1 11
abbrev k2 : Q := gname 1 12
abbrev ob1 : Q := gname 3 20
abbrev gv1 : Q := gname 2 30
theorem f1 : nmClass r1 = 1 ∧ nmChip r1 = Config.chipTag.toNat ∧ nmSeq r1 = 10 := gname_fields (by decide) (by decide)
theorem fk1 : nmClass k1 = 1 ∧ nmChip k1 = Config.chipTag.toNat ∧ nmSeq k1 = 11 := gname_fields (by decide) (by decide)
theorem fk2 : nmClass k2 = 1 ∧ nmChip k2 = Config.chipTag.toNat ∧ nmSeq k2 = 12 := gname_fields (by decide) (by decide)
theorem fo1 : nmClass ob1 = 3 ∧ nmChip ob1 = Config.chipTag.toNat ∧ nmSeq ob1 = 20 := gname_fields (by decide) (by decide)
theorem fg1 : nmClass gv1 = 2 ∧ nmChip gv1 = Config.chipTag.toNat ∧ nmSeq gv1 = 30 := gname_fields (by decide) (by decide)
theorem first_name (a : NcEntry) (l : List NcEntry) : (a :: l).find? (fun e => e.name = a.name) = some a := by simp
theorem next_name {a : NcEntry} {l : List NcEntry} {n : Q} (h : a.name ≠ n) : (a :: l).find? (fun e => e.name = n) = l.find? fun e => e.name = n := by simp [h]
/-- What the clauses of an evaluation ask of its state. -/
abbrev Evaluated (s : State) (q : GQuery) (op et rt len sop bias w1 kind : Nat) (kids : List Q) : Prop :=
  WalksAlone s 4 q ∧ q.kind = .ev op ∧ Viewed s 4 q r1 false sop bias len et rt ∧ Rule s 4 q r1 kind et rt len w1 kids ∧ TableMisses s q (nmSeq r1) op (q.keyBind op) (q.keyPar op) ∧
    (op = 10 → Cached s q q.bind (tw 0x800) (ofN 48))
/-- A leaf of three elements, two of them in one word. -/
def leafAt (et rt : Nat) : List (Nat × Nat) := recAt 0x400 0 et 0 rt 3 (tileBase + 0x600) [] ++ wordsAt 0x600 [1 + 0xFFFFFFFF * 2 ^ 32, 5] ++ wordsAt 0x800 [9, 9, 1, 2, 3, 4]
theorem gS_leaf {cmd : Option ECmd} {es : List GEntry} {names : List NcEntry} {q : GQuery} {et rt : Nat} (c : q.core = 0) (g : q.regions = []) (u : q.loc = 1) (h : (et, rt) ∈ [(0, 0), (1, 0), (8, 0)]) (f : names.find? (fun e => e.name = r1) = some (gN r1 0x400 0)) :
    Rule (gS (leafAt et rt) es names q cmd) 4 q r1 0 et rt 3 (tileBase + 0x600) [] := by
  refine gS_rule c g u ?_ f1.2.1 f (by decide) (by decide) (by decide) ?_ ?_ (by decide) ?_ (by simp) ?_ (by decide)
  all_goals simp only [List.mem_cons, Prod.mk.injEq, List.not_mem_nil, or_false] at h
  · rcases h with ⟨rfl, rfl⟩ | ⟨rfl, rfl⟩ | ⟨rfl, rfl⟩ <;> decide
  · rw [leafAt, List.append_assoc]; exact holds_here _ _ _
  · unfold WordOk; rcases h with ⟨rfl, rfl⟩ | ⟨rfl, rfl⟩ | ⟨rfl, rfl⟩ <;> decide
  · rcases h with ⟨rfl, rfl⟩ | ⟨rfl, rfl⟩ | ⟨rfl, rfl⟩ <;> decide
  · intro _; rcases h with ⟨rfl, rfl⟩ | ⟨rfl, rfl⟩ | ⟨rfl, rfl⟩ <;> decide
theorem test_wit_Walk_leaf (op : Nat) (h : op ≤ 9) :
    let q := gqq (.ev op) r1
    let s := gS (leafAt 0 0) [] [gN r1 0x400 0] q
    Evaluated s q op 0 0 3 0 0 (tileBase + 0x600) 0 [] ∧ (∀ k, k < 3 → Plain s 4 q (ofN (tileBase + 0x600 + 4 * k)) 4 ([1, 0xFFFFFFFF, 5].getD k 0)) ∧ LiftTakes 0 0 ∧ ¬LiftTakes 1 0 := by
  refine ⟨⟨gS_alone _ _ rfl (by decide), rfl, .inl ⟨f1.1, rfl, rfl⟩, gS_leaf rfl rfl rfl (by decide) (first_name (gN r1 0x400 0) _), ?_, fun e => absurd e (by omega)⟩, fun k hk => ?_, by simp [LiftTakes], by simp [LiftTakes]⟩
  · refine gS_misses rfl ?_ fun _ => ?_ <;> rfl
  · rw [show ofN (tileBase + 0x600 + 4 * k) = tw (0x600 + 4 * k) from by rw [tw, Nat.add_assoc]]
    refine gS_plain rfl rfl rfl (by decide) (by omega) (by decide) ?_
    match k, hk with
    | 0, _ | 1, _ | 2, _ => rfl
theorem dot_bind (q : GQuery) : q.keyBind 10 = nmSeq q.bind := by simp [GQuery.keyBind]
theorem dot_par (q : GQuery) : q.keyPar 10 = q.off % 2 ^ 64 := by simp [GQuery.keyPar]
/-- DOT of a leaf of rows, the bound vector's elements from its third on. -/
theorem test_wit_Walk_dot :
    let q := { gqq (.ev 10) r1 with bind := ob1, off := 2 }
    let s := fun et => gS (leafAt et 0) [] [gN r1 0x400 0, gN ob1 0x800 48] q
    (∀ et ∈ [0, 8], Evaluated (s et) q 10 et 0 3 0 0 (tileBase + 0x600) 0 []) ∧ LiftTakes 10 8 ∧ ¬LiftTakes 10 0 ∧ q.off + 3 ≤ (ofN 48).toNat / 8 ∧
      (∀ k, k < 3 → Plain (s 8) 4 q (ofN (tileBase + 0x600 + 4 * k)) 4 ([1, 0xFFFFFFFF, 5].getD k 0) ∧ Plain (s 8) 4 q (tw 0x800 + ofN (8 * (q.off + k))) 8 ([1, 2, 3].getD k 0)) := by
  refine ⟨fun et h => ⟨gS_alone _ _ rfl (by simp), rfl, .inl ⟨f1.1, rfl, rfl⟩, gS_leaf rfl rfl rfl (by simp at h ⊢; omega) (first_name (gN r1 0x400 0) _), ?_, fun _ => gS_cached rfl fo1.2.1 ?_⟩, by simp [LiftTakes], by simp [LiftTakes], by decide, fun k hk => ⟨?_, ?_⟩⟩
  · refine gS_misses rfl ?_ fun _ => ?_ <;> rfl
  · rw [next_name (gname_ne (by decide) (by decide) (by decide))]; exact first_name (gN ob1 0x800 48) _
  · rw [show ofN (tileBase + 0x600 + 4 * k) = tw (0x600 + 4 * k) from by rw [tw, Nat.add_assoc]]
    refine gS_plain rfl rfl rfl (by decide) (by omega) (by decide) ?_
    match k, hk with
    | 0, _ | 1, _ | 2, _ => rfl
  · rw [tw_add]
    refine gS_plain rfl rfl rfl (by decide) (by simp; omega) (by decide) ?_
    match k, hk with
    | 0, _ | 1, _ | 2, _ => rfl
def catAt (et len : Nat) : List (Nat × Nat) := recAt 0x400 1 et 2 0 len 0 [k1, k2] ++ []
/-- A CAT of two rules of the table, whose lengths add up to its own or do not; and its DOT at columns 2 and 5. -/
theorem test_wit_Walk_cat :
    (∀ e2 ∈ [gE 12 0 0 0 0 ⟨5, 6, 0, 0⟩, gE 12 0 0 0 0 ⟨4, 6, 0, 0⟩],
      let q := gqq (.ev 0) r1
      let s := gS (catAt 0 8) [gE 11 0 0 0 0 ⟨3, 4, 0, 0⟩, e2] [gN r1 0x400 0] q
      Evaluated s q 0 0 0 8 0 0 0 1 [k1, k2] ∧ k1 ≠ r1 ∧ k2 ≠ r1 ∧ TableHas s q (nmSeq k1) 0 0 0 (gE 11 0 0 0 0 ⟨3, 4, 0, 0⟩) ∧ TableHas s q (nmSeq k2) 0 0 0 e2) ∧
    (let q := { gqq (.ev 10) r1 with bind := ob1, off := 2 }
     let s := gS (catAt 8 8) [gE 11 10 20 2 8 ⟨3, 4, 0, 0⟩, gE 12 10 20 5 8 ⟨5, 7, 0, 0⟩] [gN r1 0x400 0, gN ob1 0x800 48] q
     Evaluated s q 10 8 0 8 0 0 0 1 [k1, k2] ∧ TableHas s q (nmSeq k1) 10 (q.keyBind 10) 2 (gE 11 10 20 2 8 ⟨3, 4, 0, 0⟩) ∧ TableHas s q (nmSeq k2) 10 (q.keyBind 10) ((q.off + 3) % 2 ^ 64) (gE 12 10 20 5 8 ⟨5, 7, 0, 0⟩)) ∧
    [3, 5].sum = 8 ∧ [3, 4].sum % 2 ^ 64 ≠ 8 := by
  have kid : ∀ c ∈ [k1, k2], nmClass c = 1 ∧ nmChip c = Config.chipTag.toNat := by
    intro c h; simp only [List.mem_cons, List.not_mem_nil, or_false] at h
    rcases h with rfl | rfl
    · exact ⟨fk1.1, fk1.2.1⟩
    · exact ⟨fk2.1, fk2.2.1⟩
  have rule : ∀ {es : List GEntry} {names : List NcEntry} {q : GQuery} {et : Nat}, q.core = 0 → q.regions = [] → q.loc = 1 → et = 0 ∨ et = 8 → Rule (gS (catAt et 8) es (gN r1 0x400 0 :: names) q) 4 q r1 1 et 0 8 0 [k1, k2] := by
    intro es names q et c g u h
    refine gS_rule c g u ?_ f1.2.1 (first_name (gN r1 0x400 0) _) (by decide) (by decide) (by decide) (holds_here _ _ _) ?_ (by decide) ?_ kid (fun e => absurd e (by decide)) (fun e => absurd e (by decide))
    · rcases h with rfl | rfl <;> decide
    · unfold WordOk; rcases h with rfl | rfl <;> decide
    · rcases h with rfl | rfl <;> decide
  refine ⟨fun e2 h => ?_, ?_, by decide, by decide⟩
  · refine ⟨⟨gS_alone _ _ rfl (by simp), rfl, .inl ⟨f1.1, rfl, rfl⟩, rule rfl rfl rfl (.inl rfl), ?_, fun e => absurd e (by decide)⟩, gname_ne (by decide) (by decide) (by decide), gname_ne (by decide) (by decide) (by decide), ?_, ?_⟩
    all_goals simp only [List.mem_cons, List.not_mem_nil, or_false] at h
    · rw [f1.2.2]; rcases h with rfl | rfl <;> exact gS_misses rfl (by decide) fun _ => by decide
    · rw [gS_has rfl, fk1.2.2]; rcases h with rfl | rfl <;> decide
    · rw [gS_has rfl, fk2.2.2]; rcases h with rfl | rfl <;> decide
  · refine ⟨⟨gS_alone _ _ rfl (by simp), rfl, .inl ⟨f1.1, rfl, rfl⟩, rule rfl rfl rfl (.inr rfl), ?_, fun _ => gS_cached rfl fo1.2.1 ?_⟩, ?_, ?_⟩
    · rw [f1.2.2, dot_bind, dot_par, fo1.2.2]; exact gS_misses rfl (by decide +kernel) fun h => absurd h (by decide)
    · rw [next_name (gname_ne (by decide) (by decide) (by decide))]; exact first_name (gN ob1 0x800 48) _
    · rw [gS_has rfl, fk1.2.2, dot_bind, fo1.2.2]; decide +kernel
    · rw [gS_has rfl, fk2.2.2, dot_bind, fo1.2.2]; decide +kernel
/-- An RPT of five, or of two under DOT. -/
theorem test_wit_Walk_rpt :
    (∀ e ∈ [gE 11 8 0 0 0 ⟨3, 4, 6, 0⟩, gE 11 8 0 0 0 ⟨4, 4, 6, 0⟩],
      let q := gqq (.ev 8) r1
      let s := gS (recAt 0x400 2 0 1 0 15 5 [k1] ++ []) [e] [gN r1 0x400 0] q
      Evaluated s q 8 0 0 15 0 0 5 2 [k1] ∧ k1 ≠ r1 ∧ TableHas s q (nmSeq k1) 8 0 0 e) ∧
    (let q := { gqq (.ev 10) r1 with bind := ob1, off := 2 }
     let s := gS (recAt 0x400 2 8 1 0 6 2 [k1] ++ []) [gE 11 10 20 2 8 ⟨3, 4, 0, 0⟩, gE 11 10 20 5 8 ⟨3, 7, 0, 0⟩] [gN r1 0x400 0, gN ob1 0x800 48] q
     Evaluated s q 10 8 0 6 0 0 2 2 [k1] ∧ TableHas s q (nmSeq k1) 10 (q.keyBind 10) ((q.off + 0 * 3) % 2 ^ 64) (gE 11 10 20 2 8 ⟨3, 4, 0, 0⟩) ∧ TableHas s q (nmSeq k1) 10 (q.keyBind 10) ((q.off + 1 * 3) % 2 ^ 64) (gE 11 10 20 5 8 ⟨3, 7, 0, 0⟩)) := by
  have kid : ∀ c ∈ [k1], nmClass c = 1 ∧ nmChip c = Config.chipTag.toNat := by
    intro c h; simp only [List.mem_cons, List.not_mem_nil, or_false] at h; subst h; exact ⟨fk1.1, fk1.2.1⟩
  refine ⟨fun e h => ?_, ?_⟩
  · simp only [List.mem_cons, List.not_mem_nil, or_false] at h
    refine ⟨⟨gS_alone _ _ rfl (by simp), rfl, .inl ⟨f1.1, rfl, rfl⟩, gS_rule rfl rfl rfl (by decide) f1.2.1 (first_name (gN r1 0x400 0) _) (by decide) (by decide) (by decide) (holds_here _ _ _) (by unfold WordOk; decide) (by decide) (by decide) kid (by decide) (by decide),
      ?_, fun e => absurd e (by decide)⟩, gname_ne (by decide) (by decide) (by decide), ?_⟩
    · rw [f1.2.2]; rcases h with rfl | rfl <;> exact gS_misses rfl (by decide) fun h => absurd h (by decide)
    · rw [gS_has rfl, fk1.2.2]; rcases h with rfl | rfl <;> decide
  · refine ⟨⟨gS_alone _ _ rfl (by simp), rfl, .inl ⟨f1.1, rfl, rfl⟩, gS_rule rfl rfl rfl (by decide) f1.2.1 (first_name (gN r1 0x400 0) _) (by decide) (by decide) (by decide) (holds_here _ _ _) (by unfold WordOk; decide) (by decide) (by decide) kid (by decide) (by decide),
      ?_, fun _ => gS_cached rfl fo1.2.1 ?_⟩, ?_, ?_⟩
    · rw [f1.2.2, dot_bind, dot_par, fo1.2.2]; exact gS_misses rfl (by decide +kernel) fun h => absurd h (by decide)
    · rw [next_name (gname_ne (by decide) (by decide) (by decide))]; exact first_name (gN ob1 0x800 48) _
    · rw [gS_has rfl, fk1.2.2, dot_bind, fo1.2.2]; decide +kernel
    · rw [gS_has rfl, fk1.2.2, dot_bind, fo1.2.2]; decide +kernel
theorem gS_info {cmd : Option ECmd} {l : List (Nat × Nat)} {es : List GEntry} {names : List NcEntry} {q : GQuery} {n : Q} {len et rt : Nat} (c : q.core = 0) (k : nmChip n = Config.chipTag.toNat)
    (h : ∀ x ∈ gtab es, ∀ e ∈ x.2, e.rule = nmSeq n → e.sum.len = len ∧ e.et = et ∧ (et = 8 → e.sum.s2 = rt))
    (r : (∃ x ∈ gtab es, ∃ e ∈ x.2, e.rule = nmSeq n) ∨ ∃ kind w1 kids, Rule (gS l es names q cmd) 4 q n kind et rt len w1 kids) : Info (gS l es names q cmd) 4 q n len et rt :=
  ⟨k, by rw [c]; exact h, by rw [c]; exact r⟩
/-- A GRAM record over the leaf r1: a plain view, or a scan. -/
def gramAt (et w2 bias total : Nat) : List (Nat × Nat) := wordsAt 0x500 [r1.toNat % 2 ^ 64, r1.toNat / 2 ^ 64, w2, bias, total, 0, 0, 0] ++ leafAt et 0
abbrev viewNames : List NcEntry := [gN gv1 0x500 0, gN r1 0x400 0]
theorem words_low : ∀ (ws : List Nat) (o : Nat), ∀ x ∈ wordsAt o ws, x.1 < o + 8 * ws.length
  | w :: ws, o, x, h => by
    rcases List.mem_cons.mp h with rfl | h
    · simp
    · have := words_low ws (o + 8) x h; simp only [List.length_cons]; omega
theorem view_low (et w2 bias total : Nat) : ∀ x ∈ gramAt et w2 bias total, x.1 < 2 ^ 25 := by
  intro x h
  simp only [gramAt, leafAt, recAt, List.mem_append] at h
  rcases h with h | (h | h) | h <;> have := words_low _ _ x h <;> simp at this <;> omega
theorem view_words {cmd : Option ECmd} {et w2 bias total : Nat} (hw : w2 < 2 ^ 64) (hb : bias < 2 ^ 64) (ht : total < 2 ^ 64) {es : List GEntry} {names : List NcEntry} {q : GQuery} (c : q.core = 0) (g : q.regions = []) (u : q.loc = 1) :
    Words (gS (gramAt et w2 bias total) es names q cmd) 4 q (tw 0x500) [r1.toNat % 2 ^ 64, r1.toNat / 2 ^ 64, w2, bias, total, 0, 0, 0] := by
  refine gS_words c g u (view_low _ _ _ _) (by simp) (holds_here _ _ _) ?_
  intro x hx
  have := r1.isLt
  generalize r1.toNat = n at *
  simp only [List.mem_cons, List.not_mem_nil, or_false] at hx
  omega
theorem view_leaf {cmd : Option ECmd} {et w2 bias total : Nat} (h : et ∈ [0, 8]) {es : List GEntry} {q : GQuery} (c : q.core = 0) (g : q.regions = []) (u : q.loc = 1) :
    Rule (gS (gramAt et w2 bias total) es viewNames q cmd) 4 q r1 0 et 0 3 (tileBase + 0x600) [] := by
  simp only [List.mem_cons, List.not_mem_nil, or_false] at h
  refine gS_rule c g u (view_low _ _ _ _) f1.2.1 ((next_name (gname_ne (by decide) (by decide) (by decide))).trans (first_name (gN r1 0x400 0) _)) (by decide) (by decide) (by decide) ?_ ?_ (by decide) ?_ (by simp) ?_ (by decide)
  · rw [gramAt, leafAt, List.append_assoc]; exact holds_skip (holds_here _ _ _) _ _ (by simp)
  · unfold WordOk; rcases h with rfl | rfl <;> decide
  · rcases h with rfl | rfl <;> decide
  · intro _; rcases h with rfl | rfl <;> decide
/-- What the clauses of an index or a prefix ask of a view; an element of the leaf. -/
theorem viewed {cmd : Option ECmd} {et w2 bias total : Nat} (scan : Bool) (h : et ∈ [0, 8]) (hw : w2 = (if scan then 2 ^ 60 else 0) + et * 2 ^ 56 + 0 * 2 ^ 51 + 3) (hs : scan = false → bias = 0 ∧ total = 0) (hb : bias < 2 ^ 64) (ht : total < 2 ^ 64)
    {es : List GEntry} {q : GQuery} (c : q.core = 0) (g : q.regions = []) (u : q.loc = 1) (n : q.name = gv1) (t : ∀ x ∈ gtab es, ∀ e ∈ x.2, e.rule = 10 → e.sum.len = 3 ∧ e.et = et ∧ (et = 8 → e.sum.s2 = 0)) :
    let s := gS (gramAt et w2 bias total) es viewNames q cmd
    WalksAlone s 4 q ∧ Viewed s 4 q r1 scan 0 bias 3 et 0 ∧ Info s 4 q r1 3 et 0 := by
  have info := gS_info (cmd := cmd) (l := gramAt et w2 bias total) (names := viewNames) c f1.2.1 (by rw [f1.2.2]; exact t) (.inr ⟨0, _, _, view_leaf h c g u⟩)
  have he : et ≤ 8 := by simp at h; omega
  have hl : w2 < 2 ^ 64 := by subst hw; split <;> omega
  refine ⟨gS_alone _ _ c (by simp), .inr ⟨n ▸ fg1.1, f1.1, info, by decide, he, tw 0x500, ofN 0, total, gS_cached c (n ▸ fg1.2.1) (n ▸ first_name (gN gv1 0x500 0) _), by rw [tw_nat (by decide)]; decide, hw ▸ view_words hl hb ht c g u, ?_⟩, info⟩
  cases scan
  · exact ⟨rfl, hs rfl⟩
  · exact Nat.zero_le _
theorem test_wit_Walk_view :
    (∀ k, k < 3 → Plain (gS (gramAt 0 (2 ^ 60 + 0 * 2 ^ 56 + 0 * 2 ^ 51 + 3) 100 77) [] viewNames { gqq .idx gv1 with par := 1 }) 4 { gqq .idx gv1 with par := 1 } (ofN (tileBase + 0x600 + 4 * k)) 4 ([1, 0xFFFFFFFF, 5].getD k 0)) ∧
    (∀ (scan : Bool) w2 bias total, let q := { gqq .idx gv1 with par := 2 }
      Descent (gS (gramAt 0 w2 bias total) [] viewNames q) 4 q 0 scan 0 0 64 [] r1 2 (tileBase + 0x600) 2 []) ∧
    (∀ w2, TableMisses (gS (gramAt 0 w2 0 0) [] viewNames (gqq (.ev 3) gv1)) (gqq (.ev 3) gv1) (nmSeq r1) 3 0 0) := by
  refine ⟨fun k hk => ?_, fun scan _ _ _ => .leaf (by simp) (view_leaf (by decide) rfl rfl rfl) (by decide), fun _ => gS_misses rfl rfl fun _ => rfl⟩
  rw [show ofN (tileBase + 0x600 + 4 * k) = tw (0x600 + 4 * k) from by rw [tw, Nat.add_assoc]]
  refine gS_plain rfl rfl rfl (view_low _ _ _ _) (by omega) (by decide) ?_
  match k, hk with
  | 0, _ | 1, _ | 2, _ => rfl
/-- Descents past the first child of a CAT of 5 and 3, and in the last repetition of an RPT; k1 is the leaf at 0x900. -/
def kidAt (kind len w1 : Nat) (kids : List Q) : List (Nat × Nat) := recAt 0x400 kind 0 kids.length 0 len w1 kids ++ (recAt 0x900 0 0 0 0 3 (tileBase + 0x600) [] ++ wordsAt 0x600 [1 + 0xFFFFFFFF * 2 ^ 32, 5])
abbrev kidNames : List NcEntry := [gN r1 0x400 0, gN k1 0x900 0]
theorem kid_leaf {es : List GEntry} {q : GQuery} {kind len w1 : Nat} {kids : List Q} (c : q.core = 0) (g : q.regions = []) (u : q.loc = 1) (b : ∀ x ∈ kidAt kind len w1 kids, x.1 < 2 ^ 25) (hk : kids.length ≤ 7) :
    Rule (gS (kidAt kind len w1 kids) es kidNames q) 4 q k1 0 0 0 3 (tileBase + 0x600) [] := by
  refine gS_rule c g u b fk1.2.1 ((next_name (gname_ne (by decide) (by decide) (by decide))).trans (first_name (gN k1 0x900 0) _)) (by decide) (by decide) (by decide) ?_ (by unfold WordOk; decide) (by decide) (by decide) (by simp) (fun _ => by decide) (by decide)
  exact holds_skip (holds_here _ _ _) _ _ (.inr (by simp [halvesOf]; omega))
theorem four_times : Repeated 0 4 ⟨3, 6, 0, 0⟩ ⟨12, 24, 0, 0⟩ := by
  rw [Repeated, show Nat.log2 4 = 2 from rfl]
  exact ⟨⟨6, 12, 0, 0⟩, ⟨rfl, rfl, rfl, rfl⟩, by rw [if_neg (by decide)]; exact ⟨⟨12, 24, 0, 0⟩, ⟨rfl, rfl, rfl, rfl⟩, by rw [if_neg (by decide)]; rfl⟩⟩
theorem kid_root {es : List GEntry} {q : GQuery} {kind len w1 : Nat} {kids : List Q} (c : q.core = 0) (g : q.regions = []) (u : q.loc = 1) (h : (kind, len, w1, kids) ∈ [(1, 8, 0, [k2, k1]), (2, 15, 5, [k1])]) :
    Rule (gS (kidAt kind len w1 kids) es kidNames q) 4 q r1 kind 0 0 len w1 kids := by
  have kid : ∀ c ∈ kids, nmClass c = 1 ∧ nmChip c = Config.chipTag.toNat := by
    simp only [List.mem_cons, Prod.mk.injEq, List.not_mem_nil, or_false] at h
    rcases h with ⟨rfl, rfl, rfl, rfl⟩ | ⟨rfl, rfl, rfl, rfl⟩ <;> intro c h <;> simp only [List.mem_cons, List.not_mem_nil, or_false] at h
    · rcases h with rfl | rfl
      · exact ⟨fk2.1, fk2.2.1⟩
      · exact ⟨fk1.1, fk1.2.1⟩
    · subst h; exact ⟨fk1.1, fk1.2.1⟩
  simp only [List.mem_cons, Prod.mk.injEq, List.not_mem_nil, or_false] at h
  rcases h with ⟨rfl, rfl, rfl, rfl⟩ | ⟨rfl, rfl, rfl, rfl⟩ <;>
    exact gS_rule c g u (by decide) f1.2.1 (first_name (gN r1 0x400 0) _) (by decide) (by decide) (by decide) (holds_here _ _ _) (by unfold WordOk; decide) (by decide) (by decide) kid (by decide) (by decide)
theorem test_wit_Walk_descent (scan : Bool) :
    (let q := { gqq (if scan then .pfx else .idx) r1 with par := 6 }
     let s := gS (kidAt 1 8 0 [k2, k1]) [gE 12 0 0 0 0 ⟨5, 6, 0, 0⟩] kidNames q
     WalksAlone s 4 q ∧ Info s 4 q r1 8 0 0 ∧ Descent s 4 q 0 scan 0 0 64 [] r1 6 (tileBase + 0x600) 1 ((if scan then [6] else []) ++ [])) ∧
    (let q := { gqq (if scan then .pfx else .idx) r1 with par := 14 }
     let s := gS (kidAt 2 15 5 [k1]) [gE 11 0 0 0 0 ⟨3, 6, 0, 0⟩] kidNames q
     WalksAlone s 4 q ∧ Info s 4 q r1 15 0 0 ∧ Descent s 4 q 0 scan 0 0 64 [] r1 14 (tileBase + 0x600) 2 ((if scan then [24] else []) ++ [])) := by
  refine ⟨⟨gS_alone _ _ rfl (by simp), gS_info rfl f1.2.1 (by rw [f1.2.2]; decide) (.inr ⟨1, _, _, kid_root rfl rfl rfl (by simp)⟩), ?_⟩,
    gS_alone _ _ rfl (by simp), gS_info rfl f1.2.1 (by rw [f1.2.2]; decide) (.inr ⟨2, _, _, kid_root rfl rfl rfl (by simp)⟩), ?_⟩
  · refine .cat (lens := [5, 3]) (j := 1) (by simp) (kid_root rfl rfl rfl (by simp)) rfl (fun m hm => ?_) rfl (by simp) (by simp) (by simp) ?_ (.leaf ?_ (kid_leaf rfl rfl rfl (by decide) (by decide)) (by decide))
    · match m, hm with
      | 0, _ => exact gS_info rfl fk2.2.1 (by rw [show [k2, k1].getD 0 0 = k2 from rfl, fk2.2.2]; decide) (.inl (by rw [show [k2, k1].getD 0 0 = k2 from rfl, fk2.2.2]; decide))
      | 1, _ => exact gS_info rfl fk1.2.1 (by rw [show [k2, k1].getD 1 0 = k1 from rfl, fk1.2.2]; decide) (.inr ⟨0, _, _, kid_leaf rfl rfl rfl (by decide) (by decide)⟩)
    · cases scan
      · rfl
      · refine ⟨rfl, fun m hm => ?_⟩
        match m, hm with
        | 0, _ => exact ⟨by simpa using gname_ne (by decide) (by decide) (by decide), gE 12 0 0 0 0 ⟨5, 6, 0, 0⟩, by rw [gS_has rfl, show [k2, k1].getD 0 0 = k2 from rfl, fk2.2.2]; decide, rfl⟩
    · simpa using gname_ne (by decide) (by decide) (by decide)
  · refine .rpt (l := 3) (by simp) (kid_root rfl rfl rfl (by simp)) (gS_info rfl fk1.2.1 (by rw [fk1.2.2]; decide) (.inl (by rw [fk1.2.2]; decide))) (by decide) (by decide) ?_ (.leaf ?_ (kid_leaf rfl rfl rfl (by decide) (by decide)) (by decide))
    · cases scan
      · rfl
      · exact ⟨by simpa using gname_ne (by decide) (by decide) (by decide), gE 11 0 0 0 0 ⟨3, 6, 0, 0⟩, ⟨12, 24, 0, 0⟩, by rw [gS_has rfl, fk1.2.2]; decide, four_times, rfl⟩
    · simpa using gname_ne (by decide) (by decide) (by decide)
theorem view_w2 {et w2 : Nat} (hw : w2 < 2 ^ 64) {es : List GEntry} {names : List NcEntry} {q : GQuery} (c : q.core = 0) (g : q.regions = []) (u : q.loc = 1) : Plain (gS (gramAt et w2 100 77) es names q) 4 q (tw 0x500 + 16) 8 w2 :=
  view_words hw (by decide) (by decide) c g u 2 (by simp)
/-- GLEN and GNEW read word 0 of the rule, GLEN of a GRAM its word 2; GSCN, its total in the table or its elements rows. -/
theorem test_wit_Walk_record :
    (∀ k ∈ [GKind.len, .new], let q := gqq k r1
      let s := gS (leafAt 0 0) [] [gN r1 0x400 0] q
      WalksAlone s 4 q ∧ nmClass q.name = 1 ∧ Cached s q q.name (tw 0x400) (ofN 0) ∧ (tw 0x400).toNat % 128 = 0 ∧ WordOk 0 0 0 0 3 ∧ Plain s 4 q (tw 0x400) 8 (recordWord 0 0 0 0 3)) ∧
    (let q := gqq .len gv1
     let s := gS (gramAt 0 (1 * 2 ^ 60 + 0 * 2 ^ 56 + 0 * 2 ^ 51 + 3) 100 77) [] viewNames q
     WalksAlone s 4 q ∧ nmClass q.name = 2 ∧ Cached s q q.name (tw 0x500) (ofN 0) ∧ (tw 0x500).toNat % 64 = 0 ∧ Plain s 4 q (tw 0x500 + 16) 8 (1 * 2 ^ 60 + 0 * 2 ^ 56 + 0 * 2 ^ 51 + 3)) ∧
    (let q := gqq .scn r1
     let s := gS (leafAt 0 0) [gE 10 0 0 0 0 ⟨3, 77, 0, 0⟩] [gN r1 0x400 0] q
     WalksAlone s 4 q ∧ Viewed s 4 q r1 false 0 0 3 0 0 ∧ Info s 4 q r1 3 0 0 ∧ TableHas s q (nmSeq r1) 0 0 0 (gE 10 0 0 0 0 ⟨3, 77, 0, 0⟩)) ∧
    (∀ k ∈ [GKind.scn, .pfx], let q := gqq k r1
      let s := gS (leafAt 8 0) [] [gN r1 0x400 0] q
      WalksAlone s 4 q ∧ Viewed s 4 q r1 false 0 0 3 8 0 ∧ Info s 4 q r1 3 8 0) := by
  refine ⟨fun k h => ⟨gS_alone _ _ rfl (by simp), f1.1, gS_cached rfl f1.2.1 (first_name (gN r1 0x400 0) _), by rw [tw_nat (by decide)]; decide, by unfold WordOk; decide, gS_plain rfl rfl rfl (by decide) (by decide) (by decide) rfl⟩,
    ⟨gS_alone _ _ rfl (by simp), fg1.1, gS_cached rfl fg1.2.1 (first_name (gN gv1 0x500 0) _), by rw [tw_nat (by decide)]; decide, ?_⟩,
    ⟨gS_alone _ _ rfl (by simp), .inl ⟨f1.1, rfl, rfl⟩, gS_info rfl f1.2.1 (by rw [f1.2.2]; decide) (.inl (by rw [f1.2.2]; decide)), by rw [gS_has rfl, f1.2.2]; decide⟩,
    fun k h => ⟨gS_alone _ _ rfl (by simp), .inl ⟨f1.1, rfl, rfl⟩, gS_info rfl f1.2.1 (by rw [f1.2.2]; decide) (.inr ⟨0, _, _, gS_leaf rfl rfl rfl (by decide) (first_name (gN r1 0x400 0) _)⟩)⟩⟩
  exact view_w2 (by norm_num) rfl rfl rfl
/-- GMV over two rows of the table, or one and a name that is no rule's. -/
def mvQ : GQuery := { gqq .mv ob1 with area := tw 0x700 }
theorem mvQ_name : mvQ.name = ob1 := rfl
def mvAt (a n : Q) : List (Nat × Nat) := wordsAt 0x700 [tileBase + 0x780, 2, tileBase + 0x7C0, 4, 9, 0, 0, 0] ++ (wordsAt 0x780 (halvesOf a ++ halvesOf n) ++ [])
theorem mv_good (a n : Q) (ha : nmSeq a = 10) (es : List GEntry) (hk : gtab es = gtab [gE 10 10 20 4 8 ⟨3, 77, 0, 0⟩] ∨ gtab es = gtab [gE 10 10 20 4 8 ⟨3, 77, 0, 0⟩, gE 11 10 20 4 8 ⟨3, 78, 0, 0⟩]) :
    let q := mvQ
    let s := gS (mvAt a n) es [] q
    WalksAlone s 4 q ∧ Words s 4 q q.area [tileBase + 0x780, 2, tileBase + 0x7C0, 4, 9, 0, 0, 0] ∧ (∀ r, r < 2 → Words s 4 q (ofN (tileBase + 0x780 + 16 * r)) (halvesOf ([a, n].getD r 0))) ∧
      TableHas s q (nmSeq a) 10 (nmSeq q.name) 4 (gE 10 10 20 4 8 ⟨3, 77, 0, 0⟩) := by
  have low : ∀ x ∈ mvAt a n, x.1 < 2 ^ 25 := by
    intro x h
    simp only [mvAt, List.append_nil, List.mem_append] at h
    rcases h with h | h <;> have := words_low _ _ x h <;> simp [halvesOf] at this <;> omega
  have lt : ∀ c : Q, ∀ x ∈ halvesOf c, x < 2 ^ 64 := by
    intro c x h; have := c.isLt; generalize hc : c.toNat = k at *; simp only [halvesOf, hc, List.mem_cons, List.not_mem_nil, or_false] at h; omega
  have H : Holds (mvAt a n) 0x780 (halvesOf a ++ halvesOf n) := holds_skip (holds_here _ _ _) _ _ (.inr (by simp))
  refine ⟨gS_alone _ _ rfl (by simp), gS_words rfl rfl rfl low (by decide) (holds_here _ _ _) (by decide), fun r hr => ?_, ?_⟩
  · rw [show ofN (tileBase + 0x780 + 16 * r) = tw (0x780 + 16 * r) from by rw [tw, Nat.add_assoc]]
    have hl : (halvesOf ([a, n].getD r 0)).length = 2 := rfl
    refine gS_words rfl rfl rfl low (by rw [hl]; omega) ?_ (lt _)
    intro j i hj hi
    rw [hl] at hj
    have := H (2 * r + j) i (by simp [halvesOf]; omega) hi
    rw [show 0x780 + 16 * r + 8 * j = 0x780 + 8 * (2 * r + j) from by omega, this]
    match r, j, hr, hj with
    | 0, 0, _, _ | 0, 1, _, _ | 1, 0, _, _ | 1, 1, _, _ => rfl
  · rw [gS_has rfl, ha, mvQ_name, fo1.2.2]; rcases hk with h | h <;> rw [h] <;> decide +kernel
theorem test_wit_Walk_mv :
    (let q := mvQ
     TableHas (gS (mvAt r1 k1) [gE 10 10 20 4 8 ⟨3, 77, 0, 0⟩, gE 11 10 20 4 8 ⟨3, 78, 0, 0⟩] [] q) q (nmSeq k1) 10 (nmSeq q.name) 4 (gE 11 10 20 4 8 ⟨3, 78, 0, 0⟩)) ∧ nmClass ob1 ≠ 1 ∧ (tileBase + 0x780) % 16 = 0 ∧ (tileBase + 0x7C0) % 8 = 0 := by
  refine ⟨by rw [gS_has rfl, fk1.2.2, mvQ_name, fo1.2.2]; decide +kernel, by rw [fo1.1]; decide, by decide, by decide⟩
/-- A walk's end: each answer with an arrival that stands, and the journal free. -/
def endS (q : GQuery) (ds : List Dst) (f : Option DFault) : State :=
  ⟨{ (mk (pth 0)).dev with args := [4, 1], gramQ := [(4, q)], arrs := [(4, ⟨1, ds.map fun x => (x, 0), 0, false, f, [], true⟩)] }.updTile 0 fun tl => { tl with access := [(0, 0x100000003), (56, 0x100000003)] }, []⟩
def areaQ (o : GOut) : GQuery := { gqq .mv ob1 with out := some o, area := tw 0x700, parts := (List.range 8).map fun k => mkPart (tw (0x700 + 8 * k)) 8 k 0 (.vault 0 (0x700 + 8 * k)) }
def pageQ0 (o : GOut) : GQuery := { areaQ o with area := 0x100040, parts := pq.parts }
theorem here0 (o : GOut) (k : Nat) (h : k < 0x1000) : StoreHere (endS (areaQ o) [.g 3] none) 4 (areaQ o) (tw (8 * k)) (8 * k) := by
  have e := tw_nat (o := 8 * k) (by omega)
  have w : winCode (tw (8 * k)) = 2 := by unfold winCode; rw [e]; unfold tileBase sliceBase dieBase; simp only []; rw [if_neg (by omega), if_neg (by omega), if_pos (by omega)]
  have u : unitOf (areaQ o).core = 0 := by show unitOf 0 = 0; decide
  have m : masterOf (areaQ o).core = 0 := by show masterOf 0 = 0; decide
  refine ⟨⟨by show kindOf 0 ≠ 2; decide, ?_, by omega⟩, ?_, by rw [u, m]; show grants (Tbl.getD [(0, 0x100000003), (56, 0x100000003)] 0 0) 0 true = true; decide, ⟨by rw [u]; rfl, rfl⟩, (fun _ h => nomatch h), (fun _ h => nomatch h), fun r h _ => ?_, (fun _ h => nomatch h), by rw [u]; rfl⟩
  · rw [u]
    show vaultLoc 0 _ = _
    unfold vaultLoc; rw [w, e]; simp [show kindOf 0 ≠ 2 from by decide, show unitOf 0 = 0 from by decide]
  · rw [u]
    show regionAttr { Tile.reset with access := [(0, 0x100000003), (56, 0x100000003)] } (8 * k) ≠ 2
    exact no_region rfl (8 * k)
  · cases h with
    | head => rfl
    | tail _ h => cases h
theorem test_wit_Walk_end :
    (∀ o, ∀ q ∈ [areaQ o, pageQ0 o], let s := endS q [.g 3] none
      s.dev.args = [4, 1] ∧ s.dev.gramQ.get? 4 = some q ∧ s.dev.arrs.get? 4 = some ⟨1, [Dst.g 3].map fun x => (x, 0), 0, false, none, [], true⟩ ∧ queryStoring s.dev 4 1 = false ∧ s.Inv ∧
      q.core = coreOf q.loc ∧ q.loc = 1 ∧ q.parts.length = 8) ∧
    (List.range 32).countP (fun e => ((Dev.reset.core 0).journal.get? e).isNone) = 32 ∧ (∀ p ∈ pq.parts, p.place ≠ none ∧ p.size = 8) ∧
    (∀ p ∈ (areaQ (.g 0)).parts, p.place = none ∧ p.size = 8) ∧ (∀ k, k < 8 → ((areaQ (.g 0)).parts.getD k ⟨0, 0, 0, 0, none, 0, 0⟩).va = tw (8 * (0xE0 + k))) ∧
    (let s := endS (areaQ (.rows (tw 0x7C0) [77] 0 none)) [.g 3] none
     rowPart s.mem { s.dev with wbuf := [], wclear := [] } 4 (areaQ (.rows (tw 0x7C0) [77] 0 none)) (tw 0x7C0 + ofN (8 * 0)) 77 = .ok ⟨tw 0x7C0, 8, 0, 77, none, 0, 0⟩) ∧
    (let s := endS (areaQ (.rows (tw 0x7C0) [] 1 none)) [.g 3] (some ⟨0x10000, 0x0C, 0, 9, false⟩)
     ∃ a, s.dev.arrs.get? 4 = some a ∧ a.fault = some ⟨0x10000, 0x0C, 0, 9, false⟩ ∧ queryStoring s.dev 4 1 = false) := by
  refine ⟨fun o q h => ?_, by decide, by decide, by decide, by decide, by decide +kernel, _, rfl, rfl, rfl⟩
  simp only [List.mem_cons, List.not_mem_nil, or_false] at h
  rcases h with rfl | rfl <;> exact ⟨rfl, rfl, rfl, rfl, ⟨rfl, rfl, rfl⟩, (by decide : 0 = coreOf 1), rfl, rfl⟩
theorem test_wit_GrammarResults_lookups :
    (let q := { gqq (.ev 10) r1 with bind := ob1, off := 2 }
     let s := gS [] [gE 10 10 20 2 8 ⟨3, 4, 0, 0⟩] [] q
     s.dev.args = [4, 0] ∧ s.dev.gramQ.get? 4 = some q ∧ TableHas s q (nmSeq q.name) 10 (q.keyBind 10) (q.keyPar 10) (gE 10 10 20 2 8 ⟨3, 4, 0, 0⟩)) ∧
    (let q := gqq (.ev 0) r1
     let s := gS [] [gE 10 8 0 0 0 ⟨3, 4, 5, 0⟩] [] q
     WalksAlone s 4 q ∧ (∀ x, ¬TableHas s q (nmSeq q.name) 0 0 0 x) ∧ TableHas s q (nmSeq q.name) 8 0 0 (gE 10 8 0 0 0 ⟨3, 4, 5, 0⟩)) := by
  refine ⟨⟨rfl, rfl, ?_⟩, gS_alone _ _ rfl (by simp), fun x h => ?_, ?_⟩
  · rw [show ({ gqq (.ev 10) r1 with bind := ob1, off := 2 } : GQuery).name = r1 from rfl, gS_has rfl, f1.2.2, dot_bind, dot_par, fo1.2.2]; decide +kernel
  · rw [show (gqq (.ev 0) r1).name = r1 from rfl, gS_has rfl, f1.2.2] at h; exact nomatch (show none = some x from h)
  · rw [show (gqq (.ev 0) r1).name = r1 from rfl, gS_has rfl, f1.2.2]; decide
/-- GCMB: types that a lift takes, floating-point and ROW among them, and types that it does not. -/
theorem test_wit_GrammarResults_combine :
    (∀ e ∈ [0, 3, 8], (mk (gth (sum4 1 2 e 0) (sum4 3 4 e 0))).vectorReady [1, 2] [sum4 1 2 e 0, sum4 3 4 e 0] 0 (BitVec.allOnes 64) ∧ laneOf 64 (sum4 1 2 e 0) 2 = e ∧ laneOf 64 (sum4 3 4 e 0) 2 = e) ∧
    LiftTakes 1 3 ∧ LiftTakes 2 3 ∧ LiftTakes 3 0 ∧ LiftTakes 4 0 ∧ LiftTakes 5 0 ∧ LiftTakes 6 0 ∧ LiftTakes 7 3 ∧ 3 ≤ 7 ∧ ¬LiftTakes 0 8 ∧ ¬LiftTakes 1 0 :=
  ⟨by decide +kernel, by simp [LiftTakes], by simp [LiftTakes], by simp [LiftTakes], by simp [LiftTakes], by simp [LiftTakes], by simp [LiftTakes], by simp [LiftTakes], by decide, by simp [LiftTakes], by simp [LiftTakes]⟩

/-- Waits of a REAP, a TEND and a row's end for an entry in a locked granule; a TEND with a load out. -/
theorem test_wit_Threads_held :
    (let s : State := ⟨((copying 0 (mk0 threadArgs).dev).updDie 0 fun x => { x with ntcfg := 2 }).updCore 0 fun c => { c with exits := [(3, ⟨9, 5, 0x20⟩)] }, []⟩
     (s.start.readGs [1]).isSome ∧ ((s.dev.core 0).exits.get? 3).isSome ∧ tableHeld s.dev (dieOf 0) 9 = true ∧ tableHeld (mk0 threadArgs).dev (dieOf 0) 9 = false) ∧
    (let s : State := ⟨(copying 0 (mk0 threadArgs).dev).updDie 0 fun x => { x with ntcfg := 2 }, []⟩
     s.quiet ∧ (∀ x ∈ s.dev.arrs, x.2.loc ≠ 0) ∧ (∀ x ∈ s.dev.nameQ, x.2.loc ≠ 0) ∧ endHeld s.dev 0 = true ∧ endHeld (mk0 threadArgs).dev 0 = false ∧ ((mk0 threadArgs).dev.tile 0).array.holder ≠ some (lessee (mk0 threadArgs).dev 0)) ∧
    waitsForPage (⟨{ (mk th).dev with arrs := [(4, ⟨1, [(.g 3, 0)], 0, false, none, [], false⟩)] }, []⟩ : State).dev 1 = false ∧
    (let d := ((copying 0 { Dev.reset with args := [0] }).updDie 0 fun x => { x with ntcfg := 2 }).updRow 0 fun r => { r with state := 3, launch := some 7 }
     let d := d.updCore (rowCore 0 3) fun c => { c with exits := [(3, ⟨9, 5, 0x20⟩)] }
     (d.row 0).state = 3 ∧ (d.row 0).live = 0 ∧ (d.row 0).engc = 0 ∧ 3 < 4 ∧ ∃ x ∈ (d.core (rowCore 0 3)).exits, tableHeld d (tileDie (0 / 12)) x.2.name = true) ∧
    (let d := { Dev.reset with args := [0] }.updRow 0 fun r => { r with state := 3, launch := some 7 }
     ¬∃ p, p < 4 ∧ ∃ x ∈ (d.core (rowCore 0 p)).exits, tableHeld d (tileDie (0 / 12)) x.2.name = true) := by
  refine ⟨by decide +kernel, by decide +kernel, by decide +kernel, ?_, fun ⟨p, h, x, m, _⟩ => ?_⟩
  · decide +kernel
  · have e : ∀ p ∈ List.range 4, (({ Dev.reset with args := [0] }.updRow 0 fun r => { r with state := 3, launch := some 7 } : Dev).core (rowCore 0 p)).exits = [] := by decide +kernel
    rw [e p (List.mem_range.mpr h)] at m; cases m
/-- AMSG with the order of a repost, and a full inbox behind it; WDQ in a DET row, behind an older store to its answer or a query of its lane. -/
theorem test_wit_TaskInstructions_waits :
    (let e : JEntry := { je with kind := .amsg, req := 5, refused := none, addr := 0, msg := [1, 2, 3, 4, 0, 0], orig := none, again := true }
     let s : State := ⟨{ (withLaunch (la 7) th).dev with args := [0, 31, 5, 20] }.updCore 0 fun c => { c with journal := [(31, e)] }, []⟩
     e.order = 5 ∧ unreleased s.dev 5 e.loc e.order (!e.again) = false ∧ (s.dev.core 0).spill = [] ∧ (s.dev.row (rowKeyOf 0)).gang = false) ∧
    (let s : State := ⟨{ (withLaunch (la 7) th).dev with args := [6], reqs := [(5, rq .st), (6, rq (.ld false))] }, []⟩
     s.dev.args = [6] ∧ (s.dev.reqs.get? 6).isSome ∧ answerBusy s.dev 6 (rq (.ld false)) = true) ∧
    (let s : State := ⟨{ (withLaunch (la 7) th).dev with args := [6], reqs := [(5, { rq .st with parts := [] }), (6, { rq .st with parts := [] })], events := [⟨9, .distributorQuery, [5]⟩] }.updRow (rowKeyOf 0) fun r => { r with det := true }, []⟩
     s.dev.args = [6] ∧ (s.dev.reqs.get? 6).isSome ∧ laneAsks s.dev 6 1 = true ∧ (s.dev.row (rowKeyOf 0)).det = true) ∧
    (let s : State := ⟨{ (withLaunch (la 7) th).dev with args := [5], reqs := [(5, rq (.ld false))] }, []⟩
     answerBusy s.dev 5 (rq (.ld false)) = false ∧ laneAsks s.dev 5 1 = false) := by decide +kernel

/-! ## Witnesses: the array and the engines -/

/-- The tile's array after a change. -/
def withArray (s : State) (f : MArray → MArray) : State := ⟨s.dev.updTile 0 fun tl => { tl with array := f tl.array }, s.mem⟩
def mth : Thread := setG th [(1, 3), (2, 1), (3, 9)]
def mc (cmd : Nat) : MCmd := { id := 7, loc := 1, cmd := cmd, tag := 2, bank := 3, fmt := 1, regs := Vector.replicate 8 0, lpb := Vector.replicate 8 0, lpl := (Vector.replicate 8 0).set 0 0x20000000, rga := Vector.replicate 16 0, rgb := Vector.replicate 16 0, batch := 4, idx := 0, acc := 0 }
def mb (closed post : Bool) : MBatch := { loc := 1, thread := 5, closed := closed, tag := if closed then some 255 else none, cmds := 2, left := 1, refused := 0, first := none, busy := 8, wrote := 8, post := post, cookie := 11, order := 6 }
theorem test_wit_MatrixCommands_lease :
    ((mk mth).ready ∧ (mk mth).unitCore ∧ ((mk mth).start.readGs [1]).isSome ∧ (mk mth).canTrap) ∧
    ((withArray (mk mth) fun a => { a with holder := some 1 }).array 0).holder = some 1 ∧
    (let s := withArray (mk mth) fun a => { a with holder := some 2, waiters := [(1, 3)] }
     (s.array s.tile).holder ≠ some s.dev.cur ∧ (s.array s.tile).waiters.find? (fun w => w.1 = s.dev.cur) = some (1, 3) ∧ s.dev.cycle < 3 ∧ (let t : State := ⟨{ s.dev with cycle := 3 }, []⟩; 3 ≤ t.dev.cycle ∧ t.canTrap)) ∧
    (((mk mth).array 0).holder = none ∧ ((mk mth).array 0).waiters = []) ∧
    (((withArray (mk mth) fun a => { a with pending := [(2, 4)] }).array 0).pending.get? 2 = some 4 ∧ ((mk mth).array 0).pending.get? 2 = none) ∧
    (let s := withArray (mk mth) fun a => { a with holder := some 1, waiters := [(2, 9)], opened := [(1, 4)], batches := [(4, mb false false)] }
     (s.array s.tile).holder = some s.dev.cur ∧ (s.array s.tile).opened.get? s.dev.cur = some 4 ∧ (s.array s.tile).batches.get? 4 = some (mb false false) ∧ (s.array s.tile).waiters = [(2, 9)] ∧ s.dev.cycle < 9) := by decide
theorem test_wit_MatrixCommands_queue :
    (mxOf (.mxp 1 2 false false 7)).isSome ∧ ((mk mth).start.readGs [1, 2]).isSome ∧ 16 ≤ ((withArray (mk mth) fun a => { a with holder := some 1, queue := List.replicate 16 (mc 2) }).array 0).queue.length ∧
    ((withArray (mk mth) fun a => { a with holder := some 1 }).array 0).queue.length < 16 ∧
    (let s : State := ⟨{ (withArray (mk mth) fun a => { a with holder := some 1, run := 5, waiters := [(2, 9)] }).dev with args := [0, 5] }, []⟩
     s.dev.args = [0, 5] ∧ (s.array 0).run = 5 ∧ (s.array 0).holder = some 1 ∧ (s.array 0).waiters = [(2, 9)] ∧ s.dev.cycle < 9) ∧
    (let s : State := ⟨{ (withArray (mk mth) fun a => { a with batches := [(4, mb true true)], pending := [(255, 4)] }).dev with args := [0, 4, 1], threads := [(1, { th with st := .parked, wait := .batch 255 4, name := 5 })] }, []⟩
     (s.array 0).batches.get? 4 = some (mb true true) ∧ (mb true true).tag = some 255 ∧ (s.array 0).pending.get? 255 = some 4 ∧ (s.dev.thread 1).st = .parked ∧ (s.dev.thread 1).wait = .batch 255 4 ∧ unitOf (coreOf 1) = 0 ∧
       (s.dev.thread 1).name = 5 ∧ (s.dev.core 0).held = [] ∧ (s.dev.core 0).overflow = [] ∧ (s.dev.core 0).spill = [] ∧ (s.dev.threads.find? fun x => x.2.live && x.2.name = (5 : Q)).map Prod.fst = some 1 ∧ (s.dev.core 0).inbox.length < 32 ∧ (s.dev.thread 1).mig = none ∧ (s.dev.thread 1).awaits .inbox = false ∧ outFull s.dev ⟨batchMessage (mb true true) 3, 2, 1, 1, some 5⟩ = false) := by decide
/-- The slot of the lease's holder is lent: the thread in it holds no lease; a batch's thread may be saved, or ended. -/
theorem test_wit_MatrixCommands_lent :
    lessee (mk mth).dev 1 = 1 ∧ (let s : State := ⟨{ (withArray (mk mth) fun a => { a with holder := some 1 }).dev with lentOut := [(1, (3, th))] }, []⟩
     (s.array s.tile).holder = some 1 ∧ (s.array s.tile).holder ≠ some (lessee s.dev s.dev.cur) ∧ (s.array s.tile).waiters = [] ∧ s.canTrap) := by decide
def savedS (n : Q) : State :=
  ⟨{ ((withArray (mk mth) fun a => { a with batches := [(4, { mb true true with thread := n })] }).dev.updDie 0 fun x => { x with ntcfg := 2 }) with args := [0, 4, 2, 1] }, nameMem n 1⟩
theorem test_wit_MatrixCommands_saved (n : Q) (h0 : 0 ≠ n) :
    (savedS n).Inv ∧ (savedS n).dev.args = [0, 4, 2, 1] ∧ ((savedS n).array 0).batches.get? 4 = some { mb true true with thread := n } ∧ (mb true true).tag = some 255 ∧ (∀ x ∈ (savedS n).dev.threads, x.2.live = false ∨ x.2.name ≠ n) ∧
      (lookup (savedS n).mem (savedS n).dev 0 n).2 = some 0 ∧ fieldN (entryWord (savedS n) 0 2) 63 62 = 1 ∧ outFull (savedS n).dev ⟨batchMessage { mb true true with thread := n } 1, 2, 1, 1, some n⟩ = false := by
  have hl := name_lookup n (d := (savedS n).dev) rfl rfl (by decide : 1 < 4) (by decide) (one_bucket rfl).1 (one_bucket rfl).2
  have hs := state_stands n (d := (savedS n).dev) rfl rfl (by decide : 1 < 4)
  refine ⟨⟨nameMem_wf n 1, rfl, rfl⟩, rfl, rfl, rfl, fun x h => .inr ?_, hl, hs, by rw [outFull, show (savedS n).dev.cores = [] from rfl]; rfl⟩
  rw [List.mem_singleton.mp h, show mth.name = 0 from by with_unfolding_all rfl]; exact h0
def runS (c : MCmd) (p : Nat) (f : MArray → MArray) : State :=
  let s := withArray (openTile (mk mth)) fun a => f { a with queue := [c], busy := true, batches := [(4, mb false false)] }
  ⟨{ s.dev with args := [0, c.id, p] }, []⟩
theorem running (c : MCmd) (p : Nat) (f : MArray → MArray) (h : (f { MArray.reset with queue := [c], busy := true, batches := [(4, mb false false)] }).queue = [c]) : Running (runS c p f) 0 c p := by
  refine ⟨rfl, ?_, by decide, rfl, rfl, rfl⟩
  show (f { MArray.reset with queue := [c], busy := true, batches := [(4, mb false false)] }).queue.find? _ = some c
  simp [h]
def blk : WBlock := { fmt := 0, k := 1, n := 256, uns := false, cols := List.replicate 256 0, scales := [] }
theorem test_wit_MatrixRuns :
    Running (runS (mc 9) 3 id) 0 (mc 9) 3 ∧ Running (runS (mc 3) 4 fun a => { a with block := some blk }) 0 (mc 3) 4 ∧ Running (runS (mc 5) 5 id) 0 (mc 5) 5 ∧
    ((runS (mc 9) 3 id).dev.frozenMs.contains (arrayMaster 0) = false ∧ mxSent (runS (mc 9) 3 id).dev 0 (mc 9) = true ∧ mxReason [] (runS (mc 9) 3 id).dev 0 (mc 9) = 0 ∧ mxDenied (runS (mc 9) 3 id).dev 0 (mc 9) = none ∧
      mxReason [] (runS (mc 3) 3 id).dev 0 (mc 3) = 8 ∧
      (let s := runS (mc 9) 3 id
       mxSent { s.dev with reqs := [(5, { rq (.ld true) with ent := none, parts := [⟨slice 0, 8, 0, 0, none, 0, 0⟩] })] } 0 (mc 9) = false)) ∧
    (Tbl.sorted ((runS (mc 3) 4 fun a => { a with block := some blk }).array 0).banks = true ∧ (mc 3).bank < 16 ∧ blk.n ≤ 256 ∧ (mc 3).f 5 13 9 + (mc 3).f 5 8 4 + 1 ≤ 32) ∧
    (((mc 8).f 7 6 2 = 0) ∧ ∀ r ∈ List.range ((mc 8).f 7 6 2 + 1), ∀ i ∈ List.range ((mc 8).f 7 19 12 + 1), (mc 8).off 6 + r * (mc 8).f 7 43 28 + i * 4 + 4 ≤ 2 ^ 25 ∧ uncorrectable [] (runS (mc 8) 4 id).dev (vaultKey 0 ((mc 8).off 6)) = false) :=
  ⟨running _ _ _ rfl, running _ _ _ rfl, running _ _ _ rfl, by decide +kernel, by decide +kernel, by decide +kernel⟩
theorem test_wit_EngineRegisters :
    ((mk mth).ready ∧ (mk mth).unitCore ∧ ¬(kindOf (coreOf 1) = 1 ∧ idxOf (coreOf 1) = 49) ∧ (mk mth).canTrap ∧ (mk mth).start.claim 3 ∧ ((mk mth).start.readGs [1]).isSome ∧ (0x20 : BitVec 6).toNat = 0x20) ∧
    (let l := mkCore 0 49 1 * 16
     let s : State := ⟨{ Dev.reset with threads := [(l, mth)], cur := l }, []⟩
     kindOf (coreOf s.dev.cur) = 1 ∧ idxOf (coreOf s.dev.cur) = 49 ∧ s.ready ∧ s.unitCore ∧ (s.start.readGs [1]).isSome ∧ s.start.claim 3) ∧
    (let s := withArray (mk { mth with g := mth.g.set 1 (.ofVal (3 * 2 ^ 13)) }) fun a => { a with batches := [(4, mb true false)] }
     fieldN (3 * 2 ^ 13 : D) 16 13 = 3 ∧ (s.array s.tile).batches = [(4, mb true false)] ∧ (mb true false).busy / 2 ^ 3 % 2 = 1 ∧ (mb true false).busy / 2 ^ 4 % 2 = 0) ∧
    ((ev Dev.reset [0, 0x2F, 7]).dev.args = [0, 0x2F, (7 : D).toNat] ∧ (ev Dev.reset [0]).dev.args = [0] ∧ (ev Dev.reset [0, 7]).dev.args = [0, 7]) := by decide +kernel

/-- A command of one row of 8 bytes from the slice to the slice. -/
def ec (cmd : Nat) (conv : Bool) : ECmd :=
  { id := 7, loc := 1, core := 0, thread := 5, conv := conv, cmd := cmd, tag := 3, a := slice 0x100, b := slice 0x200, name := 0, stage := (Vector.replicate 16 0).set 0 8, ctx := 0, user := false, lpb := Vector.replicate 8 0,
    lpl := Vector.replicate 8 0, refuse := none, prog := 0, bads := [], slot := 0, base := 0, size := 65536, old := 0, status := 0, reason := 0, w1 := 0, w2 := 0, w3 := 0, comp := false, regions := [] }
def engS (c : ECmd) (p : Nat) : State :=
  let s := openTile (mk { th with name := 5 })
  ⟨{ (s.dev.updTile 0 fun tl => { tl with engines := tl.engines.set 0 ⟨0, some c, none⟩ }) with args := [0, 0, c.id, p] }, []⟩
theorem at_engine (c : ECmd) (p : Nat) : AtEngine (engS c p) 0 0 c p := ⟨rfl, rfl, by decide, ⟨rfl, rfl, rfl⟩, rfl⟩
theorem test_wit_EngineCommands :
    ((mk (setG th [(1, 3), (2, 1), (3, 9)])).ready ∧ (engOf (.gexp 1 3 false false 7)).isSome ∧ ((mk mth).start.readGs [1, 1 + 1, 3]).isSome ∧ (mk mth).me.priv = false ∧ (mk mth).canTrap) ∧
    (engOf (.cpr 1 2 false false 255)).isSome ∧ 32 ≤ (engQueue ⟨(mk mth).dev.updTile 0 fun tl => { tl with copyQ := List.replicate 32 (ec 0 false) }, []⟩ 0 false).length ∧
    16 ≤ (engQueue ⟨(mk mth).dev.updTile 0 fun tl => { tl with convQ := List.replicate 16 (ec 0 true) }, []⟩ 0 true).length ∧ (engQueue (mk mth) 0 true).length < 16 ∧
    (let s := ev (mk { th with name := 5 }).dev [0, 2, 1, (5 : Q).toNat, 1, 2, 3, 4]
     s.dev.args = [0, 2, 1, (5 : Q).toNat, 1, 2, 3, 4] ∧ kindOf (coreOf 1) = 0 ∧ s.dev.threads = [(1, { th with name := 5 })] ∧ th.st ≠ .vacant ∧ (s.dev.core 0).held = [] ∧ (s.dev.core 0).overflow = [] ∧ (s.dev.core 0).spill = [] ∧ (s.dev.core 0).inbox.length < 32 ∧ ({ th with name := 5 } : Thread).awaits .inbox = false ∧
       outFull s.dev ⟨[1, 2, 3, 4], 2, 1, 1, none⟩ = false) := by decide +kernel
theorem test_wit_EngineRuns_start :
    (let s : State := ⟨{ ((mk th).dev.updTile 0 fun tl => { tl with copyQ := [ec 0 false] }) with args := [0, 0, 7, 0] }, []⟩
     s.dev.args = [0, b2n false, (ec 0 false).id, 0] ∧ engQueue s 0 false = [ec 0 false] ∧
       ([0, 1]).find? (fun e => (s.dev.engine 0 e).cur.isNone && (s.dev.engine 0 e).kept.isNone && !s.dev.frozenMs.contains (engMaster 0 e)) = some 0 ∧ unreleased s.dev 7 1 0 true = false ∧
       (let t : State := ⟨s.dev.updTile 0 fun tl => { tl with engines := (tl.engines.set 0 ⟨0, some (ec 0 false), none⟩).set 1 ⟨0, some (ec 2 false), none⟩ }, []⟩
        ∀ e ∈ [0, 1], (t.dev.engine 0 e).cur ≠ none)) ∧ (unitsOf .copyRun).isSome ∧
    startReason [] (engS (ec 0 false) 1).dev (ec 0 false) = none ∧ startHeld [] (engS (ec 0 false) 1).dev (ec 0 false) = false ∧ (match grammarUnit [] (engS (ec 5 false) 2).dev (ec 5 false) with | .error (.gram d _) => decide (d.feWait = []) | _ => false) = true ∧ (ec 0 false).units = (ec 0 false).prog + 1 ∧ 0 < (ec 0 false).pace.1 ∧ pieceAt (ec 0 false) (ec 0 false).dst 0 = some (0, slice 0x200, 8) ∧ (ec 0 false).fec = false ∧
    (ec 2 false).fez = 0 ∧ pieceAt { ec 2 false with a := slice 0x200 } (fun k => slice 0x200 + ofN (k * (ec 2 false).r 3)) 0 = some (0, slice 0x200, 8) ∧ (ec 2 false).units = 1 := by decide +kernel
theorem test_wit_EngineRuns_units :
    AtEngine (engS { ec 0 false with refuse := some 0x40 } 1) 0 0 { ec 0 false with refuse := some 0x40 } 1 ∧ AtEngine (engS (ec 0 false) 2) 0 0 (ec 0 false) 2 ∧
    (match copyUnit [] (engS (ec 0 false) 2).dev (ec 0 false) with | .ok (d, c) => decide (c.prog = 0 ∧ c.units = 1 ∧ d.frozenMs.contains (engMaster 0 0) = false ∧ d.feWait = []) | .error _ => false) = true ∧
    (match copyUnit [] (engS { ec 0 false with a := 0x7000 } 2).dev { ec 0 false with a := 0x7000 } with | .error (.stop d _ _ _ _) => decide (d.frozenMs.contains (engMaster 0 0) = false ∧ d.feWait = []) | _ => false) = true ∧
    Writable (engS (ec 0 false) 2) ((ec 0 false).uctx (engS (ec 0 false) 2).dev) (slice 0x200) 8 (vaultKey 0 0x200) ∧ Readable (engS (ec 0 false) 2) ((ec 0 false).uctx (engS (ec 0 false) 2).dev) ((ec 0 false).src 0 + (slice 0x200 - (ec 0 false).dst 0)) 8 (vaultKey 0 0x100) := by
  refine ⟨at_engine _ _, at_engine _ _, by decide +kernel, by decide +kernel, ⟨by decide +kernel, by decide +kernel, by decide +kernel, by decide +kernel, by decide⟩, ?_⟩
  have h : ∀ j ∈ List.range 8, unitPlace [] (engS (ec 0 false) 2).dev ((ec 0 false).uctx (engS (ec 0 false) 2).dev) ((ec 0 false).src 0 + (slice 0x200 - (ec 0 false).dst 0) + BitVec.ofNat 64 j) false = .ok (.key (vaultKey 0 0x100 + j)) ∧
      uncorrectable [] (engS (ec 0 false) 2).dev (vaultKey 0 0x100 + j) = false := by decide +kernel
  exact fun j hj => h j (List.mem_range.mpr hj)
/-- CPR of a page at 0x10_0000, both of whose frames stand in die 0. -/
def rc : ECmd := { ec 1 false with a := 0x100000, b := hbmPage, base := 0x100000, old := hbmPage, user := false }
def rcS (p : Nat) (pages : Bool) : State :=
  ⟨{ (engS rc p).dev with stage2 := if pages then [⟨0, 0, 0x100000, 65536, true, true, true, none, 0x2000000, false, none⟩, ⟨0, 0, 0x100000, 65536, true, true, true, none, 0x3000000, true, none⟩] else [] }.updDie 0 fun x => { x with access := [(engMaster 0 0, 0x3FFFFFFFFFF)], baseAccess := [(engMaster 0 0, 0x3FFFFFFFFFF)] }, []⟩
theorem test_wit_EngineRuns_restripe :
    AtEngine (engS { rc with a := slice 0 } 1) 0 0 { rc with a := slice 0 } 1 ∧ (match restripeCheck [] (engS { rc with a := slice 0 } 1).dev { rc with a := slice 0 } with | .error r => decide (r = 8) | .ok _ => false) = true ∧
    AtEngine (rcS 3 true) 0 0 rc 3 ∧ AtEngine (rcS 4 true) 0 0 rc 4 ∧ (rc.prog + 1) * granuleSize rc.old < rc.size ∧
    (match moveWords [] rc (rc.base.toNat + rc.prog * granuleSize rc.old) (granuleSize rc.old / 8) (rcS 3 true).dev false with | .ok x => decide (x.1.feWait = []) | .error _ => false) = true ∧
    (match moveWords [] rc (rc.base.toNat + rc.prog * granuleSize rc.old) (granuleSize rc.old / 8) (rcS 3 false).dev false with | .error (.stop d _ _ _ _) => decide (d.frozenMs.contains (engMaster 0 0) = false) | _ => false) = true :=
  ⟨at_engine _ _, by decide +kernel, ⟨rfl, rfl, by decide, ⟨rfl, rfl, rfl⟩, rfl⟩, ⟨rfl, rfl, by decide, ⟨rfl, rfl, rfl⟩, rfl⟩, by decide, by decide +kernel, by decide +kernel⟩

/-! ## Witnesses: what the engines write -/

def stageOf (l : List (Nat × Nat)) : Vector D 16 := l.foldl (fun v x => v.set! x.1 (ofN x.2)) (Vector.replicate 16 0)
/-- Engine `e` of tile 0.0 performs command `c`. -/
def engM (c : ECmd) (e : Nat) (m : Mem) : State :=
  ⟨{ ((mk { pth 0 with name := 5 }).dev.updTile 0 fun tl => { tl with access := [(0, 0x100000003), (52, 0x100000003), (54, 0x100000003), (56, 0x100000003)], engines := tl.engines.set! e ⟨0, some c, none⟩ }) with args := [0, e, c.id, 2] }, m⟩
/-- An engine, and what it performs there. -/
def runs (e : Nat) (c : ECmd) : Prop := e = (if c.conv then 2 else 0) ∧ c.core = 0 ∧ c.regions = []
theorem in_range {s : State} {c : ECmd} (hc : c.core = 0) (hr : c.regions = []) (hh : (s.dev.tile 0).holds = []) (hg : (s.dev.tile 0).rga = Tile.reset.rga)
    (ha : ∀ wr, granted (s.dev.tile 0).access 0 (c.uctx s.dev).master 0 wr = true) {o n : Nat} (h : o + n ≤ 2 ^ 25) : VaultRange s c (tw o) n (vaultKey 0 o) := by
  refine ⟨0, o, rfl, h, hh, ha, fun j hj => ⟨?_, ?_⟩⟩
  · rw [tw_add]; unfold vaultLoc; rw [hc, win_tw (by omega), tw_nat (by omega)]; simp [show kindOf 0 ≠ 2 from by decide, show unitOf 0 = 0 from by decide]
  · rw [hr]; unfold compKey
    rw [show vaultKey 0 o + j = vaultKey 0 (o + j) from by unfold vaultKey; omega, show vaultKey 0 (o + j) / 2 ^ 56 = 4 from by unfold vaultKey; omega]
    have : regionAttr (s.dev.tile 0) (vaultKey 0 (o + j) % 2 ^ 56) ≠ 2 := no_region hg _
    simp only []
    rw [show tileAt [] s.dev (4 - 4) = s.dev.tile 0 from rfl, decide_eq_false this, Bool.and_false]
theorem eng_range {e : Nat} {c : ECmd} {m : Mem} (r : runs e c) {o n : Nat} (h : o + n ≤ 2 ^ 25) : VaultRange (engM c e m) c (tw o) n (vaultKey 0 o) := by
  obtain ⟨he, hc, hr⟩ := r
  refine in_range hc hr rfl rfl (fun wr => ?_) h
  subst he
  have : (c.uctx (engM c (if c.conv then 2 else 0) m).dev).master = if c.conv then 54 else 52 := by
    unfold ECmd.uctx; rw [hc]; cases c.conv <;> rfl
  rw [this, show ((engM c (if c.conv then 2 else 0) m).dev.tile 0).access = [(0, 0x100000003), (52, 0x100000003), (54, 0x100000003), (56, 0x100000003)] from rfl]
  cases c.conv <;> cases wr <;> decide
theorem eng_in {e : Nat} {c : ECmd} {l : List (Nat × Nat)} (r : runs e c) {o n : Nat} (h : o + n ≤ 2 ^ 25) (b : ∀ x ∈ l, x.1 < 2 ^ 25) : InVault (engM c e (gmem l)) c (tw o) n (vaultKey 0 o) :=
  ⟨eng_range r h, fun _ _ => gmem_sound b _⟩
theorem performs {e : Nat} {c : ECmd} {l : List (Nat × Nat)} (h : e = 0 ∨ e = 2) : Performing (engM c e (gmem l)) 0 e c c.conv c.cmd := by
  refine ⟨⟨rfl, ?_, by omega, ⟨gmem_wf l, rfl, rfl⟩, ?_⟩, rfl, rfl, rfl, rfl⟩ <;> rcases h with rfl | rfl <;> rfl
theorem eng_word {e : Nat} {c : ECmd} (l : List (Nat × Nat)) (o : Nat) : rd64 (gmem l) (engM c e (gmem l)).dev (vaultKey 0 o) = BitVec.ofNat 64 (gRead l o 8) := by
  unfold rd64; rw [gmem_rdN rfl rfl]
theorem eng_zero {e : Nat} {c : ECmd} (k n : Nat) : rdN [] (engM c e []).dev k n = 0 := by
  induction n generalizing k with
  | zero => rfl
  | succ n ih => rw [rdN, ih]; rfl
theorem test_wit_EngineRuns_left :
    startWaits [] (engS (ec 0 false) 1).dev (ec 0 false) = none ∧
    AtEngine (engS { ec 0 false with prog := 1 } 2) 0 0 { ec 0 false with prog := 1 } 2 ∧ ({ ec 0 false with prog := 1 } : ECmd).units ≤ 1 ∧
    (match restripeCheck [] (engS { rc with a := slice 0 } 1).dev { rc with a := slice 0 } with | .error r => decide (r = 8) | .ok _ => false) = true :=
  ⟨by decide +kernel, at_engine _ _, by decide +kernel, by decide +kernel⟩
/-- Two rows of a word and a half; the second piece of CPY and CPZ starts in the middle of the first row. -/
def wc (cmd : Nat) : ECmd := { ec cmd false with a := tw 0x4000, b := tw 0x5000, prog := 1, stage := stageOf [(0, 16), (1, 1), (2, 32), (3, 64), (4, 40)] }
theorem test_wit_EngineRuns_words :
    let n := min 16 ((wc 0).units - 1)
    let row := fun i => (1 + i) / 2
    let col := fun i => 8 * ((1 + i) % 2)
    let ks := fun i => vaultKey 0 (0x4000 + row i * 32 + col i)
    let kd := fun i => vaultKey 0 (0x5000 + row i * 64 + col i)
    let kz := fun i => vaultKey 0 (0x4000 + row i * 64 + col i)
    n = 3 ∧ Performing (engM (wc 0) 0 (gmem [])) 0 0 (wc 0) false 0 ∧ Performing (engM (wc 2) 0 (gmem [])) 0 0 (wc 2) false 2 ∧ (wc 2).fez = 1 ∧ (wc 0).r 0 / 8 = 2 ∧
    (∀ i, i < n → InVault (engM (wc 0) 0 (gmem [])) (wc 0) ((wc 0).a + ofN (row i * 32) + ofN (col i)) 8 (ks i) ∧ InVault (engM (wc 0) 0 (gmem [])) (wc 0) ((wc 0).b + ofN (row i * 64) + ofN (col i)) 8 (kd i) ∧
      InVault (engM (wc 2) 0 (gmem [])) (wc 2) ((wc 2).a + ofN (row i * 64) + ofN (col i)) 8 (kz i)) ∧
    (∀ i j, i < j → j < n → kd i + 8 ≤ kd j ∧ kz i + 8 ≤ kz j) ∧ (∀ i j, i < n → j < n → ks i ≠ kd j ∧ ks i % 8 = 0 ∧ kd i % 8 = 0) := by
  have hn : min 16 ((wc 0).units - 1) = 3 := by decide +kernel
  intro n row col ks kd kz
  rw [show n = 3 from hn]
  refine ⟨rfl, performs (.inl rfl), performs (.inl rfl), by decide, by decide, fun i hi => ?_, fun i j h k => ?_, fun i j h k => ?_⟩ <;> simp only [row, col, ks, kd, kz]
  · simp only [show (wc 0).a = tw 0x4000 from rfl, show (wc 0).b = tw 0x5000 from rfl, show (wc 2).a = tw 0x4000 from rfl, tw_add]
    exact ⟨eng_in ⟨rfl, rfl, rfl⟩ (by omega) nofun, eng_in ⟨rfl, rfl, rfl⟩ (by omega) nofun, eng_in ⟨rfl, rfl, rfl⟩ (by omega) nofun⟩
  · unfold vaultKey; omega
  · unfold vaultKey; omega
/-- The last chunk of two, and one of 33, whose bits stand in the second word of the bit map. -/
def scr (n p : Nat) : ECmd := { ec 3 false with a := tw 0x40000, b := tw 0x5000, prog := p, stage := stageOf [(0, 4096 * n)] }
theorem test_wit_EngineRuns_scrub : ∀ x ∈ [(2, 1), (33, 32)],
    let c := scr x.1 x.2
    Performing (engM c 0 (gmem [])) 0 0 c false 3 ∧ c.prog < c.units ∧ VaultRange (engM c 0 (gmem [])) c (c.a + ofN (4096 * c.prog)) 4096 (vaultKey 0 (0x40000 + 4096 * c.prog)) ∧ vaultKey 0 (0x40000 + 4096 * c.prog) % 32 = 0 ∧
      InVault (engM c 0 (gmem [])) c (c.b + ofN (c.prog / 32 * 8)) 8 (vaultKey 0 (0x5000 + c.prog / 32 * 8)) := by
  intro x h c
  have hp : c.prog ≤ 32 := by simp only [List.mem_cons, List.not_mem_nil, or_false] at h; rcases h with rfl | rfl <;> decide
  refine ⟨performs (.inl rfl), ?_, ?_, ?_, ?_⟩
  · simp only [List.mem_cons, List.not_mem_nil, or_false] at h; rcases h with rfl | rfl <;> decide +kernel
  · rw [show c.a = tw 0x40000 from rfl, tw_add]; exact eng_range ⟨rfl, rfl, rfl⟩ (by omega)
  · unfold vaultKey; omega
  · rw [show c.b = tw 0x5000 from rfl, tw_add]; exact eng_in ⟨rfl, rfl, rfl⟩ (by omega) nofun
/-- CPC of a chunk of zeros, and of one with a word in it, its image limited to r7 bytes. -/
def cpk (r7 : Nat) : ECmd := { ec 4 false with a := tw 0x4000, b := tw 0x10000, stage := stageOf [(0, 4096), (7, r7)] }
theorem code_length {ws xs : List D} (h : ChunkCode ws xs) : 1 ≤ xs.length ∧ xs.length ≤ 513 := by
  unfold ChunkCode at h
  simp only [] at h
  split at h
  · omega
  · have := h.1; omega
theorem test_wit_EngineRuns_compress (r7 : Nat) (h : r7 = 0 ∨ r7 = 0x2000) :
    let c := cpk r7
    let l := [(0x4FF8, 7)]
    c.xpnd = false ∧ c.prog < c.units ∧ max c.base.toNat (8 * c.chunks) = 8 ∧
    (∀ w ∈ [[], l], Performing (engM c 0 (gmem w)) 0 0 c false 4 ∧ InVault (engM c 0 (gmem w)) c (c.a + ofN (4096 * c.prog)) 4096 (vaultKey 0 0x4000) ∧ InVault (engM c 0 (gmem w)) c (c.b + ofN (8 * c.prog)) 8 (vaultKey 0 0x10000)) ∧
    (((List.range 512).map fun i => rd64 (gmem []) (engM c 0 (gmem [])).dev (vaultKey 0 0x4000 + 8 * i)).all (· = 0)) = true ∧
    (((List.range 512).map fun i => rd64 (gmem l) (engM c 0 (gmem l)).dev (vaultKey 0 0x4000 + 8 * i)).all (· = 0)) = false ∧
    (∀ ws xs, ChunkCode ws xs → (cpk 0).r 7 < 8 + 8 * xs.length ∧ 8 + 8 * xs.length ≤ (cpk 0x2000).r 7 ∧ InVault (engM c 0 (gmem l)) c c.b (8 + 8 * xs.length) (vaultKey 0 0x10000)) := by
  have h0 : (cpk r7).a + ofN (4096 * (cpk r7).prog) = tw 0x4000 := BitVec.add_zero _
  have h1 : (cpk r7).b + ofN (8 * (cpk r7).prog) = tw 0x10000 := BitVec.add_zero _
  refine ⟨by rcases h with rfl | rfl <;> decide, by rcases h with rfl | rfl <;> decide, by rcases h with rfl | rfl <;> decide, fun l hl => ?_, ?_, ?_, fun ws xs h => ?_⟩
  · have b : ∀ x ∈ l, x.1 < 2 ^ 25 := by simp only [List.mem_cons, List.not_mem_nil, or_false] at hl; rcases hl with hl | hl <;> rw [hl] <;> decide
    exact ⟨performs (.inl rfl), h0 ▸ eng_in ⟨rfl, rfl, rfl⟩ (by omega) b, h1 ▸ eng_in ⟨rfl, rfl, rfl⟩ (by omega) b⟩
  · simp only [List.all_map, List.all_eq_true, List.mem_range]
    intro i _
    have : rd64 (gmem []) (engM (cpk r7) 0 (gmem [])).dev (vaultKey 0 0x4000 + 8 * i) = 0 := by unfold rd64; exact congrArg _ (eng_zero _ _)
    simp only [Function.comp, this, decide_true]
  · rw [← Bool.not_eq_true]
    simp only [List.all_map, List.all_eq_true, List.mem_range, not_forall]
    refine ⟨511, by decide, ?_⟩
    simp only [Function.comp, decide_eq_true_eq]
    rw [show vaultKey 0 0x4000 + 8 * 511 = vaultKey 0 0x4FF8 from rfl, eng_word]
    decide
  · have := code_length h
    exact ⟨by have : (cpk 0).r 7 = 0 := by decide
              omega, by have : (cpk 0x2000).r 7 = 0x2000 := by decide
                        omega, eng_in ⟨rfl, rfl, rfl⟩ (by omega) (by decide)⟩
theorem xor_small {a b : Nat} (h : a < 2 ^ 32) (k : b < 2 ^ 32) : a ^^^ b < 2 ^ 32 := Nat.xor_lt_two_pow h k
theorem crc_small (ws : List D) : crc32c ws < 2 ^ 32 := by
  have fold : ∀ {α} (f : Nat → α → Nat) (_ : ∀ c x, c < 2 ^ 32 → f c x < 2 ^ 32) (l : List α) (c : Nat), c < 2 ^ 32 → l.foldl f c < 2 ^ 32 := by
    intro α f hf l
    induction l with
    | nil => exact fun c h => h
    | cons x l ih => exact fun c h => ih _ (hf c x h)
  have byte : ∀ c b, c < 2 ^ 32 → b < 256 → crcByte c b < 2 ^ 32 := fun c b h k => by
    refine fold _ (fun c _ h => ?_) _ _ (xor_small h (by omega))
    split
    · exact xor_small (by omega) (by decide)
    · omega
  exact xor_small (fold _ (fun c w h => fold _ (fun c i h => byte _ _ h (by omega)) _ _ h) _ _ (by decide)) (by decide)
/-- Expanding a chunk of zeros, a raw one, and one whose header is corrupt, with room in the list of bad chunks and without. -/
def xpd (r6 : Nat) (bads : List Nat) : ECmd := { ec 4 false with a := tw 0x10000, b := tw 0x20000, bads := bads, stage := stageOf [(0, 4096), (4, 16), (5, tileBase + 0x300), (6, r6)], lpb := (pth 0).lpb, lpl := (pth 0).lpl }
/-- A raw chunk of zeros whose header says a CRC. -/
def rawAt (z : Nat) : List (Nat × Nat) := [(0x10000, 4104 * 2 ^ 48 + 16), (0x10010, 2 * 2 ^ 56 + 4096 * 2 ^ 32 + z)]
theorem raw_zero (z n k : Nat) : gRead (rawAt z) (0x10018 + k) n = 0 := by
  induction n generalizing k with
  | zero => rfl
  | succ n ih => rw [gRead, gByte, List.find?_eq_none.mpr (by simp [rawAt]; omega), Nat.add_assoc, ih]; rfl
theorem raw_low (z : Nat) : ∀ x ∈ rawAt z, x.1 < 2 ^ 25 := by
  intro x h; simp only [rawAt, List.mem_cons, List.not_mem_nil, or_false] at h; rcases h with rfl | rfl <;> simp
theorem raw_head (z : Nat) : gRead (rawAt z) 0x10000 8 = 4104 * 2 ^ 48 + 16 := by
  refine gRead_word (fun i hi => ?_) (by decide)
  interval_cases i <;> rfl
theorem raw_chunk {z : Nat} (h : z < 2 ^ 32) : gRead (rawAt z) 0x10010 8 = 2 * 2 ^ 56 + 4096 * 2 ^ 32 + z := by
  refine gRead_word (fun i hi => ?_) (by omega)
  interval_cases i <;> rfl
theorem header_fields {z : Nat} (h : z < 2 ^ 32) : let w : D := BitVec.ofNat 64 (2 * 2 ^ 56 + 4096 * 2 ^ 32 + z)
    fieldN w 63 56 = 2 ∧ fieldN w 55 48 = 0 ∧ fieldN w 47 32 = 4096 ∧ fieldN w 31 0 = z := by
  simp only [fieldN, BitVec.toNat_ofNat, Nat.pow_zero, Nat.div_one]
  omega
theorem test_wit_EngineRuns_expand :
    let raw := rawAt (crc32c (List.replicate 512 0))
    let c := xpd 4 []
    (∀ l ∈ [[], [(0x10000, 8 * 2 ^ 48 + 16)], raw], ∀ c ∈ [xpd 4 [], xpd 1 [7]], Performing (engM c 0 (gmem l)) 0 0 c false 4 ∧ c.prog < c.units ∧ c.xpnd = true ∧ InVault (engM c 0 (gmem l)) c (c.a + ofN (8 * c.prog)) 8 (vaultKey 0 0x10000) ∧
      InVault (engM c 0 (gmem l)) c (c.b + ofN (4096 * c.prog)) 4096 (vaultKey 0 0x20000)) ∧
    rd64 (gmem []) (engM c 0 (gmem [])).dev (vaultKey 0 0x10000) = 0 ∧ fieldN (rd64 (gmem [(0x10000, 8 * 2 ^ 48 + 16)]) (engM c 0 (gmem [(0x10000, 8 * 2 ^ 48 + 16)])).dev (vaultKey 0 0x10000)) 63 48 = 8 ∧
    (fieldN (rd64 (gmem raw) (engM c 0 (gmem raw)).dev (vaultKey 0 0x10000)) 63 48 = 4104 ∧ c.a + ofN (fieldN (rd64 (gmem raw) (engM c 0 (gmem raw)).dev (vaultKey 0 0x10000)) 47 0) = tw 0x10010 ∧
      (∀ n ∈ [8, 4104], noWindow c (tw 0x10010, n, 0) = false ∧ unprotected c (tw 0x10010, n, 0) = false ∧ InVault (engM c 0 (gmem raw)) c (tw 0x10010) n (vaultKey 0 0x10010)) ∧
      chunkHeader (rd64 (gmem raw) (engM c 0 (gmem raw)).dev (vaultKey 0 0x10010)) 2 4096 (List.replicate 512 0) ∧
      ((List.range 513).map fun i => rd64 (gmem raw) (engM c 0 (gmem raw)).dev (vaultKey 0 0x10010 + 8 * i)).drop 1 = List.replicate 512 0) ∧
    (decodeChunk 8 [0] = none ∧ c.prog ∉ c.bads ∧ (xpd 1 [7]).prog ∉ (xpd 1 [7]).bads ∧ (xpd 1 [7]).r 6 ≤ (xpd 1 [7]).bads.length ∧ c.bads.length < c.r 6 ∧ ofN (c.r 5) = tw 0x300 ∧
      noWindow c (tw 0x300, 8, 1) = false ∧ unprotected c (tw 0x300, 8, 1) = false ∧ InVault (engM c 0 (gmem raw)) c (tw 0x300) 8 (vaultKey 0 0x300) ∧ vaultKey 0 0x300 + 8 ≤ vaultKey 0 0x20000) := by
  intro raw c
  have hz := crc_small (List.replicate 512 0)
  have low := raw_low (crc32c (List.replicate 512 0))
  have head := raw_head (crc32c (List.replicate 512 0))
  have chunk := raw_chunk hz
  refine ⟨fun l hl c hc => ?_, by rw [eng_word]; decide, by rw [eng_word]; decide, ⟨by rw [eng_word, head]; decide, by rw [eng_word, head]; decide, fun n hn => ?_, ?_, ?_⟩,
    by decide, by decide, by decide, by decide, by decide, by decide, by decide, by decide +kernel, eng_in ⟨rfl, rfl, rfl⟩ (by omega) low, by decide⟩
  · have b : ∀ x ∈ l, x.1 < 2 ^ 25 := by
      simp only [List.mem_cons, List.not_mem_nil, or_false] at hl
      rcases hl with rfl | rfl | rfl
      · nofun
      · simp
      · exact low
    have k : c.prog = 0 ∧ c.a = tw 0x10000 ∧ c.b = tw 0x20000 ∧ runs 0 c := by
      simp only [List.mem_cons, List.not_mem_nil, or_false] at hc; rcases hc with rfl | rfl <;> exact ⟨rfl, rfl, rfl, rfl, rfl, rfl⟩
    refine ⟨?_, ?_, ?_, ?_, ?_⟩
    · simp only [List.mem_cons, List.not_mem_nil, or_false] at hc; rcases hc with rfl | rfl <;> exact performs (.inl rfl)
    · simp only [List.mem_cons, List.not_mem_nil, or_false] at hc; rcases hc with rfl | rfl <;> decide
    · simp only [List.mem_cons, List.not_mem_nil, or_false] at hc; rcases hc with rfl | rfl <;> decide
    · rw [k.1, k.2.1, Nat.mul_zero, tw_add]; exact eng_in k.2.2.2 (by omega) b
    · rw [k.1, k.2.2.1, Nat.mul_zero, tw_add]; exact eng_in k.2.2.2 (by omega) b
  · refine ⟨?_, ?_, eng_in ⟨rfl, rfl, rfl⟩ (by simp at hn; omega) low⟩ <;> simp only [List.mem_cons, List.not_mem_nil, or_false] at hn <;> rcases hn with rfl | rfl <;> decide +kernel
  · rw [eng_word, chunk]; exact header_fields hz
  · apply List.ext_getElem
    · rw [List.length_drop, List.length_map, List.length_range, List.length_replicate]
    · intro i h1 h2
      simp only [List.length_replicate] at h2
      simp only [List.getElem_drop, List.getElem_map, List.getElem_range, List.getElem_replicate]
      rw [show vaultKey 0 0x10010 + 8 * (1 + i) = vaultKey 0 (0x10018 + 8 * i) from by unfold vaultKey; omega, eng_word]
      rw [raw_zero]; rfl

/-- GEXP of one element from index r8 on. -/
def gxc (n : Q) (i : Nat) : ECmd := { ec 5 false with a := 0, name := n, b := tw 0x8000, stage := stageOf [(8, i), (9, 1)], lpb := (pth 0).lpb, lpl := (pth 0).lpl }
def gexS (l : List (Nat × Nat)) (es : List GEntry) (names : List NcEntry) (n : Q) (i : Nat) : State :=
  let s := gS l es names ((gxc n i).gquery i) (some (gxc n i))
  ⟨{ s.dev with args := [0, 0, 7, 2], gramQ := [] }, s.mem⟩
section
variable {l : List (Nat × Nat)} {es : List GEntry} {names : List NcEntry} {n : Q} {i : Nat}
theorem same_read {d e : Dev} (m : Mem) (h : d.wbuf = e.wbuf) (c : d.wclear = e.wclear) (k n : Nat) : rdN m d k n = rdN m e k n := by
  induction n generalizing k with
  | zero => rfl
  | succ n ih => rw [rdN, rdN, ih, rdB, rdB, h, c]
theorem gex_cached {m : Q} {o len : Nat} (k : nmChip m = Config.chipTag.toNat) (f : names.find? (fun e => e.name = m) = some (gN m o len)) :
    Cached (gexpView (gexS l es names n i) (gxc n i)) ((gxc n i).gquery i) m (tw o) (ofN len) :=
  gS_cached (l := l) (es := es) (q := (gxc n i).gquery i) rfl k f
theorem gex_plain {va : D} {size x : Nat} (h : Plain (gS l es names ((gxc n i).gquery i) (some (gxc n i))) 4 ((gxc n i).gquery i) va size x) : Plain (gexpView (gexS l es names n i) (gxc n i)) 7 ((gxc n i).gquery i) va size x := by
  obtain ⟨w, tile, off, v, p, g, k, e, r⟩ := h
  refine ⟨w, tile, off, v, p, ?_, ?_, e, ?_⟩
  · exact g
  · exact k
  · rw [← r]; exact same_read (d := (gexpView (gexS l es names n i) (gxc n i)).dev) (e := (gS l es names ((gxc n i).gquery i) (some (gxc n i))).dev) _ rfl rfl _ _
theorem gex_words {base : D} {ws : List Nat} (h : Words (gS l es names ((gxc n i).gquery i) (some (gxc n i))) 4 ((gxc n i).gquery i) base ws) : Words (gexpView (gexS l es names n i) (gxc n i)) 7 ((gxc n i).gquery i) base ws :=
  fun j hj => gex_plain (h j hj)
theorem gex_rule {r : Q} {kind et rt len w1 : Nat} {kids : List Q} (h : Rule (gS l es names ((gxc n i).gquery i) (some (gxc n i))) 4 ((gxc n i).gquery i) r kind et rt len w1 kids) :
    Rule (gexpView (gexS l es names n i) (gxc n i)) 7 ((gxc n i).gquery i) r kind et rt len w1 kids := by
  obtain ⟨base, z, c, a, ok, w, k⟩ := h
  exact ⟨base, z, c, a, ok, gex_words w, k⟩
theorem gex_info {r : Q} {len et rt : Nat} (h : Info (gS l es names ((gxc n i).gquery i) (some (gxc n i))) 4 ((gxc n i).gquery i) r len et rt) : Info (gexpView (gexS l es names n i) (gxc n i)) 7 ((gxc n i).gquery i) r len et rt :=
  ⟨h.1, h.2.1, h.2.2.imp id fun ⟨kind, w1, kids, r⟩ => ⟨kind, w1, kids, gex_rule r⟩⟩
theorem gex_viewed {r : Q} {scan : Bool} {sop bias len et rt : Nat} (h : Viewed (gS l es names ((gxc n i).gquery i) (some (gxc n i))) 4 ((gxc n i).gquery i) r scan sop bias len et rt) :
    Viewed (gexpView (gexS l es names n i) (gxc n i)) 7 ((gxc n i).gquery i) r scan sop bias len et rt :=
  h.imp id fun ⟨a, b, c, d, e, base, z, total, f, g, w, k⟩ => ⟨a, b, gex_info c, d, e, base, z, total, f, g, gex_words w, k⟩
end
theorem gxc_r8 (n : Q) (i : Nat) (h : i < 2 ^ 64) : (gxc n i).r 8 + (gxc n i).prog = i := by
  show (ofN i).toNat + 0 = i
  unfold ofN; rw [BitVec.toNat_ofNat]; omega
theorem gx_master {l : List (Nat × Nat)} {es : List GEntry} {names : List NcEntry} {n : Q} {i : Nat} : ((gxc n i).uctx (gexS l es names n i).dev).master = 52 := by
  unfold ECmd.uctx; rw [show (gxc n i).core = 0 from rfl, show unitOf 0 = 0 from by decide]; rfl
theorem gxc_units (n : Q) (i : Nat) : (gxc n i).units = (gxc n i).prog + 1 := rfl
/-- GEXP over a leaf of three, of a rule and through a scan with BIAS 100: an element, a prefix, and an index at L. -/
theorem test_wit_EngineRuns_elements (scan : Bool) (i : Nat) (h : i ≤ 3) :
    let n := if scan then gv1 else r1
    let c := gxc n i
    let l := if scan then gramAt 0 (2 ^ 60 + 0 * 2 ^ 56 + 0 * 2 ^ 51 + 3) 100 77 else leafAt 0 0
    let s := gexS l [] viewNames n i
    let u := gexpView s c
    let q := c.gquery i
    Performing s 0 0 c false 5 ∧ c.units = c.prog + 1 ∧ c.r 8 + c.prog = i ∧ (0 = unitOf c.core ∧ kindOf c.core ≠ 2) ∧ (s.dev.reqs = [] ∧ s.dev.gramQ = [] ∧ s.dev.nameQ = [] ∧ s.dev.fwd = [] ∧ (s.dev.tile 0).shooting = []) ∧
      (∀ k, ((s.dev.tile 0).ncache.getD k []).length ≤ 4) ∧ s.dev.frozenMs.contains (gramMaster 0) = false ∧ nmChip c.name = Config.chipTag.toNat ∧
      Viewed u 7 q r1 scan 0 (if scan then 100 else 0) 3 0 0 ∧ Info u 7 q r1 3 0 0 ∧
      (i < 3 → Descent u 7 q 0 scan 0 0 64 [] r1 i (tileBase + 0x600) i [] ∧ ∀ j, j ≤ i → Plain u 7 q (ofN (tileBase + 0x600 + 4 * j)) 4 ([1, 0xFFFFFFFF, 5].getD j 0)) ∧
      InVault s c (c.b + ofN (4 * c.prog)) 4 (vaultKey 0 0x8000) := by
  have at8 : ∀ n, (gxc n i).b + ofN (4 * (gxc n i).prog) = tw 0x8000 := fun _ => BitVec.add_zero _
  have elem : ∀ j, j ≤ i → i < 3 → ∀ (l : List (Nat × Nat)) (n : Q), (∀ x ∈ l, x.1 < 2 ^ 25) → gRead l (0x600 + 4 * j) 4 = [1, 0xFFFFFFFF, 5].getD j 0 →
      Plain (gexpView (gexS l [] viewNames n i) (gxc n i)) 7 ((gxc n i).gquery i) (ofN (tileBase + 0x600 + 4 * j)) 4 ([1, 0xFFFFFFFF, 5].getD j 0) := fun j hj h3 l n b r => by
    rw [show ofN (tileBase + 0x600 + 4 * j) = tw (0x600 + 4 * j) from by rw [tw, Nat.add_assoc]]
    exact gex_plain (gS_plain rfl rfl rfl b (by omega) (by decide) r)
  have dest : ∀ (l : List (Nat × Nat)) (n : Q), (∀ x ∈ l, x.1 < 2 ^ 25) → InVault (gexS l [] viewNames n i) (gxc n i) (tw 0x8000) 4 (vaultKey 0 0x8000) := fun l n b =>
    ⟨in_range rfl rfl rfl rfl (fun wr => by rw [gx_master, show ((gexS l [] viewNames n i).dev.tile 0).access = [(52, 0x100000003), (56, 0x100000003)] from rfl]; cases wr <;> decide) (by omega), fun _ _ => gmem_sound b _⟩
  have at1 : ∀ (l : List (Nat × Nat)) (n : Q), Performing (gexS l [] viewNames n i) 0 0 (gxc n i) false 5 := fun l n => ⟨⟨rfl, rfl, by decide, ⟨gmem_wf l, rfl, rfl⟩, rfl⟩, rfl, rfl, rfl, rfl⟩
  have names : ∀ k, (Tbl.getD [(0, viewNames)] k []).length ≤ 4 := fun k => by simp only [Tbl.getD, Tbl.get?]; split <;> simp_all
  cases scan
  · have rule := gS_leaf (cmd := some (gxc r1 i)) (es := []) (names := viewNames) (q := (gxc r1 i).gquery i) (et := 0) (rt := 0) rfl rfl rfl (by simp) ((next_name (gname_ne (by decide) (by decide) (by decide))).trans (first_name (gN r1 0x400 0) _))
    have low : ∀ x ∈ leafAt 0 0, x.1 < 2 ^ 25 := by decide
    refine ⟨at1 _ _, rfl, gxc_r8 _ _ (by omega), ⟨by show 0 = unitOf 0; decide, by show kindOf 0 ≠ 2; decide⟩, ⟨rfl, rfl, rfl, rfl, rfl⟩, names, rfl, f1.2.1, .inl ⟨f1.1, rfl, rfl⟩, gex_info (gS_info rfl f1.2.1 (fun x h => nomatch h) (.inr ⟨0, _, _, rule⟩)), fun h3 => ⟨?_, fun j hj => ?_⟩, by rw [at8]; exact dest _ _ low⟩
    · exact .leaf (by simp) (gex_rule rule) h3
    · refine elem j hj h3 _ _ low ?_
      have : j < 3 := by omega
      interval_cases j <;> rfl
  · have v := viewed (cmd := some (gxc gv1 i)) (et := 0) (w2 := 2 ^ 60 + 0 * 2 ^ 56 + 0 * 2 ^ 51 + 3) (bias := 100) (total := 77) true (by simp) rfl (by simp) (by decide) (by decide) (es := []) (q := (gxc gv1 i).gquery i) rfl rfl rfl rfl (fun x h => nomatch h)
    have rule := view_leaf (cmd := some (gxc gv1 i)) (et := 0) (w2 := 2 ^ 60 + 0 * 2 ^ 56 + 0 * 2 ^ 51 + 3) (bias := 100) (total := 77) (by simp) (es := []) (q := (gxc gv1 i).gquery i) rfl rfl rfl
    have low := view_low 0 (2 ^ 60 + 0 * 2 ^ 56 + 0 * 2 ^ 51 + 3) 100 77
    refine ⟨at1 _ _, rfl, gxc_r8 _ _ (by omega), ⟨by show 0 = unitOf 0; decide, by show kindOf 0 ≠ 2; decide⟩, ⟨rfl, rfl, rfl, rfl, rfl⟩, names, rfl, fg1.2.1, gex_viewed v.2.1, gex_info v.2.2, fun h3 => ⟨?_, fun j hj => ?_⟩, by rw [at8]; exact dest _ _ low⟩
    · exact .leaf (by simp) (gex_rule rule) h3
    · refine elem j hj h3 _ _ low ?_
      have : j < 3 := by omega
      interval_cases j <;> rfl
/-- A value is converted to some value with some flags. -/
theorem converts (sf df : Nat) (mode : Fp.Mode) (u : Nat) (scale : Option Nat) (x : Nat) (h : scale = none ∨ sf < 7) : ∃ y f, Converted sf df mode u scale x y f := by
  have nat : ∀ (n : Int) (w : Nat), ((n % 2 ^ w).toNat : Int) = n % 2 ^ w := fun n w => Int.toNat_of_nonneg (Int.emod_nonneg _ (by positivity))
  unfold Converted
  cases scale with
  | some z => exact ⟨_, _, h.resolve_left nofun, rfl⟩
  | none =>
    by_cases s : sf < 7 <;> by_cases d : df < 7 <;> simp only [s, d, if_true, if_false]
    · exact ⟨_, _, rfl⟩
    · exact ⟨_, _, _, rfl, nat _ _⟩
    · exact ⟨_, _, rfl⟩
    · exact ⟨_, _, rfl, nat _ _⟩
theorem all_convert (n sf df : Nat) (mode : Fp.Mode) (u x : Nat → Nat) (scale : Option Nat) (h : scale = none ∨ sf < 7) :
    ∃ (ys : List Nat) (fs : List Fp.Flags), ys.length = n ∧ fs.length = n ∧ ∀ j, j < n → Converted sf df mode (u j) scale (x j) (ys.getD j 0) (fs.getD j 0) := by
  choose y f p using fun j => converts sf df mode (u j) scale (x j) h
  exact ⟨(List.range n).map y, (List.range n).map f, by simp, by simp, fun j hj => by simpa [List.getD_eq_getElem?_getD, hj] using p j⟩
theorem elem_in {e : Nat} {c : ECmd} (r : runs e c) {bits i o : Nat} (h : o + 8 * (i + 1) ≤ 2 ^ 25) (b : bits = 4 ∨ bits / 8 ≤ 8) : ElemIn (engM c e (gmem [])) c (tw o) bits i 0 := by
  unfold ElemIn
  by_cases k : bits = 4
  · exact ⟨vaultKey 0 (o + i / 2), by rw [if_pos k, tw_add]; exact ⟨eng_in r (by omega) nofun, by rw [show gmem [] = ([] : Mem) from rfl, show (engM c e []).mem = [] from rfl, eng_zero]; simp⟩⟩
  · have : i * (bits / 8) ≤ i * 8 := Nat.mul_le_mul_left i (by omega)
    exact ⟨vaultKey 0 (o + i * (bits / 8)), by rw [if_neg k, tw_add]; exact ⟨eng_in r (by omega) nofun, by rw [show gmem [] = ([] : Mem) from rfl, show (engM c e []).mem = [] from rfl, eng_zero]⟩⟩
/-- CVT of F32 to I8, of E4M3 to E2M1 with a scale for each row, of I8 to U32 and of I4 to F64: the last elements of the second row. -/
def cvt (sf df sblk p : Nat) : ECmd := { ec 0 true with a := tw 0x4000, b := tw 0x5000, prog := p, stage := stageOf [(0, 2), (1, 1), (2, 32), (3, 32), (4, 0x20 + sf * 4096 + df * 256 + sblk * 8), (5, tileBase + 0x6000)] }
theorem test_wit_EngineRuns_convert : ∀ x ∈ [(1, 10, 0, 3), (4, 6, 3, 1), (10, 13, 0, 3), (11, 0, 0, 3)],
    let c := cvt x.1 x.2.1 x.2.2.1 x.2.2.2
    let s := engM c 2 (gmem [])
    let w := elWidth c.dfmt
    let per := if w = 4 then 2 else 1
    let r := c.prog * per / c.r 0
    let i := c.prog * per % c.r 0
    let scale := if c.sblk = 0 then none else some (rdN s.mem s.dev (vaultKey 0 0x6004) 4)
    Performing s 0 2 c true 0 ∧ c.units = c.prog + 1 ∧ 1 ≤ c.r 0 ∧ 2 ∣ c.r 0 ∧ (∀ j, j < per → ElemIn s c (c.a + ofN (r * c.r 2)) (elWidth c.sfmt) (i + j) 0) ∧
      (c.sblk ≠ 0 → ofN (c.r 5 + 4 * (r * ((c.r 0 + 2 - 1) / 2) + i / 2)) = tw 0x6004 ∧ c.sblk = 3 ∧ c.r 0 = 2 ∧ InVault s c (tw 0x6004) 4 (vaultKey 0 0x6004)) ∧
      (∃ (ys : List Nat) (fs : List Fp.Flags), ys.length = per ∧ fs.length = per ∧ ∀ j, j < per → Converted c.sfmt c.dfmt (Fp.modeOf c.rnd 0) (srOf c r (i + j)) scale 0 (ys.getD j 0) (fs.getD j 0)) ∧
      InVault s c (c.b + ofN (r * c.r 3) + ofN (i * w / 8)) (per * w / 8) (vaultKey 0 (0x5020 + i * w / 8)) := by
  intro x h
  have ok : (x.2.2.1 = 0 ∨ x.1 < 7) ∧ (cvt x.1 x.2.1 x.2.2.1 x.2.2.2).sfmt = x.1 ∧ (cvt x.1 x.2.1 x.2.2.1 x.2.2.2).sblk = x.2.2.1 ∧ (cvt x.1 x.2.1 x.2.2.1 x.2.2.2).prog * (if elWidth (cvt x.1 x.2.1 x.2.2.1 x.2.2.2).dfmt = 4 then 2 else 1) < 4 ∧
      (cvt x.1 x.2.1 x.2.2.1 x.2.2.2).prog * (if elWidth (cvt x.1 x.2.1 x.2.2.1 x.2.2.2).dfmt = 4 then 2 else 1) / 2 = 1 ∧ elWidth (cvt x.1 x.2.1 x.2.2.1 x.2.2.2).dfmt ≤ 64 ∧ (elWidth (cvt x.1 x.2.1 x.2.2.1 x.2.2.2).sfmt = 4 ∨ elWidth (cvt x.1 x.2.1 x.2.2.1 x.2.2.2).sfmt / 8 ≤ 8) ∧
      (cvt x.1 x.2.1 x.2.2.1 x.2.2.2).units = (cvt x.1 x.2.1 x.2.2.1 x.2.2.2).prog + 1 ∧ ((cvt x.1 x.2.1 x.2.2.1 x.2.2.2).sblk ≠ 0 → (cvt x.1 x.2.1 x.2.2.1 x.2.2.2).sblk = 3) := by
    revert x; decide +kernel
  have fields : (cvt x.1 x.2.1 x.2.2.1 x.2.2.2).r 0 = 2 ∧ (cvt x.1 x.2.1 x.2.2.1 x.2.2.2).r 2 = 32 ∧ (cvt x.1 x.2.1 x.2.2.1 x.2.2.2).r 3 = 32 := ⟨rfl, rfl, rfl⟩
  have run : runs 2 (cvt x.1 x.2.1 x.2.2.1 x.2.2.2) := ⟨rfl, rfl, rfl⟩
  intro c s w per r i scale
  have hr : r = 1 := by show c.prog * per / c.r 0 = 1; rw [fields.1]; exact ok.2.2.2.2.1
  have hi : i < 2 := by show c.prog * per % c.r 0 < 2; rw [fields.1]; omega
  have hp : per ≤ 2 := by show (if w = 4 then 2 else 1) ≤ 2; split <;> omega
  have hw : w ≤ 64 := ok.2.2.2.2.2.1
  have hpw : i * w / 8 + per * w / 8 ≤ 32 := by
    have := Nat.mul_le_mul_left i hw
    have := Nat.mul_le_mul hp hw
    omega
  refine ⟨performs (.inr rfl), ok.2.2.2.2.2.2.2.1, by rw [fields.1]; decide, by rw [fields.1], fun j hj => ?_, fun k => ⟨?_, ok.2.2.2.2.2.2.2.2 k, fields.1, eng_in run (by omega) nofun⟩, ?_, ?_⟩
  · rw [show c.a = tw 0x4000 from rfl, hr, fields.2.1, tw_add]; exact elem_in run (by omega) ok.2.2.2.2.2.2.1
  · rw [hr, fields.1]; have : i / 2 = 0 := by omega
    rw [this]; rfl
  · refine all_convert per _ _ _ _ (fun _ => 0) scale ?_
    rcases ok.1 with h | h
    · left; show (if c.sblk = 0 then none else _) = none; rw [if_pos (ok.2.2.1.trans h)]
    · right; rw [ok.2.1]; exact h
  · rw [show c.b = tw 0x5000 from rfl, hr, fields.2.2, tw_add, tw_add]; exact eng_in run (by omega) nofun
/-- CVQ of the second block of the second row, of zeros. -/
def cvq (sf df : Nat) : ECmd := { ec 2 true with a := tw 0x4000, b := tw 0x8000, prog := 3, stage := stageOf [(0, 256), (1, 1), (2, 1024), (3, 256), (4, 0x20 + sf * 4096 + df * 256), (5, tileBase + 0x6000)] }
theorem test_wit_EngineRuns_quantise : ∀ x ∈ [(1, 4), (2, 5), (3, 4)],
    let c := cvq x.1 x.2
    let s := engM c 2 (gmem [])
    let size := elWidth c.sfmt / 8
    Performing s 0 2 c true 2 ∧ c.prog < c.units ∧ c.sfmt ∈ [1, 2, 3] ∧ c.dfmt ∈ [4, 5] ∧ 128 ≤ c.r 0 ∧ 128 ∣ c.r 0 ∧ c.prog / (c.r 0 / 128) = 1 ∧ c.prog % (c.r 0 / 128) = 1 ∧
      (∀ z, ∃ (ys : List Nat) (fs : List Fp.Flags), ys.length = 128 ∧ fs.length = 128 ∧ ∀ j, j < 128 → Converted c.sfmt c.dfmt (Fp.modeOf c.rnd 0) (srOf c 1 (128 * 1 + j)) (some z) 0 (ys.getD j 0) (fs.getD j 0)) ∧
      InVault s c (c.a + ofN (1 * c.r 2) + ofN (128 * 1 * size)) (128 * size) (vaultKey 0 (0x4400 + 128 * size)) ∧ InVault s c (ofN (c.r 5 + 4 * (1 * 2 + 1))) 4 (vaultKey 0 0x600C) ∧
      InVault s c (c.b + ofN (1 * c.r 3) + ofN (128 * 1)) 128 (vaultKey 0 0x8180) ∧ vaultKey 0 (0x4400 + 128 * size) + 128 * size ≤ vaultKey 0 0x600C ∧ vaultKey 0 0x600C + 4 ≤ vaultKey 0 0x8180 := by
  intro x h
  have ok : (cvq x.1 x.2).sfmt = x.1 ∧ x.1 < 7 ∧ elWidth (cvq x.1 x.2).sfmt / 8 ≤ 4 ∧ (cvq x.1 x.2).sfmt ∈ [1, 2, 3] ∧ (cvq x.1 x.2).dfmt ∈ [4, 5] ∧ 3 < (cvq x.1 x.2).units := by revert x; decide +kernel
  have run : runs 2 (cvq x.1 x.2) := ⟨rfl, rfl, rfl⟩
  intro c s size
  have hs : size ≤ 4 := ok.2.2.1
  refine ⟨performs (.inr rfl), ok.2.2.2.2.2, ok.2.2.2.1, ok.2.2.2.2.1, by show 128 ≤ 256; decide, by show 128 ∣ 256; decide, by show 3 / (256 / 128) = 1; decide, by show 3 % (256 / 128) = 1; decide, fun z => all_convert 128 _ _ _ _ (fun _ => 0) (some z) (.inr (by rw [ok.1]; exact ok.2.1)), ?_, ?_, ?_, by unfold vaultKey; omega, by decide⟩
  · rw [show c.a = tw 0x4000 from rfl, show 1 * c.r 2 = 0x400 from rfl, tw_add, tw_add, show 128 * 1 * size = 128 * size from by omega]; exact eng_in run (by omega) nofun
  · exact eng_in run (o := 0x600C) (by omega) nofun
  · rw [show c.b = tw 0x8000 from rfl, show 1 * c.r 3 = 256 from rfl, tw_add, tw_add]; exact eng_in run (by omega) nofun
/-- CVP of the second row of 512 elements to planes, and of the last of 20 columns of two rows. -/
def cvp (f : Nat) (col : Bool) : ECmd := { ec 1 true with a := tw 0x4000, b := tw 0x40000, prog := if col then 19 else 1, stage := stageOf [(0, if col then 20 else 512), (1, 1), (2, 0x1000), (4, f * 4096 + if col then 4 else 0)] }
theorem test_wit_EngineRuns_planes (f : Nat) (h : f ≤ 6) :
    let n := 64 * mxPlanes (cvp f false).sfmt
    let bits := fun c : ECmd => if c.sfmt = 0 ∨ c.sfmt = 3 then 4 else 8 * mxCell c.sfmt
    (∀ col, Performing (engM (cvp f col) 2 (gmem [])) 0 2 (cvp f col) true 1 ∧ (cvp f col).prog < (cvp f col).units ∧ (cvp f col).sfmt ≤ 6 ∧ (cvp f col).wcol = col) ∧
    ((List.replicate 512 0).length = (cvp f false).r 0 ∧ (∀ i, i < 512 → ElemIn (engM (cvp f false) 2 (gmem [])) (cvp f false) ((cvp f false).a + ofN ((cvp f false).prog * (cvp f false).r 2)) (bits (cvp f false)) i ((List.replicate 512 0).getD i 0)) ∧
      InVault (engM (cvp f false) 2 (gmem [])) (cvp f false) ((cvp f false).b + ofN (n * (cvp f false).prog)) n (vaultKey 0 (0x40000 + n))) ∧
    ((List.replicate 2 0).length = (cvp f true).rows ∧ (cvp f true).rows * mxCell (cvp f true).sfmt ≤ 512 ∧
      (∀ r, r < (cvp f true).rows → ElemIn (engM (cvp f true) 2 (gmem [])) (cvp f true) ((cvp f true).a + ofN (r * (cvp f true).r 2)) (bits (cvp f true)) (cvp f true).prog ((List.replicate 2 0).getD r 0)) ∧
      InVault (engM (cvp f true) 2 (gmem [])) (cvp f true) ((cvp f true).b + ofN (512 * (cvp f true).prog)) 512 (vaultKey 0 (0x40000 + 512 * 19))) := by
  have run : ∀ col, runs 2 (cvp f col) := fun _ => ⟨rfl, rfl, rfl⟩
  have z : ∀ n i, (List.replicate n 0).getD i 0 = 0 := fun n i => by simp [List.getD_eq_getElem?_getD, List.getElem?_replicate]; split <;> rfl
  have hn : 64 * mxPlanes (cvp f false).sfmt ≤ 4096 := by interval_cases f <;> decide
  have w : ∀ col, (cvp f col).sfmt ≤ 6 ∧ (cvp f col).wcol = col ∧ (cvp f col).prog < (cvp f col).units ∧ (cvp f col).rows * mxCell (cvp f col).sfmt ≤ 512 ∧ 8 * mxCell (cvp f col).sfmt / 8 ≤ 8 := by
    have : ∀ f ∈ List.range 7, ∀ col, (cvp f col).sfmt ≤ 6 ∧ (cvp f col).wcol = col ∧ (cvp f col).prog < (cvp f col).units ∧ (cvp f col).rows * mxCell (cvp f col).sfmt ≤ 512 ∧ 8 * mxCell (cvp f col).sfmt / 8 ≤ 8 := by decide +kernel
    exact this f (List.mem_range.mpr (by omega))
  have wb : ∀ col, (if (cvp f col).sfmt = 0 ∨ (cvp f col).sfmt = 3 then 4 else 8 * mxCell (cvp f col).sfmt) = 4 ∨ (if (cvp f col).sfmt = 0 ∨ (cvp f col).sfmt = 3 then 4 else 8 * mxCell (cvp f col).sfmt) / 8 ≤ 8 := fun col => by
    have := (w col).2.2.2.2
    split <;> omega
  refine ⟨fun col => ⟨performs (.inr rfl), (w col).2.2.1, (w col).1, (w col).2.1⟩, ⟨by rw [List.length_replicate]; rfl, fun i hi => ?_, ?_⟩, by rw [List.length_replicate]; rfl, (w true).2.2.2.1, fun r hr => ?_, ?_⟩
  · rw [z, show (cvp f false).a = tw 0x4000 from rfl, show (cvp f false).prog = 1 from rfl, show (cvp f false).r 2 = 0x1000 from rfl, tw_add]; exact elem_in (run _) (by omega) (wb _)
  · rw [show (cvp f false).b = tw 0x40000 from rfl, show (cvp f false).prog = 1 from rfl, Nat.mul_one, tw_add]; exact eng_in (run _) (by omega) nofun
  · have : r < 2 := hr
    rw [z, show (cvp f true).a = tw 0x4000 from rfl, show (cvp f true).r 2 = 0x1000 from rfl, tw_add]; exact elem_in (run _) (by show 0x4000 + r * 0x1000 + 8 * 20 ≤ _; omega) (wb _)
  · rw [show (cvp f true).b = tw 0x40000 from rfl, show (cvp f true).prog = 19 from rfl, tw_add]; exact eng_in (run _) (by omega) nofun
/-- The first granule of CPR's page, of which 0x200_0000 of die 0 is the old frame and 0x300_0000 the new one. -/
theorem test_wit_EngineRuns_granule :
    let s := rcS 3 true
    let ko := fun w => 0x2000000 + 8 * w
    let kn := fun w => 0x3000000 + 8 * w
    AtEngine s 0 0 rc 3 ∧ s.dev.feWait = [] ∧ plGran rc.old < 64 ∧ granuleSize rc.old / 8 = 32 ∧ (rc.base.toNat + rc.prog * granuleSize rc.old) % 32 = 0 ∧ (rc.prog + 1) * granuleSize rc.old < rc.size ∧
    (∀ w ∈ List.range 32, (match placeTarget s.dev (rc.uctx s.dev).master rc.ctx 0 false false (rc.base.toNat + rc.prog * granuleSize rc.old + 8 * w) rc.old rc.size false with | .byte k _ => decide (k = ko w) | _ => false) = true ∧
      (match placeTarget s.dev (rc.uctx s.dev).master rc.ctx 0 false true (rc.base.toNat + rc.prog * granuleSize rc.old + 8 * w) rc.b rc.size true with | .byte k _ => decide (k = kn w) | _ => false) = true) ∧
    (∀ w, w < 32 → kn w % 8 = 0 ∧ ko w % 8 = 0 ∧ kn w = kn (w / 4 * 4) + 8 * (w % 4) ∧ kn (w / 4 * 4) % 32 = 0 ∧ kn w < 2 ^ 72 ∧ ko w < 2 ^ 72) ∧ (∀ v w, v < w → w < 32 → kn v ≠ kn w) ∧ (∀ v w, v < 32 → w < 32 → kn v / 32 ≠ ko w / 32) :=
  ⟨⟨rfl, rfl, by decide, ⟨rfl, rfl, rfl⟩, rfl⟩, rfl, by decide, by decide, by decide, by decide, by decide +kernel, fun w h => by simp only []; omega, fun v w h k => by simp only []; omega, fun v w h k => by simp only []; omega⟩

/-! ## Witnesses: pre-emption, halt groups, arrivals, queues -/

/-- Supervisor thread in slot 1 of core 0.0.0, a thread in slot 2, save areas present, the row in RUN. g1 and g2 as given. -/
def sup (x y : D) : Thread := { setG th [(1, x), (2, y), (3, 0)] with priv := true }
def preS (x y : D) (t : Thread) : State :=
  ⟨({ Dev.reset with threads := [(1, sup x y), (2, t)], cur := 1 }.updCore 0 fun c => { c with sab := 3 }).updRow (rowKeyOf 0) fun r => { r with state := 2, live := 2 }, []⟩
theorem cache_room {d : Dev} {ca : Nat} (h : (d.core ca).tcc = []) : 1 ≤ (freeCache d ca).length := by
  simp [freeCache, h, Tbl.get?]
theorem cache_full (d : Dev) (ca : Nat) (t : Thread) : (freeCache (d.updCore ca fun c => { c with tcc := (List.range (Config.tccEntries + 1)).map fun i => (i, t) }) ca).length = 0 := by
  have key : ∀ n a i, a ≤ i → i < a + n → (Tbl.get? ((List.range' a n).map fun j => (j, t)) i).isNone = false := by
    intro n
    induction n with
    | zero => intro a i h1 h2; omega
    | succ n ih =>
      intro a i h1 h2
      rw [List.range'_succ, List.map_cons, Tbl.get?]
      by_cases e : i = a
      · simp [e]
      · rw [if_neg e, if_neg (by omega)]; exact ih (a + 1) i (by omega) (by omega)
  simp only [freeCache, List.length_eq_zero_iff, List.filter_eq_nil_iff, List.mem_range]
  intro i hi
  have := key (Config.tccEntries + 1) 0 i (by omega) (by omega)
  simp [Dev.updCore, Dev.core, List.range_eq_range', this]
theorem test_wit_Preemption_start :
    ((mk th).me.priv = false ∧ (mk th).canTrap ∧ (mk th).unitCore ∧ ((mk th).start.readGs [1, 1 + 1, 3]).isSome) ∧
    ((preS 0x20000 0 th).Inv ∧ (preS 0x20000 0 th).ready ∧ (preS 0x20000 0 th).me.priv = true ∧ (preS 0x20000 0 th).start.claim 3 ∧ ((preS 0x20000 0 th).start.readGs [1, 2]).isSome) ∧
    (¬(kindOf (fieldN (1 : D) 14 0) = 0) ∧ realCompute (fieldN (0x20000 : D) 14 0) = true ∧ bitN (0x20000 : D) 20 = false ∧ fieldN (0x20000 : D) 19 16 = 2 ∧ fieldN (0xF0000 : D) 19 16 = 15) ∧
    (((preS 0x20000 0 th).dev.row (rowKeyOf 0)).det = false ∧ ((preS 0x20000 0 th).dev.row (rowKeyOf 0)).gang = false ∧ ((preS 0 0 th).dev.thread 15).st = .vacant ∧ ((preS 0 0 th).dev.thread 2).st ≠ .vacant ∧
      ((preS 0 0 th).dev.row (rowKeyOf 0)).preempt = none ∧ (∀ p ∈ (preS 0 0 th).dev.preempts, 2 ∉ p.2.locs) ∧ bitN ((preS 0 0 th).dev.core 0).sab 0 = true ∧ bitN ((mk th).dev.core 0).sab 0 = false ∧
      (∀ y ∈ (preS 0 0 th).dev.bars, y.1 < 2 ^ 20 ∨ 2 ∉ y.2.regs) ∧ (∃ y ∈ [(2 ^ 20, { Bar.empty with regs := [2] })], 2 ^ 20 ≤ y.1 ∧ 2 ∈ y.2.regs) ∧ (preS 0 0 th).dev.lentOut.get? 2 = none ∧ retired (preS 0 0 th).dev 0 = false) ∧
    1 ≤ (freeCache (preS 0 0 th).dev 0).length ∧ (∃ s : State, (freeCache s.dev 0).length < 1) ∧
    (bitN (0x100000 : D) 20 = true ∧ ((preS 0 0 th).dev.row (rowKeyOf 0)).state = 2 ∧ bitN ((preS 0 0 th).dev.core (rowCore 0 3)).sab 0 = false) :=
  ⟨by decide, by decide, by decide, by decide, cache_room rfl, ⟨⟨_, []⟩, by rw [cache_full Dev.reset 0 th]; decide⟩, by decide⟩
/-- A row with its table bound in the slice of its first core. -/
def rowS : State :=
  ⟨({ (preS 0x100000 50 th).dev with cores := (List.range 4).map fun p => (rowCore 0 p, { Core.reset with sab := 1 }) }.updRow 0 fun r => { r with lrp := slice 0x100 }).updTile 0 fun tl => { tl with access := [(0, 0x100000003)] },
    [(vaultKey 0 0x10A, 1)]⟩
theorem test_wit_Preemption_row :
    (∀ p, p < 4 → bitN (rowS.dev.core (rowCore 0 p)).sab 0 = true) ∧ (match rowTable rowS.mem rowS.dev 0 with | .ok (some _) => true | _ => false) = true ∧ (∀ p ∈ rowS.dev.preempts, ∀ y ∈ p.2.locs, y ∉ rowSlots 0) ∧ rowS.Inv ∧ (rowS.dev.row 0).state = 2 ∧ (rowS.dev.row 0).preempt = none ∧
    (∀ y ∈ rowSlots 0, (rowS.dev.thread y).st ≠ .vacant → retired rowS.dev (rowS.dev.thread y).area = false) ∧
    (let p : Preempt := { locs := [2], row := none, mem := false, wake := false, due := 0, phase := 1, stops := [], failed := false }
     let s : State := ⟨{ (preS 0 0 th).dev with args := [1, 9], preempts := [(9, p)], arrs := [(9, ⟨1, [(.g 3, 0)], 0, false, none, [], false⟩)] }.updCore 0 fun c => { c with journal := [(31, { je with loc := 2 })] }, []⟩
     s.dev.preempts.get? 9 = some p ∧ s.waits 9 1 3 ∧ (s.dev.thread 2).st ≠ .vacant ∧ journalState s.dev 2 = some false ∧ (ev s.dev [9]).dev.args = [9]) ∧
    (let s : State := ⟨{ (preS 0 0 { th with pool := some 1, area := 0x42000, dirty := 2 }).dev with args := [0, 0] }, []⟩
     s.Inv ∧ bitN (s.dev.core 0).sab 1 = true ∧ streamNext s.dev 0 = some (2, false, 1) ∧ areaFault s.mem s.dev (s.dev.thread 2).area = none ∧ (s.dev.thread 2).area < 2 ^ 60 ∧ bitN (Core.reset).sab 1 = false) := by decide +kernel
/-- A live thread's name in a cache entry of core 0.0.0, with the table entry that says so. -/
def tcS (n : Q) (x : D) (mode : List Nat) (t2 : Thread) : State :=
  ⟨({ (preS x 0 t2).dev with args := mode, arrs := [(9, ⟨1, [(.g 3, 0)], 0, false, none, [], false⟩)] }.updDie 0 fun y => { y with ntcfg := 2 }).updCore 0 fun c => { c with tcc := [(0, { th with name := n })] }, nameMem n 1⟩
theorem tc_live (n : Q) (hc : nmClass n = 4) (hk : nmChip n = Config.chipTag.toNat) (x : D) (mode : List Nat) (t2 : Thread) : liveThread (tcS n x mode t2).mem (tcS n x mode t2).dev n = true := by
  have hl := name_lookup n (d := (tcS n x mode t2).dev) rfl rfl (by decide : 1 < 4) (by decide) (one_bucket rfl).1 (one_bucket rfl).2
  have hs := state_stands n (d := (tcS n x mode t2).dev) rfl rfl (by decide : 1 < 4)
  rw [show (tcS n x mode t2).mem = nameMem n 1 from rfl, liveThread, hc, hk, hl]
  simp [hs]
theorem tc_cached (n : Q) (h0 : (0 : Q) ≠ n) (x : D) (mode : List Nat) (t2 : Thread) (h : t2.name = 0) : findContext (tcS n x mode t2).dev n = some (.cache 0 0 { th with name := n }) := by
  have hs : (tcS n x mode t2).dev.threads = [(1, sup x 0), (2, t2)] := rfl
  have hl : (tcS n x mode t2).dev.lentOut = [] := rfl
  have hc : (tcS n x mode t2).dev.cores = [(0, { Core.reset with sab := 3, tcc := [(0, { th with name := n })] })] := rfl
  have hn : (sup x 0).name = 0 := by with_unfolding_all rfl
  have hd : decide ((0 : Q) = n) = false := decide_eq_false h0
  simp only [findContext, hs, hl, hc, List.any_cons, List.any_nil, hn, h, hd, Bool.and_false, Bool.or_false, Bool.false_eq_true, if_false]
  simp
theorem tc_cursors {n : Q} {x : D} {mode : List Nat} {t2 : Thread} : ∀ k ∈ List.range 4, ((tcS n x mode t2).dev.die k).cursors = [] := by intro k hk; fin_cases hk <;> rfl
theorem tc_claim {n : Q} {x : D} {mode : List Nat} {t2 : Thread} : (tcS n x mode t2).start.claim 3 :=
  ⟨by show (sup x 0).isQueue 3 = false; with_unfolding_all rfl, by show ((sup x 0).gr 3).st ≠ .absent; rw [show ((sup x 0).gr 3).st = .full from by with_unfolding_all rfl]; decide⟩
theorem area_free {d : Dev} (h : ∀ x ∈ List.range 4, (d.die x).cursors = []) (r : d.retraining = []) (a : Nat) : areaHeld d a = false := by
  simp [areaHeld, phys_free h r]
theorem save_ok {m : Mem} {d : Dev} (t : Thread) (w : D) {k : Nat} (h : areaFault m d k = none) : ∃ d', saveArea m d t w k true = .ok d' := by
  simp [saveArea, h]
theorem tc_area (n : Q) (x : D) (mode : List Nat) (t2 : Thread) : areaFault (tcS n x mode t2).mem (tcS n x mode t2).dev 0x40000 = none := by
  have : ∀ a, uncorrectable (tcS n x mode t2).mem (tcS n x mode t2).dev a = false := by
    intro a
    rw [uncorrectable, rdB_quiet rfl rfl, show (tcS n x mode t2).mem = nameMem n 1 from rfl, nameMem_read, if_neg (by simp [errKey]; omega), if_neg (by simp [errKey]; omega)]
    rfl
  simp [areaFault, this, show retired (tcS n x mode t2).dev 0x40000 = false from rfl]
theorem test_wit_Preemption_name : ∃ n : Q, nmClass n = 4 ∧ nmChip n = Config.chipTag.toNat ∧ 0 ≠ n :=
  have h : nmClass (nameOf 4 Config.chipTag.toNat 3) = 4 ∧ _ := own_fields (by decide) (by decide)
  ⟨_, h.1, h.2, fun e => by rw [← e] at h; exact absurd h.1 (by decide)⟩
theorem test_wit_Preemption_restore (n : Q) (hc : nmClass n = 4) (hk : nmChip n = Config.chipTag.toNat) (h0 : 0 ≠ n) :
    (∀ x mode, (tcS n x mode th).Inv ∧ (tcS n x mode th).waits 9 1 3 ∧ liveThread (tcS n x mode th).mem (tcS n x mode th).dev n = true ∧ findContext (tcS n x mode th).dev n = some (.cache 0 0 { th with name := n }) ∧
      canStart (tcS n x mode th).dev 0 = true ∧ ((tcS n x mode th).dev.thread 3).st = .vacant ∧ ((tcS n x mode th).dev.row (rowKeyOf 0)).state = 2 ∧ ((tcS n x mode th).dev.row (rowKeyOf 0)).launch = th.launch ∧
      (tcS n x mode th).dev.preempts = [] ∧ bitN ((tcS n x mode th).dev.core 0).sab 0 = true ∧ retired (tcS n x mode th).dev 0x40000 = false ∧ (tcS n x [9, n.toNat, x.toNat] th).dev.args = [9, n.toNat, x.toNat] ∧ (tcS n x mode th).start.claim 3 ∧
      tableHeld (tcS n x mode th).dev 0 n = false ∧ areaHeld (tcS n x mode th).dev 0x40000 = false ∧ ({ th with name := n } : Thread).hgrp = none ∧ ({ th with name := n } : Thread).records = []) ∧
    (∀ x mode, ((tcS n x mode { th with st := .faulted }).dev.thread 2).st = .faulted ∧ findContext (tcS n x mode { th with st := .faulted }).dev n = some (.cache 0 0 { th with name := n })) ∧
    (∀ x mode, ∃ d', saveArea (tcS n x mode th).mem (tcS n x mode th).dev { th with name := n } (savedTst (tcS n x mode th).dev { th with name := n }) 0x40000 true = .ok d') ∧
    liveThread [] Dev.reset n = false ∧ findContext { (mk th).dev with threads := [(1, { th with name := n })] } n = some .slot :=
  ⟨fun x mode => ⟨⟨nameMem_wf n 1, rfl, rfl⟩, rfl, tc_live n hc hk .., tc_cached n h0 _ _ _ rfl, by with_unfolding_all rfl, rfl, rfl, rfl, rfl, show bitN (3 : D) 0 = true by decide, rfl, rfl, tc_claim, not_held tc_cursors rfl _ _, area_free tc_cursors rfl _, rfl, rfl⟩, fun x mode => ⟨rfl, tc_cached n h0 _ _ _ rfl⟩, fun x mode => save_ok _ _ (tc_area ..),
    by simp [liveThread, empty_lookup Dev.reset rfl rfl], by simp [findContext, Thread.live, th]⟩
theorem test_wit_Preemption_modes :
    (fieldN (3 * 8 : D) 2 0 = 0 ∧ fieldN (3 * 8 : D) 21 7 = 0 ∧ fieldN (3 * 8 : D) 6 3 = 3 ∧ fieldN (3 * 8 + 1 : D) 2 0 = 1 ∧ fieldN (2 * 8 + 2 : D) 2 0 = 2 ∧ fieldN (0x40000 + 4 : D) 2 0 = 4 ∧ fieldN (0x40000 + 4 : D) 10 3 = 0 ∧
      fieldN (0x40004 : D) 12 11 * 2 ^ 56 + fieldN (0x40004 : D) 63 13 * 8192 % 2 ^ 56 = 0x40000 ∧ realCompute 0 = true) ∧
    (let s : State := ⟨{ Dev.reset with args := [(5 : Q).toNat], threads := [(1, { th with st := .faulted, name := 5 })] }, []⟩
     s.dev.args = [(5 : Q).toNat] ∧ s.dev.threads = [(1, { th with st := .faulted, name := 5 })] ∧ (s.dev.thread 1).st = .faulted) := by decide +kernel
/-- Halt group 3, halted or not, with a thread of it. -/
def haltS (h : Bool) (x y : D) (t : Thread) : State := ⟨{ (preS x y { t with hgrp := some 3 }).dev with hgc := Dev.reset.hgc.set 3 (if h then 1 else 0) }, []⟩
theorem test_wit_HaltGroups :
    ((haltS true 3 0 th).ready ∧ (haltS true 3 0 th).unitCore ∧ (haltS true 3 0 th).me.priv = true ∧ (haltS true 3 0 th).me.st = .run ∧ (haltS true 3 0 th).start.claim 3 ∧ ((haltS true 3 0 th).start.readGs [1, 2]).isSome ∧
      ((haltS true 3 0 th).start.readGs [1]).isSome) ∧
    ((haltS true 3 0 th).isHalted 3 ∧ ¬(haltS false 3 0 th).isHalted 3 ∧ groupSet (haltS true 3 0 th).dev 3 = [3] ∧ bitN (1 : D) 0 = true) ∧
    ((0x40 : D).toNat % 64 = 0 ∧ winCode 0x40 = 0 ∧ (0x41 : D).toNat % 64 ≠ 0 ∧ realCompute (fieldN (0 : D) 14 0) = true ∧ realCompute (fieldN (1 : D) 14 0) = false ∧ ((haltS true 0x40 0 th).dev.row (rowKeyOf 0)).state = 2 ∧ ((mk th).dev.row (rowKeyOf 0)).state ≠ 2) ∧
    (((haltS true 0x20000 31 th).dev.thread 2).hgrp.getD 31 < 32 ∧ fieldN (31 : D) 4 0 = 31 ∧ fieldN (16 : D) 4 0 = 16 ∧ isGang (haltS true 0x20000 31 th).dev 2 = false ∧ ((haltS true 0x20000 31 th).dev.thread 2).st ≠ .vacant) ∧
    (let t : Thread := { th with st := .halted, preHalt := .run }
     (haltS true 3 0 t).dev.threads.filter (fun z => z.2.st = .halted) = [(2, { t with hgrp := some 3 })] ∧ (haltS true 3 0 t).dev.thread 2 = { t with hgrp := some 3 } ∧ t.limit = none) ∧
    (let s := ev (haltS true 3 0 { th with st := .faulted }).dev [3, 0]
     s.dev.args = [3, 0] ∧ s.isHalted 3 ∧ (s.dev.thread 2).st = .faulted ∧ (s.dev.thread 2).hgrp = some 3) ∧
    (let s : State := ⟨{ (haltS true 3 0 th).dev with args := [3], threads := [(2, { th with st := .halted, preHalt := .run, hgrp := some 3 })] }, []⟩
     s.dev.args = [3] ∧ s.isHalted 3 ∧ (s.dev.thread 2).st = .halted ∧ 3 ∈ groupSet s.dev 3) ∧
    (let s := ev (haltS false 3 0 { th with stepping := true }).dev [3, 9]
     s.dev.args = [3, 9] ∧ s.dev.cycle < 9 ∧ (∃ z ∈ s.dev.threads, z.2.stepping = true ∧ z.2.st = .run ∧ z.2.hgrp = some 3) ∧ ∀ z ∈ (mk th).dev.threads, z.2.stepping = false) ∧
    ({ (haltS false 3 0 th).dev with jtagOpen := true }.jtagOpen = true ∧ (haltS true 3 0 th).dev.jtagOpen = false ∧ ({ th with limit := none } : Thread).limit = none) ∧
    ((ev (haltS false 3 0 th).dev [2]).dev.args = [2] ∧ ((haltS false 3 0 th).dev.thread 2).st ≠ .halted) := by decide +kernel
/-- What saves to a retired area, itself or behind a LENT slot; a wake and a trigger at a frozen core; the operations of JTAG. -/
theorem test_wit_Preemption_retired :
    (let s : State := ⟨(preS 0 0 { th with area := 0x2000 }).dev.updDie 0 fun x => { x with badPages := [0] }, []⟩
     s.retiredAt 2) ∧
    (let s : State := ⟨{ (preS 0 0 th).dev.updDie 0 fun x => { x with badPages := [0x40] } with lentOut := [(2, (3, { th with area := 0x400000 }))] }, []⟩
     s.retiredAt 2 ∧ retired s.dev (s.dev.thread 2).area = false) ∧ ¬(preS 0 0 { th with area := 0x400000 }).retiredAt 2 ∧
    (let s : State := ⟨{ Dev.reset with args := [(5 : Q).toNat], threads := [(1, { th with st := .faulted, name := 5 })], cores := [(0, { Core.reset with frozen := true })] }, []⟩
     s.dev.args = [(5 : Q).toNat] ∧ s.dev.threads = [(1, { th with st := .faulted, name := 5 })] ∧ (s.dev.core (coreOf 1)).frozen = true ∧ (Dev.reset.core 0).frozen = false) := by
  refine ⟨.inl (by decide +kernel), ⟨.inr ⟨_, rfl, by decide +kernel⟩, by decide +kernel⟩, ?_, by decide +kernel⟩
  rintro (h | ⟨y, h, _⟩)
  · exact absurd h.2 (by decide +kernel)
  · exact nomatch h
theorem test_wit_HaltGroups_jtag :
    (let s : State := ⟨{ (haltS true 3 0 th).dev with args := [3, 0], cores := [(0, { Core.reset with frozen := true })] }, []⟩
     s.isHalted 3 ∧ (s.dev.core 0).frozen = true ∧ ((haltS true 3 0 th).dev.core 0).frozen = false) ∧
    (∀ o, (⟨{ (haltS true 3 0 th).dev with jtagOpen := o }, []⟩ : State).dev.jtagOpen = o) ∧ (haltS true 3 0 th).isHalted 3 ∧ (haltS true 3 0 th).dev.hgc.toArray[3]? = some 1 ∧ (haltS true 3 0 th).dev.hbp.toArray[4 * 3 + (4 - 1)]? = some 0 ∧
    (∀ as ∈ [[3, 1], [3, 2], [3, 3, 0, 8], [3, 3, 4, 2 ^ 64 - 1], [3, 4, 0], [3, 4, 4]], (ev (haltS true 3 0 th).dev as).dev.args = as) := ⟨by decide, fun _ => rfl, by decide, by decide, by decide, by decide⟩
/-- Words of memory, as a step writes them. -/
def words (l : List (Nat × D)) : Mem := (commit [] (l.foldl (fun d x => wr64 d x.1 x.2) Dev.reset)).mem
/-- Page tables with root 0x1_0000 whose one leaf, of 1 GiB at address 0, holds `hbmPage`; its frames start at 0x4000_0000 of die 0. -/
def tables : List (Nat × D) := [(0x10000, 0x20000), (0x10008, 1), (0x20000, 0x30000), (0x20008, 1), (0x30000, hbmPage), (0x30008, 0x3F)]
def pgS (t : Thread) (m : Mem) : State :=
  ⟨(({ (mk t).dev with stage2 := [⟨0, 0x10000, 0, 2 ^ 30, true, true, true, none, 0x40000000, false, none⟩] }.updRow (rowKeyOf 0) fun r => { r with ctx := r.ctx.set 0 0x10000 }).updDie 0 fun x =>
    { x with access := [(0, 0x3FFFFFFFF)], baseAccess := [(0, 0x3FFFFFFFF)], ntcfg := 2 }), m⟩
theorem test_wit_Arrivals_values :
    (let s : State := ⟨{ (mk { setG th [(1, 5)] with faults := [] }).dev with args := [4], arrs := [(4, ⟨1, [(.g 3, 7)], 4, true, none, [], false⟩)], threads := [(1, (setG th [(1, 5)]).pendG 3 4)] }, []⟩
     s.dev.args = [4] ∧ s.dev.lentOut.get? 1 = none ∧ s.dev.arrs.get? 4 = some ⟨1, [(.g 3, 7)], 4, true, none, [], false⟩ ∧ ((s.dev.thread 1).gr 3).prod = .pend 4 ∧ ((s.dev.thread 1).gr 1).prod ≠ .pend 4) ∧
    (let s : State := ⟨{ (mk th).dev with args := [4], arrs := [(4, ⟨1, [(.v 3, 7)], 0, false, none, [], false⟩), (5, ⟨1, [(.xa, 7)], 0, false, none, [], false⟩)], threads := [(1, th.pendV 3 4)] }, []⟩
     s.dev.arrs.get? 4 = some ⟨1, [(.v 3, 7)], 0, false, none, [], false⟩ ∧ ((s.dev.thread 1).vr 3).prod = .pend 4 ∧ s.dev.arrs.get? 5 = some ⟨1, [(.xa, 7)], 0, false, none, [], false⟩) ∧
    (let f : DFault := ⟨0x10000, 0x0C, 0, 8, true⟩
     let s : State := ⟨{ (mk th).dev with args := [4], arrs := [(4, ⟨1, [(.g 3, 0)], 0, false, some f, [], false⟩)], threads := [(1, th.pendG 3 4)] }, []⟩
     s.dev.args = [4] ∧ s.dev.arrs.get? 4 = some ⟨1, [(.g 3, 0)], 0, false, some f, [], false⟩ ∧ ((s.dev.thread 1).gr 3).prod = .pend 4) := by decide +kernel
theorem test_wit_Arrivals_pages :
    (let w : Walk := ⟨1, 0x10000, 0x100000, 0, true⟩
     let s : State := ⟨{ (pgS th (words tables)).dev with args := [1, (0x100000 : D).toNat, 0] }.updTile 0 fun tl => { tl with walks := [w] }, words tables⟩
     s.Inv ∧ s.dev.args = [1, (0x100000 : D).toNat, 0] ∧ (s.dev.tile (tlbTile 1)).walks = [w] ∧ (walk s.mem s.dev w.ctx 0x100000 0 w.user).2 = .leaf hbmPage 0x3F 2 ∧ (s.dev.tile (tlbTile 1)).tlb.length < 512 ∧
       walkHeld s.mem s.dev w.ctx 0x100000 = false ∧ walkHeld [] s.dev w.ctx 0x100000 = false ∧
       walkHeld s.mem { s.dev.updDie 0 fun x => { x with cursors := [(0, ⟨true, 0, hbmPage, 0, hbmPage, 9, 65536⟩)] } with stage2 := [⟨0, 9, 0, 65536, true, true, true, none, 0x30000, false, none⟩] } w.ctx 0x100000 = true ∧
       (match (walk [] s.dev w.ctx 0x100000 0 w.user).2 with | .refused .. => true | _ => false) = true) ∧
    (let s : State := ⟨{ (pgS th (words tables)).dev with args := [1, 0x1000] }, words tables⟩
     s.Inv ∧ walkHeld s.mem s.dev (rootOf (ctxOf s.dev 1)) (256 * 0x1000) = false ∧ walkHeld [] s.dev (rootOf (ctxOf s.dev 1)) (256 * 0x1000) = false ∧ 256 * 0x1000 < 2 ^ 64 ∧ firstStage s.mem s.dev (rootOf (ctxOf s.dev 1)) (256 * 0x1000) 2 true = .leaf hbmPage 0x3F 2 ∧
       pageTarget s.dev (masterOf ((s.dev.thread 1).at 1)) (rootOf (ctxOf s.dev 1)) 0x3F true false (256 * 0x1000) hbmPage (leafSize 2) = .byte 0x40100000 1000 ∧
       (∀ i, i < 8 → Mem.read s.mem (errKey (0x40100000 + 32 * i)) = 0) ∧ (match firstStage [] s.dev (rootOf (ctxOf s.dev 1)) (256 * 0x1000) 2 true with | .refused .. => true | _ => false) = true) ∧
    (let p : Part := ⟨0x100000, 8, 0, 0, some hbmPage, 65536, 0x3F⟩
     let s : State := ⟨{ (pgS th []).dev with args := [5], reqs := [(5, { rq (.ld true) with parts := [p] })], stage2 := [⟨0, 0x10000, 0, 2 ^ 30, false, true, true, none, 0, false, none⟩] }, []⟩
     s.dev.args = [5] ∧ s.dev.reqs.get? 5 = some { rq (.ld true) with parts := [p] } ∧ target s.dev { rq (.ld true) with parts := [p] } p = .nonresident 0) := by decide +kernel
theorem test_wit_Arrivals_held (op : ROp) (h : op ∈ [ROp.ld true, .st]) :
    ((atState op).dev.reqs.get? 5).isSome ∧ AtVault (State.retry (atState op) 5 { rq op with phase := .waiting }) 5 { rq op with phase := .sent } pt (vaultKey 0 0x100) := by
  refine ⟨rfl, ?_⟩
  simp only [List.mem_cons, List.not_mem_nil, or_false] at h
  rcases h with rfl | rfl
  · exact at_vault (.ld true) (by decide)
  · exact at_vault .st (by decide)
/-- An access to the first word of a tile. -/
def compR (op : ROp) (dst : Dst) : Req := { rq op with parts := [⟨ofN tileBase, 8, 0, 77, none, 0, 0⟩], dst := dst }
/-- A COMP region at offset 0 of the tile, its table at 0x10_0000, with a stream limit. -/
def compS (slim : Nat) (m : Mem) (op : ROp) (dst : Dst) : State :=
  ⟨{ (mk th).dev with args := [5], reqs := [(5, compR op dst)] }.updTile 0 fun tl => { tl with access := [(0, 0x100000003)], rga := tl.rga.set 0 (ofN (2 ^ 32)), rgb := tl.rgb.set 0 (ofN (2 ^ 63 + slim * 2 ^ 32 + 0x100000)) }, m⟩
theorem test_wit_Arrivals_comp :
    ((compS 0 [] (.ld true) (.g 4)).Inv ∧ vaultLoc 0 (ofN tileBase) = some (0, 0) ∧ target (compS 0 [] (.ld true) (.g 4)).dev (compR (.ld true) (.g 4)) ⟨ofN tileBase, 8, 0, 77, none, 0, 0⟩ = .byte (4 * 2 ^ 56) 0 ∧ compKey (tileAt (compR (.ld true) (.g 4)).regions (compS 0 [] (.ld true) (.g 4)).dev) (4 * 2 ^ 56) = true ∧ (compRead [] (compS 0 [] (.ld true) (.g 4)).dev ((compS 0 [] (.ld true) (.g 4)).dev.tile 0) 0 0 8).isSome ∧
      compRead [(vaultKey 0 0x100006, 9)] (compS 0 [] (.ld true) (.g 4)).dev ((compS 0 [] (.ld true) (.g 4)).dev.tile 0) 0 0 8 = none ∧ Memory.wf [(vaultKey 0 0x100006, 9)] = true ∧
      (compWrite [] (compS 0x1FFFFFF [] .st .none).dev ((compS 0x1FFFFFF [] .st .none).dev.tile 0) 0 0 8 77).isSome ∧ compWrite [] (compS 0 [] .st .none).dev ((compS 0 [] .st .none).dev.tile 0) 0 0 8 77 = none) ∧
    (let s : State := ⟨{ (mk th).dev with args := [5], reqs := [(5, { rq (.amo 0) with sf := true })] }, []⟩
     s.dev.args = [5] ∧ s.dev.reqs.get? 5 = some { rq (.amo 0) with sf := true } ∧ (rq (.amo 0)).parts = [pt] ∧ (rq (.amo 0)).dst = .g 4) := by decide +kernel
/-- A row of y that goes to a page. -/
theorem test_wit_Walk_page :
    (let q := pageQ0 (.rows 0x100040 [77] 0 none)
     let s : State := ⟨{ (pgS th (words tables)).dev with args := [4, 1], gramQ := [(4, q)] }, words tables⟩
     rowPart s.mem { s.dev with wbuf := [], wclear := [] } 4 q (0x100040 + ofN (8 * 0)) 77 = .ok ⟨0x100040, 8, 0, 77, some hbmPage, 2 ^ 30, 0x3F⟩) := by decide +kernel
/-- Nodes that need no correction; a remote update with its page here; a conversion to a page that no vault backs. -/
theorem test_wit_Arrivals_clean :
    (let s : State := ⟨(pgS th (words tables)).dev, words tables⟩
     s.nodesClean 0x10000 0x100000) ∧
    (let s : State := ⟨{ (mk th).dev with args := [5], reqs := [(5, rq (.red 0))] }, []⟩
     s.dev.args = [5] ∧ s.dev.reqs.get? 5 = some (rq (.red 0)) ∧ (∀ p ∈ (rq (.red 0)).parts, ∀ die, target s.dev (rq (.red 0)) p ≠ .nonresident die) ∧ (∃ op, (rq (.red 0)).op = .red op) ∧ (∀ sg, (rq (.red 0)).op ≠ .ld sg) ∧ (rq (.red 0)).op ≠ .st) := by
  refine ⟨by unfold State.nodesClean; decide +kernel, rfl, rfl, fun p h die => ?_, ⟨0, rfl⟩, nofun, nofun⟩
  have : (match target (mk th).dev (rq (.red 0)) pt with | .nonresident _ => false | _ => true) = true := by decide +kernel
  rw [List.mem_singleton.mp h]
  intro e
  have e' : target (mk th).dev (rq (.red 0)) pt = .nonresident die := e
  rw [e'] at this; cases this
theorem test_wit_EngineRuns_reason :
    let c := { ec 1 true with a := tw 0x4000, b := 0x100000, ctx := 0x10000, stage := stageOf [(0, 16)] }
    let s : State := ⟨{ (pgS th (words tables)).dev.updTile 0 fun tl => { tl with engines := tl.engines.set! 2 ⟨0, some c, none⟩ } with args := [0, 2, 7, 1] }, words tables⟩
    AtEngine s 0 2 c 1 ∧ c.refuse = none ∧ startHeld s.mem s.dev c = false ∧ startWaits s.mem s.dev c = none ∧ startReason s.mem s.dev c = some 0x45 :=
  ⟨⟨rfl, rfl, by decide, by decide +kernel, rfl⟩, rfl, by decide +kernel, by decide +kernel, by decide +kernel⟩
/-- A queue's header at 0x10_0000: ring at 0x10_0100, 2 entries, HEAD and TAIL. -/
def header (hd tl : D) : List (Nat × D) := tables ++ [(0x40100000, 0x100100), (0x40100008, 2), (0x40100010, hd), (0x40100018, tl)]
def qcEntry (n : Q) : NcEntry := ⟨n, 0, 0, 0x100000, 0⟩
/-- The queue's name in the tile's cache, and a thread about to dequeue, an entry about to be appended. -/
def quS (n : Q) (m : Mem) (t : Thread) (args : List Nat) : State :=
  ⟨({ (pgS t m).dev with args := args, arrs := [(9, ⟨1, [], 0, false, none, [], false⟩)] }.updTile 0 fun tl => { tl with ncache := [(0, [qcEntry n])] }).updCore 0 fun c =>
    { c with journal := [(31, { je with kind := .send, refused := none, addr := n.setWidth 64, addrHi := (n >>> 64).setWidth 64, msg := [1, 2, 3, 4], orig := none })] }, m⟩
theorem quS_cached (n : Q) (hk : nmChip n = Config.chipTag.toNat) (m : Mem) (t : Thread) (args : List Nat) : cachedName (quS n m t args) 0 n (qcEntry n) := by
  refine ⟨hk, not_held (by intro k h; fin_cases h <;> rfl) rfl _ _, 0, rfl, ?_⟩
  have hb : tableBuckets (quS n m t args).dev 0 = 1 := (one_bucket rfl).2
  have h0 : ncSet (quS n m t args).dev (tileDie 0) n = 0 := by simp [ncSet, homeBucket, tileDie, hb, Nat.mod_one]
  have hn : ((quS n m t args).dev.tile 0).ncache = [(0, [qcEntry n])] := rfl
  rw [ncFind, h0, hn]
  simp [Tbl.getD, Tbl.get?, qcEntry]
/-- What the header reads as, and the entries at HEAD and TAIL; an entry's key. -/
abbrev headerIs (m : Mem) (t : Thread) (hd tl : Nat) (slot : Nat) (wr : Bool) : Prop :=
  (match readHeader m (pgS t m).dev 1 0x100000 with | .ok h => decide (h = ⟨0x40100000, 0x100100, 2, hd, tl⟩) | .error _ => false) = true ∧
  (match keyOfVa m (pgS t m).dev 1 (0x100100 + ofN (64 * (slot % 2))) wr with | .ok k => decide (k = 0x40100100 + 64 * (slot % 2)) | .error _ => false) = true
def waiter (n : Q) : Thread := { th with st := .parked, wait := .namedQueue 6 n, waitId := 9, held := [(10, .ofVal 0)] }
theorem test_wit_Queues_named (n : Q) (hk : nmChip n = Config.chipTag.toNat) :
    (∀ m t args, cachedName (quS n m t args) 0 n (qcEntry n)) ∧ (∀ m t args, ∃ e, ((quS n m t args).dev.core 0).journal.get? 31 = some e ∧ e.placed = false ∧ e.refused = none ∧ 4 ≤ e.msg.length ∧ e.addrHi ++ e.addr = n ∧ e.loc = 1) ∧
    (∀ m args, ((quS n m (waiter n) args).dev.arrs.get? ((quS n m (waiter n) args).dev.thread 1).waitId).isSome ∧ ((quS n m (waiter n) args).dev.thread 1).st = .parked ∧ ((quS n m (waiter n) args).dev.thread 1).mig = none ∧ ((quS n m (waiter n) args).dev.thread 1).wait = .namedQueue 6 n) :=
  ⟨quS_cached n hk, fun _ _ _ => ⟨_, rfl, rfl, rfl, Nat.le_refl 4, halves n, rfl⟩, fun _ _ => ⟨rfl, rfl, rfl, rfl⟩⟩
theorem test_wit_Queues_name : ∃ n : Q, nmClass n = 5 ∧ nmSeq n = 3 ∧ nmChip n = Config.chipTag.toNat :=
  have h := nameOf_fields (c := 5) (seq := 3) (by decide) Config.chipTag.isLt (by decide)
  ⟨_, h.1, h.2.2, h.2.1⟩
theorem test_wit_Queues :
    (headerIs (words (header 1 2)) th 1 2 2 true ∧ headerIs (words (header 1 2)) th 1 2 1 true ∧ headerIs (words (header 0 2)) th 0 2 2 true ∧ headerIs (words (header 2 2)) th 2 2 2 true ∧
      (match readHeader (words (header 0 0 ++ [(0x40100008, 3)])) (pgS th []).dev 1 0x100000 with | .error (some r) => decide (r = 2) | _ => false) = true ∧ (0x40100000 + 32 ≤ 0x40100100 ∧ 0x40100140 < 2 ^ 71)) ∧
    ((quS 0 (words (header 0 0)) th [0, 31, 20]).Inv ∧ (quS 0 (words (header 0 0)) th [0, 31, 20]).dev.args = [0, 31, 20] ∧ nmClass (nameOf 4 0 1) ≠ 5) ∧
    (let x : Msg := ⟨[], 0, 1, 1, none⟩
     let s := fun (i o h : List Msg) => (⟨{ (mk th).dev with args := [0] }.updCore 0 fun c => { c with inbox := i, overflow := o, held := h }, []⟩ : State)
     ((s [] [x] []).dev.core 0).overflow = [x] ∧ ((s [] [x] []).dev.core 0).inbox.length < 32 ∧ 32 ≤ ((s (List.replicate 32 x) [x] []).dev.core 0).inbox.length ∧ ((s [] [] [x]).dev.core 0).held = [x] ∧ x.dest = none ∧ ((s [] [x] []).dev.thread (0 * 16 + x.slot)).awaits .inbox = false ∧
       (let y : Msg := { x with slot := 1, dest := some th.name }; ((s [] [] [y]).dev.thread 1).st ≠ .vacant ∧ y.dest = some ((s [] [] [y]).dev.thread 1).name ∧ ((s [] [] [y]).dev.thread 1).awaits .inbox = false) ∧
       1024 ≤ ((s [] (List.replicate 1024 x) [x]).dev.core 0).overflow.length ∧ coreHalted (s [] (List.replicate 1024 x) [x]).dev 0 = false) := by decide +kernel

/-- At the head of a queue's waiters, or behind another; a ring that spills. -/
theorem test_wit_Queues_order :
    AtHead ([] : List (Nat × Nat × Nat)) 5 (0, 31) ∧ AtHead [(5, 0, 31), (5, 1, 30)] 5 (0, 31) ∧ ¬AtHead [(5, 1, 30)] 5 ((0, 31) : Nat × Nat) ∧ (∀ z ∈ [((5, 1, 30) : Nat × Nat × Nat)], z.2 = (0, 31) → z.1 = 5) ∧
    AtHead [(5, 1), (5, 2)] 5 1 ∧ ¬AtHead [(5, 2)] 5 1 ∧ (∀ z ∈ [((5, 2) : Nat × Nat)], z.2 = 1 → z.1 = 5) ∧
    (let x : Msg := ⟨[], 0, 1, 1, none⟩
     let s : State := ⟨{ (mk th).dev with args := [0] }.updCore 0 fun c => { c with spill := [(0, 31, 40)], held := [x] }, []⟩
     (s.dev.core 0).spill ≠ [] ∧ (s.dev.core 0).overflow.length < 1024 ∧ (s.dev.core 0).held = [x] ∧ ((mk th).dev.core 0).spill = []) := by
  refine ⟨⟨by simp, by simp⟩, ⟨by simp, by simp⟩, fun h => ?_, by simp, ⟨by simp, by simp⟩, fun h => ?_, by simp, by decide⟩
  · exact absurd (h.2 (5, 1, 30) (by simp)) (by decide)
  · exact absurd (h.2 (5, 2) (by simp)) (by decide)

/-! ## Witnesses: ports, the host, the platform -/

theorem by_bar (s : State) (die : Nat) (wr : Bool) (h : (!s.dev.stuck && !s.dev.frozenMs.contains hostMaster && (!bitN (s.dev.die die).ctrl 1 || grants ((s.dev.die die).access.getD 4352 0) 0 wr)) = true) : s.byBar die wr := by
  simp only [Bool.and_eq_true, Bool.not_eq_true', Bool.or_eq_true] at h
  exact ⟨h.1.1, h.1.2, h.2⟩
/-- The host's accesses through BAR0: before READY, after it with the right in its table, frozen, and without the right. -/
def barHost (frozen ready : Bool) (right : D) (args : List Nat) : State :=
  ⟨(List.range 4).foldl (fun d k => d.updDie k fun x => { x with ctrl := if ready then 2 else 0, access := [(4352, right)] }) { (mk th).dev with args := args, frozenMs := if frozen then [hostMaster] else [] }, []⟩
theorem bar_dies (f r : Bool) (w : D) (args : List Nat) : (barHost f r w args).dev.dies = (barHost f r w []).dev.dies := rfl
theorem bar_die (f r : Bool) (w : D) (args : List Nat) (k : Nat) : (barHost f r w args).dev.die k = (barHost f r w []).dev.die k := by unfold Dev.die; rw [bar_dies]
theorem test_wit_ControlSpans_bar :
    (∀ args die, die < 4 → ∀ wr, (barHost false false 0 args).byBar die wr) ∧ (∀ args die, die < 4 → ∀ wr, (barHost false true 0x300000003 args).byBar die wr) ∧
    (∀ args, hostMaster ∈ (barHost true true 0 args).dev.frozenMs ∧ (barHost true true 0 args).dev.stuck = false ∧ (barHost true true 0 args).dev.args = args) ∧
    (∀ args, hostMaster ∉ (barHost false true 0 args).dev.frozenMs ∧ ∀ die, die < 4 → ∀ wr, bitN ((barHost false true 0 args).dev.die die).ctrl 1 = true ∧ grants (((barHost false true 0 args).dev.die die).access.getD 4352 0) 0 wr = false) := by
  have h : ∀ die ∈ List.range 4, ∀ wr ∈ [false, true], bitN ((barHost false false 0 []).dev.die die).ctrl 1 = false ∧ grants (((barHost false true 0x300000003 []).dev.die die).access.getD 4352 0) 0 wr = true ∧
      bitN ((barHost false true 0 []).dev.die die).ctrl 1 = true ∧ grants (((barHost false true 0 []).dev.die die).access.getD 4352 0) 0 wr = false := by decide +kernel
  have m : ∀ wr : Bool, wr ∈ [false, true] := by decide
  refine ⟨fun args die k wr => ⟨rfl, rfl, .inl ?_⟩, fun args die k wr => ⟨rfl, rfl, .inr ?_⟩, fun args => ⟨List.mem_singleton.mpr rfl, rfl, rfl⟩, fun args => ⟨(fun h => nomatch (show hostMaster ∈ [] from h)), fun die k wr => ?_⟩⟩
  · rw [bar_die]; exact (h die (List.mem_range.mpr k) wr (m wr)).1
  · rw [bar_die]; exact (h die (List.mem_range.mpr k) wr (m wr)).2.1
  · rw [bar_die]; exact (h die (List.mem_range.mpr k) wr (m wr)).2.2
theorem test_wit_ControlSpans_words :
    (let s := ev (mk th).dev [3, 15 * 0x100000 + 0x10000 + 8 * 8191, (0x1FFFFFFFF : D).toNat]
     s.spanWrites 3 (15 * 0x100000 + (0x10000 + 8 * 8191)) 0x1FFFFFFFF) ∧
    (ev (mk th).dev [0, 0x1000000 + 0x8000 + 8 * 8191, 1]).spanWrites 0 (0x1000000 + (0x8000 + 8 * 8191)) 1 :=
  ⟨⟨by_bar _ _ _ (by decide), by decide, rfl⟩, by_bar _ _ _ (by decide), by decide, rfl⟩
theorem test_wit_ControlSpans_page :
    (fieldN (0x1FFFFFFFF : D) 32 0 ≠ 0 ∧ fieldN (0x200000000 : D) 32 0 = 0) ∧ (fieldN (30 : D) 5 0 ≤ 30 ∧ 16 ≤ fieldN (16 : D) 5 0) ∧
    (let p : Part := ⟨0x100000, 8, 0, 0, some (setField (setField 0 63 62 2) 61 58 1), 65536, 0x3⟩
     let s : State := ⟨{ (pgS th []).dev with args := [5], reqs := [(5, { rq (.ld true) with parts := [p], user := false })], stage2 := [⟨0, 0x10000, 0x100000, 65536, true, true, false, none, 0xFF01000000, false, none⟩] }, []⟩
     s.Inv ∧ s.dev.args = [5] ∧ s.dev.reqs.get? 5 = some { rq (.ld true) with parts := [p], user := false } ∧ target s.dev { rq (.ld true) with parts := [p], user := false } p = .span 0 0x1000000) := by decide +kernel
theorem test_wit_ControlSpans_ports :
    (let s : State := ⟨{ (mk th).dev with args := [0, 2, (0x20000 : D).toNat, (1 : D).toNat, (2 : D).toNat, (0x10F : D).toNat, (0 : D).toNat, (0 : D).toNat, 0, 0] }.updCore (mkCore 0 50 1) fun c => { c with sab := 1 }, []⟩
     s.dev.args = [0, 2, (0x20000 : D).toNat, (1 : D).toNat, (2 : D).toNat, (0x10F : D).toNat, (0 : D).toNat, (0 : D).toNat, 0, 0] ∧ (s.dev.thread (mkCore 0 50 1 * 16 + 15)).st = .vacant ∧ s.dev.mint.stopped = false ∧
       pendingStarts s.dev (mkCore 0 50 1) = [] ∧ canStart s.dev (mkCore 0 50 1) = true) ∧
    (let s := ev (mk { th with start := .spwn }).dev [0, (0x300100 : D).toNat]
     s.dev.args = [0, (0x300100 : D).toNat] ∧ fieldN (0x300100 : D) 5 0 = 0 ∧ fieldN (0x300100 : D) 11 8 = 1 ∧ (s.dev.thread (tileCore 0 0 * 16 + 1)).st ≠ .vacant ∧ s.dev.reqs = [] ∧ (s.dev.thread 1).mig = none ∧
       (∀ e ∈ (s.dev.core 0).journal, e.2.loc ≠ 1) ∧ (∀ c ∈ s.dev.cores, ∀ e ∈ c.2.journal, e.2.loc ≠ 1) ∧ endHeld s.dev 1 = false ∧ s.dev.lentOut.get? 1 = none ∧ Tbl.sorted s.dev.threads = true ∧ fieldN (51 : D) 5 0 = 51) ∧
    (let s : State := ⟨{ (withEntry { je with refused := none } th).dev with args := [0, (0x100 : D).toNat] }, []⟩
     (s.dev.core 0).journal = [(31, { je with refused := none })] ∧ je.loc = 1 ∧ tileCore 0 0 = 0) ∧
    ((ev Dev.reset [4095]).dev.args = [4095] ∧ (Dev.reset.engine 0 2).kept = none ∧ (ev Dev.reset [2, 3, 23]).dev.stuck = false ∧ (ev Dev.reset [3, 1]).dev.args = [3, 1] ∧
      (ev Dev.reset [3, (5 : Q).toNat % 2 ^ 64, (5 : Q).toNat / 2 ^ 64]).dev.args = [3, (5 : Q).toNat % 2 ^ 64, (5 : Q).toNat / 2 ^ 64]) := by decide +kernel
/-- The host's window context is the page tables at 0x1_0000, and it may reach the pages. -/
def winS (args : List Nat) : State :=
  ⟨{ Dev.reset with args := args, stage2 := [⟨0, 0x10000, 0, 2 ^ 30, true, true, true, none, 0x40000000, false, none⟩] }.updDie 0 fun x =>
    { x with winCtx := x.winCtx.set 0 0x10000, access := [(hostMaster, 0x3FFFFFFFF)], baseAccess := [(hostMaster, 0x3FFFFFFFF)] }, words tables⟩
theorem free_bytes (d : Dev) (h : d.resvHold = []) (q : ∀ k, (d.tile k).holds = []) (k n : Nat) : keyHeld d k n = false ∧ heldForOther d noThread k n = false := by
  refine ⟨?_, by simp [heldForOther, h]⟩
  simp [keyHeld, matrixHeld, q]
theorem host_at (args : List Nat) (h : args ∈ [[0x100000, 8, 1, 7], [0x100000, 16, 2, 7, 8]]) (kind : Nat) (hk : kind ∈ [1, 3]) (size : Nat) (hs : size ≤ 16) : HostAt (winS args) 0x100000 kind size 0x40100000 := by
  have p : ∀ args ∈ [[0x100000, 8, 1, 7], [0x100000, 16, 2, 7, 8]], (winS args).Inv ∧ ∀ i ∈ List.range 16, (∀ kind ∈ [1, 3], (match placeFor (winS args).mem (winS args).dev (hostU (winS args).dev) (0x100000 + ofN i) kind with
      | .ok (.key k) => decide (k = 0x40100000 + i) | _ => false) = true) ∧ uncorrectable (winS args).mem (winS args).dev (0x40100000 + i) = false := by decide +kernel
  refine ⟨(p args h).1, rfl, rfl, fun i hi => ?_, fun i hi => ((p args h).2 i (List.mem_range.mpr (by omega))).2, fun i n _ => free_bytes _ rfl (fun _ => rfl) _ _, rfl, by omega⟩
  have := ((p args h).2 i (List.mem_range.mpr (by omega))).1 kind hk
  split at this
  · rw [‹placeFor _ _ _ _ _ = _›, of_decide_eq_true this]
  · cases this
theorem uncorrectable_empty (d : Dev) (h : d.wbuf = []) (c : d.wclear = []) (k : Nat) : uncorrectable [] d k = false := by
  rw [uncorrectable, rdB_quiet h c]; rfl
def peerS (args : List Nat) (g : D) : State := ⟨{ Dev.reset with args := args }.updDie 3 fun x => { x with baseAccess := [(8192 * 11 + 4235, g)] }, []⟩
/-- A row save that writes a context's area at the first address of a stack. -/
def savingRow : Preempt := { locs := [1], row := some 0, mem := true, wake := false, due := 9, phase := 2, stops := [], failed := false }
@[inherit_doc savingRow] def saveS (k : Nat) : State :=
  ⟨{ Dev.reset with args := [k], preempts := [(1, savingRow)] }.updCore 0 fun c => { c with tcc := [(0, { th with ghost := 1, area := k / 3 * 2 ^ 56 + (Config.stackBase k).toNat })] }, []⟩
theorem saving : savesTo [] (saveS 11).dev 11 savingRow = true := by
  have hb := (Config.stackBase 11).isLt
  have hc : cachedOf (saveS 11).dev savingRow = [(0, 0)] := rfl
  have hk : inStack 11 (3 * 2 ^ 56 + (Config.stackBase 11).toNat) = true := by
    simp [inStack, stackAddr, stackBytes]
    omega
  rw [savesTo, hc]
  simp only [savingRow, List.any_cons, List.any_nil, Bool.or_false, decide_true, Bool.true_and]
  rw [show ((saveS 11).dev.core 0).tcc.get? 0 = some { th with ghost := 1, area := 3 * 2 ^ 56 + (Config.stackBase 11).toNat } from rfl]
  simpa using hk
theorem test_wit_HostAndPlatform :
    HostAt (winS [0x100000, 8, 1, 7]) 0x100000 1 8 0x40100000 ∧ HostAt (winS [0x100000, 16, 2, 7, 8]) 0x100000 3 16 0x40100000 ∧
    (let s : State := ⟨{ (mk0 th).dev with args := [0, (0x20000 : D).toNat, (1 : D).toNat, (2 : D).toNat, (3 : D).toNat, (0 : D).toNat, 0, 0, 0] }, []⟩
     s.dev.stuck = false ∧ s.dev.args = [0, (0x20000 : D).toNat, (1 : D).toNat, (2 : D).toNat, (3 : D).toNat, (0 : D).toNat, 0, 0, 0] ∧ realCompute (fieldN (0 : D) 14 0) = true ∧ dieOf 0 = 0 ∧ realCompute (fieldN (1 : D) 14 0) = false ∧
       portWaits s.dev 0 s.dev.nextId = false ∧ (s.dev.thread 0).awaits .inbox = false ∧ (s.dev.core 0).overflow = [] ∧ (s.dev.row (rowKeyOf 0)).state = 2 ∧ lowestFree s.dev 0 = some 1 ∧ canStart s.dev 0 = true ∧ s.dev.mint.stopped = false ∧ (Dev.reset.row 0).state ≠ 2 ∧ (Dev.reset.core 0).inbox.length < 32) ∧
    ((ev Dev.reset [3, (0x40 : D).toNat]).dev.args = [3, (0x40 : D).toNat] ∧ (ev Dev.reset [(7 : Q).toNat % 2 ^ 64, (7 : Q).toNat / 2 ^ 64]).Inv ∧ { la 7 with host := true, done := true }.acked = false) ∧
    ((∃ k, unitPlace (winS [0x100000, 8, 0, 7]).mem (winS [0x100000, 8, 0, 7]).dev (hostU (winS [0x100000, 8, 0, 7]).dev) 0x100000 false = .ok (.key k)) ∧ (0x100000 : D).toNat % 16 = 0 ∧
      (let s : State := ⟨(winS [0x100000, 8, 0, 7]).dev, []⟩; s.Inv ∧ s.dev.stuck = false ∧ s.dev.frozenMs.contains hostMaster = false ∧ (match unitPlace s.mem s.dev (hostU s.dev) 0x100000 false with | .error (.fail _) => true | _ => false) = true) ∧
      (let d : Dev := { Dev.reset with args := [(0x100000 : D).toNat, 8, 0, 7], frozenMs := [hostMaster] }; d.stuck = false ∧ d.frozenMs.contains hostMaster = true) ∧
      (winS [0x100000, 16, 2, 7, 8]).dev.args = [(0x100000 : D).toNat, 16, 2, 7, 8]) ∧
    (let s := peerS ([11, 0x40, 15, 1, 0] ++ [1, 2, 3, 4, 5, 6, 7, 8]) 0x1FFFFFFFF
     s.Inv ∧ s.dev.stuck = false ∧ s.dev.args = [11, 0x40, 15, 1, 0] ++ [1, 2, 3, 4, 5, 6, 7, 8] ∧ 0x40 < stackBytes ∧ stackBytes ≤ stackBytes + 0x40 ∧ 11 ∈ ({ s.dev with retraining := [11] } : Dev).retraining ∧ 11 ∉ s.dev.retraining ∧ 4235 ∉ s.dev.frozenMs ∧ s.dev.feWait = [] ∧
       grants ((s.dev.die 3).baseAccess.getD (8192 * 11 + 4235) 0) 15 true = true ∧ grants ((s.dev.die 3).baseAccess.getD (8192 * 11 + 4235) 0) 15 false = true ∧ grants (((peerS [] 0).dev.die 3).baseAccess.getD (8192 * 11 + 4235) 0) 15 true = false) ∧
    (∀ args g k, uncorrectable (peerS args g).mem (peerS args g).dev k = false) ∧ 11 / 3 * 2 ^ 56 + (Config.stackBase 11).toNat + 0x40 / 64 * 64 < 2 ^ 71 ∧
    (let p : Preempt := { locs := [], row := some 0, mem := false, wake := false, due := 9, phase := 1, stops := [], failed := false }
     let s : State := ⟨{ Dev.reset with args := [11], preempts := [(1, p)] }, []⟩
     s.dev.args = [11] ∧ s.dev.preempts = [(1, p)] ∧ p.row.isSome ∧ s.dev.cycle < p.due ∧ savesTo s.mem s.dev 11 p = false ∧ s.dev.cycle + 9 ≥ p.due ∧ 11 ∉ s.dev.retraining) ∧
    savesTo [] (saveS 11).dev 11 savingRow = true ∧ (saveS 11).dev.preempts = [(1, savingRow)] ∧ savingRow.row.isSome ∧ (saveS 11).dev.cycle < savingRow.due ∧
    ((Dev.reset.die 3).badPages.length < 4096 ∧ 5 ∉ (Dev.reset.die 3).badPages ∧ 5 ∈ ({ Die.reset with badPages := [5] } : Die).badPages ∧ (ev Dev.reset [67 * 2 ^ 56, 2]).Inv ∧ (ev Dev.reset [70 * 2 ^ 56 + 64, 2]).Inv ∧ { Dev.reset with jtagOpen := true }.jtagOpen = true ∧ Dev.reset.preempts = []) := by
  have hb := (Config.stackBase 11).isLt
  exact ⟨host_at _ (by simp) _ (by decide) _ (by decide), host_at _ (by simp) _ (by decide) _ (by decide), by decide +kernel, by decide, ⟨⟨0x40100000, by decide +kernel⟩, by decide, by decide⟩, by decide +kernel, fun args g k => uncorrectable_empty _ rfl rfl k, by omega, by decide, saving, rfl, rfl, by decide, by decide⟩
/-- The steps of a span with the arguments they take: a unit's writes, the host's reads, the ports' writes; a slot of a frozen core whose wait ended. -/
theorem test_wit_ControlSpans_units (x : D) :
    (∀ as ∈ [[3, 0x1000008, x.toNat, 8], [3, 15 * 0x100000 + 0x1800 + 8 * 50, x.toNat, 8], [3 * 2 ^ 28 + 0x1000000, 8, 0, 0, 1], [3 * 2 ^ 28 + 0x1001010, 16, 0, 0, 1]], (barHost false false 0 as).dev.args = as) ∧ 0x1000000 % 8 = 0 ∧ (0x3004 % 8 ≠ 0 ∧ 0x2FF8 < 0x3004 ∧ 0x3004 < 0x3008) ∧
    (∀ y ∈ [(Instr.controlRegisterWrite, 3, 0 % 4, true), (.stewardStartPort, 10, tileDie 0, true), (.threadEndPort, 2, tileDie 0, true), (.unfreezePort, 1, 0, true), (.violationRecordFree, 3, tileDie 0, true), (.wakePort, 3, 0, true),
      (.faultQueuePop, 1, 0, false), (.pageRequestPop, 1, 0, false), (.queueOvfClear, 2, 0, true), (.ctrlWrite, 2, 0, true)], (List.replicate y.2.1 0).length = y.2.1 ∧ y.2.2.1 < 4) ∧
    (let s : State := ⟨{ (barHost false false 0 [0]).dev with threads := [(1, th), (3, { th with st := .parked, wait := .context })], frozenMs := [0] }, []⟩
     s.dev.args = [0] ∧ 3 = tileCore (0 / 64) (0 % 64) * 16 + 3 ∧ (s.dev.thread 3).st = .parked ∧ (s.dev.thread 3).wait = .context ∧ (s.dev.thread 3).mig = none ∧ ((s.dev.thread 1).st ≠ .parked ∧ (s.dev.thread 1).st ≠ .halted)) := by
  refine ⟨fun as _ => rfl, by decide, by decide, by decide, by decide +kernel⟩
/-- A launch that is acknowledged while its table entry is being moved; a peer's write to a word held for another's sequence. -/
theorem test_wit_HostAndPlatform_held :
    (let s : State := ⟨(copying 0 { Dev.reset with launches := [{ la 7 with host := true, done := true }] }).updDie 0 fun x => { x with ntcfg := 2 }, []⟩
     s.dev.launches = [{ la 7 with host := true, done := true }] ∧ tableHeld s.dev 0 7 = true ∧ tableHeld Dev.reset 0 7 = false) ∧
    (let s : State := ⟨{ Dev.reset with resvHold := [(3, ⟨1, 0x1000, 8, 0x1000, 0⟩)] }, []⟩
     heldForOther s.dev noThread 0x1000 64 = true ∧ heldForOther Dev.reset noThread 0x1000 64 = false) := by decide +kernel

/-! ## Words written out field by field in the formats of R40 with the codes of R42, R45 and R47, one for each constructor that a
word encodes -/

/-- Every word of a list decodes to the instruction beside it. -/
def decodesTo (l : List (Word × Instr)) : Bool := l.all fun x => match decode x.1 with
  | .ok i => i == x.2
  | .error _ => false

/-- MISC (R97 to R106). -/
theorem test_decode_misc : decodesTo [
    (0b000000_00000_00000_00000_0_0_000000001, .nop),
    (0b000000_00000_00000_00000_0_0_000000010, .uni),
    (0b000000_00000_00000_00000_0_0_000000011, .brk),
    (0b000000_00000_00000_00000_0_0_000000100, .ckpt),
    (0b000000_00100_00000_00010_0_0_000000101, .setf 4 1),
    (0b000000_00100_00000_00100_0_0_000000110, .sete 4 2),
    (0b000000_00100_00000_00010_0_0_000000111, .tfe 4 1),
    (0b000000_00100_00000_00010_1_1_000001000, .rdc 4 11),
    (0b000000_00000_01010_01000_0_1_000001001, .wrc 10 33),
    (0b000000_00000_10101_00101_0_0_000001010, .sysc 677),
    (0b000000_00000_00000_00000_0_0_000001011, .eret),
    (0b000000_00000_00000_00000_0_0_000001100, .uiret),
    (0b000000_00000_01010_00000_1_0_000001101, .tend 10 true)] = true := by decide +kernel
/-- ALU (R83 to R86). -/
theorem test_decode_alu_1 : decodesTo [
    (0b000001_00100_01010_01100_1_0_000000000, .add 4 10 12 true false),
    (0b000001_00100_01010_01100_1_0_000000001, .sub 4 10 12 true false),
    (0b000001_00100_01010_01100_1_0_000000010, .mul 4 10 12 true false),
    (0b000001_00100_01010_01100_1_0_000000011, .mulh 4 10 12 true false),
    (0b000001_00100_01010_01100_1_0_000000100, .mulhn 4 10 12 true false),
    (0b000001_00100_01010_01100_1_0_000000101, .div 4 10 12 true false),
    (0b000001_00100_01010_01100_1_0_000000110, .divn 4 10 12 true false),
    (0b000001_00100_01010_01100_1_0_000000111, .rem 4 10 12 true false),
    (0b000001_00100_01010_01100_1_0_000001000, .remn 4 10 12 true false),
    (0b000001_00100_01010_01100_1_0_000010000, .and 4 10 12 true false),
    (0b000001_00100_01010_01100_1_0_000010001, .or 4 10 12 true false),
    (0b000001_00100_01010_01100_1_0_000010010, .xor 4 10 12 true false),
    (0b000001_00100_01010_01100_1_0_000010011, .andn 4 10 12 true false),
    (0b000001_00100_01010_01100_1_0_000010100, .orn 4 10 12 true false),
    (0b000001_00100_01010_01100_1_0_000011000, .shl 4 10 12 true false),
    (0b000001_00100_01010_01100_1_0_000011001, .shrl 4 10 12 true false),
    (0b000001_00100_01010_01100_1_0_000011010, .shra 4 10 12 true false),
    (0b000001_00100_01010_01100_1_0_000011011, .rotl 4 10 12 true false),
    (0b000001_00100_01010_01100_1_0_000011100, .rotr 4 10 12 true false),
    (0b000001_00100_01010_01100_1_0_000100000, .min 4 10 12 true false),
    (0b000001_00100_01010_01100_1_0_000100001, .max 4 10 12 true false),
    (0b000001_00100_01010_01100_1_0_000100010, .minn 4 10 12 true false),
    (0b000001_00100_01010_01100_1_0_000100011, .maxn 4 10 12 true false),
    (0b000001_00100_01010_01100_1_0_000100100, .slt 4 10 12 true false),
    (0b000001_00100_01010_01100_1_0_000100101, .sltn 4 10 12 true false),
    (0b000001_00100_01010_01100_1_0_000100110, .seq 4 10 12 true false),
    (0b000001_00100_01010_01100_1_0_000100111, .sne 4 10 12 true false),
    (0b000001_00100_01010_01100_1_0_000101000, .sel 4 10 12 true false),
    (0b000001_00100_01010_00000_1_0_000110000, .clz 4 10 true),
    (0b000001_00100_01010_00000_1_0_000110001, .ctz 4 10 true)] = true := by decide +kernel
/-- ALU (R83 to R86). -/
theorem test_decode_alu_2 : decodesTo [
    (0b000001_00100_01010_00000_1_0_000110010, .popc 4 10 true),
    (0b000001_00100_01010_00000_1_0_000110011, .brev 4 10 true),
    (0b000001_00100_01010_00000_1_0_000110100, .bswp 4 10 true),
    (0b000001_00100_01010_01100_1_0_000111010, .shadd 4 10 12 true false 2)] = true := by decide +kernel
/-- the immediates, SHI, LI, LIH, BF (R87 to R91). -/
theorem test_decode_imm : decodesTo [
    (0b000010_00100_01010_1_111111111110011, .addi 4 10 true 32755),
    (0b000011_00100_01010_1_111111111110011, .andi 4 10 true 32755),
    (0b000100_00100_01010_1_111111111110011, .ori 4 10 true 32755),
    (0b000101_00100_01010_1_111111111110011, .xori 4 10 true 32755),
    (0b000110_00100_01010_1_111111111110011, .slti 4 10 true 32755),
    (0b000111_00100_01010_1_111111111110011, .seqi 4 10 true 32755),
    (0b001000_00100_01010_1_000000000100101, .shli 4 10 true 37),
    (0b001000_00100_01010_1_010000000100101, .shrli 4 10 true 37),
    (0b001000_00100_01010_1_100000000100101, .shrai 4 10 true 37),
    (0b001000_00100_01010_1_110000000100101, .rotli 4 10 true 37),
    (0b001001_00100_111111111111111110000, .li 4 2097136),
    (0b001010_00100_000101011111011101111, .lih 4 2 48879),
    (0b001011_00100_01010_1_001010000101000, .exts 4 10 true 40 20),
    (0b001011_00100_01010_1_011000010001110, .extz 4 10 true 33 7),
    (0b001011_00100_01010_1_100000011111100, .ins 4 10 true 1 62)] = true := by decide +kernel
/-- branches and jumps (R92 to R95). -/
theorem test_decode_branches : decodesTo [
    (0b001100_01001_11110_1_111111111110000, .beq 9 30 true 32752),
    (0b001101_01001_11110_1_111111111110000, .bne 9 30 true 32752),
    (0b001110_01001_11110_1_111111111110000, .blt 9 30 true 32752),
    (0b001111_01001_11110_1_111111111110000, .bge 9 30 true 32752),
    (0b010000_01001_11110_1_111111111110000, .bltn 9 30 true 32752),
    (0b010001_01001_11110_1_111111111110000, .bgen 9 30 true 32752),
    (0b010010_11111111111111111111111110, .jal 67108862),
    (0b010011_00100_01010_1_111111111110011, .jalr 4 10 true 32755),
    (0b010100_00101_00100_0_000000000000011, .bemp 5 2 false 3)] = true := by decide +kernel
/-- scalar floating point, FPS and FMAS. -/
theorem test_decode_fps : decodesTo [
    (0b010101_00100_01010_01100_1_0_001010000, .fadd 4 10 12 true false 2 true),
    (0b010101_00100_01010_01100_1_0_001010001, .fsub 4 10 12 true false 2 true),
    (0b010101_00100_01010_01100_1_0_001010010, .fmul 4 10 12 true false 2 true),
    (0b010101_00100_01010_01100_1_0_001010011, .fdiv 4 10 12 true false 2 true),
    (0b010101_00100_01010_00000_1_0_001010100, .fsqrt 4 10 true 2 true),
    (0b010101_00100_01010_01100_1_0_000010101, .fmin 4 10 12 true false true),
    (0b010101_00100_01010_01100_1_0_000010110, .fmax 4 10 12 true false true),
    (0b010101_00100_01010_01100_1_0_000010111, .feq 4 10 12 true false true),
    (0b010101_00100_01010_01100_1_0_000011000, .flt 4 10 12 true false true),
    (0b010101_00100_01010_01100_1_0_000011001, .fle 4 10 12 true false true),
    (0b010101_00100_01010_00000_1_0_000011010, .fcls 4 10 true true),
    (0b010101_00100_01010_01100_1_0_000011011, .fsgnCp 4 10 12 true false true),
    (0b010101_00100_01010_01100_1_0_000111011, .fsgnNeg 4 10 12 true false true),
    (0b010101_00100_01010_01100_1_0_001011011, .fsgnXor 4 10 12 true false true),
    (0b010101_00100_01010_00111_1_0_001011100, .fcvt 4 10 7 true 2 true),
    (0b010110_00100_01010_01100_1_0_001010000, .fma 4 10 12 true false 2 true),
    (0b010110_00100_01010_01100_1_0_001010001, .fms 4 10 12 true false 2 true),
    (0b010110_00100_01010_01100_1_0_001010010, .fnma 4 10 12 true false 2 true),
    (0b010110_00100_01010_01100_1_0_001010011, .fnms 4 10 12 true false 2 true)] = true := by decide +kernel
/-- loads, stores and MEMX. -/
theorem test_decode_mem : decodesTo [
    (0b011000_10011_01100_1_10_100_1111110101, .ld 19 12 true 2 4 1013),
    (0b011001_10011_01100_1_10_100_1111110101, .ldz 19 12 true 2 4 1013),
    (0b011010_10011_01100_1_10_100_1111110101, .st 19 12 true 2 4 1013),
    (0b011011_10011_01100_1_11_100_1111110101, .ldt 19 12 true 4 1013),
    (0b011100_10011_01100_1_11_100_1111110101, .ldw 19 12 true 4 1013),
    (0b011101_10011_01100_1_11_100_1111110101, .ste 19 12 true 4 1013),
    (0b011110_10011_01100_1_11_100_1111110101, .stf 19 12 true 4 1013),
    (0b011111_00100_01010_00010_1_0_000000000, .gtoa 4 10 2 true),
    (0b011111_00100_01010_00010_1_0_000000001, .atog 4 10 2 true),
    (0b011111_00100_01010_00000_1_0_000000010, .apq 4 10 true),
    (0b011111_00100_01010_00000_1_0_000000011, .plq 4 10 true),
    (0b011111_00100_01010_00001_1_0_000000011, .plqCur 4 10 true),
    (0b011111_00100_01010_00011_1_0_000000100, .psjInsp 4 10 3 true),
    (0b011111_00100_01010_00000_1_0_000000101, .psjRepost 4 10 true),
    (0b011111_00100_01010_00000_1_0_000000110, .psjDiscard 4 10 true),
    (0b011111_00000_00000_00000_0_0_000000111, .psd)] = true := by decide +kernel
/-- vector loads and stores, VA, VFMA. -/
theorem test_decode_vector_1 : decodesTo [
    (0b100000_00001_01100_1_11_100_1111110101, .vld 1 12 true 4 1013),
    (0b100001_00001_01100_1_11_100_1111110101, .vst 1 12 true 4 1013),
    (0b100010_00001_01010_11110_011_101_00010, .vgx 1 10 30 3 5 2),
    (0b100011_00001_01010_11101_011_101_00010, .vsx 1 10 29 3 5 2),
    (0b100100_00100_01010_01100_011_101_00000, .vadd 4 10 12 3 5),
    (0b100100_00100_01010_01100_011_101_00001, .vsub 4 10 12 3 5),
    (0b100100_00100_01010_01100_011_101_00010, .vmul 4 10 12 3 5),
    (0b100100_00100_01010_01100_011_101_00011, .vdiv 4 10 12 3 5),
    (0b100100_00100_01010_00000_011_011_00100, .vsqrt 4 10 3 3),
    (0b100100_00100_01010_01100_011_101_00101, .vmin 4 10 12 3 5),
    (0b100100_00100_01010_01100_011_101_00110, .vmax 4 10 12 3 5),
    (0b100100_00100_01010_00000_011_101_00111, .vabs 4 10 3 5),
    (0b100100_00100_01010_00000_011_101_01000, .vneg 4 10 3 5),
    (0b100100_00100_01010_01100_011_101_01001, .vand 4 10 12 3 5),
    (0b100100_00100_01010_01100_011_101_01010, .vor 4 10 12 3 5),
    (0b100100_00100_01010_01100_011_101_01011, .vxor 4 10 12 3 5),
    (0b100100_00100_01010_01100_011_101_01100, .vshl 4 10 12 3 5),
    (0b100100_00100_01010_01100_011_101_01101, .vshr 4 10 12 3 5),
    (0b100100_01110_01010_01100_011_101_01110, .vcmp 1 6 10 12 3 5),
    (0b100100_00100_01010_01100_011_101_01111, .vsel 4 10 12 3 5),
    (0b100100_00100_01010_00000_011_101_10000, .vmov 4 10 3 5),
    (0b100100_00100_01010_00000_011_101_10001, .vbc 4 10 3 5),
    (0b100100_00100_01010_01100_000_101_10010, .vex 4 10 12 5),
    (0b100100_00100_01010_01100_000_101_10011, .vins 4 10 12 5),
    (0b100100_00100_00000_00000_011_101_10100, .viota 4 3 5),
    (0b100100_00100_01010_01100_011_101_10101, .vperm 4 10 12 3 5),
    (0b100100_00100_01010_00011_011_101_10110, .vred 4 10 3 3 5),
    (0b100100_00100_01010_00101_011_101_10111, .vscn 4 10 5 3 5),
    (0b100100_00100_01010_00101_010_001_11000, .vcvt 4 10 5 2 1),
    (0b100100_00100_01010_01100_011_101_11001, .vminN 4 10 12 3 5)] = true := by decide +kernel
/-- vector loads and stores, VA, VFMA. -/
theorem test_decode_vector_2 : decodesTo [
    (0b100100_00100_01010_01100_011_101_11010, .vmaxN 4 10 12 3 5),
    (0b100100_11110_01010_01100_011_101_11011, .vcmpN 3 6 10 12 3 5),
    (0b100100_00100_01010_01100_011_101_11100, .vshrN 4 10 12 3 5),
    (0b100101_00100_01010_01100_011_010_10100, .vfma 4 10 12 3 2 5),
    (0b100101_00100_01010_01100_011_010_10101, .vfms 4 10 12 3 2 5),
    (0b100101_00100_01010_01100_011_010_10110, .vfnma 4 10 12 3 2 5),
    (0b100101_00100_01010_01100_011_010_10111, .vfnms 4 10 12 3 2 5)] = true := by decide +kernel
/-- XACC. -/
theorem test_decode_xacc : decodesTo [
    (0b100110_00000_00000_00000_000_000_00000, .xclr),
    (0b100110_00000_01010_01100_011_001_00001, .xmac2 10 12 3 1),
    (0b100110_10001_01010_01100_011_001_00010, .xmac3 17 10 12 3 1),
    (0b100110_00000_01010_00000_011_100_00011, .xadd 10 3 4),
    (0b100110_00100_00000_00000_000_000_00100, .xsgn 4),
    (0b100110_00100_00000_00011_000_000_00101, .xrnd 4 3),
    (0b100110_00000_01010_00000_000_000_00110, .xspl 10),
    (0b100110_00000_01010_00000_000_000_00111, .xfil 10)] = true := by decide +kernel
/-- AMO, CAS, RSV, SCN, WRS, RED, FNC. -/
theorem test_decode_amo : decodesTo [
    (0b101000_00100_01010_01100_1_0_110010000, .amoAdd 4 10 12 true false true 4 true),
    (0b101000_00100_01010_01100_1_0_110010001, .amoAnd 4 10 12 true false true 4 true),
    (0b101000_00100_01010_01100_1_0_110010010, .amoOr 4 10 12 true false true 4 true),
    (0b101000_00100_01010_01100_1_0_110010011, .amoXor 4 10 12 true false true 4 true),
    (0b101000_00100_01010_01100_1_0_110010100, .amoMin 4 10 12 true false true 4 true),
    (0b101000_00100_01010_01100_1_0_110010101, .amoMax 4 10 12 true false true 4 true),
    (0b101000_00100_01010_01100_1_0_110010110, .amoMinn 4 10 12 true false true 4 true),
    (0b101000_00100_01010_01100_1_0_110010111, .amoMaxn 4 10 12 true false true 4 true),
    (0b101000_00100_01010_01100_1_0_110011000, .amoSwp 4 10 12 true false true 4 true),
    (0b101000_00100_01010_01100_1_0_110001001, .amoFadds 4 10 12 true false true 4),
    (0b101000_00100_01010_01100_1_0_110011010, .amoFaddd 4 10 12 true false true 4),
    (0b101001_00100_01010_01100_1_0_000110001, .cas 4 10 12 true false true 4 1),
    (0b101010_00100_01010_00000_1_0_000001001, .rsv 4 10 true 4 true),
    (0b101011_00100_01010_01100_1_0_000001001, .scn 4 10 12 true false 4 true),
    (0b101100_00100_01010_1_111111111110011, .wrs 4 10 true 32755),
    (0b101101_00000_01010_01100_1_0_010010000, .redAdd 10 12 true false 4 true),
    (0b101101_00000_01010_01100_1_0_010010001, .redAnd 10 12 true false 4 true),
    (0b101101_00000_01010_01100_1_0_010010010, .redOr 10 12 true false 4 true),
    (0b101101_00000_01010_01100_1_0_010010011, .redXor 10 12 true false 4 true),
    (0b101101_00000_01010_01100_1_0_010010100, .redMin 10 12 true false 4 true),
    (0b101101_00000_01010_01100_1_0_010010101, .redMax 10 12 true false 4 true),
    (0b101101_00000_01010_01100_1_0_010010110, .redMinn 10 12 true false 4 true),
    (0b101101_00000_01010_01100_1_0_010010111, .redMaxn 10 12 true false 4 true),
    (0b101101_00000_01010_01100_1_0_010001001, .redFadds 10 12 true false 4),
    (0b101101_00000_01010_01100_1_0_010011010, .redFaddd 10 12 true false 4),
    (0b101110_00000_00000_00000_0_0_000101100, .fncAcq true 3),
    (0b101110_00000_00000_00000_0_0_000101101, .fncRel true 3),
    (0b101110_00000_00000_00000_0_0_000110110, .fncFull true 5)] = true := by decide +kernel
/-- SYNX. -/
theorem test_decode_synx : decodesTo [
    (0b101111_00000_01010_00000_1_0_000000000, .migr 10 true),
    (0b101111_00000_00000_00000_0_0_000000001, .mhom),
    (0b101111_00100_01010_00000_1_0_000000010, .breg 4 10 true),
    (0b101111_00100_01010_00000_1_0_000000011, .bdrg 4 10 true),
    (0b101111_00100_01010_00000_1_0_000000100, .barv 4 10 true),
    (0b101111_00100_01010_01100_1_0_000000101, .barw 4 10 12 true false),
    (0b101111_00100_01010_01100_1_0_000000110, .semp 4 10 12 true false),
    (0b101111_00100_01010_01100_1_0_000000111, .semw 4 10 12 true false),
    (0b101111_00100_01010_01100_1_0_000001000, .send 4 10 12 true false),
    (0b101111_00100_01010_01100_1_0_000001001, .recv 4 10 12 true false),
    (0b101111_00000_01010_01100_1_0_000001010, .qwt 10 12 true false),
    (0b101111_00100_01010_00000_1_0_000001011, .qcfg 4 10 true)] = true := by decide +kernel
/-- NAME. -/
theorem test_decode_name : decodesTo [
    (0b110000_00100_01010_01100_1_0_100000000, .nnew 4 10 12 true false true),
    (0b110000_00100_01010_00010_1_0_000000001, .nres 4 10 2 true),
    (0b110000_00100_01010_00010_1_0_000000010, .nrst 4 10 2 true),
    (0b110000_00100_01010_01100_1_0_000000011, .ncas 4 10 12 true false),
    (0b110000_00100_01010_00000_1_0_000000100, .nkil 4 10 true),
    (0b110000_00100_01010_00100_1_0_000000101, .nqry 4 10 4 true),
    (0b110000_00100_01010_00000_1_0_000000110, .nshd 4 10 true),
    (0b110000_00100_00000_00000_0_0_000000111, .nslf 4)] = true := by decide +kernel
/-- GRM. -/
theorem test_decode_grm : decodesTo [
    (0b110001_00100_01010_01100_1_0_000000000, .gnew 4 10 12 true false),
    (0b110001_00100_01010_00000_1_0_000000001, .glen 4 10 true),
    (0b110001_00100_01010_01100_1_0_010010010, .gev 4 10 12 true false 9),
    (0b110001_00100_01010_01100_0_0_010010011, .gcmb 4 10 12 9),
    (0b110001_00100_01010_01100_1_0_010010100, .gofs 4 10 12 true false 9),
    (0b110001_00100_01010_01100_1_0_000000101, .gidx 4 10 12 true false),
    (0b110001_00100_01010_01100_1_0_000000110, .gpfx 4 10 12 true false),
    (0b110001_00100_01010_01100_1_0_000000111, .gscn 4 10 12 true false),
    (0b110001_00100_01010_01100_1_0_000001000, .gmv 4 10 12 true false),
    (0b110001_00100_00000_00000_0_0_000001001, .grtiAll 4),
    (0b110001_00100_01010_00001_1_0_000001001, .grtiRule 4 10 true),
    (0b110001_00100_01010_00010_1_0_000001001, .grtiObj 4 10 true),
    (0b110001_00100_00000_00101_0_0_000001010, .grtq 4 5),
    (0b110001_00100_00000_01000_0_0_000001010, .grtqClear 4 false)] = true := by decide +kernel
/-- TASK. -/
theorem test_decode_task : decodesTo [
    (0b110010_00100_01010_01100_1_0_000000000, .spwn 4 10 12 true false),
    (0b110010_00100_01010_00000_1_0_000000001, .reap 4 10 true),
    (0b110010_00100_01010_00000_1_0_000000010, .slst 4 10 true),
    (0b110010_00100_01010_00000_1_0_000000011, .lnch 4 10 true),
    (0b110010_00100_01010_01100_1_0_000000100, .lwt 4 10 12 true false),
    (0b110010_00000_01010_00000_1_0_000000101, .wdq 10 true),
    (0b110010_00100_01010_01100_1_0_000000110, .amsg 4 10 12 true false),
    (0b110010_00100_00000_00000_0_0_000000111, .tbnd 4),
    (0b110010_00100_01010_00000_1_0_000001000, .encl 4 10 true)] = true := by decide +kernel
/-- MX. -/
theorem test_decode_mx : decodesTo [
    (0b110100_01010_00000_1_0_000000_10100111, .mxl 10 true 167),
    (0b110100_00000_00000_0_0_000001_10100111, .mxu 167),
    (0b110100_00000_00000_0_0_000010_10100111, .mxw 167),
    (0b110100_01010_00000_1_0_000011_10100111, .mxs 10 true 167),
    (0b110100_00000_00000_0_0_000100_10100111, .mxb 167),
    (0b110100_01010_01100_1_0_000101_10100111, .mxp 10 12 true false 167),
    (0b110100_01010_01100_1_0_000110_10100111, .mxc 10 12 true false 167),
    (0b110100_01010_00000_1_0_000111_10100111, .mxwb 10 true 167),
    (0b110100_01010_00000_1_0_001000_10100111, .mxrd 10 true 167),
    (0b110100_01010_00000_1_0_001001_10100111, .mxz 10 true 167)] = true := by decide +kernel
/-- CP, CV, ENG. -/
theorem test_decode_engines : decodesTo [
    (0b110101_01010_01100_1_0_000000_10100111, .cpy 10 12 true false 167),
    (0b110101_01010_01100_1_0_000001_10100111, .cpr 10 12 true false 167),
    (0b110101_01010_01100_1_0_000010_10100111, .cpz 10 12 true false 167),
    (0b110101_01010_01100_1_0_000011_10100111, .cps 10 12 true false 167),
    (0b110101_01010_01100_1_0_000100_10100111, .cpcCompress 10 12 true false 167),
    (0b110101_01010_01100_1_0_000101_10100111, .gexp 10 12 true false 167),
    (0b110110_01010_01100_1_0_000000_10100111, .cvt 10 12 true false 167),
    (0b110110_01010_01100_1_0_000001_10100111, .cvpAct 10 12 true false 167),
    (0b110110_01010_01100_1_0_000010_10100111, .cvq 10 12 true false 167),
    (0b110111_00000_01010_00000_1_0_001010000, .engw 10 true 1 16),
    (0b110111_00100_00000_00000_0_0_110100100, .engr 4 2 36),
    (0b110111_00100_01010_00000_1_0_111011000, .engrBdat 4 10 true)] = true := by decide +kernel
/-- SYS. -/
theorem test_decode_sys : decodesTo [
    (0b111000_00100_01010_01100_1_0_000000000, .prmt 4 10 12 true false),
    (0b111000_00100_01010_01100_1_0_000000001, .hgrp 4 10 12 true false),
    (0b111000_00100_01010_00000_1_0_000000010, .halt 4 10 true),
    (0b111000_00100_01010_01100_1_0_000000011, .resm 4 10 12 true false),
    (0b111000_00100_01010_01100_1_0_000000100, .tccfIn 4 10 12 true false),
    (0b111000_00100_01010_01100_1_0_000000101, .lrtb 4 10 12 true false)] = true := by decide +kernel

/-! ## Ill-formed terms, one at least for each check of `refusedFields` (R44 to R48) -/

/-- Every term of a list is refused, with a mask inside the word's fields (R43 step 5). -/
def illFormed (l : List Instr) : Bool := l.all fun i => !WellFormed i && refusedFields i != 0

/-- R44, R98, R102, R95: file codes, register numbers of p registers, control register numbers, bit fields. -/
theorem test_illformed_scalar : illFormed [.setf 1 3, .setf 8 2, .sete 1 3, .sete 31 2, .tfe 1 3, .rdc 1 0x0C, .wrc 1 0x15, .rdc 1 0x30,
    .exts 1 2 false 1 63, .extz 1 2 false 63 1, .ins 1 2 false 32 32, .bemp 1 3 false 0, .bemp 8 2 true 0] = true := by decide
/-- R46: rounding code 7 and conversion codes. -/
theorem test_illformed_rounding : illFormed [.fadd 1 2 3 false false 7 false, .fsub 1 2 3 false false 7 false, .fmul 1 2 3 false false 7 true,
    .fdiv 1 2 3 false false 7 false, .fsqrt 1 2 false 7 false, .fcvt 1 2 9 false 0 false, .fcvt 1 2 0 false 7 false, .fma 1 2 3 false false 7 false,
    .fms 1 2 3 false false 7 false, .fnma 1 2 3 false false 7 false, .fnms 1 2 3 false false 7 false, .xrnd 1 7, .vcvt 1 2 0 7 0,
    .vfma 1 2 3 0 0 7, .vfms 1 2 3 0 0 7, .vfnma 1 2 3 0 0 7, .vfnms 1 2 3 0 0 7] = true := by decide
/-- R41: the reserved scopes 6 and 7. -/
theorem test_illformed_scope : illFormed [.ld 1 2 false 3 6 0, .ldz 1 2 false 3 7 0, .st 1 2 false 3 6 0, .ldt 1 2 false 6 0, .ldw 1 2 false 7 0,
    .ste 1 2 false 6 0, .stf 1 2 false 6 0, .vld 1 2 false 6 0, .vst 1 2 false 7 0, .rsv 1 2 false 6 false, .scn 1 2 3 false false 7 false,
    .redAdd 1 2 false false 6 false, .redAnd 1 2 false false 6 false, .redOr 1 2 false false 6 false, .redXor 1 2 false false 6 false,
    .redMin 1 2 false false 6 false, .redMax 1 2 false false 6 false, .redMinn 1 2 false false 6 false, .redMaxn 1 2 false false 6 false,
    .redFadds 1 2 false false 6, .redFaddd 1 2 false false 7, .fncAcq false 0, .fncRel true 6, .fncFull false 0, .fncAcq false 7] = true := by decide
/-- R45: atomics, each with a reserved scope and with an odd pair in the status form, and CAS. -/
theorem test_illformed_atomics : illFormed [.amoAdd 1 2 3 false false true 0 true, .amoAnd 1 2 3 false false true 0 true,
    .amoOr 1 2 3 false false true 0 true, .amoXor 1 2 3 false false true 0 true, .amoMin 1 2 3 false false true 0 true,
    .amoMax 1 2 3 false false true 0 true, .amoMinn 1 2 3 false false true 0 true, .amoMaxn 1 2 3 false false true 0 true,
    .amoSwp 1 2 3 false false true 0 true, .amoFadds 1 2 3 false false true 0, .amoFaddd 1 2 3 false false true 0,
    .amoAdd 2 2 3 false false true 6 true, .amoAnd 2 2 3 false false true 6 true, .amoOr 2 2 3 false false true 6 true,
    .amoXor 2 2 3 false false true 6 true, .amoMin 2 2 3 false false true 6 true, .amoMax 2 2 3 false false true 6 true,
    .amoMinn 2 2 3 false false true 6 true, .amoMaxn 2 2 3 false false true 6 true, .amoSwp 2 2 3 false false true 7 true,
    .amoFadds 2 2 3 false false true 6, .amoFaddd 2 2 3 false false true 7, .cas 2 2 2 false false false 0 3, .cas 2 2 2 false false false 6 1,
    .cas 2 2 2 false false true 0 2, .cas 1 2 2 false false true 0 1, .cas 1 2 2 false false false 0 2, .cas 2 2 3 false false false 0 2] = true := by decide
/-- R134, R45, R123: window numbers, types and operation codes of the vector unit. -/
theorem test_illformed_vector : illFormed [.gtoa 1 2 0 false, .atog 1 2 4 false, .psjInsp 1 2 5 false, .vsqrt 1 2 0 4, .vshl 1 2 3 0 3, .vshr 1 2 3 0 0,
    .vminN 1 2 3 0 3, .vmaxN 1 2 3 0 0, .vcmpN 0 1 2 3 0 3, .vshrN 1 2 3 0 1, .vred 1 2 8 0 4, .vred 1 2 6 0 3, .vscn 1 2 31 0 4, .vscn 1 2 7 0 0,
    .vcvt 1 2 22 0 0, .vcvt 1 2 27 0 0, .vcvt 1 2 12 0 4, .vcvt 1 2 24 0 7, .vcvt 1 2 18 0 3, .vfma 1 2 3 0 4 0, .vfms 1 2 3 0 5 0, .vfnma 1 2 3 0 6 0,
    .vfnms 1 2 3 0 7 0, .xmac2 1 2 0 2, .xmac3 1 2 3 0 4, .xadd 1 0 2, .xadd 1 0 5] = true := by decide
/-- R44: odd registers where a pair is required, and registers of messages that are no multiple of 4. -/
theorem test_illformed_pairs : illFormed [.send 0 1 4 false false, .send 0 2 5 false false, .recv 0 2 3 false false, .recv 6 2 3 false false, .recv 4 1 3 false false,
    .nnew 1 2 4 false false false, .nnew 2 2 3 false false false, .nres 1 3 0 false, .nres 1 2 4 false, .nrst 1 2 0 false, .nrst 2 1 0 false, .nrst 2 2 4 false,
    .ncas 1 1 2 false false, .nkil 1 1 false, .nqry 1 1 0 false, .nqry 1 2 5 false, .nshd 1 1 false, .nslf 1, .gnew 1 2 3 false false, .gnew 2 1 3 false false,
    .glen 1 1 false, .gev 1 1 4 false false 7, .gev 1 2 29 false false 10, .gev 1 2 30 false false 10, .gev 1 2 4 false false 0, .gev 1 2 0 false true 6,
    .gofs 1 2 4 false false 0, .gidx 1 1 2 false false, .gpfx 1 1 2 false false, .gscn 1 2 3 false false, .gscn 2 1 3 false false, .gmv 1 1 2 false false,
    .grtiRule 1 1 false, .grtiObj 1 1 false, .spwn 1 2 4 false false, .spwn 2 2 3 false false, .reap 1 2 false, .lnch 1 2 false, .lwt 1 1 2 false false,
    .amsg 1 2 6 false false, .gexp 1 2 false false 0, .tccfIn 1 3 2 false false] = true := by decide
/-- R247, R263 to R265: engine registers that the maps leave unallocated. -/
theorem test_illformed_engines : illFormed [.engw 1 false 0 10, .engr 1 1 0x3F, .engw 1 false 2 9, .engr 1 2 0x11, .engw 1 false 3 8, .engr 1 3 0x14] = true := by decide
/-- A row that shares its word with another row, and a step of the machine that no word encodes, are what no word decodes to. -/
theorem test_illformed_no_word : WellFormed (.cpcExpand 2 4 false false 0) = false ∧ WellFormed .tccfOut = false ∧ WellFormed .softError = false ∧
    WellFormed .wakeMessage = false := by decide

/-! ## Small steps, with results from the spec's tables or computed by hand from its rules -/

/-- What register 4 and the FPM flags hold after one instruction on g1 = `x`, g2 = `y`, g4 = `z`. -/
def run (i : Instr) (x y : D) (z : D := 0) : Option D := after (exec i (mk (setG th [(1, x), (2, y), (4, z)]))) fun t => (t.me.gr 4).val
/-- The value a divide has on the way to register 4. -/
def divides (i : Instr) (x y : D) : Option (List (Dst × BitVec 6400)) := after (exec i (mk (setG th [(1, x), (2, y)]))) fun t => t.dev.arrs.flatMap fun a => a.2.vals
/-- The program counter and g31 after one instruction. -/
def goes (i : Instr) (x y : D) : Option (D × D) := after (exec i (mk (setG th [(1, x), (2, y)]))) fun t => (t.me.pc, (t.me.gr 31).val)

/-- R84: sums and differences wrap. -/
theorem test_add : run (.add 4 1 2 false false) 0xFFFFFFFFFFFFFFFF 3 = some 2 ∧ run (.sub 4 1 2 false false) 3 5 = some (-2) := by decide +kernel
/-- R84: the high halves of the signed and of the unsigned product. -/
theorem test_mulh : run (.mulh 4 1 2 false false) (-1) 3 = some (-1) ∧ run (.mulhn 4 1 2 false false) (-1) 3 = some 2 := by decide +kernel
/-- R84: only bits [5:0] of the amount count, SHRA copies the sign. -/
theorem test_shift : run (.shra 4 1 2 false false) (-8) 65 = some (-4) ∧ run (.shrl 4 1 2 false false) (-8) 63 = some 1 ∧
    run (.rotl 4 1 2 false false) 0x8000000000000001 4 = some 0x18 ∧ run (.rotr 4 1 2 false false) 0x18 4 = some 0x8000000000000001 := by decide +kernel
/-- R84: signed and unsigned comparisons of −1 and 1. -/
theorem test_compare : run (.slt 4 1 2 false false) (-1) 1 = some 1 ∧ run (.sltn 4 1 2 false false) (-1) 1 = some 0 ∧
    run (.min 4 1 2 false false) (-1) 1 = some (-1) ∧ run (.minn 4 1 2 false false) (-1) 1 = some 1 := by decide +kernel
/-- R84: SEL takes a where the old d is not 0. -/
theorem test_sel : run (.sel 4 1 2 false false) 10 20 7 = some 10 ∧ run (.sel 4 1 2 false false) 10 20 0 = some 20 := by decide +kernel
/-- R84: 64 zeros in 0; bit and byte order turned round. -/
theorem test_bits : run (.clz 4 1 false) 0 0 = some 64 ∧ run (.ctz 4 1 false) 8 0 = some 3 ∧ run (.popc 4 1 false) (-1) 0 = some 64 ∧
    run (.brev 4 1 false) 1 0 = some 0x8000000000000000 ∧ run (.bswp 4 1 false) 0x0102030405060708 0 = some 0x0807060504030201 := by decide +kernel
/-- R85's table: 7 and −2, and −7 and 2. -/
theorem test_divide : divides (.div 4 1 2 false false) 7 (-2) = some [gval 4 (-3)] ∧ divides (.rem 4 1 2 false false) 7 (-2) = some [gval 4 1] ∧
    divides (.divn 4 1 2 false false) (-7) 2 = some [gval 4 0x7FFFFFFFFFFFFFFC] ∧ divides (.rem 4 1 2 false false) (-7) 2 = some [gval 4 (-1)] := by decide +kernel
/-- R85's table: a divisor of 0, and −2^63 by −1. -/
theorem test_divide_corners : divides (.div 4 1 2 false false) 45 0 = some [gval 4 0xFFFFFFFFFFFFFFFF] ∧ divides (.remn 4 1 2 false false) 45 0 = some [gval 4 45] ∧
    divides (.div 4 1 2 false false) 0x8000000000000000 (-1) = some [gval 4 0x8000000000000000] ∧
    divides (.rem 4 1 2 false false) 0x8000000000000000 (-1) = some [gval 4 0] := by decide +kernel
/-- R90's example: the second step of the constant 0x7F01_0000_0002_0000. -/
theorem test_lih : run (.lih 4 3 0x7F01) 0 0 0x20000 = some 0x7F01000000020000 ∧ run (.li 4 0x1FFFFF) 0 0 = some (-1) := by decide +kernel
/-- R91: bits [11:4] of 0xF80, sign and zero extended, and inserted. -/
theorem test_fields : run (.exts 4 1 false 4 7) 0xF80 0 = some (-8) ∧ run (.extz 4 1 false 4 7) 0xF80 0 = some 0xF8 ∧
    run (.ins 4 1 false 4 7) 0xFAB 0 0x12345 = some 0x12AB5 := by decide +kernel
/-- R92: a taken branch goes 4 times the signed offset; signed and unsigned orders differ on −1 and 1. -/
theorem test_branch : goes (.blt 1 2 false 0x7FFF) (-1) 1 = some (0xFFFC, 0) ∧ goes (.bltn 1 2 false 0x7FFF) (-1) 1 = some (0x10004, 0) := by decide +kernel
/-- R93, R94: the link is the address after the jump, the target of JALR a byte offset. -/
theorem test_jump : goes (.jal 2) 0 0 = some (0x10008, 0x10004) ∧ goes (.jalr 31 1 false 0x7FFC) 0x2000 0 = some (0x1FFC, 0x10004) := by decide +kernel
/-- 1 + 2^-53 rounds to 1 to nearest even and to 1 + 2^-52 upwards (R61, R46). -/
theorem test_fadd : run (.fadd 4 1 2 false false 1 false) 0x3FF0000000000000 0x3CA0000000000000 = some 0x3FF0000000000000 ∧
    run (.fadd 4 1 2 false false 4 false) 0x3FF0000000000000 0x3CA0000000000000 = some 0x3FF0000000000001 := by decide +kernel
/-- R63: the overflow of RTZ is the largest finite value, that of RNE an infinity. -/
theorem test_fmul : run (.fmul 4 1 2 false false 1 false) 0x7FE0000000000000 0x4000000000000000 = some 0x7FF0000000000000 ∧
    run (.fmul 4 1 2 false false 2 false) 0x7FE0000000000000 0x4000000000000000 = some 0x7FEFFFFFFFFFFFFF := by decide +kernel
/-- R71: −0 is below +0, and a NaN gives way to the other operand. -/
theorem test_fmin : run (.fmin 4 1 2 false false false) 0 0x8000000000000000 = some 0x8000000000000000 ∧
    run (.fmax 4 1 2 false false false) 0x7FF8000000000000 0x4000000000000000 = some 0x4000000000000000 := by decide +kernel
/-- R72: 2.5 to I64 is 2 to nearest even and 3 upwards. -/
theorem test_fcvt : run (.fcvt 4 1 1 false 1 false) 0x4004000000000000 0 = some 2 ∧ run (.fcvt 4 1 1 false 4 false) 0x4004000000000000 0 = some 3 ∧
    run (.fcvt 4 1 1 false 2 false) 0xC004000000000000 0 = some (-2) := by decide +kernel
/-- R133's example: on core 0.5.13 the SLICE address 0x7F00_0000_0000_0100 is 0x68_0100 in TILE and 0xA68_0100 in DIE. -/
theorem test_gtoa : (let s : State := ⟨{ Dev.reset with threads := [(mkCore 5 13 0 * 16, setG th [(1, 0x7F00000000000100)])], cur := mkCore 5 13 0 * 16 }, []⟩
    after (exec (.gtoa 4 1 2 false) s) (fun t => (t.me.gr 4).val) = some 0x680100 ∧ after (exec (.gtoa 4 1 3 false) s) (fun t => (t.me.gr 4).val) = some 0xA680100) := by decide +kernel
/-- R101: a system call goes to the handler TPC is the next address, TVAL the code. -/
theorem test_sysc : after (exec (.sysc 0x155) (mk { th with tvec := 0x40000 })) (fun t => (t.me.pc, t.me.tpc, t.me.tval, t.me.priv)) = some (0x40000, 0x10004, 0x155, true) := by decide +kernel
/-- R54: 0x6085_2002 is a legal LD of a halfword; 0x6C85_2002, an LDT with sz 01, is refused with the sz field's mask. -/
theorem test_r54 : decodesTo [(0x60852002, .ld 4 5 false 1 0 2)] = true ∧ (match decode 0x6C852002 with | .ok _ => false | .error _ => true) = true ∧
    ((decodeRaw 0x6C852002).map fun x => x.2 + refusedFields x.1) = some 0x6000 := by decide +kernel

end Sys2Proof.Tests.Slice0
end

section
/-! PROOFS. The entry of a trap, said once: what `takeTrap` leaves of a thread that can trap, as the record that the statements
name. -/
namespace Sys2Proof.Machine

/-! ## Writes of a step -/

/-- `e` is `d` with some more bytes written, all of them at keys from `lo` to below `hi`. -/
def WroteIn (lo hi : Nat) (d e : Dev) : Prop :=
  ∃ ws, e = { d with wbuf := ws ++ d.wbuf } ∧ ∀ x ∈ ws, lo ≤ x.1 ∧ x.1 < hi

theorem WroteIn.refl (lo hi : Nat) (d : Dev) : WroteIn lo hi d d := ⟨[], rfl, by simp⟩
theorem WroteIn.trans {lo hi : Nat} {d e f : Dev} (h : WroteIn lo hi d e) (h' : WroteIn lo hi e f) : WroteIn lo hi d f := by
  obtain ⟨ws, rfl, hw⟩ := h
  obtain ⟨us, rfl, hu⟩ := h'
  refine ⟨us ++ ws, by simp, fun x hx => ?_⟩
  exact (List.mem_append.mp hx).elim (hu x) (hw x)
theorem WroteIn.mono {lo hi lo' hi' : Nat} {d e : Dev} (h : WroteIn lo hi d e) (hlo : lo' ≤ lo) (hhi : hi ≤ hi') :
    WroteIn lo' hi' d e := by
  obtain ⟨ws, he, hw⟩ := h
  exact ⟨ws, he, fun x hx => ⟨hlo.trans (hw x hx).1, (hw x hx).2.trans_le hhi⟩⟩
theorem WroteIn.foldl {α : Type} {lo hi : Nat} {f : Dev → α → Dev} {l : List α}
    (hf : ∀ a ∈ l, ∀ d, WroteIn lo hi d (f d a)) (d : Dev) : WroteIn lo hi d (l.foldl f d) := by
  induction l generalizing d with
  | nil => exact .refl lo hi d
  | cons a l ih =>
    exact (hf a (by simp) d).trans (ih (fun b hb => hf b (List.mem_cons_of_mem a hb)) (f d a))

theorem wroteIn_wrN (d : Dev) (k x n : Nat) : WroteIn k (k + n) d (wrN d k x n) := by
  induction n generalizing d k x with
  | zero => exact .refl ..
  | succ n ih =>
    have first : WroteIn k (k + (n + 1)) d (wrB d k (BitVec.ofNat 8 x)) := ⟨[(k, BitVec.ofNat 8 x)], rfl, by simp⟩
    exact first.trans ((ih _ (k + 1) (x / 256)).mono (by omega) (by omega))
theorem wroteIn_wr64 (d : Dev) (k : Nat) (x : D) : WroteIn k (k + 8) d (wr64 d k x) := wroteIn_wrN d k x.toNat 8

/-- R301: a trap writes the 40 bytes of the trap block and changes nothing else, where the thread owns a save area. -/
theorem wroteIn_saveBlock {t : Thread} (d : Dev) (h : t.hasArea = true) :
    WroteIn (t.area + 0xA0) (t.area + 0xA0 + 40) d (saveBlock d t) := by
  unfold saveBlock
  rw [if_pos h]
  refine .trans (.foldl (fun i hi d => ?_) d) ((wroteIn_wr64 ..).mono (by omega) (by omega))
  have := List.mem_range.mp hi
  exact (wroteIn_wr64 ..).mono (by omega) (by omega)
/-- The registers that a trap saves change only the writes of the step, and these lie in the trap block. -/
theorem saveBlock_eq (d : Dev) (t : Thread) : ∃ ws, saveBlock d t = { d with wbuf := ws ++ d.wbuf } ∧
    ∀ x ∈ ws, t.hasArea = true ∧ t.area + 0xA0 ≤ x.1 ∧ x.1 < t.area + 0xA0 + 40 := by
  cases h : t.hasArea
  · exact ⟨[], by simp [saveBlock, h], by simp⟩
  · obtain ⟨ws, he, hw⟩ := wroteIn_saveBlock d h
    exact ⟨ws, he, fun x hx => ⟨rfl, hw x hx⟩⟩

/-- A byte that no write of a step names reads as before. -/
theorem Mem.read_flush_of_not_mem {m : Mem} {k : Nat} {ws : List (Nat × Byte)} (hm : Memory.wf m = true)
    (h : ∀ x ∈ ws, x.1 ≠ k) : (m.flush ws).read k = m.read k := by
  induction ws with
  | nil => rfl
  | cons x ws ih =>
    have hx : k ≠ x.1 := (h x (by simp)).symm
    change ((m.flush ws).write x.1 x.2).read k = _
    rw [Mem.read_write _ _ _ (Mem.wf_flush ws hm), if_neg hx]
    exact ih fun y hy => h y (List.mem_cons_of_mem x hy)

/-! ## What leaves a wait or a channel core before the trap -/

/-- R168: going home changes only the state of the slot and where its context is. -/
theorem goHome_eq (t : Thread) :
    t.goHome = { t with mig := none, st := if t.mig.isSome then t.running else t.st } := by
  unfold Thread.goHome
  split
  · rfl
  · next h => rw [← Option.not_isSome_iff_eq_none.mp h]

/-- `e` is `d` but for the waits at its tiles and named queues, and the steps to come: threads, memory's writes and every
other unit are as before. -/
def SameButWaits (d e : Dev) : Prop := e = { d with tiles := e.tiles, recvQ := e.recvQ, events := e.events }

theorem SameButWaits.refl (d : Dev) : SameButWaits d d := rfl
theorem SameButWaits.trans {d e f : Dev} (h : SameButWaits d e) (h' : SameButWaits e f) : SameButWaits d f := by
  unfold SameButWaits at *
  rw [h', h]
theorem SameButWaits.thread {d e : Dev} (h : SameButWaits d e) (loc : Nat) : e.thread loc = d.thread loc := by
  unfold SameButWaits at h
  rw [h]
  rfl

theorem sameButWaits_updTile (d : Dev) (k : Nat) (f : Tile → Tile) : SameButWaits d (d.updTile k f) := rfl
theorem sameButWaits_ite {d e : Dev} (c : Prop) [Decidable c] (h : SameButWaits d e) : SameButWaits d (if c then e else d) := by
  split
  · exact h
  · exact .refl d
theorem sameButWaits_leaveRecv (d : Dev) (loc : Nat) : SameButWaits d (leaveRecv d loc) := by
  unfold leaveRecv
  split
  · unfold nextRecv
    split <;> rfl
  · exact .refl d
/-- What a thread that holds no destination has registered at units is withdrawn without a change of any thread. -/
theorem sameButWaits_withdraw {d : Dev} {loc : Nat} (h : (d.thread loc).held = []) : SameButWaits d (withdraw d loc) := by
  unfold withdraw
  extract_lets tile d1 d2 t unheld d3
  have h1 : SameButWaits d d1 := sameButWaits_ite _ (sameButWaits_updTile ..)
  have h2 : SameButWaits d d2 := h1.trans (sameButWaits_ite _ (sameButWaits_updTile ..))
  have h3 : d3 = d2 := if_pos (by simp [t, h2.thread, h])
  rw [h3]
  exact h2.trans (sameButWaits_leaveRecv d2 loc)

/-! ## The entry of a handler -/

/-- The machine as the entry of a trap finds it: the context is home, its waits and its reservation are gone (R164, R168). -/
def trapFrom (d : Dev) (loc : Nat) : Dev := { dropResv (withdraw (d.updThread loc Thread.goHome) loc) loc with last := .trapped }

theorem trapFrom_eq {d : Dev} {loc : Nat} (h : (d.thread loc).held = []) : ∃ tiles recvQ events resvs reqs,
    trapFrom d loc = { d.updThread loc Thread.goHome with
      tiles := tiles, recvQ := recvQ, events := events, resvs := resvs, reqs := reqs, last := .trapped } := by
  have hw : SameButWaits (d.updThread loc Thread.goHome) (withdraw (d.updThread loc Thread.goHome) loc) :=
    sameButWaits_withdraw (by rw [thread_updThread_self, goHome_eq]; exact h)
  unfold SameButWaits at hw
  unfold trapFrom
  rw [hw]
  exact ⟨_, _, _, _, _, rfl⟩

/-- A thread that can trap enters its handler: no level is open, its vector is aligned, and its group does not halt for it. -/
theorem takeTrap_enter {s : State} (h : s.canTrap) (code cls : Nat) (val aux tpc : D) :
    takeTrap s.start s.dev.cur code cls val aux tpc =
      (saveBlock (trapFrom s.start s.dev.cur) s.me.goHome).setThread s.dev.cur (s.me.goHome.enter code cls val aux tpc) := by
  obtain ⟨hheld, hlvl, hvec, hgrp⟩ := h
  obtain ⟨tiles, recvQ, events, resvs, reqs, he⟩ := trapFrom_eq (d := s.start) (loc := s.dev.cur) hheld
  have ht : (trapFrom s.start s.dev.cur).thread s.dev.cur = s.me.goHome := by
    rw [he]
    exact thread_updThread_self ..
  have hg : (trapFrom s.start s.dev.cur).hgc = s.dev.hgc := by rw [he]; rfl
  have hme : s.me.goHome.hgrp = s.me.hgrp ∧ s.me.goHome.lvl = s.me.lvl ∧ s.me.goHome.tvec = s.me.tvec := by
    rw [goHome_eq]
    exact ⟨rfl, rfl, rfl⟩
  obtain ⟨hg', hl', hv'⟩ := hme
  unfold takeTrap
  rw [← trapFrom]
  simp only [ht, hg, hg', hl', hv', hgrp, hlvl, hvec, and_false, if_false, if_true, Bool.false_eq_true]

/-- Entering a handler changes the thread's trap registers, g28 to g31, and where it goes on; the other registers stand. -/
theorem enter_kept (t : Thread) (code cls : Nat) (val aux tpc : D) (r : Fin 28) :
    (t.enter code cls val aux tpc).g[r.1] = t.g[r.1] := by
  obtain ⟨r, hr⟩ := r
  simp only [Thread.enter]
  rw [Vector.getElem_set_ne _ _ (by omega), Vector.getElem_set_ne _ _ (by omega), Vector.getElem_set_ne _ _ (by omega),
    Vector.getElem_set_ne _ _ (by omega)]

/-- What a trap changes: the thread's own entry, the trap block of its save area, the waits and the reservations it leaves. -/
theorem takeTrap_eq {s : State} (h : s.canTrap) (code cls : Nat) (val aux tpc : D) : ∃ ws tiles recvQ events resvs reqs,
    takeTrap s.start s.dev.cur code cls val aux tpc =
      { s.start.setThread s.dev.cur (s.me.goHome.enter code cls val aux tpc) with
        wbuf := ws, tiles := tiles, recvQ := recvQ, events := events, resvs := resvs, reqs := reqs, last := .trapped } ∧
    ∀ x ∈ ws, s.me.hasArea = true ∧ s.me.area + 0xA0 ≤ x.1 ∧ x.1 < s.me.area + 0xA0 + 40 := by
  obtain ⟨ws, hs, hws⟩ := saveBlock_eq (trapFrom s.start s.dev.cur) s.me.goHome
  obtain ⟨tiles, recvQ, events, resvs, reqs, he⟩ := trapFrom_eq (d := s.start) (loc := s.dev.cur) h.1
  refine ⟨ws, tiles, recvQ, events, resvs, reqs, ?_, ?_⟩
  · rw [takeTrap_enter h, hs, he]
    simp [Dev.updThread, Dev.setThread]
  · rw [goHome_eq] at hws
    exact hws

theorem takeTrap_me {s : State} (h : s.canTrap) (code cls : Nat) (val aux tpc : D) :
    (takeTrap s.start s.dev.cur code cls val aux tpc).me = s.me.goHome.enter code cls val aux tpc := by
  obtain ⟨_, _, _, _, _, _, hd, -⟩ := takeTrap_eq h code cls val aux tpc
  rw [hd]
  exact thread_setThread_self s.start ..

/-- R301 to R303: the record of a trap of a thread that can trap. -/
theorem trapRecord_takeTrap {s : State} (h : s.canTrap) (code cls : Nat) (val aux tpc : D) :
    TrapRecord s (commit s.mem (takeTrap s.start s.dev.cur code cls val aux tpc)) code cls val aux tpc := by
  obtain ⟨ws, _, _, _, _, _, hd, hws⟩ := takeTrap_eq h code cls val aux tpc
  have hme : (commit s.mem (takeTrap s.start s.dev.cur code cls val aux tpc)).me = _ := takeTrap_me h code cls val aux tpc
  rw [goHome_eq] at hme
  constructor
  case taken => rw [hd]; rfl
  case others => rw [hd]; exact fun l hl => thread_setThread_ne s.start _ hl
  case mem => rw [hd]; exact fun hm k hk => Mem.read_flush_of_not_mem hm fun x hx e => hk (e ▸ hws x hx)
  all_goals rw [hme]
  case kept => exact ⟨rfl, rfl, rfl, rfl, rfl, rfl, rfl, enter_kept _ code cls val aux tpc⟩
  case base => simp [Thread.enter]
  case zeros => simp [Thread.enter]
  all_goals rfl

end Sys2Proof.Machine
end

section
/-! PROOFS. O15: NOP only moves on, and a non-zero field of its word traps. -/
namespace Sys2Proof.Machine
open Sys2Proof

/-! ## An instruction that asks for nothing, and one that traps -/

/-- No check stops an instruction that names no register and whose class every core has. -/
theorem checkStop_plain (d : Dev) (i : Instr) : checkStop d i {} = none := by
  have hq : queuesReady (d.thread d.cur) (d.core (coreOf d.cur)) {} = true := by simp [queuesReady]
  simp [checkStop, dueFault, sourcesStop, Shape.dests, hq]

/-- An effect that ends in an exact trap leaves the trap's record at a thread that can trap. -/
theorem run_trapped {i : Instr} {sh : Shape} {body : M Unit} {s : State} {code : Nat} {val aux : D} (hv : s.ready)
    (ht : s.canTrap) (hc : checkStop s.start i sh = none) (hb : body s.mem s.start = .error (.trap code 0 val aux none)) :
    ∃ t, s.run i sh body = .next t ∧ Trapped s t code val aux :=
  ⟨_, run_error hv hc hb, trapRecord_takeTrap ht code 0 val aux s.me.pc⟩

/-! ## NOP -/

theorem exec_nop (s : State) : exec .nop s = s.run .nop {} adv := rfl
theorem exec_illegalOpcode (s : State) :
    exec .illegalOpcode s = s.run .illegalOpcode {} (refuseWord (BitVec.ofNat 32 (s.dev.arg 0))) := rfl

/-- R50: outside a UNI pair NOP adds 4 to the program counter and changes nothing else. -/
theorem exec_nop_eq {s : State} (hv : s.ready) (hu : s.dev.inUni = false) :
    exec .nop s = .next ⟨s.start.mine fun t => { t with pc := s.me.pc + 4 }, s.mem⟩ := by
  have moves : adv s.mem s.start = .ok ((), s.start.mine fun t => { t with pc := s.me.pc + 4 }) := by
    simp only [adv, start_inUni, hu]
    rfl
  rw [exec_nop, run_ok hv (checkStop_plain s.start .nop) moves, commit_quiet s.mem _ rfl rfl]

/-! ## The words of NOP -/

/-- The major opcode and the selector [8:0] of a word are those of its bits under their mask (R45). -/
theorem opcode_selector_of_and {w c : Word} (h : w &&& 0xFC0001FF = c) :
    w.toNat / 67108864 = c.toNat / 67108864 ∧ w.toNat % 512 = c.toNat % 512 := by
  have hw := w.isLt
  have hc : c.toNat = w.toNat &&& 0xFC0001FF := by rw [← h]; rfl
  have op : (w.toNat &&& 0xFC0001FF) / 2 ^ 26 = w.toNat / 2 ^ 26 := by
    rw [Nat.and_div_two_pow, show 0xFC0001FF / 2 ^ 26 = 2 ^ 6 - 1 from rfl, Nat.and_two_pow_sub_one_eq_mod]
    omega
  have sel : (w.toNat &&& 0xFC0001FF) % 2 ^ 9 = w.toNat % 2 ^ 9 := by
    rw [Nat.and_mod_two_pow, show 0xFC0001FF % 2 ^ 9 = 2 ^ 9 - 1 from rfl, Nat.and_two_pow_sub_one_eq_mod]
    omega
  rw [hc]
  exact ⟨op.symm, sel.symm⟩

theorem decodeRaw_of_nop {w : Word} (hop : w.toNat / 67108864 = 0) (hsel : w.toNat % 512 = 1) :
    decodeRaw w = some (.nop, zf w.toNat 9 17) := by
  rw [decodeRaw, hop]
  change decMisc w.toNat = _
  simp only [decMisc, hsel]
theorem refusedFields_nop : refusedFields .nop = 0 := rfl
theorem refusedHere_nop (loc : Nat) : refusedHere loc .nop = 0 := rfl
/-- R43 step 5: a word of NOP is NOP where its must-be-zero field is 0, and no instruction otherwise. -/
theorem decode_of_nop {w : Word} (hop : w.toNat / 67108864 = 0) (hsel : w.toNat % 512 = 1) :
    decode w = if zf w.toNat 9 17 = 0 then .ok .nop else .error (.reservedField (zf w.toNat 9 17)) := by
  simp [decode, decodeRaw_of_nop hop hsel, refusedFields_nop]
/-- R50: 0x0000_0001 is the only word of NOP whose must-be-zero field is 0. -/
theorem zf_ne_zero_of_nop {w : Word} (hop : w.toNat / 67108864 = 0) (hsel : w.toNat % 512 = 1) (hw : w ≠ 1) :
    zf w.toNat 9 17 ≠ 0 := by
  intro h
  refine hw (BitVec.eq_of_toNat_eq (?_ : w.toNat = 1))
  simp only [zf] at h
  omega

/-- NOP's words name a class that every core has and no privilege. -/
theorem wordGate_of_nop {w : Word} (hop : w.toNat / 67108864 = 0) (hsel : w.toNat % 512 = 1) :
    wordGate w = (.any, false) := by
  simp [wordGate, hop, hsel]
/-- R43 step 5: the refused word of NOP ends in RESERVED_FIELD with the set bits of its field. -/
theorem refuseWord_of_nop {w : Word} (hop : w.toNat / 67108864 = 0) (hsel : w.toNat % 512 = 1) (m : Mem) (d : Dev) :
    refuseWord w m d = .error (.trap 0x02 0 (w.setWidth 64) (ofN (zf w.toNat 9 17)) none) := by
  simp [refuseWord, decodeRaw_of_nop hop hsel, wordGate_of_nop hop hsel, refusedHere_nop]

/-- Settles O15: NOP names no register, so no check stops it and its effect is its step of the program counter; a word with
NOP's opcode and selector that is not its own has a bit of [25:9] set, which check 5 of R43 refuses on every core. -/
theorem nopOnlyAdvances : Obligations.NopOnlyAdvances := by
  unfold Obligations.NopOnlyAdvances
  refine ⟨?_, fun s hv hu => exec_nop_eq hv hu, fun s w hmask hw => ?_⟩
  · exact (decode_of_nop rfl rfl).trans (if_pos rfl)
  · obtain ⟨hop, hsel⟩ : w.toNat / 67108864 = 0 ∧ w.toNat % 512 = 1 := opcode_selector_of_and hmask
    refine ⟨fun i => ?_, fun hv ht harg => ?_⟩
    · rw [decode_of_nop hop hsel, if_neg (zf_ne_zero_of_nop hop hsel hw)]
      exact nofun
    · have hword : BitVec.ofNat 32 (s.dev.arg 0) = w := by rw [harg, BitVec.ofNat_toNat, BitVec.setWidth_eq]
      obtain ⟨t, hrun, htrap⟩ :=
        run_trapped hv ht (checkStop_plain s.start .illegalOpcode) (refuseWord_of_nop hop hsel s.mem s.start)
      exact ⟨t, _, by rw [exec_illegalOpcode, hword, hrun], htrap⟩

end Sys2Proof.Machine
end

section
/-! PROOFS. How an instruction ends that loses its turn or is stopped by a check, and the reading of g sources that are there:
what the checks find, what the effect reads and writes, and what it leaves. -/
namespace Sys2Proof.Machine
open Sys2Proof

@[simp] theorem start_me (s : State) : s.start.me = s.me := rfl

/-- A turn that is lost changes nothing. -/
theorem run_lost {i : Instr} {sh : Shape} {body : M Unit} {s : State} (hv : s.ready) (hc : checkStop s.start i sh = none)
    (hb : body s.mem s.start = .error .lose) : ∃ t, s.run i sh body = .next t ∧ Lost s t :=
  ⟨_, run_error hv hc hb, commit_quiet s.mem _ rfl rfl⟩
/-- A check that traps leaves the trap's record at a thread that can trap. -/
theorem run_checkTrapped {i : Instr} {sh : Shape} {body : M Unit} {s : State} {code : Nat} {val aux : D} (hv : s.ready)
    (ht : s.canTrap) (hc : checkStop s.start i sh = some (.trap code 0 val aux none)) :
    ∃ t, s.run i sh body = .next t ∧ Trapped s t code val aux :=
  ⟨_, run_stop hv hc, trapRecord_takeTrap ht code 0 val aux s.me.pc⟩

/-! ## The register queues (R180) -/

/-- An entry of a vector of queues after one is replaced. -/
theorem getD_setIfInBounds (v : Vector (List D) 4) (q j : Nat) (x : List D) :
    (v.setIfInBounds q x).toArray.getD j [] = if q = j ∧ j < 4 then x else v.toArray.getD j [] := by
  rw [Vector.toArray_setIfInBounds, Array.getD_eq_getD_getElem?, Array.getD_eq_getD_getElem?, Array.getElem?_setIfInBounds]
  by_cases hq : q = j <;> by_cases hj : j < 4 <;> simp [hq, hj]

/-- Taking an entry changes cores alone. -/
theorem popQueue_eq (d : Dev) (ca q : Nat) : (popQueue d ca q).2 = { d with cores := (popQueue d ca q).2.cores } := by
  unfold popQueue
  extract_lets c
  split <;> rfl
/-- The queue gives up its head; the other queues stand. -/
theorem queue_popQueue (d : Dev) (q j : Nat) :
    (popQueue d (coreOf d.cur) q).2.queue j = if q = j then (d.queue j).tail else d.queue j := by
  unfold popQueue
  extract_lets c
  split
  · next hq =>
    have empty : d.queue q = [] := hq
    split
    · next e => rw [← e, empty]; rfl
    · rfl
  · next x rest hq =>
    have full : d.queue q = x :: rest := hq
    have hlt : q < 4 := by
      by_contra h
      simp [Dev.queue, Array.getD, h] at full
    simp only [Dev.queue, Dev.core, Dev.updCore, Tbl.getD_set_self, getD_setIfInBounds]
    split
    · next e => rw [if_pos e.1, ← e.1]; exact (congrArg List.tail full).symm
    · next e => rw [if_neg fun h => e ⟨h, h ▸ hlt⟩]

/-! ## Reading g sources (R35, R37, R180) -/

/-- `e` is `d` but for what its cores hold. -/
def SameButCores (d e : Dev) : Prop := e = { d with cores := e.cores }

namespace SameButCores
variable {d e f : Dev}
theorem trans (h : SameButCores d e) (h' : SameButCores e f) : SameButCores d f := by
  unfold SameButCores at *
  rw [h', h]
theorem me (h : SameButCores d e) : e.me = d.me := by rw [h]; rfl
theorem last (h : SameButCores d e) : e.last = d.last := by rw [h]
theorem wbuf (h : SameButCores d e) : e.wbuf = d.wbuf := by rw [h]
theorem wclear (h : SameButCores d e) : e.wclear = d.wclear := by rw [h]
end SameButCores

/-- A source that stops nothing: a queue, or a FULL register with no fault behind it. -/
def Thread.SourceReady (t : Thread) (x : Src) : Prop := (t.srcQueue x).isSome ∨ t.srcState x = (.full, .none)

/-- The g sources of an instruction, each with its mode bit. -/
def gSrcs (ps : List (BitVec 5 × Bool)) : List Src := ps.map fun p => .g p.1 p.2

section
variable {d e : Dev} {r : BitVec 5} {x : D}

/-- A source that can be read: the head of a queue that holds an entry is taken, or a FULL register gives its value. -/
theorem readG_cases (h : d.readG r = some (x, e)) :
    (d.me.isQueue r = true ∧ d.queue (r.toNat - 20) ≠ [] ∧ popQueue d (coreOf d.cur) (r.toNat - 20) = (x, e)) ∨
    (d.me.isQueue r = false ∧ d.me.gr r = .ofVal x ∧ d = e) := by
  unfold Dev.readG at h
  split at h
  · next hr =>
    split at h
    · cases h
    · next hne => exact .inl ⟨hr, fun e => hne (List.isEmpty_iff.mpr e), Option.some.inj h⟩
  · next hr =>
    split at h
    · next hfull =>
      obtain ⟨rfl, rfl⟩ := Prod.mk.inj (Option.some.inj h)
      exact .inr ⟨by simpa using hr, hfull, rfl⟩
    · cases h
/-- The effect of an instruction reads the value that the statements name. -/
theorem gv_of_readG (m : Mem) (h : d.readG r = some (x, e)) : gv r m d = .ok (x, e) := by
  obtain ⟨hr, -, hp⟩ | ⟨hr, hfull, rfl⟩ := readG_cases h
  · exact (if_pos hr).trans (congrArg _ hp)
  · refine (if_neg (by simpa [Dev.me] using hr)).trans ?_
    rw [← Dev.me, hfull]
    rfl
/-- A source is read whatever its register holds. -/
theorem gv_total (r : BitVec 5) (m : Mem) (d : Dev) : ∃ x e, gv r m d = .ok (x, e) ∧ SameButCores d e := by
  unfold gv
  extract_lets t
  split
  · exact ⟨_, _, rfl, popQueue_eq ..⟩
  · exact ⟨_, _, rfl, rfl⟩
/-- What reading a source says and does: the register is ready, and a queue source's queue has one entry fewer. -/
theorem readG_spec (h : d.readG r = some (x, e)) (mode : Bool) : SameButCores d e ∧ d.me.SourceReady (.g r mode) ∧
    ∀ q, (d.queue q).length = (e.queue q).length + (d.me.srcQueue (.g r mode)).toList.count q := by
  obtain ⟨hr, hne, hp⟩ | ⟨hr, hfull, rfl⟩ := readG_cases h
  · obtain rfl : (popQueue d (coreOf d.cur) (r.toNat - 20)).2 = e := congrArg Prod.snd hp
    have hs : d.me.srcQueue (.g r mode) = some (r.toNat - 20) := if_pos hr
    refine ⟨popQueue_eq .., .inl (by rw [hs]; rfl), fun q => ?_⟩
    rw [queue_popQueue, hs]
    split
    · next e =>
      have := List.length_pos_iff.mpr (e ▸ hne)
      simp [e]
      omega
    · next e => simp [e]
  · have hs : d.me.srcQueue (.g r mode) = none := if_neg (by simp [hr])
    exact ⟨rfl, .inr (by rw [Thread.srcState, hfull]; rfl), by simp [hs]⟩
end

/-- One source that can be read is the value list of the statements. -/
theorem readGs_single {d e : Dev} {r : BitVec 5} {xs : List D} (h : d.readGs [r] = some (xs, e)) :
    ∃ x, xs = [x] ∧ d.readG r = some (x, e) := by
  simp only [Dev.readGs] at h
  split at h
  · cases h
  · next x e' hx =>
    cases h
    exact ⟨x, rfl, hx⟩

/-- What reading the sources in order does to the machine, and what it says of them. -/
theorem readGs_spec {d e : Dev} {ps : List (BitVec 5 × Bool)} {xs : List D} (h : d.readGs (ps.map Prod.fst) = some (xs, e)) :
    SameButCores d e ∧ (∀ s ∈ gSrcs ps, d.me.SourceReady s) ∧
    ∀ q, (d.queue q).length = (e.queue q).length + ((gSrcs ps).filterMap d.me.srcQueue).count q := by
  induction ps generalizing d xs with
  | nil => cases h; exact ⟨rfl, by simp [gSrcs], by simp [gSrcs]⟩
  | cons p ps ih =>
    simp only [List.map_cons, Dev.readGs] at h
    split at h
    · cases h
    · next x d' hx =>
      split at h
      · cases h
      · next ys e' hys =>
        cases h
        obtain ⟨hd, hp, hq⟩ := readG_spec hx p.2
        obtain ⟨he, hps, hqs⟩ := ih hys
        rw [hd.me] at hps hqs
        refine ⟨hd.trans he, ?_, fun q => ?_⟩
        · simpa [gSrcs] using And.intro hp hps
        · rw [hq q, hqs q]
          cases hs : d.me.srcQueue (.g p.1 p.2) <;> simp [gSrcs, hs, List.count_cons, Nat.add_assoc]

/-! ## Writing a g destination (R35, R180) -/

/-- A write of a g destination leaves no byte of memory waiting. -/
theorem writes_pushQueue (d : Dev) (ca q : Nat) (x : D) :
    (pushQueue d ca q x).wbuf = d.wbuf ∧ (pushQueue d ca q x).wclear = d.wclear := by
  unfold pushQueue
  extract_lets e
  refine List.foldlRecOn (motive := fun f : Dev => f.wbuf = d.wbuf ∧ f.wclear = d.wclear) _ _ ⟨rfl, rfl⟩ fun f hf slot _ => ?_
  split <;> exact hf
theorem writes_writeG (d : Dev) (r : BitVec 5) (x : D) : (d.writeG r x).wbuf = d.wbuf ∧ (d.writeG r x).wclear = d.wclear := by
  unfold Dev.writeG
  split
  · exact writes_pushQueue ..
  · exact ⟨rfl, rfl⟩
/-- The effect of an instruction writes what the statements name. -/
theorem wg_eq (r : BitVec 5) (x : D) (m : Mem) (d : Dev) : wg r x m d = .ok ((), d.writeG r x) := by
  unfold wg Dev.writeG
  extract_lets t
  exact (apply_ite (fun e => Except.ok ((), e)) ..).symm

/-! ## The checks pass (R37, R38, R43, R180) -/

section
variable {t : Thread} {srcs : List Src}

/-- A source that is ready, whatever is asked of what stands behind it. -/
theorem Thread.SourceReady.cases {x : Src} (h : t.SourceReady x) :
    (∃ q, t.srcQueue x = some q) ∨ t.srcQueue x = none ∧ t.srcState x = (.full, .none) := by
  cases hq : t.srcQueue x with
  | some q => exact .inl ⟨q, rfl⟩
  | none => exact .inr ⟨rfl, h.resolve_left (by simp [hq])⟩
theorem sourceStop_ready {x : Src} (h : t.SourceReady x) : sourceStop t x = none := by
  obtain ⟨q, hq⟩ | ⟨hq, hs⟩ := h.cases
  · simp [sourceStop, hq]
  · simp [sourceStop, hq, hs]
theorem awaitsPage_ready (d : Dev) {x : Src} (h : t.SourceReady x) : awaitsPage d t x = false := by
  obtain ⟨q, hq⟩ | ⟨hq, hs⟩ := h.cases
  · simp [awaitsPage, hq]
  · simp [awaitsPage, hq, hs]
theorem sourcesStop_ready (h : ∀ x ∈ srcs, t.SourceReady x) : sourcesStop t srcs = none := by
  have : srcs.filterMap (sourceStop t) = [] := List.filterMap_eq_nil_iff.mpr fun x hx => sourceStop_ready (h x hx)
  simp [sourcesStop, this]
theorem dueFault_ready (h : ∀ x ∈ srcs, t.SourceReady x) : dueFault t srcs false = none := by
  unfold dueFault
  rw [List.filterMap_eq_nil_iff.mpr fun x hx => ?_]
  · rfl
  · obtain ⟨q, hq⟩ | ⟨hq, hs⟩ := (h x hx).cases
    · simp [hq]
    · simp [hq, hs]
end

/-- An instruction that every core has and both privileges may use passes its checks where its sources are ready and its
destinations can be written. -/
theorem checkStop_ready {d : Dev} {i : Instr} {sh : Shape} (hgate : sh.gate = .any) (hpriv : sh.priv = false) (hxacc : sh.xacc = false)
    (hsrcs : ∀ x ∈ sh.srcs, d.me.SourceReady x)
    (hlong : (sh.long ++ (if d.inUni then sh.dst.toList else [])).any d.me.isQueue = false)
    (hdests : sh.dests.findSome? (destStop d.me) = none)
    (hqueues : queuesReady d.me (d.core (coreOf d.cur)) sh = true) : checkStop d i sh = none := by
  have hpage : sh.srcs.any (awaitsPage d d.me) = false := by
    rw [List.any_eq_false]
    exact fun x hx => ne_true_of_eq_false (awaitsPage_ready d (hsrcs x hx))
  have hfault : dueFault d.me sh.srcs sh.xacc = none := by rw [hxacc]; exact dueFault_ready hsrcs
  have hstop := sourcesStop_ready hsrcs
  unfold Dev.me at *
  simp [checkStop, hgate, hpriv, hfault, hpage, hlong, hstop, hdests, hqueues]

/-- R180: sources that can be read name no queue oftener than it holds entries. -/
theorem queuesReady_of_readGs {d e : Dev} {ps : List (BitVec 5 × Bool)} {xs : List D} (h : d.readGs (ps.map Prod.fst) = some (xs, e))
    {sh : Shape} (hs : sh.srcs = gSrcs ps) (hdst : ∀ r ∈ sh.dst, d.me.isQueue r = true → (d.queue (r.toNat - 20)).length < 16) :
    queuesReady d.me (d.core (coreOf d.cur)) sh = true := by
  obtain ⟨-, -, hq⟩ := readGs_spec h
  have hcount : ∀ q, ((gSrcs ps).filterMap d.me.srcQueue).count q ≤ (d.queue q).length := fun q => by rw [hq q]; omega
  unfold queuesReady
  rw [hs, Bool.and_eq_true, List.all_eq_true]
  refine ⟨fun q _ => decide_eq_true (hcount q), ?_⟩
  split
  · next r hr =>
    cases hqr : d.me.isQueue r
    · rfl
    · exact decide_eq_true (hdst r hr hqr)
  · rfl

section
variable {d e : Dev} {i : Instr} {ps : List (BitVec 5 × Bool)} {r : BitVec 5} {xs : List D}

/-- A g destination that is no ABSENT register needs no fetch (R38). -/
theorem destStop_of_present {t : Thread} {r : BitVec 5} (h : t.isQueue r = false → (t.gr r).st ≠ .absent) :
    destStop t (.g r false) = none := by
  refine if_neg fun ⟨hq, ha⟩ => ?_
  cases hr : t.isQueue r
  · exact h hr ha
  · simp [Thread.srcQueue, hr] at hq

/-- An instruction with g sources that can be read, and a destination that a long-latency producer can claim, passes its checks. -/
theorem checkStop_long (h : d.readGs (ps.map Prod.fst) = some (xs, e)) (hr : d.claim r) :
    checkStop d i { srcs := gSrcs ps, long := [r] } = none := by
  obtain ⟨hqueue, hpresent⟩ := hr
  obtain ⟨-, hsrcs, -⟩ := readGs_spec h
  refine checkStop_ready rfl rfl rfl hsrcs ?_ ?_ (queuesReady_of_readGs h rfl (by simp))
  · cases d.inUni <;> simp [hqueue]
  · simp [Shape.dests, destStop_of_present fun _ => hpresent]
/-- An instruction with g sources that can be read, and a g destination that can be written, passes its checks. -/
theorem checkStop_short (h : d.readGs (ps.map Prod.fst) = some (xs, e)) (hr : d.space r) :
    checkStop d i { srcs := gSrcs ps, dst := some r } = none := by
  obtain ⟨hspace, hpresent⟩ := hr
  obtain ⟨-, hsrcs, -⟩ := readGs_spec h
  refine checkStop_ready rfl rfl rfl hsrcs ?_ ?_ (queuesReady_of_readGs h rfl ?_)
  · cases hu : d.inUni
    · rfl
    · simpa using Bool.eq_false_iff.mpr fun hq => absurd (hspace hq).1 (by simp [hu])
  · simp [Shape.dests, destStop_of_present hpresent]
  · rintro _ ⟨⟩ hq
    exact (hspace hq).2
end

/-! ## Effects in sequence -/

section
variable {α β : Type} {x : M α} {f : α → M β} {m : Mem} {d e : Dev} {a : α}
theorem bind_of_ok (h : x m d = .ok (a, e)) : (x >>= f) m d = f a m e := by
  change (x m d >>= fun y => f y.1 m y.2) = _
  rw [h]
  rfl
theorem bind_of_error {z : Stop} (h : x m d = .error z) : (x >>= f) m d = .error z := by
  change (x m d >>= fun y => f y.1 m y.2) = _
  rw [h]
  rfl
end

end Sys2Proof.Machine
end

section
/-! PROOFS. O20: what ERET restores from the trap block, and how a thread returns to U. -/
namespace Sys2Proof.Machine
open Sys2Proof

/-! ## What a return may change (R304, R342) -/

/-- Nothing waits to be written but zeros over the error marks of code words of `ks` that memory holds as correctable. -/
def CorrectsOnly (m : Mem) (ks : List Nat) (d : Dev) : Prop :=
  d.wclear = [] ∧ ∀ x ∈ d.wbuf, x.2 = 0 ∧ ∃ b ∈ ks, x.1 = errKey b ∧ m.read (errKey b) = 1

/-- `e` is `d` after a part of a return of the thread at `loc`: g28 to g31 of the thread and its dirty bits may differ, no other
register and no other thread does, and only error marks of `ks` are corrected. -/
structure Restored (m : Mem) (ks : List Nat) (loc : Nat) (d e : Dev) : Prop where
  cur : e.cur = d.cur
  last : e.last = d.last
  others : ∀ l, l ≠ loc → e.thread l = d.thread l
  me : ∃ g dirty, e.thread loc = { d.thread loc with g := g, dirty := dirty } ∧ ∀ r : Fin 28, g[r.1] = (d.thread loc).g[r.1]
  writes : CorrectsOnly m ks d → CorrectsOnly m ks e

namespace Restored
variable {m : Mem} {ks : List Nat} {loc : Nat}

theorem refl (d : Dev) : Restored m ks loc d d := ⟨rfl, rfl, fun _ _ => rfl, ⟨_, _, rfl, fun _ => rfl⟩, id⟩
theorem trans {d e f : Dev} (h : Restored m ks loc d e) (h' : Restored m ks loc e f) : Restored m ks loc d f where
  cur := h'.cur.trans h.cur
  last := h'.last.trans h.last
  others l hl := (h'.others l hl).trans (h.others l hl)
  me := by
    obtain ⟨g, dirty, he, hg⟩ := h.me
    obtain ⟨g', dirty', hf, hg'⟩ := h'.me
    rw [he] at hf hg'
    exact ⟨g', dirty', hf, fun r => (hg' r).trans (hg r)⟩
  writes hd := h'.writes (h.writes hd)
theorem foldl {α : Type} {f : Dev → α → Dev} {l : List α} (hf : ∀ a ∈ l, ∀ d, Restored m ks loc d (f d a)) (d : Dev) :
    Restored m ks loc d (l.foldl f d) :=
  List.foldlRecOn (motive := Restored m ks loc d) l f (refl d) fun e he a ha => he.trans (hf a ha e)

/-- A change of the thread's g28 to g31 and dirty bits alone, whatever becomes of the producers. -/
theorem of_g {d e : Dev} {g : Vector (Reg 64) 32} {dirty : BitVec 160}
    (threads : e.threads = d.threads.set loc { d.thread loc with g := g, dirty := dirty })
    (kept : ∀ r : Fin 28, g[r.1] = (d.thread loc).g[r.1])
    (cur : e.cur = d.cur) (last : e.last = d.last) (wbuf : e.wbuf = d.wbuf) (wclear : e.wclear = d.wclear) :
    Restored m ks loc d e where
  cur := cur
  last := last
  others l hl := by
    rw [Dev.thread, threads]
    exact Tbl.getD_set_ne _ _ _ hl
  me := by
    refine ⟨g, dirty, ?_, kept⟩
    rw [Dev.thread, threads]
    exact Tbl.getD_set_self ..
  writes h := by rwa [CorrectsOnly, wclear, wbuf]
/-- A change of another unit, whose writes are corrections. -/
theorem of_threads {d e : Dev} (threads : e.threads = d.threads) (cur : e.cur = d.cur) (last : e.last = d.last)
    (writes : CorrectsOnly m ks d → CorrectsOnly m ks e) : Restored m ks loc d e where
  cur := cur
  last := last
  others l _ := by rw [Dev.thread, threads]; rfl
  me := ⟨_, _, by rw [Dev.thread, threads]; rfl, fun _ => rfl⟩
  writes := writes
end Restored

/-! ## The steps of `restoreBlock` -/

/-- R342: an uncorrectable code word is reported, and nothing is written. -/
theorem restored_pushFault (m : Mem) (ks : List Nat) (loc : Nat) (d : Dev) (die : Nat) (addr : D) (src master : Nat) :
    Restored m ks loc d (pushFault d die addr src master) := .of_threads rfl rfl rfl id

/-- A byte that reads as not zero, where all writes are zeros, is what memory holds. -/
theorem CorrectsOnly.read_of_rdB {m : Mem} {ks : List Nat} {d : Dev} {k : Nat} {b : Byte} (h : CorrectsOnly m ks d)
    (hr : rdB m d k = b) (hb : b ≠ 0) : m.read k = b := by
  obtain ⟨hc, hw⟩ := h
  unfold rdB at hr
  split at hr
  · next x hx => exact absurd (hr.symm.trans (hw x (List.mem_of_find?_eq_some hx)).1) hb
  · rwa [hc] at hr

/-- R342: a correctable code word's mark is cleared, and a sound one's stands. -/
theorem restored_correctErr {m : Mem} {ks : List Nat} (loc : Nat) (d : Dev) {b : Nat} (hb : b ∈ ks) :
    Restored m ks loc d (correctErr m d loc b) := by
  unfold correctErr
  split
  · next hmark =>
    refine .of_threads rfl rfl rfl fun h => ⟨h.1, fun x hx => ?_⟩
    rcases List.mem_cons.mp hx with rfl | hx
    · exact ⟨rfl, b, hb, rfl, h.read_of_rdB hmark (by decide)⟩
    · exact h.2 x hx
  · exact .refl d

/-- R301: the two code words of 32 bytes that hold the trap block of a thread with a save area. -/
def Thread.codeWords (t : Thread) : List Nat := if t.hasArea then [t.block, t.block + 32] else []
theorem Thread.mem_codeWords {t : Thread} {k : Nat} : k ∈ t.codeWords ↔ t.hasArea = true ∧ k ∈ [t.block, t.block + 32] := by
  unfold Thread.codeWords
  split <;> simp_all

/-- R305: a thread that owns no save area has nothing to restore. -/
theorem restoreBlock_of_noArea (m : Mem) {d : Dev} {loc : Nat} (h : (d.thread loc).hasArea = false) : restoreBlock m d loc = d := by
  simp [restoreBlock, h]
/-- R304: g28 to g31 are put on their way from the trap block, and the marks of its two code words are corrected; nothing else of
a thread changes, and memory nowhere else. -/
theorem restored_restoreBlock (m : Mem) (d : Dev) (loc : Nat) :
    Restored m (d.thread loc).codeWords loc d (restoreBlock m d loc) := by
  cases harea : (d.thread loc).hasArea
  · rw [restoreBlock_of_noArea m harea]
    exact .refl d
  · rw [Thread.codeWords, if_pos harea]
    unfold restoreBlock
    extract_lets t k sts regs
    have hregs : Restored m [k, k + 32] loc d regs := .foldl (fun i hi d => by
      have hi : i < 4 := List.mem_range.mp hi
      refine .of_g rfl (fun r => Vector.getElem_setIfInBounds_ne _ ?_) rfl rfl rfl rfl
      simp only [BitVec.toNat_ofNat]
      omega) d
    rw [if_neg (by simpa using harea)]
    refine hregs.trans (.foldl (fun b hb d => ?_) regs)
    split
    · exact restored_pushFault ..
    · exact restored_correctErr loc d hb

/-! ## What a return writes -/

/-- Error marks stand above every byte of memory. -/
theorem le_errKey (k : Nat) : 2 ^ 73 ≤ errKey k := Nat.le_add_right ..

/-- R342: no byte of memory changes where only error marks are corrected. -/
theorem CorrectsOnly.read_commit {m : Mem} {ks : List Nat} {d : Dev} (h : CorrectsOnly m ks d) (hm : Memory.wf m = true) {k : Nat}
    (hk : k < 2 ^ 73) : Mem.read (commit m d).mem k = m.read k := by
  obtain ⟨hc, hw⟩ := h
  rw [commit_mem, hc]
  refine Mem.read_flush_of_not_mem hm fun x hx e => ?_
  obtain ⟨-, b, -, hb, -⟩ := hw x hx
  exact absurd (le_errKey b) (by omega)
/-- With no mark to correct memory stands as it was. -/
theorem CorrectsOnly.commit_mem_of_sound {m : Mem} {ks : List Nat} {d : Dev} (h : CorrectsOnly m ks d)
    (hs : ∀ k ∈ ks, m.read (errKey k) = 0) : (commit m d).mem = m := by
  obtain ⟨hc, hw⟩ := h
  have quiet : d.wbuf = [] := List.eq_nil_iff_forall_not_mem.mpr fun x hx => by
    obtain ⟨-, b, hb, -, hmark⟩ := hw x hx
    rw [hs b hb] at hmark
    exact absurd hmark (by decide)
  rw [commit_quiet m d quiet hc]

/-! ## How ERET ends -/

/-- R43 step 4: a privileged instruction that names no register is stopped in U, and only there. -/
theorem checkStop_privileged (d : Dev) (i : Instr) : checkStop d i { priv := true } =
    if d.me.priv then none else some (.trap 0x03 0 ((encode i).setWidth 64) 0 none) := by
  have hq : queuesReady (d.thread d.cur) (d.core (coreOf d.cur)) { priv := true } = true := by simp [queuesReady]
  cases hp : (d.thread d.cur).priv <;> simp [checkStop, dueFault, sourcesStop, Shape.dests, hq, Dev.me, hp]

/-- R102, R304: what ERET makes of its thread, beside what it brings back from the trap block. -/
def Thread.toUser (t : Thread) : Thread :=
  { t with tcause := setField t.tcause 9 9 0, priv := false, own := false, pc := t.tpc }.touch 10

/-- R302, R304: TCAUSE.LVL is 0 after the return. -/
theorem lvl_toUser (t : Thread) : t.toUser.lvl = false := by
  have := t.tcause.isLt
  simp only [Thread.lvl, Thread.toUser, Thread.touch, bitN, setField, fieldN, BitVec.toNat_ofNat]
  rw [beq_eq_false_iff_ne]
  omega

/-- R102, R304: the three ends of ERET in S. -/
theorem exceptionReturn_eq (m : Mem) (d : Dev) : exceptionReturn m d =
    if d.me.tpc.toNat % 4 ≠ 0 then .error (.trap 0x05 0 d.me.tpc 0 none)
    else if blockHeld d d.me then .error .lose
    else .ok ((), (restoreBlock m d d.cur).updThread d.cur Thread.toUser) := rfl

/-- The machine after an ERET that returns: what the trap block gives back, then the thread in U. -/
def returned (s : State) : Dev := (restoreBlock s.mem s.start s.dev.cur).updThread s.dev.cur Thread.toUser

section
variable {s : State} (hv : s.ready)
include hv

theorem exec_eret_user (hp : s.me.priv = false) (ht : s.canTrap) :
    ∃ t, exec .eret s = .next t ∧ Trapped s t 0x03 0xB 0 :=
  run_checkTrapped hv ht ((checkStop_privileged s.start .eret).trans (if_neg (by simpa using hp)))

variable (hp : s.me.priv = true)
include hp

theorem exec_eret_misaligned (ha : s.me.tpc.toNat % 4 ≠ 0) (ht : s.canTrap) :
    ∃ t, exec .eret s = .next t ∧ Trapped s t 0x05 s.me.tpc 0 :=
  run_trapped hv ht ((checkStop_privileged s.start .eret).trans (if_pos hp))
    ((exceptionReturn_eq s.mem s.start).trans (if_pos ha))

theorem exec_eret_held (ha : s.me.tpc.toNat % 4 = 0) (hb : blockHeld s.dev s.me = true) :
    ∃ t, exec .eret s = .next t ∧ Lost s t :=
  run_lost hv ((checkStop_privileged s.start .eret).trans (if_pos hp))
    ((exceptionReturn_eq s.mem s.start).trans ((if_neg (not_not.mpr ha)).trans (if_pos hb)))

theorem exec_eret_returns (ha : s.me.tpc.toNat % 4 = 0) (hb : blockHeld s.dev s.me = false) :
    exec .eret s = .next (commit s.mem (returned s)) :=
  run_ok hv ((checkStop_privileged s.start .eret).trans (if_pos hp))
    ((exceptionReturn_eq s.mem s.start).trans ((if_neg (not_not.mpr ha)).trans (if_neg (ne_true_of_eq_false hb))))
end

/-- What a return restores: g28 to g31 of the thread, and error marks. -/
theorem restored_start (s : State) : Restored s.mem s.me.codeWords s.dev.cur s.start
    (restoreBlock s.mem s.start s.dev.cur) := restored_restoreBlock s.mem s.start s.dev.cur
/-- The thread after its return: in U, with g28 to g31 on their way. -/
theorem me_returned (s : State) : ∃ g dirty, (commit s.mem (returned s)).me = Thread.toUser { s.me with g := g, dirty := dirty } ∧
    (∀ r : Fin 28, g[r.1] = s.me.g[r.1]) ∧ (s.me.hasArea = false → g = s.me.g) := by
  have r := restored_start s
  obtain ⟨g, dirty, hthread, hg⟩ := r.me
  refine ⟨g, dirty, ?_, hg, fun ha => ?_⟩
  · change (returned s).thread (restoreBlock s.mem s.start s.dev.cur).cur = _
    rw [r.cur, start_cur, returned, thread_updThread_self, hthread]
    rfl
  · rw [restoreBlock_of_noArea s.mem (d := s.start) ha] at hthread
    exact (congrArg Thread.g hthread).symm
theorem thread_returned_ne (s : State) {l : Nat} (hl : l ≠ s.dev.cur) : (returned s).thread l = s.dev.thread l :=
  (thread_updThread_ne _ _ hl).trans ((restored_start s).others l hl)
theorem correctsOnly_returned (s : State) : CorrectsOnly s.mem s.me.codeWords (returned s) :=
  (restored_start s).writes ⟨rfl, by simp⟩

end Sys2Proof.Machine

namespace Sys2Proof
open Machine

/-- Settles O20: the check of privilege traps in U, a misaligned TPC traps before anything is restored, a held trap block loses the
turn; else the thread goes on in U, and beside that the return changes g28 to g31 and error marks alone. (In the namespace of
the model the name is the effect's own.) -/
theorem exceptionReturn : Obligations.ExceptionReturn := by
  unfold Obligations.ExceptionReturn
  intro s hv
  refine ⟨exec_eret_held hv, fun hp ha hb => ⟨_, exec_eret_returns hv hp ha hb, (restored_start s).last, ?_⟩,
    exec_eret_misaligned hv, exec_eret_user hv⟩
  have writes := correctsOnly_returned s
  obtain ⟨g, dirty, hme, hg, hown⟩ := me_returned s
  refine ⟨fun hs => writes.commit_mem_of_sound fun k hk => ?_, fun hm k hk => writes.read_commit hm hk, ?_⟩
  · obtain ⟨harea, hk⟩ := Thread.mem_codeWords.mp hk
    exact hs harea k hk
  · rw [hme]
    exact ⟨rfl, rfl, lvl_toUser _, rfl, rfl, rfl, rfl, rfl, rfl, hg, hown, fun l hl => thread_returned_ne s hl⟩

end Sys2Proof
end

section
/-! PROOFS. O12: division by 0 and of the least number by -1, and why no division traps. -/
namespace Sys2Proof.Machine
open Sys2Proof

/-- R82: the divide unit is started, which its core remembers, or the turn is lost. -/
theorem startDivide_cases (m : Mem) (d : Dev) :
    startDivide m d = .error .lose ∨ ∃ e, startDivide m d = .ok ((), e) ∧ SameButCores d e := by
  unfold startDivide
  extract_lets ca
  split
  · split
    · exact .inl rfl
    · exact .inr ⟨_, rfl, rfl⟩
  · exact .inr ⟨_, rfl, rfl⟩
/-- R85: the effect of a division loses the turn or succeeds, and stops no other way. -/
theorem divRR_cases (f : D → D → D) (d a b : BitVec 5) (m : Mem) (dv : Dev) :
    divRR f d a b m dv = .error .lose ∨ ∃ e, divRR f d a b m dv = .ok ((), e) ∧ e.last = dv.last := by
  obtain hlose | ⟨d1, hstart, h1⟩ := startDivide_cases m dv
  · exact .inl (bind_of_error hlose)
  · obtain ⟨x, d2, ha, h2⟩ := gv_total a m d1
    obtain ⟨y, d3, hb, h3⟩ := gv_total b m d2
    exact .inr ⟨_, (bind_of_ok hstart).trans ((bind_of_ok ha).trans (bind_of_ok hb)), ((h1.trans h2).trans h3).last⟩

/-- R85: a division whose sources can be read and whose destination can be claimed does not trap. -/
theorem run_divRR {s : State} {d a b : BitVec 5} {xs : List D} {v : Dev} (i : Instr) (mode mode' : Bool) (f : D → D → D) (hv : s.ready)
    (hread : s.start.readGs [a, b] = some (xs, v)) (hd : s.start.claim d) :
    ∃ t, s.run i (shDiv d a b mode mode') (divRR f d a b) = .next t ∧ t.dev.last ≠ .trapped := by
  have hc : checkStop s.start i (shDiv d a b mode mode') = none := checkStop_long (ps := [(a, mode), (b, mode')]) hread hd
  obtain hlose | ⟨e, he, hlast⟩ := divRR_cases f d a b s.mem s.start
  · obtain ⟨t, ht, hlost⟩ := run_lost hv hc hlose
    exact ⟨t, ht, by rw [hlost]; exact nofun⟩
  · exact ⟨_, run_ok hv hc he, by rw [commit_last, hlast]; exact nofun⟩

/-- R85: a divisor of 0. -/
theorem divide_by_zero (x : D) : divS x 0 = 0xFFFFFFFFFFFFFFFF#64 ∧ divU x 0 = 0xFFFFFFFFFFFFFFFF#64 ∧ remS x 0 = x ∧ remU x 0 = x :=
  ⟨rfl, rfl, rfl, rfl⟩

/-- Settles O12: the corners are those of the definitions, and the only stop in the effect of a division is the busy unit's. -/
theorem divisionCorners : Obligations.DivisionCorners := by
  unfold Obligations.DivisionCorners
  refine ⟨divide_by_zero, fun r hr => ?_, fun d a b m n s xs v hv hread hd i hi => ?_⟩
  · simp only [List.mem_cons, List.not_mem_nil, or_false] at hr
    obtain rfl | rfl | rfl | rfl := hr <;> decide
  · simp only [List.mem_cons, List.not_mem_nil, or_false] at hi
    obtain rfl | rfl | rfl | rfl := hi
    · exact run_divRR (.div d a b m n) m n divS hv hread hd
    · exact run_divRR (.divn d a b m n) m n divU hv hread hd
    · exact run_divRR (.rem d a b m n) m n remS hv hread hd
    · exact run_divRR (.remn d a b m n) m n remU hv hread hd

end Sys2Proof.Machine
end

section
/-! PROOFS. O14: JALR's target, link and misaligned case. -/
namespace Sys2Proof.Machine
open Sys2Proof

theorem exec_jalr (d a : BitVec 5) (m : Bool) (k : BitVec 15) (s : State) :
    exec (.jalr d a m k) s = s.run (.jalr d a m k) (shR d a m) (jumpReg d a k) := rfl

section
variable {m : Mem} {d e : Dev} {r a : BitVec 5} {k : BitVec 15} {x : D}
/-- R94: the target is computed from the source as it was read, and the link is written after. -/
theorem jumpReg_aligned (h : gv a m d = .ok (x, e)) (ht : (x + k.signExtend 64).toNat % 4 = 0) :
    jumpReg r a k m d = .ok ((), (e.writeG r (e.me.pc + 4)).mine fun t => { t with pc := x + k.signExtend 64 }) := by
  refine (bind_of_ok h).trans ?_
  rw [if_neg (not_not.mpr ht)]
  exact (bind_of_ok (show me m e = .ok (e.me, e) from rfl)).trans (bind_of_ok (wg_eq ..))
/-- R39: a misaligned target stops the instruction before it writes its link. -/
theorem jumpReg_misaligned (h : gv a m d = .ok (x, e)) (ht : (x + k.signExtend 64).toNat % 4 ≠ 0) :
    jumpReg r a k m d = .error (.trap 0x05 0 (x + k.signExtend 64) 0 none) := by
  refine (bind_of_ok h).trans ?_
  rw [if_pos ht]
  rfl
end

/-- Settles O14: the checks pass, the source that was read gives the target, and its low bits choose between the jump, which writes
no memory, and the trap, which finds the machine as it was. -/
theorem jumpRegister : Obligations.JumpRegister := by
  unfold Obligations.JumpRegister
  intro d a m k s xs v hv hread hd target
  have hc : checkStop s.start (.jalr d a m k) (shR d a m) = none := checkStop_short (ps := [(a, m)]) hread hd
  obtain ⟨x, rfl, hx⟩ := readGs_single hread
  have hgv : gv a s.mem s.start = .ok (x, v) := gv_of_readG s.mem hx
  obtain ⟨hsame, -, -⟩ := readG_spec hx m
  rw [exec_jalr]
  refine ⟨fun ht => ?_, fun ht htrap => run_trapped hv htrap hc (jumpReg_misaligned hgv ht)⟩
  obtain ⟨hw, hz⟩ := writes_writeG v d (s.me.pc + 4)
  have jumps := jumpReg_aligned (r := d) hgv ht
  rw [hsame.me, start_me] at jumps
  exact (run_ok hv hc jumps).trans (congrArg _ (commit_quiet s.mem _ (hw.trans hsame.wbuf) (hz.trans hsame.wclear)))

end Sys2Proof.Machine
end

section
/-! PROOFS. O18: SYSC enters S from U, is illegal in S, and what its word is. -/
namespace Sys2Proof.Machine
open Sys2Proof

/-- A must-be-zero field is the word under the field's mask. -/
theorem zf_eq_and (n lo len : Nat) : zf n lo len = n &&& ((2 ^ len - 1) * 2 ^ lo) := by
  refine Nat.eq_of_testBit_eq fun i => ?_
  simp only [zf, Nat.testBit_mul_two_pow, Nat.testBit_mod_two_pow, Nat.testBit_div_two_pow, Nat.testBit_and,
    Nat.testBit_two_pow_sub_one]
  by_cases h : lo ≤ i <;> simp [h, Bool.and_comm]

/-- R101: d, ma and mb are the bits of 0x03E0_0600. -/
theorem mustBeZero_sysc (w : Word) : zf w.toNat 9 2 + zf w.toNat 21 5 = 0 ↔ w &&& 0x03E00600 = 0 := by
  have hw : (w &&& 0x03E00600).toNat = zf w.toNat 9 2 ||| zf w.toNat 21 5 := by
    rw [BitVec.toNat_and, zf_eq_and, zf_eq_and, ← Nat.and_or_distrib_left]
    rfl
  rw [← BitVec.toNat_inj, hw]
  simp

theorem decodeRaw_of_sysc {w : Word} (hop : w.toNat / 67108864 = 0) (hsel : w.toNat % 512 = 10) :
    decodeRaw w = some (.sysc (w.extractLsb' 11 10), zf w.toNat 9 2 + zf w.toNat 21 5) := by
  rw [decodeRaw, hop]
  change decMisc w.toNat = _
  simp only [decMisc, hsel, bf, BitVec.extractLsb', Nat.shiftRight_eq_div_pow]
theorem refusedFields_sysc (c : BitVec 10) : refusedFields (.sysc c) = 0 := rfl
theorem decode_of_sysc {w : Word} (hop : w.toNat / 67108864 = 0) (hsel : w.toNat % 512 = 10) :
    decode w = if zf w.toNat 9 2 + zf w.toNat 21 5 = 0 then .ok (.sysc (w.extractLsb' 11 10))
      else .error (.reservedField (zf w.toNat 9 2 + zf w.toNat 21 5)) := by
  simp [decode, decodeRaw_of_sysc hop hsel, refusedFields_sysc]

/-- The effect of SYSC: an entry of S past the instruction from U, an exact trap at it in S. -/
def syscBody (c : BitVec 10) : M Unit := do
  let t ← me
  if t.priv then trap 0x01 ((encode (.sysc c)).setWidth 64) 1
  else stop (.trap 0x00 0 (c.setWidth 64) 0 (some (t.pc + 4)))
theorem exec_sysc (c : BitVec 10) (s : State) : exec (.sysc c) s = s.run (.sysc c) {} (syscBody c) := rfl
theorem syscBody_eq (c : BitVec 10) (m : Mem) (d : Dev) : syscBody c m d =
    if d.me.priv then .error (.trap 0x01 0 ((encode (.sysc c)).setWidth 64) 1 none)
    else .error (.trap 0x00 0 (c.setWidth 64) 0 (some (d.me.pc + 4))) := by
  unfold syscBody
  refine (bind_of_ok (show me m d = .ok (d.me, d) from rfl)).trans ?_
  split <;> rfl

/-- Settles O18: the word's field [20:11] is the code, and its other fields are must-be-zero; the privilege of the thread chooses
between the two traps. -/
theorem systemCall : Obligations.SystemCall := by
  unfold Obligations.SystemCall
  refine ⟨fun w hmask => ?_, fun s c hv ht => ?_⟩
  · obtain ⟨hop, hsel⟩ : w.toNat / 67108864 = 0 ∧ w.toNat % 512 = 10 := opcode_selector_of_and hmask
    rw [decode_of_sysc hop hsel]
    refine ⟨fun hz => if_pos ((mustBeZero_sysc w).mpr hz), fun hz i => ?_⟩
    rw [if_neg (mt (mustBeZero_sysc w).mp hz)]
    exact nofun
  · have hc := checkStop_plain s.start (.sysc c)
    have hbody := syscBody_eq c s.mem s.start
    rw [exec_sysc]
    cases hp : s.me.priv
    · exact ⟨_, run_error hv hc (hbody.trans (if_neg (ne_true_of_eq_false hp))), fun _ => trapRecord_takeTrap ht .., nofun⟩
    · obtain ⟨t, hrun, htrap⟩ := run_trapped hv ht hc (hbody.trans (if_pos hp))
      exact ⟨t, hrun, nofun, fun _ => htrap⟩

end Sys2Proof.Machine
end
